-- ==== Sys2Proof/Word.lean ====
section
/-! DEFINITION. The word types of the Sirpen G4 model and their plainest arithmetic: bytes, 32- and 64-bit words,
register numbers. Everything finer (fields, formats, byte order) stands in Decode.lean and Machine/. -/
namespace Sys2Proof

/-- A 64-bit register word (R14). -/
abbrev Word := BitVec 64

/-- A byte of memory. -/
abbrev Byte := BitVec 8

/-- The number of a general register g0 to g63 (R14, R76). -/
abbrev Reg := BitVec 6

/-- The signed order of two words: the smaller (R137 min). -/
def Word.smin (a b : Word) : Word := if a.slt b then a else b

/-- The signed order of two words: the larger (R137 max). -/
def Word.smax (a b : Word) : Word := if a.slt b then b else a

/-- The unsigned order of two words: the smaller (R137 minn). -/
def Word.umin (a b : Word) : Word := if a.ult b then a else b

/-- The unsigned order of two words: the larger (R137 maxn). -/
def Word.umax (a b : Word) : Word := if a.ult b then b else a

/-- A truth value as a register word: 1 or 0 (R137 slt, sltn, seq; R146 comparisons). -/
def Word.ofBool (b : Bool) : Word := if b then 1#64 else 0#64

/-- The all-ones word: the failing tensor address of R142, the quotient by zero of R51. -/
def Word.allOnes : Word := BitVec.allOnes 64

end Sys2Proof
end

