-- ==== Sys2Proof/Syntax.lean ====
section
/-! DEFINITION. The instructions of the Sirpen G4: one constructor per row of spec/opcode_table.json. A row is a step
of the part, whole and indivisible: a scalar instruction (R76 to R93), a stream command (R94 to R98), the firing of a
node of a loaded mantle (R101 to R105), or an event of the scheduler, the memories, the host or the peers. -/
namespace Sys2Proof

/-- The sixteen formats of R49, in code order. -/
inductive Fmt where
  | f64 | f32 | bf16 | f16 | e4m3 | e5m2 | cf8 | i8 | n8 | i16 | i32 | i64 | n16 | n32 | n64 | ki
  deriving DecidableEq, Repr

/-- The seven tests of BR and CALL (R90, R157), in code order; code 7 is illegal. -/
inductive Cond where
  | always | eqz | nez | ltz | gez | gtz | lez
  deriving DecidableEq, Repr

/-- The sizes of LD and ST (R89), in code order; code 7 is illegal. -/
inductive MSize where
  | i8 | n8 | i16 | n16 | i32 | n32 | d64
  deriving DecidableEq, Repr

/-- The full/empty qualifier of LD and ST (R89). LD has none, keep and clear; ST has none and set. -/
inductive Fe where
  | none | keep | clear | set
  deriving DecidableEq, Repr

/-- The completion target of a stream command (R96). -/
inductive CTarget where
  | none
  /-- CKIND 1: a barrier object in scratch, by tile designator and offset bits [18:5]. -/
  | scratch (arv : Bool) (desig : BitVec 11) (ofs : BitVec 14)
  /-- CKIND 2: an entry of the current mantle's barrier table. -/
  | table (arv : Bool) (entry : BitVec 6)
  deriving DecidableEq, Repr

/-- The fields every stream command carries (R94): ACQ, REL, SCOPE, PORT and the completion target. -/
structure CmdHdr where
  acq   : Bool
  rel   : Bool
  scope : BitVec 3
  port  : BitVec 7
  ct    : CTarget
  deriving DecidableEq, Repr

/-- An input or output reference of a node record (R102). -/
inductive Ref where
  | none
  | circuit (dir : BitVec 2) (lane : BitVec 3)
  | near (slot : BitVec 8) (out : Bool)
  | ring (h : BitVec 5)
  | const (k : BitVec 8)
  | reed (dir : BitVec 2) (lane : BitVec 4)
  | seep (dir : BitVec 2) (lane : BitVec 3)
  deriving DecidableEq, Repr

/-- The guard of a node record (R103). -/
inductive Guard where
  | off
  | reed (dir : BitVec 2) (lane : BitVec 4)
  | near (out : Bool) (slot : BitVec 4)
  deriving DecidableEq, Repr

/-- The fields every node record carries (R101 to R104). -/
structure NodeHdr where
  var   : BitVec 4
  fmt   : Fmt
  slot  : BitVec 8
  in0   : Ref
  in1   : Ref
  in2   : Ref
  in3   : Ref
  out0  : Ref
  out1  : Ref
  guard : Guard
  rm    : BitVec 2
  sat   : Bool
  clone : Bool
  deriving DecidableEq, Repr

/-- The fields the five matrix nodes share (R236). -/
structure MatHdr where
  baren  : Bool
  bararv : Bool
  barix  : BitVec 6
  recen  : Bool
  recofs : BitVec 15
  deriving DecidableEq, Repr

/-- The operation of a host or peer access (R408, R410). -/
inductive ExtOp where
  | read (n : Nat)
  | write (bytes : List (BitVec 8))
  /-- a read-modify-write of 4 or 8 bytes: the operation by its code in R170's order (0 cas, 1 add, 2 and, 3 or, 4 xor, 5 min,
  6 max, 7 minn, 8 maxn, 9 swap), its operand, and the value cas compares with -/
  | rmw (op : Nat) (w32 : Bool) (b d : BitVec 64)
  deriving DecidableEq, Repr

/-- The requests the SPDM responder of R414 is described for, a session's opening and end among them; any other is `other`. -/
inductive SpdmReq where
  | getDigests | getCertificate (slot : Nat) | getMeasurement (index : Nat)
  | openSession | endSession | keySet (stream : Nat) (key : List (BitVec 8)) | other
  deriving DecidableEq, Repr

/-- One constructor per row of spec/opcode_table.json, in the table's order. Scalar instructions carry the fields of
their word, stream commands the fields of R94 and of their OPND layout, node firings the fields of their record,
events their parameters. Which fen, tile, port or node acts is in State (`State.here`). -/
inductive Instr where
  -- the control core's block steps
  | fetchBlock | commit | grant | takeNodeTrap | wfeTimeout | claimRetry
  | queueWake (quad : BitVec 4)
  | cmdComplete
  -- INT (R85, R137)
  | add (rd ra rb : Reg) | sub (rd ra rb : Reg) | and (rd ra rb : Reg) | or (rd ra rb : Reg)
  | xor (rd ra rb : Reg) | andn (rd ra rb : Reg) | sll (rd ra rb : Reg) | srl (rd ra rb : Reg)
  | sra (rd ra rb : Reg) | ror (rd ra rb : Reg) | slt (rd ra rb : Reg) | sltn (rd ra rb : Reg)
  | seq (rd ra rb : Reg) | min (rd ra rb : Reg) | max (rd ra rb : Reg) | minn (rd ra rb : Reg)
  | maxn (rd ra rb : Reg) | clz (rd ra : Reg) | ctz (rd ra : Reg) | popc (rd ra : Reg)
  -- MULDIV (R138)
  | mul (rd ra rb : Reg) | mulh (rd ra rb : Reg) | mulhn (rd ra rb : Reg) | div (rd ra rb : Reg)
  | divn (rd ra rb : Reg) | rem (rd ra rb : Reg) | remn (rd ra rb : Reg)
  -- TENS (R141 to R145)
  | mksa (rd ra rb : Reg) | taddr (rd ra rb : Reg) | tbase (rd ra : Reg) | tdim (rd ra rb : Reg)
  | tstr (rd ra rb : Reg) | tinfo (rd ra : Reg)
  -- FP (R86, R146): f32 selects FP32, dyn rounds under csr.rm
  | fadd (rd ra rb : Reg) (f32 dyn : Bool) (rm : BitVec 2)
  | fsub (rd ra rb : Reg) (f32 dyn : Bool) (rm : BitVec 2)
  | fmul (rd ra rb : Reg) (f32 dyn : Bool) (rm : BitVec 2)
  | fdiv (rd ra rb : Reg) (f32 dyn : Bool) (rm : BitVec 2)
  | fsqrt (rd ra : Reg) (f32 dyn : Bool) (rm : BitVec 2)
  | fmin (rd ra rb : Reg) (f32 : Bool)
  | fmax (rd ra rb : Reg) (f32 : Bool)
  | fma (rd ra rb : Reg) (f32 dyn : Bool) (rm : BitVec 2)
  | feq (rd ra rb : Reg) (f32 : Bool)
  | flt (rd ra rb : Reg) (f32 : Bool)
  | fle (rd ra rb : Reg) (f32 : Bool)
  -- CVT (R87, R149)
  | cvt (rd ra : Reg) (dyn : Bool) (rm : BitVec 2) (sat : Bool) (dst src : Fmt)
  -- CSR (R91, R185)
  | csrr (rd : Reg) (csr : BitVec 12)
  | csrw (csr : BitVec 12) (ra : Reg)
  | csrx (rd ra : Reg) (csr : BitVec 12)
  -- IMM, LUI, LBA (R88, R139, R140)
  | addi (rd ra : Reg) (imm : BitVec 14) | andi (rd ra : Reg) (imm : BitVec 14)
  | ori (rd ra : Reg) (imm : BitVec 14) | xori (rd ra : Reg) (imm : BitVec 14)
  | slli (rd ra : Reg) (sh : BitVec 6) | srli (rd ra : Reg) (sh : BitVec 6)
  | srai (rd ra : Reg) (sh : BitVec 6)
  | slti (rd ra : Reg) (imm : BitVec 14) | sltni (rd ra : Reg) (imm : BitVec 14)
  | lui (rd : Reg) (imm : BitVec 20) | lba (rd : Reg) (imm : BitVec 20)
  -- LD, ST (R89, R150 to R156)
  | ld (rd base : Reg) (size : MSize) (fe : Fe) (imm : BitVec 9)
  | st (rd base : Reg) (size : MSize) (fe : Fe) (imm : BitVec 9)
  -- control transfer (R157 to R159), CTL (R91, R186 to R188)
  | br (cond : Cond) (ra : Reg) (ofs : BitVec 17)
  | call (cond : Cond) (ra : Reg) (ofs : BitVec 17)
  | jr (rd ra : Reg)
  | halt | trap (code : BitVec 10) | tret | wfe | sev
  -- SYNCD, SYNCW (R92, R168 to R170): w32 selects SYNCW
  | fence (scope : BitVec 3)
  | lda (w32 : Bool) (rd ra : Reg) (scope : BitVec 3)
  | stl (w32 : Bool) (ra rb : Reg) (scope : BitVec 3)
  | cas (w32 : Bool) (rd ra rb : Reg) (scope : BitVec 3)
  | amoAdd (w32 : Bool) (rd ra rb : Reg) (scope : BitVec 3)
  | amoAnd (w32 : Bool) (rd ra rb : Reg) (scope : BitVec 3)
  | amoOr (w32 : Bool) (rd ra rb : Reg) (scope : BitVec 3)
  | amoXor (w32 : Bool) (rd ra rb : Reg) (scope : BitVec 3)
  | amoMin (w32 : Bool) (rd ra rb : Reg) (scope : BitVec 3)
  | amoMax (w32 : Bool) (rd ra rb : Reg) (scope : BitVec 3)
  | amoMinn (w32 : Bool) (rd ra rb : Reg) (scope : BitVec 3)
  | amoMaxn (w32 : Bool) (rd ra rb : Reg) (scope : BitVec 3)
  | amoSwap (w32 : Bool) (rd ra rb : Reg) (scope : BitVec 3)
  -- BAR (R171 to R174)
  | binit (ra rb : Reg) (scope : BitVec 3) | barv (rd ra : Reg) | bexp (ra rb : Reg)
  | bwait (rd ra rb : Reg) (scope : BitVec 3)
  -- QUEUE (R175 to R180)
  | qinit (ra rb : Reg) | qenq (ra rb : Reg) | qdeq (ra rb : Reg) | qtenq (rd ra rb : Reg)
  | qtdeq (rd ra rb : Reg) | qstat (rd ra : Reg) | qdrain (ra : Reg)
  -- RING, RDESC (R181, R182)
  | rwfill (rd : Reg) (h : BitVec 5) (cnt : BitVec 15)
  | rwfree (rd : Reg) (h : BitVec 5) (cnt : BitVec 15)
  | rpop (h : BitVec 5) (cnt : BitVec 15)
  | rpush (h : BitVec 5) (cnt : BitVec 15)
  | rset (h : BitVec 5) (ra : Reg)
  | rget (h : BitVec 5) (ra : Reg)
  -- ISSUE, CFG, CMO (R183, R184, R189)
  | issue (ra rb : Reg) | cfgld (rd ra rb : Reg)
  | dcinv (ra rb : Reg) | dcdrain (ra rb : Reg) | icinv (ra rb : Reg)
  -- stream commands (R98, R200 to R218)
  | copy (h : CmdHdr) (src : BitVec 12) (rm : BitVec 2) (sat : Bool) (dst : BitVec 12) (o2 o1 o0 : BitVec 16)
  | copyr (h : CmdHdr) (ring : BitVec 5) (rm : BitVec 2) (sat : Bool) (src : BitVec 12) (o2 o1 o0 : BitVec 16)
  | copyx (h : CmdHdr) (ring : BitVec 5) (rm : BitVec 2) (sat : Bool) (dst : BitVec 12) (o2 o1 o0 : BitVec 16)
  | copyred (h : CmdHdr) (src : BitVec 12) (rm : BitVec 2) (sat : Bool) (dst : BitVec 12) (op : BitVec 2) (o1 o0 : BitVec 16)
  | gather (h : CmdHdr) (t : BitVec 12) (desig : BitVec 11) (rofs iofs : BitVec 15) (nm1 : BitVec 12) (n32 : Bool)
  | scatter (h : CmdHdr) (t : BitVec 12) (desig : BitVec 11) (rofs iofs : BitVec 15) (nm1 : BitVec 12) (n32 : Bool)
  | fill (h : CmdHdr) (t : BitVec 12) (scr : Bool) (desig : BitVec 11) (ofs : BitVec 15) (val : BitVec 32)
  | agload (h : CmdHdr) (nm1 : BitVec 8) (addr : BitVec 48)
  | sbar (h : CmdHdr) (mask : BitVec 7)
  | carrive (h : CmdHdr) | cexpect (h : CmdHdr) (bytes : BitVec 32) | cnop (h : CmdHdr)
  | qput (h : CmdHdr) (nm1 : BitVec 8) (ring : BitVec 5) (q : BitVec 48)
  | qget (h : CmdHdr) (nm1 : BitVec 8) (ring : BitVec 5) (q : BitVec 48)
  | depdec (h : CmdHdr) (die : BitVec 2) (amount : BitVec 8) (name : BitVec 32)
  | mred (h : CmdHdr) (t : BitVec 12) (rm : BitVec 2) (sat : Bool) (op : BitVec 2) (desig : BitVec 11) (sofs : BitVec 15) (idx nm1 : BitVec 8) (tag : BitVec 12) (tmo : BitVec 5)
  | mredCombine (key : Nat) (tag : BitVec 12) | mredTimeout (key : Nat) (tag : BitVec 12)
  | matom (h : CmdHdr) (t : BitVec 12) (op : BitVec 4) (desig : BitVec 11) (sofs : BitVec 15) (ret : Bool) (rofs : BitVec 15) (ord : Bool)
  | maxpy (h : CmdHdr) (t : BitVec 12) (rm : BitVec 2) (sat : Bool) (desig : BitVec 11) (xofs : BitVec 15) (a : BitVec 32)
  | thresh (h : CmdHdr) (score : BitVec 32)
  | launch (h : CmdHdr) (addr : BitVec 48)
  | launchAccept (k : Nat)
  | mswitch (h : CmdHdr) (m : BitVec 2) (now : Bool)
  | pref (h : CmdHdr) (t : BitVec 12) | inval (h : CmdHdr) (t : BitVec 12) | flush (h : CmdHdr) (t : BitVec 12)
  -- vector nodes (R227 to R235)
  | vadd (n : NodeHdr) | vsub (n : NodeHdr) | vmul (n : NodeHdr) | vfma (n : NodeHdr) | vdiv (n : NodeHdr)
  | vsqrt (n : NodeHdr) | vmin (n : NodeHdr) | vmax (n : NodeHdr) | vabs (n : NodeHdr) | vneg (n : NodeHdr)
  | vand (n : NodeHdr) | vor (n : NodeHdr) | vxor (n : NodeHdr) | vshl (n : NodeHdr) | vshr (n : NodeHdr)
  | vclamp (n : NodeHdr)
  | vcmp (n : NodeHdr) (cc : BitVec 3) (any : Bool)
  | sel (n : NodeHdr)
  | cvtNode (n : NodeHdr) (sfmt : Fmt) (stid dtid : BitVec 12)
  | vperm (n : NodeHdr)
  | vrec (n : NodeHdr) | vrsq (n : NodeHdr) | vexp (n : NodeHdr) | vlog (n : NodeHdr) | vtanh (n : NodeHdr)
  | vsigm (n : NodeHdr)
  | vred (n : NodeHdr) (op lvl : BitVec 3) | vscan (n : NodeHdr) (op lvl : BitVec 3)
  | vbcast (n : NodeHdr) (elem : BitVec 5)
  -- matrix nodes (R236 to R243)
  | mma (n : NodeHdr) (m : MatHdr) (km1 : BitVec 16) (cin : Bool)
  | mpoly (n : NodeHdr) (m : MatHdr) (deg : BitVec 3)
  | miter (n : NodeHdr) (m : MatHdr) (cap : BitVec 16) (tol lim : BitVec 32) (tdiv : Bool)
  | msort (n : NodeHdr) (m : MatHdr)
  | mtrn (n : NodeHdr) (m : MatHdr)
  -- controllers (R244 to R249)
  | cseq (n : NodeHdr) (cnt : BitVec 32) | cpipe (n : NodeHdr) (cnt : BitVec 32) (dm1 : BitVec 4)
  | cstrm (n : NodeHdr) (cnt : BitVec 32)
  | steer (n : NodeHdr) | prime (n : NodeHdr) (nm1 : BitVec 8)
  | source (n : NodeHdr) (nbeat : BitVec 32) (endc : BitVec 4)
  | count (n : NodeHdr) (cnt base step : BitVec 32) (endc : BitVec 4)
  | sink (n : NodeHdr) (ndone : BitVec 16)
  | selectToken | mantleSwitch
  -- memory nodes (R250 to R257)
  | load (n : NodeHdr) (scope : BitVec 3) | store (n : NodeHdr) (scope : BitVec 3)
  | ldfe (n : NodeHdr) (scope : BitVec 3) | stfe (n : NodeHdr) (scope : BitVec 3)
  | ojoin (n : NodeHdr) (scope : BitVec 3)
  | atom (n : NodeHdr) (scope : BitVec 3) (op : BitVec 4)
  | rdring (n : NodeHdr) (scope : BitVec 3) | wrring (n : NodeHdr) (scope : BitVec 3) (close : BitVec 4)
  -- sparse and retrieval nodes (R261 to R285)
  | fscan (n : NodeHdr) (ptrofs crdofs : BitVec 15) (cnt : BitVec 32)
  | isect (n : NodeHdr) | union (n : NodeHdr) (op : BitVec 3) | repeatNode (n : NodeHdr) (lvl : BitVec 3)
  | sred (n : NodeHdr) (op lvl : BitVec 3) | sjoin (n : NodeHdr) (op lvl rlvl : BitVec 3)
  | sacc (n : NodeHdr) (accofs : BitVec 15) (wm1 : BitVec 13) (lvl : BitVec 3)
  | split (n : NodeHdr) | merge (n : NodeHdr) | rmerge (n : NodeHdr)
  | gath (n : NodeHdr) (scope : BitVec 3) (tid : BitVec 12) (icrd : Bool)
  | scat (n : NodeHdr) (scope : BitVec 3) (tv tc tp : BitVec 12) (lvl : BitVec 3)
  | agen (n : NodeHdr) (scope : BitVec 3) (start : BitVec 8)
  | qport (n : NodeHdr)
  | pqadc (n : NodeHdr) (tabofs : BitVec 15) (mm1 : BitVec 6) (iszw : BitVec 8)
  | bound (n : NodeHdr) (recen : Bool) (recofs : BitVec 15)
  | topk (n : NodeHdr) (km1 : BitVec 8) (seg : Bool) (lvl : BitVec 3) (qen : Bool) (q : BitVec 42) (recen : Bool) (recofs : BitVec 15)
  | seepm (n : NodeHdr) (qen : Bool) (q : BitVec 42)
  | tomb (n : NodeHdr) (scope : BitVec 3) (tid : BitVec 12)
  | vset (n : NodeHdr) (scope : BitVec 3) (tvis ttomb : BitVec 12) (expdel ten : Bool)
  | kipack (n : NodeHdr) (base : BitVec 32)
  | fcomp (n : NodeHdr) (eps : BitVec 32)
  -- translation units and EMTs (R309, R318)
  | walkStart (die : BitVec 2) | walkComplete (die : BitVec 2) (k : Nat)
  | lineFill (line : Nat) | retryTimer (k : Nat)
  -- launch, scheduling and placement (R329 to R346, R379)
  | qportSubmit (fn : BitVec 7) (size : Nat) (rec : BitVec 1024)
  | distribute | placementAttempt (die : BitVec 2) | fenStart | aging (die : BitVec 2) (k : Nat)
  | taskComplete | balancerWindow (die : BitVec 2) | cloneNode (slot : BitVec 8)
  | rateRefill (die : BitVec 2) (part : BitVec 4)
  -- time slices, freeze, save and restore (R381 to R389)
  | sliceEnd (part : BitVec 4) | freezeComplete (part : BitVec 4) | contextSwitch (part : BitVec 4)
  | restoreComplete (part : BitVec 4) | externalResponse (k : Nat) (data : List (BitVec 8))
  -- migration (R390 to R394)
  | migPreCopy (fn : BitVec 7) | migStop (fn : BitVec 7) | migRun (fn : BitVec 7) | migResume (fn : BitVec 7)
  | sleeveGo (fn : BitVec 7)
  -- host registers (R403 to R409)
  | faultVerdict (fn : BitVec 7) (seq : BitVec 64)
  | twWrite (fn : BitVec 7) (asid : BitVec 16) (tnum : BitVec 12)
  | twRead (fn : BitVec 7) (asid : BitVec 16) (tnum : BitVec 12)
  | twRemove (fn : BitVec 7) (asid : BitVec 16) (tnum : BitVec 12)
  | invVa (fn : BitVec 7) (asid : BitVec 16) | invAsid (fn : BitVec 7) (asid : BitVec 16)
  | invIpa (fn : BitVec 7) (part : BitVec 16) | invPart (fn : BitVec 7) (part : BitVec 16)
  | invAll (fn : BitVec 7) | invComplete (fn : BitVec 7)
  | registerWrite (fn : BitVec 7) (ofs : BitVec 21) (val : BitVec 64)
  | hostMemAccess (ofs : Nat) (op : ExtOp)
  | peerAccess (srcMod : BitVec 6) (srcPart : BitVec 4) (die : BitVec 2) (ofs : Nat) (op : ExtOp)
  | portDown (port : BitVec 4) | portDownTimeout (port : BitVec 4)
  | spdmRequest (req : SpdmReq)
  | bringUp | powerWindow (watts : Nat) | thermalThrottle (tj : BitVec 8) | thermalTrip (tj : BitVec 8)
  | groupLaunchInstance (srcMod : BitVec 6) (asid : BitVec 16) (rec : BitVec 1024)
  | abandonedInstanceEnd (key : Nat) (tag : BitVec 12)
  | cxlLinkTrained
  deriving DecidableEq, Repr

end Sys2Proof
end

