-- ==== Sys2Proof/Decode.lean ====
section
/-! DEFINITION. The three decoders of the G4 (R76 to R105): 32-bit scalar words, 128-bit stream commands and 256-bit
node records, each total and rejecting by name; after them the encoder, written from the same tables of the spec. -/
namespace Sys2Proof

/-- Bits [hi:lo] of a number (R3). -/
def fld (w hi lo : Nat) : Nat := w / 2 ^ lo % 2 ^ (hi + 1 - lo)

/-- Bit n of a number. -/
def bit (w n : Nat) : Bool := fld w n n == 1

/-- The n bits of a number from bit lo up. -/
def bv (n lo w : Nat) : BitVec n := BitVec.ofNat n (w / 2 ^ lo)

/-- Every listed range [hi:lo] of a number is zero (reserved fields, R3, R77). -/
def zeros (w : Nat) : List (Nat × Nat) → Bool
  | [] => true
  | (hi, lo) :: r => fld w hi lo == 0 && zeros w r

/-- A truth value as a number. -/
def b2n (b : Bool) : Nat := if b then 1 else 0

/-- Why a word, a command or a record is not an instruction. -/
inductive Reject where
  /-- R77: an unassigned major opcode (the block header's 0x3F among them), fn, op or code value. -/
  | unassigned
  /-- R77: a reserved field of the word, command or record is nonzero. -/
  | reserved
  /-- R77: a value that the opcode map marks illegal. -/
  | illegalValue
  /-- R45, R92: a scope code of 6 or 7. -/
  | scope
  /-- R96: CKIND 3. -/
  | ckind
  /-- R109 code 7: VAR or FMT not legal for the node. -/
  | varFmt
  /-- R109 code 8: invalid slot code, or a slot of the wrong kind for the node. -/
  | slot
  /-- R109 code 10: invalid reference kind or guard source. -/
  | reference
  deriving DecidableEq, Repr

/-- The code of cfgld for a rejected node record (R109). -/
def Reject.cfgCode : Reject → Nat
  | .unassigned => 6 | .varFmt => 7 | .illegalValue => 7 | .slot => 8 | .reference => 10 | .reserved => 15
  | .ckind => 15 | .scope => 16

/-- The format of a code (R49). -/
def Fmt.ofCode (c : Nat) : Fmt :=
  if c = 0 then .f64 else if c = 1 then .f32 else if c = 2 then .bf16 else if c = 3 then .f16
  else if c = 4 then .e4m3 else if c = 5 then .e5m2 else if c = 6 then .cf8 else if c = 7 then .i8
  else if c = 8 then .n8 else if c = 9 then .i16 else if c = 10 then .i32 else if c = 11 then .i64
  else if c = 12 then .n16 else if c = 13 then .n32 else if c = 14 then .n64 else .ki

/-- The code of a format (R49). -/
def Fmt.code : Fmt → Nat
  | .f64 => 0 | .f32 => 1 | .bf16 => 2 | .f16 => 3 | .e4m3 => 4 | .e5m2 => 5 | .cf8 => 6 | .i8 => 7
  | .n8 => 8 | .i16 => 9 | .i32 => 10 | .i64 => 11 | .n16 => 12 | .n32 => 13 | .n64 => 14 | .ki => 15

/-- The formats of floating point (R49). -/
def Fmt.isFloat : Fmt → Bool
  | .f64 | .f32 | .bf16 | .f16 | .e4m3 | .e5m2 => true
  | _ => false

/-- The integer formats (R49). -/
def Fmt.isInt : Fmt → Bool
  | .i8 | .n8 | .i16 | .i32 | .i64 | .n16 | .n32 | .n64 => true
  | _ => false

/-- The condition of a code 0 to 6 (R90). -/
def Cond.ofCode (c : Nat) : Option Cond :=
  if c = 0 then some .always else if c = 1 then some .eqz else if c = 2 then some .nez
  else if c = 3 then some .ltz else if c = 4 then some .gez else if c = 5 then some .gtz
  else if c = 6 then some .lez else none

/-- The code of a condition (R90). -/
def Cond.code : Cond → Nat
  | .always => 0 | .eqz => 1 | .nez => 2 | .ltz => 3 | .gez => 4 | .gtz => 5 | .lez => 6

/-- The access size of a code 0 to 6 (R89). -/
def MSize.ofCode (c : Nat) : Option MSize :=
  if c = 0 then some .i8 else if c = 1 then some .n8 else if c = 2 then some .i16 else if c = 3 then some .n16
  else if c = 4 then some .i32 else if c = 5 then some .n32 else if c = 6 then some .d64 else none

/-- The code of an access size (R89). -/
def MSize.code : MSize → Nat
  | .i8 => 0 | .n8 => 1 | .i16 => 2 | .n16 => 3 | .i32 => 4 | .n32 => 5 | .d64 => 6

/-! ## Scalar words (R76 to R93) -/

/-- INT (R85). -/
def decodeInt (w : Nat) : Except Reject Instr :=
  let d := bv 6 20 w; let a := bv 6 14 w; let b := bv 6 8 w; let fn := fld w 7 0
  if fn = 0 then .ok (.add d a b) else if fn = 1 then .ok (.sub d a b) else if fn = 2 then .ok (.and d a b)
  else if fn = 3 then .ok (.or d a b) else if fn = 4 then .ok (.xor d a b) else if fn = 5 then .ok (.andn d a b)
  else if fn = 6 then .ok (.sll d a b) else if fn = 7 then .ok (.srl d a b) else if fn = 8 then .ok (.sra d a b)
  else if fn = 9 then .ok (.ror d a b) else if fn = 10 then .ok (.slt d a b) else if fn = 11 then .ok (.sltn d a b)
  else if fn = 12 then .ok (.seq d a b) else if fn = 13 then .ok (.min d a b) else if fn = 14 then .ok (.max d a b)
  else if fn = 15 then .ok (.minn d a b) else if fn = 16 then .ok (.maxn d a b)
  else if 20 ≤ fn then .error .unassigned
  else if fld w 13 8 ≠ 0 then .error .reserved
  else if fn = 17 then .ok (.clz d a) else if fn = 18 then .ok (.ctz d a) else .ok (.popc d a)

/-- MULDIV (R84, R85). -/
def decodeMulDiv (w : Nat) : Except Reject Instr :=
  let d := bv 6 20 w; let a := bv 6 14 w; let b := bv 6 8 w; let fn := fld w 7 0
  if fn = 0 then .ok (.mul d a b) else if fn = 1 then .ok (.mulh d a b) else if fn = 2 then .ok (.mulhn d a b)
  else if fn = 3 then .ok (.div d a b) else if fn = 4 then .ok (.divn d a b) else if fn = 5 then .ok (.rem d a b)
  else if fn = 6 then .ok (.remn d a b) else .error .unassigned

/-- TENS (R85). -/
def decodeTens (w : Nat) : Except Reject Instr :=
  let d := bv 6 20 w; let a := bv 6 14 w; let b := bv 6 8 w; let fn := fld w 7 0
  if fn = 0 then .ok (.mksa d a b) else if fn = 1 then .ok (.taddr d a b)
  else if fn = 3 then .ok (.tdim d a b) else if fn = 4 then .ok (.tstr d a b)
  else if 6 ≤ fn then .error .unassigned
  else if fld w 13 8 ≠ 0 then .error .reserved
  else if fn = 2 then .ok (.tbase d a) else .ok (.tinfo d a)

/-- FP (R86, R148). -/
def decodeFp (w : Nat) : Except Reject Instr :=
  let d := bv 6 20 w; let a := bv 6 14 w; let b := bv 6 8 w
  let op := fld w 7 4; let f := bit w 3; let y := bit w 2; let m := bv 2 0 w
  if 11 ≤ op then .error .unassigned
  else if y && fld w 1 0 != 0 then .error .reserved
  else if op = 0 then .ok (.fadd d a b f y m) else if op = 1 then .ok (.fsub d a b f y m)
  else if op = 2 then .ok (.fmul d a b f y m) else if op = 3 then .ok (.fdiv d a b f y m)
  else if op = 7 then .ok (.fma d a b f y m)
  else if op = 4 then (if fld w 13 8 ≠ 0 then .error .reserved else .ok (.fsqrt d a f y m))
  else if fld w 2 0 ≠ 0 then .error .reserved
  else if op = 5 then .ok (.fmin d a b f) else if op = 6 then .ok (.fmax d a b f)
  else if op = 8 then .ok (.feq d a b f) else if op = 9 then .ok (.flt d a b f) else .ok (.fle d a b f)

/-- CVT (R87, R149). -/
def decodeCvt (w : Nat) : Except Reject Instr :=
  let d := bv 6 20 w; let a := bv 6 14 w; let y := bit w 13; let m := bv 2 11 w; let x := bit w 10
  let dst := Fmt.ofCode (fld w 7 4); let src := Fmt.ofCode (fld w 3 0)
  if fld w 9 8 ≠ 0 then .error .reserved
  else if dst = .cf8 ∨ dst = .ki ∨ src = .cf8 ∨ src = .ki then .error .illegalValue
  else if y && fld w 12 11 != 0 then .error .reserved
  else if !dst.isFloat && !src.isFloat && fld w 13 11 != 0 then .error .reserved
  else .ok (.cvt d a y m x dst src)

/-- CSR (R91). -/
def decodeCsr (w : Nat) : Except Reject Instr :=
  let d := bv 6 20 w; let a := bv 6 14 w; let c := bv 12 0 w; let op := fld w 13 12
  if op = 0 then (if fld w 19 14 ≠ 0 then .error .reserved else .ok (.csrr d c))
  else if op = 1 then (if fld w 25 20 ≠ 0 then .error .reserved else .ok (.csrw c a))
  else if op = 2 then .ok (.csrx d a c) else .error .unassigned

/-- CTL (R91): halt, trap, tret, wfe, sev. -/
def decodeCtl (w : Nat) : Except Reject Instr :=
  let op := fld w 13 10
  if 5 ≤ op then .error .unassigned
  else if fld w 25 14 ≠ 0 then .error .reserved
  else if op = 1 then .ok (.trap (bv 10 0 w))
  else if fld w 9 0 ≠ 0 then .error .reserved
  else if op = 0 then .ok .halt else if op = 2 then .ok .tret else if op = 3 then .ok .wfe else .ok .sev

/-- SYNCD and SYNCW (R92): w32 is bit 26 of the word. -/
def decodeSync (w : Nat) : Except Reject Instr :=
  let d := bv 6 20 w; let a := bv 6 14 w; let b := bv 6 8 w; let s := bv 3 5 w; let fn := fld w 4 0
  let q := bit w 26
  if 6 ≤ fld w 7 5 then .error .scope
  else if fn = 0 then
    (if q then .error .unassigned else if fld w 25 8 ≠ 0 then .error .reserved else .ok (.fence s))
  else if fn = 1 then (if fld w 13 8 ≠ 0 then .error .reserved else .ok (.lda q d a s))
  else if fn = 2 then (if fld w 25 20 ≠ 0 then .error .reserved else .ok (.stl q a b s))
  else if fn = 3 then .ok (.cas q d a b s)
  else if fn = 8 then .ok (.amoAdd q d a b s) else if fn = 9 then .ok (.amoAnd q d a b s)
  else if fn = 10 then .ok (.amoOr q d a b s) else if fn = 11 then .ok (.amoXor q d a b s)
  else if fn = 12 then .ok (.amoMin q d a b s) else if fn = 13 then .ok (.amoMax q d a b s)
  else if fn = 14 then .ok (.amoMinn q d a b s) else if fn = 15 then .ok (.amoMaxn q d a b s)
  else if fn = 16 then .ok (.amoSwap q d a b s) else .error .unassigned

/-- BAR (R92). -/
def decodeBar (w : Nat) : Except Reject Instr :=
  let d := bv 6 20 w; let a := bv 6 14 w; let b := bv 6 8 w; let s := bv 3 5 w; let fn := fld w 4 0
  if 4 ≤ fn then .error .unassigned
  else if 6 ≤ fld w 7 5 then .error .scope
  else if fn = 0 then (if fld w 25 20 ≠ 0 then .error .reserved else .ok (.binit a b s))
  else if fn = 3 then .ok (.bwait d a b s)
  else if fld w 7 5 ≠ 0 then .error .reserved
  else if fn = 1 then (if fld w 13 8 ≠ 0 then .error .reserved else .ok (.barv d a))
  else (if fld w 25 20 ≠ 0 then .error .reserved else .ok (.bexp a b))

/-- QUEUE (R92). -/
def decodeQueue (w : Nat) : Except Reject Instr :=
  let d := bv 6 20 w; let a := bv 6 14 w; let b := bv 6 8 w; let fn := fld w 4 0
  if 7 ≤ fn then .error .unassigned
  else if fld w 7 5 ≠ 0 then .error .reserved
  else if fn = 3 then .ok (.qtenq d a b) else if fn = 4 then .ok (.qtdeq d a b)
  else if fn = 5 then (if fld w 13 8 ≠ 0 then .error .reserved else .ok (.qstat d a))
  else if fld w 25 20 ≠ 0 then .error .reserved
  else if fn = 0 then .ok (.qinit a b) else if fn = 1 then .ok (.qenq a b) else if fn = 2 then .ok (.qdeq a b)
  else if fld w 13 8 ≠ 0 then .error .reserved else .ok (.qdrain a)

/-- RING (R93): majors 0x24 to 0x27. -/
def decodeRing (w : Nat) : Except Reject Instr :=
  let d := bv 6 20 w; let h := bv 5 15 w; let c := bv 15 0 w; let op := fld w 27 26
  if fld w 14 0 = 0 then .error .illegalValue
  else if op = 0 then .ok (.rwfill d h c) else if op = 1 then .ok (.rwfree d h c)
  else if fld w 25 20 ≠ 0 then .error .reserved
  else if op = 2 then .ok (.rpop h c) else .ok (.rpush h c)

/-- RDESC (R93). -/
def decodeRdesc (w : Nat) : Except Reject Instr :=
  if fld w 25 20 ≠ 0 ∨ fld w 13 8 ≠ 0 ∨ fld w 6 5 ≠ 0 then .error .reserved
  else if bit w 7 then .ok (.rget (bv 5 0 w) (bv 6 14 w)) else .ok (.rset (bv 5 0 w) (bv 6 14 w))

/-- IMM (R88): majors 0x08 to 0x10. -/
def decodeImm (w : Nat) : Except Reject Instr :=
  let d := bv 6 20 w; let a := bv 6 14 w; let i := bv 14 0 w; let s := bv 6 0 w; let maj := fld w 31 26
  if maj = 0x08 then .ok (.addi d a i) else if maj = 0x09 then .ok (.andi d a i)
  else if maj = 0x0A then .ok (.ori d a i) else if maj = 0x0B then .ok (.xori d a i)
  else if maj = 0x0F then .ok (.slti d a i) else if maj = 0x10 then .ok (.sltni d a i)
  else if fld w 13 6 ≠ 0 then .error .reserved
  else if maj = 0x0C then .ok (.slli d a s) else if maj = 0x0D then .ok (.srli d a s) else .ok (.srai d a s)

/-- LD and ST (R89). -/
def decodeMem (w : Nat) : Except Reject Instr :=
  let d := bv 6 20 w; let b := bv 6 14 w; let i := bv 9 0 w; let fe := fld w 10 9
  match MSize.ofCode (fld w 13 11) with
  | none => .error .illegalValue
  | some s =>
    if fld w 31 26 = 0x14 then
      (if fe = 0 then .ok (.ld d b s .none i) else if fe = 1 then .ok (.ld d b s .keep i)
       else if fe = 2 then .ok (.ld d b s .clear i) else .error .illegalValue)
    else
      (if fe = 0 then .ok (.st d b s .none i) else if fe = 1 then .ok (.st d b s .set i)
       else .error .illegalValue)

/-- BR and CALL (R90). -/
def decodeBr (w : Nat) : Except Reject Instr :=
  match Cond.ofCode (fld w 25 23) with
  | none => .error .illegalValue
  | some c =>
    if c = .always ∧ fld w 22 17 ≠ 0 then .error .reserved
    else if fld w 31 26 = 0x18 then .ok (.br c (bv 6 17 w) (bv 17 0 w)) else .ok (.call c (bv 6 17 w) (bv 17 0 w))

/-- The X-format group of R92 with one fn each: ISSUE and CFG, and CMO with fn 0 to 2. -/
def decodeSys (w : Nat) : Except Reject Instr :=
  let d := bv 6 20 w; let a := bv 6 14 w; let b := bv 6 8 w; let fn := fld w 4 0; let maj := fld w 31 26
  if fld w 7 5 ≠ 0 then .error .reserved
  else if maj = 0x2A then (if fn = 0 then .ok (.cfgld d a b) else .error .unassigned)
  else if fld w 25 20 ≠ 0 then .error .reserved
  else if maj = 0x29 then (if fn = 0 then .ok (.issue a b) else .error .unassigned)
  else if fn = 0 then .ok (.dcinv a b) else if fn = 1 then .ok (.dcdrain a b) else if fn = 2 then .ok (.icinv a b)
  else .error .unassigned

/-- The decoder of scalar words, total on any 32-bit word (R76 to R93). The header's major 0x3F is illegal here
(R80). -/
def decodeScalar (w : Nat) : Except Reject Instr :=
  let maj := fld w 31 26
  if maj = 0x00 then decodeInt w else if maj = 0x01 then decodeMulDiv w else if maj = 0x02 then decodeTens w
  else if maj = 0x03 then decodeFp w else if maj = 0x04 then decodeCvt w else if maj = 0x05 then decodeCsr w
  else if 0x08 ≤ maj ∧ maj ≤ 0x10 then decodeImm w
  else if maj = 0x11 then .ok (.lui (bv 6 20 w) (bv 20 0 w)) else if maj = 0x12 then .ok (.lba (bv 6 20 w) (bv 20 0 w))
  else if maj = 0x14 ∨ maj = 0x15 then decodeMem w else if maj = 0x18 ∨ maj = 0x19 then decodeBr w
  else if maj = 0x1A then (if fld w 13 0 ≠ 0 then .error .reserved else .ok (.jr (bv 6 20 w) (bv 6 14 w)))
  else if maj = 0x1B then decodeCtl w else if maj = 0x20 ∨ maj = 0x21 then decodeSync w
  else if maj = 0x22 then decodeBar w else if maj = 0x23 then decodeQueue w
  else if 0x24 ≤ maj ∧ maj ≤ 0x27 then decodeRing w else if maj = 0x28 then decodeRdesc w
  else if maj = 0x29 ∨ maj = 0x2A ∨ maj = 0x2B then decodeSys w
  else .error .unassigned

/-! ## Stream commands (R94 to R98) -/

/-- The completion target of bits [95:64] (R96). -/
def decodeCt (w : Nat) : Except Reject CTarget :=
  let k := fld w 95 94
  if k = 3 then .error .ckind
  else if k = 0 then (if fld w 93 64 ≠ 0 then .error .reserved else .ok .none)
  else if fld w 81 78 ≠ 0 then .error .reserved
  else if k = 1 then .ok (.scratch (bit w 93) (bv 11 82 w) (bv 14 64 w))
  else if fld w 92 82 ≠ 0 ∨ fld w 77 70 ≠ 0 then .error .reserved
  else .ok (.table (bit w 93) (bv 6 64 w))

/-- The header of a command (R94). -/
def decodeHdr (w : Nat) : Except Reject CmdHdr :=
  if 6 ≤ fld w 117 115 then .error .scope
  else match decodeCt w with
    | .error e => .error e
    | .ok ct => .ok { acq := bit w 119, rel := bit w 118, scope := bv 3 115 w, port := bv 7 108 w, ct := ct }

/-- The reserved ranges of OPND and TH of each opcode (R97, R98, R200 to R218). -/
def cmdReserved (opc : Nat) : List (Nat × Nat) :=
  if opc = 0x10 then [(60, 60)]
  else if opc = 0x11 then [(107, 101), (60, 60)]
  else if opc = 0x12 then [(107, 101), (60, 60)]
  else if opc = 0x13 then [(60, 60), (45, 32)]
  else if opc = 0x14 ∨ opc = 0x15 then [(63, 61), (6, 0)]
  else if opc = 0x16 then [(63, 61), (33, 32)]
  else if opc = 0x17 then [(107, 96), (63, 60), (51, 48), (5, 0)]
  else if opc = 0x20 then [(107, 96), (63, 7)]
  else if opc = 0x21 ∨ opc = 0x26 then [(107, 96), (63, 0)]
  else if opc = 0x22 then [(107, 96), (63, 32)]
  else if opc = 0x23 ∨ opc = 0x24 then [(107, 96), (63, 61), (5, 0)]
  else if opc = 0x25 then [(107, 96), (63, 42)]
  else if opc = 0x30 then []
  else if opc = 0x31 then [(63, 61), (13, 0)]
  else if opc = 0x32 then [(34, 32)]
  else if opc = 0x40 then [(107, 96), (63, 32)]
  else if opc = 0x41 then [(107, 96), (63, 48), (6, 0)]
  else if opc = 0x42 then [(107, 96), (63, 9), (7, 2)]
  else [(63, 0)]

/-- The decoder of stream commands, total on any 128 bits (R94 to R98). What R99 and the opcodes' own rules check
against the state (ports, tensors, rings, formats, ranges) is checked at acceptance. -/
def decodeCmd (w : Nat) : Except Reject Instr :=
  let opc := fld w 127 120; let th := bv 12 96 w; let hk := bv 5 96 w
  match decodeHdr w with
  | .error e => .error e
  | .ok h =>
    if !zeros w (cmdReserved opc) then .error .reserved
    else if opc = 0x10 then .ok (.copy h th (bv 2 62 w) (bit w 61) (bv 12 48 w) (bv 16 32 w) (bv 16 16 w) (bv 16 0 w))
    else if opc = 0x11 then .ok (.copyr h hk (bv 2 62 w) (bit w 61) (bv 12 48 w) (bv 16 32 w) (bv 16 16 w) (bv 16 0 w))
    else if opc = 0x12 then .ok (.copyx h hk (bv 2 62 w) (bit w 61) (bv 12 48 w) (bv 16 32 w) (bv 16 16 w) (bv 16 0 w))
    else if opc = 0x13 then
      (if fld w 47 46 = 3 then .error .illegalValue
       else .ok (.copyred h th (bv 2 62 w) (bit w 61) (bv 12 48 w) (bv 2 46 w) (bv 16 16 w) (bv 16 0 w)))
    else if opc = 0x14 then .ok (.gather h th (bv 11 50 w) (bv 15 35 w) (bv 15 20 w) (bv 12 8 w) (bit w 7))
    else if opc = 0x15 then .ok (.scatter h th (bv 11 50 w) (bv 15 35 w) (bv 15 20 w) (bv 12 8 w) (bit w 7))
    else if opc = 0x16 then
      (if !bit w 60 && fld w 59 34 != 0 then .error .reserved
       else .ok (.fill h th (bit w 60) (bv 11 49 w) (bv 15 34 w) (bv 32 0 w)))
    else if opc = 0x17 then .ok (.agload h (bv 8 52 w) (bv 48 0 w))
    else if opc = 0x20 then .ok (.sbar h (bv 7 0 w))
    else if opc = 0x21 then .ok (.carrive h)
    else if opc = 0x22 then .ok (.cexpect h (bv 32 0 w))
    else if opc = 0x23 then .ok (.qput h (bv 8 53 w) (bv 5 48 w) (bv 48 0 w))
    else if opc = 0x24 then .ok (.qget h (bv 8 53 w) (bv 5 48 w) (bv 48 0 w))
    else if opc = 0x25 then .ok (.depdec h (bv 2 40 w) (bv 8 32 w) (bv 32 0 w))
    else if opc = 0x26 then .ok (.cnop h)
    else if opc = 0x30 then
      (if fld w 60 59 = 3 then .error .illegalValue
       else .ok (.mred h th (bv 2 62 w) (bit w 61) (bv 2 59 w) (bv 11 48 w) (bv 15 33 w) (bv 8 25 w) (bv 8 17 w) (bv 12 5 w) (bv 5 0 w)))
    else if opc = 0x31 then
      (if 7 ≤ fld w 60 57 then .error .illegalValue
       else if !bit w 30 && fld w 29 15 != 0 then .error .reserved
       else .ok (.matom h th (bv 4 57 w) (bv 11 46 w) (bv 15 31 w) (bit w 30) (bv 15 15 w) (bit w 14)))
    else if opc = 0x32 then .ok (.maxpy h th (bv 2 62 w) (bit w 61) (bv 11 50 w) (bv 15 35 w) (bv 32 0 w))
    else if opc = 0x40 then .ok (.thresh h (bv 32 0 w))
    else if opc = 0x41 then .ok (.launch h (bv 48 0 w))
    else if opc = 0x42 then .ok (.mswitch h (bv 2 0 w) (bit w 8))
    else if opc = 0x50 then .ok (.pref h th)
    else if opc = 0x51 then .ok (.inval h th)
    else if opc = 0x52 then .ok (.flush h th)
    else .error .unassigned

/-! ## Node records (R101 to R105) -/

/-- A reference field of 12 bits (R102). Kind 7 is an invalid reference; a field whose zero bits are not zero is a reserved
field that is not zero. -/
def decodeRef (r : Nat) : Except Reject Ref :=
  let k := fld r 11 9
  if k = 0 then (if r ≠ 0 then .error .reserved else .ok .none)
  else if k = 1 then (if fld r 3 0 ≠ 0 then .error .reserved else .ok (.circuit (bv 2 7 r) (bv 3 4 r)))
  else if k = 2 then .ok (.near (bv 8 1 r) (bit r 0))
  else if k = 3 then (if fld r 8 5 ≠ 0 then .error .reserved else .ok (.ring (bv 5 0 r)))
  else if k = 4 then (if fld r 8 8 ≠ 0 then .error .reserved else .ok (.const (bv 8 0 r)))
  else if k = 5 then (if fld r 6 4 ≠ 0 then .error .reserved else .ok (.reed (bv 2 7 r) (bv 4 0 r)))
  else if k = 6 then (if fld r 3 0 ≠ 0 then .error .reserved else .ok (.seep (bv 2 7 r) (bv 3 4 r)))
  else .error .reference

/-- The guard field of 8 bits (R103). -/
def decodeGuard (g : Nat) : Except Reject Guard :=
  if g < 128 then (if g ≠ 0 then .error .reserved else .ok .off)
  else if fld g 6 4 ≤ 3 then .ok (.reed (bv 2 4 g) (bv 4 0 g))
  else if 6 ≤ fld g 6 4 then .error .reference
  else if 13 ≤ fld g 3 0 then .error .reference
  else .ok (.near (fld g 6 4 == 5) (bv 4 0 g))

/-- The value of a field, or a stand-in where it is rejected. -/
def orElse {α : Type} (d : α) : Except Reject α → α
  | .ok a => a
  | .error _ => d

/-- What a field is rejected for. -/
def flawOf {α : Type} : Except Reject α → List Reject
  | .ok _ => []
  | .error e => [e]

/-- The common fields of a node record (R101), with the flaws of its references and its guard. -/
def decodeNodeHdr (w : Nat) : NodeHdr × List Reject :=
  let r : Nat → Except Reject Ref := fun lo => decodeRef (fld w (lo + 11) lo)
  let g := decodeGuard (fld w 159 152)
  let v : Nat → Ref := fun lo => orElse .none (r lo)
  ({ var := bv 4 244 w, fmt := Fmt.ofCode (fld w 243 240), slot := bv 8 232 w, in0 := v 220, in1 := v 208, in2 := v 196,
     in3 := v 184, out0 := v 172, out1 := v 160, guard := orElse .off g, rm := bv 2 150 w, sat := bit w 149,
     clone := bit w 148 },
   flawOf (r 220) ++ flawOf (r 208) ++ flawOf (r 196) ++ flawOf (r 184) ++ flawOf (r 172) ++ flawOf (r 160) ++ flawOf g)

/-- The fields the matrix nodes share (R236). -/
def decodeMatHdr (w : Nat) : MatHdr :=
  { baren := bit w 147, bararv := bit w 146, barix := bv 6 140 w, recen := bit w 139, recofs := bv 15 124 w }

/-- How a node uses one reference (R227, R236, R244 to R256, R261). -/
inductive RefUse where
  /-- kind 0 only -/
  | unused
  /-- beats: a circuit lane, a local reference, a ring or a constant (inputs); required -/
  | data
  /-- as data, or kind 0 -/
  | dataOpt
  /-- beats from or to a circuit lane, a local reference or a ring; required -/
  | stream
  /-- beats to a circuit lane, a local reference or a ring, or kind 0 where a rule says so -/
  | out
  /-- as `stream`, without a ring (MSORT's output, R243) -/
  | outNoRing
  /-- a ring; required -/
  | ring
  /-- a ring, or kind 0 -/
  | ringOpt
  /-- a constant; required -/
  | const
  /-- a ring or a constant; required -/
  | ringConst
  /-- tokens: a Reed lane or a local reference; required -/
  | token
  /-- tokens, or kind 0 -/
  | tokenOpt
  /-- beats or tokens (sel's IN2, R230); required -/
  | any
  /-- a seep lane, or kind 0 (thr of R261) -/
  | seepOpt
  deriving DecidableEq, Repr

/-- A reference of the kind a use admits. -/
def RefUse.admits : RefUse → Ref → Bool
  | .unused, .none => true
  | .data, .circuit .. | .data, .near .. | .data, .ring .. | .data, .const .. => true
  | .dataOpt, .circuit .. | .dataOpt, .near .. | .dataOpt, .ring .. | .dataOpt, .const .. | .dataOpt, .none => true
  | .stream, .circuit .. | .stream, .near .. | .stream, .ring .. => true
  | .out, .circuit .. | .out, .near .. | .out, .ring .. | .out, .none => true
  | .outNoRing, .circuit .. | .outNoRing, .near .. => true
  | .ring, .ring .. => true
  | .ringOpt, .ring .. | .ringOpt, .none => true
  | .const, .const .. => true
  | .ringConst, .ring .. | .ringConst, .const .. => true
  | .token, .reed .. | .token, .near .. => true
  | .tokenOpt, .reed .. | .tokenOpt, .near .. | .tokenOpt, .none => true
  | .any, .circuit .. | .any, .near .. | .any, .ring .. | .any, .const .. | .any, .reed .. => true
  | .seepOpt, .seep .. | .seepOpt, .none => true
  | _, _ => false

/-- The kinds of slot (R101, R105). -/
inductive SlotKind where
  | m | v | j | a | k | ag | gs | qp
  deriving DecidableEq, Repr

/-- The kind of a slot code (R101). -/
def SlotKind.ofCode (c : Nat) : Option SlotKind :=
  if c = 0 then some .m else if c ≤ 4 then some .v else if c ≤ 8 then some .j else if c ≤ 10 then some .a
  else if c ≤ 12 then some .k else if c < 16 then none else if c ≤ 19 then some .ag else if c ≤ 21 then some .gs
  else if c = 22 then some .qp else none

/-- One row of the node tables: slot kind, legal VARs, legal formats, uses of IN0 to IN3 and OUT0, OUT1, whether RM
and SAT are used, and the reserved ranges of PARAM [147:0] (R227, R261 and the nodes' own rules). -/
structure NodeRow where
  slot : SlotKind
  vars : List Nat
  fmts : List Fmt
  ins  : RefUse × RefUse × RefUse × RefUse
  outs : RefUse × RefUse
  rm   : Bool
  sat  : Bool
  resv : List (Nat × Nat)
  deriving DecidableEq, Repr

/-- "Float" of R227. -/
def fmtsFloat : List Fmt := [.f64, .f32, .bf16, .f16]
/-- "Int" of R227. -/
def fmtsInt : List Fmt := [.i8, .n8, .i16, .i32, .i64, .n16, .n32, .n64]
/-- "All" of R227. -/
def fmtsAll : List Fmt := [.f64, .f32, .bf16, .f16, .e4m3, .e5m2] ++ fmtsInt
/-- The entry formats of R258. -/
def fmtsEntry : List Fmt := [.f32, .bf16, .f16, .i32, .n32]

/-- The row of a vector node with inputs `ins` (R227). -/
def rowV (vars : List Nat) (fmts : List Fmt) (ins : RefUse × RefUse × RefUse × RefUse) (rm sat : Bool)
    (resv : List (Nat × Nat)) : NodeRow :=
  { slot := .v, vars := vars, fmts := fmts, ins := ins, outs := (.stream, .unused), rm := rm, sat := sat, resv := resv }

/-- The row of a J-slot node (R261). -/
def rowJ (vars : List Nat) (fmts : List Fmt) (ins : RefUse × RefUse × RefUse × RefUse) (outs : RefUse × RefUse)
    (rm sat : Bool) (resv : List (Nat × Nat)) : NodeRow :=
  { slot := .j, vars := vars, fmts := fmts, ins := ins, outs := outs, rm := rm, sat := sat, resv := resv }

/-- The table of the vector nodes 0x01 to 0x22 (R227). -/
def nodeRowV (opc : Nat) : Option NodeRow :=
  let fi := fmtsFloat ++ fmtsInt
  let u := RefUse.unused; let d := RefUse.data
  if 1 ≤ opc ∧ opc ≤ 3 then some (rowV [0] fi (d, d, u, u) true true [(147, 0)])
  else if opc = 4 then some (rowV [0] fi (d, d, d, u) true true [(147, 0)])
  else if opc = 5 then some (rowV [0] fi (d, d, u, u) true false [(147, 0)])
  else if opc = 6 then some (rowV [0] fmtsFloat (d, u, u, u) true false [(147, 0)])
  else if opc = 7 ∨ opc = 8 then some (rowV [0] fi (d, d, u, u) false false [(147, 0)])
  else if opc = 9 ∨ opc = 10 then some (rowV [0] fi (d, u, u, u) false true [(147, 0)])
  else if 11 ≤ opc ∧ opc ≤ 13 then some (rowV [0] fmtsAll (d, d, u, u) false false [(147, 0)])
  else if opc = 14 ∨ opc = 15 then some (rowV [0] fmtsInt (d, d, u, u) false false [(147, 0)])
  else if opc = 16 then some (rowV [0] fi (d, d, d, u) false false [(147, 0)])
  else if opc = 17 then
    some { slot := .v, vars := [0], fmts := fi, ins := (d, d, u, u), outs := (.out, .tokenOpt), rm := false, sat := false,
           resv := [(143, 0)] }
  else if opc = 18 then some (rowV [0] (fmtsAll ++ [.ki]) (d, d, .any, u) false false [(147, 0)])
  else if opc = 19 then some (rowV [0] fmtsAll (d, u, u, u) true true [(119, 0)])
  else if opc = 20 then some (rowV [0] [.f64] (d, d, u, u) false false [(147, 0)])
  else if 0x18 ≤ opc ∧ opc ≤ 0x1D then some (rowV [0] [.f32, .bf16, .f16] (d, u, u, u) true false [(147, 0)])
  else if opc = 0x20 then some (rowV [0, 1, 2] fi (d, u, u, u) true false [(141, 0)])
  else if opc = 0x21 then some (rowV [0, 1] fi (d, u, u, u) true false [(141, 0)])
  else if opc = 0x22 then some (rowV [0] fmtsAll (d, u, u, u) false false [(142, 0)])
  else none

/-- The table of the matrix nodes 0x28 to 0x2C (R236 to R243). -/
def nodeRowM (opc : Nat) : Option NodeRow :=
  let u := RefUse.unused; let r := RefUse.ring
  if opc = 0x28 then
    some { slot := .m, vars := [0, 1, 2, 3], fmts := [.f64], ins := (r, r, .ringOpt, u), outs := (r, u), rm := true,
           sat := true, resv := [(106, 0)] }
  else if opc = 0x29 then
    some { slot := .m, vars := [0], fmts := [.f64], ins := (r, .const, u, u), outs := (r, u), rm := true, sat := true,
           resv := [(120, 0)] }
  else if opc = 0x2A then
    some { slot := .m, vars := [0, 1, 2], fmts := [.f64], ins := (r, .const, .ringOpt, u), outs := (r, .ringOpt),
           rm := true, sat := true, resv := [(42, 0)] }
  else if opc = 0x2B then
    some { slot := .m, vars := [0, 1], fmts := [.ki], ins := (.stream, u, u, u), outs := (.outNoRing, u), rm := false,
           sat := false, resv := [(123, 0)] }
  else if opc = 0x2C then
    some { slot := .m, vars := [0], fmts := [.f64], ins := (r, u, u, u), outs := (r, u), rm := false, sat := false,
           resv := [(123, 0)] }
  else none

/-- The table of the controllers 0x30 to 0x37 (R244 to R249). -/
def nodeRowK (opc : Nat) : Option NodeRow :=
  let u := RefUse.unused; let t := RefUse.tokenOpt
  let row (vars : List Nat) (fmts : List Fmt) (ins : RefUse × RefUse × RefUse × RefUse) (outs : RefUse × RefUse)
      (resv : List (Nat × Nat)) : NodeRow :=
    { slot := .k, vars := vars, fmts := fmts, ins := ins, outs := outs, rm := false, sat := false, resv := resv }
  if opc = 0x30 ∨ opc = 0x32 then some (row [0] [.f64] (t, t, t, t) (t, t) [(115, 0)])
  else if opc = 0x31 then some (row [0] [.f64] (t, t, t, t) (t, t) [(111, 0)])
  else if opc = 0x33 then some (row [0, 1] [.f64] (.data, .token, u, u) (.stream, .stream) [(147, 0)])
  else if opc = 0x34 then some (row [0] [.f64] (.data, .ringConst, t, u) (.stream, u) [(139, 0)])
  else if opc = 0x35 then some (row [0] [.f64] (.ringConst, t, u, u) (.stream, u) [(111, 0)])
  else if opc = 0x36 then some (row [0] [.f64] (.data, u, u, u) (u, u) [(131, 0)])
  else if opc = 0x37 then some (row [0] [.i32, .n32, .i64, .n64] (t, u, u, u) (.stream, u) [(47, 0)])
  else none

/-- The table of the memory nodes 0x40 to 0x47 (R250 to R256). IN2 of atom may be unconnected with OP cas too (DESIGN CHOICE, log entry
171); ojoin, rdring and wrring have no order-in (log entry 172). -/
def nodeRowA (opc : Nat) : Option NodeRow :=
  let u := RefUse.unused; let d := RefUse.data; let t := RefUse.tokenOpt
  let row (vars : List Nat) (fmts : List Fmt) (ins : RefUse × RefUse × RefUse × RefUse) (outs : RefUse × RefUse)
      (resv : List (Nat × Nat)) : NodeRow :=
    { slot := .a, vars := vars, fmts := fmts, ins := ins, outs := outs, rm := false, sat := false, resv := resv }
  let all := fmtsAll ++ [.ki]
  if opc = 0x40 then some (row [0, 1] all (d, u, u, t) (.stream, t) [(144, 0)])
  else if opc = 0x41 then some (row [0, 1] all (d, d, u, t) (u, t) [(144, 0)])
  else if opc = 0x42 then some (row [0, 1] all (d, u, u, t) (.stream, t) [(144, 0)])
  else if opc = 0x43 then some (row [0] all (d, d, u, t) (u, t) [(144, 0)])
  else if opc = 0x44 then some (row [0] [.f64] (t, t, t, u) (t, u) [(144, 0)])
  else if opc = 0x45 then some (row [0] [.i32, .n32, .i64, .n64, .f32, .f64] (d, d, .dataOpt, t) (.out, t) [(140, 0)])
  else if opc = 0x46 then some (row [0] [.f64] (.ring, u, u, u) (.stream, u) [(144, 0)])
  else if opc = 0x47 then some (row [0] [.f64] (d, u, u, u) (.ring, t) [(144, 144), (139, 0)])
  else none

/-- The table of the sparse and retrieval nodes 0x60 to 0x77 (R261). -/
def nodeRowJ (opc : Nat) : Option NodeRow :=
  let u := RefUse.unused; let d := RefUse.data; let s := RefUse.seepOpt; let o := RefUse.stream; let e := RefUse.out
  if opc = 0x60 then some (rowJ [0, 1, 2, 3, 5, 7] [.n32] (d, u, u, u) (o, u) false false [(85, 0)])
  else if opc = 0x61 then some (rowJ [0] fmtsEntry (d, d, u, u) (e, e) false false [(147, 0)])
  else if opc = 0x62 then some (rowJ [0] fmtsEntry (d, d, u, u) (o, u) true true [(144, 0)])
  else if opc = 0x63 then some (rowJ [0] fmtsEntry (d, d, u, u) (o, u) false false [(144, 0)])
  else if opc = 0x64 then some (rowJ [0] fmtsEntry (d, u, u, u) (o, u) true true [(141, 0)])
  else if opc = 0x65 then some (rowJ [0, 1] fmtsEntry (d, d, u, u) (o, u) true true [(138, 0)])
  else if opc = 0x66 then some (rowJ [0] fmtsEntry (d, u, u, u) (o, u) true true [(116, 0)])
  else if opc = 0x67 then some (rowJ [0] [.f64] (d, u, u, u) (o, o) false false [(147, 0)])
  else if opc = 0x68 then some (rowJ [0] [.f64] (d, d, u, u) (o, u) false false [(147, 0)])
  else if opc = 0x69 then some (rowJ [0, 1] [.ki] (d, d, u, u) (o, u) false false [(147, 0)])
  else if opc = 0x6A then
    some { slot := .gs, vars := [0], fmts := fmtsEntry, ins := (d, u, u, u), outs := (o, .tokenOpt), rm := false,
           sat := false, resv := [(131, 0)] }
  else if opc = 0x6B then
    some { slot := .gs, vars := [0, 1], fmts := fmtsEntry, ins := (d, u, u, u), outs := (u, .tokenOpt), rm := false,
           sat := false, resv := [(105, 0)] }
  else if opc = 0x6C then
    some { slot := .ag, vars := [0], fmts := [.f64], ins := (.tokenOpt, s, u, u), outs := (o, u), rm := false, sat := false,
           resv := [(136, 0)] }
  else if opc = 0x6D then
    some { slot := .qp, vars := [0], fmts := [.f64], ins := (u, u, u, u), outs := (u, s), rm := false, sat := false,
           resv := [(147, 0)] }
  else if opc = 0x70 then some (rowJ [0] [.f64] (d, u, u, u) (o, u) true true [(118, 0)])
  else if opc = 0x71 then some (rowJ [0] [.f64] (d, s, u, u) (o, s) false false [(131, 0)])
  else if opc = 0x72 then some (rowJ [0] [.ki] (d, s, u, u) (o, s) false false [(76, 0)])
  else if opc = 0x73 then some (rowJ [0] [.f64] (s, s, s, s) (s, u) false false [(104, 0)])
  else if opc = 0x74 then some (rowJ [0, 1] (.ki :: fmtsEntry) (d, u, u, u) (o, u) false false [(132, 0)])
  else if opc = 0x75 then some (rowJ [0] [.n32, .ki] (d, u, u, u) (o, u) false false [(118, 0)])
  else if opc = 0x76 then some (rowJ [0, 1] [.f32, .bf16, .f16] (d, .dataOpt, u, u) (o, u) false false [(115, 0)])
  else if opc = 0x77 then some (rowJ [0, 1, 2] (.ki :: fmtsEntry) (d, u, u, u) (o, u) false false [(115, 0)])
  else none

/-- The row of a node opcode, or none for an unassigned one (R105). -/
def nodeRow (opc : Nat) : Option NodeRow :=
  if opc ≤ 0x22 then nodeRowV opc else if opc ≤ 0x2C then nodeRowM opc else if opc ≤ 0x37 then nodeRowK opc
  else if opc ≤ 0x47 then nodeRowA opc else nodeRowJ opc

/-- A reference an output may hold: a local output's bits [8:0] are zero, and constants are inputs only (R102). -/
def outRefOk : Ref → Bool
  | .near s o => s == 0#8 && !o
  | .const _ => false
  | _ => true

/-- CLONE is set only on a node that R345 allows: an element-wise vector node of 0x01 to 0x10 or 0x18 to 0x1D with no
guard and no ring reference, its output on a circuit or local reference, or an atom of OP 0 to 5 with IN2, IN3, OUT0
and OUT1 unused. -/
def cloneOk (opc : Nat) (n : NodeHdr) (w : Nat) : Bool :=
  let isRing : Ref → Bool := fun r => match r with | .ring _ => true | _ => false
  !n.clone ||
  ((decide (1 ≤ opc ∧ opc ≤ 0x10) || decide (0x18 ≤ opc ∧ opc ≤ 0x1D)) && n.guard == .off &&
    !isRing n.in0 && !isRing n.in1 && !isRing n.in2 && !isRing n.out0 && n.out0 != .none) ||
  (opc == 0x45 && decide (fld w 144 141 ≤ 5) && n.in2 == .none && n.in3 == .none && n.out0 == .none && n.out1 == .none)

/-- A flaw, where a test holds. -/
def bad (c : Bool) (e : Reject) : List Reject := if c then [e] else []

/-- The flaws of a record that its row states: slot kind, VAR, FMT, references, RM and SAT, reserved PARAM bits and CLONE. -/
def rowFlaws (opc : Nat) (r : NodeRow) (n : NodeHdr) (w : Nat) : List Reject :=
  bad (!(r.vars.contains n.var.toNat) || !(r.fmts.contains n.fmt)) .varFmt ++
  bad (SlotKind.ofCode n.slot.toNat != some r.slot) .slot ++
  bad (!(r.ins.1.admits n.in0 && r.ins.2.1.admits n.in1 && r.ins.2.2.1.admits n.in2 && r.ins.2.2.2.admits n.in3 &&
         r.outs.1.admits n.out0 && r.outs.2.admits n.out1 && outRefOk n.out0 && outRefOk n.out1)) .reference ++
  bad ((!r.rm && n.rm != 0#2) || (!r.sat && n.sat) || !zeros w r.resv || !cloneOk opc n w) .reserved

/-- The flaws of single nodes beyond their row: END and CLOSE codes, OP values, parameter ranges, pairs of references (R229,
R234, R235, R241, R244, R249, R254, R256, R262 to R285). -/
def nodeExtra (opc : Nat) (n : NodeHdr) (w : Nat) : List Reject :=
  let wide := bad (6 ≤ fld w 147 145) .scope; let op3 := fld w 147 145
  if opc = 0x11 ∨ opc = 0x61 then bad (n.out0 == .none && n.out1 == .none) .reference
  else if opc = 0x13 then
    (let s := Fmt.ofCode (fld w 147 144); bad (s == .cf8 || s == .ki) .varFmt)
  else if opc = 0x20 then bad (decide (6 ≤ op3) || (decide (3 ≤ op3) && n.fmt.isFloat)) .varFmt
  else if opc = 0x21 then bad (decide (3 ≤ op3)) .varFmt
  else if opc = 0x22 then
    (let l := if n.fmt = .f64 ∨ n.fmt = .i64 ∨ n.fmt = .n64 then 4
              else if n.fmt = .f32 ∨ n.fmt = .i32 ∨ n.fmt = .n32 then 8
              else if n.fmt = .bf16 ∨ n.fmt = .f16 ∨ n.fmt = .i16 ∨ n.fmt = .n16 then 16 else 32
     bad (decide (l ≤ fld w 147 143)) .varFmt)
  else if opc = 0x28 then bad (bit w 107 != (n.in2 != .none)) .reference
  else if opc = 0x2A then
    bad (fld w 123 108 == 0 || decide (0x7F80_0000 < fld w 74 44)) .varFmt ++
    bad ((n.var == 1#4) != (n.in2 != .none) || (n.var != 2#4 && n.out1 != .none)) .reference
  else if opc = 0x30 ∨ opc = 0x31 then
    bad ((n.in3 != .none && n.in0 != .none) || (fld w 147 116 == 0 && n.in3 == .none)) .reference
  else if opc = 0x32 then bad (n.in3 != .none || fld w 147 116 == 0) .reference
  else if opc = 0x35 then bad (fld w 147 116 == 0 || decide (10 ≤ fld w 115 112)) .varFmt
  else if opc = 0x36 then bad (fld w 147 132 == 0) .varFmt
  else if opc = 0x37 then bad (fld w 147 116 == 0 || decide (10 ≤ fld w 51 48)) .varFmt
  else if opc = 0x45 then
    (let op := fld w 144 141
     bad (decide (8 ≤ op) || (decide (1 ≤ op ∧ op ≤ 3) && n.fmt.isFloat)) .varFmt ++
     bad (n.in2 != .none && op != 7) .reference ++ wide)
  else if opc = 0x47 then bad (decide (9 ≤ fld w 143 140)) .varFmt ++ wide
  else if 0x40 ≤ opc ∧ opc ≤ 0x46 then wide
  else if opc = 0x60 then bad (bit n.var.toNat 1 && fld w 117 86 == 0) .varFmt
  else if opc = 0x62 then bad (decide (4 ≤ op3)) .varFmt
  else if opc = 0x64 then bad (decide (3 ≤ op3)) .varFmt
  else if opc = 0x65 then bad (op3 == 7) .varFmt
  else if opc = 0x66 then bad (decide (4096 ≤ fld w 132 120)) .varFmt
  else if opc = 0x6A ∨ opc = 0x6C ∨ opc = 0x75 then wide
  else if opc = 0x6B then bad (n.var == 1#4 && fld w 132 109 != 0) .reserved ++ wide
  else if opc = 0x6D then bad (n.out1 == .none) .reference
  else if opc = 0x70 then
    (let m := fld w 132 127 + 1; let z := fld w 126 119
     bad (decide (z < (4 + m + 3) / 4) || decide (64 < z)) .varFmt)
  else if opc = 0x72 then bad (bit w 139 && (n.out1 != .none || bit w 135)) .reference
  else if opc = 0x73 then bad (n.out0 == .none && !bit w 147) .reference
  else if opc = 0x74 then bad ((n.var == 0#4) != (n.fmt == .ki)) .varFmt ++ wide
  else if opc = 0x76 then bad ((n.var == 0#4) != (n.in1 != .none)) .reference
  else if opc = 0x77 then
    bad ((n.var == 2#4) != (n.fmt == .ki) || (n.var == 1#4 && n.fmt.isInt)) .varFmt ++
    bad (n.var == 0#4 && fld w 147 116 != 0) .reserved
  else []

/-- The flaw of lowest code (R109): the one that is reported of several in one record (log 34). -/
def worst : List Reject → Option Reject
  | [] => none
  | e :: r => match worst r with
    | none => some e
    | some f => some (if f.cfgCode < e.cfgCode then f else e)

/-- The instruction of an opcode once its record has passed the checks (R105). -/
def nodeInstr (opc : Nat) (n : NodeHdr) (w : Nat) : Instr :=
  let m := decodeMatHdr w; let op := bv 3 145 w
  if opc = 0x01 then .vadd n else if opc = 0x02 then .vsub n else if opc = 0x03 then .vmul n
  else if opc = 0x04 then .vfma n else if opc = 0x05 then .vdiv n else if opc = 0x06 then .vsqrt n
  else if opc = 0x07 then .vmin n else if opc = 0x08 then .vmax n else if opc = 0x09 then .vabs n
  else if opc = 0x0A then .vneg n else if opc = 0x0B then .vand n else if opc = 0x0C then .vor n
  else if opc = 0x0D then .vxor n else if opc = 0x0E then .vshl n else if opc = 0x0F then .vshr n
  else if opc = 0x10 then .vclamp n else if opc = 0x11 then .vcmp n op (bit w 144) else if opc = 0x12 then .sel n
  else if opc = 0x13 then .cvtNode n (Fmt.ofCode (fld w 147 144)) (bv 12 132 w) (bv 12 120 w)
  else if opc = 0x14 then .vperm n
  else if opc = 0x18 then .vrec n else if opc = 0x19 then .vrsq n else if opc = 0x1A then .vexp n
  else if opc = 0x1B then .vlog n else if opc = 0x1C then .vtanh n else if opc = 0x1D then .vsigm n
  else if opc = 0x20 then .vred n op (bv 3 142 w) else if opc = 0x21 then .vscan n op (bv 3 142 w)
  else if opc = 0x22 then .vbcast n (bv 5 143 w)
  else if opc = 0x28 then .mma n m (bv 16 108 w) (bit w 107) else if opc = 0x29 then .mpoly n m (bv 3 121 w)
  else if opc = 0x2A then .miter n m (bv 16 108 w) (bv 32 76 w) (bv 32 44 w) (bit w 43)
  else if opc = 0x2B then .msort n m else if opc = 0x2C then .mtrn n m
  else if opc = 0x30 then .cseq n (bv 32 116 w) else if opc = 0x31 then .cpipe n (bv 32 116 w) (bv 4 112 w)
  else if opc = 0x32 then .cstrm n (bv 32 116 w) else if opc = 0x33 then .steer n
  else if opc = 0x34 then .prime n (bv 8 140 w) else if opc = 0x35 then .source n (bv 32 116 w) (bv 4 112 w)
  else if opc = 0x36 then .sink n (bv 16 132 w)
  else if opc = 0x37 then .count n (bv 32 116 w) (bv 32 84 w) (bv 32 52 w) (bv 4 48 w)
  else if opc = 0x40 then .load n op else if opc = 0x41 then .store n op else if opc = 0x42 then .ldfe n op
  else if opc = 0x43 then .stfe n op else if opc = 0x44 then .ojoin n op else if opc = 0x45 then .atom n op (bv 4 141 w)
  else if opc = 0x46 then .rdring n op else if opc = 0x47 then .wrring n op (bv 4 140 w)
  else if opc = 0x60 then .fscan n (bv 15 133 w) (bv 15 118 w) (bv 32 86 w)
  else if opc = 0x61 then .isect n else if opc = 0x62 then .union n op else if opc = 0x63 then .repeatNode n op
  else if opc = 0x64 then .sred n op (bv 3 142 w) else if opc = 0x65 then .sjoin n op (bv 3 142 w) (bv 3 139 w)
  else if opc = 0x66 then .sacc n (bv 15 133 w) (bv 13 120 w) (bv 3 117 w)
  else if opc = 0x67 then .split n else if opc = 0x68 then .merge n else if opc = 0x69 then .rmerge n
  else if opc = 0x6A then .gath n op (bv 12 133 w) (bit w 132)
  else if opc = 0x6B then .scat n op (bv 12 133 w) (bv 12 121 w) (bv 12 109 w) (bv 3 106 w)
  else if opc = 0x6C then .agen n op (bv 8 137 w) else if opc = 0x6D then .qport n
  else if opc = 0x70 then .pqadc n (bv 15 133 w) (bv 6 127 w) (bv 8 119 w)
  else if opc = 0x71 then .bound n (bit w 147) (bv 15 132 w)
  else if opc = 0x72 then .topk n (bv 8 140 w) (bit w 139) (bv 3 136 w) (bit w 135) (bv 42 93 w) (bit w 92) (bv 15 77 w)
  else if opc = 0x73 then .seepm n (bit w 147) (bv 42 105 w)
  else if opc = 0x74 then .tomb n op (bv 12 133 w)
  else if opc = 0x75 then .vset n op (bv 12 133 w) (bv 12 121 w) (bit w 120) (bit w 119)
  else if opc = 0x76 then .kipack n (bv 32 116 w) else .fcomp n (bv 32 116 w)

/-- The decoder of node records, total on any 256 bits (R101 to R105): what a record alone decides of R109. Checks
against the image, the fen and the tensor table are the loader's. -/
def decodeNode (w : Nat) : Except Reject Instr :=
  let opc := fld w 255 248
  match nodeRow opc with
  | none => .error .unassigned
  | some r =>
    let h := decodeNodeHdr w
    match worst (h.2 ++ rowFlaws opc r h.1 w ++ nodeExtra opc h.1 w) with
    | some e => .error e
    | none => .ok (nodeInstr opc h.1 w)

/-- The decoder on an instruction's bits, by its width: a scalar word, a stream command or a node record. -/
def decodeWord (nbits w : Nat) : Except Reject Instr :=
  if nbits = 32 then decodeScalar (w % 2 ^ 32) else if nbits = 128 then decodeCmd (w % 2 ^ 128)
  else if nbits = 256 then decodeNode (w % 2 ^ 256) else .error .unassigned

/-- The instruction the decoder reads from a table row's word: the words of R76 are one 32-bit unit stored
little-endian, so bit 0 of the table's numbering is bit 0 of the word. -/
def decodeTableWord (nbits w : Nat) : Option Instr :=
  match decodeWord nbits w with
  | .ok i => some i
  | .error _ => none

/-! ## The encoder -/

/-- Format A, I and X words: major, rd, ra and the low 14 bits (R76). -/
def encA (maj : Nat) (d a : Reg) (low : Nat) : Nat := maj * 2 ^ 26 + d.toNat * 2 ^ 20 + a.toNat * 2 ^ 14 + low

/-- Format A with rb and fn (R76). -/
def encR (maj : Nat) (d a b : Reg) (fn : Nat) : Nat := encA maj d a (b.toNat * 2 ^ 8 + fn)

/-- Format X with scope and fn (R76). -/
def encX (maj : Nat) (d a b : Reg) (scope : BitVec 3) (fn : Nat) : Nat := encR maj d a b (scope.toNat * 2 ^ 5 + fn)

/-- Format H (R76). -/
def encH (maj : Nat) (d : Reg) (h : BitVec 5) (c : BitVec 15) : Nat :=
  maj * 2 ^ 26 + d.toNat * 2 ^ 20 + h.toNat * 2 ^ 15 + c.toNat

/-- The fn of FP (R86). -/
def encFp (op : Nat) (f y : Bool) (m : BitVec 2) : Nat := op * 16 + b2n f * 8 + b2n y * 4 + m.toNat

/-- The full/empty code of LD and of ST (R89). -/
def Fe.code : Fe → Nat
  | .none => 0 | .keep => 1 | .clear => 2 | .set => 1

/-- Format M (R76). -/
def encM (maj : Nat) (d b : Reg) (s : MSize) (fe : Fe) (i : BitVec 9) : Nat :=
  encA maj d b (s.code * 2 ^ 11 + fe.code * 2 ^ 9 + i.toNat)

/-- Format B (R76). -/
def encB (maj : Nat) (c : Cond) (a : Reg) (o : BitVec 17) : Nat :=
  maj * 2 ^ 26 + c.code * 2 ^ 23 + a.toNat * 2 ^ 17 + o.toNat

/-- The word of a scalar instruction (R76 to R93); zero for what has no scalar word. -/
def encodeScalar : Instr → Nat
  | .add d a b => encR 0 d a b 0 | .sub d a b => encR 0 d a b 1 | .and d a b => encR 0 d a b 2
  | .or d a b => encR 0 d a b 3 | .xor d a b => encR 0 d a b 4 | .andn d a b => encR 0 d a b 5
  | .sll d a b => encR 0 d a b 6 | .srl d a b => encR 0 d a b 7 | .sra d a b => encR 0 d a b 8
  | .ror d a b => encR 0 d a b 9 | .slt d a b => encR 0 d a b 10 | .sltn d a b => encR 0 d a b 11
  | .seq d a b => encR 0 d a b 12 | .min d a b => encR 0 d a b 13 | .max d a b => encR 0 d a b 14
  | .minn d a b => encR 0 d a b 15 | .maxn d a b => encR 0 d a b 16
  | .clz d a => encR 0 d a 0 17 | .ctz d a => encR 0 d a 0 18 | .popc d a => encR 0 d a 0 19
  | .mul d a b => encR 1 d a b 0 | .mulh d a b => encR 1 d a b 1 | .mulhn d a b => encR 1 d a b 2
  | .div d a b => encR 1 d a b 3 | .divn d a b => encR 1 d a b 4 | .rem d a b => encR 1 d a b 5
  | .remn d a b => encR 1 d a b 6
  | .mksa d a b => encR 2 d a b 0 | .taddr d a b => encR 2 d a b 1 | .tbase d a => encR 2 d a 0 2
  | .tdim d a b => encR 2 d a b 3 | .tstr d a b => encR 2 d a b 4 | .tinfo d a => encR 2 d a 0 5
  | .fadd d a b f y m => encR 3 d a b (encFp 0 f y m) | .fsub d a b f y m => encR 3 d a b (encFp 1 f y m)
  | .fmul d a b f y m => encR 3 d a b (encFp 2 f y m) | .fdiv d a b f y m => encR 3 d a b (encFp 3 f y m)
  | .fsqrt d a f y m => encR 3 d a 0 (encFp 4 f y m)
  | .fmin d a b f => encR 3 d a b (encFp 5 f false 0) | .fmax d a b f => encR 3 d a b (encFp 6 f false 0)
  | .fma d a b f y m => encR 3 d a b (encFp 7 f y m)
  | .feq d a b f => encR 3 d a b (encFp 8 f false 0) | .flt d a b f => encR 3 d a b (encFp 9 f false 0)
  | .fle d a b f => encR 3 d a b (encFp 10 f false 0)
  | .cvt d a y m x dst src =>
    encA 4 d a (b2n y * 2 ^ 13 + m.toNat * 2 ^ 11 + b2n x * 2 ^ 10 + dst.code * 16 + src.code)
  | .csrr d c => encA 5 d 0 c.toNat | .csrw c a => encA 5 0 a (2 ^ 12 + c.toNat)
  | .csrx d a c => encA 5 d a (2 * 2 ^ 12 + c.toNat)
  | .addi d a i => encA 0x08 d a i.toNat | .andi d a i => encA 0x09 d a i.toNat | .ori d a i => encA 0x0A d a i.toNat
  | .xori d a i => encA 0x0B d a i.toNat | .slli d a s => encA 0x0C d a s.toNat | .srli d a s => encA 0x0D d a s.toNat
  | .srai d a s => encA 0x0E d a s.toNat | .slti d a i => encA 0x0F d a i.toNat | .sltni d a i => encA 0x10 d a i.toNat
  | .lui d i => 0x11 * 2 ^ 26 + d.toNat * 2 ^ 20 + i.toNat | .lba d i => 0x12 * 2 ^ 26 + d.toNat * 2 ^ 20 + i.toNat
  | .ld d b s fe i => encM 0x14 d b s fe i | .st d b s fe i => encM 0x15 d b s fe i
  | .br c a o => encB 0x18 c a o | .call c a o => encB 0x19 c a o | .jr d a => encA 0x1A d a 0
  | .halt => 0x1B * 2 ^ 26 | .trap c => 0x1B * 2 ^ 26 + 2 ^ 10 + c.toNat | .tret => 0x1B * 2 ^ 26 + 2 * 2 ^ 10
  | .wfe => 0x1B * 2 ^ 26 + 3 * 2 ^ 10 | .sev => 0x1B * 2 ^ 26 + 4 * 2 ^ 10
  | .fence s => encX 0x20 0 0 0 s 0 | .lda q d a s => encX (0x20 + b2n q) d a 0 s 1
  | .stl q a b s => encX (0x20 + b2n q) 0 a b s 2 | .cas q d a b s => encX (0x20 + b2n q) d a b s 3
  | .amoAdd q d a b s => encX (0x20 + b2n q) d a b s 8 | .amoAnd q d a b s => encX (0x20 + b2n q) d a b s 9
  | .amoOr q d a b s => encX (0x20 + b2n q) d a b s 10 | .amoXor q d a b s => encX (0x20 + b2n q) d a b s 11
  | .amoMin q d a b s => encX (0x20 + b2n q) d a b s 12 | .amoMax q d a b s => encX (0x20 + b2n q) d a b s 13
  | .amoMinn q d a b s => encX (0x20 + b2n q) d a b s 14 | .amoMaxn q d a b s => encX (0x20 + b2n q) d a b s 15
  | .amoSwap q d a b s => encX (0x20 + b2n q) d a b s 16
  | .binit a b s => encX 0x22 0 a b s 0 | .barv d a => encX 0x22 d a 0 0 1 | .bexp a b => encX 0x22 0 a b 0 2
  | .bwait d a b s => encX 0x22 d a b s 3
  | .qinit a b => encX 0x23 0 a b 0 0 | .qenq a b => encX 0x23 0 a b 0 1 | .qdeq a b => encX 0x23 0 a b 0 2
  | .qtenq d a b => encX 0x23 d a b 0 3 | .qtdeq d a b => encX 0x23 d a b 0 4 | .qstat d a => encX 0x23 d a 0 0 5
  | .qdrain a => encX 0x23 0 a 0 0 6
  | .rwfill d h c => encH 0x24 d h c | .rwfree d h c => encH 0x25 d h c | .rpop h c => encH 0x26 0 h c
  | .rpush h c => encH 0x27 0 h c
  | .rset h a => encR 0x28 0 a 0 h.toNat | .rget h a => encR 0x28 0 a 0 (128 + h.toNat)
  | .issue a b => encX 0x29 0 a b 0 0 | .cfgld d a b => encX 0x2A d a b 0 0
  | .dcinv a b => encX 0x2B 0 a b 0 0 | .dcdrain a b => encX 0x2B 0 a b 0 1 | .icinv a b => encX 0x2B 0 a b 0 2
  | _ => 0

/-- The completion target as bits [95:64] of a command (R96). -/
def CTarget.enc : CTarget → Nat
  | .none => 0
  | .scratch v d o => 1 * 2 ^ 94 + b2n v * 2 ^ 93 + d.toNat * 2 ^ 82 + o.toNat * 2 ^ 64
  | .table v e => 2 * 2 ^ 94 + b2n v * 2 ^ 93 + e.toNat * 2 ^ 64

/-- A command from its opcode, header, TH and OPND (R94). -/
def encC (opc : Nat) (h : CmdHdr) (th opnd : Nat) : Nat :=
  opc * 2 ^ 120 + b2n h.acq * 2 ^ 119 + b2n h.rel * 2 ^ 118 + h.scope.toNat * 2 ^ 115 + h.port.toNat * 2 ^ 108 +
    th * 2 ^ 96 + h.ct.enc + opnd

/-- The rounding tail of OPND (R97). -/
def encTail (rm : BitVec 2) (sat : Bool) : Nat := rm.toNat * 2 ^ 62 + b2n sat * 2 ^ 61

/-- The 128 bits of a stream command (R94 to R98, R200 to R218); zero for what is none. -/
def encodeCmd : Instr → Nat
  | .copy h s rm x d o2 o1 o0 =>
    encC 0x10 h s.toNat (encTail rm x + d.toNat * 2 ^ 48 + o2.toNat * 2 ^ 32 + o1.toNat * 2 ^ 16 + o0.toNat)
  | .copyr h r rm x s o2 o1 o0 =>
    encC 0x11 h r.toNat (encTail rm x + s.toNat * 2 ^ 48 + o2.toNat * 2 ^ 32 + o1.toNat * 2 ^ 16 + o0.toNat)
  | .copyx h r rm x d o2 o1 o0 =>
    encC 0x12 h r.toNat (encTail rm x + d.toNat * 2 ^ 48 + o2.toNat * 2 ^ 32 + o1.toNat * 2 ^ 16 + o0.toNat)
  | .copyred h s rm x d op o1 o0 =>
    encC 0x13 h s.toNat (encTail rm x + d.toNat * 2 ^ 48 + op.toNat * 2 ^ 46 + o1.toNat * 2 ^ 16 + o0.toNat)
  | .gather h t g r i n f =>
    encC 0x14 h t.toNat (g.toNat * 2 ^ 50 + r.toNat * 2 ^ 35 + i.toNat * 2 ^ 20 + n.toNat * 2 ^ 8 + b2n f * 2 ^ 7)
  | .scatter h t g r i n f =>
    encC 0x15 h t.toNat (g.toNat * 2 ^ 50 + r.toNat * 2 ^ 35 + i.toNat * 2 ^ 20 + n.toNat * 2 ^ 8 + b2n f * 2 ^ 7)
  | .fill h t c g o v => encC 0x16 h t.toNat (b2n c * 2 ^ 60 + g.toNat * 2 ^ 49 + o.toNat * 2 ^ 34 + v.toNat)
  | .agload h n a => encC 0x17 h 0 (n.toNat * 2 ^ 52 + a.toNat)
  | .sbar h m => encC 0x20 h 0 m.toNat
  | .carrive h => encC 0x21 h 0 0
  | .cexpect h b => encC 0x22 h 0 b.toNat
  | .qput h n r q => encC 0x23 h 0 (n.toNat * 2 ^ 53 + r.toNat * 2 ^ 48 + q.toNat)
  | .qget h n r q => encC 0x24 h 0 (n.toNat * 2 ^ 53 + r.toNat * 2 ^ 48 + q.toNat)
  | .depdec h d b n => encC 0x25 h 0 (d.toNat * 2 ^ 40 + b.toNat * 2 ^ 32 + n.toNat)
  | .cnop h => encC 0x26 h 0 0
  | .mred h t rm x op g s i n tag tmo =>
    encC 0x30 h t.toNat (encTail rm x + op.toNat * 2 ^ 59 + g.toNat * 2 ^ 48 + s.toNat * 2 ^ 33 + i.toNat * 2 ^ 25 +
      n.toNat * 2 ^ 17 + tag.toNat * 2 ^ 5 + tmo.toNat)
  | .matom h t op g s r ro d =>
    encC 0x31 h t.toNat (op.toNat * 2 ^ 57 + g.toNat * 2 ^ 46 + s.toNat * 2 ^ 31 + b2n r * 2 ^ 30 + ro.toNat * 2 ^ 15 +
      b2n d * 2 ^ 14)
  | .maxpy h t rm x g o a => encC 0x32 h t.toNat (encTail rm x + g.toNat * 2 ^ 50 + o.toNat * 2 ^ 35 + a.toNat)
  | .thresh h s => encC 0x40 h 0 s.toNat
  | .launch h a => encC 0x41 h 0 a.toNat
  | .mswitch h m n => encC 0x42 h 0 (b2n n * 2 ^ 8 + m.toNat)
  | .pref h t => encC 0x50 h t.toNat 0
  | .inval h t => encC 0x51 h t.toNat 0
  | .flush h t => encC 0x52 h t.toNat 0
  | _ => 0

/-- A reference as its 12 bits (R102). -/
def Ref.enc : Ref → Nat
  | .none => 0
  | .circuit d l => 1 * 512 + d.toNat * 128 + l.toNat * 16
  | .near s o => 2 * 512 + s.toNat * 2 + b2n o
  | .ring h => 3 * 512 + h.toNat
  | .const k => 4 * 512 + k.toNat
  | .reed d l => 5 * 512 + d.toNat * 128 + l.toNat
  | .seep d l => 6 * 512 + d.toNat * 128 + l.toNat * 16

/-- A guard as its 8 bits (R103). -/
def Guard.enc : Guard → Nat
  | .off => 0
  | .reed d l => 128 + d.toNat * 16 + l.toNat
  | .near o s => 128 + (4 + b2n o) * 16 + s.toNat

/-- A record from its opcode, common fields and PARAM [147:0] (R101, R104). -/
def encN (opc : Nat) (n : NodeHdr) (param : Nat) : Nat :=
  opc * 2 ^ 248 + n.var.toNat * 2 ^ 244 + n.fmt.code * 2 ^ 240 + n.slot.toNat * 2 ^ 232 + n.in0.enc * 2 ^ 220 +
    n.in1.enc * 2 ^ 208 + n.in2.enc * 2 ^ 196 + n.in3.enc * 2 ^ 184 + n.out0.enc * 2 ^ 172 + n.out1.enc * 2 ^ 160 +
    n.guard.enc * 2 ^ 152 + n.rm.toNat * 2 ^ 150 + b2n n.sat * 2 ^ 149 + b2n n.clone * 2 ^ 148 + param

/-- The shared fields of a matrix node as PARAM bits (R236). -/
def MatHdr.enc (m : MatHdr) : Nat :=
  b2n m.baren * 2 ^ 147 + b2n m.bararv * 2 ^ 146 + m.barix.toNat * 2 ^ 140 + b2n m.recen * 2 ^ 139 + m.recofs.toNat * 2 ^ 124

/-- The 256 bits of a node record (R101 to R105); zero for what is none. -/
def encodeNode : Instr → Nat
  | .vadd n => encN 0x01 n 0 | .vsub n => encN 0x02 n 0 | .vmul n => encN 0x03 n 0 | .vfma n => encN 0x04 n 0
  | .vdiv n => encN 0x05 n 0 | .vsqrt n => encN 0x06 n 0 | .vmin n => encN 0x07 n 0 | .vmax n => encN 0x08 n 0
  | .vabs n => encN 0x09 n 0 | .vneg n => encN 0x0A n 0 | .vand n => encN 0x0B n 0 | .vor n => encN 0x0C n 0
  | .vxor n => encN 0x0D n 0 | .vshl n => encN 0x0E n 0 | .vshr n => encN 0x0F n 0 | .vclamp n => encN 0x10 n 0
  | .vcmp n cc any => encN 0x11 n (cc.toNat * 2 ^ 145 + b2n any * 2 ^ 144)
  | .sel n => encN 0x12 n 0
  | .cvtNode n s st dt => encN 0x13 n (s.code * 2 ^ 144 + st.toNat * 2 ^ 132 + dt.toNat * 2 ^ 120)
  | .vperm n => encN 0x14 n 0
  | .vrec n => encN 0x18 n 0 | .vrsq n => encN 0x19 n 0 | .vexp n => encN 0x1A n 0 | .vlog n => encN 0x1B n 0
  | .vtanh n => encN 0x1C n 0 | .vsigm n => encN 0x1D n 0
  | .vred n op l => encN 0x20 n (op.toNat * 2 ^ 145 + l.toNat * 2 ^ 142)
  | .vscan n op l => encN 0x21 n (op.toNat * 2 ^ 145 + l.toNat * 2 ^ 142)
  | .vbcast n e => encN 0x22 n (e.toNat * 2 ^ 143)
  | .mma n m k c => encN 0x28 n (m.enc + k.toNat * 2 ^ 108 + b2n c * 2 ^ 107)
  | .mpoly n m d => encN 0x29 n (m.enc + d.toNat * 2 ^ 121)
  | .miter n m c t l v => encN 0x2A n (m.enc + c.toNat * 2 ^ 108 + t.toNat * 2 ^ 76 + l.toNat * 2 ^ 44 + b2n v * 2 ^ 43)
  | .msort n m => encN 0x2B n m.enc | .mtrn n m => encN 0x2C n m.enc
  | .cseq n c => encN 0x30 n (c.toNat * 2 ^ 116) | .cpipe n c d => encN 0x31 n (c.toNat * 2 ^ 116 + d.toNat * 2 ^ 112)
  | .cstrm n c => encN 0x32 n (c.toNat * 2 ^ 116) | .steer n => encN 0x33 n 0
  | .prime n k => encN 0x34 n (k.toNat * 2 ^ 140)
  | .source n b e => encN 0x35 n (b.toNat * 2 ^ 116 + e.toNat * 2 ^ 112)
  | .sink n d => encN 0x36 n (d.toNat * 2 ^ 132)
  | .count n c b s e => encN 0x37 n (c.toNat * 2 ^ 116 + b.toNat * 2 ^ 84 + s.toNat * 2 ^ 52 + e.toNat * 2 ^ 48)
  | .load n s => encN 0x40 n (s.toNat * 2 ^ 145) | .store n s => encN 0x41 n (s.toNat * 2 ^ 145)
  | .ldfe n s => encN 0x42 n (s.toNat * 2 ^ 145) | .stfe n s => encN 0x43 n (s.toNat * 2 ^ 145)
  | .ojoin n s => encN 0x44 n (s.toNat * 2 ^ 145)
  | .atom n s o => encN 0x45 n (s.toNat * 2 ^ 145 + o.toNat * 2 ^ 141)
  | .rdring n s => encN 0x46 n (s.toNat * 2 ^ 145)
  | .wrring n s c => encN 0x47 n (s.toNat * 2 ^ 145 + c.toNat * 2 ^ 140)
  | .fscan n p c k => encN 0x60 n (p.toNat * 2 ^ 133 + c.toNat * 2 ^ 118 + k.toNat * 2 ^ 86)
  | .isect n => encN 0x61 n 0 | .union n o => encN 0x62 n (o.toNat * 2 ^ 145)
  | .repeatNode n l => encN 0x63 n (l.toNat * 2 ^ 145)
  | .sred n o l => encN 0x64 n (o.toNat * 2 ^ 145 + l.toNat * 2 ^ 142)
  | .sjoin n o l r => encN 0x65 n (o.toNat * 2 ^ 145 + l.toNat * 2 ^ 142 + r.toNat * 2 ^ 139)
  | .sacc n a w l => encN 0x66 n (a.toNat * 2 ^ 133 + w.toNat * 2 ^ 120 + l.toNat * 2 ^ 117)
  | .split n => encN 0x67 n 0 | .merge n => encN 0x68 n 0 | .rmerge n => encN 0x69 n 0
  | .gath n s t i => encN 0x6A n (s.toNat * 2 ^ 145 + t.toNat * 2 ^ 133 + b2n i * 2 ^ 132)
  | .scat n s v c p l =>
    encN 0x6B n (s.toNat * 2 ^ 145 + v.toNat * 2 ^ 133 + c.toNat * 2 ^ 121 + p.toNat * 2 ^ 109 + l.toNat * 2 ^ 106)
  | .agen n s st => encN 0x6C n (s.toNat * 2 ^ 145 + st.toNat * 2 ^ 137) | .qport n => encN 0x6D n 0
  | .pqadc n t m z => encN 0x70 n (t.toNat * 2 ^ 133 + m.toNat * 2 ^ 127 + z.toNat * 2 ^ 119)
  | .bound n r o => encN 0x71 n (b2n r * 2 ^ 147 + o.toNat * 2 ^ 132)
  | .topk n k s l qe q r o =>
    encN 0x72 n (k.toNat * 2 ^ 140 + b2n s * 2 ^ 139 + l.toNat * 2 ^ 136 + b2n qe * 2 ^ 135 + q.toNat * 2 ^ 93 +
      b2n r * 2 ^ 92 + o.toNat * 2 ^ 77)
  | .seepm n qe q => encN 0x73 n (b2n qe * 2 ^ 147 + q.toNat * 2 ^ 105)
  | .tomb n s t => encN 0x74 n (s.toNat * 2 ^ 145 + t.toNat * 2 ^ 133)
  | .vset n s v t e k =>
    encN 0x75 n (s.toNat * 2 ^ 145 + v.toNat * 2 ^ 133 + t.toNat * 2 ^ 121 + b2n e * 2 ^ 120 + b2n k * 2 ^ 119)
  | .kipack n b => encN 0x76 n (b.toNat * 2 ^ 116) | .fcomp n e => encN 0x77 n (e.toNat * 2 ^ 116)
  | _ => 0

/-- How many bits an instruction's encoding has: 32, 128 or 256, or none for an event of the part. -/
def Instr.width (i : Instr) : Nat :=
  if encodeNode i ≠ 0 then 256 else if encodeCmd i ≠ 0 then 128
  else match i with
    | .add _ _ _ => 32
    | _ => if encodeScalar i ≠ 0 then 32 else 0

/-- The words of an instruction: its width in bits and the number they hold. -/
def encode (i : Instr) : Nat × Nat :=
  (i.width, encodeNode i + encodeCmd i + encodeScalar i)

end Sys2Proof
end

