-- ==== Sys2Proof/Config.lean ====
section
/-! DEFINITION. What the spec leaves to the implementation: free values. Every constant here is opaque and has no
body, so nothing in Lean can evaluate it or prove a value of it. The step applies it to the free-value counter of
State and advances that counter, so that each use is a fresh value. notes/assumptions names each of them. -/
namespace Sys2Proof

/-- A free truth value, one per use. Used where the spec allows either of two outcomes: the old or the new contents
of a cached fetch block (R82), an older or the newest value of a cached line (R152), the old or the new entry of a
translation holder (R316). -/
opaque Config.freeBool : Nat → Bool

/-- A free number, one per use: the choice among waiters of one granule (R23), an EMT's retry hint (R309). -/
opaque Config.freeNat : Nat → Nat

/-- A free word, one per use: the fabric cycles that have passed since csr.cycle was last read (R11, R15). -/
opaque Config.freeDelay : Nat → BitVec 64

/-- A free word, one per use: csr.trapval where no rule names what it holds (R80, R185). -/
opaque Config.freeWord : Nat → BitVec 64

/-- A free byte, one per use: bytes whose contents the spec does not lay out (the latch area of a save image, R387). -/
opaque Config.freeByte : Nat → BitVec 8

/-- Whether the peer module refuses an access that leaves through a boardwalk port (R410): the peer's import entries
are no part of this module. -/
opaque Config.peerRefuses : Nat → Bool

/-- The correctly rounded value of a function of R233 (vexp, vlog, vtanh, vsigm) on the operands where the model's
own enclosure of the exact value does not decide the rounding: function code, format code, rounding code, operand
bits. -/
opaque Config.hardRounding : Nat → Nat → Nat → Nat → Nat

end Sys2Proof
end

