-- ==== Sys2Proof/Machine/State.lean ====
section
/-! DEFINITION. The state of one Sirpen G4 module as plain data: every fen with its control core, mantles, nodes and
command ports; memory with its full/empty bits and marks; translation holders, EMTs, Mere reductions; the device
tables; the launch distributor and task schedulers; slices, migration, host registers and bring-up. The last four
fields of State are the model's own: which agent moves next, who acted last, the free-value counter and the sum of
cycles that have passed. -/
namespace Sys2Proof.Machine

/-! ## Places -/

/-- A tile of the module: die 0 to 3, row 0 to 17, column 0 to 9 (R348). -/
structure Tile where
  die : Nat
  row : Nat
  col : Nat
  deriving DecidableEq, Repr

/-- A command port of a fen (R95, R192): the fen controller, or an input port of a slot. Each is one stream. -/
inductive PortKey where
  | fc
  | slot (t : Tile) (slot input : Nat)
  deriving DecidableEq, Repr

/-- A site of the packet network (R358): a tile of the grid, an EMT west or east of a row, a Mere bank tile north or south of
a column (R5, R348). -/
inductive Site where
  | tile (t : Tile)
  | west (die row : Nat)
  | east (die row : Nat)
  | north (die col : Nat)
  | south (die col : Nat)
  deriving DecidableEq, Repr

/-- A range of storage outside the module that another party writes (R313, R410). -/
inductive Outside where
  | host
  | peer (mod : Nat)
  deriving DecidableEq, Repr

/-- Who moves at a step. The schedule is a list of these: it stands for every interleaving that the spec leaves
open, for the timing of events, and for what the host and the peers do. -/
inductive Agent where
  /-- the control core of fen f -/
  | core (f : Nat)
  /-- a node of fen f's current mantle, by its place in the mantle's node list -/
  | node (f k : Nat)
  /-- the k-th command held at the p-th command port of fen f -/
  | port (f p k : Nat)
  /-- an event of the scheduler, the memories, the host or a peer -/
  | event (i : Instr)
  /-- n fabric cycles pass -/
  | pass (n : Nat)
  /-- another party writes bytes of its own memory -/
  | outside (o : Outside) (addr : Nat) (bytes : List Byte)
  /-- a cached copy is evicted: a line or fetch block of fen f's caches -/
  | evictLine (f va : Nat)
  /-- a translation is evicted from a micro-TLB, a die TLB or a walker cache: the k-th entry -/
  | evictTlb (k : Nat)
  /-- an EMT evicts a line (R311), by its key -/
  | evictEmt (line : Nat)
  /-- the physical function sets the root of a partition's stage-2 tables, by means the spec does not lay out (R314) -/
  | stage2Root (part addr : Nat)
  /-- another module reports that fen tasks of a group launch have completed there (R335, R342): the launch, how many, and
  whether one of them was terminated -/
  | remoteDone (key n : Nat) (term : Bool)
  /-- the host commits its HDM decoder, or releases it (R408) -/
  | hdmDecoder (on : Bool)
  /-- core f's next commit puts its global stores into the packet network instead of waiting until they are performed
  (R152, R193) -/
  | writeLate (f : Nat)
  /-- output `out` of the router at a site serves its next flit (R358) -/
  | router (at' : Site) (out : Nat)
  /-- the updates of barrier objects from here on reach their owners in one cycle; or that cycle ends (R30) -/
  | barCycle (on : Bool)
  /-- the host takes a line of device memory into its caches, or gives it up, as a back-invalidate asks (R408) -/
  | hostLine (line : Nat) (on : Bool)
  /-- the host reads 8 bytes of BAR0 of a function (R403) -/
  | hostRead (fn ofs : Nat)
  /-- a soft error marks the byte at a key corrected or uncorrectable (R415, R416) -/
  | softError (key : Nat) (fatal : Bool)
  /-- the next transfer of a 64-byte unit through the packet network fails its end-to-end check (R415) -/
  | netError (unit : Nat)
  /-- a parity error in the accumulator tiles of node k of fen f (R415, R417) -/
  | accError (f k : Nat)
  /-- the coolant has an inlet temperature (R409, R421) -/
  | coolant (tin : Nat)
  /-- another module's distributor refuses an instance of a group launch: the launch, how many fen tasks (R411) -/
  | remoteRefused (key n : Nat)
  deriving DecidableEq, Repr

/-! ## Memory -/

/-- The memory types of R306, and tile scratch (R20). -/
inductive MemType where
  | spread | hlocal | peat | host | peer | mere | scratch
  deriving DecidableEq, Repr

/-- Where a translated access goes: its type, the key of its first byte in `Memory.cells`, and what dirty tracking
and the records need (R306, R320, R392). -/
structure Phys where
  typ  : MemType
  key  : Nat
  ipa  : Nat
  fn   : Nat
  asid : Nat
  mod  : Nat
  deriving DecidableEq, Repr

/-- Memory and the marks that travel with it. Keys number every byte of every storage (Ops.lean). -/
structure Memory where
  /-- bytes, in canonical form: keys strictly rising, no entry 0 -/
  cells  : List Host.Cell
  /-- granules whose full/empty bit is full (R22), by key / 16, strictly rising -/
  full   : List Nat
  /-- bytes marked uncorrectable (R416), strictly rising -/
  poison : List Nat
  /-- bytes whose next read is corrected (R416), strictly rising -/
  fixed  : List Nat
  /-- marked bytes whose mark the check of an EMT set, or the end-to-end check of the packet network, rather than the check of
  the storage they lie in (R415, R419), each strictly rising -/
  emtMark : List Nat
  netMark : List Nat
  /-- 64-byte units, by key / 64, whose next transfer through the packet network fails its check (R415), strictly rising -/
  transit : List Nat
  deriving DecidableEq, Repr

/-! ## Translation (R314 to R322) -/

/-- The kinds of access of R320 ACC. -/
inductive Acc where
  | read | write | rmw | fetch
  deriving DecidableEq, Repr

/-- The source of an access, as a fault record names it (R320). -/
structure Req where
  fen    : Option Nat
  srck   : Nat
  tile   : Tile
  slot   : Nat
  stream : Nat
  elem   : Nat
  /-- the command of a port that makes the access, by its order of acceptance (the model's own) -/
  cmd    : Nat
  deriving DecidableEq, Repr

/-- Which holder keeps a translation (R317). -/
inductive Holder where
  | micro (t : Tile)
  | die (d : Nat)
  deriving DecidableEq, Repr

/-- A combined translation: a page of `size` bytes at `va` of an ASID, mapped to `base` of a type, with the
permissions of both stages and the place of its stage-2 leaf (R314, R317). -/
structure Tlb where
  holder : Holder
  asid   : Nat
  part   : Nat
  va     : Nat
  size   : Nat
  ipa    : Nat
  typ    : MemType
  base   : Nat
  /-- the module of a PEER page, the home die of an HBM-local page -/
  mod    : Nat
  rd1 : Bool
  w1  : Bool
  x1  : Bool
  rd2 : Bool
  w2  : Bool
  x2  : Bool
  dirty : Bool
  leaf   : Nat
  deriving DecidableEq, Repr

/-- An entry of a die's walker cache: the stage-2 translation of one 4 KiB page of tables (R317). -/
structure WalkCache where
  die  : Nat
  part : Nat
  ipa  : Nat
  pa   : Nat
  deriving DecidableEq, Repr

/-- A request that waits on a walk: its source, its address, its kind of access (R317, R320). -/
structure Ask where
  req : Req
  va  : Nat
  acc : Acc
  deriving DecidableEq, Repr

/-- A walk: queued, or in progress at one of its die's 128 walkers (R318). `stale` marks one whose result an
invalidation discards (R407). -/
structure Walk where
  die     : Nat
  asid    : Nat
  part    : Nat
  va      : Nat
  acc     : Acc
  holder  : Tile
  reqs    : List Ask
  running : Bool
  stale   : Bool
  deriving DecidableEq, Repr

/-- Why a translation failed: reason, stage (R319, R320). -/
structure XFault where
  va     : Nat
  acc    : Acc
  reason : Nat
  stage  : Nat
  deriving DecidableEq, Repr

/-- A replayable fault awaiting its verdict (R321), or a failure the requester has yet to meet. -/
structure Pending where
  seq   : Nat
  fn    : Nat
  asid  : Nat
  fault : XFault
  req   : Req
  repl  : Bool
  /-- the verdict, once given: some true terminates; held while the context is frozen (R385) -/
  verdict : Option Bool
  /-- the later requests of its stream that were issued before it, which it does not hold up (R326) -/
  past  : List Req
  deriving DecidableEq, Repr

/-- An access that has left through the CXL.cache agent or a boardwalk port and awaits its response: an entry of an
external completion table (R383). -/
structure Ext where
  req   : Req
  asid  : Nat
  acc   : Acc
  va    : Nat
  key   : Nat
  len   : Nat
  port  : Option Nat
  resp  : Option (List Byte)
  bad   : Bool
  deriving DecidableEq, Repr

/-- Translation and external accesses. -/
structure Xlate where
  tlbs    : List Tlb
  wcache  : List WalkCache
  walks   : List Walk
  pending : List Pending
  /-- requesters that met a fault that was serviced, owed XLATE_RETRIED -/
  retried : List Req
  ext     : List Ext
  /-- the partition each die's translation unit serves next (R318) -/
  turn    : List Nat
  deriving DecidableEq, Repr

/-! ## Edge memory tiles (R308 to R311) -/

/-- A line present in its home EMT, by key / 128: the ASID of its last writer and its dirty bit. -/
structure Line where
  line  : Nat
  owner : Nat
  dirty : Bool
  deriving DecidableEq, Repr

/-- A retry timer of a memory-port tile (R309): when it presents its request again, and how often it was refused. -/
structure Timer where
  req   : Req
  line  : Nat
  due   : Nat
  count : Nat
  /-- the timer has run out and the request may be presented again -/
  ready : Bool
  deriving DecidableEq, Repr

/-- The EMTs. -/
structure Emt where
  lines    : List Line
  /-- fills in flight and the request that waits on each: the miss tables, 32 to each EMT -/
  fills    : List (Req × Nat)
  timers   : List Timer
  /-- reserved requests, in order of entry -/
  reserved : List (Req × Nat)
  /-- lines held as read-only replicas, each with the EMT that holds it -/
  replicas : List (Nat × Nat)
  /-- lines the host may hold, and those a back-invalidate snoop is out for (R408) -/
  hostHas  : List Nat
  snoops   : List Nat
  deriving DecidableEq, Repr

/-! ## The packet network (R358 to R361) -/

/-- What a packet does when its last flit enters its target. -/
inductive Load where
  /-- a write of a control core performed at its home -/
  | write (ph : Phys) (va : Nat) (bytes : List Byte)
  /-- the response to a write -/
  | ack
  /-- a back-invalidate snoop reaches the host-link controller (R408) -/
  | snoop (line : Nat)
  deriving DecidableEq, Repr

/-- A packet: its source, its virtual network (none: the system class of R360), its class, where it entered, its target,
its length in flits. -/
structure Packet where
  num  : Nat
  src  : Req
  vn   : Option Nat
  resp : Bool
  frm  : Site
  dst  : Site
  len  : Nat
  /-- how many of its flits have entered the network -/
  sent : Nat
  load : Load
  deriving DecidableEq, Repr

/-- A flit in an input buffer of a router: its packet, its place in the packet, the site, the input port (0 N, 1 E, 2 S,
3 W, 4 the site's own, 5 the causeway). -/
structure Flit where
  pkt  : Nat
  ix   : Nat
  at'  : Site
  port : Nat
  deriving DecidableEq, Repr

/-- The packet network. Flits stand in order of arrival, so that the flits of one buffer are a queue. -/
structure Net where
  packets : List Packet
  flits   : List Flit
  next    : Nat
  /-- the channel each router output served last (R358): 0 to 15 a virtual network, 16 the system class -/
  served  : List ((Site × Nat) × Nat)
  /-- requests that wait at their sources for their partition's rate limiter (R378) -/
  held    : List Req
  deriving DecidableEq, Repr

/-! ## Nodes (R40, R219) -/

/-- The state of a placed node slot (R40); VACANT is a slot no node stands in. -/
inductive NodeSt where
  | idle | blocked | firing | guarded | trapped
  deriving DecidableEq, Repr

/-- A beat or a Reed token (R351): type code, data, sequence tag, poison mark. A token's value is data bit 0. -/
structure Beat where
  typ    : Nat
  data   : BitVec 256
  tag    : Option (BitVec 16)
  poison : Bool
  deriving DecidableEq, Repr

/-- An access of a memory node between its firing and its delivery: an entry of the reorder window of its stream (R325): the
address and the offset of a piece of 16 bytes in a 32-byte access, the firing and the element's place in it, whether it is the
firing's last, the operand to write and the value to compare with, poison and the sequence tag of the operands, an entry it
belongs to; for a read that was issued ahead of an earlier access, where its translation led, and what came back. -/
structure WinEl where
  addr : BitVec 64
  off  : Nat
  cmd  : Nat
  elem : Nat
  fin  : Bool
  data : List Byte
  cmp  : List Byte
  bad  : Bool
  tag  : Option (BitVec 16)
  note : BitVec 64
  home : Option Phys
  got  : Option (List Byte × BitVec 32)
  deriving DecidableEq, Repr

/-- The loop state and node-specific memory of a slot (R40, R242); each field names who uses it. -/
structure NodeMem where
  /-- ring inputs: beats taken of the head slot, and passes over it (R220), for IN0 to IN3 -/
  pos  : List Nat
  uses : List Nat
  /-- ring outputs: beats written to the tail slot, for OUT0 and OUT1 -/
  opos : List Nat
  /-- packing nodes: elements waiting for a whole beat (R221), for OUT0 and OUT1 -/
  pack0 : List (BitVec 64)
  pack1 : List (BitVec 64)
  /-- elements of a beat not yet used: addresses of memory nodes, entries of a fibre, data of a store -/
  left0 : List (BitVec 64)
  left1 : List (BitVec 64)
  /-- running values per lane, the carry of a scan, a sacc's array with its occupancy, a top list -/
  vals : List (BitVec 64)
  occ  : List Bool
  /-- the accumulator tiles (R236): 1,024 elements each -/
  acc0 : List (BitVec 64)
  acc1 : List (BitVec 64)
  /-- tiles of a loop node that are in the making (R242) -/
  temp : List (List (BitVec 64))
  /-- counters: firings, iterations, outputs, blocks passed and skipped, items left -/
  n0 : Nat
  n1 : Nat
  n2 : Nat
  n3 : Nat
  /-- flags: a segment holds data, EXITED, an activation runs, a block is dropped -/
  b0 : Bool
  b1 : Bool
  b2 : Bool
  /-- the phase-start work of the node has been done -/
  begun : Bool
  /-- exit tokens and guards of a controller, in iteration order -/
  flags : List Bool
  /-- status since the previous record (R278, R279), and of the firing in progress -/
  osw  : BitVec 32
  resid : BitVec 32
  /-- beats and tokens a node still owes its outputs, with their output -/
  owe  : List (Nat × Beat)
  /-- the elements waiting for a whole beat came with poison -/
  bad  : Bool
  /-- items of the firing or the activation in progress that are behind it: the element number of its next access (R320) -/
  nth  : Nat
  /-- the parity of the accumulator tiles has failed (R415, R417) -/
  parity : Bool
  /-- the sequence tag of the IN0 beat taken last (R351) -/
  tag  : Option (BitVec 16)
  /-- accesses of the firings in progress, oldest first -/
  win  : List WinEl
  deriving DecidableEq, Repr

/-- A node of a mantle: its place, its record, the captured tensor entries (R36), its port buffers and its state. -/
structure Node where
  tile : Tile
  slot : Nat
  ins  : Instr
  opc  : Nat
  st   : NodeSt
  /-- input port buffers IN0 to IN3, and the guard's tokens -/
  inq  : List (List Beat)
  /-- output port buffers OUT0 and OUT1 -/
  outq : List (List Beat)
  /-- the ports hold their inputs while the balancer works (R346) -/
  held : Bool
  stalled : Nat
  starved : Nat
  /-- the counters at the last balancer window, and how many windows the node was the bottleneck (R344) -/
  seen : Nat × Nat
  wins : Nat
  /-- the threshold register and the values it held earlier in the phase, latest first (R274), the keys that the seep hops of
  IN0 to IN3 hold, and the last key sent -/
  thr  : BitVec 64
  past : List (BitVec 64)
  hops : List (BitVec 32)
  sent : BitVec 32
  tens : List (BitVec 512)
  coef : List (BitVec 32)
  mem  : NodeMem
  /-- some for a clone the balancer placed, or a split or merge it inserted (R346) -/
  clone : Bool
  deriving DecidableEq, Repr

/-- Where a wire begins or ends: output `port` of a node (a source), input `port` of a node, 0 to 3 or 4 for its guard
(a sink), a fork's stage, or a select lane x13 to x15 of the fen controller (R107, R353, R356). -/
inductive End where
  | node (t : Tile) (slot port : Nat)
  | relay (k : Nat)
  | sel (lane : Nat)
  deriving DecidableEq, Repr

/-- One branch of a source. `kind` is that of R106 (1 circuit, 2 Reed, 3 seep); `cap` its slack (R353), the most beats
delivered into it and not yet consumed; `disc` that every route record along the edge has DISC set (R357). -/
structure Wire where
  src  : End
  kind : Nat
  dst  : End
  cap  : Nat
  disc : Bool
  deriving DecidableEq, Repr

/-- The stages between a source and a fork in another tile: two latches a hop for beats, four for tokens (R352, R355). -/
structure Relay where
  cap  : Nat
  q    : List Beat
  deriving DecidableEq, Repr

/-- A lane of a switch: kind (1 circuit, 2 Reed, 3 seep), direction, number. -/
structure Lane where
  tile : Tile
  kind : Nat
  dir  : Nat
  lane : Nat
  deriving DecidableEq, Repr

/-- A loaded mantle (R41, R108): its ring table, command-port table, barrier table, constant pool, nodes and routes. -/
structure Mantle where
  rings  : List (BitVec 256)
  ports  : List (BitVec 32)
  bars   : List (BitVec 64)
  consts : List (BitVec 256)
  nodes  : List Node
  wires  : List Wire
  relays : List Relay
  /-- the lanes its routes and references use (R375) -/
  lanes  : List Lane
  deriving DecidableEq, Repr

/-! ## Stream commands (R190) -/

/-- A read of a command that was issued before its turn (R325, R326): its element and address, where its translation led, as long
as that holds, and its data once it has come. -/
structure Ahead where
  elem : Nat
  va   : Nat
  home : Option Phys
  got  : Option (List Byte × BitVec 32)
  deriving DecidableEq, Repr

/-- A command held at its port. -/
structure Cmd where
  ins   : Instr
  /-- order of acceptance in the fen -/
  num   : Nat
  begun : Bool
  /-- every effect is performed; the completion is owed -/
  done  : Bool
  /-- progress: the next element, row, word or step; `sub` is also the queue whose wake the command awaits -/
  pos   : Nat
  sub   : Nat
  /-- bytes landed and not yet reported (R195) -/
  bytes : Nat
  osw   : BitVec 32
  /-- entries captured at acceptance (R36): of TH, and of the operand -/
  ten0  : BitVec 512
  ten1  : BitVec 512
  /-- which piece of its present row or slot the command is at -/
  stage : Nat
  /-- data in hand, CF8 units read so far, and whether some of it is uncorrectable (R197) -/
  data  : List Byte
  raw   : List Byte
  bad   : Bool
  /-- waiting for a wake (R177), for a launch's acceptance, for an answer -/
  asleep : Bool
  key   : Nat
  /-- the mantle current at acceptance, whose rings the command uses (R217) -/
  man   : Nat
  /-- reads issued while an earlier access waited, held in the reorder window of the port's stream (R325) -/
  early : List Ahead
  deriving DecidableEq, Repr

/-- A command port and the commands it holds, in acceptance order. -/
structure PortQ where
  key  : PortKey
  cmds : List Cmd
  deriving DecidableEq, Repr

/-! ## The control core (R13 to R19, R132 to R163) -/

/-- What a block holds back until its commit, in program order (R134, R161). -/
inductive Eff where
  /-- a plain store or stl's store -/
  | store (ph : Phys) (va : Nat) (bytes : List Byte)
  /-- a full/empty store and a clear hold (R154) -/
  | setFull (ph : Phys) (bytes : List Byte)
  | setEmpty (ph : Phys)
  /-- an object written whole by binit, without evaluation (R171) -/
  | binit (ph : Phys) (bytes : List Byte)
  | rpop (h n : Nat)
  | rpush (h n : Nat)
  | rset (h : Nat) (d : BitVec 256)
  | cmd (w : BitVec 128)
  | cfgld (m : Nat) (img : Mantle)
  | icinv (a l : Nat)
  | sev
  /-- wfe's clear of the event flag (R188) -/
  | clearFlag
  deriving DecidableEq, Repr

/-- A non-revocable instruction as its preparation left it (R161): operand values, the location of its operation, and
for queues the element's locations by 8-byte piece, or qinit's template. -/
structure Prep where
  a     : Word
  b     : Word
  d     : Word
  ph    : Phys
  esz   : Nat
  elem  : List Phys
  bytes : List Byte
  scope : Nat
  deriving DecidableEq, Repr

/-- Where a control core stands. -/
inductive CorePhase where
  /-- the next block is to be fetched -/
  | fetch
  /-- instruction `idx` of the block is to be performed -/
  | run
  /-- every other instruction is performed; a claim is out (R161) -/
  | claim
  /-- the claim is granted: the point of no return is passed -/
  | granted
  /-- the block commits -/
  | commit
  /-- halt has committed, or the fen controller stopped the core (R159, R343) -/
  | halted
  deriving DecidableEq, Repr

/-- A line of a data cache (R152): its virtual address, the key of its first byte, its bytes. -/
structure DLine where
  va    : Nat
  key   : Nat
  bytes : List Byte
  deriving DecidableEq, Repr

/-- The control core of a fen. Fields up to `flag` are architected; the rest is the block-local state of R132. -/
structure Core where
  regs     : Vector Word 64
  pc       : Word
  seq      : Word
  argp     : Word
  complw   : Word
  lix      : List (BitVec 32)
  rm       : BitVec 2
  trapvec  : Word
  trapcause : Word
  trapblk  : Word
  trapval  : Word
  trapidx  : Word
  /-- the event flag (R188) -/
  flag     : Bool
  phase    : CorePhase
  /-- instruction cache: fetch blocks by virtual address (R82); data cache: lines (R152) -/
  icache   : List (Nat × List Byte)
  dcache   : List DLine
  /-- cached lines, by physical key, that another agent of the anchor tile has written since the last acquire -/
  near     : List Nat
  /-- the next commit puts its global stores into the packet network -/
  late0    : Bool
  /-- node traps passed to the core, oldest first: csr.trapcause and csr.trapval of each (R225, R27) -/
  traps    : List (Nat × Word)
  /-- the block: instruction words, NRV, NRIX, next index -/
  words    : List (BitVec 32)
  nrv      : Bool
  nrix     : Nat
  idx      : Nat
  loc      : Vector Word 64
  locRm    : BitVec 2
  locVec   : Word
  /-- registers written by instructions after NRIX in program order -/
  late     : List Nat
  /-- effects held back, each with its instruction's index -/
  effs     : List (Nat × Eff)
  stat     : BitVec 32
  /-- STATUS bits that csrw and csrx of the block clear -/
  clr      : BitVec 16
  exit     : Option Word
  /-- the index of the instruction that takes the exit -/
  exitIx   : Nat
  halting  : Bool
  prep     : Option Prep
  /-- a held claim waits for a wake (BLK 1) or for its next presentation (BLK 0) (R177) -/
  asleep   : Bool
  /-- the held claim is of a queue with BLK 0 -/
  retry    : Bool
  /-- a wfe waits since this cycle -/
  wfe      : Option Nat
  /-- bytes of a configuration image that cfgld or the fen's start has read so far -/
  img      : List Byte
  deriving DecidableEq, Repr

/-! ## Fens -/

/-- A fen task and its fen. A fen keeps its record after completion, as csr.fenstat STATE 6 shows. -/
structure Fen where
  die    : Nat
  row0   : Nat
  col0   : Nat
  height : Nat
  width  : Nat
  /-- the assigned memory-port tiles, index 0 to 15 (R340) -/
  mpts   : List Tile
  asid   : Nat
  fn     : Nat
  part   : Nat
  ctx    : Nat
  launch : Nat
  /-- csr.fenstat: STATE, DROPPED, STATUS (R16) -/
  state   : Nat
  dropped : Nat
  status  : BitVec 16
  /-- progress of the start (R341) and of the completion (R342) -/
  loading : Nat
  drain   : Nat
  core    : Core
  mantles : List (Option Mantle)
  cur     : Nat
  ports   : List PortQ
  /-- the next number of acceptance -/
  cmdNum  : Nat
  /-- program stores of AG slots (R207): tile, slot, words -/
  progs   : List (Tile × Nat × List Word)
  /-- the select register: some none is exit (R356); unpaired tokens on x14 and x15 -/
  select  : Option (Option Nat)
  sel14   : List Bool
  sel15   : List Bool
  /-- tokens that have reached the fen controller's lanes x13 to x15 and are not yet captured: lane, value -/
  selq    : List (Nat × Bool)
  /-- the mantle of a pending mswitch with NOW 0 -/
  pendSw  : Option Nat
  /-- the choice fixed at a phase end: some none is exit -/
  choice  : Option (Option Nat)
  /-- no phase runs (after an exit) -/
  exited  : Bool
  /-- some cause for a terminated task (R343), with DETAIL [15:8] -/
  term    : Option (Nat × Nat)
  /-- cycles during which the fen was frozen (R384) -/
  lag     : Nat
  /-- memory-port slots the images place a node in (R339) -/
  mslots  : List (Tile × Nat)
  /-- spare tiles that clones hold (R346) -/
  spares  : List Tile
  /-- poisoned units already consumed in this phase: agent, unit (R417) -/
  eaten   : List (Nat × Nat)
  deriving DecidableEq, Repr

/-! ## Launches and the task schedulers (R329 to R342) -/

/-- An accepted launch, kept until it completes. -/
structure Launch where
  key    : Nat
  asid   : Nat
  fn     : Nat
  part   : Nat
  ctx    : Nat
  desc   : BitVec 1024
  /-- the module it was submitted on (R335, R411) -/
  src    : Nat
  /-- the dependence counter of a named launch (R332) -/
  dep    : Nat
  distributed : Bool
  /-- unfinished fen tasks (R342), and how many of them other modules of the group run (R335) -/
  left   : Nat
  remote : Nat
  anyTerm : Bool
  /-- of another module's launch: whether its count reached zero with the tasks here, once that is known (R342) -/
  last   : Option Bool
  deriving DecidableEq, Repr

/-- A die instance in a die's task table (R335, R336): the fen tasks not yet placed, each with the quad that confines
it, its ready list and the cycles it has waited there. -/
structure DieInst where
  die    : Nat
  key    : Nat
  tasks  : List (Nat × Option Nat)
  prio   : Nat
  since  : Nat
  /-- headers and section headers of IMG0 to IMG3 have been read (R339): memory-port indices and slots they use -/
  needs  : Option (List (Nat × Nat))
  deriving DecidableEq, Repr

/-- A credit of a successor decrement (R334). -/
structure Credit where
  die   : Nat
  asid  : Nat
  name  : Nat
  count : Nat
  deriving DecidableEq, Repr

/-- A record in a partition's submission ring (R380): the partition and ASID it runs under, the function that owns the ASID, and
the function that submitted it (R379). -/
structure Submission where
  part : Nat
  asid : Nat
  fn   : Nat
  sub  : Nat
  desc : BitVec 1024
  deriving DecidableEq, Repr

/-- The launch distributor, the four task schedulers and the placement engines. -/
structure Sched where
  subs     : List Submission
  launches : List Launch
  insts    : List DieInst
  /-- die instances that wait at the distributor for a full task table (R335) -/
  waiting  : List DieInst
  credits  : List Credit
  nextKey  : Nat
  /-- partitions whose last attempt failed on a die, with the fen and list state that must change (R338) -/
  stuck    : List (Nat × Nat)
  /-- attempts left in the round of each die: partition, attempts (R338) -/
  rounds   : List (Nat × Nat × Nat)
  /-- wakes sent to quads and not yet delivered (R177): 4·die + quad, and the key of the queue control block -/
  wakes    : List (Nat × Nat)
  /-- the ASID whose task each compute tile held last (R341), by the tile's number -/
  last     : List (Nat × Nat)
  deriving DecidableEq, Repr

/-! ## Reductions in the Mere (R211) -/

/-- An announcement of a contribution: the waiting command and where its data lies. -/
structure Ann where
  fen   : Nat
  num   : Nat
  idx   : Nat
  nm1   : Nat
  op    : Nat
  rm    : Nat
  sat   : Bool
  fmt   : Nat
  size  : Nat
  scope : Nat
  data  : Nat
  key   : List Phys
  deriving DecidableEq, Repr

/-- An update on its way to a barrier object (R29, R30): the object, the change of TXPEND, the status, whether it is an
arrival, its place in the port order, and the core whose barv awaits the phase, with its SCOPE_CLAMPED. -/
structure BarUp where
  ph     : Phys
  tx     : Int
  osw    : BitVec 32
  arrive : Bool
  order  : Nat
  core   : Option (Nat × BitVec 32)
  deriving DecidableEq, Repr

/-- A reduction instance, named by physical destination and tag. -/
structure RedInst where
  key   : Nat
  tag   : Nat
  anns  : List Ann
  since : Nat
  tmo   : Nat
  abandoned : Bool
  /-- the combination has room in the reduction buffer: it has read `at'` bytes of the contributions, in order, and holds the
  result so far and its status -/
  room  : Bool
  at'   : Nat
  acc   : List Byte
  st    : BitVec 32
  deriving DecidableEq, Repr

/-! ## Device tables and host registers (R34, R372 to R380, R403 to R410) -/

/-- The registers of one record ring (R404): base, LOG2N, TAIL, HEAD. -/
structure RingRegs where
  addr  : Nat
  log2n : Nat
  tail  : Nat
  head  : Nat
  deriving DecidableEq, Repr

/-- The registers of a function page (R404). -/
structure FnPage where
  fr      : RingRegs
  er      : RingRegs
  term    : Bool
  twOp    : Nat
  twBusy  : Bool
  twFail  : Bool
  twTnum  : Nat
  twAsid  : Nat
  twData  : BitVec 512
  invKind : Nat
  invBusy : Bool
  invId   : Nat
  invAddr : Nat
  invLen  : Nat
  /-- first page and pages of the invalidation in progress -/
  invFrom  : Nat
  invPages : Nat
  cecnt   : Nat
  elost   : Nat
  err     : Bool
  /-- fault records that found the ring full (R320), oldest first -/
  heldRec : List (BitVec 256)
  deriving DecidableEq, Repr

/-- A message sent to the host: the MSI-X vector of a function (R404). -/
structure Msix where
  fn     : Nat
  vector : Nat
  deriving DecidableEq, Repr

/-- What the host or a peer gets back: the completion status of a request at the queue port (R379), the value of a register,
Unsupported Request (R412), the bytes of an access with their poison mark (R408, R410), or a peer access refused (R410). -/
inductive Answer where
  | accepted
  | busy
  | unsupported
  | value (v : BitVec 64)
  | data (bytes : List Byte) (poison : Bool)
  | refused
  deriving DecidableEq, Repr

/-- The tables the physical function writes, sparse: an entry not listed holds its reset value. -/
structure Device where
  /-- the tensor table (R34), at most 16,384 valid entries -/
  tensors  : List (BitVec 512)
  funcs    : List (Nat × BitVec 128)
  ctxs     : List (Nat × BitVec 128)
  parts    : List (Nat × BitVec 64)
  /-- roots of the partitions' stage-2 tables: HBM-spread addresses (R314) -/
  roots    : List (Nat × Nat)
  /-- owner fields by byte offset of R403 -/
  owners   : List (Nat × Nat)
  imports  : List (Nat × BitVec 128)
  pages    : List (Nat × FnPage)
  pwrcap   : Nat
  therm    : BitVec 16
  hdmSize  : Nat
  hdmBase  : Nat
  /-- the host's HDM decoder is committed (R408) -/
  hdmLock  : Bool
  gm1      : Nat
  midx     : Nat
  portmod  : List (Nat × Nat)
  /-- flits in the injection bucket of each die and partition (R378) -/
  buckets  : List ((Nat × Nat) × Nat)
  /-- the cycle of the last refill of a bucket -/
  refilled : List ((Nat × Nat) × Nat)
  msix     : List Msix
  /-- answers to the host, latest first -/
  answers  : List Answer
  /-- power over the last window, and whether throttling is on (R421) -/
  watts    : Nat
  throttle : Bool
  deriving DecidableEq, Repr

/-! ## Slices, freeze and migration (R381 to R394) -/

/-- The slice of a partition (R382): current context, start of the slice; `stopped` while no context is runnable. -/
structure Slice where
  part    : Nat
  cur     : Nat
  since   : Nat
  stopped : Bool
  deriving DecidableEq, Repr

/-- Where a tenant context stands in its freeze (R383 to R388). A context not listed runs. -/
inductive FrzSt where
  | stalling | saved | restoring
  deriving DecidableEq, Repr

/-- A tenant context that is frozen. Its save image lies at SAVE; what the image's latch areas and flit entries stand for is kept
here and in the fens' own records (R387). -/
structure Frz where
  part  : Nat
  ctx   : Nat
  st    : FrzSt
  since : Nat
  seq   : Nat
  /-- the length of the save image in bytes, once saved -/
  size  : Nat
  /-- the context to make current when the save is done; none for a migration stop -/
  next  : Option Nat
  /-- the request flits taken out of the routers by the save (R386) -/
  held  : List Flit
  /-- marks of R416 on the scratch of its tiles -/
  poison : List Nat
  fixed  : List Nat
  deriving DecidableEq, Repr

/-- The migration registers and stream of one virtual function (R390 to R394). -/
structure Mig where
  state : Nat
  err   : Bool
  ofs   : Nat
  len   : Nat
  list  : Nat
  cnt   : Nat
  sleeve : List Byte
  /-- listed pages, and those marked dirty: intermediate physical addresses -/
  pages : List Nat
  dirty : List Nat
  /-- source: bytes of records formed and not yet read; destination: bytes of a record in hand -/
  buf   : List Byte
  /-- bytes of the stream given or consumed so far -/
  count : Nat
  /-- source in STOPPED: records already formed; destination: an END record passed; a record failed -/
  step  : Nat
  ended : Bool
  broken : Bool
  /-- destination: the save image assembled so far -/
  image : List Byte
  deriving DecidableEq, Repr

/-! ## Bring-up (R412 to R414) -/

/-- A firmware image as the controller finds it, and what is fused (R413). -/
structure Firmware where
  header  : List Byte
  body    : List Byte
  /-- the public key presented with the image: x and y on P-521 -/
  keyX    : Nat
  keyY    : Nat
  deriving DecidableEq, Repr

/-- What bring-up and the SPDM responder use. -/
structure Boot where
  step    : Nat
  fail    : Nat
  rel     : Bool
  portup  : Nat
  held    : Bool
  /-- fabric power is removed until a module reset (R421) -/
  off     : Bool
  /-- what each coming training step meets: causeways, HBM4, Peat, CXL link -/
  train   : List Bool
  /-- the boardwalk ports whose partner trains -/
  partners : Nat
  firmware : List Firmware
  /-- SHA-512 digests of the fused keys, revoked slots, and the fused minimum of ROLLBACK per KIND -/
  fused   : List Nat
  revoked : List Bool
  minima  : List Nat
  rom     : List Byte
  /-- fused configuration, certificate chain of slot 0 -/
  fuses   : List Byte
  chain   : List Byte
  /-- a secure session is open (R414) -/
  session : Bool
  /-- IDE keys set within a session: stream and key (R414) -/
  ideKeys : List (Nat × List Byte)
  /-- the identity key of the controller: a scalar of P-521 (R414) -/
  identity : Nat
  /-- answers of the responder, latest first -/
  replies : List (List Byte)
  /-- ports that went down, with the cycle (R411) -/
  down    : List (Nat × Nat)
  deriving DecidableEq, Repr

/-! ## The module -/

/-- The state of one module. -/
structure State where
  fens  : List Fen
  mem   : Memory
  xl    : Xlate
  emt   : Emt
  net   : Net
  /-- updates of barrier objects that reach their owners in the present cycle, while it is open (R30) -/
  barq  : Option (List BarUp)
  reds  : List RedInst
  dev   : Device
  hts   : Sched
  slices : List Slice
  frz   : List Frz
  migs  : List (Nat × Mig)
  boot  : Boot
  /-- the next event SEQ (R420) -/
  seq   : Nat
  /-- fabric cycles since module reset (R15) -/
  cycle : Nat
  /-- the schedule -/
  sched : List Agent
  /-- who acts -/
  here  : Agent
  /-- uses of free values so far -/
  free  : Nat
  deriving DecidableEq, Repr

/-- What stops the machine. -/
inductive Fault where
  /-- Raised by HOST_MEM_ACCESS: the host reaches past the HDM range that HDMCFG maps, where R408 puts no storage.
  Safe: a run that goes on in hardware stops here. -/
  | outsideHdm
  deriving DecidableEq, Repr

/-- Why the model gives no next state. -/
inductive Refusal where
  /-- An instruction with no meaning in the model, by its mnemonic. Safe. -/
  | notModelled (mnemonic : String)
  deriving DecidableEq, Repr

/-- The registers of a function page after reset (R404). -/
def FnPage.reset : FnPage :=
  { fr := ⟨0, 4, 0, 0⟩, er := ⟨0, 4, 0, 0⟩, term := false, twOp := 0, twBusy := false, twFail := false, twTnum := 0, twAsid := 0,
    twData := 0, invKind := 0, invBusy := false, invId := 0, invAddr := 0, invLen := 0, invFrom := 0, invPages := 0, cecnt := 0, elost := 0,
    err := false, heldRec := [] }

/-- The module right after reset: nothing placed, nothing listed, every table at its reset value, the Oluavays
controller before step 1 of R412. -/
def State.reset : State :=
  { fens := []
    mem := { cells := [], full := [], poison := [], fixed := [], emtMark := [], netMark := [], transit := [] }
    xl := { tlbs := [], wcache := [], walks := [], pending := [], retried := [], ext := [], turn := [0, 0, 0, 0] }
    emt := { lines := [], fills := [], timers := [], reserved := [], replicas := [], hostHas := [], snoops := [] }
    net := { packets := [], flits := [], next := 0, served := [], held := [] }
    barq := none
    reds := []
    dev := { tensors := [], funcs := [], ctxs := [], parts := [], roots := [], owners := [], imports := [], pages := [],
             pwrcap := 1800, therm := 0, hdmSize := 0, hdmBase := 0, hdmLock := false, gm1 := 0,
             midx := 0, portmod := [], buckets := [], refilled := [], msix := [], answers := [], watts := 0, throttle := false }
    hts := { subs := [], launches := [], insts := [], waiting := [], credits := [], nextKey := 0, stuck := [], rounds := [],
             wakes := [], last := [] }
    slices := []
    frz := []
    migs := []
    boot := { step := 0, fail := 0, rel := false, portup := 0, held := false, off := false, train := [],
              partners := 0, firmware := [], fused := [], revoked := [], minima := [], rom := [], fuses := [],
              chain := [], session := false, ideKeys := [], identity := 0, replies := [], down := [] }
    seq := 0
    cycle := 0
    sched := []
    here := .pass 0
    free := 0 }

end Sys2Proof.Machine
end

