-- ==== Sys2Proof/Machine/Ops.lean ====
section
/-! DEFINITION. The named operations every meaning is built from: bytes and memory, full/empty bits, marks, fens and
registers, csr.fenstat, event records, taking a trap and returning from one, aborting a block, terminating a task. -/
namespace Sys2Proof.Machine

/-- The answer of a meaning. -/
abbrev Out := Host.Outcome State Fault Refusal

/-- The answer of an operation that can wait, or meet a translation fault under the non-replayable policy. -/
inductive Res (α : Type) where
  | ok (a : α) (s : State)
  | wait (s : State)
  | fault (x : XFault) (s : State)

/-- Goes on with an answer. -/
def Res.bind {α β : Type} (r : Res α) (k : α → State → Res β) : Res β :=
  match r with
  | .ok a s => k a s
  | .wait s => .wait s
  | .fault x s => .fault x s

/-! ## Numbers, bytes and lists -/

/-- Sign-extends the low n bits of a number to an integer. -/
def sx (n w : Nat) : Int := if w % 2 ^ n < 2 ^ (n - 1) then (w % 2 ^ n : Nat) else (w % 2 ^ n : Nat) - (2 ^ n : Nat)

/-- An integer reduced to n bits. -/
def wrapN (n : Nat) (i : Int) : Nat := (i % (2 ^ n : Nat)).toNat

/-- A number with one bit field replaced. -/
def setFld (w hi lo v : Nat) : Nat :=
  w / 2 ^ (hi + 1) * 2 ^ (hi + 1) + v % 2 ^ (hi + 1 - lo) * 2 ^ lo + w % 2 ^ lo

/-- A number divided by n, rounded up. -/
def ceilDiv (a n : Nat) : Nat := (a + n - 1) / n

/-- The number held by bytes, the first least significant (R3). -/
def leNat : List Byte → Nat
  | [] => 0
  | b :: r => b.toNat + 256 * leNat r

/-- The n bytes of a number, the least significant first (R3). -/
def toLE : Nat → Nat → List Byte
  | 0, _ => []
  | n + 1, v => BitVec.ofNat 8 v :: toLE n (v / 256)

/-- The list with its k-th element changed. -/
def updNth {α : Type} (l : List α) (k : Nat) (f : α → α) : List α :=
  match l, k with
  | [], _ => []
  | a :: r, 0 => f a :: r
  | a :: r, k + 1 => a :: updNth r k f

/-- The list without its k-th element. -/
def dropNth {α : Type} (l : List α) (k : Nat) : List α :=
  match l, k with
  | [], _ => []
  | _ :: r, 0 => r
  | a :: r, k + 1 => a :: dropNth r k

/-- The value a sparse table holds for a key, or its reset value. -/
def tabGet {α κ : Type} [DecidableEq κ] (l : List (κ × α)) (k : κ) (d : α) : α :=
  match l with
  | [] => d
  | (j, a) :: r => if j = k then a else tabGet r k d

/-- A sparse table with the value of one key replaced. -/
def tabSet {α κ : Type} [DecidableEq κ] (l : List (κ × α)) (k : κ) (a : α) : List (κ × α) :=
  match l with
  | [] => [(k, a)]
  | (j, b) :: r => if j = k then (k, a) :: r else (j, b) :: tabSet r k a

/-- A number put into a strictly rising list. -/
def setAdd (l : List Nat) (n : Nat) : List Nat :=
  match l with
  | [] => [n]
  | a :: r => if n < a then n :: a :: r else if n = a then a :: r else a :: setAdd r n

/-- A number taken out of a strictly rising list. -/
def setDel (l : List Nat) (n : Nat) : List Nat :=
  match l with
  | [] => []
  | a :: r => if n = a then r else a :: setDel r n

/-- The n numbers from a up. -/
def upto (a : Nat) : Nat → List Nat
  | 0 => []
  | n + 1 => a :: upto (a + 1) n

/-- A number added to each of a run, or taken from it, for sets of marks. -/
def setRange (l : List Nat) (a n : Nat) (on : Bool) : List Nat :=
  (upto a n).foldl (fun l k => if on then setAdd l k else setDel l k) l

/-- The first element a test holds of, with its place. -/
def findIx {α : Type} (p : α → Bool) (l : List α) : Option (Nat × α) :=
  let rec go (k : Nat) : List α → Option (Nat × α)
    | [] => none
    | a :: r => if p a then some (k, a) else go (k + 1) r
  go 0 l

/-! ## Memory: one list of bytes by key -/

/-- The number of a tile on the module (R348). -/
def Tile.ix (t : Tile) : Nat := t.die * 180 + t.row * 10 + t.col

/-- Key of a byte of a die's HBM. -/
def keyHbm (die o : Nat) : Nat := die * 2 ^ 40 + o
/-- Key of a spread offset: die p[13:12], die-local offset of R306. -/
def keySpread (p : Nat) : Nat := keyHbm (p / 2 ^ 12 % 4) (p / 2 ^ 14 * 4096 + p % 4096)
/-- Key of a Peat offset. -/
def keyPeat (z : Nat) : Nat := 2 ^ 43 + z
/-- Key of a Mere offset. -/
def keyMere (m : Nat) : Nat := 2 ^ 44 + m
/-- Key of a scratch byte. -/
def keyScratch (t : Tile) (o : Nat) : Nat := 2 ^ 45 + t.ix * 2 ^ 19 + o
/-- Key of a host physical address. -/
def keyHost (a : Nat) : Nat := 2 ^ 53 + a
/-- Key of an address in a peer module. -/
def keyPeer (mod a : Nat) : Nat := 2 ^ 58 + mod * 2 ^ 52 + a

/-- The byte a list of cells holds at a key; an unlisted byte reads 0 (log entry 1). -/
def cellGet : List Host.Cell → Nat → Byte
  | [], _ => 0
  | (k, b) :: r, a => if k = a then b else cellGet r a

/-- The cells with one byte replaced, in canonical form. -/
def cellPut : List Host.Cell → Nat → Byte → List Host.Cell
  | [], a, b => if b = 0 then [] else [(a, b)]
  | (k, c) :: r, a, b =>
    if a < k then (if b = 0 then (k, c) :: r else (a, b) :: (k, c) :: r)
    else if a = k then (if b = 0 then r else (a, b) :: r)
    else (k, c) :: cellPut r a b

/-- Keys rise strictly from above a bound and no entry is 0. -/
def cellsAbove : Nat → List Host.Cell → Bool
  | _, [] => true
  | lo, (k, b) :: r => decide (lo ≤ k) && (b != 0) && cellsAbove (k + 1) r

/-- Numbers rise strictly from above a bound. -/
def rising : Nat → List Nat → Bool
  | _, [] => true
  | lo, k :: r => decide (lo ≤ k) && rising (k + 1) r

/-- The canonical form of memory's bytes, full/empty bits and marks: equal memories are equal data. -/
def Memory.wf (m : Memory) : Bool :=
  cellsAbove 0 m.cells && rising 0 m.full && rising 0 m.poison && rising 0 m.fixed && rising 0 m.emtMark && rising 0 m.netMark &&
  rising 0 m.transit

/-- Reads one byte. -/
def Memory.get (m : Memory) (a : Nat) : Byte := cellGet m.cells a

/-- Reads n bytes from a key up. -/
def Memory.getN (m : Memory) (a n : Nat) : List Byte := (upto a n).map m.get

/-- Writes bytes from a key up; a byte written is no longer poisoned or due for correction. -/
def cellsPut (c : List Host.Cell) (a : Nat) : List Byte → List Host.Cell
  | [] => c
  | b :: r => cellsPut (cellPut c a b) (a + 1) r

/-- The marks outside a run of n bytes from a key up. -/
def marksOff (l : List Nat) (a n : Nat) : List Nat := l.filter (fun k => k < a || a + n ≤ k)

/-- Writes bytes from a key up and clears their marks. -/
def Memory.putN (m : Memory) (a : Nat) (bs : List Byte) : Memory :=
  { m with cells := cellsPut m.cells a bs, poison := marksOff m.poison a bs.length, fixed := marksOff m.fixed a bs.length,
           emtMark := marksOff m.emtMark a bs.length, netMark := marksOff m.netMark a bs.length }

/-- Whether the full/empty bit of a granule is full (R22). -/
def Memory.isFull (m : Memory) (gran : Nat) : Bool := m.full.contains gran

/-- Sets or clears the bits of n granules (R22). -/
def Memory.mark (m : Memory) (gran n : Nat) (on : Bool) : Memory := { m with full := setRange m.full gran n on }

/-- Some byte of a run is marked uncorrectable (R153, R416). -/
def Memory.poisoned (m : Memory) (a n : Nat) : Bool := m.poison.any (fun k => a ≤ k && k < a + n)

/-- Some byte of a run is corrected by its next read. -/
def Memory.corrected (m : Memory) (a n : Nat) : Bool := m.fixed.any (fun k => a ≤ k && k < a + n)

/-- Reads n bytes with uncorrectable ones as zero (R153). -/
def Memory.readZ (m : Memory) (a n : Nat) : List Byte :=
  (upto a n).map (fun k => if m.poison.contains k then 0 else m.get k)

/-! ## Status bits (R33) -/

namespace Osw
/-- A conversion saturated. -/
def cvtSat : BitVec 32 := 0x4000#32
/-- A command was rejected. -/
def cmdInvalid : BitVec 32 := 0x8000#32
/-- A malformed CF8 token was met. -/
def decodeErr : BitVec 32 := 0x2000#32
/-- Data was truncated. -/
def truncated : BitVec 32 := 0x1000#32
/-- A reduction was abandoned. -/
def reduceAborted : BitVec 32 := 0x0800#32
/-- A scope was demoted. -/
def scopeClamped : BitVec 32 := 0x0400#32
/-- The operation or its task was cancelled. -/
def aborted : BitVec 32 := 0x0200#32
/-- A replayable fault was taken and serviced. -/
def xlateRetried : BitVec 32 := 0x0100#32
/-- Uncorrectable data was consumed. -/
def poison : BitVec 32 := 0x0080#32
/-- A correctable error was corrected. -/
def eccCorr : BitVec 32 := 0x0040#32
/-- An iteration reached its cap. -/
def capHit : BitVec 32 := 0x0020#32
/-- An iteration diverged. -/
def diverged : BitVec 32 := 0x0010#32
/-- Work was skipped by threshold. -/
def blockSkipped : BitVec 32 := 0x0008#32
/-- A result underflowed. -/
def unf : BitVec 32 := 0x0004#32
/-- A result overflowed or saturated. -/
def ovf : BitVec 32 := 0x0002#32
/-- A NaN was produced. -/
def nanOut : BitVec 32 := 0x0001#32
/-- A bit, when a condition holds. -/
def when (c : Bool) (b : BitVec 32) : BitVec 32 := if c then b else 0
end Osw

/-! ## Fens -/

/-- The state with one fen changed. -/
def State.updFen (s : State) (f : Nat) (g : Fen → Fen) : State := { s with fens := updNth s.fens f g }

/-- The state with the control core of one fen changed. -/
def State.updCore (s : State) (f : Nat) (g : Core → Core) : State :=
  s.updFen f (fun x => { x with core := g x.core })

/-- The state with memory changed. -/
def State.updMem (s : State) (g : Memory → Memory) : State := { s with mem := g s.mem }

/-- ORs a status word into STATUS of csr.fenstat (R32). -/
def State.orStatus (s : State) (f : Nat) (w : BitVec 32) : State :=
  s.updFen f (fun x => { x with status := x.status ||| w.truncate 16 })

/-- The anchor tile (R13). -/
def Fen.anchor (x : Fen) : Tile := ⟨x.die, x.row0, x.col0⟩

/-- Whether a compute tile belongs to the fen. -/
def Fen.holds (x : Fen) (t : Tile) : Bool :=
  t.die == x.die && decide (x.row0 ≤ t.row ∧ t.row < x.row0 + x.height ∧ x.col0 ≤ t.col ∧ t.col < x.col0 + x.width)

/-- The compute tiles of the fen, in ascending row and column. -/
def Fen.tiles (x : Fen) : List Tile :=
  (upto x.row0 x.height).flatMap (fun r => (upto x.col0 x.width).map (fun c => ⟨x.die, r, c⟩))

/-- The current mantle (R41). -/
def Fen.mantle (x : Fen) : Option Mantle := (x.mantles[x.cur]?).join

/-- A fen whose task has neither completed nor been freed. -/
def Fen.live (x : Fen) : Bool := x.state != 6 && x.state != 0

/-- The carrier of a compute tile (R422): the memory-port tile of lowest index in its column at row 0 or 17, else in
its row at column 0 or 9, else index 0. -/
def Fen.carrier (x : Fen) (t : Tile) : Tile :=
  match x.mpts.find? (fun m => m.col == t.col && (m.row == 0 || m.row == 17)) with
  | some m => m
  | none =>
    match x.mpts.find? (fun m => m.row == t.row && (m.col == 0 || m.col == 9)) with
    | some m => m
    | none => (x.mpts[0]?).getD t

/-- Which memory-port tile carries a requester's accesses: its own tile, or the carrier of its compute tile. -/
def Fen.carrierOf (x : Fen) (t : Tile) : Tile :=
  if 1 ≤ t.row ∧ t.row ≤ 16 ∧ 1 ≤ t.col ∧ t.col ≤ 8 then x.carrier t else t

/-- Whether the tenant context of a fen is frozen in any stage (R383). -/
def State.frozen (s : State) (part ctx : Nat) : Bool :=
  s.frz.any (fun z => z.part == part && z.ctx == ctx)

/-- Whether some queue of an ASID's partition reads FRZ as 1: its context is frozen (R385). -/
def State.fenFrozen (s : State) (x : Fen) : Bool := s.frozen x.part x.ctx

/-! ## Device tables (R34, R372 to R377) -/

/-- The function entry of f (R372); SCOPECAP resets to 5. -/
def State.func (s : State) (f : Nat) : Nat := (tabGet s.dev.funcs f 0x50#128).toNat
/-- PART of a function. -/
def State.fnPart (s : State) (f : Nat) : Nat := fld (s.func f) 10 7
/-- CTX of a function. -/
def State.fnCtx (s : State) (f : Nat) : Nat := fld (s.func f) 15 11
/-- SCOPECAP of a function. -/
def State.fnCap (s : State) (f : Nat) : Nat := fld (s.func f) 6 4
/-- The valid ASID context that binds an ASID (R373). -/
def State.asidCtx (s : State) (asid : Nat) : Option Nat :=
  (s.dev.ctxs.find? (fun c => bit c.2.toNat 47 && fld c.2.toNat 79 64 == asid)).map (fun c => c.2.toNat)
/-- The function that owns an ASID; the physical function when no context binds it. -/
def State.asidFn (s : State) (asid : Nat) : Nat :=
  match s.asidCtx asid with
  | some c => fld c 63 57
  | none => 0
/-- The fault policy of an ASID: replayable (R321). -/
def State.replayable (s : State) (asid : Nat) : Bool :=
  match s.asidCtx asid with
  | some c => bit c 46
  | none => false
/-- The partition entry of p (R377): SLICE 20, BURST 255, WEIGHT 1 at reset. -/
def State.part (s : State) (p : Nat) : Nat :=
  (tabGet s.dev.parts p (BitVec.ofNat 64 (20 * 2 ^ 48 + 255 * 2 ^ 32 + 1 * 2 ^ 8))).toNat
/-- The owner byte at an offset of R403. -/
def State.owner (s : State) (o : Nat) : Nat := tabGet s.dev.owners o 0
/-- The offset of an owner byte: item 0 the tile, then circuit and Reed lanes (R403). -/
def ownerOfs (t : Tile) (item : Nat) : Nat := 0x8000 * t.die + 128 * (10 * t.row + t.col) + item
/-- Whether a partition owns a tile of the module (R375). -/
def State.owns (s : State) (p : Nat) (t : Tile) : Bool :=
  decide (t.die < 4 ∧ t.row < 18 ∧ t.col < 10) && s.owner (ownerOfs t 0) == 16 + p
/-- A function page (R404). -/
def State.page (s : State) (f : Nat) : FnPage := tabGet s.dev.pages f FnPage.reset
/-- The state with a function page changed. -/
def State.updPage (s : State) (f : Nat) (g : FnPage → FnPage) : State :=
  { s with dev := { s.dev with pages := tabSet s.dev.pages f (g (s.page f)) } }
/-- The state with the device tables changed. -/
def State.updDev (s : State) (g : Device → Device) : State := { s with dev := g s.dev }

/-! ## Events and records (R320, R404, R406, R418 to R420) -/

/-- A message to the host: an event that takes the next SEQ (R420). -/
def State.message (s : State) (fn vector : Nat) : State :=
  ({ s with seq := s.seq + 1 } : State).updDev (fun d => { d with msix := d.msix ++ [⟨fn, vector⟩] })

/-- Whether a record ring has no room (R406). -/
def RingRegs.isFull (r : RingRegs) : Bool :=
  r.addr == 0 || decide ((r.tail + 2 ^ 32 - r.head) % 2 ^ 32 ≥ 2 ^ r.log2n)

/-- Writes one 32-byte record at a ring's tail in host memory (R406). -/
def State.ringWrite (s : State) (r : RingRegs) (w : BitVec 256) : State :=
  s.updMem (fun m => m.putN (keyHost (r.addr + 32 * (r.tail % 2 ^ r.log2n))) (toLE 32 w.toNat))

/-- The ring's registers once a record is written. -/
def RingRegs.push (r : RingRegs) : RingRegs := { r with tail := (r.tail + 1) % 2 ^ 32 }

/-- Writes an error record, or drops it and counts it when the ring is full (R406). -/
def State.putError (s : State) (fn : Nat) (w : BitVec 256) : State :=
  let p := s.page fn
  if p.er.isFull then s.updPage fn (fun p => { p with elost := min (p.elost + 1) 0xFFFF })
  else ((s.ringWrite p.er w).updPage fn (fun p => { p with er := p.er.push })).message fn 1

/-- Writes a fault record and sends its message, or holds it while the ring is full (R320). -/
def State.putFault (s : State) (fn : Nat) (w : BitVec 256) : State :=
  let p := s.page fn
  if p.fr.isFull then s.updPage fn (fun p => { p with heldRec := p.heldRec ++ [w] })
  else ((s.ringWrite p.fr w).updPage fn (fun p => { p with fr := p.fr.push })).message fn 0

/-- Writes the fault records that waited for room, oldest first, as far as room goes (R320). -/
def State.drainHeld (s : State) (fn : Nat) : Nat → State
  | 0 => s
  | n + 1 =>
    let p := s.page fn
    match p.heldRec with
    | [] => s
    | w :: r => if p.fr.isFull then s else
        State.drainHeld ((s.updPage fn (fun p => { p with heldRec := r })).putFault fn w) fn n

/-- An error record (R418): takes the next SEQ, names the charged ASID, the address, the detail, the source and the
kind, and goes to the function's error ring. -/
def State.errorRecord (s : State) (fn asid addr detail : Nat) (t : Tile) (slot kind : Nat) : State :=
  let w := s.seq * 2 ^ 192 + asid * 2 ^ 176 + addr % 2 ^ 48 * 2 ^ 128 + detail % 2 ^ 32 * 2 ^ 96 + t.die * 2 ^ 94 +
    t.row * 2 ^ 89 + t.col * 2 ^ 85 + slot * 2 ^ 77 + kind * 2 ^ 64 + fn * 2 ^ 57
  ({ s with seq := s.seq + 1 }).putError fn (BitVec.ofNat 256 w)

/-! ## The control core -/

/-- The core whose turn it is, with its fen. -/
def State.coreHere (s : State) : Option (Nat × Fen) :=
  match s.here with
  | .core f => (s.fens[f]?).map (fun x => (f, x))
  | _ => none

/-- A register as the block sees it (R132); g0 always reads zero (R6, R14). -/
def Core.get (c : Core) (r : Reg) : Word := if r = 0#6 then 0#64 else c.loc[r.toNat]'r.isLt

/-- Writes a register of the block-local state; a write of g0 is discarded (R14, R76). -/
def Core.put (c : Core) (r : Reg) (v : Word) : Core :=
  if r = 0#6 then c
  else { c with loc := c.loc.set r.toNat v r.isLt,
                late := if c.nrv && decide (c.nrix < c.idx) then r.toNat :: c.late else c.late }

/-- Goes on to the next instruction of the block. -/
def Core.adv (c : Core) : Core := { c with idx := c.idx + 1 }

/-- ORs status bits into those the block produces. -/
def Core.orStat (c : Core) (w : BitVec 32) : Core := { c with stat := c.stat ||| w }

/-- Holds an effect back until the commit. -/
def Core.defer (c : Core) (e : Eff) : Core := { c with effs := c.effs ++ [(c.idx, e)] }

/-- The core with nothing of a block: it fetches the block at pc next. -/
def Core.fresh (c : Core) : Core :=
  { c with phase := .fetch, words := [], nrv := false, nrix := 0, idx := 0, loc := c.regs, locRm := c.rm,
           locVec := c.trapvec, late := [], effs := [], stat := 0, clr := 0, exit := none, exitIx := 0,
           halting := false, prep := none, asleep := false, retry := false, wfe := none, img := [] }

/-- The control core of a fen that holds no task yet, or whose task is starting: nothing of a block, stopped. -/
def Core.blank : Core :=
  { regs := Vector.replicate 64 0#64, pc := 0, seq := 0, argp := 0, complw := 0, lix := [], rm := 0, trapvec := 0,
    trapcause := 0, trapblk := 0, trapval := 0, trapidx := 0, flag := false, phase := .halted, icache := [],
    dcache := [], near := [], late0 := false, traps := [], words := [], nrv := false, nrix := 0, idx := 0, loc := Vector.replicate 64 0#64,
    locRm := 0, locVec := 0, late := [], effs := [], stat := 0, clr := 0, exit := none, exitIx := 0, halting := false,
    prep := none, asleep := false, retry := false, wfe := none, img := [] }

/-- A fen of a rectangle of tiles, with csr.fenstat as the fen controller loads it (R16). -/
def Fen.blank (die row col h w : Nat) : Fen :=
  { die := die, row0 := row, col0 := col, height := h, width := w, mpts := [], asid := 0, fn := 0, part := 0, ctx := 0,
    launch := 0, state := 1, dropped := 0, status := 0, loading := 0, drain := 0, core := Core.blank,
    mantles := [none, none, none, none], cur := 0, ports := [⟨.fc, []⟩], cmdNum := 0, progs := [], select := none,
    sel14 := [], sel15 := [], selq := [], pendSw := none, choice := none, exited := false, term := none, lag := 0,
    mslots := [], spares := [], eaten := [] }

/-- Performs a scalar instruction at the core whose turn it is. -/
def onCore (s : State) (k : Nat → Fen → State) : Out :=
  match s.coreHere with
  | some (f, x) => .next (k f x)
  | none => .next s

/-- A register instruction: writes rd with a value of the block-local state and goes on. -/
def regOp (s : State) (rd : Reg) (v : Core → Word) : Out :=
  onCore s (fun f x => s.updCore f (fun _ => (x.core.put rd (v x.core)).adv))

/-- As `regOp`, with the status bits the value comes with. -/
def regOpSt (s : State) (rd : Reg) (v : Core → Word × BitVec 32) : Out :=
  onCore s (fun f x =>
    let r := v x.core
    s.updCore f (fun _ => ((x.core.put rd r.1).orStat r.2).adv))

/-- Withdraws the waiting claims of a core's block: nothing of a block survives its end (R163). -/
def State.dropBlock (s : State) (f : Nat) : State := s.updCore f Core.fresh

/-- A block past its point of no return, or in its commit, always commits (R136). -/
def Core.bound (c : Core) : Bool := c.phase == .granted || c.phase == .commit

/-- Stops a core (R343): at once, or once the block that is past its point of no return has committed. -/
def Core.stop (c : Core) : Core := if c.bound then c else { c.fresh with phase := .halted }

/-! ## Termination and traps (R19, R343, R135, R187) -/

/-- Ends a command with ABORTED: it performs nothing more and completes (R197, R343). -/
def Cmd.abort (c : Cmd) : Cmd := { c with done := true, osw := c.osw ||| Osw.aborted, asleep := false }

/-- Requests that match are withdrawn: no verdict, walk, retry timer or reservation waits for them any more. -/
def State.forget (s : State) (mine : Req → Bool) : State :=
  { s with xl := { s.xl with pending := s.xl.pending.filter (fun p => !mine p.req),
                             walks := s.xl.walks.map (fun w => { w with reqs := w.reqs.filter (fun r => !mine r.req) }) },
           net := { s.net with held := s.net.held.filter (fun r => !mine r) }
           emt := { s.emt with timers := s.emt.timers.filter (fun t => !mine t.req),
                               reserved := s.emt.reserved.filter (fun r => !mine r.1) } }

/-- The SEQ of the launch that a fen's task belongs to; csr.seq holds it once the task has started. -/
def State.launchSeq (s : State) (x : Fen) : Nat :=
  match s.hts.launches.find? (fun l => l.key == x.launch) with
  | some l => fld l.desc.toNat 767 704
  | none => x.core.seq.toNat

/-- Terminates a fen task (R343): the core and the nodes stop, its commands end with ABORTED, its claims are
withdrawn, its error record of kind 3 is sent. Completion follows under R342. -/
def State.terminate (s : State) (f cause detail : Nat) : State :=
  match s.fens[f]? with
  | none => s
  | some x =>
    if x.term.isSome || !x.live then s
    else
      let s := s.updFen f (fun x =>
        { x with term := some (cause, detail), state := 7, status := x.status ||| 0x0200#16,
                 core := x.core.stop,
                 ports := x.ports.map (fun p => { p with cmds := p.cmds.map Cmd.abort }) })
      let s := s.forget (fun r => r.fen == some f)
      let sq := s.launchSeq x
      s.errorRecord x.fn x.asid sq (fld sq 63 48 * 2 ^ 16 + detail * 2 ^ 8 + cause) x.anchor 0 3

/-- The retries of a block's accesses are owed no status bit: it aborts, and an aborted run sets none (R135). A core's retried
request carries the address of its block in `cmd` (log entry 160). -/
def State.dropRetried (s : State) (f : Nat) : State :=
  let pc := ((s.fens[f]?).map (fun x => x.core.pc.toNat)).getD 0
  { s with xl := { s.xl with retried := s.xl.retried.filter (fun r => !(r.fen == some f && r.srck == 0 && r.cmd == pc)) } }

/-- The bits of a program counter (R14): [63:48] are always zero. -/
def pcBits (w : Word) : Word := w &&& 0xFFFF_FFFF_FFFF#64

/-- The entry of a trap (R19): nothing of a block stays, cause, block, operand and index are saved, and the core
continues at csr.trapvec; while csr.trapvec is 0 the task is terminated (R341, R343). The pc keeps bits [47:0] of
csr.trapvec (DESIGN CHOICE, log entry 132). -/
def State.enterTrap (s : State) (f cause : Nat) (val blk : Word) (idx : Nat) : State :=
  match s.fens[f]? with
  | none => s
  | some x =>
    if x.core.trapvec = 0#64 then s.terminate f 2 0
    else (s.dropBlock f).updCore f (fun c =>
      { c with trapcause := BitVec.ofNat 64 cause, trapblk := blk, trapval := val, trapidx := BitVec.ofNat 64 idx,
               pc := pcBits c.trapvec })

/-- Takes a trap that the core's block raises (R19, R135): the run of the block aborts, and the trap is entered. -/
def State.takeTrap (s : State) (f cause : Nat) (val blk : Word) (idx : Nat) : State :=
  (s.dropRetried f).enterTrap f cause val blk idx

/-- Aborts the block with a trap raised by the instruction being performed (R135): csr.trapblk is the block and
csr.trapidx the instruction's index. -/
def State.abortTrap (s : State) (f cause : Nat) (val : Word) : State :=
  match s.fens[f]? with
  | none => s
  | some x => s.takeTrap f cause val x.core.pc x.core.idx

/-- Takes an exit: every later instruction of the block is nullified (R132). -/
def Core.takeExit (c : Core) (target : Word) : Core :=
  { c with exit := some target, exitIx := c.idx, idx := c.words.length }

/-- Return from a trap (R187): the exit to the block at csr.trapblk; the trap registers stay. -/
def Core.trapReturn (c : Core) : Core := c.takeExit c.trapblk

/-- The word of the instruction being performed, zero-extended (csr.trapval of R77, R15). -/
def Core.word (c : Core) : Word := BitVec.ofNat 64 ((c.words[c.idx]?).getD 0#32).toNat

/-- A node's or an engine's trap passed to the control core. When the core has halted, a node trap terminates the task
instead (R225, R226); a ring fault then reaches no core: its record and FLT stay, the trap is dropped (DESIGN CHOICE,
log entry 133). -/
def State.passTrap (s : State) (f cause : Nat) (val : Word) (reason : Nat) : State :=
  match s.fens[f]? with
  | none => s
  | some x =>
    if x.core.phase = .halted then
      (if cause = 8 then s.terminate f 5 reason else s)
    else { s with seq := s.seq + 1 }.updCore f (fun c => { c with traps := c.traps ++ [(cause, val)] })

/-! ## Scope (R45, R165) -/

/-- csr.scopecap of a fen. -/
def State.scopeCap (s : State) (x : Fen) : Nat := s.fnCap x.fn

/-- The effective scope and whether it was reduced. -/
def State.effScope (s : State) (x : Fen) (sc : Nat) : Nat × Bool :=
  (min sc (s.scopeCap x), decide (s.scopeCap x < sc))

end Sys2Proof.Machine
end

