-- ==== Sys2Proof/Machine/Flags.lean ====
section
/-! DEFINITION. Number formats and every computation of status bits (R49 to R75): values, rounding and saturation with
the bits they set, conversions, exact sums, and the functions of R233. A result comes as its bits and its status. -/
namespace Sys2Proof.Machine

/-- A value: NaN, an infinity, or (−1)^neg · m · 2^e; m 0 is a signed zero (R52, R53). -/
inductive Val where
  | nan
  | inf (neg : Bool)
  | num (neg : Bool) (m : Nat) (e : Int)
  deriving DecidableEq, Repr

/-- A result: bits and the status bits it sets. -/
abbrev Rslt := Nat × BitVec 32

/-- The width of a format in bits (R49); CF8 counts as its decoded e4m3 element (R68). -/
def Fmt.bits : Fmt → Nat
  | .f64 | .i64 | .n64 | .ki => 64
  | .f32 | .i32 | .n32 => 32
  | .bf16 | .f16 | .i16 | .n16 => 16
  | .e4m3 | .e5m2 | .cf8 | .i8 | .n8 => 8

/-- The size of an element in bytes. -/
def Fmt.esize (f : Fmt) : Nat := Fmt.bits f / 8

/-- The lanes of a beat (R221). -/
def Fmt.lanes (f : Fmt) : Nat := 256 / Fmt.bits f

/-- A signed integer format. -/
def Fmt.signed : Fmt → Bool
  | .i8 | .i16 | .i32 | .i64 => true
  | _ => false

/-- The fields of a floating-point format (R52): width, mantissa bits, bias, largest exponent. -/
structure FloatFmt where
  bits : Nat
  mant : Nat
  bias : Nat
  emax : Int
  /-- e4m3: no infinities, the largest exponent holds finite values (R53) -/
  tight : Bool
  deriving DecidableEq, Repr

/-- The layout of a floating-point format (R52). -/
def Fmt.float : Fmt → FloatFmt
  | .f64 => ⟨64, 52, 1023, 1023, false⟩
  | .f32 => ⟨32, 23, 127, 127, false⟩
  | .bf16 => ⟨16, 7, 127, 127, false⟩
  | .f16 => ⟨16, 10, 15, 15, false⟩
  | .e5m2 => ⟨8, 2, 15, 15, false⟩
  | _ => ⟨8, 3, 7, 8, true⟩

/-- The canonical NaN of a format (R54). -/
def Fmt.qnan : Fmt → Nat
  | .f64 => 0x7FF8_0000_0000_0000 | .f32 => 0x7FC0_0000 | .bf16 => 0x7FC0 | .f16 => 0x7E00
  | .e5m2 => 0x7E | _ => 0x7F

/-- The value a bit pattern of a floating-point format holds (R52, R53). -/
def floatVal (f : Fmt) (x : Nat) : Val :=
  let q := Fmt.float f
  let s := bit x (q.bits - 1)
  let m := x % 2 ^ q.mant
  let eb := q.bits - 1 - q.mant
  let e := x / 2 ^ q.mant % 2 ^ eb
  if q.tight then
    (if e = 15 ∧ m = 7 then .nan
     else if e = 0 then .num s m (1 - (q.bias : Int) - q.mant)
     else .num s (2 ^ q.mant + m) ((e : Int) - q.bias - q.mant))
  else if e = 2 ^ eb - 1 then (if m = 0 then .inf s else .nan)
  else if e = 0 then .num s m (1 - (q.bias : Int) - q.mant)
  else .num s (2 ^ q.mant + m) ((e : Int) - q.bias - q.mant)

/-- An integer as a value. -/
def intVal (i : Int) : Val := .num (decide (i < 0)) i.natAbs 0

/-- The integer a bit pattern of an integer format holds (R50). -/
def intOf (f : Fmt) (x : Nat) : Int :=
  if Fmt.signed f then sx (Fmt.bits f) x else ((x % 2 ^ Fmt.bits f : Nat) : Int)

/-- The value of an element (R63). -/
def valueOf (f : Fmt) (x : Nat) : Val := if f.isInt then intVal (intOf f x) else floatVal f x

/-- Multiplies a value exactly by 2^k (R65). -/
def Val.scale (v : Val) (k : Int) : Val :=
  match v with
  | .num s m e => .num s m (e + k)
  | v => v

/-- The number of bits of m. -/
def nbits (m : Nat) : Nat := if m = 0 then 0 else Nat.log2 m + 1

/-- Whether a remainder of `half·2` units, at the given value, rounds the kept part up under a mode (R58). -/
def roundsUp (rm : Nat) (neg odd : Bool) (rem half2 : Nat) : Bool :=
  if rem = 0 then false
  else if rm = 0 then decide (2 * rem > half2) || (decide (2 * rem = half2) && odd)
  else if rm = 1 then false
  else if rm = 2 then !neg else neg

/-- m · 2^e rounded to a multiple of 2^q: the multiple, and whether it is inexact. -/
def roundAt (rm : Nat) (neg : Bool) (m : Nat) (e q : Int) : Nat × Bool :=
  if q ≤ e then (m * 2 ^ (e - q).toNat, false)
  else
    let sh := (q - e).toNat
    let n := m / 2 ^ sh
    let r := m % 2 ^ sh
    (if roundsUp rm neg (n % 2 == 1) r (2 ^ sh) then n + 1 else n, r != 0)

/-- round(x, rm) of R60 in a floating-point format: the rounded value and NAN_OUT, OVF, UNF. -/
def roundF (f : Fmt) (rm : Nat) (v : Val) : Val × BitVec 32 :=
  match v with
  | .nan => (.nan, Osw.nanOut)
  | .inf s => (.inf s, 0)
  | .num s m e =>
    if m = 0 then (.num s 0 0, 0)
    else
      let q := Fmt.float f
      let emin : Int := 1 - (q.bias : Int)
      let top : Int := e + (nbits m : Nat) - 1
      let ulp : Int := max (top - q.mant) (emin - q.mant)
      let r := roundAt rm s m e ulp
      let big : Int := ulp + (nbits r.1 : Nat) - 1
      let past := r.1 != 0 && (decide (big > q.emax) ||
        (q.tight && decide (big = q.emax) && decide (ulp = q.emax - q.mant) && decide (r.1 > 14)))
      if past then
        (if rm = 0 ∨ (rm = 2 ∧ !s) ∨ (rm = 3 ∧ s) then (.inf s, Osw.ovf)
         else (.num s (if q.tight then 14 else 2 ^ (q.mant + 1) - 1) (q.emax - q.mant), Osw.ovf))
      else (.num s r.1 ulp, Osw.when (r.2 && decide (big < emin || r.1 = 0)) Osw.unf)

/-- The bits of a value that a format holds exactly; an infinity in e4m3 is its NaN (R62, with NAN_OUT). -/
def encodeF (f : Fmt) (v : Val) : Rslt :=
  let q := Fmt.float f
  let sg : Bool → Nat := fun s => if s then 2 ^ (q.bits - 1) else 0
  match v with
  | .nan => (Fmt.qnan f, 0)
  | .inf s => if q.tight then (Fmt.qnan f, Osw.nanOut) else (sg s + (2 ^ (q.bits - 1 - q.mant) - 1) * 2 ^ q.mant, 0)
  | .num s m e =>
    if m = 0 then (sg s, 0)
    else
      let emin : Int := 1 - (q.bias : Int)
      let top : Int := e + (nbits m : Nat) - 1
      if top < emin then (sg s + (roundAt 1 s m e (emin - q.mant)).1, 0)
      else
        let n := (roundAt 1 s m e (top - q.mant)).1
        (sg s + (top + q.bias).toNat * 2 ^ q.mant + (n - 2 ^ q.mant), 0)

/-- sat(y, fmt) of R61 for a floating-point format. -/
def satF (f : Fmt) (v : Val) : Val × BitVec 32 :=
  match v with
  | .inf s =>
    let q := Fmt.float f
    (.num s (if q.tight then 14 else 2 ^ (q.mant + 1) - 1) (q.emax - q.mant), Osw.ovf ||| Osw.cvtSat)
  | v => (v, 0)

/-- Rounds into a format, saturates when asked, and encodes (R60 to R62). -/
def finishF (f : Fmt) (rm : Nat) (sat : Bool) (v : Val) : Rslt :=
  let r := roundF f rm v
  let y := if sat then satF f r.1 else (r.1, 0)
  let z := encodeF f y.1
  (z.1, r.2 ||| y.2 ||| z.2)

/-- The largest and smallest integers of a format (R50). -/
def Fmt.maxInt (f : Fmt) : Int := if Fmt.signed f then 2 ^ (Fmt.bits f - 1) - 1 else 2 ^ Fmt.bits f - 1
/-- See `Fmt.maxInt`. -/
def Fmt.minInt (f : Fmt) : Int := if Fmt.signed f then -(2 ^ (Fmt.bits f - 1)) else 0

/-- sat(y, fmt) of R61 for an integer format, as bits. -/
def satI (f : Fmt) (i : Int) : Rslt :=
  if i > Fmt.maxInt f then (wrapN (Fmt.bits f) (Fmt.maxInt f), Osw.ovf ||| Osw.cvtSat)
  else if i < Fmt.minInt f then (wrapN (Fmt.bits f) (Fmt.minInt f), Osw.ovf ||| Osw.cvtSat)
  else (wrapN (Fmt.bits f) i, 0)

/-- An integer result: wrapped under R50, or saturated when asked. -/
def finishI (f : Fmt) (sat : Bool) (i : Int) : Rslt := if sat then satI f i else (wrapN (Fmt.bits f) i, 0)

/-- A conversion of a value into a format (R63): a float value to an integer always saturates. -/
def convertVal (v : Val) (fromInt : Bool) (d : Fmt) (rm : Nat) (sat : Bool) : Rslt :=
  if d.isInt then
    match v with
    | .nan => (0, Osw.cvtSat)
    | .inf s => satI d (if s then -(2 ^ 64) else 2 ^ 64)
    | .num s m e =>
      let n := (roundAt rm s m e 0).1
      finishI d (sat || !fromInt) (if s then -(n : Int) else n)
  else finishF d rm sat v

/-- A conversion between formats (R63). -/
def convert (x : Nat) (src d : Fmt) (rm : Nat) (sat : Bool) : Rslt := convertVal (valueOf src x) src.isInt d rm sat

/-! ## Exact arithmetic on values (R54, R71, R147) -/

/-- The opposite value. -/
def Val.neg : Val → Val
  | .nan => .nan
  | .inf s => .inf (!s)
  | .num s m e => .num (!s) m e

/-- The signed significand of a number at exponent q, where q is at most its own. -/
def sigAt (s : Bool) (m : Nat) (e q : Int) : Int :=
  let n : Int := (m * 2 ^ (e - q).toNat : Nat)
  if s then -n else n

/-- The exact product; 0 × ∞ is NaN (R54). -/
def Val.mul : Val → Val → Val
  | .nan, _ | _, .nan => .nan
  | .inf s, .inf t => .inf (s != t)
  | .inf s, .num t m _ => if m = 0 then .nan else .inf (s != t)
  | .num s m _, .inf t => if m = 0 then .nan else .inf (s != t)
  | .num s m e, .num t n g => .num (s != t) (m * n) (e + g)

/-- The exact sum of two finite values. -/
def addNum (s : Bool) (m : Nat) (e : Int) (t : Bool) (n : Nat) (g : Int) : Bool × Nat × Int :=
  if m = 0 then (t, n, g) else if n = 0 then (s, m, e)
  else
    let q := min e g
    let i := sigAt s m e q + sigAt t n g q
    (decide (i < 0), i.natAbs, q)

/-- The exact sum of terms under R71: NaN, infinities, and the sign of a zero sum. -/
def sumVals (rm : Nat) (l : List Val) : Val :=
  let isNan : Val → Bool := fun v => match v with | .nan => true | _ => false
  let isInf : Bool → Val → Bool := fun s v => match v with | .inf t => s == t | _ => false
  let negZero : Val → Bool := fun v => match v with | .num s m _ => s && m == 0 | _ => false
  if l.any isNan || (l.any (isInf true) && l.any (isInf false)) then .nan
  else if l.any (isInf true) then .inf true
  else if l.any (isInf false) then .inf false
  else
    let r := l.foldl (fun (a : Bool × Nat × Int) v =>
      match v with | .num s m e => addNum a.1 a.2.1 a.2.2 s m e | _ => a) (false, 0, 0)
    if r.2.1 = 0 then .num (l.all negZero || rm == 3) 0 0 else .num r.1 r.2.1 r.2.2

/-- The exact quotient, with a sticky low bit when it is inexact (R54, R147). -/
def Val.div : Val → Val → Val
  | .nan, _ | _, .nan => .nan
  | .inf _, .inf _ => .nan
  | .inf s, .num t _ _ => .inf (s != t)
  | .num s _ _, .inf t => .num (s != t) 0 0
  | .num s m e, .num t n g =>
    if n = 0 then (if m = 0 then .nan else .inf (s != t))
    else if m = 0 then .num (s != t) 0 0
    else
      let k : Nat := 70 + nbits n - nbits m
      let q := m * 2 ^ k / n
      let r := m * 2 ^ k % n
      .num (s != t) (2 * q + (if r = 0 then 0 else 1)) (e - g - k - 1)

/-- The integer square root, bit by bit from bit k down. -/
def isqrtGo (n : Nat) : Nat → Nat → Nat
  | 0, r => r
  | k + 1, r => let t := r + 2 ^ k; if t * t ≤ n then isqrtGo n k t else isqrtGo n k r

/-- The integer square root. -/
def isqrt (n : Nat) : Nat := isqrtGo n (nbits n / 2 + 1) 0

/-- The exact square root, with a sticky low bit; below −0 it is NaN (R54, R147). -/
def Val.sqrt : Val → Val
  | .nan => .nan
  | .inf s => if s then .nan else .inf false
  | .num s m e =>
    if m = 0 then .num s 0 0
    else if s then .nan
    else
      let odd := e % 2 != 0
      let m1 := if odd then 2 * m else m
      let e1 := if odd then e - 1 else e
      let k : Nat := 70
      let n := m1 * 2 ^ (2 * k)
      let r := isqrt n
      .num false (2 * r + (if r * r = n then 0 else 1)) (e1 / 2 - k - 1)

/-- The order of two values that are not NaN: a < b, with the zeros equal. -/
def Val.lt : Val → Val → Bool
  | .nan, _ | _, .nan => false
  | .inf s, .inf t => s && !t
  | .inf s, .num _ _ _ => s
  | .num _ _ _, .inf t => !t
  | .num s m e, .num t n g =>
    let q := min e g
    decide (sigAt s m e q < sigAt t n g q)

/-- Equality in comparisons: the zeros are equal, NaN equals nothing (R53, R55). -/
def Val.eqv (a b : Val) : Bool := a != .nan && b != .nan && !a.lt b && !b.lt a

/-- Whether a value is NaN. -/
def Val.isNan : Val → Bool
  | .nan => true
  | _ => false

/-- The order of minimum and maximum: −0 below +0 (R55). -/
def Val.below (a b : Val) : Bool :=
  a.lt b || (a.eqv b && match a, b with | .num s 0 _, .num t 0 _ => s && !t | _, _ => false)

/-- Minimum (or maximum) of R55 on bit patterns of a floating-point format. -/
def minMaxF (f : Fmt) (isMax : Bool) (x y : Nat) : Rslt :=
  let a := floatVal f x
  let b := floatVal f y
  if a.isNan && b.isNan then (Fmt.qnan f, Osw.nanOut)
  else if a.isNan then (y, 0) else if b.isNan then (x, 0)
  else if isMax then (if a.below b then y else x, 0) else (if b.below a then y else x, 0)

/-- Minimum (or maximum) in a format's order. -/
def minMax (f : Fmt) (isMax : Bool) (x y : Nat) : Rslt :=
  if f.isInt then
    (if isMax then (if intOf f x < intOf f y then y else x, 0) else (if intOf f y < intOf f x then y else x, 0))
  else minMaxF f isMax x y

/-- a + b rounded (R147). -/
def addF (f : Fmt) (rm : Nat) (x y : Nat) : Rslt := finishF f rm false (sumVals rm [floatVal f x, floatVal f y])
/-- a − b rounded: adds −b (R147). -/
def subF (f : Fmt) (rm : Nat) (x y : Nat) : Rslt := finishF f rm false (sumVals rm [floatVal f x, (floatVal f y).neg])
/-- a · b rounded. -/
def mulF (f : Fmt) (rm : Nat) (x y : Nat) : Rslt := finishF f rm false ((floatVal f x).mul (floatVal f y))
/-- a / b rounded. -/
def divF (f : Fmt) (rm : Nat) (x y : Nat) : Rslt := finishF f rm false ((floatVal f x).div (floatVal f y))
/-- √a rounded. -/
def sqrtF (f : Fmt) (rm : Nat) (x : Nat) : Rslt := finishF f rm false (floatVal f x).sqrt
/-- The exact a · b + c (R71 for its zero). -/
def fmaVal (rm : Nat) (a b c : Val) : Val := sumVals rm [a.mul b, c]
/-- a · b + c, rounded once (R73). -/
def fmaF (f : Fmt) (rm : Nat) (x y z : Nat) : Rslt :=
  finishF f rm false (fmaVal rm (floatVal f x) (floatVal f y) (floatVal f z))

/-! ## The functions of R233 -/

/-- The fractional bits of the fixed-point enclosures. -/
def fxBits : Nat := 256

/-- The sum of the terms r^k/k! for k below n, in fixed point, r below 2^−8. -/
def expSeries (r : Nat) : Nat → Nat → Nat → Nat → Nat
  | 0, _, _, acc => acc
  | n + 1, k, term, acc => expSeries r n (k + 1) (term * r / 2 ^ fxBits / (k + 1)) (acc + term)

/-- Squares a fixed-point number n times. -/
def sqTimes : Nat → Nat → Nat
  | 0, v => v
  | n + 1, v => sqTimes n (v * v / 2 ^ fxBits)

/-- e^x in fixed point for x = X / 2^256, 0 ≤ x < 512: within a relative 2^−150 below the exact value. -/
def expFx (x : Nat) : Nat := sqTimes 17 (expSeries (x / 2 ^ 17) 45 0 (2 ^ fxBits) 0)

/-- The sum of the terms z^(2k+1)/(2k+1), in fixed point. -/
def atanhSeries (z2 : Nat) : Nat → Nat → Nat → Nat → Nat
  | 0, _, _, acc => acc
  | n + 1, k, pw, acc => atanhSeries z2 n (k + 2) (pw * z2 / 2 ^ fxBits) (acc + pw / k)

/-- ln((1+z)/(1−z)) in fixed point, 0 ≤ z ≤ 1/3. -/
def atanh2Fx (z : Nat) : Nat := 2 * atanhSeries (z * z / 2 ^ fxBits) 100 1 z 0

/-- A positive enclosure (lo, hi) · 2^−256 of relative width 2^−90 around a computed v. -/
def enclose (v : Nat) : Nat × Nat := (v - v / 2 ^ 90 - 1, v + v / 2 ^ 90 + 1)

/-- An enclosure cut at a value that the exact one lies strictly below. -/
def capAt (v : Nat) (lohi : Nat × Nat) : Nat × Nat := (min lohi.1 (v - 1), min lohi.2 v)
/-- An enclosure cut at a value that the exact one lies strictly above. -/
def floorAt (v : Nat) (lohi : Nat × Nat) : Nat × Nat := (max lohi.1 v, max lohi.2 (v + 1))

/-- Rounds an irrational value known to lie strictly between lo and hi (times 2^e); the free rounding of log entry 39
where the two sides differ, which no operand is known to reach. -/
def roundIn (fn : Nat) (f : Fmt) (rm x : Nat) (neg : Bool) (lohi : Nat × Nat) (e : Int) : Rslt :=
  let a := finishF f rm false (.num neg (2 * lohi.1 + 1) (e - 1))
  let b := finishF f rm false (.num neg (2 * lohi.2 - 1) (e - 1))
  if a = b then a else (Config.hardRounding fn f.code rm x % 2 ^ Fmt.bits f, a.2 ||| b.2)

/-- |x| in fixed point: m · 2^e as X / 2^256. -/
def toFx (m : Nat) (e : Int) : Nat := (roundAt 1 false m e (-256)).1

/-- eᵃ for a finite nonzero a. -/
def expOf (f : Fmt) (rm x : Nat) (s : Bool) (m : Nat) (e : Int) : Rslt :=
  let top : Int := e + (nbits m : Nat) - 1
  if top ≥ 9 then roundIn 2 f rm x false (if s then (1, 2) else (2 ^ 200, 2 ^ 200 + 2)) (if s then -700 else 200)
  else if top < -100 then roundIn 2 f rm x false (if s then (2 ^ 90 - 1, 2 ^ 90) else (2 ^ 90, 2 ^ 90 + 1)) (-90)
  else
    let v := expFx (toFx m e)
    roundIn 2 f rm x false
      (if s then capAt (2 ^ fxBits) (enclose (2 ^ 512 / v)) else floorAt (2 ^ fxBits) (enclose v)) (-256)

/-- ln a for a finite positive a: a = y · 2^k with y in [0.75, 1.5). -/
def logOf (f : Fmt) (rm x : Nat) (m : Nat) (e : Int) : Rslt :=
  let b := nbits m
  let hi := decide (m * 4 ≥ 6 * 2 ^ (b - 1))
  let k : Int := e + (b : Nat) - 1 + (if hi then 1 else 0)
  let den := if hi then 2 ^ b else 2 ^ (b - 1)
  if m = den then
    (if k = 0 then finishF f rm false (.num false 0 0)
     else roundIn 3 f rm x (decide (k < 0)) (enclose (k.natAbs * atanh2Fx (2 ^ fxBits / 3))) (-256))
  else
    let neg := decide (m < den)
    let d := if neg then den - m else m - den
    let ly : Int := atanh2Fx (d * 2 ^ fxBits / (den + m))
    let v : Int := k * (atanh2Fx (2 ^ fxBits / 3) : Nat) + (if neg then -ly else ly)
    roundIn 3 f rm x (decide (v < 0)) (enclose v.natAbs) (-256)

/-- tanh a for a finite nonzero a. -/
def tanhOf (f : Fmt) (rm x : Nat) (s : Bool) (m : Nat) (e : Int) : Rslt :=
  let top : Int := e + (nbits m : Nat) - 1
  if top ≥ 7 then roundIn 4 f rm x s (2 ^ 100 - 2, 2 ^ 100) (-100)
  else if top < -30 then
    -- a − a³/3 < tanh a < a − a³/3 + 2a⁵/15, in units of 2^(5e)
    let k := (-e).toNat
    roundIn 4 f rm x s (m * 2 ^ (4 * k) - (m ^ 3 * 2 ^ (2 * k) / 3 + 1), m * 2 ^ (4 * k) - m ^ 3 * 2 ^ (2 * k) / 3 + (2 * m ^ 5 / 15 + 1)) (5 * e)
  else
    let v := expFx (toFx m (e + 1))
    roundIn 4 f rm x s (capAt (2 ^ fxBits) (enclose ((v - 2 ^ fxBits) * 2 ^ fxBits / (v + 2 ^ fxBits)))) (-256)

/-- 1/(1 + e⁻ᵃ) for a finite nonzero a. -/
def sigmOf (f : Fmt) (rm x : Nat) (s : Bool) (m : Nat) (e : Int) : Rslt :=
  let top : Int := e + (nbits m : Nat) - 1
  if top ≥ 9 then (if s then roundIn 5 f rm x false (1, 2) (-700) else roundIn 5 f rm x false (2 ^ 100 - 2, 2 ^ 100) (-100))
  else if top < -100 then roundIn 5 f rm x false (if s then (2 ^ 90 - 1, 2 ^ 90) else (2 ^ 90, 2 ^ 90 + 1)) (-91)
  else
    let v := expFx (toFx m e)
    let w := 2 ^ (2 * fxBits) / (v + 2 ^ fxBits)
    roundIn 5 f rm x false
      (if s then capAt (2 ^ (fxBits - 1)) (enclose w)
       else floorAt (2 ^ (fxBits - 1)) (capAt (2 ^ fxBits) (enclose (2 ^ fxBits - w)))) (-256)

/-- 1/√a of a positive finite a, with a sticky low bit. -/
def rsqrtVal (m : Nat) (e : Int) : Val :=
  let odd := e % 2 != 0
  let m1 := if odd then 2 * m else m
  let e1 := if odd then e - 1 else e
  let k : Nat := 70 + nbits m1
  let r := isqrt (2 ^ (2 * k) / m1)
  .num false (2 * r + (if r * r * m1 = 2 ^ (2 * k) then 0 else 1)) (-(e1 / 2) - k - 1)

/-- vrec, vrsq, vexp, vlog, vtanh, vsigm (codes 0 to 5) on one lane, with the special cases of R233. -/
def funcF (fn : Nat) (f : Fmt) (rm x : Nat) : Rslt :=
  let one := finishF f rm false (.num false 1 0)
  let nan : Rslt := (Fmt.qnan f, Osw.nanOut)
  let exact : Val → Rslt := fun v => (encodeF f v).1 |> fun b => (b, 0)
  match floatVal f x with
  | .nan => nan
  | .inf s =>
    if fn = 0 then exact (.num s 0 0)
    else if fn = 1 then (if s then nan else exact (.num false 0 0))
    else if fn = 2 then (if s then exact (.num false 0 0) else exact (.inf false))
    else if fn = 3 then (if s then nan else exact (.inf false))
    else if fn = 4 then finishF f rm false (.num s 1 0)
    else if s then exact (.num false 0 0) else one
  | .num s m e =>
    if m = 0 then
      (if fn = 0 ∨ fn = 1 then exact (.inf s) else if fn = 2 then one else if fn = 3 then exact (.inf true)
       else if fn = 4 then exact (.num s 0 0) else finishF f rm false (.num false 1 (-1)))
    else if fn = 0 then finishF f rm false ((Val.num false 1 0).div (.num s m e))
    else if fn = 1 then (if s then nan else finishF f rm false (rsqrtVal m e))
    else if fn = 2 then expOf f rm x s m e
    else if fn = 3 then (if s then nan else logOf f rm x m e)
    else if fn = 4 then tanhOf f rm x s m e
    else sigmOf f rm x s m e

/-! ## Integer division (R51) -/

/-- The quotient toward zero on a format's bits; a divisor of zero gives all ones. -/
def divI (f : Fmt) (x y : Nat) : Nat :=
  if intOf f y = 0 then 2 ^ Fmt.bits f - 1 else wrapN (Fmt.bits f) (Int.tdiv (intOf f x) (intOf f y))

/-- The remainder with the sign of the dividend; a divisor of zero gives the dividend. -/
def remI (f : Fmt) (x y : Nat) : Nat :=
  if intOf f y = 0 then x % 2 ^ Fmt.bits f else wrapN (Fmt.bits f) (Int.tmod (intOf f x) (intOf f y))

/-! ## Key-index pairs (R56, R57) -/

/-- The score of a pair, as bits. -/
def kiScore (p : BitVec 64) : Nat := p.toNat % 2 ^ 32
/-- The identifier of a pair. -/
def kiId (p : BitVec 64) : Nat := p.toNat / 2 ^ 32
/-- A pair of score bits and identifier. -/
def kiMk (score id : Nat) : BitVec 64 := BitVec.ofNat 64 (score % 2 ^ 32 + id % 2 ^ 32 * 2 ^ 32)
/-- The pad pair (R243, R273). -/
def kiPad : BitVec 64 := kiMk 0x7FC0_0000 0xFFFF_FFFF
/-- The pair every threshold starts from (R274). -/
def kiFloor : BitVec 64 := kiMk 0xFF80_0000 0xFFFF_FFFF
/-- The score is NaN. -/
def kiNan (p : BitVec 64) : Bool := (floatVal .f32 (kiScore p)).isNan
/-- Pair a ranks above pair b (R57). -/
def kiAbove (a b : BitVec 64) : Bool :=
  if kiNan a then false else if kiNan b then true
  else
    let x := floatVal .f32 (kiScore a)
    let y := floatVal .f32 (kiScore b)
    y.lt x || (x.eqv y && decide (kiId a < kiId b))
/-- The better of two pairs; the first when they are equivalent. -/
def kiBest (a b : BitVec 64) : BitVec 64 := if kiAbove b a then b else a

/-- Pair p comes before pair q in a sorted run, best first or worst first; a NaN score never comes ahead of a numeric one
(R57, R243, R270). -/
def kiFirst (worst : Bool) (p q : BitVec 64) : Bool :=
  if worst then !kiNan p && (kiNan q || kiAbove q p) else kiAbove p q

/-- An element that a node writes as its result without an operation on it: a NaN is the canonical one, with NAN_OUT (R54). -/
def passF (f : Fmt) (x : Nat) : Rslt := if !f.isInt && (floatVal f x).isNan then (Fmt.qnan f, Osw.nanOut) else (x, 0)

end Sys2Proof.Machine
end

