-- ==== Sys2Proof/Machine/Operands.lean ====
section
/-! DEFINITION. Every operand form of the spec: the 64-bit address form and tile designators (R20, R21), tensor entries
and their elements (R34, R35), ring descriptors (R24 to R26), windows (R198), CF8 tokens (R66 to R69), barrier objects
and queue control blocks as records (R28, R37), and the checks CRC-16 and CRC-32C. -/
namespace Sys2Proof

/-- The input references IN0 to IN3. -/
def NodeHdr.ins (n : NodeHdr) : List Ref := [n.in0, n.in1, n.in2, n.in3]

/-- The output references OUT0 and OUT1. -/
def NodeHdr.outs (n : NodeHdr) : List Ref := [n.out0, n.out1]

end Sys2Proof

namespace Sys2Proof.Machine

/-! ## Addresses (R20, R21) -/

/-- The tile a designator names for an issuing tile: bit [10] the issuing tile; else row [7:4] and column [2:0] from
the anchor, within the fen, reserved bits zero. -/
def Fen.desig (x : Fen) (self : Tile) (d : Nat) : Option Tile :=
  if bit d 10 then some self
  else if fld d 9 8 ≠ 0 ∨ bit d 3 then none
  else
    let t : Tile := ⟨x.die, x.row0 + fld d 7 4, x.col0 + fld d 2 0⟩
    if x.holds t then some t else none

/-- The designator of a tile of the fen, counted from its anchor. -/
def Fen.desigOf (x : Fen) (t : Tile) : Nat := (t.row - x.row0) * 16 + (t.col - x.col0)

/-- What a 64-bit address names (R20). -/
inductive Space where
  | global (va : Nat)
  | scratch (t : Tile) (o : Nat)
  /-- bits [63:48] neither 0x0000 nor 0xFFFF -/
  | none
  /-- a scratch address with a nonzero reserved bit or a tile outside the fen -/
  | badTile
  deriving DecidableEq, Repr

/-- Reads an address as an agent on a tile of the fen forms it. -/
def Fen.space (x : Fen) (self : Tile) (a : Nat) : Space :=
  if fld a 63 48 = 0 then .global (a % 2 ^ 48)
  else if fld a 63 48 ≠ 0xFFFF then .none
  else if fld a 47 31 ≠ 0 ∨ bit a 19 then .badTile
  else match x.desig self (fld a 30 20) with
    | some t => .scratch t (fld a 18 0)
    | none => .badTile

/-- The scratch address of an offset in a tile of the fen, with the issuing tile's self designator left out. -/
def Fen.scratchAddr (x : Fen) (t : Tile) (o : Nat) : Word :=
  BitVec.ofNat 64 (0xFFFF * 2 ^ 48 + x.desigOf t * 2 ^ 20 + o)

/-- A scratch byte as an access target. -/
def scratchPhys (t : Tile) (o : Nat) : Phys := ⟨.scratch, keyScratch t o, 0, 0, 0, 0⟩

/-! ## Tensor entries (R34, R35) -/

/-- A tensor entry. -/
abbrev Tensor := BitVec 512

/-- BASE. -/
def Tensor.base (t : Tensor) : Nat := fld t.toNat 63 0
/-- DIMk. -/
def Tensor.dim (t : Tensor) (k : Nat) : Nat := if k < 5 then fld t.toNat (95 + 32 * k) (64 + 32 * k) else 1
/-- SDk, signed. -/
def Tensor.sd (t : Tensor) (k : Nat) : Int := sx 32 (fld t.toNat (255 + 32 * k) (224 + 32 * k))
/-- RANK. -/
def Tensor.rank (t : Tensor) : Nat := fld t.toNat 428 426
/-- FMT. -/
def Tensor.fmt (t : Tensor) : Fmt := Fmt.ofCode (fld t.toNat 435 432)
/-- SCALE, signed. -/
def Tensor.scale (t : Tensor) : Int := sx 8 (fld t.toNat 447 440)
/-- BLEN. -/
def Tensor.blen (t : Tensor) : Nat := fld t.toNat 455 448
/-- ZPAD. -/
def Tensor.zpad (t : Tensor) : Bool := bit t.toNat 461
/-- WP. -/
def Tensor.wp (t : Tensor) : Bool := bit t.toNat 462

/-- DIMk below RANK; 1 at or above it (R198). -/
def Tensor.size (t : Tensor) (k : Nat) : Nat := if k < Tensor.rank t then Tensor.dim t k else 1

/-- The malformed entries of R35. -/
def Tensor.malformed (t : Tensor) : Bool :=
  let r := Tensor.rank t
  decide (r < 1 ∨ 5 < r) || (upto 0 r).any (fun k => Tensor.dim t k == 0) ||
  (if Tensor.fmt t = .cf8 then
     Tensor.base t % 2 != 0 || Tensor.dim t 0 % 32 != 0 || Tensor.sd t 0 != 1 || (Tensor.blen t == 0 && decide (1 < r))
   else Tensor.base t % Fmt.esize (Tensor.fmt t) != 0) ||
  !zeros t.toNat [(483, 464), (460, 456), (439, 436), (431, 429), (425, 384), (63, 48)]

/-- The entry an ASID's tk resolves to (R34). -/
def State.tensor (s : State) (asid k : Nat) : Option Tensor :=
  s.dev.tensors.find? (fun t => bit t.toNat 463 && fld t.toNat 511 496 == asid && fld t.toNat 495 484 == k)

/-- The entry tk resolves to, when it is not malformed. -/
def State.goodTensor (s : State) (asid k : Nat) : Option Tensor :=
  match s.tensor asid k with
  | some t => if Tensor.malformed t then none else some t
  | none => none

/-- The number of elements. -/
def Tensor.count (t : Tensor) : Nat :=
  Tensor.size t 0 * Tensor.size t 1 * Tensor.size t 2 * Tensor.size t 3 * Tensor.size t 4

/-- The indices of the n-th element in row-major order, dimension 0 innermost. -/
def Tensor.indexOf (t : Tensor) (n : Nat) : List Nat :=
  let d0 := Tensor.size t 0; let d1 := Tensor.size t 1; let d2 := Tensor.size t 2; let d3 := Tensor.size t 3
  [n % d0, n / d0 % d1, n / d0 / d1 % d2, n / d0 / d1 / d2 % d3, n / d0 / d1 / d2 / d3]

/-- The exact index sum Σ ik · SDk over the dimensions below RANK from k up. -/
def Tensor.sum (t : Tensor) (k : Nat) : List Nat → Int
  | [] => 0
  | i :: r => (if k < Tensor.rank t then (i : Int) * Tensor.sd t k else 0) + Tensor.sum t (k + 1) r

/-- The address of an element, or of the token that holds it for CF8 (R35, R143). -/
def Tensor.addr (t : Tensor) (ix : List Nat) : Nat :=
  if Tensor.fmt t = .cf8 then
    wrapN 64 (Tensor.base t + (((ix[0]?).getD 0 / 32 : Nat) + Tensor.sum t 1 (ix.drop 1)) * 2 * Tensor.blen t)
  else wrapN 64 (Tensor.base t + Tensor.sum t 0 ix * Fmt.esize (Tensor.fmt t))

/-- The end of the extent of a CF8 tensor with BLEN 0 (R35). -/
def Tensor.extentEnd (t : Tensor) : Nat := Tensor.base t + 50 * Tensor.dim t 0 / 32

/-! ## Windows (R198) -/

/-- The target index of a shape index at an origin. -/
def windowIx (w : Tensor) (o : List Nat) (ix : List Nat) : List Nat :=
  (upto 0 5).map (fun k => (if k < 3 then (o[k]?).getD 0 * Tensor.size w k else 0) + (ix[k]?).getD 0)

/-- Every index below the sizes of a tensor. -/
def Tensor.inside (t : Tensor) (ix : List Nat) : Bool :=
  (upto 0 5).all (fun k => decide ((ix[k]?).getD 0 < Tensor.size t k))

/-- The window of shape w on target t at an origin is admitted: within t, or t is read with ZPAD; CF8 targets have
whole tokens, and one with BLEN 0 begins at element 0 (R35, R198). -/
def windowOk (w t : Tensor) (o : List Nat) (isRead : Bool) : Bool :=
  let last := windowIx w o ((upto 0 5).map (fun k => Tensor.size w k - 1))
  (Tensor.inside t last || (isRead && Tensor.zpad t)) &&
  (Tensor.fmt t != .cf8 ||
    (Tensor.size w 0 % 32 == 0 && ((o[0]?).getD 0 * Tensor.size w 0) % 32 == 0 &&
     (Tensor.blen t != 0 || o.all (· == 0))))

/-! ## Ring descriptors (R24 to R27) -/

/-- A ring descriptor. -/
abbrev Ring := BitVec 256

/-- V. -/
def Ring.v (d : Ring) : Bool := bit d.toNat 191
/-- FLT. -/
def Ring.flt (d : Ring) : Bool := bit d.toNat 190
/-- CONS. -/
def Ring.cons (d : Ring) : Nat := fld d.toNat 139 138
/-- PROD. -/
def Ring.prod (d : Ring) : Nat := fld d.toNat 137 136
/-- POPN. -/
def Ring.popn (d : Ring) : Nat := fld d.toNat 135 128
/-- TID. -/
def Ring.tid (d : Ring) : Nat := fld d.toNat 123 112
/-- BASE. -/
def Ring.base (d : Ring) : Nat := fld d.toNat 82 64
/-- The slot size in bytes. -/
def Ring.bytes (d : Ring) : Nat := 16 * (fld d.toNat 51 40 + 1)
/-- The slot count n. -/
def Ring.n (d : Ring) : Nat := fld d.toNat 39 32 + 1
/-- TAIL. -/
def Ring.tail (d : Ring) : Nat := fld d.toNat 24 16
/-- HEAD. -/
def Ring.head (d : Ring) : Nat := fld d.toNat 8 0
/-- The occupancy. -/
def Ring.occ (d : Ring) : Nat := (Ring.tail d + 2 * Ring.n d - Ring.head d) % (2 * Ring.n d)

/-- The descriptor with a field replaced. -/
def Ring.setField (d : Ring) (hi lo v : Nat) : Ring :=
  BitVec.ofNat 256 (d.toNat - fld d.toNat hi lo * 2 ^ lo + v % 2 ^ (hi + 1 - lo) * 2 ^ lo)

/-- HEAD advanced by m slots. -/
def Ring.pop (d : Ring) (m : Nat) : Ring := Ring.setField d 8 0 ((Ring.head d + m) % (2 * Ring.n d))
/-- TAIL advanced by m slots. -/
def Ring.push (d : Ring) (m : Nat) : Ring := Ring.setField d 24 16 ((Ring.tail d + m) % (2 * Ring.n d))
/-- FLT set. -/
def Ring.fault (d : Ring) : Ring := Ring.setField d 190 190 1

/-- The tile that holds the ring: a self designator names the anchor (R21). -/
def Fen.ringTile (x : Fen) (d : Ring) : Option Tile := x.desig x.anchor (fld d.toNat 106 96)

/-- The checks of R27 on a descriptor with V 1. -/
def Fen.ringFields (x : Fen) (d : Ring) : Bool :=
  decide (Ring.head d < 2 * Ring.n d) && decide (Ring.tail d < 2 * Ring.n d) && decide (Ring.occ d ≤ Ring.n d) &&
  decide (Ring.base d + Ring.bytes d * Ring.n d ≤ 0x80000) && (x.ringTile d).isSome

/-- A ring update passes its check (R27): V 1 and the fields of R27. -/
def Fen.ringOk (x : Fen) (d : Ring) : Bool := Ring.v d && x.ringFields d

/-- The reserved bits of a descriptor are zero (R24). -/
def Ring.reservedOk (d : Ring) : Bool :=
  zeros d.toNat [(255, 192), (189, 140), (127, 124), (111, 107), (95, 83), (67, 64), (63, 52), (31, 25), (15, 9)]

/-- The bits of a descriptor that software writes (R24, Access RW): V, CONS and PROD, POPN, TID, TILE, BASE, whose bits
[67:64] are zero, SZM1 and CNTM1, TAIL, HEAD. -/
def Ring.rw : Ring :=
  [(191, 191), (139, 128), (123, 112), (106, 96), (82, 68), (51, 32), (24, 16), (8, 0)].foldl
    (fun w (r : Nat × Nat) => w ||| BitVec.ofNat 256 (2 ^ (r.1 + 1) - 2 ^ r.2)) 0#256

/-- A descriptor as a write leaves the table entry: FLT clear and every reserved field zero (R3, R24). -/
def Ring.written (d : Ring) : Ring := d &&& Ring.rw

/-- The scratch offset of the slot an index names. -/
def Ring.slot (d : Ring) (i : Nat) : Nat := Ring.base d + i % Ring.n d * Ring.bytes d

/-- The key of byte 0 of the slot an index names. -/
def Fen.slotKey (x : Fen) (d : Ring) (i : Nat) : Nat := keyScratch ((x.ringTile d).getD x.anchor) (Ring.slot d i)

/-- Every granule of m slots from an index up has the bit (tagged full, tagged empty: R25). -/
def State.slotsTagged (s : State) (x : Fen) (d : Ring) (i m : Nat) (full : Bool) : Bool :=
  (upto i m).all (fun j => (upto (x.slotKey d j / 16) (Ring.bytes d / 16)).all (fun g => s.mem.isFull g == full))

/-- Sets or clears every granule of m slots from an index up. -/
def State.tagSlots (s : State) (x : Fen) (d : Ring) (i m : Nat) (full : Bool) : State :=
  (upto i m).foldl (fun s j => s.updMem (fun y => y.mark (x.slotKey d j / 16) (Ring.bytes d / 16) full)) s

/-- The consumer condition for m slots (R26). -/
def State.ringFilled (s : State) (x : Fen) (d : Ring) (m : Nat) : Bool :=
  decide (m ≤ Ring.occ d) && s.slotsTagged x d (Ring.head d) m true

/-- The producer condition for m slots (R26). -/
def State.ringFree (s : State) (x : Fen) (d : Ring) (m : Nat) : Bool :=
  decide (Ring.occ d + m ≤ Ring.n d) && s.slotsTagged x d (Ring.tail d) m false

/-- Descriptor hk of a mantle's ring table. -/
def Mantle.ring (m : Mantle) (h : Nat) : Ring := (m.rings[h]?).getD 0#256

/-- Descriptor hk of mantle m; a mantle that is not loaded declares none. -/
def Fen.ringOf (x : Fen) (m h : Nat) : Ring :=
  match (x.mantles[m]?).join with
  | some y => y.ring h
  | none => 0#256

/-- Descriptor hk of the current mantle. -/
def Fen.ring (x : Fen) (h : Nat) : Ring := x.ringOf x.cur h

/-- Mantle m changed. -/
def Fen.updMantleAt (x : Fen) (m : Nat) (g : Mantle → Mantle) : Fen :=
  { x with mantles := updNth x.mantles m (fun y => y.map g) }

/-- The current mantle changed. -/
def Fen.updMantle (x : Fen) (g : Mantle → Mantle) : Fen := x.updMantleAt x.cur g

/-- A pair reaches a node's threshold register: it is kept when it ranks above what the register holds (R274). -/
def Node.raise (p : BitVec 64) (n : Node) : Node :=
  if kiBest n.thr p = n.thr then n else { n with thr := kiBest n.thr p, past := n.thr :: n.past }

/-- A node's counters after n cycles: stalled on output while BLOCKED, starved on input while IDLE (R40). -/
def Node.tick (n : Nat) (y : Node) : Node :=
  match y.st with
  | .blocked => { y with stalled := (y.stalled + n) % 2 ^ 32 }
  | .idle => { y with starved := (y.starved + n) % 2 ^ 32 }
  | _ => y

/-- n cycles pass: csr.cycle stands still for a frozen fen, and the counters of a running fen's nodes count (R15, R40, R384). -/
def State.tick (s : State) (n : Nat) : State :=
  { s with
    cycle := s.cycle + n
    fens := s.fens.map (fun x =>
      if !x.live then x else if s.fenFrozen x then { x with lag := x.lag + n }
      else if x.exited then x else x.updMantle (fun m => { m with nodes := m.nodes.map (Node.tick n) })) }

/-- Descriptor hk of mantle m replaced. -/
def State.setRing (s : State) (f m h : Nat) (d : Ring) : State :=
  s.updFen f (fun x => x.updMantleAt m (fun y => { y with rings := updNth y.rings h (fun _ => d) }))

/-- The header of a node's term. -/
def nodeHdr : Instr → NodeHdr
  | .vadd n | .vsub n | .vmul n | .vfma n | .vdiv n | .vsqrt n | .vmin n | .vmax n | .vabs n | .vneg n | .vand n
  | .vor n | .vxor n | .vshl n | .vshr n | .vclamp n | .vcmp n _ _ | .sel n | .cvtNode n _ _ _ | .vperm n | .vrec n
  | .vrsq n | .vexp n | .vlog n | .vtanh n | .vsigm n | .vred n _ _ | .vscan n _ _ | .vbcast n _ | .mma n _ _ _
  | .mpoly n _ _ | .miter n _ _ _ _ _ | .msort n _ | .mtrn n _ | .cseq n _ | .cpipe n _ _ | .cstrm n _ | .steer n
  | .prime n _ | .source n _ _ | .count n _ _ _ _ | .sink n _ | .load n _ | .store n _ | .ldfe n _ | .stfe n _
  | .ojoin n _ | .atom n _ _ | .rdring n _ | .wrring n _ _ | .fscan n _ _ _ | .isect n | .union n _ | .repeatNode n _
  | .sred n _ _ | .sjoin n _ _ _ | .sacc n _ _ _ | .split n | .merge n | .rmerge n | .gath n _ _ _ | .scat n _ _ _ _ _
  | .agen n _ _ | .qport n | .pqadc n _ _ _ | .bound n _ _ | .topk n _ _ _ _ _ _ _ | .seepm n _ _ | .tomb n _ _
  | .vset n _ _ _ _ _ | .kipack n _ | .fcomp n _ => n
  | _ => ⟨0#4, .f64, 0#8, .none, .none, .none, .none, .none, .none, .off, 0#2, false, false⟩

/-- A ring's fault stops a node that consumes or produces it: it stays IDLE or BLOCKED (R27). -/
def Node.ringStop (h : Nat) (n : Node) : Node :=
  let mine : Ref → Bool := fun r => match r with | .ring k => k.toNat == h | _ => false
  if n.st = .trapped then n
  else if (nodeHdr n.ins).ins.any mine then { n with st := .idle }
  else if (nodeHdr n.ins).outs.any mine then { n with st := .blocked }
  else n

/-- A failing ring update (R27): FLT is set, the ring's nodes stop, and a ring fault record (kind 7) names the source. -/
def State.ringFault (s : State) (f m h : Nat) (t : Tile) (slot : Nat) : State :=
  match s.fens[f]? with
  | none => s
  | some x => ((s.setRing f m h (Ring.fault (x.ringOf m h))).updFen f (fun x => x.updMantleAt m (fun y =>
      { y with nodes := y.nodes.map (Node.ringStop h) }))).errorRecord x.fn x.asid 0 h t slot 7

/-- The check of a node's or an engine's ring update: a failing descriptor sets FLT once, sends its record and gives
the control core trap cause 5 (R19, R27). Answers whether the update may go on. -/
def State.ringCheck (s : State) (f m h : Nat) (t : Tile) (slot : Nat) : Bool × State :=
  match s.fens[f]? with
  | none => (false, s)
  | some x =>
    let d := x.ringOf m h
    if Ring.flt d then (false, s)
    else if x.ringOk d then (true, s)
    else (false, (s.ringFault f m h t slot).passTrap f 5 (BitVec.ofNat 64 h) 0)

/-- Pops or pushes n slots of ring hk of mantle m (R26): the index moves and the granules take their tags. -/
def State.ringAdvance (s : State) (f m h n : Nat) (pop : Bool) : State :=
  match s.fens[f]? with
  | none => s
  | some x =>
    let d := x.ringOf m h
    if pop then (s.tagSlots x d (Ring.head d) n false).setRing f m h (Ring.pop d n)
    else (s.tagSlots x d (Ring.tail d) n true).setRing f m h (Ring.push d n)

/-- A node's or an engine's advance as producer (R26): TAIL moves by one; its granules were set full as they were written
(R22). -/
def State.ringFill (s : State) (f m h : Nat) : State :=
  match s.fens[f]? with
  | none => s
  | some x => s.setRing f m h (Ring.push (x.ringOf m h) 1)

/-! ## Checks (R38, R108) -/

/-- One step of CRC-16 with polynomial 0x1021, most significant bit first. -/
def crc16Bits : Nat → Nat → Nat
  | 0, c => c
  | n + 1, c => crc16Bits n (if bit c 15 then (c * 2 % 2 ^ 16) ^^^ 0x1021 else c * 2 % 2 ^ 16)

/-- CRC-16 of R38 over bytes, from 0xFFFF. -/
def crc16 (bs : List Byte) : Nat := bs.foldl (fun c b => crc16Bits 8 (c ^^^ (b.toNat * 256))) 0xFFFF

/-- One step of reflected CRC-32C. -/
def crc32Bits : Nat → Nat → Nat
  | 0, c => c
  | n + 1, c => crc32Bits n (if c % 2 = 1 then (c / 2) ^^^ 0x82F63B78 else c / 2)

/-- CRC-32C (Castagnoli, reflected, initial and final 0xFFFF_FFFF) of R108. -/
def crc32c (bs : List Byte) : Nat := (bs.foldl (fun c b => crc32Bits 8 (c ^^^ b.toNat)) 0xFFFFFFFF) ^^^ 0xFFFFFFFF

/-! ## Barrier objects (R28 to R31) -/

/-- A barrier object's fields. -/
structure Bar where
  phase   : Bool
  arr     : Nat
  tx      : Nat
  init    : Bool
  scope   : Nat
  exparr  : Nat
  cur     : BitVec 32
  last    : BitVec 32
  phases  : Nat
  deriving DecidableEq, Repr

/-- Reads an object from its 32 bytes. -/
def Bar.ofBytes (bs : List Byte) : Bar :=
  let w := leNat bs
  { phase := bit w 63, arr := fld w 47 32, tx := fld w 31 0, init := bit w 83, scope := fld w 82 80,
    exparr := fld w 79 64, cur := bv 32 128 w, last := bv 32 160 w, phases := fld w 223 192 }

/-- The 32 bytes of an object; reserved bits keep the value they had. -/
def Bar.toBytes (b : Bar) (old : List Byte) : List Byte :=
  let w := leNat old
  toLE 32 (b.tx + b.arr * 2 ^ 32 + fld w 62 48 * 2 ^ 48 + b2n b.phase * 2 ^ 63 + b.exparr * 2 ^ 64 +
    b.scope * 2 ^ 80 + b2n b.init * 2 ^ 83 + fld w 127 84 * 2 ^ 84 + b.cur.toNat * 2 ^ 128 + b.last.toNat * 2 ^ 160 +
    b.phases * 2 ^ 192 + fld w 255 224 * 2 ^ 224)

/-- An update to the object is performed only when INIT is 1 and EXPARR is not 0 (R28). -/
def Bar.live (b : Bar) : Bool := b.init && b.exparr != 0

/-- An evaluation (R29): flips the phase when ARRPEND and TXPEND are both zero. Answers whether it did. -/
def Bar.eval (b : Bar) : Bar × Bool :=
  if b.arr = 0 ∧ b.tx = 0 then
    ({ b with phase := !b.phase, last := b.cur, cur := 0, arr := b.exparr, phases := (b.phases + 1) % 2 ^ 32 }, true)
  else (b, false)

/-- The updates of one cycle (R30): every change of TXPEND and every status OR; then the arrivals one at a time, in their
order, each with an evaluation; without an arrival, one evaluation. Answers whether the phase flipped, and the phase each
arrival found. -/
def Bar.cycle (b : Bar) (tx : Int) (osw : BitVec 32) : Nat → Bar × Bool × List Bool
  | 0 =>
    let r := ({ b with tx := wrapN 32 (b.tx + tx), cur := b.cur ||| osw } : Bar).eval
    (r.1, r.2, [])
  | n + 1 =>
    (upto 0 (n + 1)).foldl (fun (a : Bar × Bool × List Bool) _ =>
      let r := ({ a.1 with arr := wrapN 16 ((a.1.arr : Int) - 1) } : Bar).eval
      (r.1, a.2.1 || r.2, a.2.2 ++ [a.1.phase]))
      ({ b with tx := wrapN 32 (b.tx + tx), cur := b.cur ||| osw }, false, [])

/-- One update (R29, R30): a change of TXPEND and a status OR are applied, then the arrival if there is one, then the
evaluation. -/
def Bar.update (b : Bar) (tx : Int) (osw : BitVec 32) (arrive : Bool) : Bar × Bool :=
  let b := { b with tx := wrapN 32 (b.tx + tx), cur := b.cur ||| osw }
  ({ b with arr := if arrive then wrapN 16 ((b.arr : Int) - 1) else b.arr }).eval

/-! ## Queue control blocks (R37, R38) -/

/-- A queue control block as 512 bits. -/
abbrev Qcb := BitVec 512

/-- Reads a QCB from its 64 bytes. -/
def Qcb.ofBytes (bs : List Byte) : Qcb := BitVec.ofNat 512 (leNat bs)
/-- BASE. -/
def Qcb.base (q : Qcb) : Nat := fld q.toNat 63 0
/-- HEAD. -/
def Qcb.head (q : Qcb) : Nat := fld q.toNat 95 64
/-- TAIL. -/
def Qcb.tail (q : Qcb) : Nat := fld q.toNat 127 96
/-- CAP. -/
def Qcb.cap (q : Qcb) : Nat := fld q.toNat 159 128
/-- ESZ8. -/
def Qcb.esz8 (q : Qcb) : Nat := fld q.toNat 169 160
/-- BLK. -/
def Qcb.blk (q : Qcb) : Bool := bit q.toNat 176
/-- MDIE. -/
def Qcb.mdie (q : Qcb) : Bool := bit q.toNat 177
/-- FRZ. -/
def Qcb.frz (q : Qcb) : Bool := bit q.toNat 178
/-- FLT. -/
def Qcb.flt (q : Qcb) : Bool := bit q.toNat 179
/-- HOME. -/
def Qcb.home (q : Qcb) : Nat := fld q.toNat 181 180
/-- SCOPE. -/
def Qcb.scope (q : Qcb) : Nat := fld q.toNat 184 182
/-- FREE. -/
def Qcb.free (q : Qcb) : Nat := fld q.toNat 223 192
/-- WNE. -/
def Qcb.wne (q : Qcb) : Nat := fld q.toNat 271 256
/-- WNF. -/
def Qcb.wnf (q : Qcb) : Nat := fld q.toNat 287 272
/-- The seep pair as a key-index pair. -/
def Qcb.seep (q : Qcb) : BitVec 64 := kiMk (fld q.toNat 351 320) (fld q.toNat 383 352)
/-- OWNER. -/
def Qcb.owner (q : Qcb) : Nat := fld q.toNat 399 384
/-- CHK. -/
def Qcb.chk (q : Qcb) : Nat := fld q.toNat 511 496
/-- The occupancy: (TAIL − HEAD) mod 2·CAP, whatever the fields hold. -/
def Qcb.occ (q : Qcb) : Nat := (Qcb.tail q + 2 * Qcb.cap q * 2 ^ 32 - Qcb.head q) % (2 * Qcb.cap q)

/-- The QCB with a field replaced. -/
def Qcb.set (q : Qcb) (hi lo v : Nat) : Qcb :=
  BitVec.ofNat 512 (q.toNat - fld q.toNat hi lo * 2 ^ lo + v % 2 ^ (hi + 1 - lo) * 2 ^ lo)

/-- The check value: bytes 0–7, 16–23 and 48–49 with FLT and FRZ taken as zero (R38). -/
def Qcb.crc (q : Qcb) : Nat :=
  let w := (Qcb.set q 179 178 0).toNat
  crc16 (toLE 8 (fld w 63 0) ++ toLE 8 (fld w 191 128) ++ toLE 2 (fld w 399 384))

/-- CHK recomputed. -/
def Qcb.seal (q : Qcb) : Qcb := Qcb.set q 511 496 (Qcb.crc q)

/-- The validation of R38 but for the translation of its slots, for a caller's ASID at the controller's die. -/
def Qcb.fieldsOk (q : Qcb) (asid die : Nat) : Bool :=
  Qcb.chk q == Qcb.crc q && decide (Qcb.head q < 2 * Qcb.cap q) && decide (Qcb.tail q < 2 * Qcb.cap q) &&
  decide (Qcb.occ q ≤ Qcb.cap q) && Qcb.free q == Qcb.cap q - Qcb.occ q && Qcb.base q % 64 == 0 &&
  decide (1 ≤ Qcb.esz8 q ∧ Qcb.esz8 q ≤ 512) && decide (1 ≤ Qcb.cap q ∧ Qcb.cap q ≤ 2 ^ 24) &&
  Qcb.home q == die && Qcb.owner q == asid &&
  zeros q.toNat [(495, 400), (319, 288), (255, 224), (191, 185), (175, 170), (63, 48)]

/-! ## CF8 tokens (R66 to R69) -/

/-- What a token decodes to: 32 bytes, whether it is malformed, whether in a length case, and the units its LEN
gives. -/
structure Cf8 where
  bytes   : List Byte
  bad     : Bool
  badLen  : Bool
  len     : Nat
  deriving DecidableEq, Repr

/-- Bits of a stream of w bits held most significant first. -/
def streamBits (v w pos n : Nat) : Option Nat := if pos + n ≤ w then some (v / 2 ^ (w - pos - n) % 2 ^ n) else none

/-- A raw exponent field after an escape of k bits. -/
def cf8Raw (v w pos k : Nat) : Option (Nat × Option Nat × Nat) :=
  (streamBits v w (pos + k) 4).map (fun e => (pos + k + 4, none, e))

/-- A prefix code at a position (R67): the position after it, and either d (some) or a raw e. -/
def cf8Code (tsel v w pos : Nat) : Option (Nat × Option Nat × Nat) :=
  let has : Nat → Nat → Bool := fun n p => streamBits v w pos n == some p
  let d : Nat → Nat → Option (Nat × Option Nat × Nat) := fun n k => some (pos + n, some k, 0)
  if tsel = 2 then cf8Raw v w pos 0
  else if tsel = 0 then
    (if has 1 0 then d 1 0 else if has 2 2 then d 2 1 else if has 3 6 then d 3 2 else if has 3 7 then cf8Raw v w pos 3 else none)
  else if tsel = 1 then
    (if has 2 0 then d 2 0 else if has 2 1 then d 2 1 else if has 3 4 then d 3 2 else if has 3 5 then d 3 3
     else if has 3 6 then d 3 4 else if has 3 7 then cf8Raw v w pos 3 else none)
  else
    (if has 1 0 then some (pos + 1, none, 0) else if has 2 2 then d 2 0 else if has 3 6 then d 3 1
     else if has 4 14 then d 4 2 else if has 4 15 then cf8Raw v w pos 4 else none)

/-- The exponents of n elements from a position: exponents, position after, and whether a content case arose; none
when the units run out. -/
def cf8Exps (tsel b v w : Nat) : Nat → Nat → Option (List Nat × Nat × Bool)
  | 0, pos => some ([], pos, false)
  | n + 1, pos =>
    match cf8Code tsel v w pos with
    | none => none
    | some (p, d, e) =>
      let bad := match d with | some k => decide (b < k) | none => decide (b < e)
      let ex := match d with | some k => b - k | none => e
      match cf8Exps tsel b v w n p with
      | none => none
      | some (r, q, bad2) => some (ex :: r, q, bad || bad2)

/-- Decodes the token whose units begin a byte list (the bytes up to the tensor's extent or the token's pitch). -/
def cf8Decode (bs : List Byte) (blen : Nat) : Cf8 :=
  let units := bs.length / 2
  let h := leNat (bs.take 2)
  let b := fld h 15 12
  let tsel := fld h 11 10
  let zero := bit h 9
  let len := fld h 7 0
  let zeros32 : List Byte := List.replicate 32 0
  let past := decide (blen ≠ 0 ∧ blen < len) || decide (units < len) || units == 0
  if zero then
    let content := bit h 8 || b != 0 || tsel != 0
    ⟨zeros32, content || len != 1 || past, len != 1 || past, len⟩
  else
    let w := 16 * (len - 1)
    let us := (upto 1 (len - 1)).map (fun k => leNat ((bs.drop (2 * k)).take 2))
    let v := us.foldl (fun a u => a * 2 ^ 16 + u) 0
    let rangeBad := decide (len < 11 ∨ 25 < len)
    match cf8Exps tsel b v w 32 0 with
    | none => ⟨zeros32, true, true, len⟩
    | some (es, pos, content) =>
      let fin := pos + 128
      if w < fin then ⟨zeros32, true, true, len⟩
      else
        let lenBad := rangeBad || past || ceilDiv fin 16 != len - 1
        let pad := decide (v % 2 ^ (w - fin) ≠ 0)
        let bad := bit h 8 || content || !(es.contains b) || pad || lenBad
        let bytes := (upto 0 32).map (fun i =>
          let m := (streamBits v w (pos + 4 * i) 4).getD 0
          BitVec.ofNat 8 (fld m 3 3 * 128 + (es[i]?).getD 0 * 8 + fld m 2 0))
        ⟨if bad then zeros32 else bytes, bad, lenBad, len⟩

end Sys2Proof.Machine
end

