-- ==== Sys2Proof/Machine/Net.lean ====
section
/-! DEFINITION. The packet network (R358 to R361): sites and routes, flits, virtual networks and the system class, credits,
round robin at a router's output, the causeways, and the rate limiter (R378). -/
namespace Sys2Proof.Machine

/-! ## Sites and routes (R348, R359, R361) -/

/-- The die of a site. -/
def Site.die : Site → Nat
  | .tile t => t.die
  | .west d _ | .east d _ | .north d _ | .south d _ => d

/-- The grid tile a site stands at or beyond. -/
def Site.grid : Site → Tile
  | .tile t => t
  | .west d r => ⟨d, r, 0⟩
  | .east d r => ⟨d, r, 9⟩
  | .north d c => ⟨d, 0, c⟩
  | .south d c => ⟨d, 17, c⟩

/-- The home of a location (R306, R307): a tile for scratch, an EMT, a Mere bank tile, the host-link controller, the
boardwalk port, which stands at the management corner of the issuing die. -/
def homeSite (typ : MemType) (key die : Nat) : Site :=
  match typ with
  | .scratch =>
    let ix := (key - 2 ^ 45) / 2 ^ 19
    .tile ⟨ix / 180, ix % 180 / 10, ix % 10⟩
  | .mere =>
    let j := (key - 2 ^ 44) / 2 ^ 12 % 64
    if j % 16 < 8 then .north (j / 16) (j % 16 + 1) else .south (j / 16) (j % 16 - 7)
  | .host => .tile ⟨0, 0, 9⟩
  | .peer => .tile ⟨die, 0, 9⟩
  | _ =>
    let d := if key < 2 ^ 43 then key / 2 ^ 40 else (key - 2 ^ 43) / 4096 % 12 / 3
    let e := key / 128 % 32
    if e < 16 then .west d (e + 1) else .east d (e - 15)

/-- The causeway tile of a die from which a packet leaves toward another (R361): d xor 2 lies beyond 17.0; the others are
reached through 17.9. -/
def wayOut (die goal : Nat) : Tile := if goal = die ^^^ 2 then ⟨die, 17, 0⟩ else ⟨die, 17, 9⟩

/-- The output toward a tile of the same die: first along the row, then along the column (R359). -/
def toward (a b : Tile) : Nat :=
  if b.col < a.col then 3 else if a.col < b.col then 1 else if b.row < a.row then 0 else 2

/-- The output a packet takes at a site: 0 N, 1 E, 2 S, 3 W, 4 the site itself, 5 the causeway. -/
def Site.hop (a d : Site) : Nat :=
  if a = d then 4
  else match a with
    | .west _ _ => 1
    | .east _ _ => 3
    | .north _ _ => 2
    | .south _ _ => 0
    | .tile t =>
      if t.die ≠ d.die then (if t = wayOut t.die d.die then 5 else toward t (wayOut t.die d.die))
      else if t ≠ d.grid then toward t d.grid
      else match d with
        | .west _ _ => 3
        | .east _ _ => 1
        | .north _ _ => 0
        | .south _ _ => 2
        | .tile _ => 4

/-- Where an output leads: the next site and the input port there. -/
def Site.across (a : Site) (out : Nat) : Site × Nat :=
  let t := a.grid
  match a with
  | .tile _ =>
    if out = 0 then (if t.row = 0 then (.north t.die t.col, 2) else (.tile { t with row := t.row - 1 }, 2))
    else if out = 1 then (if t.col = 9 then (.east t.die t.row, 3) else (.tile { t with col := t.col + 1 }, 3))
    else if out = 2 then (if t.row = 17 then (.south t.die t.col, 0) else (.tile { t with row := t.row + 1 }, 0))
    else if out = 3 then (if t.col = 0 then (.west t.die t.row, 1) else (.tile { t with col := t.col - 1 }, 1))
    else if out = 5 then (.tile { t with die := t.die ^^^ (if t.col = 0 then 2 else 1) }, 5)
    else (a, 4)
  | .west _ _ => (.tile t, 3)
  | .east _ _ => (.tile t, 1)
  | .north _ _ => (.tile t, 0)
  | .south _ _ => (.tile t, 2)

/-! ## Packets and buffers (R358, R360) -/

/-- The flits of a packet of w bytes of data (R358). -/
def flitsOf (w : Nat) : Nat := 1 + ceilDiv w 16

/-- The number of a packet's channel: its virtual network, or 16 for the system class. -/
def Packet.chan (p : Packet) : Nat := p.vn.getD 16

/-- The flit slots of a buffer: four for each class of a virtual network, two for the system class. -/
def Packet.slots (p : Packet) : Nat := if p.vn.isSome then 4 else 2

/-- The packet a flit belongs to. -/
def Net.packet (n : Net) (k : Nat) : Option Packet := n.packets.find? (fun p => p.num == k)

/-- The flits in the buffer that a packet's flits would enter at an input port. -/
def Net.inBuf (n : Net) (p : Packet) (a : Site) (port : Nat) : List Flit :=
  n.flits.filter (fun f => f.at' == a && f.port == port &&
    (n.packet f.pkt).any (fun q => q.vn == p.vn && q.resp == p.resp))

/-- The sender holds a credit: the buffer beyond has a free slot. -/
def Net.credit (n : Net) (p : Packet) (a : Site) (port : Nat) : Bool := decide ((n.inBuf p a port).length < p.slots)

/-- The oldest flit of each buffer of a site, with its packet, in order of arrival. -/
def Net.heads (n : Net) (a : Site) : List (Flit × Packet) :=
  (n.flits.filterMap (fun f => if f.at' = a then (n.packet f.pkt).map (fun p => (f, p)) else none)).foldl
    (fun l e => if l.any (fun d => d.1.port == e.1.port && d.2.vn == e.2.vn && d.2.resp == e.2.resp) then l else l ++ [e]) []

/-- A flit that an output could pass on: it stands at the head of a buffer, is routed there, its channel is not stalled, and
a credit is held. -/
def Net.ready (n : Net) (stalled : Packet → Bool) (a : Site) (out : Nat) : List (Flit × Packet) :=
  (n.heads a).filter (fun e => a.hop e.2.dst == out && !stalled e.2 &&
    (out == 4 || n.credit e.2 (a.across out).1 (a.across out).2))

/-- The flit that an output serves next: channels in round robin from the one after the last served; the responses of a
channel before its requests. -/
def Net.serve (n : Net) (stalled : Packet → Bool) (a : Site) (out : Nat) : Option (Flit × Packet) :=
  let l := n.ready stalled a out
  let last := tabGet n.served (a, out) 16
  ((upto 1 17).filterMap (fun k =>
    let c := l.filter (fun e => e.2.chan == (last + k) % 17)
    match c.find? (fun e => e.2.resp) with
    | some e => some e
    | none => c.head?)).head?

/-- A flit leaves its buffer for the next, behind the flits there. -/
def Net.advance (n : Net) (f : Flit) (p : Packet) (out : Nat) : Net :=
  let there := f.at'.across out
  { n with flits := n.flits.filter (fun g => g != f) ++ [{ f with at' := there.1, port := there.2 }],
           served := tabSet n.served (f.at', out) p.chan }

/-- A flit enters its target; the packet is gone with its last. -/
def Net.eject (n : Net) (f : Flit) (p : Packet) : Net :=
  { n with flits := n.flits.filter (fun g => g != f),
           packets := if f.ix + 1 = p.len then n.packets.filter (fun q => q.num != p.num) else n.packets,
           served := tabSet n.served (f.at', 4) p.chan }

/-- The flits of a packet that have not entered do, as far as the site's own buffer of its channel has slots. -/
def Net.feed (n : Net) (p : Packet) : Net :=
  let k := min (p.len - p.sent) (p.slots - (n.inBuf p p.frm 4).length)
  { n with packets := n.packets.map (fun q => if q.num == p.num then { q with sent := q.sent + k } else q)
           flits := n.flits ++ (upto p.sent k).map (fun j => ⟨p.num, j, p.frm, 4⟩) }

/-- The packets that have yet to enter whole at a site go on entering, the oldest of each channel first. -/
def Net.feedAll (n : Net) (a : Site) : Net := (n.packets.filter (fun p => p.frm == a && decide (p.sent < p.len))).foldl Net.feed n

/-- A packet enters at its source, flit by flit, once no earlier one of its channel still enters there. -/
def Net.inject (n : Net) (src : Req) (vn : Option Nat) (resp : Bool) (frm dst : Site) (len : Nat) (load : Load) :
    Option Net :=
  let p : Packet := ⟨n.next, src, vn, resp, frm, dst, len, 0, load⟩
  if n.packets.any (fun q => q.frm == frm && q.vn == vn && q.resp == resp && decide (q.sent < q.len)) then none
  else some (({ n with packets := n.packets ++ [p], next := n.next + 1 } : Net).feed p)

/-- Two presentations of one request: of one stream, at one element. -/
def Req.is (a b : Req) : Bool :=
  a.fen == b.fen && a.srck == b.srck && a.tile == b.tile && a.slot == b.slot && a.stream == b.stream && a.cmd == b.cmd &&
  a.elem == b.elem

/-- Two requests of one source stream. -/
def Req.same (a b : Req) : Bool :=
  a.fen == b.fen && a.srck == b.srck && a.tile == b.tile && a.slot == b.slot && a.stream == b.stream

/-! ## What is under way -/

/-- The bytes a packet is to write. -/
def Packet.writes (p : Packet) : Option (Phys × List Byte) :=
  match p.load with
  | .write ph _ bs => some (ph, bs)
  | _ => none

/-- A write that a source has sent and that meets a run of bytes has not been performed: the source's own later accesses to
those bytes stay behind it (R295, R359). -/
def State.behind (s : State) (rq : Req) (key n : Nat) : Bool :=
  s.net.packets.any (fun p => p.src.fen == rq.fen && p.src.srck == rq.srck && p.src.tile == rq.tile &&
    p.src.slot == rq.slot && (p.writes).any (fun w => decide (w.1.key < key + n) && decide (key < w.1.key + w.2.length)))

/-- A control core's write-throughs have all been performed (R166, R189). -/
def State.drained (s : State) (f : Nat) : Bool :=
  !s.net.packets.any (fun p => p.src.fen == some f && p.src.srck == 0 && p.writes.isSome)

/-- Packets of a fen are under way. -/
def State.sending (s : State) (f : Nat) : Bool := s.net.packets.any (fun p => p.src.fen == some f)

/-! ## The rate limiter (R378) -/

/-- RATE of a partition. -/
def State.rate (s : State) (p : Nat) : Nat := fld (s.part p) 31 16

/-- A request of n flits may enter the network at a tile of a die. -/
def State.mayEnter (s : State) (die part n : Nat) : Bool :=
  s.rate part == 0 || decide (n ≤ tabGet s.dev.buckets (die, part) 0)

/-- It takes its flits from the bucket. -/
def State.takeFlits (s : State) (die part n : Nat) : State :=
  if s.rate part = 0 then s
  else s.updDev (fun d => { d with buckets := tabSet d.buckets (die, part) (tabGet d.buckets (die, part) 0 - n) })

/-- A request of n flits enters the network at a tile of a die, or waits at its source for the bucket, and the source's later
requests wait behind it. -/
def State.letIn (s : State) (rq : Req) (die part n : Nat) : Res Unit :=
  let rest := s.net.held.filter (fun r => !r.is rq)
  if s.net.held.any (fun r => r.same rq && !r.is rq) then .wait s
  else if s.mayEnter die part n then .ok () { s.takeFlits die part n with net := { s.net with held := rest } }
  else .wait { s with net := { s.net with held := rest ++ [rq] } }

/-- A request with w bytes of data enters the network, unless it stays in its own tile. -/
def State.charge (s : State) (rq : Req) (ph : Phys) (w : Nat) : Res Unit :=
  match rq.fen.bind (fun f => s.fens[f]?) with
  | none => .ok () s
  | some x =>
    if homeSite ph.typ ph.key rq.tile.die = .tile rq.tile then .ok () s
    else s.letIn rq rq.tile.die x.part (flitsOf w)

end Sys2Proof.Machine
end

