-- ==== Sys2Proof/Machine/Xlate.lean ====
section
/-! DEFINITION. How an access reaches memory: translation through the holders of R317, walks (R314, R318), faults under
the ASID's policy (R319 to R321), the EMTs (R308 to R311), accesses that leave the module (R383, R410), and the reads,
writes and read-modify-writes performed at an access's home. -/
namespace Sys2Proof.Machine

/-! ## Physical placement (R306) -/

/-- The memory type of a code. -/
def MemType.ofCode (c : Nat) : Option MemType :=
  if c = 0 then some .spread else if c = 1 then some .hlocal else if c = 2 then some .peat
  else if c = 3 then some .host else if c = 4 then some .peer else if c = 5 then some .mere else none

/-- The size limit of a type (R306); GB is 10^9 bytes (R2). -/
def MemType.limit : MemType → Nat
  | .spread => 512 * 10 ^ 9 | .hlocal => 128 * 10 ^ 9 | .peat => 768 * 10 ^ 9 | .host => 2 ^ 52 | .peer => 2 ^ 52
  | .mere => 128 * 2 ^ 20 | .scratch => 2 ^ 19

/-- The key of a physical address; `mod` is the home die of an HBM-local page or the module of a PEER page. -/
def MemType.key (t : MemType) (mod pa : Nat) : Nat :=
  match t with
  | .spread => keySpread pa | .hlocal => keyHbm mod pa | .peat => keyPeat pa | .host => keyHost pa
  | .peer => keyPeer mod pa | .mere => keyMere pa | .scratch => pa

/-- Whether lines of a type are homed in an EMT. -/
def MemType.inEmt : MemType → Bool
  | .spread | .hlocal | .peat => true
  | _ => false

/-- Whether accesses of a type leave the module (R313). -/
def MemType.leaves : MemType → Bool
  | .host | .peer => true
  | _ => false

/-- The home die of a key in HBM, the Peat or the Mere (R306). -/
def homeDie (key : Nat) : Nat :=
  if key < 2 ^ 43 then key / 2 ^ 40
  else if key < 2 ^ 44 then (key - 2 ^ 43) / 4096 % 12 / 3
  else (key - 2 ^ 44) / 2 ^ 12 % 64 / 16

/-- The EMT that homes a line (key / 128), numbered on the module. -/
def emtOf (line : Nat) : Nat := homeDie (line * 128) * 32 + line % 32

/-! ## Faults (R319 to R321) -/

/-- The code of an access in a fault record. -/
def Acc.code : Acc → Nat
  | .read => 0 | .write => 1 | .rmw => 2 | .fetch => 3

/-- Request a stands at or before request b in their stream's order of elements. -/
def Req.upTo (a b : Req) : Bool := decide (a.cmd < b.cmd) || (a.cmd == b.cmd && decide (a.elem ≤ b.elem))

/-- Whether a pending fault stops a request: one of its source at or after the faulting element (R321, R326) that was not issued
before it, at the same page for the fen controller; a control core's, whatever block it is of. -/
def Pending.stops (p : Pending) (rq : Req) (va : Nat) : Bool :=
  p.req.same rq && !p.past.any (fun q => q.is rq) && (if rq.srck = 3 then p.fault.va / 4096 == va / 4096 else rq.srck == 0 || p.req.upTo rq)

/-- A fault record (R320) under the next SEQ, written to the owning function's ring. -/
def State.faultRecord (s : State) (asid : Nat) (rq : Req) (x : XFault) : State :=
  let fn := s.asidFn asid
  let w := s.seq * 2 ^ 192 + asid * 2 ^ 176 + x.va % 2 ^ 48 * 2 ^ 128 + rq.elem % 2 ^ 32 * 2 ^ 96 + rq.tile.die * 2 ^ 94 +
    rq.tile.row * 2 ^ 89 + rq.tile.col * 2 ^ 85 + rq.slot * 2 ^ 77 + rq.srck * 2 ^ 74 + rq.stream * 2 ^ 67 +
    x.stage * 2 ^ 65 + x.reason * 2 ^ 61 + x.acc.code * 2 ^ 58 + b2n (s.replayable asid) * 2 ^ 57 + fn * 2 ^ 50
  ({ s with seq := s.seq + 1 }).putFault fn (BitVec.ofNat 256 w)

/-- A request as it is listed with its fault: a control core's carries the address of its block (log entry 160). -/
def State.ofBlock (s : State) (rq : Req) : Req :=
  if rq.srck = 0 then { rq with cmd := ((rq.fen.bind (fun f => s.fens[f]?)).map (fun x => x.core.pc.toNat)).getD 0 } else rq

/-- The later requests of a stream that were issued: they wait for a line or for an answer from outside (R309, R326). -/
def State.issued (s : State) (rq : Req) : List Req :=
  (s.emt.fills.map Prod.fst ++ s.emt.timers.map Timer.req ++ s.emt.reserved.map Prod.fst ++ s.xl.ext.map Ext.req).filter
    (fun q => q.srck != 0 && q.same rq && !q.upTo rq)

/-- Lists a fault its source has yet to meet or that awaits its verdict. A control core's block that meets a replayable
fault is aborted and runs again after service (R135). -/
def State.pend (s : State) (asid : Nat) (rq : Req) (x : XFault) (sq : Nat) : State :=
  let repl := s.replayable asid
  let rq := s.ofBlock rq
  let s := { s with xl := { s.xl with pending := s.xl.pending ++ [⟨sq, s.asidFn asid, asid, x, rq, repl, none, s.issued rq⟩] } }
  match rq.fen, rq.srck, repl with
  | some f, 0, true => if (s.fens[f]?).any (fun x => x.core.bound) then s else s.dropBlock f
  | _, _, _ => s

/-- Later requests of a stream whose translation has not completed are withdrawn (R326). -/
def State.withdraw (s : State) (rq : Req) : State :=
  { s with xl := { s.xl with walks := s.xl.walks.map (fun w =>
      { w with reqs := w.reqs.filter (fun q => !(q.req.same rq && !q.req.upTo rq)) }) } }

/-- A fault of its stream stands in a request's way: it waits for the verdict, or meets the failure; none where none does. -/
def State.heldFault {α : Type} (s : State) (asid : Nat) (rq : Req) (va : Nat) : Option (Res α) :=
  (findIx (fun p : Pending => p.asid == asid && p.stops rq va) s.xl.pending).map (fun k =>
    if k.2.repl && k.2.verdict != some true then .wait s
    else .fault k.2.fault { s with xl := { s.xl with pending := dropNth s.xl.pending k.1 } })

/-- A source meets a fault at its own check: the record is written once, and it waits for the verdict or fails at once. -/
def State.meetFault {α : Type} (s : State) (asid : Nat) (rq : Req) (x : XFault) : Res α :=
  match s.heldFault asid rq x.va with
  | some r => r
  | none =>
    let sq := s.seq
    let s := s.faultRecord asid rq x
    if s.replayable asid then .wait ((s.pend asid rq x sq).withdraw rq) else .fault x s

/-! ## Table walks (R314, R318) -/

/-- A failure of a walk: reason and stage. -/
abbrev WalkErr := Nat × Nat

/-- Reads one 8-byte table entry; uncorrectable data gives reason 5 (R319). -/
def State.tableRead (s : State) (key stage : Nat) : Except WalkErr Nat :=
  if s.mem.poisoned key 8 then .error (5, stage) else .ok (leNat (s.mem.getN key 8))

/-- The index of a level, 1 to 4, in an address. -/
def levelIx (lvl a : Nat) : Nat := a / 2 ^ (48 - 9 * lvl) % 512

/-- The bytes a leaf at a level maps. -/
def leafSize (lvl : Nat) : Nat := 2 ^ (48 - 9 * lvl)

/-- A stage-2 leaf: its address, its entry, the bytes it maps. -/
structure S2Leaf where
  at' : Nat
  ent : Nat
  size : Nat
  deriving DecidableEq, Repr

/-- The stage-2 walk of an intermediate address from a table at a level (R314): `n` levels are left. -/
def State.walk2 (s : State) (ipa : Nat) : Nat → Nat → Nat → Except WalkErr S2Leaf
  | 0, _, _ => .error (4, 2)
  | n + 1, lvl, tbl =>
    let a := tbl + 8 * levelIx lvl ipa
    if MemType.limit .spread ≤ a then .error (6, 2) else
    match s.tableRead (keySpread a) 2 with
    | .error e => .error e
    | .ok e =>
      if !bit e 0 then .error (1, 2)
      else if fld e 63 62 ≠ 0 then .error (4, 2)
      else if bit e 2 then
        (if lvl = 1 then .error (4, 2)
         else if bit e 1 && bit e 6 then .error (4, 2)
         else if 6 ≤ fld e 11 9 then .error (3, 0)
         else if fld e 11 9 = 5 ∧ lvl = 2 then .error (3, 0)
         else if (fld e 11 9 ≠ 4 ∧ fld e 61 56 ≠ 0) ∨ (fld e 11 9 ≠ 1 ∧ fld e 8 7 ≠ 0) then .error (4, 2)
         else .ok ⟨a, e, leafSize lvl⟩)
      else if lvl = 4 then .error (4, 2)
      else if fld e 11 9 ≠ 0 ∨ fld e 61 56 ≠ 0 ∨ fld e 8 7 ≠ 0 ∨ bit e 1 ∨ bit e 3 then .error (4, 2)
      else s.walk2 ipa n (lvl + 1) (fld e 51 12 * 4096)

/-- The root of a partition's stage-2 tables. -/
def State.root2 (s : State) (p : Nat) : Nat := tabGet s.dev.roots p 0

/-- The physical address and type of an intermediate address under a leaf: type, module or home die, address; the
type's limit gives reason 6. -/
def S2Leaf.phys (l : S2Leaf) (ipa : Nat) : Except WalkErr (MemType × Nat × Nat) :=
  match MemType.ofCode (fld l.ent 11 9) with
  | none => .error (3, 0)
  | some t =>
    let pa := fld l.ent 51 12 * 4096 / l.size * l.size + ipa % l.size
    if t.limit ≤ pa then .error (6, 2)
    else .ok (t, if t = .hlocal then fld l.ent 8 7 else fld l.ent 61 56, pa)

/-- A list without the n-th of the elements that a test holds of. -/
def dropMatch {α : Type} (p : α → Bool) (n : Nat) : List α → List α
  | [] => []
  | a :: r => if p a then (match n with | 0 => r | k + 1 => a :: dropMatch p k r) else a :: dropMatch p n r

/-- An entry put into a holder of `cap` entries: a full one loses one of its entries, which one being free. -/
def holdOne {α : Type} (mine : α → Bool) (cap fr : Nat) (l : List α) (a : α) : List α :=
  if l.countP mine < cap then a :: l else a :: dropMatch mine (Config.freeNat fr % cap) l

/-- The entries of a holder of translations (R317). -/
def Holder.entries : Holder → Nat
  | .micro _ => 64
  | .die _ => 8192

/-- A translation put into its holder. -/
def State.addTlb (s : State) (t : Tlb) : State :=
  { s with free := s.free + 1,
           xl := { s.xl with tlbs := holdOne (fun u => u.holder == t.holder) t.holder.entries s.free s.xl.tlbs t } }

/-- The boardwalk port of a die that reaches a module: the lowest-numbered (R410). -/
def State.portTo (s : State) (die mod : Nat) : Option Nat :=
  (upto (3 * die) 3).find? (fun k => tabGet s.dev.portmod k 0 == 64 + mod)

/-- A key in a peer module that no port of a die leads to (R319 reason 7, R410). -/
def State.noWay (s : State) (die key : Nat) : Bool :=
  decide (2 ^ 58 ≤ key) && (s.portTo die ((key - 2 ^ 58) / 2 ^ 52)).isNone

/-- The key of a stage-1 table address, through the walker cache or by a stage-2 walk (R318); the walk of a stage-1
table needs RD (R315), and a port where it lies in a peer module (R410). The cache keeps what a walk found. -/
def State.tableKey (s : State) (die part ipa : Nat) : Except WalkErr (Nat × State) :=
  match s.xl.wcache.find? (fun c => c.die == die && c.part == part && c.ipa == ipa / 4096) with
  | some c => if s.noWay die c.pa then .error (7, 0) else .ok (c.pa + ipa % 4096, s)
  | none =>
    match s.walk2 ipa 4 1 (s.root2 part) with
    | .error e => .error e
    | .ok l =>
      if !bit l.ent 4 then .error (2, 2) else
      match l.phys ipa with
      | .error e => .error e
      | .ok (t, m, pa) =>
        let k := t.key m (pa / 4096 * 4096)
        if s.noWay die k then .error (7, 0)
        else .ok (k + ipa % 4096, { s with free := s.free + 1, xl := { s.xl with
          wcache := holdOne (fun c => c.die == die) 1024 s.free s.xl.wcache ⟨die, part, ipa / 4096, k⟩ } })

/-- A stage-1 leaf: its entry and the bytes it maps. -/
abbrev S1Leaf := Nat × Nat

/-- The stage-1 entry check at a level: its fault, if any (R319). -/
def s1Check (e lvl : Nat) : Option WalkErr :=
  if !bit e 0 then some (1, 1)
  else if !zeros e [(63, 56), (11, 8), (3, 3), (1, 1), (51, 48)] then some (4, 1)
  else if bit e 2 && lvl == 1 then some (4, 1)
  else if !bit e 2 && lvl == 4 then some (4, 1)
  else none

/-- The entry that translates inside a CONT range: any entry of the range with CONT set (R316), the choice free; the read of
an uncorrectable one gives reason 5 (R319). -/
def State.contEntry (s : State) (key e : Nat) : Except WalkErr (Nat × State) :=
  let j := Config.freeNat s.free % 16
  match s.tableRead (key / 128 * 128 + 8 * j) 1 with
  | .error x => .error x
  | .ok e2 => .ok (if bit e2 0 && bit e2 7 && (s1Check e2 4).isNone then e2 else e, { s with free := s.free + 1 })

/-- The stage-1 walk of a virtual address from a table at a level. -/
def State.walk1 (s : State) (die part va : Nat) : Nat → Nat → Nat → Except WalkErr (S1Leaf × State)
  | 0, _, _ => .error (4, 1)
  | n + 1, lvl, tbl =>
    match s.tableKey die part (tbl + 8 * levelIx lvl va) with
    | .error e => .error e
    | .ok (key, s) =>
      match s.tableRead key 1 with
      | .error e => .error e
      | .ok e =>
        match s1Check e lvl with
        | some x => .error x
        | none =>
          if bit e 2 then
            (if lvl = 4 ∧ bit e 7 then
               (match s.contEntry key e with
                | .error x => .error x
                | .ok r => .ok ((r.1, 65536), r.2))
             else .ok ((e, leafSize lvl), s))
          else s.walk1 die part va n (lvl + 1) (fld e 51 12 * 4096)

/-- The whole walk of a virtual address (R314): a combined translation, or the failure of R319. -/
def State.walk (s : State) (w : Walk) : Except WalkErr (Tlb × State) :=
  match s.asidCtx w.asid with
  | none => .error (1, 1)
  | some c =>
    match s.walk1 w.die w.part w.va 4 1 (fld c 127 88 * 4096) with
    | .error e => .error e
    | .ok ((e, sz), s) =>
      let ipa := fld e 51 12 * 4096 / sz * sz + w.va % sz
      match s.walk2 ipa 4 1 (s.root2 w.part) with
      | .error x => .error x
      | .ok l =>
        match l.phys ipa with
        | .error x => .error x
        | .ok (t, m, pa) =>
          if t = .peer ∧ s.portTo w.die m = none then .error (7, 0)
          else
            let size := min sz l.size
            .ok ({ holder := .die w.die, asid := w.asid, part := w.part, va := w.va / size * size, size := size,
                   ipa := ipa / size * size, typ := t, base := pa - w.va % size, mod := m,
                   rd1 := bit e 4, w1 := bit e 6, x1 := bit e 5, rd2 := bit l.ent 4, w2 := bit l.ent 6,
                   x2 := bit l.ent 5, dirty := bit l.ent 3, leaf := l.at' }, s)

/-- The first stage, 1 then 2, whose leaf lacks the permission an access needs (R315, R320); none when both give it. -/
def Tlb.lacks (t : Tlb) (a : Acc) : Option Nat :=
  let ok1 := match a with | .read => t.rd1 | .fetch => t.x1 | _ => t.rd1 && t.w1
  let ok2 := match a with | .read => t.rd2 | .fetch => t.x2 | _ => t.rd2 && t.w2
  if !ok1 then some 1 else if !ok2 then some 2 else none

/-! ## Lines that the host may hold (R360, R408) -/

/-- The host's link controller (R360). -/
def hostSite : Site := .tile ⟨0, 0, 9⟩

/-- The home EMT of a line as a site. -/
def emtSite (line : Nat) : Site := homeSite .spread (line * 128) 0

/-- A back-invalidate snoop for a line goes out in the system class (R360, R408). -/
def State.sendSnoop (s : State) (rq : Req) (line : Nat) : State :=
  if s.emt.snoops.contains line then s
  else match s.net.inject rq none false (emtSite line) hostSite 1 (.snoop line) with
    | some n => { s with net := n, emt := { s.emt with snoops := line :: s.emt.snoops } }
    | none => s

/-- The host holds none of a run's lines: for one it may hold, the home EMT snoops and waits for the response (R408). -/
def State.snooped (s : State) (rq : Req) (ph : Phys) (n : Nat) : Res Unit :=
  if !ph.typ.inEmt then .ok () s
  else match s.emt.hostHas.find? (fun l => decide (ph.key / 128 ≤ l) && decide (l * 128 < ph.key + n)) with
    | none => .ok () s
    | some l => .wait (s.sendSnoop rq l)

/-! ## Translating an access (R317) -/

/-- The translation a holder keeps for an address: a micro-TLB is tagged by ASID, a die TLB by ASID and partition (R317). -/
def State.tlbFind (s : State) (h : Holder) (asid part va : Nat) : Option Tlb :=
  s.xl.tlbs.find? (fun t => t.holder == h && t.asid == asid && t.va == va / t.size * t.size &&
    (match h with | .micro _ => true | .die _ => t.part == part))

/-- The physical address under a translation lies within its type's size (R306). -/
def Tlb.within (t : Tlb) (va : Nat) : Bool := decide (t.base + (va - t.va) < t.typ.limit)

/-- Sets D of the stage-2 leaf before a permitted write (R315). -/
def State.setDirty (s : State) (t : Tlb) : State :=
  if t.dirty then s
  else
    let k := keySpread t.leaf
    { s with mem := { s.mem with cells := cellPut s.mem.cells k (s.mem.get k ||| 8) },
             xl := { s.xl with tlbs := s.xl.tlbs.map (fun u => if u.leaf == t.leaf then { u with dirty := true } else u) } }

/-- Where the stage-2 leaf of a translation lies. -/
def Tlb.leafPhys (t : Tlb) : Phys := ⟨.spread, keySpread t.leaf, t.leaf, 0, 0, 0⟩

/-- Sets D for a permitted write, once the host holds no line of the leaf (R315, R408). -/
def State.dirtied (s : State) (rq : Req) (acc : Acc) (t : Tlb) : Res Unit :=
  match acc with
  | .write | .rmw => if t.dirty then .ok () s else (s.snooped rq t.leafPhys 8).bind (fun _ s => .ok () (s.setDirty t))
  | _ => .ok () s

/-- The target of an address under a translation. -/
def Tlb.target (t : Tlb) (fn va : Nat) : Phys :=
  ⟨t.typ, t.typ.key t.mod (t.base + (va - t.va)), t.ipa + (va - t.va), fn, t.asid, t.mod⟩

/-- A request joins the walk for its page, or asks for one (R317). -/
def State.askWalk (s : State) (asid part : Nat) (h : Tile) (rq : Req) (acc : Acc) (va : Nat) : State :=
  let mine : Ask → Bool := fun r => r.req.same rq && r.req.elem == rq.elem && r.req.cmd == rq.cmd && r.va == va
  match findIx (fun w : Walk => w.asid == asid && w.va / 4096 == va / 4096 && w.die == h.die && !w.stale) s.xl.walks with
  | some (k, w) =>
    if w.reqs.any mine then s
    else { s with xl := { s.xl with walks := updNth s.xl.walks k (fun w => { w with reqs := w.reqs ++ [⟨rq, va, acc⟩] }) } }
  | none =>
    { s with xl := { s.xl with walks := s.xl.walks ++ [⟨h.die, asid, part, va, acc, h, [⟨rq, va, acc⟩], false, false⟩] } }

/-- Uses a translation that a holder keeps: the size of the type (R306), the permission check of R315, then D for a write. -/
def State.useTlb (s : State) (asid : Nat) (rq : Req) (acc : Acc) (va : Nat) (t : Tlb) : Res Phys :=
  if !t.within va then s.meetFault asid rq ⟨va, acc, 6, 2⟩
  else match t.lacks acc with
  | some st => s.meetFault asid rq ⟨va, acc, 2, st⟩
  | none => (s.dirtied rq acc t).bind (fun _ s => .ok (t.target (s.asidFn asid) va) s)

/-- Translates one access of a source carried by memory-port tile h. It waits while a walk or a verdict is awaited. -/
def State.xlate (s : State) (asid part : Nat) (h : Tile) (rq : Req) (acc : Acc) (va : Nat) : Res Phys :=
  match s.heldFault asid rq va with
  | some r => r
  | none =>
    match s.tlbFind (.micro h) asid part va with
    | some t => s.useTlb asid rq acc va t
    | none =>
      match s.tlbFind (.die h.die) asid part va with
      | some t => (s.addTlb { t with holder := .micro h }).useTlb asid rq acc va t
      | none => .wait (s.askWalk asid part h rq acc va)

/-! ## The EMTs (R308, R309) -/

/-- The state with the EMTs changed. -/
def State.updEmt (s : State) (g : Emt → Emt) : State := { s with emt := g s.emt }

/-- The address of a line as a record names it (log entry 134): a spread offset, or a Peat offset. -/
def lineAddr (key : Nat) : Nat :=
  if key < 2 ^ 43 then
    (let o := key % 2 ^ 40
     o / 4096 * 2 ^ 14 + key / 2 ^ 40 * 4096 + o % 4096)
  else key - 2 ^ 43

/-- An EMT evicts a line (R311): a dirty line with an uncorrectable error sends a record of kind 2 to its owner, and its
poison stays with the line's memory. -/
def State.evictLine (s : State) (line : Nat) : State :=
  match s.emt.lines.find? (fun l => l.line == line) with
  | none => { s with emt := { s.emt with replicas := s.emt.replicas.filter (fun r => r.1 != line) } }
  | some l =>
    let s := { s with emt := { s.emt with lines := s.emt.lines.filter (fun l => l.line != line) } }
    if l.dirty && s.mem.poisoned (line * 128) 128 then
      let e := line % 32
      s.errorRecord (s.asidFn l.owner) l.owner (lineAddr (line * 128)) 3
        ⟨homeDie (line * 128), if e < 16 then e + 1 else e - 15, if e < 16 then 0 else 9⟩ 0 2
    else s

/-- A line is present in its home EMT. -/
def Emt.has (e : Emt) (line : Nat) : Bool := e.lines.any (fun l => l.line == line)

/-- The miss table of a line's EMT has a free entry, and no fill of the line is in flight (R309). -/
def Emt.mayFill (e : Emt) (line : Nat) : Bool :=
  !e.fills.any (fun p => p.2 == line) && decide ((e.fills.filter (fun p => emtOf p.2 == emtOf line)).length < 32)

/-- A request for a line (R309). A reserved one is performed once its line is present and it is the first of them; one that a
retry timer holds waits until the timer has run out; otherwise it is performed when the line is present, or starts the fill and
waits, or is refused and held in a retry timer, or is reserved after its fourth refusal. -/
def State.needLine (s : State) (rq : Req) (line : Nat) : Res Unit :=
  let e := s.emt
  let tm := e.timers.find? (fun t => t.req.is rq && t.line == line)
  let rest := e.timers.filter (fun t => !(t.req.is rq && t.line == line))
  if e.reserved.any (fun r => r.1.is rq && r.2 == line) then
    (if !e.has line then
       -- the EMT takes a free entry for it as soon as there is one
       .wait (if e.mayFill line then s.updEmt (fun e => { e with fills := e.fills ++ [(rq, line)] }) else s)
     else if (e.reserved.find? (fun r => r.2 == line)).any (fun r => r.1.is rq) then
       .ok () (s.updEmt (fun e => { e with timers := rest, reserved := e.reserved.filter (fun r => !(r.1.is rq && r.2 == line)) }))
     else .wait s)
  else if tm.any (fun t => !t.ready) then .wait s
  else if e.has line then .ok () (s.updEmt (fun e => { e with timers := rest }))
  else if e.fills.any (fun p => p.1.is rq && p.2 == line) then .wait s
  else if e.mayFill line then .wait (s.updEmt (fun e => { e with fills := e.fills ++ [(rq, line)], timers := rest }))
      else
        let c := (tm.map Timer.count).getD 0 + 1
        if 4 ≤ c then .wait (s.updEmt (fun e => { e with timers := rest, reserved := e.reserved ++ [(rq, line)] }))
        else
          let h := Config.freeNat s.free % 65536
          .wait { s with free := s.free + 1,
                         emt := { e with timers := rest ++ [⟨rq, line, s.cycle + max h 1, c, false⟩] } }

/-- The lines from one to another are present. -/
def State.needLines (s : State) (rq : Req) (line : Nat) : Nat → Res Unit
  | 0 => .ok () s
  | n + 1 => (s.needLine rq line).bind (fun _ s => s.needLines rq (line + 1) n)

/-- The lines of a run of bytes are present, for a type that an EMT homes. -/
def State.present (s : State) (rq : Req) (ph : Phys) (n : Nat) : Res Unit :=
  if ph.typ.inEmt then s.needLines rq (ph.key / 128) ((ph.key + n - 1) / 128 + 1 - ph.key / 128) else .ok () s

/-- A run of bytes can be written at its home: its lines are present, and the host holds none of them. -/
def State.writable (s : State) (rq : Req) (ph : Phys) (n : Nat) : Res Unit :=
  (s.present rq ph n).bind (fun _ s => s.snooped rq ph n)

/-! ## Accesses that leave the module (R383, R410, R411) -/

/-- A granted operation of a control core: the other side has admitted it with its claim (R161). -/
def State.admitted (s : State) (rq : Req) : Bool :=
  rq.srck == 0 && (rq.fen.bind (fun f => s.fens[f]?)).any (fun x => x.core.phase == .granted)

/-- A request to a HOST or PEER page: it leaves once, waits for its response, and takes it. A peer module's refusal is
a stage-2 fault with reason 2 (R410). Answers the bytes that came back and whether they are poison. -/
def State.outside (s : State) (rq : Req) (acc : Acc) (ph : Phys) (va n : Nat) : Res (List Byte × Bool) :=
  match findIx (fun e : Ext => e.req.is rq && e.key == ph.key && e.len == n) s.xl.ext with
  | none =>
    let port := if ph.typ = .peer then s.portTo rq.tile.die ph.mod else none
    if ph.typ = .peer ∧ port.isNone then s.meetFault ph.asid rq ⟨va, acc, 7, 0⟩
    else (s.charge rq ph (if acc = .read then 0 else n)).bind (fun _ s =>
      .wait { s with xl := { s.xl with ext := s.xl.ext ++ [⟨rq, ph.asid, acc, va, ph.key, n, port, none, false⟩] } })
  | some (k, e) =>
    match e.resp with
    | none => .wait s
    | some bs =>
      -- a frozen requester finds its response in its entry once it runs again (R383)
      if (rq.fen.bind (fun f => s.fens[f]?)).any s.fenFrozen then .wait s else
      let s := { s with xl := { s.xl with ext := dropNth s.xl.ext k } }
      if ph.typ = .peer && !e.bad && !s.admitted rq && Config.peerRefuses s.free then
        ({ s with free := s.free + 1 }).meetFault ph.asid rq ⟨va, acc, 2, 2⟩
      else .ok (bs, e.bad) { s with free := s.free + 1 }

/-! ## Marks met by a reader (R416, R417) -/

/-- The check that covers a key's storage, and its unit in bytes (R415, R419). -/
def checkOf (key : Nat) : Nat × Nat :=
  if key < 2 ^ 43 then (1, 32) else if key < 2 ^ 44 then (2, 32) else if key < 2 ^ 45 then (3, 8)
  else if key < 2 ^ 53 then (4, 8) else (7, 64)

/-- The check that found a marked byte bad, and its unit: the end-to-end check, an EMT's, or that of the byte's storage (R416). -/
def Memory.finder (m : Memory) (key : Nat) : Nat × Nat :=
  if m.netMark.contains key then (6, 64) else if m.emtMark.contains key then (3, 8) else checkOf key

/-- The first byte of the unit of a marked byte. -/
def Memory.unitOf (m : Memory) (key : Nat) : Nat := key / (m.finder key).2 * (m.finder key).2

/-- An agent's first consumption of poisoned units, each with the check that found it, in a phase: one error record of kind 1 for
each (R417). -/
def State.eatPoison (s : State) (rq : Req) (va : Nat) : List (Nat × Nat) → State
  | [] => s
  | u :: r =>
    match rq.fen with
    | none => s
    | some f =>
      match s.fens[f]? with
      | none => s
      | some x =>
        let who := (rq.tile.ix * 256 + rq.slot) * 4 + rq.srck
        if x.eaten.contains (who, u.1) then s.eatPoison rq va r
        else
          let s := s.updFen f (fun x => { x with eaten := (who, u.1) :: x.eaten })
          (s.errorRecord x.fn x.asid va u.2 rq.tile rq.slot 1).eatPoison rq va r

/-- What a read of marked bytes does: POISON and a record for each unit, ECC_CORR and CECNT, which counts each unit corrected
(R416). Answers the status bits. -/
def State.meetMarks (s : State) (rq : Req) (ph : Phys) (va n : Nat) : BitVec 32 × State :=
  let p := s.mem.poisoned ph.key n
  let c := s.mem.corrected ph.key n
  if !p && !c then (0, s)
  else
    let here : List Nat → List Nat := fun l => l.filter (fun k => ph.key ≤ k && k < ph.key + n)
    let good := ((here s.mem.fixed).map s.mem.unitOf).eraseDups
    let s := s.eatPoison rq va ((here s.mem.poison).map (fun k => (s.mem.unitOf k, (s.mem.finder k).1))).eraseDups
    let s := if c then
        (s.updMem (fun m => { m with fixed := m.fixed.filter (fun k => !good.contains (m.unitOf k)) })).updPage
          (match rq.fen with | some f => ((s.fens[f]?).map Fen.fn).getD 0 | none => 0)
          (fun q => { q with cecnt := min (q.cecnt + good.length) 0xFFFFFFFF })
      else s
    (Osw.when p Osw.poison ||| Osw.when c Osw.eccCorr, s)

/-! ## Reads, writes and read-modify-writes at the home -/

/-- The 64-byte units of a run whose next transfer fails the end-to-end check of the packet network: none for an access that stays
in its own tile (R415). -/
def State.lost (s : State) (rq : Req) (ph : Phys) (n : Nat) : List Nat :=
  if homeSite ph.typ ph.key rq.tile.die = .tile rq.tile then []
  else s.mem.transit.filter (fun u => decide (u * 64 < ph.key + n) && decide (ph.key < u * 64 + 64))

/-- The bytes of a read as they come back through the packet network: those of a unit that fails the end-to-end check are poison,
and read as zero (R415, R417). -/
def State.carried (s : State) (rq : Req) (ph : Phys) (va : Nat) (r : List Byte × BitVec 32) : (List Byte × BitVec 32) × State :=
  let l := s.lost rq ph r.1.length
  if l.isEmpty then (r, s)
  else ((r.1.zipIdx.map (fun p => if l.contains ((ph.key + p.2) / 64) then 0 else p.1), r.2 ||| Osw.poison),
        (s.updMem (fun m => { m with transit := m.transit.filter (fun u => !l.contains u) })).eatPoison rq va
          (l.map (fun u => (u * 64, 6))))

/-- A write whose data fails the end-to-end check of the packet network lands with poison (R415, R416). -/
def State.landLost (s : State) (rq : Req) (ph : Phys) (n : Nat) : State :=
  let l := s.lost rq ph n
  if l.isEmpty then s
  else
    let ks := (upto ph.key n).filter (fun k => l.contains (k / 64))
    s.updMem (fun m => { m with transit := m.transit.filter (fun u => !l.contains u), poison := ks.foldl setAdd m.poison,
                                netMark := ks.foldl setAdd m.netMark })

/-- What a read outside the module brings back: poison where the port or the other side lost it, found by the link's check
(R411, R419). -/
def State.fromOutside (s : State) (rq : Req) (ph : Phys) (va n : Nat) (r : List Byte × Bool) : (List Byte × BitVec 32) × State :=
  if r.2 then
    ((List.replicate n 0, Osw.poison),
     s.eatPoison rq va ((upto (ph.key / 64) ((ph.key + n - 1) / 64 + 1 - ph.key / 64)).map (fun u => (u * 64, 7))))
  else
    let bs := if r.1.length = n then r.1 else s.mem.getN ph.key n
    let m := s.meetMarks rq ph va n
    ((bs.zipIdx.map (fun p => if s.mem.poison.contains (ph.key + p.2) then 0 else p.1), m.1), m.2)

/-- Reads n bytes: uncorrectable ones as zero, with the status bits (R153). -/
def State.readAt (s : State) (rq : Req) (ph : Phys) (va n : Nat) : Res (List Byte × BitVec 32) :=
  if s.behind rq ph.key n then .wait s
  else if ph.typ.leaves then
    (s.outside rq .read ph va n).bind (fun r s =>
      let q := s.fromOutside rq ph va n r
      .ok q.1 q.2)
  else
    (s.present rq ph n).bind (fun _ s => (s.charge rq ph 0).bind (fun _ s =>
      let bs := s.mem.readZ ph.key n
      let r := s.meetMarks rq ph va n
      let q := r.2.carried rq ph va (bs, r.1)
      .ok q.1 q.2))

/-- Data that was read before its turn, as it is delivered: where its bytes have been written since, what they are now (R297;
log entry 164). -/
def State.deliver (s : State) (rq : Req) (home : Option Phys) (va : Nat) (d : List Byte × BitVec 32) : (List Byte × BitVec 32) × State :=
  match home with
  | none => (d, s)
  | some ph =>
    let now := s.mem.readZ ph.key d.1.length
    if ph.typ.leaves || d.2 &&& Osw.poison != 0 || now == d.1 then (d, s)
    else
      let m := s.meetMarks rq ph va d.1.length
      ((now, d.2 ||| m.1), m.2)

/-- A write reaches a page that migration tracks: the page is marked dirty first (R392). No page is listed outside
PRE_COPY, STOPPING and STOPPED. -/
def State.track (s : State) (ph : Phys) : State :=
  if ph.typ = .scratch then s
  else { s with migs := s.migs.map (fun m =>
      if m.1 == ph.fn && m.2.pages.contains (ph.ipa / 4096 * 4096) then
        (m.1, { m.2 with dirty := setAdd m.2.dirty (ph.ipa / 4096 * 4096) })
      else m) }

/-- The write itself, once it is performed at its home: the line gets its owner and its dirty bit (R308). -/
def State.landWrite (s : State) (ph : Phys) (bs : List Byte) : State :=
  let s := (s.track ph).updMem (fun m => m.putN ph.key bs)
  if ph.typ.inEmt then
    s.updEmt (fun e => { e with lines := e.lines.map (fun l =>
      if decide (ph.key / 128 ≤ l.line) && decide (l.line * 128 < ph.key + bs.length)
      then { l with owner := ph.asid, dirty := true } else l) })
  else s

/-- A granted claim reserves its operation's location: no other agent's operation there is taken (R161); nor between the
answer to a read-modify-write outside the module and its landing (R289, R296). -/
def State.reserved (s : State) (rq : Req) (key n : Nat) : Bool :=
  (s.fens.zipIdx).any (fun p =>
    p.1.core.phase == .granted && !(rq.fen == some p.2 && rq.srck == 0) &&
    match p.1.core.prep with
    | some q => decide (q.ph.key < key + n) && decide (key < q.ph.key + 64)
    | none => false) ||
  s.xl.ext.any (fun e => e.acc == .rmw && e.resp.isSome && !e.req.same rq && decide (e.key < key + n) &&
    decide (key < e.key + e.len))

/-- An agent of a fen's anchor tile other than its core has written a run of bytes: the core's next acquire, of whatever
scope, gives up the lines it caches there (R166, R297). -/
def State.nearWrite (s : State) (rq : Req) (key n : Nat) : State :=
  match rq.fen with
  | none => s
  | some f => s.updFen f (fun x =>
      if rq.srck = 0 ∨ rq.tile ≠ x.anchor then x
      else { x with core := { x.core with near := x.core.near ++
        (x.core.dcache.filter (fun l => decide (l.key < key + n) && decide (key < l.key + 64))).map DLine.key } })

/-- Writes bytes; a completion does not wait on the rate limiter (R378). -/
def State.writeAt (s : State) (rq : Req) (ph : Phys) (va : Nat) (bs : List Byte) (limited : Bool := true) : Res Unit :=
  if s.reserved rq ph.key bs.length || s.behind rq ph.key bs.length then .wait s
  else if ph.typ.leaves then
    (s.outside rq .write ph va bs.length).bind (fun r s =>
      if r.2 && Config.freeBool s.free then .ok () { s with free := s.free + 1 } else .ok () (s.landWrite ph bs))
  else
    (s.writable rq ph bs.length).bind (fun _ s => (if limited then s.charge rq ph bs.length else .ok () s).bind (fun _ s =>
      .ok () (((s.landWrite ph bs).landLost rq ph bs.length).nearWrite rq ph.key bs.length)))

/-- Marks the bytes of a run uncorrectable (data written with poison, R197). -/
def State.markPoison (s : State) (ph : Phys) (n : Nat) : State :=
  s.updMem (fun m => { m with poison := setRange m.poison ph.key n true })

/-- A read-modify-write at the other side of CXL.cache or a boardwalk port, on the bytes it answered (R289, R313); a lost one
may leave the location unwritten (R411), and uncorrectable bytes there are not written over (R170). -/
def State.rmwOut (s : State) (rq : Req) (ph : Phys) (va n : Nat) (r : List Byte × Bool) (g : List Byte → List Byte × BitVec 32) :
    (List Byte × BitVec 32) × State :=
  let old := if r.1.length = n then r.1 else s.mem.getN ph.key n
  let w := g old
  if r.2 then
    let q := s.fromOutside rq ph va n r
    (q.1, { (if Config.freeBool q.2.free then q.2.landWrite ph w.1 else q.2) with free := q.2.free + 1 })
  else
    let m := s.meetMarks rq ph va n
    if s.mem.poisoned ph.key n then ((List.replicate n 0, m.1), m.2)
    else ((old, w.2 ||| m.1), m.2.landWrite ph w.1)

/-- One indivisible read-modify-write of n bytes: g gives the new bytes and status bits from the old ones. Nothing is
written where the old bytes are uncorrectable, and they answer as zero (R170, R254). -/
def State.rmwAt (s : State) (rq : Req) (ph : Phys) (va n : Nat) (g : List Byte → List Byte × BitVec 32) :
    Res (List Byte × BitVec 32) :=
  if s.reserved rq ph.key n || s.behind rq ph.key n then .wait s
  else if ph.typ.leaves then
    (s.outside rq .rmw ph va n).bind (fun r s =>
      let q := s.rmwOut rq ph va n r g
      .ok q.1 q.2)
  else
    (s.writable rq ph n).bind (fun _ s => (s.charge rq ph n).bind (fun _ s =>
      if s.mem.poisoned ph.key n then
        let r := s.meetMarks rq ph va n
        .ok (List.replicate n 0, r.1) r.2
      else
        let old := s.mem.getN ph.key n
        let r := s.meetMarks rq ph va n
        let w := g old
        .ok (old, w.2 ||| r.1) ((r.2.landWrite ph w.1).nearWrite rq ph.key n)))

end Sys2Proof.Machine
end

