-- ==== Sys2Proof/Machine/Access.lean ====
section
/-! DEFINITION. Accesses as agents make them: by virtual address or scratch address, one piece at a time; barrier-object
updates at their owner (R29 to R31); the operations of a queue's home controller (R39, R175 to R180, R280). -/
namespace Sys2Proof.Machine

/-! ## Requesters -/

/-- The control core of a fen as a requester. -/
def coreReq (f : Nat) (x : Fen) : Req := ⟨some f, 0, x.anchor, 0, 0, 0, 0⟩
/-- A node as a requester, at an element of its firing. -/
def nodeReq (f : Nat) (t : Tile) (slot elem : Nat) : Req := ⟨some f, 1, t, slot, 0, elem, 0⟩
/-- The fen controller as a requester. -/
def fcReq (f : Nat) (x : Fen) : Req := ⟨some f, 3, x.anchor, 0, 0, 0, 0⟩

/-- Translates an access of a fen's agent, at its carrier (R422). -/
def State.xlateFor (s : State) (x : Fen) (rq : Req) (acc : Acc) (va : Nat) : Res Phys :=
  s.xlate x.asid x.part (x.carrierOf rq.tile) rq acc va

/-- A later access of a stream asks for its translation, where none is held and no fault of the stream stands before it (R321,
R325). -/
def State.askFor (s : State) (x : Fen) (rq : Req) (acc : Acc) (va : Nat) : State :=
  let h := x.carrierOf rq.tile
  if decide (2 ^ 48 ≤ va) || s.xl.pending.any (fun p => p.asid == x.asid && p.stops rq va) ||
    (s.tlbFind (.micro h) x.asid x.part va).isSome || (s.tlbFind (.die h.die) x.asid x.part va).isSome then s
  else s.askWalk x.asid x.part h rq acc va

/-- The length of the piece of a run that lies in one 64-byte block. -/
def pieceLen (a n : Nat) : Nat := min n (64 - a % 64)

/-- Reads n bytes at a virtual address, 64-byte block by block; `fuel` bounds the number of blocks. -/
def State.readVa (s : State) (x : Fen) (rq : Req) (va n : Nat) : Nat → Res (List Byte × BitVec 32)
  | 0 => .ok ([], 0) s
  | fuel + 1 =>
    if n = 0 then .ok ([], 0) s
    else
      let k := pieceLen va n
      (s.xlateFor x rq .read va).bind (fun ph s =>
        (s.readAt rq ph va k).bind (fun r s =>
          (s.readVa x rq (va + k) (n - k) fuel).bind (fun r2 s => .ok (r.1 ++ r2.1, r.2 ||| r2.2) s)))

/-- Writes bytes at a virtual address, block by block; an access that waits is made again, and blocks already written
are written again with the same bytes. -/
def State.writeVa (s : State) (x : Fen) (rq : Req) (va : Nat) (bs : List Byte) : Nat → Res Unit
  | 0 => .ok () s
  | fuel + 1 =>
    if bs.length = 0 then .ok () s
    else
      let k := pieceLen va bs.length
      (s.xlateFor x rq .write va).bind (fun ph s =>
        (s.writeAt rq ph va (bs.take k)).bind (fun _ s => s.writeVa x rq (va + k) (bs.drop k) fuel))

/-- Reads n bytes of scratch. -/
def State.readScratch (s : State) (rq : Req) (t : Tile) (o n : Nat) : List Byte × BitVec 32 × State :=
  let ph := scratchPhys t o
  let bs := s.mem.readZ ph.key n
  let r := s.meetMarks rq ph o n
  (bs, r.1, r.2)

/-- Writes bytes of scratch; with `full`, the granules they lie in are set full (R22). -/
def State.writeScratch (s : State) (t : Tile) (o : Nat) (bs : List Byte) (full : Bool) : State :=
  let k := keyScratch t o
  let s := s.updMem (fun m => m.putN k bs)
  if full && !bs.isEmpty then s.updMem (fun m => m.mark (k / 16) ((k + bs.length - 1) / 16 + 1 - k / 16) true) else s

/-- A translation found without waiting: through a holder, or by the walk itself. What a home controller uses for slots
(R38). -/
def State.seek (s : State) (asid part : Nat) (h : Tile) (acc : Acc) (va : Nat) : Option Tlb :=
  if 2 ^ 48 ≤ va then none
  else match s.tlbFind (.micro h) asid part va with
    | some t => some t
    | none =>
      match s.tlbFind (.die h.die) asid part va with
      | some t => some t
      | none =>
        match s.walk ⟨h.die, asid, part, va, acc, h, [], true, false⟩ with
        | .ok r => some r.1
        | .error _ => none

/-- As `seek`, with its permission and its size: where the access goes. -/
def State.lookup (s : State) (asid part : Nat) (h : Tile) (acc : Acc) (va : Nat) : Option Phys :=
  match s.seek asid part h acc va with
  | none => none
  | some t => if (t.lacks acc).isSome || !t.within va then none else some (t.target (s.asidFn asid) va)

/-! ## Barrier objects at their owner -/

/-- Sets the event flag of the fens that hold a tile whose scratch contains a key (R188). -/
def State.flagTile (s : State) (key : Nat) : State :=
  if key < 2 ^ 45 ∨ 2 ^ 53 ≤ key then s
  else
    let ix := (key - 2 ^ 45) / 2 ^ 19
    { s with fens := s.fens.map (fun x =>
        if x.live && x.tiles.any (fun t => t.ix == ix) then { x with core := { x.core with flag := true } } else x) }

/-- The object at a key. -/
def State.bar (s : State) (key : Nat) : Bar := Bar.ofBytes (s.mem.getN key 32)

/-- The place of an update in an object's port order (R30, R305): at a tile's own controller its core, then its nodes by
slot; then the packet network, by MIDX, die, row, column and slot code (254 a control core, 255 a fen controller). -/
def State.portOrder (s : State) (key : Nat) (t : Tile) (slot : Nat) : Nat :=
  if homeSite .scratch key 0 = .tile t ∧ 2 ^ 45 ≤ key ∧ key < 2 ^ 53 ∧ (slot = 254 ∨ slot ≤ 12) then
    (if slot = 254 then 0 else slot + 1)
  else 256 + (s.dev.midx * 720 + t.ix) * 256 + slot

/-- One update of the object at a key (R29, R30): none when INIT or EXPARR is 0 and it is not performed. In a cycle that the
schedule keeps open it waits for the cycle's end. -/
def State.barUpdate (s : State) (ph : Phys) (tx : Int) (osw : BitVec 32) (arrive : Bool) (t : Tile) (slot : Nat)
    (core : Option (Nat × BitVec 32)) : Option State :=
  let old := s.mem.getN ph.key 32
  let b := Bar.ofBytes old
  if !b.live then none
  else match s.barq with
    | some l => some { s with barq := some (l ++ [⟨ph, tx, osw, arrive, s.portOrder ph.key t slot, core⟩]) }
    | none =>
      let r := b.update tx osw arrive
      let s := s.landWrite ph (r.1.toBytes old)
      some (if r.2 then s.flagTile ph.key else s)

/-- An update put into its place among those of a cycle. -/
def insertUp (u : BarUp) : List BarUp → List BarUp
  | [] => [u]
  | v :: r => if u.order < v.order then u :: v :: r else v :: insertUp u r

/-- The updates of one cycle that reach the object at ph (R30). Answers each arrival with the phase it found. -/
def State.barCycle (s : State) (ph : Phys) (ups : List BarUp) : List (BarUp × Bool) × State :=
  let old := s.mem.getN ph.key 32
  let arr := (ups.filter BarUp.arrive).foldl (fun l u => insertUp u l) []
  if !(Bar.ofBytes old).live then (arr.map (fun u => (u, (Bar.ofBytes old).phase)), s)
  else
  let r := (Bar.ofBytes old).cycle ((ups.map BarUp.tx).foldl (· + ·) 0) ((ups.map BarUp.osw).foldl (· ||| ·) 0) arr.length
  let s := s.landWrite ph (r.1.toBytes old)
  (arr.zip r.2.2, if r.2.1 then s.flagTile ph.key else s)

/-- Every object's updates of a cycle, object by object. -/
def State.barCycles (s : State) : Nat → List BarUp → List (BarUp × Bool) × State
  | 0, _ => ([], s)
  | _, [] => ([], s)
  | n + 1, u :: l =>
    let r := s.barCycle u.ph (u :: l.filter (fun v => v.ph.key == u.ph.key))
    let q := r.2.barCycles n (l.filter (fun v => v.ph.key != u.ph.key))
    (r.1 ++ q.1, q.2)

/-! ## The home controller of a queue -/

/-- Pages the slots of a queue reach. -/
def Qcb.pages (q : Qcb) : List Nat :=
  let n := Qcb.cap q * 8 * Qcb.esz8 q
  (upto (Qcb.base q / 4096) ((Qcb.base q + n - 1) / 4096 + 1 - Qcb.base q / 4096)).map (· * 4096)

/-- The QCB at a key. -/
def State.qcb (s : State) (key : Nat) : Qcb := Qcb.ofBytes (s.mem.getN key 64)

/-- The QCB with FRZ as the controller reads it: set while the owner's context is frozen (R385). -/
def State.qcbFrozen (s : State) (q : Qcb) : Bool :=
  let fn := s.asidFn (Qcb.owner q)
  s.frozen (s.fnPart fn) (s.fnCtx fn)

/-- The whole validation of R38 for a caller's ASID and carrier. -/
def State.qcbValid (s : State) (q : Qcb) (asid part : Nat) (h : Tile) (key : Nat) : Bool :=
  Qcb.fieldsOk q asid (homeDie key) && (Qcb.pages q).all (fun p => (s.lookup asid part h .rmw p).isSome)

/-- Writes a QCB back. -/
def State.putQcb (s : State) (ph : Phys) (q : Qcb) : State := s.landWrite ph (toLE 64 q.toNat)

/-- What the controller answers to a claim (R175, R176). -/
inductive QAns where
  | granted
  /-- trap cause 7; the state carries FLT and the record when validation failed -/
  | refused
  /-- ESZ8 differs from the size prepared: the block runs again -/
  | again
  /-- full or empty -/
  | full
  /-- a freeze holds it -/
  | frozen
  deriving DecidableEq, Repr

/-- Whether a queue is full (for an enqueue) or empty (for a dequeue). -/
def Qcb.stuck (q : Qcb) (enq : Bool) : Bool := if enq then Qcb.occ q == Qcb.cap q else Qcb.occ q == 0

/-- A QCB fails validation: FLT is set and the corrupt-control-block record (kind 6) goes to the caller's function. -/
def State.qcbFault (s : State) (ph : Phys) (va asid : Nat) : State :=
  let q := s.qcb ph.key
  let s := s.putQcb ph (Qcb.set q 179 179 1)
  s.errorRecord (s.asidFn asid) asid va 0 ⟨homeDie ph.key, 0, 0⟩ 0 6

/-- Judges a claim on the QCB at ph from a caller on a die: freeze, FLT, MDIE, validation (R175), in this order (DESIGN CHOICE, log
entry 170). -/
def State.qJudge (s : State) (ph : Phys) (va asid part : Nat) (h : Tile) : QAns × State :=
  let q := s.qcb ph.key
  if s.qcbFrozen q && Qcb.owner q == asid then (.frozen, s)
  else if Qcb.flt q then (.refused, s)
  else if h.die != homeDie ph.key && !Qcb.mdie q then (.refused, s)
  else if !s.qcbValid q asid part h ph.key then (.refused, s.qcbFault ph va asid)
  else (.granted, s)

/-- The quad of a tile: 4 · die + quad (R42, R37). -/
def Tile.quad (t : Tile) : Nat := 4 * t.die + (if t.row ≤ 8 then 0 else 2) + (if t.col ≤ 4 then 0 else 1)

/-- The quads a mask names. -/
def quadsOf (m : Nat) : List Nat := (upto 0 16).filter (fun k => bit m k)

/-- Registers a quad as a waiter (R177). -/
def State.qWaiter (s : State) (ph : Phys) (enq : Bool) (quad : Nat) : State :=
  let q := s.qcb ph.key
  let lo := if enq then 272 else 256
  s.putQcb ph (Qcb.set q (lo + quad) (lo + quad) 1)

/-- Wakes every quad of a mask for the queue at a key. -/
def State.wake (s : State) (key mask : Nat) : State :=
  { s with hts := { s.hts with wakes := s.hts.wakes ++ (quadsOf mask).map (fun q => (q, key)) } }

/-- Where slot j of a queue lies, by 8-byte piece. -/
def State.slotPhys (s : State) (q : Qcb) (asid part : Nat) (h : Tile) (j : Nat) : List Phys :=
  (upto 0 (Qcb.esz8 q)).map (fun k =>
    (s.lookup asid part h .rmw (Qcb.base q + j * 8 * Qcb.esz8 q + 8 * k)).getD (scratchPhys h 0))

/-- Reads 8-byte pieces. -/
def State.readPieces (s : State) : List Phys → List Byte
  | [] => []
  | p :: r => s.mem.getN p.key 8 ++ s.readPieces r

/-- Writes 8-byte pieces; scratch granules are set full (R22). -/
def State.writePieces (s : State) (bs : List Byte) : List Phys → State
  | [] => s
  | p :: r =>
    let s := s.landWrite p (bs.take 8)
    let s := if p.typ = .scratch then s.updMem (fun m => m.mark (p.key / 16) 1 true) else s
    s.writePieces (bs.drop 8) r

/-- D of the stage-2 leaf of each page that slot j reaches is set before the slot is written (R315). -/
def State.dirtySlot (s : State) (q : Qcb) (asid part : Nat) (h : Tile) (j : Nat) : State :=
  let a := Qcb.base q + j * 8 * Qcb.esz8 q
  let n := 8 * Qcb.esz8 q
  (upto (a / 4096) ((a + n - 1) / 4096 + 1 - a / 4096)).foldl (fun s p =>
    match s.seek asid part h .rmw (p * 4096) with
    | some t => s.setDirty t
    | none => s) s

/-- The stage-2 leaves whose D a write of slot j sets (R315). -/
def State.slotLeaves (s : State) (q : Qcb) (asid part : Nat) (h : Tile) (j : Nat) : List Phys :=
  let a := Qcb.base q + j * 8 * Qcb.esz8 q
  (upto (a / 4096) ((a + 8 * Qcb.esz8 q - 1) / 4096 + 1 - a / 4096)).filterMap (fun p =>
    match s.seek asid part h .rmw (p * 4096) with
    | some t => if t.dirty then none else some t.leafPhys
    | none => none)

/-- A queue operation may write what it writes, the QCB, a slot, an element: no answered operation outside the module reserves it
(R296), and the host holds none of its lines (R408). -/
def State.unsnooped (s : State) (rq : Req) (ph : Phys) : List Phys → Res Unit
  | [] => s.snooped rq ph 64
  | p :: r => if s.reserved rq p.key 8 then .wait s else (s.snooped rq p 8).bind (fun _ s => s.unsnooped rq ph r)

/-- An enqueue or a dequeue as one step (R176): the element at `elem` moves, the index and FREE change, the waiters of
the other side are woken and CHK is recomputed. -/
def State.qMove (s : State) (ph : Phys) (asid part : Nat) (h : Tile) (enq : Bool) (elem : List Phys) : State :=
  let q := s.qcb ph.key
  let n := Qcb.cap q
  if enq then
    let s0 := s.dirtySlot q asid part h (Qcb.tail q % n)
    let s1 := s0.writePieces (s.readPieces elem) (s.slotPhys q asid part h (Qcb.tail q % n))
    let q1 := Qcb.set (Qcb.set (Qcb.set q 127 96 ((Qcb.tail q + 1) % (2 * n))) 223 192 (Qcb.free q - 1)) 271 256 0
    (s1.putQcb ph (Qcb.seal q1)).wake ph.key (Qcb.wne q)
  else
    let s1 := s.writePieces (s.readPieces (s.slotPhys q asid part h (Qcb.head q % n))) elem
    let q1 := Qcb.set (Qcb.set (Qcb.set q 95 64 ((Qcb.head q + 1) % (2 * n))) 223 192 (Qcb.free q + 1)) 287 272 0
    (s1.putQcb ph (Qcb.seal q1)).wake ph.key (Qcb.wnf q)

/-- A threshold write (R280): validated, then the better pair is kept and CHK recomputed; none when it is held. -/
def State.threshWrite (s : State) (ph : Phys) (va asid part : Nat) (h : Tile) (p : BitVec 64) : Option State :=
  let q := s.qcb ph.key
  if s.qcbFrozen q && Qcb.owner q == asid then none
  else if Qcb.flt q then some s
  else if h.die != homeDie ph.key && !Qcb.mdie q then some s
  else if !s.qcbValid q asid part h ph.key then some (s.qcbFault ph va asid)
  else
    let b := kiBest (Qcb.seep q) p
    some (s.putQcb ph (Qcb.seal (Qcb.set (Qcb.set q 351 320 (kiScore b)) 383 352 (kiId b))))

/-- A page type that holds a QCB (R37). -/
def MemType.holdsQcb : MemType → Bool
  | .spread | .hlocal | .peat | .mere => true
  | _ => false

/-- Translates a QCB's address for an operation: a HOST or PEER page is a fault with reason 3 (R37). -/
def State.xlateQcb (s : State) (x : Fen) (rq : Req) (acc : Acc) (va : Nat) : Res Phys :=
  (s.xlateFor x rq acc va).bind (fun ph s =>
    if ph.typ.holdsQcb then .ok ph s else s.meetFault x.asid rq ⟨va, acc, 3, 0⟩)

end Sys2Proof.Machine
end

