-- ==== Sys2Proof/Machine/Alu.lean ====
section
/-! DEFINITION. The scalar instructions that compute: INT (R137), MULDIV (R138), the immediate group (R139), lui and lba
(R140), the tensor and scratch-address group (R141 to R145), scalar floating point (R146, R147) and cvt (R149). -/
namespace Sys2Proof.Machine

/-! ## INT (R137) -/

/-- The number of zero bits above the highest set bit; 64 for 0. -/
def clzW (a : Word) : Nat := 64 - nbits a.toNat

/-- The number of zero bits below bit n of a number, counting at most n. -/
def ctzGo (a : Nat) : Nat → Nat → Nat
  | 0, k => k
  | n + 1, k => if a % 2 = 1 then k else ctzGo (a / 2) n (k + 1)

/-- The number of zero bits below the lowest set bit; 64 for 0. -/
def ctzW (a : Word) : Nat := ctzGo a.toNat 64 0

/-- The number of set bits among the low n. -/
def popGo (a : Nat) : Nat → Nat
  | 0 => 0
  | n + 1 => a % 2 + popGo (a / 2) n

/-- The number of set bits. -/
def popW (a : Word) : Nat := popGo a.toNat 64

/-- The shift amount b[5:0]. -/
def shAmt (b : Word) : Nat := b.toNat % 64

/-- add (R137): (a + b) mod 2^64. -/
def execAdd (rd ra rb : Reg) (s : State) : Out :=
  regOp s rd (fun c => let a := c.get ra; let b := c.get rb; a + b)

/-- sub (R137): (a − b) mod 2^64. -/
def execSub (rd ra rb : Reg) (s : State) : Out :=
  regOp s rd (fun c => let a := c.get ra; let b := c.get rb; a - b)

/-- and (R137). -/
def execAnd (rd ra rb : Reg) (s : State) : Out :=
  regOp s rd (fun c => let a := c.get ra; let b := c.get rb; a &&& b)

/-- or (R137). -/
def execOr (rd ra rb : Reg) (s : State) : Out :=
  regOp s rd (fun c => let a := c.get ra; let b := c.get rb; a ||| b)

/-- xor (R137). -/
def execXor (rd ra rb : Reg) (s : State) : Out :=
  regOp s rd (fun c => let a := c.get ra; let b := c.get rb; a ^^^ b)

/-- andn (R137): a and not b. -/
def execAndn (rd ra rb : Reg) (s : State) : Out :=
  regOp s rd (fun c => let a := c.get ra; let b := c.get rb; a &&& ~~~b)

/-- sll (R137): shifts by b[5:0]. -/
def execSll (rd ra rb : Reg) (s : State) : Out :=
  regOp s rd (fun c => let a := c.get ra; let b := c.get rb; a <<< shAmt b)

/-- srl (R137): shifts by b[5:0], zeros in. -/
def execSrl (rd ra rb : Reg) (s : State) : Out :=
  regOp s rd (fun c => let a := c.get ra; let b := c.get rb; a >>> shAmt b)

/-- sra (R137): shifts by b[5:0], sign copies in. -/
def execSra (rd ra rb : Reg) (s : State) : Out :=
  regOp s rd (fun c => let a := c.get ra; let b := c.get rb; a.sshiftRight (shAmt b))

/-- ror (R137): rotates right by b[5:0]. -/
def execRor (rd ra rb : Reg) (s : State) : Out :=
  regOp s rd (fun c => let a := c.get ra; let b := c.get rb; a.rotateRight (shAmt b))

/-- slt (R137): signed a < b. -/
def execSlt (rd ra rb : Reg) (s : State) : Out :=
  regOp s rd (fun c => let a := c.get ra; let b := c.get rb; Word.ofBool (a.slt b))

/-- sltn (R137): unsigned a < b. -/
def execSltn (rd ra rb : Reg) (s : State) : Out :=
  regOp s rd (fun c => let a := c.get ra; let b := c.get rb; Word.ofBool (a.ult b))

/-- seq (R137): a = b. -/
def execSeq (rd ra rb : Reg) (s : State) : Out :=
  regOp s rd (fun c => let a := c.get ra; let b := c.get rb; Word.ofBool (a == b))

/-- min (R137), signed. -/
def execMin (rd ra rb : Reg) (s : State) : Out :=
  regOp s rd (fun c => let a := c.get ra; let b := c.get rb; Word.smin a b)

/-- max (R137), signed. -/
def execMax (rd ra rb : Reg) (s : State) : Out :=
  regOp s rd (fun c => let a := c.get ra; let b := c.get rb; Word.smax a b)

/-- minn (R137), unsigned. -/
def execMinn (rd ra rb : Reg) (s : State) : Out :=
  regOp s rd (fun c => let a := c.get ra; let b := c.get rb; Word.umin a b)

/-- maxn (R137), unsigned. -/
def execMaxn (rd ra rb : Reg) (s : State) : Out :=
  regOp s rd (fun c => let a := c.get ra; let b := c.get rb; Word.umax a b)

/-- clz (R137). -/
def execClz (rd ra : Reg) (s : State) : Out := regOp s rd (fun c => let a := c.get ra; BitVec.ofNat 64 (clzW a))

/-- ctz (R137). -/
def execCtz (rd ra : Reg) (s : State) : Out := regOp s rd (fun c => let a := c.get ra; BitVec.ofNat 64 (ctzW a))

/-- popc (R137). -/
def execPopc (rd ra : Reg) (s : State) : Out := regOp s rd (fun c => let a := c.get ra; BitVec.ofNat 64 (popW a))

/-! ## MULDIV (R138) -/

/-- mul (R138): the low 64 bits of the product. -/
def execMul (rd ra rb : Reg) (s : State) : Out :=
  regOp s rd (fun c => let a := c.get ra; let b := c.get rb; a * b)

/-- mulh (R138): bits [127:64] of the signed product. -/
def execMulh (rd ra rb : Reg) (s : State) : Out :=
  regOp s rd (fun c => let a := c.get ra; let b := c.get rb; BitVec.ofInt 64 (a.toInt * b.toInt / 2 ^ 64))

/-- mulhn (R138): bits [127:64] of the unsigned product. -/
def execMulhn (rd ra rb : Reg) (s : State) : Out :=
  regOp s rd (fun c => let a := c.get ra; let b := c.get rb; BitVec.ofNat 64 (a.toNat * b.toNat / 2 ^ 64))

/-- div (R138, R51): signed; by zero all ones. -/
def execDiv (rd ra rb : Reg) (s : State) : Out :=
  regOp s rd (fun c => let a := c.get ra; let b := c.get rb; BitVec.ofNat 64 (divI .i64 a.toNat b.toNat))

/-- divn (R138, R51): unsigned; by zero all ones. -/
def execDivn (rd ra rb : Reg) (s : State) : Out :=
  regOp s rd (fun c => let a := c.get ra; let b := c.get rb; BitVec.ofNat 64 (divI .n64 a.toNat b.toNat))

/-- rem (R138, R51): signed; by zero a. -/
def execRem (rd ra rb : Reg) (s : State) : Out :=
  regOp s rd (fun c => let a := c.get ra; let b := c.get rb; BitVec.ofNat 64 (remI .i64 a.toNat b.toNat))

/-- remn (R138, R51): unsigned; by zero a. -/
def execRemn (rd ra rb : Reg) (s : State) : Out :=
  regOp s rd (fun c => let a := c.get ra; let b := c.get rb; BitVec.ofNat 64 (remI .n64 a.toNat b.toNat))

/-! ## Immediates (R139, R140) -/

/-- addi (R139): a + sext(imm14). -/
def execAddi (rd ra : Reg) (imm : BitVec 14) (s : State) : Out := regOp s rd (fun c => let a := c.get ra; a + imm.signExtend 64)

/-- andi (R139): zero-extends imm14. -/
def execAndi (rd ra : Reg) (imm : BitVec 14) (s : State) : Out := regOp s rd (fun c => let a := c.get ra; a &&& imm.zeroExtend 64)

/-- ori (R139). -/
def execOri (rd ra : Reg) (imm : BitVec 14) (s : State) : Out := regOp s rd (fun c => let a := c.get ra; a ||| imm.zeroExtend 64)

/-- xori (R139). -/
def execXori (rd ra : Reg) (imm : BitVec 14) (s : State) : Out := regOp s rd (fun c => let a := c.get ra; a ^^^ imm.zeroExtend 64)

/-- slti (R139): signed a < sext(imm14). -/
def execSlti (rd ra : Reg) (imm : BitVec 14) (s : State) : Out := regOp s rd (fun c => let a := c.get ra; Word.ofBool (a.slt (imm.signExtend 64)))

/-- sltni (R139, R88): unsigned a < sext(imm14). -/
def execSltni (rd ra : Reg) (imm : BitVec 14) (s : State) : Out := regOp s rd (fun c => let a := c.get ra; Word.ofBool (a.ult (imm.signExtend 64)))

/-- slli (R139). -/
def execSlli (rd ra : Reg) (sh : BitVec 6) (s : State) : Out := regOp s rd (fun c => let a := c.get ra; a <<< sh.toNat)

/-- srli (R139). -/
def execSrli (rd ra : Reg) (sh : BitVec 6) (s : State) : Out := regOp s rd (fun c => let a := c.get ra; a >>> sh.toNat)

/-- srai (R139). -/
def execSrai (rd ra : Reg) (sh : BitVec 6) (s : State) : Out := regOp s rd (fun c => let a := c.get ra; a.sshiftRight sh.toNat)

/-- lui (R140): sext(imm20) · 2^12. -/
def execLui (rd : Reg) (imm : BitVec 20) (s : State) : Out := regOp s rd (fun _ => imm.signExtend 64 <<< 12)

/-- lba (R140): A + sext(imm20) · 64, A the address of the block that holds it. -/
def execLba (rd : Reg) (imm : BitVec 20) (s : State) : Out :=
  regOp s rd (fun c => c.pc + imm.signExtend 64 <<< 6)

/-! ## Tensor and scratch addresses (R141 to R145) -/

/-- mksa (R141): forms a scratch address, or trap cause 10 when the designator or the offset fails. -/
def execMksa (rd ra rb : Reg) (s : State) : Out :=
  onCore s (fun f x =>
    let d := (x.core.get ra).toNat
    let o := (x.core.get rb).toNat
    if 2 ^ 11 ≤ d ∨ x.desig x.anchor d = none ∨ 0x80000 ≤ o then
      s.abortTrap f 10 (if 2 ^ 11 ≤ d ∨ x.desig x.anchor d = none then x.core.get ra else x.core.get rb)
    else
      let d1 := if bit d 10 then 0x400 else d
      s.updCore f (fun c => (c.put rd (BitVec.ofNat 64 (0xFFFF * 2 ^ 48 + d1 * 2 ^ 20 + o))).adv))

/-- The entry that a tensor number in a register names, when it resolves and is not malformed (R142). -/
def State.tensorReg (s : State) (x : Fen) (k : Word) : Option Tensor :=
  if k.toNat < 4096 then s.goodTensor x.asid k.toNat else none

/-- The RANK index registers from rb up (R143). -/
def Core.indices (c : Core) (rb : Reg) (n : Nat) : List Nat :=
  (upto rb.toNat n).map (fun k => (c.get (BitVec.ofNat 6 k)).toNat)

/-- The address taddr computes, all ones where R143 says so. -/
def taddrOf (e : Tensor) (ix : List Nat) : Word :=
  if (upto 0 (Tensor.rank e)).any (fun j => decide (Tensor.dim e j ≤ (ix[j]?).getD 0)) then Word.allOnes
  else if Tensor.fmt e = .cf8 ∧ Tensor.blen e = 0 then
    (if 32 ≤ (ix[0]?).getD 0 ∨ 1 < Tensor.rank e then Word.allOnes else BitVec.ofNat 64 (Tensor.base e))
  else BitVec.ofNat 64 (Tensor.addr e ix)

/-- taddr (R143): the address of one element; an index register beyond g63 raises trap cause 2 when it is performed. -/
def execTaddr (rd ra rb : Reg) (s : State) : Out :=
  onCore s (fun f x =>
    match s.tensorReg x (x.core.get ra) with
    | none => s.updCore f (fun c => (c.put rd Word.allOnes).adv)
    | some e =>
      if 63 < rb.toNat + Tensor.rank e - 1 then s.abortTrap f 2 x.core.word
      else s.updCore f (fun c => (c.put rd (taddrOf e (c.indices rb (Tensor.rank e)))).adv))

/-- A tensor-reading instruction: all ones when the number does not resolve or the entry is malformed (R142). -/
def tensOp (s : State) (rd ra : Reg) (v : Tensor → Core → Word) : Out :=
  onCore s (fun f x =>
    let r := match s.tensorReg x (x.core.get ra) with
      | none => Word.allOnes
      | some e => v e x.core
    s.updCore f (fun c => (c.put rd r).adv))

/-- tbase (R144): BASE. -/
def execTbase (rd ra : Reg) (s : State) : Out := tensOp s rd ra (fun e _ => BitVec.ofNat 64 (Tensor.base e))

/-- tdim (R144): DIMj, 1 from RANK to 4, all ones above 4. -/
def execTdim (rd ra rb : Reg) (s : State) : Out :=
  tensOp s rd ra (fun e c =>
    let j := (c.get rb).toNat
    if 4 < j then Word.allOnes else BitVec.ofNat 64 (Tensor.size e j))

/-- tstr (R144): SDj sign-extended, 0 from RANK to 4, all ones above 4. -/
def execTstr (rd ra rb : Reg) (s : State) : Out :=
  tensOp s rd ra (fun e c =>
    let j := (c.get rb).toNat
    if 4 < j then Word.allOnes else if j < Tensor.rank e then BitVec.ofInt 64 (Tensor.sd e j) else 0#64)

/-- tinfo (R145): the entry's description, zero when the number does not resolve. -/
def execTinfo (rd ra : Reg) (s : State) : Out :=
  onCore s (fun f x =>
    let k := (x.core.get ra).toNat
    let v : Nat := match (if k < 4096 then s.tensor x.asid k else none) with
      | none => 0
      | some e => 2 ^ 31 + b2n (Tensor.malformed e) * 2 ^ 30 + b2n (Tensor.zpad e) * 2 ^ 29 + b2n (Tensor.wp e) * 2 ^ 28 +
          Tensor.blen e * 2 ^ 16 + fld e.toNat 447 440 * 2 ^ 8 + fld e.toNat 435 432 * 2 ^ 4 + Tensor.rank e
    s.updCore f (fun c => (c.put rd (BitVec.ofNat 64 v)).adv))

/-! ## Scalar floating point (R146, R147) -/

/-- The format F selects. -/
def fpFmt (f32 : Bool) : Fmt := if f32 then .f32 else .f64

/-- A source operand: the low 32 bits under F 1 (R146). -/
def fpSrc (f32 : Bool) (w : Word) : Nat := if f32 then w.toNat % 2 ^ 32 else w.toNat

/-- The rounding mode: RM, or csr.rm as the block sees it (R146, R185). -/
def Core.rmOf (c : Core) (dyn : Bool) (rm : BitVec 2) : Nat := if dyn then c.locRm.toNat else rm.toNat

/-- A result as a register value and its status bits. -/
def fpRes (r : Rslt) : Word × BitVec 32 := (BitVec.ofNat 64 r.1, r.2)

/-- fadd (R146): round(a + b, rm). -/
def execFadd (rd ra rb : Reg) (f32 dyn : Bool) (rm : BitVec 2) (s : State) : Out :=
  regOpSt s rd (fun c =>
    fpRes (addF (fpFmt f32) (c.rmOf dyn rm) (fpSrc f32 (c.get ra)) (fpSrc f32 (c.get rb))))

/-- fsub (R146): round(a − b, rm). -/
def execFsub (rd ra rb : Reg) (f32 dyn : Bool) (rm : BitVec 2) (s : State) : Out :=
  regOpSt s rd (fun c =>
    fpRes (subF (fpFmt f32) (c.rmOf dyn rm) (fpSrc f32 (c.get ra)) (fpSrc f32 (c.get rb))))

/-- fmul (R146): round(a · b, rm). -/
def execFmul (rd ra rb : Reg) (f32 dyn : Bool) (rm : BitVec 2) (s : State) : Out :=
  regOpSt s rd (fun c =>
    fpRes (mulF (fpFmt f32) (c.rmOf dyn rm) (fpSrc f32 (c.get ra)) (fpSrc f32 (c.get rb))))

/-- fdiv (R146, R147): round(a / b, rm). -/
def execFdiv (rd ra rb : Reg) (f32 dyn : Bool) (rm : BitVec 2) (s : State) : Out :=
  regOpSt s rd (fun c =>
    fpRes (divF (fpFmt f32) (c.rmOf dyn rm) (fpSrc f32 (c.get ra)) (fpSrc f32 (c.get rb))))

/-- fsqrt (R146, R147): round(√a, rm). -/
def execFsqrt (rd ra : Reg) (f32 dyn : Bool) (rm : BitVec 2) (s : State) : Out :=
  regOpSt s rd (fun c => fpRes (sqrtF (fpFmt f32) (c.rmOf dyn rm) (fpSrc f32 (c.get ra))))

/-- fmin: minimum under R55. -/
def execFmin (rd ra rb : Reg) (f32 : Bool) (s : State) : Out :=
  regOpSt s rd (fun c => fpRes (minMaxF (fpFmt f32) false (fpSrc f32 (c.get ra)) (fpSrc f32 (c.get rb))))

/-- fmax: maximum under R55. -/
def execFmax (rd ra rb : Reg) (f32 : Bool) (s : State) : Out :=
  regOpSt s rd (fun c => fpRes (minMaxF (fpFmt f32) true (fpSrc f32 (c.get ra)) (fpSrc f32 (c.get rb))))

/-- fma (R146): round(a · b + c, rm) with c from rd, one rounding. -/
def execFma (rd ra rb : Reg) (f32 dyn : Bool) (rm : BitVec 2) (s : State) : Out :=
  regOpSt s rd (fun c =>
    fpRes (fmaF (fpFmt f32) (c.rmOf dyn rm) (fpSrc f32 (c.get ra)) (fpSrc f32 (c.get rb)) (fpSrc f32 (c.get rd))))

/-- The values a comparison reads. -/
def fpVal (f32 : Bool) (w : Word) : Val := floatVal (fpFmt f32) (fpSrc f32 w)

/-- feq (R146): 1 if a = b; NaN equals nothing. -/
def execFeq (rd ra rb : Reg) (f32 : Bool) (s : State) : Out :=
  regOp s rd (fun c => Word.ofBool ((fpVal f32 (c.get ra)).eqv (fpVal f32 (c.get rb))))

/-- flt (R146): 1 if a < b. -/
def execFlt (rd ra rb : Reg) (f32 : Bool) (s : State) : Out :=
  regOp s rd (fun c => Word.ofBool ((fpVal f32 (c.get ra)).lt (fpVal f32 (c.get rb))))

/-- fle (R146): 1 if a ≤ b. -/
def execFle (rd ra rb : Reg) (f32 : Bool) (s : State) : Out :=
  regOp s rd (fun c =>
    let a := fpVal f32 (c.get ra)
    let b := fpVal f32 (c.get rb)
    Word.ofBool (a.lt b || a.eqv b))

/-- A result extended to 64 bits by its format (R149): sign for iN, zero otherwise. -/
def extFmt (f : Fmt) (v : Nat) : Word := if Fmt.signed f then BitVec.ofInt 64 (sx (Fmt.bits f) v) else BitVec.ofNat 64 v

/-- cvt (R149): converts the value in the low bits of ra under R63. -/
def execCvt (rd ra : Reg) (dyn : Bool) (rm : BitVec 2) (sat : Bool) (dst src : Fmt) (s : State) : Out :=
  regOpSt s rd (fun c =>
    let r := convert ((c.get ra).toNat % 2 ^ Fmt.bits src) src dst (c.rmOf dyn rm) sat
    (extFmt dst r.1, r.2))

end Sys2Proof.Machine
end

