-- ==== Sys2Proof/Machine/Mem.lean ====
section
/-! DEFINITION. Loads and stores with their full/empty forms (R150 to R156), and control transfer (R157 to R159). -/
namespace Sys2Proof.Machine

/-- The width of an access in bytes (R89). -/
def MSize.bytes : MSize → Nat
  | .i8 | .n8 => 1 | .i16 | .n16 => 2 | .i32 | .n32 => 4 | .d64 => 8

/-- A loaded value extended to 64 bits: signed for sizes 0, 2 and 4 (R151). -/
def MSize.ext (z : MSize) (v : Nat) : Word :=
  match z with
  | .i8 => BitVec.ofInt 64 (sx 8 v) | .i16 => BitVec.ofInt 64 (sx 16 v) | .i32 => BitVec.ofInt 64 (sx 32 v)
  | _ => BitVec.ofNat 64 v

/-- The effective address g[base] + sext(imm9) · w (R150). -/
def effAddr (c : Core) (base : Reg) (z : MSize) (imm : BitVec 9) : Word :=
  c.get base + imm.signExtend 64 * BitVec.ofNat 64 (MSize.bytes z)

/-- The checks of R150, steps 1 to 4: the trap cause of the first that fails, or the place. -/
def addrCheck (x : Fen) (ea : Word) (w : Nat) (fe : Bool) : Except Nat Space :=
  match x.space x.anchor ea.toNat with
  | .none => .error 10
  | p =>
    if ea.toNat % w ≠ 0 then .error 4
    else match p with
      | .global va => if fe then .error 10 else .ok (.global va)
      | .scratch t o => .ok (.scratch t o)
      | _ => .error 10

/-- The byte an effect held back writes at a key. -/
def Eff.byteAt (e : Eff) (key : Nat) : Option Byte :=
  match e with
  | .store ph _ bs | .setFull ph bs | .binit ph bs => if ph.key ≤ key then bs[key - ph.key]? else none
  | _ => none

/-- Bytes read from memory under the block's earlier stores: the latest store to each byte wins (R132). -/
def overlay (effs : List (Nat × Eff)) (key : Nat) (bs : List Byte) : List Byte :=
  bs.zipIdx.map (fun p => effs.foldl (fun b e => (e.2.byteAt (key + p.2)).getD b) p.1)

/-- The runs of a load's bytes that no earlier store of the block writes, as offset and length: what it reads from memory
(R132, R292). -/
def gaps (effs : List (Nat × Eff)) (key : Nat) (n : Nat) : List (Nat × Nat) :=
  (upto 0 n).foldr (fun k l =>
    if effs.any (fun e => (e.2.byteAt (key + k)).isSome) then l
    else match l with
      | (o, m) :: r => if o = k + 1 then (k, m + 1) :: r else (k, 1) :: l
      | [] => [(k, 1)]) []

/-- Bytes put over a list at an offset. -/
def putOver (bs : List Byte) (o : Nat) (new : List Byte) : List Byte := bs.take o ++ new ++ bs.drop (o + new.length)

/-- Reads the runs of a load from memory, each as one access. -/
def State.readGaps (s : State) (rq : Req) (ph : Phys) (va : Nat) (bs : List Byte) :
    List (Nat × Nat) → Res (List Byte × BitVec 32)
  | [] => .ok (bs, 0) s
  | (o, n) :: r =>
    (s.readAt rq { ph with key := ph.key + o, ipa := ph.ipa + o } (va + o) n).bind (fun q s =>
      (s.readGaps rq ph va (putOver bs o q.1) r).bind (fun p s => .ok (p.1, q.2 ||| p.2) s))

/-- Reads the runs of a load from scratch. -/
def State.scratchGaps (s : State) (rq : Req) (t : Tile) (o : Nat) (bs : List Byte) :
    List (Nat × Nat) → List Byte × BitVec 32 × State
  | [] => (bs, 0, s)
  | (j, n) :: r =>
    let q := s.readScratch rq t (o + j) n
    let p := q.2.2.scratchGaps rq t o (putOver bs j q.1) r
    (p.1, q.2.1 ||| p.2.1, p.2.2)

/-- A load of the core from scratch under its block's earlier stores (R132, R152). A tile other than the anchor is reached by
the packet network. -/
def State.loadScratch (s : State) (f : Nat) (x : Fen) (t : Tile) (o n : Nat) : Res (List Byte × BitVec 32) :=
  let rq := coreReq f x
  let ph := scratchPhys t o
  let l := gaps x.core.effs ph.key n
  (if l.isEmpty then .ok () s else s.charge rq ph 0).bind (fun _ s =>
    let r := s.scratchGaps rq t o (List.replicate n 0) l
    .ok (overlay x.core.effs ph.key r.1, r.2.1) r.2.2)

/-- A line enters the data cache of 256 lines (R152): it takes the place of an entry for its address or its bytes; a full
cache gives up a line, which one being free. -/
def State.cacheLine (s : State) (f : Nat) (l : DLine) : State :=
  { s with free := s.free + 1 }.updCore f (fun c =>
    { c with dcache := holdOne (fun _ => true) 256 s.free (c.dcache.filter (fun d => d.va != l.va && d.key != l.key)) l })

/-- Lines of the data cache that meet a run of bytes are given up. -/
def Core.dropLines (c : Core) (key n : Nat) : Core :=
  { c with dcache := c.dcache.filter (fun l => decide (l.key + 64 ≤ key) || decide (key + n ≤ l.key)) }

/-- A plain load from global memory under the block's earlier stores: through the data cache for the types it caches (R152). -/
def State.loadGlobal (s : State) (f : Nat) (x : Fen) (va w : Nat) : Res (List Byte × BitVec 32) :=
  let rq := coreReq f x
  (s.xlateFor x rq .read va).bind (fun ph s =>
    let c := x.core
    let line := va / 64 * 64
    let k := ph.key - (va - line)
    let l := gaps c.effs ph.key w
    let zeros := List.replicate w 0
    if !ph.typ.inEmt then
      (s.readGaps rq ph va zeros l).bind (fun r s => .ok (overlay c.effs ph.key r.1, r.2) s)
    else match c.dcache.find? (fun d => d.va == line && d.key == k) with
      | some d => .ok (overlay c.effs ph.key ((d.bytes.drop (va - line)).take w), 0) s
      | none =>
        if l.isEmpty then .ok (overlay c.effs ph.key zeros, 0) s
        else if s.behind rq k 64 then .wait s
        else (s.readGaps rq ph va zeros l).bind (fun r s =>
          let s := if s.mem.poisoned k 64 then s else s.cacheLine f ⟨line, k, s.mem.getN k 64⟩
          .ok (overlay c.effs ph.key r.1, r.2) s))

/-- How the block sees a granule's bit: as its latest full/empty access leaves it at commit, or as memory holds it
(R155). -/
def State.granFull (s : State) (c : Core) (gran : Nat) : Bool :=
  c.effs.foldl (fun b e => match e.2 with
    | .setFull ph _ => if ph.key / 16 = gran then true else b
    | .setEmpty ph => if ph.key / 16 = gran then false else b
    | _ => b) (s.mem.isFull gran)

/-- Another control core's block holds the granule (R154). -/
def State.granHeld (s : State) (f gran : Nat) : Bool :=
  s.fens.zipIdx.any (fun p => p.2 != f && p.1.core.effs.any (fun e => match e.2 with
    | .setFull ph _ | .setEmpty ph => ph.key / 16 == gran
    | _ => false))

/-- Whether a full/empty access of the core waits (R154). -/
def State.feWaits (s : State) (f : Nat) (x : Fen) (gran : Nat) : Fe → Bool
  | .none => false
  | .keep => !s.granFull x.core gran
  | .clear => !s.granFull x.core gran || s.granHeld f gran
  | .set => s.granFull x.core gran || s.granHeld f gran

/-- A loaded value goes to rd. -/
def State.loaded (s : State) (f : Nat) (rd : Reg) (v : Word) (st : BitVec 32) : State :=
  s.updCore f (fun c => ((c.put rd v).orStat st).adv)

/-- ld (R150 to R156): waits leave the block where it stands. -/
def execLd (rd base : Reg) (size : MSize) (fe : Fe) (imm : BitVec 9) (s : State) : Out :=
  onCore s (fun f x =>
    let w := MSize.bytes size
    let ea := effAddr x.core base size imm
    match addrCheck x ea w (fe != .none) with
    | .error cause => s.abortTrap f cause ea
    | .ok (.scratch t o) =>
      let ph := scratchPhys t o
      if s.feWaits f x (ph.key / 16) fe then s
      else match s.loadScratch f x t o w with
        | .ok r s =>
          let s := if fe = .clear then s.updCore f (fun c => c.defer (.setEmpty ph)) else s
          s.loaded f rd (MSize.ext size (leNat r.1)) r.2
        | .wait s | .fault _ s => s
    | .ok (.global va) =>
      match s.loadGlobal f x va w with
      | .ok r s => s.loaded f rd (MSize.ext size (leNat r.1)) r.2
      | .wait s => s
      | .fault _ s => s.abortTrap f 6 ea
    | .ok _ => s)

/-- st (R150, R151, R154): translated when it is executed, which sets D of its leaf (R315; DESIGN CHOICE, log entry 174), written at
commit. -/
def execSt (rd base : Reg) (size : MSize) (fe : Fe) (imm : BitVec 9) (s : State) : Out :=
  onCore s (fun f x =>
    let w := MSize.bytes size
    let ea := effAddr x.core base size imm
    let bs := toLE w (x.core.get rd).toNat
    match addrCheck x ea w (fe != .none) with
    | .error cause => s.abortTrap f cause ea
    | .ok (.scratch t o) =>
      let ph := scratchPhys t o
      if fe = .set then
        (if s.feWaits f x (ph.key / 16) .set then s else s.updCore f (fun c => (c.defer (.setFull ph bs)).adv))
      else s.updCore f (fun c => (c.defer (.store ph ea.toNat bs)).adv)
    | .ok (.global va) =>
      match s.xlateFor x (coreReq f x) .write va with
      | .ok ph s => s.updCore f (fun c => (c.defer (.store ph va bs)).adv)
      | .wait s => s
      | .fault _ s => s.abortTrap f 6 ea
    | .ok _ => s)

/-! ## Control transfer (R83, R157 to R159) -/

/-- The fall-through address of the block (R79). -/
def Core.fallThrough (c : Core) : Word :=
  BitVec.ofNat 64 (ceilDiv (c.pc.toNat + 4 * (c.words.length + 1)) 64 * 64)

/-- The tests of BR and CALL (R157). -/
def Cond.test (k : Cond) (a : Word) : Bool :=
  match k with
  | .always => true
  | .eqz => a == 0#64
  | .nez => a != 0#64
  | .ltz => a.slt 0#64
  | .gez => !a.slt 0#64
  | .gtz => (0#64).slt a
  | .lez => !(0#64).slt a

/-- The target A + sext(offset) · 64 (R83). -/
def Core.branchTarget (c : Core) (ofs : BitVec 17) : Word := c.pc + ofs.signExtend 64 <<< 6

/-- br (R157). -/
def execBr (cond : Cond) (ra : Reg) (ofs : BitVec 17) (s : State) : Out :=
  onCore s (fun f x =>
    let c := x.core
    s.updCore f (fun _ => if Cond.test cond (c.get ra) then c.takeExit (c.branchTarget ofs) else c.adv))

/-- call (R157): as br, and g63 receives the fall-through address when it is taken; the condition is read first. -/
def execCall (cond : Cond) (ra : Reg) (ofs : BitVec 17) (s : State) : Out :=
  onCore s (fun f x =>
    let c := x.core
    s.updCore f (fun _ =>
      if Cond.test cond (c.get ra) then (c.put 63#6 c.fallThrough).takeExit (c.branchTarget ofs) else c.adv))

/-- jr (R158): always exits to g[ra] as read before its own write of rd. -/
def execJr (rd ra : Reg) (s : State) : Out :=
  onCore s (fun f x =>
    let c := x.core
    s.updCore f (fun _ => (c.put rd c.fallThrough).takeExit (c.get ra)))

/-- halt (R159): an exit with no target. -/
def execHalt (s : State) : Out :=
  onCore s (fun f x => s.updCore f (fun _ => { x.core with halting := true, idx := x.core.words.length }))

end Sys2Proof.Machine
end

