-- ==== Sys2Proof/Machine/Sync.lean ====
section
/-! DEFINITION. Ordering, atomics and barrier objects: fence, lda, stl (R165 to R169), cas and amo (R170), binit, barv,
bexp and bwait (R171 to R174). -/
namespace Sys2Proof.Machine

/-! ## Acquire (R166) -/

/-- An acquire at scope S: at fen or wider every line of the data cache is invalidated; at tile scope the lines that agents
of the core's tile have written since (R166, R297). -/
def Core.acquire (c : Core) (sc : Nat) : Core :=
  { c with dcache := if 1 ≤ sc then [] else c.dcache.filter (fun l => !c.near.contains l.key), near := [] }

/-- SCOPE_CLAMPED, when a scope was reduced (R165). -/
def clampBit (b : Bool) : BitVec 32 := Osw.when b Osw.scopeClamped

/-- fence (R168): release, then acquire, at its effective scope. The release waits for the core's write-throughs. -/
def execFence (scope : BitVec 3) (s : State) : Out :=
  onCore s (fun f x =>
    let e := s.effScope x scope.toNat
    if !s.drained f then s
    else s.updCore f (fun c => ((c.acquire e.1).orStat (clampBit e.2)).adv))

/-- The width of a SYNCD or SYNCW access. -/
def syncBytes (w32 : Bool) : Nat := if w32 then 4 else 8

/-- A load that reads memory itself, under the block's earlier stores. -/
def State.loadHome (s : State) (f : Nat) (x : Fen) (va w : Nat) : Res (List Byte × BitVec 32) :=
  (s.xlateFor x (coreReq f x) .read va).bind (fun ph s =>
    (s.readGaps (coreReq f x) ph va (List.replicate w 0) (gaps x.core.effs ph.key w)).bind (fun r s =>
      .ok (overlay x.core.effs ph.key r.1, r.2) s))

/-- lda (R169): a load with acquire. At fen scope or wider it reads memory itself and then invalidates the cache; at
tile scope it reads as a plain load does. -/
def execLda (w32 : Bool) (rd ra : Reg) (scope : BitVec 3) (s : State) : Out :=
  onCore s (fun f x =>
    let w := syncBytes w32
    let ea := x.core.get ra
    let e := s.effScope x scope.toNat
    let finish : State → List Byte × BitVec 32 → State := fun s r =>
      (s.updCore f (fun c => c.acquire e.1)).loaded f rd (BitVec.ofNat 64 (leNat r.1)) (r.2 ||| clampBit e.2)
    match addrCheck x ea w false with
    | .error cause => s.abortTrap f cause ea
    | .ok (.scratch t o) =>
      match s.loadScratch f x t o w with
      | .ok r s => finish s r
      | .wait s | .fault _ s => s
    | .ok (.global va) =>
      match (if 1 ≤ e.1 then s.loadHome f x va w else s.loadGlobal f x va w) with
      | .ok r s => finish s r
      | .wait s => s
      | .fault _ s => s.abortTrap f 6 ea
    | .ok _ => s)

/-- stl (R169): a store with release, performed at commit in its place among the block's stores. -/
def execStl (w32 : Bool) (ra rb : Reg) (scope : BitVec 3) (s : State) : Out :=
  onCore s (fun f x =>
    let w := syncBytes w32
    let ea := x.core.get ra
    let e := s.effScope x scope.toNat
    let bs := toLE w (x.core.get rb).toNat
    match addrCheck x ea w false with
    | .error cause => s.abortTrap f cause ea
    | .ok (.scratch t o) =>
      s.updCore f (fun c => ((c.defer (.store (scratchPhys t o) ea.toNat bs)).orStat (clampBit e.2)).adv)
    | .ok (.global va) =>
      match s.xlateFor x (coreReq f x) .write va with
      | .ok ph s => s.updCore f (fun c => ((c.defer (.store ph va bs)).orStat (clampBit e.2)).adv)
      | .wait s => s
      | .fault _ s => s.abortTrap f 6 ea
    | .ok _ => s)

/-! ## Non-revocable instructions (R161, R162) -/

/-- A non-revocable instruction: preparation when the block reaches it, the operation once its claim is granted. -/
def nrExec (s : State) (prep : Nat → Fen → State) (perform : Nat → Fen → Prep → State) : Out :=
  onCore s (fun f x =>
    if x.core.phase = .granted then
      match x.core.prep with
      | some p => perform f x p
      | none => s
    else prep f x)

/-- Preparation done: its results are kept and the block goes on (R161). -/
def State.prepared (s : State) (f : Nat) (p : Prep) : State :=
  s.updCore f (fun c => { c with prep := some p }.adv)

/-- The operation is performed: the destination is written unless a later instruction writes it, and the commit
follows (R161, R134). -/
def Core.performed (c : Core) (rd : Option Reg) (v : Word) (st : BitVec 32) : Core :=
  let c1 := match rd with
    | some r => if r = 0#6 || c.late.contains r.toNat then c else { c with loc := c.loc.set r.toNat v r.isLt }
    | none => c
  { c1 with phase := .commit, stat := c1.stat ||| st }

/-- The place of an operation, for its preparation: R150 steps 1 to 5 as an access of n bytes that needs `acc`. -/
def State.prepAddr (s : State) (f : Nat) (x : Fen) (ea : Word) (n : Nat) (acc : Acc) : Except State (Res Phys) :=
  match addrCheck x ea n false with
  | .error cause => .error (s.abortTrap f cause ea)
  | .ok (.scratch t o) => .ok (.ok (scratchPhys t o) s)
  | .ok (.global va) => .ok (s.xlateFor x (coreReq f x) acc va)
  | .ok _ => .error s

/-- A read-modify-write of w bytes (R170): op takes w, the old value, v and e. -/
def amoExec (s : State) (w32 : Bool) (rd ra rb : Reg) (scope : BitVec 3) (op : Nat → Nat → Nat → Nat → Nat) : Out :=
  let w := syncBytes w32
  nrExec s
    (fun f x =>
      let ea := x.core.get ra
      match s.prepAddr f x ea w .rmw with
      | .error s => s
      | .ok (.wait s) => s
      | .ok (.fault _ s) => s.abortTrap f 6 ea
      | .ok (.ok ph s) =>
        s.prepared f ⟨ea, x.core.get rb, x.core.get rd, ph, 0, [], [], (s.effScope x scope.toNat).1⟩)
    (fun f x p =>
      let g : List Byte → List Byte × BitVec 32 := fun old =>
        (toLE w (op w (leNat old) (p.b.toNat % 2 ^ (8 * w)) (p.d.toNat % 2 ^ (8 * w))), 0)
      let clamp := clampBit (s.effScope x scope.toNat).2
      match s.rmwAt (coreReq f x) p.ph p.a.toNat w g with
      | .ok r s => s.updCore f (fun c =>
          (((c.dropLines p.ph.key w).acquire p.scope).performed (some rd) (BitVec.ofNat 64 (leNat r.1)) (r.2 ||| clamp)))
      | .wait s => s
      | .fault _ s => s)

/-- cas (R170): new is v when the old value equals e, else the old value. -/
def execCas (w32 : Bool) (rd ra rb : Reg) (scope : BitVec 3) (s : State) : Out :=
  amoExec s w32 rd ra rb scope (fun _ old v e => if old = e then v else old)

/-- amo.add (R170). -/
def execAmoAdd (w32 : Bool) (rd ra rb : Reg) (scope : BitVec 3) (s : State) : Out :=
  amoExec s w32 rd ra rb scope (fun w old v _ => (old + v) % 2 ^ (8 * w))

/-- amo.and (R170). -/
def execAmoAnd (w32 : Bool) (rd ra rb : Reg) (scope : BitVec 3) (s : State) : Out :=
  amoExec s w32 rd ra rb scope (fun _ old v _ => old &&& v)

/-- amo.or (R170). -/
def execAmoOr (w32 : Bool) (rd ra rb : Reg) (scope : BitVec 3) (s : State) : Out :=
  amoExec s w32 rd ra rb scope (fun _ old v _ => old ||| v)

/-- amo.xor (R170). -/
def execAmoXor (w32 : Bool) (rd ra rb : Reg) (scope : BitVec 3) (s : State) : Out :=
  amoExec s w32 rd ra rb scope (fun _ old v _ => old ^^^ v)

/-- amo.min (R170). -/
def execAmoMin (w32 : Bool) (rd ra rb : Reg) (scope : BitVec 3) (s : State) : Out :=
  amoExec s w32 rd ra rb scope (fun w old v _ => if sx (8 * w) v < sx (8 * w) old then v else old)

/-- amo.max (R170). -/
def execAmoMax (w32 : Bool) (rd ra rb : Reg) (scope : BitVec 3) (s : State) : Out :=
  amoExec s w32 rd ra rb scope (fun w old v _ => if sx (8 * w) old < sx (8 * w) v then v else old)

/-- amo.minn (R170). -/
def execAmoMinn (w32 : Bool) (rd ra rb : Reg) (scope : BitVec 3) (s : State) : Out :=
  amoExec s w32 rd ra rb scope (fun _ old v _ => min old v)

/-- amo.maxn (R170). -/
def execAmoMaxn (w32 : Bool) (rd ra rb : Reg) (scope : BitVec 3) (s : State) : Out :=
  amoExec s w32 rd ra rb scope (fun _ old v _ => max old v)

/-- amo.swap (R170). -/
def execAmoSwap (w32 : Bool) (rd ra rb : Reg) (scope : BitVec 3) (s : State) : Out :=
  amoExec s w32 rd ra rb scope (fun _ _ v _ => v)

/-! ## Barrier objects (R171 to R174) -/

/-- The object an instruction names: 32-byte aligned, in scratch or in a page of type MERE; another page is an illegal
operand value (R164). -/
def State.barAddr (s : State) (f : Nat) (x : Fen) (ea : Word) (acc : Acc) : Except State (Res Phys) :=
  match s.prepAddr f x ea 32 acc with
  | .ok (.ok ph s) =>
    if ph.typ = .scratch ∨ ph.typ = .mere then .ok (.ok ph s) else .error (s.abortTrap f 2 ea)
  | r => r

/-- The 32 bytes binit writes (R171). -/
def binitBytes (exparr scope : Nat) (clamped : Bool) : List Byte :=
  ({ phase := false, arr := exparr, tx := 0, init := true, scope := scope, exparr := exparr, cur := clampBit clamped,
     last := 0, phases := 0 } : Bar).toBytes []

/-- binit (R171): writes the whole object at commit, without evaluation. -/
def execBinit (ra rb : Reg) (scope : BitVec 3) (s : State) : Out :=
  onCore s (fun f x =>
    let ea := x.core.get ra
    let n := (x.core.get rb).toNat
    let e := s.effScope x scope.toNat
    if n = 0 ∨ 2 ^ 16 ≤ n then s.abortTrap f 2 (x.core.get rb)
    else match s.barAddr f x ea .rmw with
      | .error s => s
      | .ok (.wait s) => s
      | .ok (.fault _ s) => s.abortTrap f 6 ea
      | .ok (.ok ph s) =>
        s.updCore f (fun c => ((c.defer (.binit ph (binitBytes n e.1 e.2))).orStat (clampBit e.2)).adv))

/-- barv (R172): a non-revocable arrival and release; rd receives the phase before the arrival's evaluation. -/
def execBarv (rd ra : Reg) (s : State) : Out :=
  nrExec s
    (fun f x =>
      let ea := x.core.get ra
      match s.barAddr f x ea .rmw with
      | .error s => s
      | .ok (.wait s) => s
      | .ok (.fault _ s) => s.abortTrap f 6 ea
      | .ok (.ok ph s) => s.prepared f ⟨ea, 0, 0, ph, 0, [], [], 0⟩)
    (fun f x p =>
      let b := s.bar p.ph.key
      let clamp := clampBit (s.effScope x b.scope).2
      let fin : State → State := fun s => s.updCore f (fun c => c.performed (some rd) (Word.ofBool b.phase) clamp)
      match s.barq with
      | some l =>
        -- its arrival is of the cycle in progress, whose end answers it (R30)
        if l.any (fun u => u.core.any (fun q => q.1 == f)) then s
        else (s.barUpdate p.ph 0 (x.core.stat ||| clamp) true x.anchor 254 (some (f, clamp))).getD (fin s)
      | none => fin ((s.barUpdate p.ph 0 (x.core.stat ||| clamp) true x.anchor 254 none).getD s))

/-- A barv in a cycle's updates has its phase. -/
def State.barvDone (s : State) (f : Nat) (phase : Bool) (clamp : BitVec 32) : State :=
  s.updCore f (fun c => match (c.words[c.nrix]?).map (fun w => decodeScalar w.toNat) with
    | some (.ok (.barv rd _)) => c.performed (some rd) (Word.ofBool phase) clamp
    | _ => c)

/-- The cycle in which barrier objects collect updates ends, or one begins (R30). -/
def State.barCycleTurn (s : State) (on : Bool) : State :=
  match s.barq with
  | none => if on then { s with barq := some [] } else s
  | some l =>
    if on then s
    else
      let r := { s with barq := none }.barCycles l.length l
      r.1.foldl (fun s q => match q.1.core with
        | some c => s.barvDone c.1 q.2 c.2
        | none => s) r.2

/-- bexp (R173): a non-revocable expect of g[rb][31:0] bytes. -/
def execBexp (ra rb : Reg) (s : State) : Out :=
  nrExec s
    (fun f x =>
      let ea := x.core.get ra
      if 2 ^ 32 ≤ (x.core.get rb).toNat then s.abortTrap f 2 (x.core.get rb)
      else match s.barAddr f x ea .rmw with
        | .error s => s
        | .ok (.wait s) => s
        | .ok (.fault _ s) => s.abortTrap f 6 ea
        | .ok (.ok ph s) => s.prepared f ⟨ea, x.core.get rb, 0, ph, 0, [], [], 0⟩)
    (fun f x p =>
      ((s.barUpdate p.ph p.b.toNat x.core.stat false x.anchor 254 none).getD s).updCore f (fun c => c.performed none 0 0))

/-- bwait (R174): waits while PHASE equals the phase it names, then acquires and reads LASTSTAT. -/
def execBwait (rd ra rb : Reg) (scope : BitVec 3) (s : State) : Out :=
  onCore s (fun f x =>
    let ea := x.core.get ra
    let q := (x.core.get rb).toNat
    let e := s.effScope x scope.toNat
    if 2 ≤ q then s.abortTrap f 2 (x.core.get rb)
    else match s.barAddr f x ea .rmw with
      | .error s => s
      | .ok (.wait s) => s
      | .ok (.fault _ s) => s.abortTrap f 6 ea
      | .ok (.ok ph s) =>
        let b := s.bar ph.key
        if !b.init then s.abortTrap f 2 ea
        else if b.phase == (q == 1) then s
        else s.updCore f (fun c =>
          (((c.acquire e.1).put rd (b.last.zeroExtend 64)).orStat (clampBit e.2)).adv))

end Sys2Proof.Machine
end

