-- ==== Sys2Proof/Machine/Queue.lean ====
section
/-! DEFINITION. The queue instructions (R175 to R180): their preparation here, their claims judged by GRANT (Block.lean),
their operations performed at the home controller once granted. -/
namespace Sys2Proof.Machine

/-- The QCB address an instruction names: 64-byte aligned (cause 4) and global (cause 10). -/
def State.qcbAddr (s : State) (f : Nat) (x : Fen) (ea : Word) (acc : Acc) : Except State (Res Phys) :=
  match addrCheck x ea 64 false with
  | .error cause => .error (s.abortTrap f cause ea)
  | .ok (.global va) => .ok (s.xlateQcb x (coreReq f x) acc va)
  | .ok _ => .error (s.abortTrap f 10 ea)

/-- The places of an element's 8-byte pieces from an address (R176): each piece passes the checks of R150. -/
def State.elemPieces (s : State) (f : Nat) (x : Fen) (ea : Word) (acc : Acc) : Nat → Except State (Res (List Phys))
  | 0 => .ok (.ok [] s)
  | n + 1 =>
    match s.prepAddr f x ea 8 acc with
    | .error s => .error s
    | .ok (.wait s) => .ok (.wait s)
    | .ok (.fault y s) => .ok (.fault y s)
    | .ok (.ok ph s) =>
      match s.elemPieces f x (ea + 8#64) acc n with
      | .error s => .error s
      | .ok (.ok r s) => .ok (.ok (ph :: r) s)
      | .ok (.wait s) => .ok (.wait s)
      | .ok (.fault y s) => .ok (.fault y s)

/-- The preparation of qenq, qdeq, qtenq and qtdeq (R176). A piece of the element that a check of R150 refuses saves its own address
in csr.trapval, one whose page does not translate g[rb] (DESIGN CHOICE, log entry 161). -/
def State.qPrep (s : State) (f : Nat) (x : Fen) (ra rb : Reg) (enq : Bool) : State :=
  let qa := x.core.get ra
  let ea := x.core.get rb
  match s.qcbAddr f x qa .rmw with
  | .error s => s
  | .ok (.wait s) => s
  | .ok (.fault _ s) => s.abortTrap f 6 qa
  | .ok (.ok ph s) =>
    let z := Qcb.esz8 (s.qcb ph.key)
    let n := if 1 ≤ z ∧ z ≤ 512 then z else 1
    if s.behind (coreReq f x) ph.key 64 then s
    else match s.elemPieces f x ea (if enq then .read else .write) n with
    | .error s => s
    | .ok (.wait s) => s
    | .ok (.fault _ s) => s.abortTrap f 6 ea
    | .ok (.ok el s) => (s.updCore f (fun c => c.dropLines ph.key 64)).prepared f ⟨qa, ea, 0, ph, n, el, [], 0⟩

/-- The status of qtenq and qtdeq (R176): SEEPKEY and CODE. -/
def qtStatus (q : Qcb) (code : Nat) : Word := BitVec.ofNat 64 (kiScore (Qcb.seep q) * 2 ^ 32 + code)

/-- The granted operation of qenq, qdeq, qtenq and qtdeq: one step of R39. -/
def State.qPerform (s : State) (f : Nat) (x : Fen) (p : Prep) (enq : Bool) (rd : Option Reg) : State :=
  let q := s.qcb p.ph.key
  let clamp := clampBit (s.effScope x (Qcb.scope q)).2
  if Qcb.stuck q enq then s.updCore f (fun c => c.performed rd (qtStatus q 1) clamp)
  else
    let h := x.carrier x.anchor
    let slot := s.slotPhys q x.asid x.part h ((if enq then Qcb.tail q else Qcb.head q) % Qcb.cap q)
    let leaf := if enq then s.slotLeaves q x.asid x.part h (Qcb.tail q % Qcb.cap q) else []
    match s.unsnooped (coreReq f x) p.ph (slot ++ p.elem ++ leaf) with
    | .wait s | .fault _ s => s
    | .ok _ s =>
      (s.qMove p.ph x.asid x.part h enq p.elem).updCore f (fun c =>
        let c := (slot ++ p.elem).foldl (fun c r => c.dropLines r.key 8) (c.dropLines p.ph.key 64)
        (if enq then c else c.acquire (s.effScope x (Qcb.scope q)).1).performed rd (qtStatus q 0) clamp)

/-- qenq (R176). -/
def execQenq (ra rb : Reg) (s : State) : Out :=
  nrExec s (fun f x => s.qPrep f x ra rb true) (fun f x p => s.qPerform f x p true none)

/-- qdeq (R176). -/
def execQdeq (ra rb : Reg) (s : State) : Out :=
  nrExec s (fun f x => s.qPrep f x ra rb false) (fun f x p => s.qPerform f x p false none)

/-- qtenq (R176): performs nothing on a full queue, with code 1. -/
def execQtenq (rd ra rb : Reg) (s : State) : Out :=
  nrExec s (fun f x => s.qPrep f x ra rb true) (fun f x p => s.qPerform f x p true (some rd))

/-- qtdeq (R176): performs nothing on an empty queue, with code 1. -/
def execQtdeq (rd ra rb : Reg) (s : State) : Out :=
  nrExec s (fun f x => s.qPrep f x ra rb false) (fun f x p => s.qPerform f x p false (some rd))

/-- A template qinit refuses (R178). -/
def State.templateBad (s : State) (x : Fen) (t : Qcb) : Bool :=
  decide (Qcb.cap t < 1 ∨ 2 ^ 24 < Qcb.cap t) || decide (Qcb.esz8 t < 1 ∨ 512 < Qcb.esz8 t) || Qcb.base t % 64 != 0 ||
  decide (6 ≤ Qcb.scope t) || decide (2 ^ 48 ≤ Qcb.base t) ||
  (Qcb.pages t).any (fun p => (s.lookup x.asid x.part (x.carrier x.anchor) .rmw p).isNone)

/-- The QCB qinit writes from a template (R178). -/
def qinitQcb (t : Qcb) (asid die : Nat) : Qcb :=
  Qcb.seal (BitVec.ofNat 512 (Qcb.base t + Qcb.cap t * 2 ^ 128 + Qcb.esz8 t * 2 ^ 160 + b2n (Qcb.blk t) * 2 ^ 176 +
    b2n (Qcb.mdie t) * 2 ^ 177 + die * 2 ^ 180 + Qcb.scope t * 2 ^ 182 + Qcb.cap t * 2 ^ 192 +
    0xFF80_0000 * 2 ^ 320 + 0xFFFF_FFFF * 2 ^ 352 + asid * 2 ^ 384))

/-- The template's 64 bytes, in scratch or in global memory. -/
def State.readTemplate (s : State) (f : Nat) (x : Fen) (ea : Word) (n : Nat) : Except State (Res (List Byte)) :=
  match addrCheck x ea n false with
  | .error cause => .error (s.abortTrap f cause ea)
  | .ok (.scratch t o) => .ok ((s.loadScratch f x t o n).bind (fun r s => .ok r.1 s))
  | .ok (.global va) =>
    .ok ((s.loadHome f x va n).bind (fun r s => .ok r.1 (s.updCore f (fun c =>
      { c with dcache := c.dcache.filter (fun l => l.va != va / 64 * 64) }))))
  | .ok _ => .error s

/-- qinit (R178): preparation reads and checks the template; the controller writes the whole QCB and wakes every
waiter. -/
def execQinit (ra rb : Reg) (s : State) : Out :=
  nrExec s
    (fun f x =>
      let qa := x.core.get ra
      let ea := x.core.get rb
      match s.qcbAddr f x qa .rmw with
      | .error s => s
      | .ok (.wait s) => s
      | .ok (.fault _ s) => s.abortTrap f 6 qa
      | .ok (.ok ph s) =>
        match s.readTemplate f x ea 64 with
        | .error s => s
        | .ok (.wait s) => s
        | .ok (.fault _ s) => s.abortTrap f 6 ea
        | .ok (.ok bs s) =>
          if s.templateBad x (Qcb.ofBytes bs) then s.abortTrap f 2 ea
          else s.prepared f ⟨qa, ea, 0, ph, 0, [], bs, 0⟩)
    (fun f x p =>
      let old := s.qcb p.ph.key
      let s := s.putQcb p.ph (qinitQcb (Qcb.ofBytes p.bytes) x.asid (homeDie p.ph.key))
      let s := s.wake p.ph.key (Qcb.wne old ||| Qcb.wnf old)
      s.updCore f (fun c => (c.dropLines p.ph.key 64).performed none 0 0))

/-- OCC of qstat: of a QCB whose CAP is 0 the rule gives no occupancy, and the value is free. -/
def State.qstatOcc (s : State) (q : Qcb) : Nat × State :=
  if Qcb.cap q = 0 then (Config.freeNat s.free, { s with free := s.free + 1 }) else (Qcb.occ q, s)

/-- qstat (R179): one indivisible read of the QCB. -/
def execQstat (rd ra : Reg) (s : State) : Out :=
  onCore s (fun f x =>
    let qa := x.core.get ra
    match s.qcbAddr f x qa .rmw with
    | .error s => s
    | .ok (.wait s) => s
    | .ok (.fault _ s) => s.abortTrap f 6 qa
    | .ok (.ok ph s) =>
      match (s.present (coreReq f x) ph 64).bind (fun _ s => s.charge (coreReq f x) ph 0) with
      | .wait s => s
      | .fault _ s => s
      | .ok _ s =>
        let q := s.qcb ph.key
        let occ := s.qstatOcc q
        let v := b2n (s.qcbValid q x.asid x.part (x.carrier x.anchor) ph.key) * 2 ^ 63 + b2n (Qcb.flt q) * 2 ^ 62 +
          b2n (s.qcbFrozen q || Qcb.frz q) * 2 ^ 61 + b2n (Qcb.mdie q) * 2 ^ 60 + b2n (Qcb.blk q) * 2 ^ 59 +
          Qcb.home q * 2 ^ 57 + occ.1 % 2 ^ 25 * 2 ^ 32 + kiScore (Qcb.seep q)
        if s.behind (coreReq f x) ph.key 64 then s
        else occ.2.updCore f (fun c => ((c.dropLines ph.key 64).put rd (BitVec.ofNat 64 v)).adv))

/-- qdrain (R180): HEAD := TAIL, FREE := CAP, waiters for not-full are woken. -/
def execQdrain (ra : Reg) (s : State) : Out :=
  nrExec s
    (fun f x =>
      let qa := x.core.get ra
      match s.qcbAddr f x qa .rmw with
      | .error s => s
      | .ok (.wait s) => s
      | .ok (.fault _ s) => s.abortTrap f 6 qa
      | .ok (.ok ph s) => s.prepared f ⟨qa, 0, 0, ph, 0, [], [], 0⟩)
    (fun f _ p =>
      let q := s.qcb p.ph.key
      let q1 := Qcb.seal (Qcb.set (Qcb.set (Qcb.set q 95 64 (Qcb.tail q)) 223 192 (Qcb.cap q)) 287 272 0)
      ((s.putQcb p.ph q1).wake p.ph.key (Qcb.wnf q)).updCore f (fun c => (c.dropLines p.ph.key 64).performed none 0 0))

end Sys2Proof.Machine
end

