-- ==== Sys2Proof/Machine/Ring.lean ====
section
/-! DEFINITION. The ring instructions of the scalar stream (R181, R182): rwfill, rwfree, rpop, rpush, rset, rget. -/
namespace Sys2Proof.Machine

/-- A ring effect of a block as its commit performs it. -/
def State.ringEff (s : State) (f : Nat) (e : Eff) : State :=
  let m := ((s.fens[f]?).map Fen.cur).getD 0
  match e with
  | .rpop h n => s.ringAdvance f m h n true
  | .rpush h n => s.ringAdvance f m h n false
  | .rset h d => s.setRing f m h d
  | _ => s

/-- The state as the block's earlier ring instructions leave the ring tables (R132): what a later ring instruction of
the block is tested against. -/
def State.ringView (s : State) (f : Nat) (c : Core) : State := c.effs.foldl (fun s e => s.ringEff f e.2) s

/-- The checks every ring instruction makes first (R27, R181): the descriptor, the side, the count. One that fails on a descriptor
that an earlier rset of its block left stops the ring of the table (DESIGN CHOICE, log entry 167). -/
def ringInstr (s : State) (h : BitVec 5) (cnt : BitVec 15) (cons : Bool) (k : Nat → Fen → State → Ring → State) : Out :=
  onCore s (fun f x =>
    let v := s.ringView f x.core
    let y := (v.fens[f]?).getD x
    let d := y.ring h.toNat
    if Ring.flt d then s.abortTrap f 5 (h.zeroExtend 64)
    else if !y.ringOk d then (s.ringFault f x.cur h.toNat x.anchor 0).abortTrap f 5 (h.zeroExtend 64)
    else if (if cons then Ring.cons d else Ring.prod d) ≠ 0 then s.abortTrap f 5 (h.zeroExtend 64)
    else if Ring.n d < cnt.toNat then s.abortTrap f 2 (cnt.zeroExtend 64)
    else k f y v d)

/-- The scratch address of the slot an index names. -/
def Fen.slotAddr (x : Fen) (d : Ring) (i : Nat) : Word :=
  x.scratchAddr ((x.ringTile d).getD x.anchor) (Ring.slot d i)

/-- rwfill (R181): waits for count filled slots; rd := the address of the head slot. -/
def execRwfill (rd : Reg) (h : BitVec 5) (cnt : BitVec 15) (s : State) : Out :=
  ringInstr s h cnt true (fun f x v d =>
    if v.ringFilled x d cnt.toNat then s.updCore f (fun c => (c.put rd (x.slotAddr d (Ring.head d))).adv) else s)

/-- rwfree (R181): waits for count free slots; rd := the address of slot TAIL mod n. -/
def execRwfree (rd : Reg) (h : BitVec 5) (cnt : BitVec 15) (s : State) : Out :=
  ringInstr s h cnt false (fun f x v d =>
    if v.ringFree x d cnt.toNat then s.updCore f (fun c => (c.put rd (x.slotAddr d (Ring.tail d))).adv) else s)

/-- rpop (R181): waits as rwfill; pops at commit. -/
def execRpop (h : BitVec 5) (cnt : BitVec 15) (s : State) : Out :=
  ringInstr s h cnt true (fun f x v d =>
    if v.ringFilled x d cnt.toNat then s.updCore f (fun c => (c.defer (.rpop h.toNat cnt.toNat)).adv) else s)

/-- rpush (R181): waits for room, whatever the tags; fills at commit. -/
def execRpush (h : BitVec 5) (cnt : BitVec 15) (s : State) : Out :=
  ringInstr s h cnt false (fun f _ _ d =>
    if Ring.occ d + cnt.toNat ≤ Ring.n d then s.updCore f (fun c => (c.defer (.rpush h.toNat cnt.toNat)).adv) else s)

/-- rset (R182): reads and checks a descriptor, whose failure is trap cause 5 alone; the entry is replaced at commit with FLT clear and its reserved fields zero (R3, R24). -/
def execRset (h : BitVec 5) (ra : Reg) (s : State) : Out :=
  onCore s (fun f x =>
    let ea := x.core.get ra
    let finish : State → List Byte × BitVec 32 → State := fun s r =>
      let d := Ring.written (BitVec.ofNat 256 (leNat r.1))
      if Ring.v d && !x.ringFields d then
        s.abortTrap f 5 (h.zeroExtend 64)
      else s.updCore f (fun c => ((c.defer (.rset h.toNat d)).orStat r.2).adv)
    match addrCheck x ea 32 false with
    | .error cause => s.abortTrap f cause ea
    | .ok (.scratch t o) =>
      match s.loadScratch f x t o 32 with
      | .ok r s => finish s r
      | .wait s | .fault _ s => s
    | .ok (.global va) =>
      match s.loadGlobal f x va 32 with
      | .ok r s => finish s r
      | .wait s => s
      | .fault _ s => s.abortTrap f 6 ea
    | .ok _ => s)

/-- rget (R182): snapshots entry k with its hardware HEAD and TAIL; stores the 32 bytes at commit. -/
def execRget (h : BitVec 5) (ra : Reg) (s : State) : Out :=
  onCore s (fun f x =>
    let ea := x.core.get ra
    let bs := toLE 32 (x.ring h.toNat).toNat
    match addrCheck x ea 32 false with
    | .error cause => s.abortTrap f cause ea
    | .ok (.scratch t o) => s.updCore f (fun c => (c.defer (.store (scratchPhys t o) ea.toNat bs)).adv)
    | .ok (.global va) =>
      match s.xlateFor x (coreReq f x) .write va with
      | .ok ph s => s.updCore f (fun c => (c.defer (.store ph va bs)).adv)
      | .wait s => s
      | .fault _ s => s.abortTrap f 6 ea
    | .ok _ => s)

end Sys2Proof.Machine
end

