-- ==== Sys2Proof/Machine/Sys.lean ====
section
/-! DEFINITION. Control registers (R15 to R18, R185), trap, tret, wfe, sev (R186 to R188), cache maintenance (R189),
issue (R183). -/
namespace Sys2Proof.Machine

/-! ## Control registers -/

/-- csr.fenstat (R16) as a block sees it: its own csrw clears are applied to STATUS. -/
def Fen.fenstat (x : Fen) (frozen : Bool) : Word :=
  BitVec.ofNat 64 ((if frozen then 5 else x.state) * 2 ^ 56 + min x.dropped 0xFFFF * 2 ^ 32 +
    (x.status &&& ~~~x.core.clr).toNat)

/-- csr.fenid (R18). -/
def Fen.fenid (x : Fen) : Word :=
  BitVec.ofNat 64 (x.die * 2 ^ 40 + x.row0 * 2 ^ 32 + x.col0 * 2 ^ 24 + x.height * 2 ^ 16 + x.width)

/-- The value of a control register other than csr.cycle; an unassigned number reads zero (R15). -/
def State.csrRead (s : State) (x : Fen) (n : Nat) : Word :=
  let c := x.core
  if n = 0x000 then x.fenstat (s.fenFrozen x) else if n = 0x001 then x.fenid
  else if n = 0x002 then BitVec.ofNat 64 x.asid else if n = 0x003 then BitVec.ofNat 64 x.fn
  else if n = 0x004 then BitVec.ofNat 64 x.cur else if n = 0x005 then c.seq
  else if n = 0x006 then c.argp else if n = 0x007 then c.complw
  else if 0x008 ≤ n ∧ n ≤ 0x00F then ((c.lix[n - 8]?).getD 0#32).zeroExtend 64
  else if n = 0x010 then c.locRm.zeroExtend 64 else if n = 0x011 then BitVec.ofNat 64 (s.scopeCap x)
  else if n = 0x018 then c.locVec else if n = 0x019 then c.trapcause else if n = 0x01A then c.trapblk
  else if n = 0x01B then c.trapval else if n = 0x01C then c.trapidx else 0#64

/-- The numbers that R15 assigns. -/
def csrAssigned (n : Nat) : Bool :=
  decide (n ≤ 0x011) || decide (0x018 ≤ n ∧ n ≤ 0x01C) || n == 0x020

/-- A write's block-local effect (R185): W1C bits of STATUS, csr.rm, csr.trapvec; read-only registers ignore it. -/
def Core.csrWrite (c : Core) (n : Nat) (v : Word) : Core :=
  if n = 0x000 then { c with clr := c.clr ||| v.truncate 16 }
  else if n = 0x010 then { c with locRm := v.truncate 2 }
  else if n = 0x018 then { c with locVec := v &&& ~~~0x3F#64 }
  else c

/-- Reads a control register: csr.cycle lets the cycles pass that its reading takes (R11, R15), a free number. -/
def State.csrValue (s : State) (x : Fen) (n : Nat) : Word × State :=
  if n = 0x020 then
    let s := { s.tick (Config.freeDelay s.free).toNat with free := s.free + 1 }
    (BitVec.ofNat 64 (s.cycle - x.lag), s)
  else (s.csrRead x n, s)

/-- csrr (R185). -/
def execCsrr (rd : Reg) (csr : BitVec 12) (s : State) : Out :=
  onCore s (fun f x =>
    let r := s.csrValue x csr.toNat
    r.2.updCore f (fun c => (c.put rd r.1).adv))

/-- csrw (R185): a write of an unassigned number is an illegal instruction (R15). -/
def execCsrw (csr : BitVec 12) (ra : Reg) (s : State) : Out :=
  onCore s (fun f x =>
    if !csrAssigned csr.toNat then s.abortTrap f 2 x.core.word
    else s.updCore f (fun c => (c.csrWrite csr.toNat (c.get ra)).adv))

/-- csrx (R185): the old value to rd, then the write. -/
def execCsrx (rd ra : Reg) (csr : BitVec 12) (s : State) : Out :=
  onCore s (fun f x =>
    if !csrAssigned csr.toNat then s.abortTrap f 2 x.core.word
    else
      let r := s.csrValue x csr.toNat
      r.2.updCore f (fun c => ((c.csrWrite csr.toNat (c.get ra)).put rd r.1).adv))

/-! ## Traps and events -/

/-- trap (R186): cause 9 with its code; the block aborts. -/
def execTrap (code : BitVec 10) (s : State) : Out :=
  onCore s (fun f _ => s.abortTrap f 9 (code.zeroExtend 64))

/-- tret (R187): an exit to the block at csr.trapblk. -/
def execTret (s : State) : Out :=
  onCore s (fun f _ => s.updCore f Core.trapReturn)

/-- The cycles after which wfe completes (R188). -/
def wfeLimit : Nat := 65536

/-- wfe (R188): completes when the event flag is set or 65,536 cycles have passed; the flag is cleared at commit. -/
def execWfe (s : State) : Out :=
  onCore s (fun f x =>
    let since := x.core.wfe.getD s.cycle
    if x.core.flag || decide (since + wfeLimit ≤ s.cycle) then
      s.updCore f (fun c => { c.defer .clearFlag with wfe := none }.adv)
    else s.updCore f (fun c => { c with wfe := some since }))

/-- sev (R188): sets the flags at commit. -/
def execSev (s : State) : Out :=
  onCore s (fun f _ => s.updCore f (fun c => (c.defer .sev).adv))

/-! ## Cache maintenance (R189) -/

/-- Whether the 64-byte line at v meets a to a+l−1; every line does when l is 0. -/
def lineMeets (a l v : Nat) : Bool := l == 0 || (decide (v < a + l) && decide (a < v + 64))

/-- The check all three make. -/
def cmo (ra rb : Reg) (s : State) (k : Core → Nat → Nat → Core) : Out :=
  onCore s (fun f x =>
    let a := x.core.get ra
    if fld a.toNat 63 48 ≠ 0 then s.abortTrap f 10 a
    else s.updCore f (fun c => (k c a.toNat (c.get rb).toNat).adv))

/-- dcinv (R189): drops data-cache lines. -/
def execDcinv (ra rb : Reg) (s : State) : Out :=
  cmo ra rb s (fun c a l => { c with dcache := c.dcache.filter (fun e => !lineMeets a l e.va) })

/-- A write-through of the core to a line of a range has not been performed. -/
def State.writingTo (s : State) (f a l : Nat) : Bool :=
  s.net.packets.any (fun p => p.src.fen == some f && p.src.srck == 0 && (match p.load with
    | .write _ va _ => lineMeets a l (va / 64 * 64)
    | _ => false))

/-- dcdrain (R189): waits until every write-through of earlier blocks to the lines has been performed. -/
def execDcdrain (ra rb : Reg) (s : State) : Out :=
  onCore s (fun f x =>
    let a := x.core.get ra
    if fld a.toNat 63 48 ≠ 0 then s.abortTrap f 10 a
    else if s.writingTo f a.toNat (x.core.get rb).toNat then s
    else s.updCore f Core.adv)

/-- icinv (R189): drops fetch blocks at commit. -/
def execIcinv (ra rb : Reg) (s : State) : Out := cmo ra rb s (fun c a l => c.defer (.icinv a l))

/-! ## issue (R183) -/

/-- The command of an issue (R92): g[rb] above g[ra]. -/
def Core.command (c : Core) (ra rb : Reg) : BitVec 128 := c.get rb ++ c.get ra

/-- A place no storage lies at: what a launch's preparation names. -/
def noPhys : Phys := ⟨.scratch, 2 ^ 62, 0, 0, 0, 0⟩

/-- The opcode of launch (R98). -/
def opcLaunch : Nat := 0x41

/-- issue (R183): the command enters its port at commit, in program order. A launch is the block's non-revocable
instruction; one that NRIX does not name aborts the block with cause 3. -/
def execIssue (ra rb : Reg) (s : State) : Out :=
  onCore s (fun f x =>
    let c := x.core
    let w := c.command ra rb
    if c.phase = .granted then s.updCore f (fun c => c.performed none 0 0)
    else if fld w.toNat 127 120 ≠ opcLaunch then s.updCore f (fun c => (c.defer (.cmd w)).adv)
    else if !c.nrv || c.nrix != c.idx then
      ({ s with free := s.free + 1 }).abortTrap f 3 (Config.freeWord s.free)
    else (s.updCore f (fun c => c.defer (.cmd w))).prepared f ⟨0, 0, 0, noPhys, 0, [], [], 0⟩)

end Sys2Proof.Machine
end

