-- ==== Sys2Proof/Machine/Port.lean ====
section
/-! DEFINITION. Command ports: which port a command names (R95), acceptance and its checks (R99), room (R100), order at
a port (R192 to R194, R208), delivery of completions (R195), and the runner every engine's meaning goes through. -/
namespace Sys2Proof.Machine

/-! ## Ports (R95) -/

/-- The port kinds of R98. -/
inductive PortKind where
  | ag | gs | qp | node | fc
  deriving DecidableEq, Repr

/-- The kind of a slot's port. -/
def portKind (slot : Nat) : Option PortKind :=
  if slot ≤ 12 then some .node else if 16 ≤ slot ∧ slot ≤ 19 then some .ag else if 20 ≤ slot ∧ slot ≤ 21 then some .gs
  else if slot = 22 then some .qp else none

/-- The kind of a port. -/
def PortKey.kind : PortKey → Option PortKind
  | .fc => some .fc
  | .slot _ s _ => portKind s

/-- The port an entry of a command-port table names (R108 part 2). -/
def Fen.entryKey (x : Fen) (e : Nat) : Option PortKey :=
  let d := fld e 31 21; let slot := fld e 20 13; let inp := fld e 12 11
  if bit d 10 then
    (if slot < 16 then none else (x.mpts[fld d 3 0]?).map (fun t => .slot t slot inp))
  else if 12 < slot then none else (x.desig x.anchor d).map (fun t => .slot t slot inp)

/-- The port a PORT value names in the current mantle; none when R95 fails. -/
def Fen.portKey (x : Fen) (port : Nat) : Option PortKey :=
  if port = 127 then some .fc
  else match x.mantle with
    | none => none
    | some m => match m.ports[port]? with
      | none => none
      | some e => match x.entryKey e.toNat with
        | some k => if k.kind.isSome then some k else none
        | none => none

/-- The port of a command word. -/
def Fen.cmdPort (x : Fen) (w : BitVec 128) : Option PortKey := x.portKey (fld w.toNat 114 108)

/-- The commands held at a port. -/
def Fen.cmdsAt (x : Fen) (k : PortKey) : List Cmd :=
  match x.ports.find? (fun p => p.key == k) with
  | some p => p.cmds
  | none => []

/-- The places of a port that commands not yet begun hold (R100). -/
def Fen.waitingAt (x : Fen) (k : PortKey) : Nat := (x.cmdsAt k).countP (fun c => !c.begun && !c.done)

/-- Every port that a block's commands name has room for them all (R100); a launch's own place is its claim's. -/
def Fen.roomFor (x : Fen) (ws : List (BitVec 128)) : Bool :=
  ws.all (fun w => match x.cmdPort w with
    | none => true
    | some k => decide (x.waitingAt k + ws.countP (fun v => x.cmdPort v == some k) ≤ 8))

/-- The tile and slot of a port, as records name its source. -/
def Fen.portPlace (x : Fen) : PortKey → Tile × Nat
  | .fc => (x.anchor, 0)
  | .slot t s _ => (t, s)

/-- The engine of a port as a requester (R320). -/
def Fen.portReq (x : Fen) (f : Nat) (k : PortKey) (port elem num : Nat) : Req :=
  match k with
  | .fc => ⟨some f, 3, x.anchor, 0, 0, elem, num⟩
  | .slot t s _ => ⟨some f, 2, t, s, port, elem, num⟩

/-! ## Acceptance (R99) -/

/-- The target of a completion is one that can be named: CKIND 1 within the fen, CKIND 2 a present entry. -/
def Fen.ctOk (x : Fen) : CTarget → Bool
  | .none => true
  | .scratch _ d _ => (x.desig x.anchor d.toNat).isSome
  | .table _ e => match x.mantle with
    | some m => decide (e.toNat < m.bars.length)
    | none => false

/-- The target a rejected command still notifies (R99). -/
def Fen.rejectCt (x : Fen) (w : Nat) : CTarget :=
  let t : CTarget := if fld w 95 94 = 1 then .scratch (bit w 93) (bv 11 82 w) (bv 14 64 w)
    else if fld w 95 94 = 2 then .table (bit w 93) (bv 6 64 w) else .none
  if x.ctOk t then t else .none

/-- A conversion between formats that a copy can make (R199): the destination is not CF8, KI pairs with itself, and a
CF8 source needs `cf8` and an e4m3 destination. -/
def copyFmts (src dst : Fmt) (cf8 : Bool) : Bool :=
  dst != .cf8 && ((src == .ki) == (dst == .ki)) && (src != .cf8 || (cf8 && dst == .e4m3))

/-- The size of an element where it lands: CF8 lands as e4m3 bytes. -/
def landSize (f : Fmt) : Nat := if f = .cf8 then 1 else Fmt.esize f

/-- The TID entry of a ring, when the command may use it: the descriptor valid, the side the engine's (R99, R200). -/
def State.ringTid (s : State) (x : Fen) (h : Nat) (prod : Bool) : Option Tensor :=
  let d := x.ring h
  if !x.ringOk d || (if prod then Ring.prod d else Ring.cons d) != 2 then none
  else s.goodTensor x.asid (Ring.tid d)

/-- The elements of a row (R205): the sub-tensor with the index of dimension RANK−1 fixed. -/
def Tensor.rowCount (t : Tensor) : Nat := Tensor.count t / Tensor.size t (Tensor.rank t - 1)
/-- The pitch of rows in scratch. -/
def Tensor.rowPitch (t : Tensor) : Nat := ceilDiv (Tensor.rowCount t * landSize (Tensor.fmt t)) 16 * 16

/-- The formats of copyred, mred, matom's add and maxpy (R204, R211 to R213). -/
def redFmts : List Fmt := [.f64, .f32, .bf16, .f16, .i32, .i64]

/-- A dense tensor: SD0 1, each stride the product of the sizes below it (R211). -/
def Tensor.dense (t : Tensor) : Bool :=
  (upto 0 (Tensor.rank t)).all (fun k =>
    Tensor.sd t k == (((upto 0 k).foldl (fun a j => a * Tensor.dim t j) 1 : Nat) : Int))

/-- The pages a run of bytes reaches. -/
def pagesOf (a n : Nat) : List Nat := (upto (a / 4096) ((a + n - 1) / 4096 + 1 - a / 4096)).map (· * 4096)

/-- No page of a run translates to a type other than MERE. -/
def State.allMere (s : State) (x : Fen) (h : Tile) (a n : Nat) : Bool :=
  (pagesOf a n).all (fun p => match s.lookup x.asid x.part h .rmw p with
    | some ph => ph.typ == .mere
    | none => true)

/-- The bytes of a dense tensor. -/
def Tensor.bytes (t : Tensor) : Nat := Tensor.count t * Fmt.esize (Tensor.fmt t)

/-- The operations of matom and the formats each admits (R212). -/
def matomOk (op : Nat) (f : Fmt) : Bool :=
  if op = 0 then redFmts.contains f
  else if op ≤ 2 then (redFmts ++ [Fmt.n32, .n64]).contains f
  else if op ≤ 5 then [Fmt.i32, .i64, .n32, .n64].contains f
  else op == 6 && f != .cf8

/-- Some entry of the current mantle's command-port table names the slot on the tile (R208). -/
def Fen.reaches (x : Fen) (t : Tile) (slot : Nat) : Bool :=
  match x.mantle with
  | none => false
  | some m => m.ports.any (fun e => match x.entryKey e.toNat with
      | some (.slot u sl _) => u == t && sl == slot
      | _ => false)

/-- The slot that bit k of an sbar mask names (R208). -/
def maskSlot (k : Nat) : Nat := 16 + k

/-- The node of the current mantle at a place. -/
def Fen.nodeAt (x : Fen) (t : Tile) (slot : Nat) : Option Node :=
  match x.mantle with
  | none => none
  | some m => m.nodes.find? (fun n => n.tile == t && n.slot == slot)

/-- Whether an input of a node is its threshold input (R215): BOUND and TOPK IN1, SEEPM any input, AGEN IN1. -/
def threshInput (opc inp : Nat) : Bool :=
  (opc == 0x71 && inp == 1) || (opc == 0x72 && inp == 1) || (opc == 0x73) || (opc == 0x6C && inp == 1)

/-- An FP32 pattern is a NaN. -/
def f32Nan (v : Nat) : Bool := fld v 30 23 == 255 && fld v 22 0 != 0

/-- The two tensor entries a command captures (R36). -/
abbrev Captured := BitVec 512 × BitVec 512

/-- A check that captures nothing. -/
def plainCheck (b : Bool) : Option Captured := if b then some (0, 0) else none

/-- A copy's formats, sizes and window (R198 to R202): w the shape, t the target. -/
def copyCheck (w t : Tensor) (o2 o1 o0 : BitVec 16) (isRead cf8 : Bool) : Bool :=
  windowOk w t [o0.toNat, o1.toNat, o2.toNat] isRead && (isRead || !Tensor.wp t) &&
  (if isRead then copyFmts (Tensor.fmt t) (Tensor.fmt w) cf8 else copyFmts (Tensor.fmt w) (Tensor.fmt t) false)

/-- A slot holds the dense elements of a ring's TID entry (R202). -/
def slotHolds (d : Ring) (w : Tensor) : Bool := decide (Tensor.count w * landSize (Tensor.fmt w) ≤ Ring.bytes d)

/-- The checks of a command at its port (R99 and the rules of each opcode): the entries captured, none when it is
invalid. -/
def State.cmdCheck (s : State) (x : Fen) (k : PortKey) (i : Instr) : Option Captured :=
  let kind := k.kind
  let at0 := (x.portPlace k).1
  let good := s.goodTensor x.asid
  let inScratch : BitVec 11 → Nat → Nat → Bool := fun d o n =>
    (x.desig x.anchor d.toNat).isSome && decide (o + n ≤ 0x80000)
  match i with
  | .copy _ th _ _ dst o2 o1 o0 =>
    if kind ≠ some .ag then none else
    match good th.toNat, good dst.toNat with
    | some t, some w => if copyCheck w t o2 o1 o0 true false && !Tensor.wp w then some (t, w) else none
    | _, _ => none
  | .copyr _ h _ _ src o2 o1 o0 =>
    if kind ≠ some .ag then none else
    match s.ringTid x h.toNat true, good src.toNat with
    | some w, some t =>
      if copyCheck w t o2 o1 o0 true true && slotHolds (x.ring h.toNat) w then some (w, t) else none
    | _, _ => none
  | .copyx _ h _ _ dst o2 o1 o0 =>
    if kind ≠ some .ag then none else
    match s.ringTid x h.toNat false, good dst.toNat with
    | some w, some t =>
      if copyCheck w t o2 o1 o0 false false && slotHolds (x.ring h.toNat) w then some (w, t) else none
    | _, _ => none
  | .copyred _ th _ _ dst op o1 o0 =>
    if kind ≠ some .ag then none else
    match good th.toNat, good dst.toNat with
    | some t, some w =>
      let first := s.lookup x.asid x.part at0 .rmw (Tensor.base w)
      if op != 3#2 && (redFmts ++ [Fmt.n32, .n64]).contains (Tensor.fmt w) && !Tensor.wp w &&
         copyCheck w t 0#16 o1 o0 true false && !(first.any (fun ph => ph.typ.leaves)) then some (t, w) else none
    | _, _ => none
  | .gather _ th d ro io nm1 n32 =>
    if kind ≠ some .gs then none else
    match good th.toNat with
    | some t =>
      let n := nm1.toNat + 1
      if (Tensor.fmt t != .cf8 || Tensor.blen t != 0) && inScratch d (16 * ro.toNat) (n * Tensor.rowPitch t) &&
         inScratch d (16 * io.toNat) (n * if n32 then 4 else 2) then some (t, 0) else none
    | none => none
  | .scatter _ th d ro io nm1 n32 =>
    if kind ≠ some .gs then none else
    match good th.toNat with
    | some t =>
      let n := nm1.toNat + 1
      if Tensor.fmt t != .cf8 && !Tensor.wp t && inScratch d (16 * ro.toNat) (n * Tensor.rowPitch t) &&
         inScratch d (16 * io.toNat) (n * if n32 then 4 else 2) then some (t, 0) else none
    | none => none
  | .fill _ th scr d o _ =>
    if kind ≠ some .ag then none else
    match good th.toNat with
    | some t =>
      if Tensor.fmt t != .cf8 && (if scr then inScratch d (16 * o.toNat) (ceilDiv (Tensor.bytes t) 16 * 16)
        else !Tensor.wp t) then some (t, 0) else none
    | none => none
  | .agload _ _ a => plainCheck (kind == some .ag && decide (a.toNat % 64 = 0))
  | .sbar h m =>
    match k with
    | .slot t slot _ =>
      plainCheck (decide (16 ≤ slot) && bit m.toNat (slot - 16) && !h.acq && !h.rel &&
        (upto 0 7).all (fun j => !bit m.toNat j || x.reaches t (maskSlot j)))
    | .fc => none
  | .carrive h => plainCheck (match h.ct with
      | .none => false
      | .scratch a _ _ | .table a _ => a && !h.acq && !h.rel)
  | .cexpect h n => plainCheck (h.ct != .none && !h.acq && !h.rel && decide (1 ≤ n.toNat ∧ n.toNat ≤ 0x7FFFFFFF))
  | .cnop h => plainCheck (!h.acq)
  | .qput _ _ r q => plainCheck (kind == some .qp && x.ringOk (x.ring r.toNat) && Ring.cons (x.ring r.toNat) == 2 &&
      decide (q.toNat % 64 = 0))
  | .qget _ _ r q => plainCheck (kind == some .qp && x.ringOk (x.ring r.toNat) && Ring.prod (x.ring r.toNat) == 2 &&
      decide (q.toNat % 64 = 0))
  | .depdec _ _ n _ => plainCheck (kind == some .fc && n != 0#8)
  | .mred _ th _ _ op d so ix nm1 _ tmo =>
    if kind ≠ some .gs then none else
    match good th.toNat with
    | some t =>
      if op != 3#2 && redFmts.contains (Tensor.fmt t) && Tensor.dense t && decide (Tensor.bytes t ≤ 65536) &&
         !Tensor.wp t && decide (ix.toNat ≤ nm1.toNat) && decide (tmo.toNat ≤ 20) &&
         inScratch d (16 * so.toNat) (Tensor.bytes t) && s.allMere x at0 (Tensor.base t) (Tensor.bytes t)
      then some (t, 0) else none
    | none => none
  | .matom _ th op d so ret ro _ =>
    if kind ≠ some .gs then none else
    match good th.toNat with
    | some t =>
      if matomOk op.toNat (Tensor.fmt t) && !Tensor.wp t && inScratch d (16 * so.toNat) (Tensor.bytes t) &&
         (!ret || inScratch d (16 * ro.toNat) (ceilDiv (Tensor.bytes t) 16 * 16)) &&
         (upto 0 (Tensor.count t)).all (fun n => s.allMere x at0 (Tensor.addr t (Tensor.indexOf t n)) 1)
      then some (t, 0) else none
    | none => none
  | .maxpy _ th _ _ d xo _ =>
    if kind ≠ some .gs then none else
    match good th.toNat with
    | some t =>
      if [Fmt.f64, .f32, .bf16, .f16].contains (Tensor.fmt t) && Tensor.dense t && !Tensor.wp t &&
         inScratch d (16 * xo.toNat) (Tensor.bytes t) && s.allMere x at0 (Tensor.base t) (Tensor.bytes t)
      then some (t, 0) else none
    | none => none
  | .thresh _ v =>
    match k with
    | .slot t slot inp => plainCheck (!f32Nan v.toNat && (x.nodeAt t slot).any (fun n => threshInput n.opc inp))
    | .fc => none
  | .launch h a => plainCheck (kind == some .fc && h.rel && decide (a.toNat % 128 = 0))
  | .mswitch _ m _ => plainCheck (kind == some .fc && ((x.mantles[m.toNat]?).join).isSome && m.toNat != x.cur)
  | .pref _ th | .inval _ th | .flush _ th =>
    if kind ≠ some .ag then none else (good th.toNat).map (fun t => (t, 0))
  | _ => none

/-- The virtual address a CKIND 2 target names, captured with the command. -/
def Fen.ctKey (x : Fen) : CTarget → Nat
  | .table _ e => match x.mantle with
    | some m => ((m.bars[e.toNat]?).getD 0#64).toNat
    | none => 0
  | _ => 0

/-- Puts a command at a port. -/
def Fen.enter (x : Fen) (k : PortKey) (c : Cmd) : Fen :=
  { x with cmdNum := x.cmdNum + 1,
           ports := match findIx (fun p : PortQ => p.key == k) x.ports with
             | some (j, _) => updNth x.ports j (fun p => { p with cmds := p.cmds ++ [c] })
             | none => x.ports ++ [⟨k, [c]⟩] }

/-- A command as it enters its port. -/
def Cmd.fresh (i : Instr) (num : Nat) (osw : BitVec 32) (t : Captured) (key man : Nat) : Cmd :=
  { ins := i, num := num, begun := false, done := false, pos := 0, sub := 0, bytes := 0, osw := osw, ten0 := t.1,
    ten1 := t.2, stage := 0, data := [], raw := [], bad := false, asleep := false, key := key, man := man, early := [] }

/-- The header of a command's term. -/
def cmdHdr : Instr → CmdHdr
  | .copy h .. | .copyr h .. | .copyx h .. | .copyred h .. | .gather h .. | .scatter h .. | .fill h .. | .agload h ..
  | .sbar h .. | .carrive h | .cexpect h .. | .cnop h | .qput h .. | .qget h .. | .depdec h .. | .mred h .. | .matom h ..
  | .maxpy h .. | .thresh h .. | .launch h .. | .mswitch h .. | .pref h .. | .inval h .. | .flush h .. => h
  | _ => ⟨false, false, 0#3, 0#7, .none⟩

/-- A rejected command (R99): it performs nothing and only owes its completion, with CMD_INVALID. -/
def Fen.reject (x : Fen) (w : Nat) : Fen :=
  let ct := x.rejectCt w
  let k := (x.portKey (fld w 114 108)).getD .fc
  let c := Cmd.fresh (.cnop ⟨false, false, 0#3, bv 7 108 w, ct⟩) x.cmdNum Osw.cmdInvalid (0, 0) (x.ctKey ct) x.cur
  x.enter k { c with begun := true, done := true }

/-- A command reaches its port: it is accepted or rejected (R99). -/
def State.acceptCmd (s : State) (f : Nat) (w : BitVec 128) : State :=
  match s.fens[f]? with
  | none => s
  | some x =>
    match decodeCmd w.toNat with
    | .error _ => s.updFen f (fun x => x.reject w.toNat)
    | .ok i =>
      match x.cmdPort w with
      | none => s.updFen f (fun x => x.reject w.toNat)
      | some k =>
        let h := cmdHdr i
        match (if x.ctOk h.ct then s.cmdCheck x k i else none) with
        | none => s.updFen f (fun x => x.reject w.toNat)
        | some t =>
          let e := s.effScope x h.scope.toNat
          s.updFen f (fun x => x.enter k (Cmd.fresh i x.cmdNum (clampBit e.2) t (x.ctKey h.ct) x.cur))

/-! ## The command whose turn it is -/

/-- Where a port's command stands: fen, port, place, the fen's record, the port's name, the command. -/
structure CmdAt where
  f : Nat
  p : Nat
  k : Nat
  x : Fen
  key : PortKey
  c : Cmd

/-- The command whose turn it is. -/
def State.cmdHere (s : State) : Option CmdAt :=
  match s.here with
  | .port f p k =>
    match s.fens[f]? with
    | none => none
    | some x => match x.ports[p]? with
      | none => none
      | some q => (q.cmds[k]?).map (fun c => ⟨f, p, k, x, q.key, c⟩)
  | _ => none

/-- The state with one command changed. -/
def State.updCmd (s : State) (f p k : Nat) (g : Cmd → Cmd) : State :=
  s.updFen f (fun x => { x with ports := updNth x.ports p (fun q => { q with cmds := updNth q.cmds k g }) })

/-- The requester of a command's accesses. -/
def CmdAt.req (a : CmdAt) (elem : Nat) : Req :=
  a.x.portReq a.f a.key (cmdHdr a.c.ins).port.toNat elem a.c.num

/-! ## Footprints (R192) -/

/-- A run of bytes a command touches: in a scratch by key, or by virtual address; whether it writes them. -/
structure Foot where
  scr : Bool
  a   : Nat
  n   : Nat
  w   : Bool
  deriving DecidableEq, Repr

/-- The bytes of one element of a tensor, or of its token. -/
def Tensor.foot (t : Tensor) (ix : List Nat) (w : Bool) : Foot :=
  if Tensor.fmt t = .cf8 then
    (if Tensor.blen t = 0 then ⟨false, Tensor.base t, 50 * Tensor.dim t 0 / 32, w⟩
     else ⟨false, Tensor.addr t ix, 2 * Tensor.blen t, w⟩)
  else ⟨false, Tensor.addr t ix, Fmt.esize (Tensor.fmt t), w⟩

/-- Every element of a tensor. -/
def Tensor.footAll (t : Tensor) (w : Bool) : List Foot :=
  (upto 0 (Tensor.count t)).map (fun n => Tensor.foot t (Tensor.indexOf t n) w)

/-- A run of scratch. -/
def Fen.footScratch (x : Fen) (d : BitVec 11) (o n : Nat) (w : Bool) : List Foot :=
  match x.desig x.anchor d.toNat with
  | some t => [⟨true, keyScratch t o, n, w⟩]
  | none => []

/-- The elements of a window in order, each with the bytes it touches: those the target holds, and its own of the shape. -/
def windowSteps (w t : Tensor) (o : List Nat) (wr : Bool) (other : Nat → List Foot) : List (List Foot) :=
  (upto 0 (Tensor.count w)).map (fun n =>
    let j := windowIx w o (Tensor.indexOf w n)
    (if Tensor.inside t j then [Tensor.foot t j wr] else []) ++ other n)

/-- Element n of a tensor that a command writes. -/
def writeStep (t : Tensor) (n : Nat) : List Foot := [Tensor.foot t (Tensor.indexOf t n) true]

/-- The ring that a command takes slots of, as a producer or a consumer, while it has yet to advance it. -/
def Cmd.ringSide (c : Cmd) : Option (BitVec 5 × Bool) :=
  match c.ins with
  | .copyr _ h .. => some (h, true)
  | .copyx _ h .. => if c.stage < 2 then some (h, false) else none
  | .qput _ _ h _ => if c.done then none else some (h, false)
  | .qget _ _ h _ => if c.done then none else some (h, true)
  | _ => none

/-- The slots that the commands accepted before c at one port take on its side of its ring before it does. -/
def Fen.slotsBefore (x : Fen) (c : Cmd) (side : BitVec 5 × Bool) : Nat :=
  (x.ports.filter (fun q => q.cmds.any (fun b => b.num == c.num))).foldl (fun n q =>
    q.cmds.foldl (fun n b => if b.num < c.num ∧ b.man = c.man ∧ b.ringSide = some side then
      n + (match b.ins with | .qput _ m _ _ | .qget _ m _ _ => m.toNat + 1 - b.pos | _ => 1) else n) n) 0

/-- The part of n bytes, from offset o on, of the slot that a command takes: of the k-th where it takes several. -/
def Fen.footSlot (x : Fen) (c : Cmd) (k o n : Nat) : List Foot :=
  match c.ringSide with
  | none => []
  | some side =>
    let d := x.ringOf c.man side.1.toNat
    let j := (if side.2 then Ring.tail d else Ring.head d) + x.slotsBefore c side + k
    match x.ringTile d with
    | some t => [⟨true, keyScratch t (Ring.slot d j + o), n, side.2⟩]
    | none => []

/-- The bytes a command touches outside queues, whose order R39 gives: step by step for the commands that go element by element, in
one step for the others. -/
def Cmd.steps (x : Fen) (c : Cmd) : List (List Foot) :=
  match c.ins with
  | .copy _ _ _ _ _ o2 o1 o0 => windowSteps c.ten1 c.ten0 [o0.toNat, o1.toNat, o2.toNat] false (writeStep c.ten1)
  | .copyr _ h _ _ _ o2 o1 o0 =>
    let z := landSize (Tensor.fmt c.ten0)
    let used := z * Tensor.count c.ten0
    windowSteps c.ten0 c.ten1 [o0.toNat, o1.toNat, o2.toNat] false (fun n => x.footSlot c 0 (z * n) z) ++
      [x.footSlot c 0 used (Ring.bytes (x.ringOf c.man h.toNat) - used)]
  | .copyx _ _ _ _ _ o2 o1 o0 =>
    (if c.stage < 2 then [x.footSlot c 0 0 (landSize (Tensor.fmt c.ten0) * Tensor.count c.ten0)] else []) ++
      windowSteps c.ten0 c.ten1 [o0.toNat, o1.toNat, o2.toNat] true (fun _ => [])
  | .qput _ nm1 h _ | .qget _ nm1 h _ =>
    (upto 0 (nm1.toNat + 1 - c.pos)).map (fun k => x.footSlot c k 0 (Ring.bytes (x.ringOf c.man h.toNat)))
  | .copyred _ _ _ _ _ _ o1 o0 => windowSteps c.ten1 c.ten0 [o0.toNat, o1.toNat, 0] false (writeStep c.ten1)
  | .gather _ _ d ro io nm1 n32 =>
    [x.footScratch d (16 * io.toNat) ((nm1.toNat + 1) * if n32 then 4 else 2) false ++
     x.footScratch d (16 * ro.toNat) ((nm1.toNat + 1) * Tensor.rowPitch c.ten0) true ++ Tensor.footAll c.ten0 false]
  | .scatter _ _ d ro io nm1 n32 =>
    [x.footScratch d (16 * io.toNat) ((nm1.toNat + 1) * if n32 then 4 else 2) false ++
     x.footScratch d (16 * ro.toNat) ((nm1.toNat + 1) * Tensor.rowPitch c.ten0) false ++ Tensor.footAll c.ten0 true]
  | .fill _ _ scr d o _ =>
    if scr then [x.footScratch d (16 * o.toNat) (ceilDiv (Tensor.bytes c.ten0) 16 * 16) true]
    else (upto 0 (Tensor.count c.ten0)).map (writeStep c.ten0)
  | .agload _ nm1 a => [[⟨false, a.toNat, 8 * (nm1.toNat + 1), false⟩]]
  | .mred _ _ _ _ _ d so _ _ _ _ =>
    [x.footScratch d (16 * so.toNat) (Tensor.bytes c.ten0) false ++ Tensor.footAll c.ten0 true]
  | .matom _ _ _ d so ret ro _ =>
    [x.footScratch d (16 * so.toNat) (Tensor.bytes c.ten0) false ++
     (if ret then x.footScratch d (16 * ro.toNat) (ceilDiv (Tensor.bytes c.ten0) 16 * 16) true else []) ++
     Tensor.footAll c.ten0 true]
  | .maxpy _ _ _ _ d xo _ =>
    [x.footScratch d (16 * xo.toNat) (Tensor.bytes c.ten0) false ++ Tensor.footAll c.ten0 true]
  | _ => []

/-- A command that goes element by element. -/
def stepwise : Instr → Bool
  | .copy .. | .copyr .. | .copyx .. | .copyred .. | .fill _ _ false _ _ _ => true
  | _ => false

/-- Two runs meet. -/
def Foot.meets (a b : Foot) : Bool :=
  a.scr == b.scr && decide (a.a < b.a + b.n) && decide (b.a < a.a + a.n)

/-- How many elements from `pos` on lie one behind the other in one 16-byte granule: what an engine lands as one write
(R291, R304). -/
def runLen (addr : Nat → Nat) (z n pos : Nat) : Nat → Nat
  | 0 => 0
  | fuel + 1 =>
    let k := runLen addr z n pos fuel
    if k = fuel ∧ pos + k < n ∧ addr (pos + k) = addr pos + k * z ∧ (addr pos + (k + 1) * z - 1) / 16 = addr pos / 16
    then k + 1 else k

/-- The steps a command has yet to make. -/
def Cmd.ahead (x : Fen) (c : Cmd) : List (List Foot) := if stepwise c.ins then (c.steps x).drop c.pos else c.steps x

/-- The bytes of the command's present step: the elements that its next write can take together, or all. -/
def Cmd.present (x : Fen) (c : Cmd) : List Foot :=
  (match c.ins with
   | .copyx .. => (c.ahead x).take (if c.stage < 2 then 1 else 16)
   | .qput .. | .qget .. => (c.steps x).take 1
   | i => if stepwise i then (c.ahead x).take 16 else c.steps x).flatten

/-- The pages that runs of global memory reach. -/
def footPages (l : List Foot) : List Nat :=
  (l.flatMap (fun f => if f.scr || f.n == 0 then [] else upto (f.a / 4096) ((f.a + f.n - 1) / 4096 + 1 - f.a / 4096))).eraseDups

/-- The parts of a run by page. -/
def footPieces (a : Nat) : Nat → Nat → List (Nat × Nat)
  | _, 0 => []
  | n, fuel + 1 => if n = 0 then [] else let k := min n (4096 - a % 4096); (a, k) :: footPieces (a + k) (n - k) fuel

/-- Runs by the keys their pages translate to, so that two addresses of one byte meet (R192); a page with no translation keeps
its address. -/
def State.physFeet (s : State) (x : Fen) (h : Tile) (l : List Foot) : List Foot :=
  let tab : List (Nat × Nat) := (footPages l).filterMap (fun p =>
    (s.seek x.asid x.part h .read (p * 4096)).map (fun t => (p, (t.target 0 (p * 4096)).key)))
  l.flatMap (fun f =>
    if f.scr then [f]
    else (footPieces f.a f.n (f.n / 4096 + 2)).map (fun q =>
      match tab.find? (fun e => e.1 == q.1 / 4096) with
      | some e => if 2 ^ 45 ≤ e.2 ∧ e.2 < 2 ^ 53 then ⟨true, e.2 + q.1 % 4096, q.2, f.w⟩ else ⟨false, 2 ^ 64 + e.2 + q.1 % 4096, q.2, f.w⟩
      | none => ⟨false, q.1, q.2, f.w⟩))

/-- Two commands take one side of a ring, or one side of a queue: they act there in the order of their acceptance. -/
def Cmd.sameSide (b c : Cmd) : Bool :=
  match b.ins, c.ins with
  | .copyr _ h _ _ _ _ _ _, .copyr _ g _ _ _ _ _ _ => b.man == c.man && h == g
  | .copyx _ h _ _ _ _ _ _, .copyx _ g _ _ _ _ _ _ => b.man == c.man && h == g
  | .qput _ _ h q, .qput _ _ g r => (b.man == c.man && h == g) || q == r
  | .qget _ _ h q, .qget _ _ g r => (b.man == c.man && h == g) || q == r
  | .copyr _ h _ _ _ _ _ _, .qget _ _ g _ | .qget _ _ g _, .copyr _ h _ _ _ _ _ _ => b.man == c.man && h == g
  | .copyx _ h _ _ _ _ _ _, .qput _ _ g _ | .qput _ _ g _, .copyx _ h _ _ _ _ _ _ => b.man == c.man && h == g
  | _, _ => false

/-- Command c, accepted after b at the same port, must wait: its present step touches a byte that b has yet to touch (R192). Two
reductions take their contributions in the one step of their combination, and may read common bytes. -/
def State.mustFollow (s : State) (x : Fen) (h : Tile) (b c : Cmd) : Bool :=
  match b.ins, c.ins with
  | .agload .., .agload .. => true
  | _, _ =>
    b.sameSide c ||
    (let mine := s.physFeet x h (c.present x)
     let both := (match b.ins, c.ins with | .mred .., .mred .. => true | _, _ => false)
     (s.physFeet x h (b.ahead x).flatten).any (fun p => mine.any (fun q => (!both || p.w || q.w) && p.meets q)))

/-! ## Order (R192 to R194, R208, R217) -/

/-- Commands that act at acceptance and wait for no earlier command (R209). -/
def atOnce : Instr → Bool
  | .carrive .. | .cexpect .. => true
  | _ => false

/-- A command that acts at acceptance has not acted yet; one whose target met a fault waits for its service alone (R195). -/
def State.accepting (s : State) (f : Nat) (x : Fen) : Bool :=
  x.ports.any (fun p => p.cmds.any (fun c => atOnce c.ins && !s.xl.pending.any (fun q => q.req.fen == some f && q.req.cmd == c.num &&
    q.req.srck != 0 && q.req.srck != 1)))

/-- The commands of every stream an sbar on a tile names. -/
def Fen.named (x : Fen) (t : Tile) (m : Nat) : List Cmd :=
  x.ports.flatMap (fun q => match q.key with
    | .slot u sl _ => if u == t && decide (16 ≤ sl) && bit m (sl - 16) then q.cmds else []
    | .fc => [])

/-- An sbar of the tile that names the slot, accepted before the command, is not complete (R208). -/
def Fen.barred (x : Fen) (k : PortKey) (c : Cmd) : Bool :=
  match k with
  | .fc => false
  | .slot t slot _ =>
    x.ports.any (fun q => match q.key with
      | .slot u _ _ => u == t && q.cmds.any (fun b => match b.ins with
          | .sbar _ m => !b.done && decide (b.num < c.num) && bit m.toNat (slot - 16)
          | _ => false)
      | .fc => false)

/-- The elements of global memory that a command has yet to deliver: those of the port's stream that count in its window (R325).
One that waits for a slot has none on the way. -/
def Cmd.left (c : Cmd) : Nat :=
  if c.done || !c.begun then 0
  else match c.ins with
  | .copy .. | .copyred .. => Tensor.count c.ten1 - c.pos
  | .copyr .. | .copyx .. => if c.stage = 0 then 0 else Tensor.count c.ten0 - c.pos
  | .fill _ _ false _ _ _ | .matom .. | .maxpy .. => Tensor.count c.ten0 - c.pos
  | .gather _ _ _ _ _ nm1 _ | .scatter _ _ _ _ _ nm1 _ => (nm1.toNat + 1 - c.pos) * Tensor.rowCount c.ten0
  | .agload _ nm1 _ => nm1.toNat + 1 - c.pos
  | _ => 0

/-- The elements of the port's stream before those of this command. -/
def CmdAt.before (a : CmdAt) : Nat := ((a.x.cmdsAt a.key).take a.k).foldl (fun n b => n + b.left) 0

/-- The next element of a command lies within the 64 of its stream's window (R325). -/
def CmdAt.inWindow (a : CmdAt) : Bool := ({ a.c with begun := true }).left == 0 || decide (a.before < 64)

/-- The command may do its next piece of work: its context is not frozen, its place in the port's order has come. -/
def State.mayRun (s : State) (a : CmdAt) : Bool :=
  let q := a.x.cmdsAt a.key
  let before := q.take a.k
  let h := cmdHdr a.c.ins
  if a.c.done then false
  else if atOnce a.c.ins then true
  else if s.fenFrozen a.x then false
  else if a.key = PortKey.fc then a.k == 0
  else
    (a.c.begun || (before.all (fun b => b.begun || b.done || atOnce b.ins) &&
      decide (before.countP (fun b => b.begun && !b.done) < 4))) &&
    (!h.acq || (a.k == 0 && s.drained a.f)) &&
    before.all (fun b => b.done || !(cmdHdr b.ins).rel) &&
    !a.x.barred a.key a.c && a.inWindow &&
    before.all (fun b => b.done || !s.mustFollow a.x (a.x.carrierOf (a.x.portPlace a.key).1) b a.c)

/-! ## Delivery (R195, R209, R211) -/

/-- Where a completion target lies: none when it names no object. -/
def State.ctPhys (s : State) (a : CmdAt) : Option (Res Phys) :=
  match (cmdHdr a.c.ins).ct with
  | .none => none
  | .scratch _ d o =>
    match a.x.desig a.x.anchor d.toNat with
    | some t => some (.ok (scratchPhys t (32 * o.toNat)) s)
    | none => none
  | .table _ _ =>
    let va := a.c.key
    let rq := a.req a.c.pos
    some ((if 2 ^ 48 ≤ va then s.meetFault a.x.asid rq ⟨va, .rmw, 0, 0⟩ else s.xlateFor a.x rq .rmw va).bind
      (fun ph s => if ph.typ = .mere then .ok ph s else s.meetFault a.x.asid rq ⟨va, .rmw, 3, 0⟩))

/-- A task ends with the failure of an access in state t: by the terminate verdict, or by a fault under the non-replayable policy
(R195, R419). -/
def State.faultEnd (s t : State) (f : Nat) (rq : Req) : State :=
  t.terminate f (if s.xl.pending.any (fun p => p.req.same rq && p.verdict == some true) then 4 else 1) 0

/-- Updates the object of a completion; one that is not live is not updated and CMD_INVALID goes to STATUS (R28). -/
def State.notify (s : State) (f : Nat) (ph : Phys) (tx : Int) (osw : BitVec 32) (arrive : Bool) (t : Tile) (slot : Nat) :
    State := (s.barUpdate ph tx osw arrive t slot none).getD (s.orStatus f Osw.cmdInvalid)

/-- The tile and slot code of a port as a requester of a barrier object (R30, R305). -/
def Fen.barSource (x : Fen) : PortKey → Tile × Nat
  | .fc => (x.anchor, 255)
  | .slot t s _ => (t, s)

/-- The update of a final delivery: TXPEND's change and the arrival. -/
def Cmd.finalTx (c : Cmd) : Int :=
  match c.ins with
  | .cexpect _ n => n.toNat
  | _ => -(c.bytes : Int)

/-- ARV of a completion target. -/
def ctArv : CTarget → Bool
  | .none => false
  | .scratch a _ _ | .table a _ => a

/-- Takes a completed command out of its port, and with it a request of its that waits at its source. -/
def State.dropCmd (s : State) (f p k : Nat) : State :=
  let num := (((s.fens[f]?).bind (fun x => x.ports[p]?)).bind (fun q => q.cmds[k]?)).map Cmd.num
  { s with net := { s.net with held := s.net.held.filter (fun r => !(r.fen == some f && decide (2 ≤ r.srck) && some r.cmd == num)) } }.updFen f (fun x => { x with ports := updNth x.ports p (fun q => { q with cmds := dropNth q.cmds k }) })

/-- The OSW with the retry of the command's own accesses (R197). -/
def State.takeRetry (s : State) (rq : Req) : BitVec 32 × State :=
  let mine : Req → Bool := fun r => r.same rq && r.cmd == rq.cmd
  (Osw.when (s.xl.retried.any mine) Osw.xlateRetried,
   { s with xl := { s.xl with retried := s.xl.retried.filter (fun r => !mine r) } })

/-- A copyr whose slot is full advances TAIL in the operation that reports the slot's last bytes (R202 step 3). Answers
the status this adds. -/
def State.tailOwed (s : State) (a : CmdAt) : BitVec 32 × State :=
  match a.c.ins with
  | .copyr _ h _ _ _ _ _ _ =>
    if a.c.stage ≠ 2 then (0, s)
    else
      let p := a.x.portPlace a.key
      let r := s.ringCheck a.f a.c.man h.toNat p.1 p.2
      if r.1 then (0, r.2.ringFill a.f a.c.man h.toNat) else (Osw.aborted, r.2)
  | _ => (0, s)

/-! ## Reductions that a completion abandons (R211) -/

/-- The command with its effects performed. -/
def Cmd.finish (c : Cmd) (osw : BitVec 32) : Cmd := { c with done := true, osw := c.osw ||| osw }

/-- One command of a fen changed, by its number. -/
def State.updNum (s : State) (f num : Nat) (g : Cmd → Cmd) : State :=
  s.updFen f (fun x => { x with ports := x.ports.map (fun q =>
    { q with cmds := q.cmds.map (fun c => if c.num == num then g c else c) }) })

/-- The instance of a destination and tag. -/
def State.redFind (s : State) (key tag : Nat) : Option (Nat × RedInst) :=
  findIx (fun r : RedInst => r.key == key && r.tag == tag) s.reds

/-- Completes the waiting contributors of announcements. -/
def State.redDone (s : State) (anns : List Ann) (g : Cmd → Cmd) : State :=
  anns.foldl (fun s n => s.updNum n.fen n.num (fun c => if c.done then c else g c)) s

/-- Abandons an instance in a cycle: the destination stays, and every contribution held completes with REDUCE_ABORTED. -/
def State.redAbandon (s : State) (k : Nat) (r : RedInst) (cyc : Nat) : State :=
  let s := { s with reds := updNth s.reds k (fun r =>
    { r with abandoned := true, anns := [], since := cyc, room := false, at' := 0, acc := [], st := 0 }) }
  s.redDone r.anns (fun c => { c.finish Osw.reduceAborted with asleep := false })

/-- A contributor that ended before its contribution arrived abandons the instance that it names (R211). -/
def State.redGiveUp (s : State) (a : CmdAt) : State :=
  match a.c.ins with
  | .mred _ _ _ _ _ _ _ _ _ tag _ =>
    if a.c.stage = 2 || (a.c.osw &&& Osw.aborted) == 0 then s
    else match s.lookup a.x.asid a.x.part (a.x.carrierOf (a.x.portPlace a.key).1) .rmw (Tensor.base a.c.ten0) with
      | none => s
      | some ph => match s.redFind ph.key tag.toNat with
        | none => s
        | some (k, r) => if r.abandoned then s else s.redAbandon k r s.cycle
  | _ => s

/-- The update of a completion target fails: it is not performed, the task ends, and with it the command (R195, R343). -/
def State.targetLost (s t : State) (a : CmdAt) : State :=
  (((s.faultEnd t a.f (a.req 0)).orStatus a.f a.c.osw).redGiveUp a).dropCmd a.f a.p a.k

/-- Subtracts 4,096 landed bytes from the object's TXPEND before the completion (R195). -/
def State.report (s : State) (a : CmdAt) : State :=
  let less := s.updCmd a.f a.p a.k (fun c => { c with bytes := c.bytes - 4096 })
  match s.ctPhys a with
  | none => less
  | some (.ok ph s) =>
    if s.reserved (a.req 0) ph.key 32 then s
    else (s.notify a.f ph (-4096) 0 false (a.x.barSource a.key).1 (a.x.barSource a.key).2).updCmd a.f a.p a.k (fun c => { c with bytes := c.bytes - 4096 })
  | some (.wait s) => s
  | some (.fault _ t) => s.targetLost t a

/-- CMD_COMPLETE (R195): the OSW goes to STATUS, the object gets the final update, the command ends. -/
def execCmdComplete (s : State) : Out :=
  match s.cmdHere with
  | none => .next s
  | some a =>
    if !a.c.done || (s.fenFrozen a.x && !atOnce a.c.ins) then .next s
    else if decide (4096 < a.c.bytes) && (cmdHdr a.c.ins).ct != .none then .next (s.report a)
    else
      let fin : State → Option Phys → State := fun s ph =>
        let r := s.takeRetry (a.req 0)
        let q := r.2.tailOwed a
        let osw := a.c.osw ||| r.1 ||| q.1
        let s := q.2.orStatus a.f osw
        let s := match ph with
          | some ph =>
            let live := (s.bar ph.key).live
            (s.notify a.f ph a.c.finalTx osw (ctArv (cmdHdr a.c.ins).ct) (a.x.barSource a.key).1 (a.x.barSource a.key).2).updCore
              a.f (fun c => { c with flag := c.flag || live })
          | none => s
        (s.redGiveUp a).dropCmd a.f a.p a.k
      match s.ctPhys a with
      | none => .next (fin s none)
      | some (.ok ph s) => if s.reserved (a.req 0) ph.key 32 then .next s else .next (fin s (some ph))
      | some (.wait s) => .next s
      | some (.fault _ t) => .next (s.targetLost t a)

/-! ## The runner -/

/-- One piece of a command's work: `work` answers the command as it then stands. A non-replayable fault terminates the
task (R197). -/
def runCmd (s : State) (work : CmdAt → State → Res Cmd) : Out :=
  match s.cmdHere with
  | none => .next s
  | some a =>
    if !s.mayRun a then .next s
    else if decide (4096 < a.c.bytes) && (cmdHdr a.c.ins).ct != .none then .next (s.report a)
    else
      let s := s.updCmd a.f a.p a.k (fun c => { c with begun := true })
      match work a s with
      | .ok c s =>
        let r := s.takeRetry (a.req 0)
        .next (r.2.updCmd a.f a.p a.k (fun _ => { c with begun := true, osw := c.osw ||| r.1 }))
      | .wait s => .next s
      | .fault _ t => .next (s.faultEnd t a.f (a.req 0))

end Sys2Proof.Machine
end

