-- ==== Sys2Proof/Machine/Route.lean ====
section
/-! DEFINITION. Packets on their way (R358 to R361, R383): a router's turn, the arrival of a packet at its target, a control
core's write-throughs as packets, and the lines that the host may hold (R408). -/
namespace Sys2Proof.Machine

/-- The stall of a freeze (R361, R383): requests of a virtual network stand where they are from the freeze of a context of
its partition until the save has taken them out, and during a restore. -/
def State.stalled (s : State) (p : Packet) : Bool :=
  !p.resp && (match p.vn with
    | some v => s.frz.any (fun z => z.part == v && z.st != .saved)
    | none => false)

/-- The last flit of a packet enters its target: a write is performed there once it can be, and its response leaves; a
response and a snoop need nothing more. None while the target holds the flit. -/
def State.arrive (s : State) (p : Packet) : Option State × State :=
  match p.load with
  | .ack | .snoop _ => (some s, s)
  | .write ph _ bs =>
    if s.reserved p.src ph.key bs.length then (none, s)
    else match s.writable p.src ph bs.length with
      | .wait s | .fault _ s => (none, s)
      | .ok _ s =>
        match s.net.inject p.src p.vn true p.dst p.frm 1 .ack with
        | none => (none, s)
        | some n => (some (({ s with net := n }).landWrite ph bs), s)

/-- The turn of a router's output (R358): packets go on entering at the site; the flit that round robin names moves on, or enters its target here. -/
def State.routerTurn (s : State) (a : Site) (out : Nat) : State :=
  let s := { s with net := s.net.feedAll a }
  match s.net.serve s.stalled a out with
  | none => s
  | some (f, p) =>
    if out ≠ 4 then { s with net := s.net.advance f p out }
    else if f.ix + 1 < p.len then { s with net := s.net.eject f p }
    else match s.arrive p with
      | (some t, _) => { t with net := t.net.eject f p }
      | (none, t) => t

/-- A write-through of a control core enters the network at the carrier of its anchor tile (R152, R422): none where the
store is of another kind, or the network has no room for it yet. -/
def State.sendWrite (s : State) (f : Nat) (x : Fen) (ph : Phys) (va : Nat) (bs : List Byte) : Res Unit :=
  let frm : Site := .tile (x.carrier x.anchor)
  let len := flitsOf bs.length
  match s.net.inject (coreReq f x) (some x.part) false frm (homeSite ph.typ ph.key x.die) len (.write ph va bs) with
  | none => .wait s
  | some n => ((s.letIn (coreReq f x) x.die x.part len).bind (fun _ s => .ok () { s with net := { n with held := s.net.held } }))

/-- The spread offsets that the host's HDM range maps (R408, R409). -/
def State.inHdm (s : State) (line : Nat) : Bool :=
  let a := lineAddr (line * 128)
  decide (line * 128 < 2 ^ 43) && decide (s.dev.hdmBase * 2 ^ 30 ≤ a) && decide (a < (s.dev.hdmBase + s.dev.hdmSize) * 2 ^ 30)

/-- The host takes a line of its HDM range into its caches, or gives one up (R402, R408). -/
def State.hostTakes (s : State) (line : Nat) (on : Bool) : State :=
  if on then (if s.inHdm line then s.updEmt (fun e => { e with hostHas := setAdd e.hostHas line }) else s)
  else s.updEmt (fun e => { e with hostHas := setDel e.hostHas line, snoops := e.snoops.filter (· != line) })

end Sys2Proof.Machine
end

