-- ==== Sys2Proof/Machine/Block.lean ====
section
/-! DEFINITION. The control core's block steps: fetch with its checks (R77 to R82), claims and grants (R161, R175 to
R178, R183), commit (R133, R134), node traps (R225), the end of wfe's wait, retries and wakes of held claims (R177). -/
namespace Sys2Proof.Machine

/-! ## Fetch -/

/-- The non-revocable class, but for launch issues (R81). -/
def isNonRevocable : Instr → Bool
  | .cas .. | .amoAdd .. | .amoAnd .. | .amoOr .. | .amoXor .. | .amoMin .. | .amoMax .. | .amoMinn .. | .amoMaxn ..
  | .amoSwap .. | .barv .. | .bexp .. | .qinit .. | .qenq .. | .qdeq .. | .qtenq .. | .qtdeq .. | .qdrain .. => true
  | _ => false

/-- An issue. -/
def isIssue : Instr → Bool
  | .issue .. => true
  | _ => false

/-- The header cases of R80. -/
def headerBad (h : Nat) : Bool :=
  fld h 31 26 != 0x3F || fld h 10 0 != 0 || (!bit h 18 && fld h 17 11 != 0) || decide (fld h 25 19 < fld h 17 11)

/-- The first illegal word of a block (R77): its index and the word. -/
def firstIllegal (ws : List (BitVec 32)) : Option (Nat × BitVec 32) :=
  findIx (fun w : BitVec 32 => match decodeScalar w.toNat with | .ok _ => false | .error _ => true) ws

/-- The instruction at fault in the last cases of R80: a non-revocable one that NRIX does not name, or one NRIX names
that is neither of that class nor an issue. -/
def firstMisplaced (ws : List (BitVec 32)) (nrv : Bool) (nrix : Nat) : Option Nat :=
  (findIx (fun p : BitVec 32 × Nat => match decodeScalar p.1.toNat with
    | .ok i => if nrv && p.2 == nrix then !isNonRevocable i && !isIssue i else isNonRevocable i
    | .error _ => false) ws.zipIdx).map (fun r => r.1)

/-- The 32-bit words of a byte list. -/
def wordsOf (bs : List Byte) (n : Nat) : List (BitVec 32) :=
  (upto 0 n).map (fun k => BitVec.ofNat 32 (leNat ((bs.drop (4 * k)).take 4)))

/-- A fetch block enters the instruction cache of 512 (R82); a full cache gives up one, which one being free. -/
def State.cacheBlock (s : State) (f va : Nat) (bs : List Byte) : State :=
  { s with free := s.free + 1 }.updCore f (fun c =>
    { c with icache := holdOne (fun _ => true) 512 s.free (c.icache.filter (fun l => l.1 != va)) (va, bs) })

/-- Reads a fetch block: the words of it that belong to the block, `need` of its first word saying how many bytes those are; the
words behind them are not fetched (R79), and what the cache keeps of them no fetch decodes. -/
def State.readBlock (s : State) (f : Nat) (x : Fen) (va : Nat) (need : List Byte → Nat) : Res (List Byte × BitVec 32) :=
  let rq := coreReq f x
  (s.xlateFor x rq .fetch va).bind (fun ph s =>
    let n := if ph.typ.leaves then 64 else need (s.mem.readZ ph.key 4)
    (s.readAt rq ph va n).bind (fun r s =>
      let bs := r.1 ++ s.mem.getN (ph.key + n) (64 - n)
      .ok (bs, r.2) (s.cacheBlock f va bs)))

/-- Fetches 64-byte fetch blocks of a block (R82), of which `len` bytes from va on belong to it. A cached copy may be used or
the fetch block read anew: the choice is free. -/
def State.fetchLines (s : State) (f : Nat) (x : Fen) (va : Nat) (need : List Byte → Nat) :
    Nat → Res (List Byte × BitVec 32)
  | 0 => .ok ([], 0) s
  | n + 1 =>
    let one : Res (List Byte × BitVec 32) :=
      match x.core.icache.find? (fun l => l.1 == va) with
      | some l =>
        if Config.freeBool s.free then .ok (l.2, 0) { s with free := s.free + 1 }
        else State.readBlock { s with free := s.free + 1 } f x va (fun b => min 64 (need b))
      | none => s.readBlock f x va (fun b => min 64 (need b))
    one.bind (fun r s =>
      (s.fetchLines f x (va + 64) (fun b => need b - 64) n).bind (fun r2 s => .ok (r.1 ++ r2.1, r.2 ||| r2.2) s))

/-- The bytes of a block from its header on, by its header: the header alone when that is malformed (R78 to R80). -/
def blockBytes (b : List Byte) : Nat :=
  let h := leNat (b.take 4)
  if headerBad h then 4 else 4 * (fld h 25 19 + 2)

/-- An index where no rule names what csr.trapidx holds: free. -/
def State.someIdx (s : State) : Nat × State := (Config.freeNat s.free % 128, { s with free := s.free + 1 })

/-- A trap that no instruction of a block raises. -/
def State.trapAt (s : State) (f cause : Nat) (val blk : Word) : State :=
  let r := s.someIdx
  r.2.takeTrap f cause val blk r.1

/-- The core's next block begins: its words are decoded and held. -/
def Core.begin (c : Core) (ws : List (BitVec 32)) (nrv : Bool) (nrix : Nat) (st : BitVec 32) : Core :=
  { c.fresh with phase := .run, words := ws, nrv := nrv, nrix := nrix, stat := st }

/-- A replayable fault of the core awaits its verdict (R135). -/
def State.coreStopped (s : State) (f : Nat) (x : Fen) : Bool :=
  s.xl.pending.any (fun p => p.req.same (coreReq f x) && p.repl && p.verdict != some true)

/-- Fetches n fetch blocks of a block, or takes the trap that their fetch raises. -/
def State.fetchPart (s : State) (f : Nat) (x : Fen) (va n : Nat) (need : List Byte → Nat)
    (k : List Byte → BitVec 32 → State → State) : State :=
  let a := x.core.pc
  if 2 ^ 48 ≤ va + 64 * n - 64 then s.trapAt f 10 (BitVec.ofNat 64 (max va (2 ^ 48))) a
  else match s.fetchLines f x va need n with
    | .wait s => s
    | .fault y s => s.trapAt f 6 (BitVec.ofNat 64 y.va) a
    | .ok r s => k r.1 r.2 s

/-- FETCH_BLOCK (R78 to R82): the block at pc is fetched whole and decoded, with the checks in the order of R80. -/
def execFetchBlock (s : State) : Out :=
  onCore s (fun f x =>
    let a := x.core.pc
    if x.core.phase ≠ .fetch ∨ s.fenFrozen x ∨ s.coreStopped f x then s
    else s.fetchPart f x a.toNat 1 blockBytes (fun b1 st1 s =>
      let h := leNat (b1.take 4)
      let hw := BitVec.ofNat 64 h
      let n := fld h 25 19 + 1
      if headerBad h then s.takeTrap f 3 hw a 0
      else
        let more := ceilDiv (4 * (n + 1)) 64 - 1
        let go : List Byte → BitVec 32 → State → State := fun bs st s =>
          let ws := wordsOf (bs.drop 4) n
          let nrv := bit h 18
          let nrix := fld h 17 11
          match firstIllegal ws with
          | some (i, w) => s.takeTrap f 2 (w.zeroExtend 64) a i
          | none =>
            match firstMisplaced ws nrv nrix with
            | some i => s.takeTrap f 3 hw a i
            | none => s.updCore f (fun c => c.begin ws nrv nrix st)
        if more = 0 then go b1 st1 s
        else s.fetchPart f x (a.toNat + 64) more (fun _ => 4 * (n + 1) - 64) (fun b2 st2 s => go (b1 ++ b2) (st1 ||| st2) s)))

/-! ## Effects held back -/

/-- A store updates a cached line, whatever address it was cached under (R152, R295). -/
def Core.patch (c : Core) (key : Nat) (bs : List Byte) : Core :=
  { c with dcache := c.dcache.map (fun l =>
      { l with bytes := l.bytes.zipIdx.map (fun p =>
          if key ≤ l.key + p.2 then (bs[l.key + p.2 - key]?).getD p.1 else p.1) }) }

/-- sev at commit (R188): the flags of the fens of the same die and ASID. -/
def State.sendEvent (s : State) (x : Fen) : State :=
  { s with fens := s.fens.map (fun y =>
      if y.live && y.die == x.die && y.asid == x.asid then { y with core := { y.core with flag := true } } else y) }

/-- A cfgld's mantle takes its place (R109). -/
def Fen.putMantle (x : Fen) (m : Nat) (img : Mantle) : Fen :=
  { x with mantles := updNth x.mantles m (fun _ => some img) }

/-- Performs one effect at commit (R134). -/
def State.perform (s : State) (f : Nat) (x : Fen) (e : Eff) : Res Unit :=
  let rq := coreReq f x
  match e with
  | .store ph va bs =>
    (if x.core.late0 && (ph.typ.inEmt || ph.typ == .mere) then s.sendWrite f x ph va bs else s.writeAt rq ph va bs).bind
      (fun _ s => .ok () (if ph.typ.inEmt then s.updCore f (fun c => c.patch ph.key bs) else s))
  | .setFull ph bs =>
    if s.reserved rq ph.key bs.length then .wait s
    else .ok () ((s.landWrite ph bs).updMem (fun m => m.mark (ph.key / 16) 1 true))
  | .setEmpty ph => .ok () (s.updMem (fun m => m.mark (ph.key / 16) 1 false))
  | .binit ph bs => if s.reserved rq ph.key 32 then .wait s else .ok () (s.landWrite ph bs)
  | .rpop .. | .rpush .. | .rset .. => .ok () (s.ringEff f e)
  | .cmd w => if (s.fens[f]?).any (fun x => s.accepting f x) then .wait s else .ok () (s.acceptCmd f w)
  | .cfgld m img => .ok () (s.updFen f (fun x => x.putMantle m img))
  | .icinv a l => .ok () (s.updCore f (fun c => { c with icache := c.icache.filter (fun e => !lineMeets a l e.1) }))
  | .sev => .ok () (s.sendEvent x)
  | .clearFlag => .ok () (s.updCore f (fun c => { c with flag := false }))

/-- The effects that a grant performs before the operation (R161): stores and ring changes that precede it. -/
def Eff.first (e : Eff) : Bool :=
  match e with
  | .store .. | .setFull .. | .setEmpty .. | .binit .. | .rpop .. | .rpush .. | .rset .. => true
  | _ => false

/-- A stream command handed to its port. -/
def Eff.isCmd (e : Eff) : Bool :=
  match e with
  | .cmd .. => true
  | _ => false

/-- Effects in the order of a commit (R134): stores and ring advances, then stream commands, then the rest, each in program
order. -/
def commitOrder (l : List (Nat × Eff)) : List (Nat × Eff) :=
  l.filter (fun e => e.2.first) ++ l.filter (fun e => e.2.isCmd) ++ l.filter (fun e => !e.2.first && !e.2.isCmd)

/-- Performs effects in order. One that waits leaves itself and the rest; a store that a peer module refuses
under the non-replayable policy is not performed, and the core takes cause 6 after the commit. -/
def State.performAll (s : State) (f : Nat) (x : Fen) : List (Nat × Eff) → List (Nat × Eff) × State
  | [] => ([], s)
  | e :: r =>
    match s.perform f x e.2 with
    | .ok _ s => s.performAll f x r
    | .wait s => (e :: r, s)
    | .fault y s => (s.passTrap f 6 (BitVec.ofNat 64 y.va) 0).performAll f x r

/-- The effects still to be performed before the operation. -/
def Core.before (c : Core) : List (Nat × Eff) := c.effs.filter (fun e => e.2.first && decide (e.1 < c.nrix))

/-- The commands a block holds. -/
def Core.cmds (c : Core) : List (BitVec 128) := c.effs.filterMap (fun e => match e.2 with | .cmd w => some w | _ => none)

/-! ## Claims -/

/-- The point of no return (R161). -/
def Core.grant (c : Core) (p : Prep) : Core := { c with phase := .granted, idx := c.nrix, prep := some p, asleep := false, retry := false }

/-- A claim is held: it waits for a wake or, with BLK 0, for its next presentation. -/
def Core.hold (blk : Bool) (c : Core) : Core := { c with phase := .claim, asleep := true, retry := !blk }

/-- A queue claim at the home controller (R175 to R177). -/
def State.claimQueue (s : State) (f : Nat) (x : Fen) (p : Prep) (enq wait esz : Bool) : State :=
  let h := x.carrier x.anchor
  match s.writable (coreReq f x) p.ph 64 with
  | .wait s => s
  | .fault _ s => s
  | .ok _ s =>
    match s.charge (coreReq f x) p.ph (if enq && esz then 8 * p.esz else 0) with
    | .wait s | .fault _ s => s
    | .ok _ s =>
    let r := s.qJudge p.ph p.a.toNat x.asid x.part h
    match r.1 with
    | .frozen => r.2
    | .refused => r.2.takeTrap f 7 p.a x.core.pc x.core.nrix
    | _ =>
      let q := s.qcb p.ph.key
      if esz && Qcb.esz8 q != p.esz then s.dropBlock f
      else if wait && Qcb.stuck q enq then
        (if Qcb.blk q then s.qWaiter p.ph enq x.anchor.quad else s).updCore f (Core.hold (Qcb.blk q))
      else s.updCore f (fun c => c.grant p)

/-- An atomic's claim (R161, R170): at once at a scratch controller, an EMT or a Mere bank; over CXL.cache or a
boardwalk port, an exchange that moves no byte asks the other side, which admits the operation or refuses it. -/
def State.claimAtomic (s : State) (f : Nat) (x : Fen) (p : Prep) (w : Nat) : State :=
  let rq := coreReq f x
  match (if p.ph.typ.leaves then (s.outside rq .rmw p.ph p.a.toNat 0).bind (fun _ s => .ok () s)
         else s.writable rq p.ph w) with
  | .ok _ s => s.updCore f (fun c => c.grant p)
  | .wait s => s
  | .fault _ s => s.takeTrap f 6 p.a x.core.pc x.core.nrix

/-- A claim on a barrier object (R172, R173): refused with cause 2 when INIT or EXPARR is 0. -/
def State.claimBar (s : State) (f : Nat) (x : Fen) (p : Prep) : State :=
  match s.charge (coreReq f x) p.ph 0 with
  | .wait s | .fault _ s => s
  | .ok _ s => if (s.bar p.ph.key).live then s.updCore f (fun c => c.grant p) else s.takeTrap f 2 p.a x.core.pc x.core.nrix

/-- The claim of a non-revocable instruction (R161). -/
def State.claim (s : State) (f : Nat) (x : Fen) (p : Prep) (i : Instr) : State :=
  match i with
  | .issue .. => s.updCore f (fun c => c.grant p)
  | .barv .. | .bexp .. => s.claimBar f x p
  | .qenq .. => s.claimQueue f x p true true true
  | .qdeq .. => s.claimQueue f x p false true true
  | .qtenq .. => s.claimQueue f x p true false true
  | .qtdeq .. => s.claimQueue f x p false false true
  | .qdrain .. => s.claimQueue f x p false false false
  | .qinit .. =>
    match (s.writable (coreReq f x) p.ph 64).bind (fun _ s => s.charge (coreReq f x) p.ph 64) with
    | .ok _ s => s.updCore f (fun c => c.grant p)
    | .wait s => s
    | .fault _ s => s
  | .cas w32 .. | .amoAdd w32 .. | .amoAnd w32 .. | .amoOr w32 .. | .amoXor w32 .. | .amoMin w32 .. | .amoMax w32 ..
  | .amoMinn w32 .. | .amoMaxn w32 .. | .amoSwap w32 .. => s.claimAtomic f x p (syncBytes w32)
  | _ => s

/-- GRANT (R161, R183): presents the claim once every place is reserved (R100); once it is granted, performs the
effects that precede the operation, each at its home before the operation follows. -/
def execGrant (s : State) : Out :=
  onCore s (fun f x =>
    let c := x.core
    if c.phase = .granted then
      let r := s.performAll f { x with core := { c with late0 := false } } c.before
      r.2.updCore f (fun c => { c with effs := r.1 ++ c.effs.filter (fun e => !(e.2.first && decide (e.1 < c.nrix))) })
    else if (c.phase = .run ∨ c.phase = .claim) ∧ c.words.length ≤ c.idx ∧ !s.fenFrozen x ∧ !c.asleep then
      (match c.prep, c.words[c.nrix]? with
       | some p, some w =>
         (match decodeScalar w.toNat with
          | .ok i =>
            if !x.roomFor c.cmds || s.reserved (coreReq f x) p.ph.key 64 || !s.drained f then s else s.claim f x p i
          | .error _ => s)
       | _, _ => s)
    else s)

/-- CLAIM_RETRY (R177): a held claim of a queue with BLK 0 is presented again, 64 cycles on. -/
def execClaimRetry (s : State) : Out :=
  onCore s (fun f x => if x.core.retry then s.updCore f (fun c => { c with asleep := false, retry := false }) else s)

/-- A claim of the core is held at a queue with BLK 1: what a wake of that queue presents again (R177). -/
def Core.awaitsWake (c : Core) (key : Nat) : Bool :=
  c.phase == .claim && c.asleep && !c.retry && c.prep.any (fun p => p.ph.key == key)

/-- QUEUE_WAKE (R177, R188): a wake of a queue reaches a quad; the claims held there for that queue are presented again, and the
event flags of their cores are set. -/
def execQueueWake (quad : BitVec 4) (s : State) : Out :=
  match findIx (fun q : Nat × Nat => q.1 == quad.toNat) s.hts.wakes with
  | none => .next s
  | some (k, w) =>
    .next { s with
      hts := { s.hts with wakes := dropNth s.hts.wakes k }
      fens := s.fens.map (fun x =>
        { x with
          core := if x.anchor.quad = quad.toNat ∧ x.core.awaitsWake w.2 then { x.core with asleep := false, flag := true } else x.core
          ports := x.ports.map (fun q => match q.key with
            | .slot t 22 _ => if t.quad = quad.toNat then
                { q with cmds := q.cmds.map (fun c => if c.sub = w.2 then { c with asleep := false } else c) } else q
            | _ => q) }) }

/-! ## Commit -/

/-- A retried access of the core in the block at its pc. -/
def ofRun (f : Nat) (x : Fen) (r : Req) : Bool := r.same (coreReq f x) && r.cmd == x.core.pc.toNat

/-- The present run of the core's block follows a fault that was serviced (R135). -/
def State.coreRetried (s : State) (f : Nat) (x : Fen) : Bool := s.xl.retried.any (ofRun f x)

/-- A branch target that is no block's address (R83): not on a 64-byte boundary, or with nonzero bits [63:48]. -/
def badTarget (a : Word) : Bool := fld a.toNat 5 0 != 0 || fld a.toNat 63 48 != 0

/-- The last step of a commit: control registers and STATUS (R134 step 4), then the next block, its target's traps
(R83, R133), or the core's stop. -/
def State.endCommit (s : State) (f : Nat) (x : Fen) : State :=
  let c := x.core
  let next := c.exit.getD c.fallThrough
  let st := c.stat ||| Osw.when (s.coreRetried f x) Osw.xlateRetried
  let s := { s with xl := { s.xl with retried := s.xl.retried.filter (fun r => !ofRun f x r) } }
  let s := s.updFen f (fun x =>
    { x with status := (x.status &&& ~~~c.clr) ||| st.truncate 16,
             core := ({ x.core with rm := c.locRm, trapvec := c.locVec, late0 := false,
                                    pc := if c.halting || badTarget next then c.pc else next }).fresh })
  if x.term.isSome then s.updCore f (fun c => { c with phase := .halted })
  else if c.halting then
    let s := s.updCore f (fun c => { c with phase := .halted })
    (match c.traps.find? (fun t => t.1 == 8) with
     | some t => s.terminate f 5 (fld t.2.toNat 63 56)
     | none => s)
  else if fld next.toNat 5 0 ≠ 0 then
    (if c.exit.isSome then s.takeTrap f 1 next c.pc c.exitIx else s.trapAt f 1 next c.pc)
  else if fld next.toNat 63 48 ≠ 0 then
    (if c.exit.isSome then s.takeTrap f 10 next c.pc c.exitIx else s.trapAt f 10 next c.pc)
  else s

/-- An instruction whose release its block's commit performs: fence, stl (R168, R169). -/
def isRelease : Instr → Bool
  | .fence .. | .stl .. => true
  | _ => false

/-- The block holds a release: the core's earlier write-throughs are performed before its stores, and its own before any
later access (R166, R168). -/
def Core.releases (c : Core) : Bool :=
  c.words.any (fun w => match decodeScalar w.toNat with | .ok i => isRelease i | .error _ => false)

/-- COMMIT (R133, R134): waits for port room (R100), then registers, effects in program order, control registers. -/
def execCommit (s : State) : Out :=
  onCore s (fun f x =>
    let c := x.core
    if c.phase ≠ .commit ∧ !(c.phase = .run ∧ c.words.length ≤ c.idx ∧ c.prep.isNone) then s
    else if c.phase = .run ∧ (s.fenFrozen x ∨ !x.roomFor c.cmds) then s
    else if c.phase = .commit ∧ s.coreStopped f x then s
    else if !s.drained f && c.releases then s
    else
      let x := { x with core := { c with phase := .commit, regs := c.loc, late0 := c.late0 && !c.releases && c.prep.isNone } }
      let r := (s.updCore f (fun _ => x.core)).performAll f x (commitOrder c.effs)
      let s := r.2.updCore f (fun c => { c with effs := r.1 })
      match s.fens[f]? with
      | some x => if r.1.isEmpty && !s.accepting f x then s.endCommit f x else s
      | none => s)

/-! ## Traps and timeouts -/

/-- TAKE_NODE_TRAP (R225): before fetching the next block the core takes the oldest trap passed to it. -/
def execTakeNodeTrap (s : State) : Out :=
  onCore s (fun f x =>
    match x.core.phase, x.core.traps with
    | .fetch, t :: r =>
      if s.fenFrozen x then s
      else
        let j := (s.updCore f (fun c => { c with traps := r })).someIdx
        j.2.enterTrap f t.1 t.2 x.core.pc j.1
    | _, _ => s)

/-- WFE_TIMEOUT (R188): 65,536 cycles have passed since wfe was performed, and it completes. -/
def execWfeTimeout (s : State) : Out :=
  onCore s (fun f x =>
    match x.core.wfe with
    | some t =>
      if x.core.phase = .run ∧ t + wfeLimit ≤ s.cycle then
        s.updCore f (fun c => { c.defer .clearFlag with wfe := none }.adv)
      else s
    | none => s)

/-- What a control core does next at a cycle: a step of the block engine, or the instruction whose turn it is. -/
def Core.next (c : Core) (cycle : Nat) : Option Instr :=
  let at0 : Nat → Option Instr := fun k =>
    match c.words[k]? with
    | some w => (match decodeScalar w.toNat with | .ok i => some i | .error _ => none)
    | none => none
  match c.phase with
  | .fetch => some (if c.traps.isEmpty then .fetchBlock else .takeNodeTrap)
  | .run =>
    if c.wfe.any (fun t => decide (t + wfeLimit ≤ cycle)) then some .wfeTimeout
    else if c.idx < c.words.length then at0 c.idx else some (if c.prep.isSome then .grant else .commit)
  | .claim => if c.asleep then (if c.retry then some .claimRetry else none) else some .grant
  | .granted => if c.before.isEmpty then at0 c.nrix else some .grant
  | .commit => some .commit
  | .halted => none

end Sys2Proof.Machine
end

