-- ==== Sys2Proof/Machine/Sha.lean ====
section
/-! DEFINITION. What R413 names by standard: SHA-512, and ECDSA verification on P-521 with SHA-512. The constants of SHA-512 are
computed as its standard defines them; those of the curve are its standard's. -/
namespace Sys2Proof.Machine

/-! ## SHA-512 -/

/-- The greatest r with r^k at most n, below 2^68: bit by bit from the top. -/
def rootOf (k n : Nat) : Nat :=
  (upto 0 68).foldr (fun b r => if (r + 2 ^ b) ^ k ≤ n then r + 2 ^ b else r) 0

/-- The first eighty primes. -/
def firstPrimes : List Nat := (upto 2 408).filter (fun n => (upto 2 (n - 2)).all (fun d => n % d != 0))

/-- The first 64 bits of the fraction of a prime's k-th root: the standard's way of choosing its constants. -/
def rootFraction (k p : Nat) : Nat := rootOf k (p * 2 ^ (64 * k)) % 2 ^ 64

/-- The constants of the eighty rounds come from cube roots. -/
def roundWords : List Nat := firstPrimes.map (rootFraction 3)

/-- The chaining value before the first block comes from square roots. -/
def firstChain : List Nat := (firstPrimes.take 8).map (rootFraction 2)

/-- A 64-bit word turned right by each of some amounts, the results combined by exclusive or. -/
def turns (x : Nat) (l : List Nat) : Nat := l.foldl (fun a n => a ^^^ (x / 2 ^ n + x % 2 ^ n * 2 ^ (64 - n))) 0

/-- The number held by bytes, the first most significant. -/
def beNat (l : List Byte) : Nat := l.foldl (fun a b => a * 256 + b.toNat) 0

/-- The n bytes of a number, the most significant first. -/
def toBE (n v : Nat) : List Byte := (toLE n v).reverse

/-- One round: `v` the eight working words, `win` the sixteen message words from this round's on, `k` the round's constant. The
window gains the word sixteen rounds ahead. -/
def hashRound (s : List Nat × List Nat) (k : Nat) : List Nat × List Nat :=
  let v : Nat → Nat := fun i => (s.1[i]?).getD 0
  let win : Nat → Nat := fun i => (s.2[i]?).getD 0
  let pick := v 6 ^^^ (v 4 &&& (v 5 ^^^ v 6))
  let most := (v 0 &&& (v 1 ||| v 2)) ||| (v 1 &&& v 2)
  let t := v 7 + turns (v 4) [14, 18, 41] + pick + k + win 0
  let ahead := win 0 + win 9 + (turns (win 1) [1, 8] ^^^ win 1 / 2 ^ 7) + (turns (win 14) [19, 61] ^^^ win 14 / 2 ^ 6)
  ((t + turns (v 0) [28, 34, 39] + most) % 2 ^ 64 :: s.1.take 3 ++ (v 3 + t) % 2 ^ 64 :: (s.1.drop 4).take 3,
   s.2.drop 1 ++ [ahead % 2 ^ 64])

/-- A block of 128 bytes is taken into the chaining value. -/
def hashBlock (h : List Nat) (b : List Byte) : List Nat :=
  let r := roundWords.foldl hashRound (h, (upto 0 16).map (fun k => beNat ((b.drop (8 * k)).take 8)))
  (h.zip r.1).map (fun p => (p.1 + p.2) % 2 ^ 64)

/-- The first n blocks of a padded message. -/
def hashBlocks (m : List Byte) (n : Nat) : List Nat :=
  (upto 0 n).foldl (fun h k => hashBlock h ((m.drop (128 * k)).take 128)) firstChain

/-- SHA-512 of bytes. -/
def sha512 (m : List Byte) : List Byte :=
  let z := (128 - (m.length + 17) % 128) % 128
  let p := m ++ [0x80#8] ++ List.replicate z 0 ++ toBE 16 (8 * m.length)
  (hashBlocks p (p.length / 128)).flatMap (toBE 8)

/-! ## P-521 -/

namespace P521
/-- The prime of the field. -/
def p : Nat := 2 ^ 521 - 1
/-- The order of the base point. -/
def n : Nat :=
  0x1FFFFFFFFFFFFFFFFFFFFFFFFFFFFFFFFFFFFFFFFFFFFFFFFFFFFFFFFFFFFFFFFFA51868783BF2F966B7FCC0148F709A5D03BB5C9B8899C47AEBB6FB71E91386409
/-- The coefficient b; a is -3. -/
def b : Nat :=
  0x51953EB9618E1C9A1F929A21A0B68540EEA2DA725B99B315F3B8B489918EF109E156193951EC7E937B1652C0BD3BB1BF073573DF883D2C34F1EF451FD46B503F00
/-- The base point. -/
def g : Option (Nat × Nat) := some
  (0xC6858E06B70404E9CD9E3ECB662395B4429C648139053FB521F828AF606B4D3DBAA14B5E77EFE75928FE1DC127A2FFA8DE3348B3C1856A429BF97E7E31C2E5BD66,
   0x11839296A789A3BC0045C8A5FB42C7D1BD998F54449579B446817AFBD17273E662C97EE72995EF42640C550B9013FAD0761353C7086A272C24088BE94769FD16650)

/-- A power modulo m, by the bits of the exponent: k of them. -/
def pow (m x : Nat) : Nat → Nat → Nat
  | 0, _ => 1
  | k + 1, e =>
    let r := pow m (x * x % m) k (e / 2)
    if e % 2 = 1 then r * x % m else r

/-- The inverse modulo a prime. -/
def inv (m x : Nat) : Nat := pow m (x % m) 521 (m - 2)

/-- The sum of two points; none is the point at infinity. -/
def add (a c : Option (Nat × Nat)) : Option (Nat × Nat) :=
  match a, c with
  | none, c => c
  | a, none => a
  | some (x1, y1), some (x2, y2) =>
    if x1 = x2 ∧ (y1 + y2) % p = 0 then none
    else
      let l := if x1 = x2 then (3 * x1 * x1 + (p - 3)) * inv p (2 * y1) % p
               else (y2 + (p - y1)) * inv p (x2 + (p - x1)) % p
      let x := (l * l + (p - x1) + (p - x2)) % p
      some (x, (l * (x1 + (p - x)) + (p - y1)) % p)

/-- A multiple of a point: k bits of the factor. -/
def mul (q : Option (Nat × Nat)) : Nat → Nat → Option (Nat × Nat)
  | 0, _ => none
  | k + 1, e =>
    let r := mul (add q q) k (e / 2)
    if e % 2 = 1 then add r q else r

/-- A point of the curve other than infinity. -/
def onCurve (x y : Nat) : Bool :=
  decide (x < p ∧ y < p) && (y * y) % p == (x * x * x + (p - 3) * x + b) % p

/-- ECDSA verification with SHA-512. -/
def verify (x y : Nat) (m : List Byte) (r s : Nat) : Bool :=
  onCurve x y && decide (0 < r ∧ r < n ∧ 0 < s ∧ s < n) &&
  let w := inv n s
  let e := beNat (sha512 m)
  match add (mul g 521 (e * w % n)) (mul (some (x, y)) 521 (r * w % n)) with
  | none => false
  | some (u, _) => u % n == r
end P521

end Sys2Proof.Machine
end

