-- ==== Sys2Proof/Machine/Boot.lean ====
section
/-! DEFINITION. Bring-up (R412, R413) and power and cooling (R421). -/
namespace Sys2Proof.Machine

/-! ## Firmware images (R413) -/

/-- A header field by its bytes, the first least significant (R3). -/
def Firmware.field (x : Firmware) (o n : Nat) : Nat := leNat ((x.header.drop o).take n)

/-- A header field by its bytes, the first most significant. -/
def Firmware.big (x : Firmware) (o n : Nat) : Nat := beNat ((x.header.drop o).take n)

/-- KIND. -/
def Firmware.kind (x : Firmware) : Nat := x.field 4 2

/-- The image is accepted. -/
def Boot.accepts (b : Boot) (x : Firmware) : Bool :=
  let key := x.field 6 2
  x.field 0 4 == 0x46574C50 && x.header.length == 256 && x.body.length == x.field 12 4 &&
  sha512 x.body == (x.header.drop 16).take 64 &&
  P521.verify x.keyX x.keyY (x.header.take 80) (x.big 80 66) (x.big 146 66) &&
  b.fused[key]? == some (beNat (sha512 (toBE 66 x.keyX ++ toBE 66 x.keyY))) && !(b.revoked[key]?).getD false &&
  decide ((b.minima[x.kind]?).getD 0 ≤ x.field 8 4)

/-- Every image that a test picks is accepted. -/
def Boot.verifies (b : Boot) (p : Nat → Bool) : Bool := b.firmware.all (fun x => !p x.kind || b.accepts x)

/-! ## Bring-up (R412) -/

/-- A step is completed. -/
def Boot.pass (b : Boot) : Boot := { b with step := b.step + 1, fail := 0 }

/-- A step fails and the module is held. -/
def Boot.holdAt (b : Boot) (n : Nat) : Boot := { b with held := true, fail := n }

/-- A training step meets what the schedule has for it; with nothing there it succeeds. -/
def Boot.training (b : Boot) : Bool × Boot :=
  match b.train with
  | [] => (true, b)
  | r :: l => (r, { b with train := l })

/-- The next step. -/
def Boot.next (b : Boot) : Boot :=
  if b.rel || b.held then b
  else match b.step with
    | 0 => if b.verifies (· == 1) then b.pass else b.holdAt 1
    | 4 =>
      let r := b.training
      if r.1 then r.2.pass else { r.2 with fail := 5 }
    | 5 => { b.pass with portup := b.partners % 4096 }
    | 6 => if b.verifies (· != 1) then b.pass else b.holdAt 7
    | 7 => { b.pass with rel := true }
    | n =>
      let r := b.training
      if r.1 then r.2.pass else r.2.holdAt (n + 1)

/-- BRING_UP (R412): one step of the Oluavays controller; step 5 is tried again while the link is down. -/
def execBringUp (s : State) : Out := .next { s with boot := s.boot.next }

/-- CXL_LINK_TRAINED (R412 step 5): the link trains after a failure. -/
def execCxlLinkTrained (s : State) : Out :=
  if s.boot.step = 4 ∧ s.boot.fail = 5 ∧ !s.boot.held then .next { s with boot := s.boot.pass } else .next s

/-! ## Power and cooling (R421) -/

/-- The cap in force: the lowest at a junction temperature of 105 °C. -/
def Device.cap (d : Device) : Nat := if 105 ≤ fld d.therm.toNat 7 0 then 1200 else d.pwrcap

/-- Power is over the cap: matrix firings and engine issue are delayed. -/
def Device.regulate (d : Device) : Device := { d with throttle := decide (d.cap < d.watts) }

/-- THERM TJ. -/
def Device.hot (d : Device) (tj : BitVec 8) : Device :=
  { d with therm := BitVec.ofNat 16 (fld d.therm.toNat 15 8 * 256 + tj.toNat) }

/-- POWER_WINDOW (R421): the average of a 10 ms window, held at or below WATTS by delays. -/
def execPowerWindow (watts : Nat) (s : State) : Out := .next (s.updDev (fun d => { d with watts := watts }.regulate))

/-- THERMAL_THROTTLE (R421): a junction temperature; from 105 °C up the lowest cap is in force. -/
def execThermalThrottle (tj : BitVec 8) (s : State) : Out := .next (s.updDev (fun d => (d.hot tj).regulate))

/-- THERMAL_TRIP (R421): at 115 °C fabric power is removed until a reset. -/
def execThermalTrip (tj : BitVec 8) (s : State) : Out :=
  let s := s.updDev (fun d => d.hot tj)
  .next { s with boot := { s.boot with off := s.boot.off || decide (115 ≤ tj.toNat) } }

end Sys2Proof.Machine
end

