-- ==== Sys2Proof/Machine/Place.lean ====
section
/-! DEFINITION. Placing one instruction where the next step takes it: a scalar word as the block a control core runs, a
stream command as the oldest of its port, a node record as a node of the current mantle. It stands for what fetch, the
command's issue and cfgld do from outside the module's reset state. -/
namespace Sys2Proof.Machine

/-- A mantle with nothing in it. -/
def Mantle.blank : Mantle := ⟨[], [], [], [], [], [], [], []⟩

/-- The memory a node slot begins a phase with: nothing consumed, nothing held. -/
def NodeMem.blank : NodeMem :=
  { pos := [0, 0, 0, 0], uses := [0, 0, 0, 0], opos := [0, 0], pack0 := [], pack1 := [], left0 := [], left1 := [],
    vals := [], occ := [], acc0 := [], acc1 := [], temp := [], n0 := 0, n1 := 0, n2 := 0, n3 := 0, b0 := false, b1 := false,
    b2 := false, begun := false, flags := [], osw := 0, resid := 0, owe := [], bad := false, nth := 0, parity := false, tag := none, win := [] }

/-- A node as a phase finds it (R357): IDLE, no beats, no tokens. -/
def Node.fresh (t : Tile) (slot : Nat) (i : Instr) (opc : Nat) (tens : List (BitVec 512)) (coef : List (BitVec 32)) : Node :=
  { tile := t, slot := slot, ins := i, opc := opc, st := .idle, inq := [[], [], [], [], []], outq := [[], []],
    held := false, stalled := 0, starved := 0, seen := (0, 0), wins := 0, thr := kiFloor, past := [],
    hops := List.replicate 4 0xFF800000#32, sent := 0xFF800000#32, tens := tens, coef := coef, mem := NodeMem.blank,
    clone := false }

/-- Places the instruction of a scalar word (32 bits), a command (128) or a node record (256) so that the next step runs
it: a fen that runs it is added, and its agent acts next. Any other width places nothing. -/
def State.place (s : State) (nbits w : Nat) : State :=
  let n := s.fens.length
  let x := { Fen.blank 0 1 1 1 1 with state := 2, mpts := [⟨0, 0, 1⟩, ⟨0, 1, 0⟩] }
  let ready : State := { s with sched := [], boot := { s.boot with rel := true } }
  if nbits = 32 then
    let c := { Core.blank with phase := .run, words := [BitVec.ofNat 32 w] }
    { ready with here := .core n, fens := s.fens ++ [{ x with core := c }] }
  else
    match decodeWord nbits w with
    | .error _ => ready
    | .ok i =>
      if nbits = 128 then
        { ready with here := .port n 0 0, fens := s.fens ++ [{ x with ports := [⟨.slot ⟨0, 0, 1⟩ 16 0, [Cmd.fresh i 0 0 (0, 0) 0 0]⟩] }] }
      else
        let slot := fld w 239 232
        let t : Tile := if slot < 16 then ⟨0, 1, 1⟩ else ⟨0, 0, 1⟩
        let m := { Mantle.blank with nodes := [Node.fresh t slot i (fld w 255 248) [0, 0, 0, 0] []] }
        { ready with here := .node n 0, fens := s.fens ++ [{ x with mantles := [some m, none, none, none] }] }

end Sys2Proof.Machine
end

