-- ==== Sys2Proof/Machine/Image.lean ====
section
/-! DEFINITION. Configuration images (R108): reading, the checks of R109 in their order, the mantle an image describes
with its circuits joined into wires (R102, R106, R107, R351 to R355), and cfgld (R184). -/
namespace Sys2Proof

/-- A use that carries Reed tokens. -/
def RefUse.isToken : RefUse → Bool
  | .token | .tokenOpt => true
  | _ => false

end Sys2Proof

namespace Sys2Proof.Machine

/-! ## Records of an image -/

/-- A number of n bytes at an offset. -/
def imgAt (img : List Byte) (o n : Nat) : Nat := leNat ((img.drop o).take n)

/-- A length padded to a multiple of 32. -/
def pad32 (n : Nat) : Nat := ceilDiv n 32 * 32

/-- A refusal: the offset of the part or record at fault, and the code of R109. -/
abbrev Flaw := Nat × Nat

/-- The flaw of a part, when a condition holds. -/
def flawIf (c : Bool) (off code : Nat) : List Flaw := if c then [(off, code)] else []

/-- The first flaw in image order: the least offset, and of one part or record the lowest code (log 34). -/
def firstFlaw : List Flaw → Option Flaw
  | [] => none
  | a :: r => match firstFlaw r with
    | some b => some (if b.1 < a.1 ∨ (b.1 = a.1 ∧ b.2 < a.2) then b else a)
    | none => some a

/-- A tile section: its offset, its tile when the fen has it, whether it is a memory-port tile's, its counts. -/
structure Sect where
  off    : Nat
  tile   : Option Tile
  mpt    : Bool
  nodes  : Nat
  routes : Nat
  deriving DecidableEq, Repr

/-- The tile sections from an offset, and their flaws. A section that LEN cuts short, or bytes left over, are a LEN that
disagrees with the parts. -/
def sections (x : Fen) (img : List Byte) : Nat → Nat → List Sect × List Flaw
  | 0, pos => ([], flawIf (pos != img.length) 0 3)
  | n + 1, pos =>
    if img.length < pos + 32 then ([], [(0, 3)])
    else
      let h := imgAt img pos 8
      let nn := fld h 47 32
      let nr := fld h 31 16
      let len := pad32 (32 + 32 * nn + 8 * nr)
      if 13 < nn ∨ 512 < nr then ([], [(pos, 3)])
      else if img.length < pos + len then ([], [(0, 3)])
      else
        let mpt := bit h 63
        let t := if mpt then x.mpts[fld h 55 52]? else x.desig x.anchor (fld h 62 52)
        let fl := flawIf t.isNone pos 5 ++
          flawIf ((mpt && fld h 62 56 != 0) || fld h 51 48 != 0 || fld h 15 0 != 0 || imgAt img (pos + 8) 24 != 0) pos 15
        let r := sections x img n (pos + len)
        (⟨pos, t, mpt, nn, nr⟩ :: r.1, fl ++ r.2)

/-- A node record in its place. -/
structure PNode where
  off  : Nat
  tile : Tile
  mpt  : Bool
  w    : Nat
  deriving DecidableEq, Repr

/-- SLOT of a record. -/
def PNode.slot (p : PNode) : Nat := fld p.w 239 232
/-- OPC of a record. -/
def PNode.opc (p : PNode) : Nat := fld p.w 255 248

/-- The node records of a section. -/
def Sect.recs (img : List Byte) (c : Sect) : List PNode :=
  match c.tile with
  | none => []
  | some t => (upto 0 c.nodes).map (fun k => let o := c.off + 32 + 32 * k; ⟨o, t, c.mpt, imgAt img o 32⟩)

/-- A route record in its place. -/
structure PRoute where
  off  : Nat
  tile : Tile
  w    : Nat
  deriving DecidableEq, Repr

/-- The route records of a section. -/
def Sect.ways (img : List Byte) (c : Sect) : List PRoute :=
  match c.tile with
  | none => []
  | some t => (upto 0 c.routes).map (fun k =>
      let o := c.off + 32 + 32 * c.nodes + 8 * k; ⟨o, t, imgAt img o 8⟩)

/-- The fields the matrix nodes share. -/
def matHdr : Instr → Option MatHdr
  | .mma _ m _ _ | .mpoly _ m _ | .miter _ m _ _ _ _ | .msort _ m | .mtrn _ m => some m
  | _ => none

/-- The use of input k of an opcode. -/
def inUse (opc k : Nat) : RefUse :=
  match nodeRow opc with
  | none => .unused
  | some r => if k = 0 then r.ins.1 else if k = 1 then r.ins.2.1 else if k = 2 then r.ins.2.2.1 else r.ins.2.2.2

/-- The use of output k of an opcode. -/
def outUse (opc k : Nat) : RefUse :=
  match nodeRow opc with
  | none => .unused
  | some r => if k = 0 then r.outs.1 else r.outs.2

/-- The kind of R106 that an output carries: 2 tokens, 3 thresholds, else 1. -/
def outKind (opc k : Nat) : Nat :=
  if (outUse opc k).isToken then 2 else if outUse opc k = RefUse.seepOpt then 3 else 1

/-- A node decoded in its place. -/
structure GNode where
  off  : Nat
  tile : Tile
  mpt  : Bool
  slot : Nat
  opc  : Nat
  w    : Nat
  ins  : Instr
  deriving DecidableEq, Repr

/-- The records that decode. -/
def goodNodes (l : List PNode) : List GNode :=
  l.filterMap (fun p => match decodeNode p.w with
    | .ok i => some ⟨p.off, p.tile, p.mpt, p.slot, p.opc, p.w, i⟩
    | .error _ => none)

/-- The instruction a record's fields give, whatever flaws it has: what its own place is checked by. -/
def looseNode (w : Nat) : Option Instr :=
  let opc := fld w 255 248
  if (nodeRow opc).isSome then some (nodeInstr opc (decodeNodeHdr w).1 w) else none

/-- A record stands at a place, good or bad. -/
def taken (l : List PNode) (t : Tile) (slot : Nat) : Bool := l.any (fun q => q.tile == t && q.slot == slot)

/-- Output k of a node feeds beats or tokens to others. -/
def GNode.feeds (g : GNode) (k : Nat) : Bool :=
  match (nodeHdr g.ins).outs[k]? with
  | none | some .none | some (.ring _) => false
  | some _ => true

/-- The node at a place. -/
def nodeIn (l : List GNode) (t : Tile) (slot : Nat) : Option GNode := l.find? (fun g => g.tile == t && g.slot == slot)

/-! ## Checks of the parts (R109) -/

/-- The parts' offsets: command ports, barriers, constants, sections. -/
structure Parts where
  nport : Nat
  nbar  : Nat
  nconst : Nat
  nsect : Nat
  oport : Nat
  obar  : Nat
  oconst : Nat
  osect : Nat
  deriving DecidableEq, Repr

/-- Reads the counts of a header. -/
def partsOf (img : List Byte) : Parts :=
  let h := imgAt img 0 64
  let np := fld h 383 368; let nb := fld h 367 352; let nc := fld h 351 336
  let ob := 1088 + pad32 (4 * np)
  let oc := ob + pad32 (8 * nb)
  ⟨np, nb, nc, fld h 415 400, 1088, ob, oc, oc + 32 * nc⟩

/-- The flaws of the header beyond its magic, version, LEN and CRC. -/
def headerFlaws (x : Fen) (img : List Byte) : List Flaw :=
  let h := imgAt img 0 64
  flawIf (fld h 63 56 != x.height || fld h 55 48 != x.width) 0 4 ++
  flawIf (!zeros h [(447, 416), (399, 384), (335, 64), (47, 32)]) 0 15

/-- The flaws of the ring table (R24, R27), with the references of every record, sound or not: a descriptor with V 0 is not checked. -/
def ringFlaws (s : State) (x : Fen) (img : List Byte) (recs : List PNode) : List Flaw :=
  let hs := (recs.filterMap (fun q => looseNode q.w)).map nodeHdr
  (upto 0 32).flatMap (fun k =>
    let o := 64 + 32 * k
    let d : Ring := BitVec.ofNat 256 (imgAt img o 32)
    let uses : List Ref → Bool := fun l => l.any (fun r => match r with | .ring h => h.toNat == k | _ => false)
    if !Ring.v d then []
    else
      flawIf (!x.ringFields d || (hs.any (fun h => uses h.ins) && Ring.cons d != 1) ||
        (hs.any (fun h => uses h.outs) && Ring.prod d != 1)) o 11 ++
      flawIf (s.goodTensor x.asid (Ring.tid d)).isNone o 14 ++
      flawIf (!Ring.reservedOk d) o 15)

/-- The flaws of the command-port table. A memory-port tile's designator has bits [9:4] zero (DESIGN CHOICE, log entry 168). -/
def portFlaws (x : Fen) (img : List Byte) (p : Parts) : List Flaw :=
  (upto 0 p.nport).flatMap (fun k =>
    let o := p.oport + 4 * k
    let e := imgAt img o 4
    let d := fld e 31 21; let slot := fld e 20 13
    let mpt := bit d 10
    flawIf (if mpt then fld d 9 4 != 0 || (x.mpts[fld d 3 0]?).isNone else (x.desig x.anchor d).isNone) o 5 ++
    flawIf (if mpt then decide (slot < 16 ∨ 22 < slot) else decide (12 < slot)) o 8 ++
    flawIf (fld e 10 0 != 0) o 15)

/-- The flaws of the barrier table. -/
def barFlaws (img : List Byte) (p : Parts) : List Flaw :=
  (upto 0 p.nbar).flatMap (fun k => let o := p.obar + 8 * k; flawIf (imgAt img o 8 % 32 != 0) o 15)

/-- A converter site (R349). -/
def isConverter (t : Tile) : Bool := [2, 6, 10, 14].contains t.row && [1, 3, 6, 8].contains t.col

/-- The tensor numbers a record names, and whether each is written: vset writes its visited bitmap (R34, log entry 143). Their formats
and ranks are not checked (DESIGN CHOICE, log entry 173). -/
def namedTensors : Instr → List (Nat × Bool)
  | .cvtNode _ _ a b => [(a.toNat, false), (b.toNat, false)]
  | .gath _ _ t _ => [(t.toNat, false)]
  | .scat n _ a b c _ => (a.toNat, true) :: (if n.var = 0#4 then [(b.toNat, true), (c.toNat, true)] else [])
  | .tomb _ _ t => [(t.toNat, false)]
  | .vset _ _ a b _ ten => (a.toNat, true) :: (if ten then [(b.toNat, false)] else [])
  | _ => []

/-- The descriptor a reference names. -/
def ringAt (img : List Byte) (h : Nat) : Ring := BitVec.ofNat 256 (imgAt img (64 + 32 * h) 32)

/-- The TID entry of the ring a reference names. -/
def State.refTensor (s : State) (x : Fen) (img : List Byte) (r : Ref) : Option Tensor :=
  match r with
  | .ring h => s.goodTensor x.asid (Ring.tid (ringAt img h.toNat))
  | _ => none

/-- The flaws of one reference: an absent handle, constant or slot (code 10). A source whose own record is at fault is
judged there. -/
def refFlaws (img : List Byte) (p : Parts) (all : List PNode) (ns : List GNode) (g : GNode) (use : RefUse) (isIn : Bool)
    (r : Ref) : List Flaw :=
  match r with
  | .ring h => flawIf (!Ring.v (ringAt img h.toNat)) g.off 10
  | .const k => flawIf (decide (p.nconst ≤ k.toNat)) g.off 10
  | .near sl o =>
    if !isIn then []
    else match nodeIn ns g.tile sl.toNat with
      | none => flawIf (!taken all g.tile sl.toNat) g.off 10
      | some q =>
        let k := b2n o
        let tok := outKind q.opc k == 2
        flawIf (!q.feeds k || (use != .any && tok != use.isToken) || outKind q.opc k == 3) g.off 10
  | _ => []

/-- The flaws of a guard's source (R103). -/
def guardFlaws (all : List PNode) (ns : List GNode) (g : GNode) : List Flaw :=
  match (nodeHdr g.ins).guard with
  | .near o sl =>
    (match nodeIn ns g.tile sl.toNat with
     | none => flawIf (!taken all g.tile sl.toNat) g.off 10
     | some q => flawIf (!q.feeds (b2n o) || outKind q.opc (b2n o) != 2) g.off 10)
  | _ => []

/-- The accumulator and D formats that MMA's operand formats select (R237); CF8 reads as e4m3 (R70). -/
def mmaFormats (a b : Fmt) : Option (Fmt × List Fmt) :=
  let d : List Fmt := [.f32, .bf16, .f16, .e4m3, .e5m2]
  let small : List Fmt := [.e4m3, .e5m2, .cf8]
  if a = .f64 ∧ b = .f64 then some (.f64, [.f64, .f32])
  else if (a = .f32 ∧ b = .f32) ∨ (a = .bf16 ∧ b = .bf16) ∨ (a = .f16 ∧ b = .f16) ∨
      (small.contains a ∧ small.contains b) then some (.f32, d)
  else if [Fmt.i8, .n8].contains a ∧ [Fmt.i8, .n8].contains b then some (.i32, [.i32])
  else none

/-- A ring that carries matrix tiles (R236). -/
def tileRingOk (d : Ring) (t : Tensor) : Bool :=
  Tensor.rank t == 2 && Tensor.dim t 0 == 32 && Tensor.dim t 1 == 32 &&
  decide (1024 * landSize (Tensor.fmt t) ≤ Ring.bytes d)

/-- The flaws that a node's rings and shared matrix fields show (R227, R236, R237, R239, R240, R248). -/
def State.nodeRingFlaws (s : State) (x : Fen) (img : List Byte) (p : Parts) (g : GNode) : List Flaw :=
  let n := nodeHdr g.ins
  let t : Ref → Option Tensor := s.refTensor x img
  let fm : Ref → Option Fmt := fun r => (t r).map Tensor.fmt
  let ringBad : Ref → Bool := fun r => match r with
    | .ring h => match t r with | some e => !tileRingOk (ringAt img h.toNat) e | none => false
    | _ => false
  let isF : Ref → Bool := fun r => match fm r with | some f => [Fmt.f32, .bf16, .f16].contains f | none => true
  let bar := match matHdr g.ins with | some m => flawIf (m.baren && decide (p.nbar ≤ m.barix.toNat)) g.off 10 | none => []
  let tiles := if g.opc = 0x2B then [] else flawIf ((n.ins ++ n.outs).any ringBad) g.off 11
  match g.ins with
  | .mma .. =>
    let bad := match fm n.in0, fm n.in1, fm n.out0 with
      | some a, some b, some d => (match mmaFormats a b with
        | none => true
        | some q => !q.2.contains d || (match fm n.in2 with | some c => c != q.1 | none => false))
      | _, _, _ => false
    bar ++ flawIf bad g.off 7 ++ tiles
  | .mpoly .. | .miter .. => bar ++ flawIf (!(n.ins ++ n.outs).all isF) g.off 7 ++ tiles
  | .mtrn .. =>
    let bad := match fm n.in0, fm n.out0 with
      | some a, some b => a != b || a == .cf8 || a == .ki
      | _, _ => false
    bar ++ flawIf bad g.off 7 ++ tiles
  | .msort .. => bar
  | .prime _ nm1 => (match n.in1 with
    | .const k => flawIf (decide (p.nconst ≤ k.toNat + nm1.toNat)) g.off 10
    | _ => [])
  | _ =>
    if g.opc ≤ 0x22 then
      flawIf ((n.ins ++ n.outs).any (fun r => match fm r with | some f => f != n.fmt | none => false)) g.off 11
    else []

/-- The flaws of a node record in its place. -/
def State.nodeFlaws (s : State) (x : Fen) (img : List Byte) (p : Parts) (all : List PNode) (ns : List GNode) (q : PNode) :
    List Flaw :=
  flawIf (all.any (fun r => decide (r.off < q.off) && r.tile == q.tile && r.slot == q.slot)) q.off 9 ++
  (match decodeNode q.w with | .error e => [(q.off, e.cfgCode)] | .ok _ => []) ++
  (match looseNode q.w with
   | none => []
   | some i =>
     let g : GNode := ⟨q.off, q.tile, q.mpt, q.slot, q.opc, q.w, i⟩
     let n := nodeHdr i
     let isCvt := match i with | .cvtNode .. => true | _ => false
     flawIf (q.mpt != decide (16 ≤ q.slot) || (isCvt && !isConverter q.tile)) q.off 8 ++
     (n.ins.zipIdx).flatMap (fun r => refFlaws img p all ns g (inUse g.opc r.2) true r.1) ++
     (n.outs.zipIdx).flatMap (fun r => refFlaws img p all ns g (outUse g.opc r.2) false r.1) ++
     guardFlaws all ns g ++ s.nodeRingFlaws x img p g ++
     (namedTensors i).flatMap (fun k => match s.goodTensor x.asid k.1 with
       | none => [(q.off, 14)]
       | some t => flawIf (k.2 && Tensor.wp t) q.off 14))

/-! ## The graph of lanes (R106, R107) -/

/-- A source as its branches name it: an incoming lane of a tile, or an output of a node. -/
inductive SrcKey where
  | lane (l : Lane)
  | out (t : Tile) (slot k : Nat)
  deriving DecidableEq, Repr

/-- A branch onto an outgoing lane: its source, the lane, whether a route record makes it, DISC, its record. -/
structure OutEdge where
  src   : SrcKey
  lane  : Lane
  route : Bool
  disc  : Bool
  off   : Nat
  deriving DecidableEq, Repr

/-- A branch into a node's input. -/
structure InEdge where
  src  : SrcKey
  tile : Tile
  slot : Nat
  port : Nat
  off  : Nat
  deriving DecidableEq, Repr

/-- The outgoing lane of an output reference. -/
def outLane (t : Tile) : Ref → Option Lane
  | .circuit d l => some ⟨t, 1, d.toNat, l.toNat⟩
  | .reed d l => some ⟨t, 2, d.toNat, l.toNat⟩
  | .seep d l => some ⟨t, 3, d.toNat, l.toNat⟩
  | _ => none

/-- The source an input reference binds. -/
def inKey (t : Tile) : Ref → Option SrcKey
  | .near s o => some (.out t s.toNat (b2n o))
  | r => (outLane t r).map SrcKey.lane

/-- The source a guard binds. -/
def guardKey (t : Tile) : Guard → Option SrcKey
  | .off => none
  | .reed d l => some (.lane ⟨t, 2, d.toNat, l.toNat⟩)
  | .near o s => some (.out t s.toNat (b2n o))

/-- The outgoing edges of nodes and routes, in image order. -/
def outEdges (ns : List GNode) (rs : List PRoute) : List OutEdge :=
  ns.flatMap (fun g => ((nodeHdr g.ins).outs.zipIdx).filterMap (fun r =>
    (outLane g.tile r.1).map (fun l => ⟨.out g.tile g.slot r.2, l, false, false, g.off⟩))) ++
  rs.map (fun r =>
    let k := fld r.w 63 60
    let key : SrcKey := if fld r.w 59 57 = 4 then .out r.tile (fld r.w 52 45) (fld r.w 44 44)
      else .lane ⟨r.tile, k, fld r.w 59 57, fld r.w 56 53⟩
    ⟨key, ⟨r.tile, k, fld r.w 43 41, fld r.w 40 37⟩, true, bit r.w 36, r.off⟩)

/-- The edges into nodes. -/
def inEdges (ns : List GNode) : List InEdge :=
  ns.flatMap (fun g =>
    let n := nodeHdr g.ins
    (n.ins.zipIdx).filterMap (fun r => (inKey g.tile r.1).map (fun k => ⟨k, g.tile, g.slot, r.2, g.off⟩)) ++
    (match guardKey g.tile n.guard with | some k => [⟨k, g.tile, g.slot, 4, g.off⟩] | none => []))

/-- The flaws of a route record (R106). -/
def routeFlaws (all : List PNode) (ns : List GNode) (r : PRoute) : List Flaw :=
  let k := fld r.w 63 60
  let lim := if k = 2 then 15 else 7
  let idir := fld r.w 59 57
  if k < 1 ∨ 3 < k ∨ 4 < idir ∨ 3 < fld r.w 43 41 ∨ lim < fld r.w 40 37 then [(r.off, 10)]
  else
    flawIf (if idir = 4 then
        (match nodeIn ns r.tile (fld r.w 52 45) with
         | none => !taken all r.tile (fld r.w 52 45)
         | some g => !g.feeds (fld r.w 44 44) || outKind g.opc (fld r.w 44 44) != k)
      else decide (lim < fld r.w 56 53)) r.off 10 ++
    flawIf ((if idir = 4 then fld r.w 56 53 != 0 else fld r.w 52 44 != 0) || (bit r.w 36 && k != 1) || fld r.w 35 0 != 0)
      r.off 15

/-- How many entries of a list, before entry k of it, come earlier in the image, where entries of one record keep the order
of the list. -/
def earlier {α : Type} [BEq α] (l : List (α × Nat)) (p : (α × Nat) × Nat) : Nat :=
  (l.zipIdx).countP (fun q => q.1.1 == p.1.1 && (decide (q.1.2 < p.1.2) || (q.1.2 == p.1.2 && decide (q.2 < p.2))))

/-- A second source of a circuit or Reed lane, and a ninth branch of a source (code 12): the record at fault is the second
and the ninth in image order. -/
def forkFlaws (os : List OutEdge) (is : List InEdge) : List Flaw :=
  let lanes := (os.filter (fun e => e.lane.kind != 3)).map (fun e => (e.lane, e.off))
  let seep : SrcKey → Bool := fun k => match k with | .lane l => l.kind == 3 | .out .. => false
  let keys : List (SrcKey × Nat) :=
    ((os.filter (fun e => e.lane.kind != 3)).map (fun e => (e.src, e.off)) ++ is.map (fun e => (e.src, e.off))).filter
      (fun k => !seep k.1)
  (lanes.zipIdx).flatMap (fun p => flawIf (earlier lanes p != 0) p.1.2 12) ++
  (keys.zipIdx).flatMap (fun p => flawIf (earlier keys p == 8) p.1.2 12)

/-- The tile beside a tile in a direction, when the grid has one. -/
def Tile.beside (t : Tile) (dir : Nat) : Option Tile :=
  if dir = 0 then (if t.row = 0 then none else some { t with row := t.row - 1 })
  else if dir = 1 then (if 9 ≤ t.col then none else some { t with col := t.col + 1 })
  else if dir = 2 then (if 17 ≤ t.row then none else some { t with row := t.row + 1 })
  else if t.col = 0 then none else some { t with col := t.col - 1 }

/-- A corner tile: neither a compute tile nor a memory-port tile, so it has no switch with lanes (R348, R349). -/
def Tile.corner (t : Tile) : Bool := (t.row == 0 || t.row == 17) && (t.col == 0 || t.col == 9)

/-- The tile a lane leaves toward: lanes join compute tiles and memory-port tiles only (R349). -/
def Lane.next (l : Lane) : Option Tile :=
  if l.tile.corner then none
  else match l.tile.beside l.dir with
    | some u => if u.corner then none else some u
    | none => none

/-- The circuit or Reed lane whose owner field covers a lane: its own, and for a seep lane its paired circuit lane, which runs
the other way (R354, R375). -/
def Lane.paired (l : Lane) : Lane :=
  if l.kind = 3 then
    (match l.next with
     | some u => { l with tile := u, kind := 1, dir := (l.dir + 2) % 4 }
     | none => l)
  else l

/-- The owner field of a lane (R375, R403). -/
def Lane.owner (l : Lane) (s : State) : Nat :=
  let k := l.paired
  s.owner (ownerOfs k.tile (if k.kind = 2 then 33 + 16 * k.dir + k.lane else 1 + 8 * k.dir + k.lane))

/-- A lane that the fen controller captures: x13 to x15 leaving the anchor northward (R356). -/
def Fen.captures (x : Fen) (l : Lane) : Bool :=
  l.kind == 2 && l.tile == x.anchor && l.dir == 0 && decide (13 ≤ l.lane)

/-- A lane a fen may use (R376): between two of its tiles, unless another partition owns it; elsewhere only when its own
partition does. -/
def Fen.laneOk (x : Fen) (s : State) (l : Lane) : Bool :=
  let mine : Tile → Bool := fun t => x.holds t || x.mpts.contains t
  let o := l.owner s
  x.captures l || o == 16 + x.part || (decide (o < 16) && (match l.next with | some t => mine l.tile && mine t | none => false))

/-! ## Wires (R352, R353) -/

/-- A piece of a circuit still to be followed: where its beats come from, the source reached, hops since then, and
whether route records seen so far all have DISC. -/
structure Trail where
  src   : End
  key   : SrcKey
  kind  : Nat
  hops  : Nat
  disc  : Bool
  route : Bool
  deriving DecidableEq, Repr

/-- The slack of a branch after h hops (R353). -/
def slack (kind h : Nat) : Nat := if kind = 2 then 4 * h + 32 else 2 * h + 16

/-- The stages of h hops of a circuit. -/
def stages (kind h : Nat) : Nat := if kind = 2 then 4 * h else 2 * h

/-- The wires and fork stages of a mantle, followed from every output. A fork away from its source has a stage of its
own, which its branches share. -/
def follow (x : Fen) (os : List OutEdge) (is : List InEdge) : Nat → List Trail → List Trail → List Wire → List Relay →
    List Wire × List Relay
  | 0, _, _, ws, rs => (ws, rs)
  | _, [], _, ws, rs => (ws, rs)
  | n + 1, t :: todo, seen, ws, rs =>
    if t.kind = 3 ∧ seen.any (fun u => u.src == t.src && u.key == t.key) then follow x os is n todo seen ws rs
    else
      let outs := os.filter (fun e => e.src == t.key)
      let ins := is.filter (fun e => e.src == t.key)
      let fork := decide (outs.length + ins.length ≠ 1) && t.hops != 0 && t.kind != 3
      let src := if fork then End.relay rs.length else t.src
      let h := if fork then 0 else t.hops
      let rs1 := if fork then rs ++ [⟨stages t.kind t.hops, []⟩] else rs
      let w0 : List Wire := if fork then [⟨t.src, t.kind, src, stages t.kind t.hops, false⟩] else []
      let w1 := ins.map (fun e => (⟨src, t.kind, .node e.tile e.slot e.port, slack t.kind h, t.disc && t.route⟩ : Wire))
      let caught := outs.filter (fun e => x.captures e.lane)
      let w2 := caught.map (fun e => (⟨src, t.kind, .sel e.lane.lane, 0, false⟩ : Wire))
      let more : List Trail := outs.filterMap (fun e =>
        if x.captures e.lane then none
        else e.lane.next.map (fun u =>
          ⟨src, .lane ⟨u, e.lane.kind, (e.lane.dir + 2) % 4, e.lane.lane⟩, t.kind, h + 1,
           t.disc && (!e.route || e.disc), t.route || e.route⟩))
      follow x os is n (more ++ todo) (t :: seen) (ws ++ w0 ++ w1 ++ w2) rs1

/-- The trails that begin at a node's outputs. -/
def GNode.trails (g : GNode) : List Trail :=
  [0, 1].filterMap (fun k =>
    if g.feeds k then some ⟨.node g.tile g.slot k, .out g.tile g.slot k, outKind g.opc k, 0, true, false⟩ else none)

/-- The wires and fork stages of an image. -/
def wiring (x : Fen) (ns : List GNode) (rs : List PRoute) : List Wire × List Relay :=
  let os := outEdges ns rs
  let ts := ns.flatMap GNode.trails
  follow x os (inEdges ns) ((ts.length + 1) * (os.length + 2)) ts [] [] []

/-! ## The mantle -/

/-- The tensor entries a node captures at load (R36): of its rings for a matrix node, of its parameters for others. -/
def State.captured (s : State) (x : Fen) (img : List Byte) (g : GNode) : List (BitVec 512) :=
  let n := nodeHdr g.ins
  if (matHdr g.ins).isSome then [n.in0, n.in1, n.in2, n.out0, n.out1].map (fun r => (s.refTensor x img r).getD 0)
  else (namedTensors g.ins).map (fun k => (s.goodTensor x.asid k.1).getD 0)

/-- The coefficients of MPOLY and MITER, read when the mantle is loaded (R240). -/
def coefs (img : List Byte) (p : Parts) (g : GNode) : List (BitVec 32) :=
  match g.ins with
  | .mpoly n _ _ | .miter n _ _ _ _ _ =>
    (match n.in1 with
     | .const k => (upto 0 8).map (fun j => BitVec.ofNat 32 (imgAt img (p.oconst + 32 * k.toNat + 4 * j) 4))
     | _ => [])
  | _ => []

/-- The mantle of an image that passed every check. -/
def State.mantleOf (s : State) (x : Fen) (img : List Byte) (p : Parts) (ns : List GNode) (rs : List PRoute) : Mantle :=
  let w := wiring x ns rs
  { rings := (upto 0 32).map (fun k => Ring.written (ringAt img k))
    ports := (upto 0 p.nport).map (fun k => BitVec.ofNat 32 (imgAt img (p.oport + 4 * k) 4))
    bars := (upto 0 p.nbar).map (fun k => BitVec.ofNat 64 (imgAt img (p.obar + 8 * k) 8))
    consts := (upto 0 p.nconst).map (fun k => BitVec.ofNat 256 (imgAt img (p.oconst + 32 * k) 32))
    nodes := ns.map (fun g => Node.fresh g.tile g.slot g.ins g.opc (s.captured x img g) (coefs img p g))
    wires := w.1
    relays := w.2
    lanes := (outEdges ns rs).map (fun e => e.lane) }

/-- The checks of R109 that follow the header's first ones, and the mantle when none fails. -/
def State.loadImage (s : State) (x : Fen) (img : List Byte) : Except Flaw Mantle :=
  if crc32c (img.take 60 ++ List.replicate 4 0 ++ img.drop 64) ≠ imgAt img 60 4 then .error (0, 2)
  else
    let p := partsOf img
    if p.nsect < 1 ∨ 144 < p.nsect ∨ 127 < p.nport ∨ 64 < p.nbar ∨ 256 < p.nconst then .error (0, 3)
    else
      let sc := sections x img p.nsect p.osect
      let recs := sc.1.flatMap (Sect.recs img)
      let ways := sc.1.flatMap (Sect.ways img)
      let ns := goodNodes recs
      let os := outEdges ns ways
      let flaws := headerFlaws x img ++ sc.2 ++ ringFlaws s x img recs ++ portFlaws x img p ++ barFlaws img p ++
        recs.flatMap (s.nodeFlaws x img p recs ns) ++ ways.flatMap (routeFlaws recs ns) ++ forkFlaws os (inEdges ns) ++
        os.flatMap (fun e => flawIf (!x.laneOk s e.lane) e.off 13)
      match firstFlaw flaws with
      | some f => .error f
      | none => .ok (s.mantleOf x img p ns ways)

/-! ## Reading an image -/

/-- How many bytes the loader needs, given those it has: the header, then LEN (R109 steps 2 and 3). -/
def imgWants (img : List Byte) : Except Flaw Nat :=
  if img.length < 64 then .ok 64
  else
    let h := imgAt img 0 64
    let len := fld h 479 448
    if fld h 15 0 ≠ 0x4D4C ∨ fld h 31 16 ≠ 1 then .error (0, 1)
    else if len < 1120 ∨ 664640 < len ∨ len % 32 ≠ 0 then .error (0, 3)
    else .ok len

/-- What a loader's turn comes to. -/
inductive ImgStep where
  /-- bytes were read -/
  | more (bs : List Byte) (st : BitVec 32) (s : State)
  | wait (s : State)
  | refused (f : Flaw) (s : State)
  | loaded (m : Mantle)

/-- One turn of a loader that has read part of an image: the next piece, or the checks. A non-replayable fault is
code 19, at the first byte needed where it struck. -/
def State.imgStep (s : State) (x : Fen) (rq : Req) (va : Nat) (img : List Byte) : ImgStep :=
  match imgWants img with
  | .error f => .refused f s
  | .ok n =>
    if img.length < n then
      let a := va + img.length
      let k := min 64 (n - img.length)
      let r : Res (List Byte × BitVec 32) :=
        if 2 ^ 48 ≤ a then s.meetFault x.asid rq ⟨a, .read, 0, 0⟩
        else (s.xlateFor x rq .read a).bind (fun ph s => s.readAt rq ph a k)
      match r with
      | .ok b s => .more b.1 b.2 s
      | .wait s => .wait s
      | .fault y s => .refused (y.va - va, 19) s
    else match s.loadImage x img with
      | .error f => .refused f s
      | .ok m => .loaded m

/-- cfgld (R184): reads and checks an image, 64 bytes a turn; the mantle is replaced at commit when the code is 0. -/
def execCfgld (rd ra rb : Reg) (s : State) : Out :=
  onCore s (fun f x =>
    let a := x.core.get ra
    let m := (x.core.get rb).toNat
    let done : State → Flaw → State := fun s fl =>
      s.updCore f (fun c => { c.put rd (BitVec.ofNat 64 (fl.2 + fl.1 * 256)) with img := [] }.adv)
    if fld a.toNat 63 48 ≠ 0 then s.abortTrap f 10 a
    else if fld a.toNat 5 0 ≠ 0 then s.abortTrap f 4 a
    else if 3 < m then done s (0, 17)
    else if m = x.cur then done s (0, 18)
    else match s.imgStep x (coreReq f x) a.toNat x.core.img with
      | .more bs st s => s.updCore f (fun c => { c.orStat st with img := c.img ++ bs })
      | .wait s => s
      | .refused fl s => done s fl
      | .loaded img => done (s.updCore f (fun c => c.defer (.cfgld m img))) (0, 0))

end Sys2Proof.Machine
end

