-- ==== Sys2Proof/Machine/Copy.lean ====
section
/-! DEFINITION. The AG and GS commands that move data (R198 to R208): copy, copyr, copyx, copyred, gather, scatter, fill,
agload, sbar; and pref, inval, flush (R218). Each turn of a command does one unit of its work. -/
namespace Sys2Proof.Machine

/-! ## Accesses of an engine -/

/-- Some byte just read was uncorrectable. -/
def badOf (st : BitVec 32) : Bool := (st &&& Osw.poison) != 0

/-- A read of global memory for element k of a command. -/
def State.engIssue (s : State) (a : CmdAt) (k va n : Nat) : Res (List Byte × BitVec 32) :=
  let rq := a.req k
  if 2 ^ 48 ≤ va then s.meetFault a.x.asid rq ⟨va, .read, 0, 0⟩
  else (s.xlateFor a.x rq .read va).bind (fun ph s => s.readAt rq ph va n)

/-- A read issued ahead, which the reorder window holds (R325). -/
def Cmd.issuedRead (c : Cmd) (k va : Nat) : Option Ahead := c.early.find? (fun h => h.elem == k && h.va == va)

/-- The bytes of such a read, once they have come. -/
def Cmd.heldRead (c : Cmd) (k va : Nat) : Option (List Byte × BitVec 32) := (c.issuedRead k va).bind Ahead.got

/-- Reads a piece of global memory for element k of a command, or delivers it where it was issued ahead. -/
def State.engRead (s : State) (a : CmdAt) (k va n : Nat) : Res (List Byte × BitVec 32) :=
  match a.c.issuedRead k va with
  | none => s.engIssue a k va n
  | some h => match h.got, h.home with
    | some d, home => let q := s.deliver (a.req k) home va d; .ok q.1 q.2
    | none, some ph => s.readAt (a.req k) ph va n
    | none, none => s.engIssue a k va n

/-! ## The reorder window of a command (R325, R326) -/

/-- An access of a command that is still to come: element, address, bytes, whether it writes. -/
structure Piece where
  k  : Nat
  va : Nat
  n  : Nat
  wr : Bool
  deriving DecidableEq, Repr

/-- Two accesses touch a common byte, by virtual address (log entry 164). -/
def Piece.meets (p q : Piece) : Bool := decide (p.va < q.va + q.n) && decide (q.va < p.va + p.n)

/-- A read of the window that was sent ahead, changed. -/
def Cmd.setAhead (c : Cmd) (h : Ahead) : Cmd :=
  { c with early := c.early.filter (fun g => decide (c.pos ≤ g.elem) && !(g.elem == h.elem && g.va == h.va)) ++ [h] }

/-- A read that leaves the module stays behind an earlier access of its command whose place is not known, or that it meets there:
its data cannot be read again (R310, log entry 164). -/
def Cmd.staysBehind (c : Cmd) (ph : Phys) (n : Nat) (past : List Piece) : Bool :=
  ph.typ.leaves && past.any (fun q => match c.issuedRead q.k q.va with
    | none => true
    | some h => h.home.any (fun g => decide (g.key < ph.key + n) && decide (ph.key < g.key + q.n)))

/-- Issues the first read of a list that can be, behind accesses that wait: it is translated and touches no byte of an earlier
one (R310, R325); its data is held. One that has been issued goes on where its translation led (R326). Writes ask for their
translations. -/
def State.readAhead (s : State) (a : CmdAt) : List Piece → List Piece → State
  | _, [] => s
  | past, p :: r =>
    if (a.c.heldRead p.k p.va).isSome then s.readAhead a (past ++ [p]) r
    else if p.wr then (s.askFor a.x (a.req p.k) .write p.va).readAhead a (past ++ [p]) r
    else if past.any p.meets || decide (2 ^ 48 ≤ p.va) then s.readAhead a (past ++ [p]) r
    else match (match (a.c.issuedRead p.k p.va).bind Ahead.home with
      | some ph => Res.ok ph s
      | none => s.xlateFor a.x (a.req p.k) .read p.va) with
    | .wait s => s.readAhead a (past ++ [p]) r
    | .fault _ t => s.faultEnd t a.f (a.req p.k)
    | .ok ph s =>
      let sent := s.updCmd a.f a.p a.k (fun c => c.setAhead ⟨p.k, p.va, some ph, none⟩)
      if a.c.staysBehind ph p.n past then sent.readAhead a (past ++ [p]) r
      else match sent.readAt (a.req p.k) ph p.va p.n with
        | .wait s => s.readAhead a (past ++ [p]) r
        | .fault _ t => s.faultEnd t a.f (a.req p.k)
        | .ok d s => s.updCmd a.f a.p a.k (fun c => c.setAhead ⟨p.k, p.va, some ph, some d⟩)

/-- While an access of a command waits, a later read may be issued. `rd` and `wr` give the accesses of an element, `lo` is the
oldest element not yet landed, `hi` the next to be read, `reads` says that it is this one that waits; of the span of 64
elements of the port's stream no more than `lim` exist. -/
def windowed (a : CmdAt) (rd wr : Nat → List Piece) (lo hi lim : Nat) (reads : Bool) (r : Res Cmd) : Res Cmd :=
  match r with
  | .wait s =>
    let from' := if reads then hi + 1 else hi
    let past := (upto lo (hi - lo)).flatMap wr ++ (if reads then rd hi ++ wr hi else [])
    .wait (s.readAhead a past ((upto from' (min lim (lo + (64 - a.before)) - from')).flatMap (fun m => rd m ++ wr m)))
  | r => r

/-- While a token is awaited, later ones whose place is known ask for their translations (R325). -/
def tokensAhead (a : CmdAt) (t : Tensor) (n step lim : Nat) (ix : Nat → List Nat) (r : Res Cmd) : Res Cmd :=
  match r with
  | .wait s =>
    if Tensor.blen t = 0 then .wait s
    else .wait ((upto 1 (min (63 - a.before) ((lim - n) / step))).foldl (fun s k =>
      s.askFor a.x (a.req (n + step * k)) .read (Tensor.addr t (ix (n + step * k)))) s)
  | r => r

/-- The bytes of elements kept with their marks: z bytes and a mark each. -/
def unmark (z : Nat) : Nat → List Byte → List Byte
  | 0, _ => []
  | n + 1, l => l.take z ++ unmark z n (l.drop (z + 1))

/-- Marks uncorrectable the elements at a place whose mark is set. -/
def State.remark (s : State) (ph : Phys) (z : Nat) : Nat → List Byte → State
  | 0, _ => s
  | n + 1, l =>
    let s := if (l[z]?).getD 0 != 0 then s.markPoison ph z else s
    s.remark { ph with key := ph.key + z } z n (l.drop (z + 1))

/-- Writes the n elements in hand, which lie in one granule, as one access (R291, R304); uncorrectable ones are written with
poison (R197). -/
def State.engWriteRun (s : State) (a : CmdAt) (k va z n : Nat) (data : List Byte) : Res Unit :=
  let rq := a.req k
  if 2 ^ 48 ≤ va then s.meetFault a.x.asid rq ⟨va, .write, 0, 0⟩
  else (s.xlateFor a.x rq .write va).bind (fun ph s =>
    (s.writeAt rq ph va (unmark z n data)).bind (fun _ s => .ok () (s.remark ph z n data)))

/-- An element in hand, with its mark. -/
def marked (bs : List Byte) (bad : Bool) : List Byte := bs ++ [if bad then 1 else 0]

/-- Writes bytes of an engine into scratch; each granule whose last byte lands is set full (R22, R202). -/
def State.landScratch (s : State) (t : Tile) (o : Nat) (bs : List Byte) (bad : Bool) : State :=
  let k := keyScratch t o
  let s := s.updMem (fun m => m.putN k bs)
  let s := if bad then s.markPoison (scratchPhys t o) bs.length else s
  s.updMem (fun m => m.mark (k / 16) ((k + bs.length) / 16 - k / 16) true)

/-- An element's encoding in the destination format (R199). -/
def convElem (src dst : Fmt) (v : Nat) (rm : BitVec 2) (sat : Bool) : Rslt :=
  if src = dst then (v, 0) else convert v src dst rm.toNat sat

/-- Element n of a window's shape w as it is read from the target t at an origin, converted to format d: its bytes,
status, and whether it is uncorrectable. Beyond a ZPAD target it is +0 (R198). -/
def State.windowRead (s : State) (a : CmdAt) (w t : Tensor) (o : List Nat) (n : Nat) (d : Fmt) (rm : BitVec 2) (sat : Bool) :
    Res (List Byte × BitVec 32 × Bool) :=
  let j := windowIx w o (Tensor.indexOf w n)
  if !Tensor.inside t j then .ok (List.replicate (landSize d) 0, 0, false) s
  else (s.engRead a n (Tensor.addr t j) (Fmt.esize (Tensor.fmt t))).bind (fun r s =>
    let v := convElem (Tensor.fmt t) d (leNat r.1) rm sat
    .ok (toLE (landSize d) v.1, v.2 ||| r.2, badOf r.2) s)

/-- The read of element n of a window (`State.windowRead`). -/
def windowPiece (w t : Tensor) (o : List Nat) (n : Nat) : List Piece :=
  let j := windowIx w o (Tensor.indexOf w n)
  if Tensor.inside t j then [⟨n, Tensor.addr t j, Fmt.esize (Tensor.fmt t), false⟩] else []

/-- The place in a port's records. -/
def CmdAt.place (a : CmdAt) : Tile × Nat := a.x.portPlace a.key

/-- The descriptor of a command's ring. -/
def CmdAt.ring (a : CmdAt) (h : BitVec 5) : Ring := a.x.ringOf a.c.man h.toNat

/-- The tile of a command's ring. -/
def CmdAt.ringTile (a : CmdAt) (h : BitVec 5) : Tile := (a.x.ringTile (a.ring h)).getD a.x.anchor

/-- A command stopped by its ring (R202). -/
def Cmd.stop (c : Cmd) : Cmd := c.finish Osw.aborted

/-- The check of a ring at an engine's advance or wait: `k` when it passes, ABORTED when it does not. -/
def ringGate (a : CmdAt) (s : State) (h : BitVec 5) (k : State → Res Cmd) : Res Cmd :=
  let p := a.place
  let r := s.ringCheck a.f a.c.man h.toNat p.1 p.2
  if r.1 then k r.2 else .ok a.c.stop r.2

/-! ## copy -/

/-- copy (R201): a turn reads one element of the window, or writes those in hand: as many as lie one behind the other in one
granule of the destination, before a read that touches one of them (R310). -/
def execCopy (_h : CmdHdr) (_src : BitVec 12) (rm : BitVec 2) (sat : Bool) (_dst : BitVec 12) (o2 o1 o0 : BitVec 16)
    (s : State) : Out :=
  runCmd s (fun a s =>
    let c := a.c
    let w := c.ten1
    let t := c.ten0
    let z := landSize (Tensor.fmt w)
    let addr : Nat → Nat := fun n => Tensor.addr w (Tensor.indexOf w n)
    let run := max 1 (runLen addr z (Tensor.count w) c.pos 16)
    let have' := c.data.length / (z + 1)
    let o := [o0.toNat, o1.toNat, o2.toNat]
    let rd := windowPiece w t o
    let wr : Nat → List Piece := fun n => [⟨n, addr n, z, true⟩]
    let reads := decide (have' < run) && !(rd (c.pos + have')).any (fun p => ((upto c.pos have').flatMap wr).any p.meets)
    if Tensor.count w ≤ c.pos then .ok (c.finish 0) s
    else windowed a rd wr c.pos (c.pos + have') (Tensor.count w) reads
      (if reads then
        (s.windowRead a w t o (c.pos + have') (Tensor.fmt w) rm sat).bind (fun r s =>
          .ok { c with data := c.data ++ marked r.1 r.2.2, osw := c.osw ||| r.2.1 } s)
       else
        (s.engWriteRun a c.pos (addr c.pos) z have' c.data).bind (fun _ s =>
          .ok { c with data := [], pos := c.pos + have', bytes := c.bytes + have' * z } s)))

/-! ## CF8 tokens as an engine reads them (R35, R66 to R69) -/

/-- A command that has lost synchronisation in a tensor of packed tokens. -/
def lostSync : Nat := 2 ^ 32

/-- Where the token of an element lies and the bytes it can reach: by its pitch, or at the command's unit position. -/
def tokenPlace (c : Cmd) (t : Tensor) (ix : List Nat) : Nat × Nat :=
  if Tensor.blen t ≠ 0 then (Tensor.addr t ix, 2 * Tensor.blen t)
  else (Tensor.base t + 2 * c.sub, 50 * Tensor.dim t 0 / 32 - 2 * c.sub)

/-- How many bytes of a token the decoder needs, given those read: its header, then the units its LEN gives. -/
def tokenNeeds (raw : List Byte) (limit : Nat) : Nat :=
  if raw.length < 2 then min 2 limit else min (2 * max (fld (leNat (raw.take 2)) 7 0) 1) limit

/-- One piece of a token's reading, or its decode: `k` takes the command past the token and its 32 bytes. -/
def State.token (s : State) (a : CmdAt) (n : Nat) (t : Tensor) (ix : List Nat) (k : Cmd → List Byte → State → Res Cmd) :
    Res Cmd :=
  let c := a.c
  if c.sub = lostSync then k { c with osw := c.osw ||| Osw.decodeErr } (List.replicate 32 0) s
  else
    let p := tokenPlace c t ix
    let need := tokenNeeds c.raw p.2
    if c.raw.length < need then
      (s.engRead a n (p.1 + c.raw.length) (pieceLen (p.1 + c.raw.length) (need - c.raw.length))).bind (fun r s =>
        .ok { c with raw := c.raw ++ r.1, osw := c.osw ||| r.2, bad := c.bad || badOf r.2 } s)
    else
      let d := cf8Decode c.raw (Tensor.blen t)
      let c1 := { c with raw := [], osw := c.osw ||| Osw.when d.bad Osw.decodeErr,
                         sub := if Tensor.blen t ≠ 0 then 0 else if d.badLen then lostSync else c.sub + d.len }
      k c1 d.bytes s

/-! ## copyr and copyx -/

/-- Another command has taken the tail slot of the ring and not advanced it. -/
def State.tailHeld (s : State) (a : CmdAt) (h : BitVec 5) : Bool :=
  match s.fens[a.f]? with
  | none => false
  | some x => x.ports.any (fun q => q.cmds.any (fun c => c.num != a.c.num && c.stage != 0 && c.man == a.c.man &&
      match c.ins with
      | .copyr _ g _ _ _ _ _ _ => g == h && !(c.done && c.stage != 2)
      | _ => false))

/-- Lands bytes of a copyr in its slot. -/
def State.fillSlot (s : State) (a : CmdAt) (h : BitVec 5) (c : Cmd) (o : Nat) (bs : List Byte) (bad : Bool) : State × Cmd :=
  let d := a.ring h
  (s.landScratch (a.ringTile h) (Ring.slot d (Ring.tail d) + o) bs bad, { c with bytes := c.bytes + bs.length, bad := false })

/-- copyr (R202): waits for a free, tagged-empty tail slot, fills it element by element or token by token, then with
zeros to its end; TAIL advances with the report of its last bytes (`State.tailOwed`). -/
def execCopyr (_h : CmdHdr) (ring : BitVec 5) (rm : BitVec 2) (sat : Bool) (_src : BitVec 12) (o2 o1 o0 : BitVec 16)
    (s : State) : Out :=
  runCmd s (fun a s =>
    let c := a.c
    let w := c.ten0
    let t := c.ten1
    let d := a.ring ring
    let z := landSize (Tensor.fmt w)
    let o := [o0.toNat, o1.toNat, o2.toNat]
    if c.stage = 0 then
      ringGate a s ring (fun s =>
        .ok (if s.ringFree a.x d 1 && !s.tailHeld a ring then { c with stage := 1 } else c) s)
    else if Ring.flt d then .ok c.stop s
    else if c.pos < Tensor.count w then
      let ix := windowIx w o (Tensor.indexOf w c.pos)
      if Tensor.fmt t ≠ .cf8 then
        windowed a (windowPiece w t o) (fun _ => []) c.pos c.pos (Tensor.count w) true
          ((s.windowRead a w t o c.pos (Tensor.fmt w) rm sat).bind (fun r s =>
            let p := s.fillSlot a ring c (c.pos * z) r.1 r.2.2
            .ok { p.2 with pos := c.pos + 1, osw := c.osw ||| r.2.1 } p.1))
      else if !Tensor.inside t ix then
        let p := s.fillSlot a ring c c.pos (List.replicate 32 0) false
        .ok { p.2 with pos := c.pos + 32 } p.1
      else tokensAhead a t c.pos 32 (Tensor.count w) (fun n => windowIx w o (Tensor.indexOf w n)) <|
        s.token a c.pos t ix (fun c1 bs s =>
          let p := s.fillSlot a ring c1 c.pos bs c1.bad
          .ok { p.2 with pos := c.pos + 32 } p.1)
    else
      let used := Tensor.count w * z
      let p := s.fillSlot a ring c used (List.replicate (Ring.bytes d - used) 0) false
      .ok { p.2 with stage := 2, done := true } p.1)

/-- Elements read from scratch, each with a byte that says whether it is uncorrectable. -/
def State.scratchElems (s : State) (rq : Req) (t : Tile) (o z : Nat) : Nat → List Byte × BitVec 32 × State
  | 0 => ([], 0, s)
  | n + 1 =>
    let r := s.readScratch rq t o z
    let q := r.2.2.scratchElems rq t (o + z) z n
    (r.1 ++ (if badOf r.2.1 then 1 else 0) :: q.1, r.2.1 ||| q.2.1, q.2.2)

/-- Another command reads the head slot of the ring and has not popped it. -/
def State.headHeld (s : State) (a : CmdAt) (h : BitVec 5) : Bool :=
  match s.fens[a.f]? with
  | none => false
  | some x => x.ports.any (fun q => q.cmds.any (fun c => c.num != a.c.num && c.stage == 1 && c.man == a.c.man && !c.done &&
      match c.ins with
      | .copyx _ g _ _ _ _ _ _ => g == h
      | _ => false))

/-- copyx (R202): waits for a filled head slot (stage 0), reads it granule by granule and pops it with the last (stage 1), then
writes the elements into the window. -/
def execCopyx (_h : CmdHdr) (ring : BitVec 5) (rm : BitVec 2) (sat : Bool) (_dst : BitVec 12) (o2 o1 o0 : BitVec 16)
    (s : State) : Out :=
  runCmd s (fun a s =>
    let c := a.c
    let w := c.ten0
    let t := c.ten1
    let d := a.ring ring
    let z := landSize (Tensor.fmt w)
    let have' := c.data.length / (z + 1)
    if c.stage = 0 then
      ringGate a s ring (fun s =>
        .ok (if s.ringFilled a.x d 1 && !s.headHeld a ring then { c with stage := 1 } else c) s)
    else if c.stage = 1 then
      (if Ring.flt d then .ok c.stop s
       else
        let k := min (Tensor.count w - have') (16 / z)
        let r := s.scratchElems (a.req have') (a.ringTile ring) (Ring.slot d (Ring.head d) + z * have') z k
        let c1 := { c with data := c.data ++ r.1, osw := c.osw ||| r.2.1 }
        if have' + k < Tensor.count w then .ok c1 r.2.2
        else ringGate a r.2.2 ring (fun s => .ok { c1 with stage := 2 } (s.ringAdvance a.f c.man ring.toNat 1 true)))
    else if Tensor.count w ≤ c.pos then .ok (c.finish 0) s
    else
      let y := Fmt.esize (Tensor.fmt t)
      let addr : Nat → Nat := fun n => Tensor.addr t (windowIx w [o0.toNat, o1.toNat, o2.toNat] (Tensor.indexOf w n))
      let run := max 1 (runLen addr y (Tensor.count w) c.pos 16)
      let vs := (upto 0 run).map (fun k =>
        let e := c.data.drop ((z + 1) * k)
        (convElem (Tensor.fmt w) (Tensor.fmt t) (leNat (e.take z)) rm sat, (e[z]?).getD 0 != 0))
      (s.engWriteRun a c.pos (addr c.pos) y run (vs.flatMap (fun v => marked (toLE y v.1.1) v.2))).bind (fun _ s =>
        .ok { c with data := c.data.drop ((z + 1) * run), pos := c.pos + run, bytes := c.bytes + run * y,
                     osw := vs.foldl (fun w v => w ||| v.1.2) c.osw } s))

/-! ## copyred -/

/-- The exact sum of an integer and a float's value, rounded to an integer once and wrapped (R50, R204); a NaN or an infinity
is converted first (R63). -/
def addToInt (d : Fmt) (rm : Nat) (old : Nat) (v : Val) : Rslt :=
  match v with
  | .num s m e =>
    let q := min e 0
    let i := intOf d old * 2 ^ (0 - q).toNat + sigAt s m e q
    let n : Int := (roundAt rm (decide (i < 0)) i.natAbs q 0).1
    (wrapN (Fmt.bits d) (if i < 0 then -n else n), 0)
  | v =>
    let r := convertVal v false d rm true
    (wrapN (Fmt.bits d) (intOf d old + intOf d r.1), r.2)

/-- op(old, v) of R204 and R211 in format d, for the exact value of format f: add rounds once and saturates when asked, integer
sums wrap; min and max compare exact values under R55 or the integers' order, and a source that is chosen is rounded once. -/
def reduce (op : BitVec 2) (d : Fmt) (rm : BitVec 2) (sat : Bool) (old : Nat) (f : Fmt) (v : Nat) : Rslt :=
  let x := valueOf f v
  if op = 0#2 then
    (if d.isInt then
       (if f.isInt then (wrapN (Fmt.bits d) (intOf d old + intOf f v), 0) else addToInt d rm.toNat old x)
     else finishF d rm.toNat sat (sumVals rm.toNat [floatVal d old, x]))
  else if f = d then minMax d (op == 2#2) old v
  else
    let y := valueOf d old
    let keep := x.isNan || (!y.isNan && (if op = 2#2 then !y.below x else !x.below y))
    if x.isNan && y.isNan then minMax d (op == 2#2) old old
    else if keep then (old, 0)
    else convertVal x f.isInt d rm.toNat false

/-- copyred (R204): a turn reads one source element, or combines the one in hand into its destination element at that
line's home. -/
def execCopyred (_h : CmdHdr) (_src : BitVec 12) (rm : BitVec 2) (sat : Bool) (_dst : BitVec 12) (op : BitVec 2)
    (o1 o0 : BitVec 16) (s : State) : Out :=
  runCmd s (fun a s =>
    let c := a.c
    let w := c.ten1
    let t := c.ten0
    let d := Tensor.fmt w
    let z := Fmt.esize d
    let o := [o0.toNat, o1.toNat, 0]
    let wr : Nat → List Piece := fun n => [⟨n, Tensor.addr w (Tensor.indexOf w n), z, true⟩]
    let reads := c.data.isEmpty
    if Tensor.count w ≤ c.pos then .ok (c.finish 0) s
    else windowed a (windowPiece w t o) wr c.pos (if reads then c.pos else c.pos + 1) (Tensor.count w) reads <|
      if reads then
        (s.windowRead a w t o c.pos (Tensor.fmt t) rm sat).bind (fun r s =>
          .ok { c with data := r.1, osw := c.osw ||| r.2.1, bad := r.2.2 } s)
      else
      let va := Tensor.addr w (Tensor.indexOf w c.pos)
      let rq := a.req c.pos
      let g : List Byte → List Byte × BitVec 32 := fun old =>
        let r := reduce op d rm sat (leNat old) (Tensor.fmt t) (leNat c.data)
        (toLE z r.1, r.2)
      if 2 ^ 48 ≤ va then s.meetFault a.x.asid rq ⟨va, .rmw, 0, 0⟩
      else (s.xlateFor a.x rq .rmw va).bind (fun ph s =>
        if ph.typ.leaves then s.meetFault a.x.asid rq ⟨va, .rmw, 3, 0⟩
        else (s.rmwAt rq ph va z g).bind (fun r s =>
          .ok { c with data := [], bad := false, pos := c.pos + 1, bytes := c.bytes + z, osw := c.osw ||| r.2 }
            (if c.bad then s.markPoison ph z else s))))

/-! ## gather, scatter, fill (R205, R206) -/

/-- Reads index k of a list in scratch. -/
def State.readIndex (s : State) (a : CmdAt) (d : BitVec 11) (io : BitVec 15) (n32 : Bool) (k : Nat) : Nat × BitVec 32 × State :=
  let z := if n32 then 4 else 2
  let r := s.readScratch (a.req k) ((a.x.desig a.x.anchor d.toNat).getD a.x.anchor) (16 * io.toNat + z * k) z
  (leNat r.1, r.2.1, r.2.2)

/-- The elements in hand that fill the next granule of a row, with their marks; zeros stand behind them (R205). -/
def State.landGranule (s : State) (t : Tile) (o z : Nat) (data : List Byte) : State :=
  let k := min (data.length / (z + 1)) (16 / z)
  (s.landScratch t o (unmark z k data ++ List.replicate (16 - z * k) 0) false).remark (scratchPhys t o) z k data

/-- gather (R205): for each row, reads its index, then its elements or tokens, and lands the row granule by granule, with its padding.
`stage` is 1 and the bytes of the row that have landed; the elements in hand stand behind them. -/
def execGather (_h : CmdHdr) (_th : BitVec 12) (desig : BitVec 11) (rofs iofs : BitVec 15) (nm1 : BitVec 12) (n32 : Bool)
    (s : State) : Out :=
  runCmd s (fun a s =>
    let c := a.c
    let t := c.ten0
    let z := landSize (Tensor.fmt t)
    let n := Tensor.rowCount t
    let tile := (a.x.desig a.x.anchor desig.toNat).getD a.x.anchor
    let rows := Tensor.size t (Tensor.rank t - 1)
    let hand := c.data.length / (z + 1)
    let landed := c.stage - 1
    let have' := landed / z + hand
    if nm1.toNat < c.pos then .ok (c.finish 0) s
    else if c.stage = 0 then
      let r := s.readIndex a desig iofs n32 c.pos
      .ok { c with stage := 1, sub := r.1, osw := c.osw ||| r.2.1 } r.2.2
    else if c.sub < rows ∧ have' < n ∧ hand * z < 16 then
      let ix : Nat → List Nat := fun m => Tensor.indexOf t (c.sub * n + m)
      let base := c.pos * n
      if Tensor.fmt t ≠ .cf8 then
        windowed a (fun m => [⟨base + m, Tensor.addr t (ix m), z, false⟩]) (fun _ => []) have' have' n true
          ((s.engRead a (base + have') (Tensor.addr t (ix have')) z).bind (fun r s =>
            .ok { c with data := c.data ++ marked r.1 (badOf r.2), osw := c.osw ||| r.2 } s))
      else tokensAhead a t have' 32 n ix <|
        s.token a (base + have') t (ix have') (fun c1 bs s =>
          let part := (bs.drop ((c.sub * n + have') % 32)).take (n - have')
          .ok { c1 with sub := c.sub, data := c.data ++ part.flatMap (fun b => marked [b] c1.bad), bad := false } s)
    else
      let s1 := s.landGranule tile (16 * rofs.toNat + c.pos * Tensor.rowPitch t + landed) z c.data
      let c1 := { c with data := c.data.drop ((z + 1) * (16 / z)), stage := c.stage + 16, bytes := c.bytes + 16 }
      if landed + 16 < Tensor.rowPitch t then .ok c1 s1
      else .ok { c1 with stage := 0, sub := 0, pos := c.pos + 1,
                         osw := c.osw ||| Osw.when (decide (rows ≤ c.sub) && !Tensor.zpad t) Osw.truncated } s1)

/-- scatter (R205): for each row, reads its index, then the row granule by granule, and writes its elements, as many together as lie
in one granule of the tensor; rows go in list order. `stage` is 1 and the elements of the row that are written. -/
def execScatter (_h : CmdHdr) (_th : BitVec 12) (desig : BitVec 11) (rofs iofs : BitVec 15) (nm1 : BitVec 12) (n32 : Bool)
    (s : State) : Out :=
  runCmd s (fun a s =>
    let c := a.c
    let t := c.ten0
    let z := Fmt.esize (Tensor.fmt t)
    let n := Tensor.rowCount t
    let tile := (a.x.desig a.x.anchor desig.toNat).getD a.x.anchor
    if nm1.toNat < c.pos then .ok (c.finish 0) s
    else if c.stage = 0 then
      let r := s.readIndex a desig iofs n32 c.pos
      if Tensor.size t (Tensor.rank t - 1) ≤ r.1 then
        .ok { c with pos := c.pos + 1, osw := c.osw ||| r.2.1 ||| Osw.truncated } r.2.2
      else .ok { c with stage := 1, sub := r.1, osw := c.osw ||| r.2.1 } r.2.2
    else
      let e := c.stage - 1
      let hand := c.data.length / (z + 1)
      let addr : Nat → Nat := fun m => Tensor.addr t (Tensor.indexOf t (c.sub * n + m))
      let run := max 1 (runLen addr z n e 16)
      if n ≤ e then .ok { c with stage := 0, sub := 0, pos := c.pos + 1 } s
      else if hand < run then
        let m := e + hand
        let q := s.scratchElems (a.req (c.pos * n + m)) tile (16 * rofs.toNat + c.pos * Tensor.rowPitch t + z * m) z
          (min (n - m) (16 / z - m % (16 / z)))
        .ok { c with data := c.data ++ q.1, osw := c.osw ||| q.2.1 } q.2.2
      else
        (s.engWriteRun a (c.pos * n + e) (addr e) z run c.data).bind (fun _ s =>
          .ok { c with data := c.data.drop ((z + 1) * run), stage := c.stage + run, bytes := c.bytes + z * run } s))

/-- The element that fill writes (R206), with the status of a value that is converted. -/
def fillBits (f : Fmt) (v : BitVec 32) : Rslt :=
  match f with
  | .f64 => convert v.toNat .f32 .f64 0 false
  | .i64 => ((v.signExtend 64).toNat, 0)
  | .ki => (v.toNat + 0xFFFF_FFFF * 2 ^ 32, 0)
  | .n64 => (v.toNat, 0)
  | f => (v.toNat % 2 ^ Fmt.bits f, 0)

/-- fill (R206): a granule of scratch a turn, or as many of a tensor's own elements as lie one behind the other in one granule. -/
def execFill (_h : CmdHdr) (_th : BitVec 12) (scr : Bool) (desig : BitVec 11) (ofs : BitVec 15) (val : BitVec 32)
    (s : State) : Out :=
  runCmd s (fun a s =>
    let c := a.c
    let t := c.ten0
    let z := Fmt.esize (Tensor.fmt t)
    let v := fillBits (Tensor.fmt t) val
    let bs := toLE z v.1
    if scr then
      let tile := (a.x.desig a.x.anchor desig.toNat).getD a.x.anchor
      let per := 16 / z
      let k := min per (Tensor.count t - c.pos)
      if Tensor.count t ≤ c.pos then .ok (c.finish v.2) s
      else .ok { c with pos := c.pos + per, bytes := c.bytes + 16 }
        (s.landScratch tile (16 * ofs.toNat + z * c.pos) ((List.replicate k bs).flatten ++ List.replicate (16 - k * z) 0) false)
    else
      let addr : Nat → Nat := fun n => Tensor.addr t (Tensor.indexOf t n)
      let run := max 1 (runLen addr z (Tensor.count t) c.pos 16)
      if Tensor.count t ≤ c.pos then .ok (c.finish v.2) s
      else (s.engWriteRun a c.pos (addr c.pos) z run ((List.replicate run (marked bs false)).flatten)).bind (fun _ s =>
        .ok { c with pos := c.pos + run, bytes := c.bytes + run * z } s))

/-! ## agload and sbar (R207, R208) -/

/-- The program store of an AG slot: 256 words, zero since the fen's launch. -/
def Fen.store (x : Fen) (t : Tile) (slot : Nat) : List Word :=
  match x.progs.find? (fun p => p.1 == t && p.2.1 == slot) with
  | some p => p.2.2
  | none => List.replicate 256 0#64

/-- Words 0 to n−1 of a store replaced. -/
def Fen.setStore (x : Fen) (t : Tile) (slot : Nat) (ws : List Word) : Fen :=
  { x with progs := (t, slot, ws ++ (x.store t slot).drop ws.length) :: x.progs.filter (fun p => !(p.1 == t && p.2.1 == slot)) }

/-- agload (R207): waits while the slot's AGEN node runs an activation, reads the words, then replaces them at once. -/
def execAgload (_h : CmdHdr) (nm1 : BitVec 8) (addr : BitVec 48) (s : State) : Out :=
  runCmd s (fun a s =>
    let c := a.c
    let p := a.place
    let n := nm1.toNat + 1
    let busy := (a.x.nodeAt p.1 p.2).any (fun m => m.mem.b0)
    if c.stage = 0 ∧ busy then .ok c s
    else if c.pos < n then
      windowed a (fun m => [⟨m, addr.toNat + 8 * m, 8, false⟩]) (fun _ => []) c.pos c.pos n true
        ((s.engRead a c.pos (addr.toNat + 8 * c.pos) 8).bind (fun r s =>
          .ok { c with stage := 1, pos := c.pos + 1, data := c.data ++ r.1, osw := c.osw ||| r.2 } s))
    else
      let ws := (upto 0 n).map (fun k => BitVec.ofNat 64 (leNat ((c.data.drop (8 * k)).take 8)))
      .ok ({ c with data := [] }.finish 0) (s.updFen a.f (fun x => x.setStore p.1 p.2 ws)))

/-- sbar (R208): completes when every access of every command accepted before it at a named stream is performed. -/
def execSbar (_h : CmdHdr) (mask : BitVec 7) (s : State) : Out :=
  runCmd s (fun a s =>
    let before := (a.x.named a.place.1 mask.toNat).all (fun b => b.done || decide (a.c.num ≤ b.num))
    .ok (if before then a.c.finish 0 else a.c) s)

/-! ## pref, inval, flush (R218) -/

/-- One line a turn: the lines of each element in row-major order; a page that does not translate is skipped. -/
def lineTurn (s : State) (act : CmdAt → Nat → Phys → State → Res Unit) : Out :=
  runCmd s (fun a s =>
    let c := a.c
    let t := c.ten0
    if Tensor.count t ≤ c.pos then .ok (c.finish 0) s
    else
      let ft := Tensor.foot t (Tensor.indexOf t c.pos) false
      let va := ft.a / 128 * 128 + 128 * c.sub
      let next : Cmd := if va + 128 < ft.a + ft.n then { c with sub := c.sub + 1 } else { c with sub := 0, pos := c.pos + 1 }
      match (if 2 ^ 48 ≤ va then none else s.lookup a.x.asid a.x.part (a.x.carrierOf a.place.1) .read va) with
      | none => .ok next s
      | some ph => (act a va ph s).bind (fun _ s => .ok next s))

/-- pref (R218): brings each line into its home EMT. -/
def execPref (_h : CmdHdr) (_t : BitVec 12) (s : State) : Out :=
  lineTurn s (fun a _ ph s => s.present (a.req a.c.pos) ph 1)

/-- inval (R218): drops read-only replicas in other EMTs, and the line in the issuing core's data cache. -/
def execInval (_h : CmdHdr) (_t : BitVec 12) (s : State) : Out :=
  lineTurn s (fun a va ph s =>
    if ph.typ = .mere then .ok () s
    else
      let s := s.updEmt (fun e => { e with replicas := e.replicas.filter (fun r => r.1 != ph.key / 128) })
      .ok () (s.updCore a.f (fun c => { c with dcache := c.dcache.filter (fun l => l.va / 128 != va / 128) })))

/-- flush (R218): writes a dirty line back; the line stays valid. -/
def execFlush (_h : CmdHdr) (_t : BitVec 12) (s : State) : Out :=
  lineTurn s (fun _ _ ph s =>
    if !ph.typ.inEmt then .ok () s
    else .ok () (s.updEmt (fun e => { e with lines := e.lines.map (fun l => if l.line == ph.key / 128 then { l with dirty := false } else l) })))

end Sys2Proof.Machine
end

