-- ==== Sys2Proof/Machine/Launch.lean ====
section
/-! DEFINITION. Launch records (R47, R48, R329, R331): their fields and checks, acceptance, names, dependence counters and
credits (R332 to R334), the regions that levels confine fen tasks to (R335), and rectangles a partition owns (R339). -/
namespace Sys2Proof.Machine

/-! ## Fields (R329) -/

/-- A launch record. -/
abbrev Rec := BitVec 1024

/-- NAME. -/
def Rec.name (r : Rec) : Nat := fld r.toNat 831 816 * 2 ^ 16 + fld r.toNat 895 880
/-- NAMED. -/
def Rec.named (r : Rec) : Bool := bit r.toNat 560
/-- HDIE. -/
def Rec.hdie (r : Rec) : Nat := fld r.toNat 699 698
/-- DEPCNT. -/
def Rec.depcnt (r : Rec) : Nat := fld r.toNat 639 624
/-- SUCC. -/
def Rec.succ (r : Rec) : Nat := fld r.toNat 959 944 * 2 ^ 16 + fld r.toNat 1023 1008
/-- SUCCEN. -/
def Rec.succen (r : Rec) : Bool := bit r.toNat 703
/-- SUCCDIE. -/
def Rec.succdie (r : Rec) : Nat := fld r.toNat 702 701
/-- NOCLONE. -/
def Rec.noclone (r : Rec) : Bool := bit r.toNat 700
/-- SEQ. -/
def Rec.seq (r : Rec) : Nat := fld r.toNat 767 704
/-- COMPLW. -/
def Rec.complw (r : Rec) : Nat := fld r.toNat 687 640
/-- ARGS. -/
def Rec.args (r : Rec) : Nat := fld r.toNat 623 576
/-- PRIO. -/
def Rec.prio (r : Rec) : Nat := fld r.toNat 572 570
/-- HEIGHT. -/
def Rec.height (r : Rec) : Nat := fld r.toNat 569 565
/-- WIDTH. -/
def Rec.width (r : Rec) : Nat := fld r.toNat 564 561
/-- ENTRY. -/
def Rec.entry (r : Rec) : Nat := fld r.toNat 559 512
/-- IMGk. -/
def Rec.img (r : Rec) (k : Nat) : Nat := fld r.toNat (815 + 64 * k) (768 + 64 * k)
/-- The number of levels. -/
def Rec.nlev (r : Rec) : Nat := fld r.toNat 575 573 + 1

/-- A level (R47). -/
structure Level where
  dom   : Nat
  scope : Nat
  count : Nat
  deriving DecidableEq, Repr

/-- Level k. -/
def Rec.level (r : Rec) (k : Nat) : Level :=
  let w := fld r.toNat (64 * k + 63) (64 * k)
  ⟨fld w 2 0, fld w 5 3, fld w 63 32⟩

/-- The levels, outermost first. -/
def Rec.levels (r : Rec) : List Level := (upto 0 (Rec.nlev r)).map (Rec.level r)

/-- A product of counts. -/
def prodOf (l : List Nat) : Nat := l.foldl (fun a b => a * b) 1

/-- The counts of the levels. -/
def Rec.counts (r : Rec) : List Nat := (Rec.levels r).map (fun l => l.count)

/-- The number of fen tasks. -/
def Rec.total (r : Rec) : Nat := prodOf (Rec.counts r)

/-- The index tuple of the n-th fen task in lexicographic order. -/
def tupleOf : List Nat → Nat → List Nat
  | [], _ => []
  | c :: r, n => n / prodOf r % c :: tupleOf r n

/-! ## Levels (R46, R48, R335) -/

/-- The narrowest scope that covers a domain (R46). -/
def coverOf (dom : Nat) : Nat := if dom ≤ 1 then 0 else if dom = 2 then 1 else if dom ≤ 4 then 2 else if dom = 5 then 3 else 4

/-- No level is wider than the one above it. -/
def narrowing : List Level → Bool
  | a :: b :: r => decide (b.dom ≤ a.dom) && narrowing (b :: r)
  | _ => true

/-- The checks of R48. -/
def Rec.levelsOk (r : Rec) : Bool :=
  let ls := Rec.levels r
  narrowing ls && ls.all (fun l => decide (l.scope ≤ 5 ∧ coverOf l.dom ≤ l.scope ∧ l.dom ≤ 6 ∧ 1 ≤ l.count ∧ l.count ≤ 2 ^ 24)) &&
  (match ls.getLast? with | some l => l.dom == 2 | none => false) && decide (Rec.total r ≤ 2 ^ 32) &&
  (upto 0 (Rec.nlev r)).all (fun k => fld r.toNat (64 * k + 31) (64 * k + 6) == 0)

/-- The first level of a domain: its instances confine (R48); later ones of the domain are groupings. -/
def Rec.levelOf (r : Rec) (dom : Nat) : Option Nat :=
  (findIx (fun l : Level => l.dom == dom) (Rec.levels r)).map (fun p => p.1)

/-- A fen task's index at the level of a domain. -/
def Rec.indexAt (r : Rec) (dom n : Nat) : Option Nat :=
  (Rec.levelOf r dom).map (fun k => ((tupleOf (Rec.counts r) n)[k]?).getD 0)

/-- The die that a level confines a fen task to. -/
def Rec.dieOf (r : Rec) (n : Nat) : Option Nat := (Rec.indexAt r 4 n).map (· % 4)
/-- The quad that a level confines a fen task to. -/
def Rec.quadOf (r : Rec) (n : Nat) : Option Nat := (Rec.indexAt r 3 n).map (· % 4)
/-- The quad instance of a fen task: its indices down to the quad level. -/
def Rec.quadInst (r : Rec) (n : Nat) : Option (List Nat) :=
  (Rec.levelOf r 3).map (fun k => (tupleOf (Rec.counts r) n).take (k + 1))
/-- The module that a group level sends a fen task to, from the module it was submitted on (R335). -/
def Rec.moduleOf (r : Rec) (src g n : Nat) : Nat :=
  match Rec.indexAt r 6 n with
  | some i => (src + i) % g
  | none => src

/-- The rows and columns of a region: a whole die, or a quad (R335): first row, last row, first column, last column. -/
def regionOf (quad : Option Nat) : Nat × Nat × Nat × Nat :=
  match quad with
  | none => (1, 16, 1, 8)
  | some q => (if q < 2 then 1 else 9, if q < 2 then 8 else 16, if q % 2 = 0 then 1 else 5, if q % 2 = 0 then 4 else 8)

/-- The tiles of a rectangle. -/
def rectTiles (die row col h w : Nat) : List Tile :=
  (upto row h).flatMap (fun r => (upto col w).map (fun c => ⟨die, r, c⟩))

/-- The anchors of a rectangle within a region, in ascending row and then column. -/
def anchorsIn (quad : Option Nat) (h w : Nat) : List (Nat × Nat) :=
  let g := regionOf quad
  (upto g.1 (g.2.1 + 1 - g.1)).flatMap (fun r => (upto g.2.2.1 (g.2.2.2 + 1 - g.2.2.1)).filterMap (fun c =>
    if r + h ≤ g.2.1 + 1 ∧ c + w ≤ g.2.2.2 + 1 then some (r, c) else none))

/-- The partition owns a rectangle of the size within a region of a die. -/
def State.hasRect (s : State) (p die : Nat) (quad : Option Nat) (h w : Nat) : Bool :=
  (anchorsIn quad h w).any (fun a => (rectTiles die a.1 a.2 h w).all (s.owns p))

/-- The dies that a record's die level uses; all of them when none confines. -/
def Rec.diesUsed (r : Rec) : Option (List Nat) :=
  (Rec.levelOf r 4).map (fun k => upto 0 (min 4 (Rec.level r k).count))

/-- The quads that a record's quad level uses. -/
def Rec.quadsUsed (r : Rec) : List (Option Nat) :=
  match Rec.levelOf r 3 with
  | none => [none]
  | some k => (upto 0 (min 4 (Rec.level r k).count)).map some

/-- Case 10 of R331: every instance can contain a rectangle of the partition's. -/
def State.regionsOk (s : State) (p : Nat) (r : Rec) : Bool :=
  (Rec.quadsUsed r).all (fun q => match Rec.diesUsed r with
    | some ds => ds.all (fun d => s.hasRect p d q (Rec.height r) (Rec.width r))
    | none => (upto 0 4).any (fun d => s.hasRect p d q (Rec.height r) (Rec.width r)))

/-! ## Checks and acceptance (R331, R332) -/

/-- The launch of a name that a die's HTS holds: named, accepted and not complete. -/
def State.holder (s : State) (die asid name : Nat) : Option (Nat × Launch) :=
  findIx (fun l : Launch => Rec.named l.desc && Rec.hdie l.desc == die && l.asid == asid && Rec.name l.desc == name &&
    l.src == s.dev.midx) s.hts.launches

/-- The checks of R331 on a record under an ASID, for the partition that submits it. -/
def State.recordOk (s : State) (r : Rec) (asid part : Nat) : Bool :=
  let w := r.toNat
  let addr : Nat → Nat → Bool := fun a al => a % al == 0
  Rec.levelsOk r &&
  (upto (Rec.nlev r) (8 - Rec.nlev r)).all (fun k => fld w (64 * k + 63) (64 * k) == 0) &&
  decide (1 ≤ Rec.height r ∧ Rec.height r ≤ 16 ∧ 1 ≤ Rec.width r ∧ Rec.width r ≤ 8) &&
  Rec.entry r != 0 && addr (Rec.entry r) 64 && Rec.img r 0 != 0 && addr (Rec.img r 0) 64 &&
  addr (Rec.img r 1) 64 && addr (Rec.img r 2) 64 && addr (Rec.img r 3) 64 && addr (Rec.args r) 8 && addr (Rec.complw r) 8 &&
  (Rec.named r || (Rec.depcnt r == 0 && Rec.hdie r == 0)) && (Rec.succen r || Rec.succdie r == 0) &&
  fld w 697 688 == 0 &&
  !(Rec.named r && (s.holder (Rec.hdie r) asid (Rec.name r)).isSome) &&
  s.regionsOk part r

/-- The entries of a die's task table in use: held names, credits and die instances (R336). -/
def State.htsUsed (s : State) (die : Nat) : Nat :=
  s.hts.launches.countP (fun l => Rec.named l.desc && Rec.hdie l.desc == die && l.src == s.dev.midx) +
  s.hts.credits.countP (fun c => c.die == die) + s.hts.insts.countP (fun i => i.die == die)

/-- A valid record has room: for a named one, an entry at HDIE, which may be its own credit's. -/
def State.launchRoom (s : State) (r : Rec) (asid : Nat) : Bool :=
  !Rec.named r || decide (s.htsUsed (Rec.hdie r) < 4096) ||
  s.hts.credits.any (fun c => c.die == Rec.hdie r && c.asid == asid && c.name == Rec.name r)

/-- OCCCAP of an ASID (R373). -/
def State.occcap (s : State) (asid : Nat) : Nat := match s.asidCtx asid with | some c => fld c 31 0 | none => 0

/-- The launches and submissions that count against OCCCAP (R373, R380). -/
def State.occupied (s : State) (asid : Nat) : Nat :=
  s.hts.launches.countP (fun l => l.asid == asid) + s.hts.subs.countP (fun u => u.asid == asid)

/-- OCCCAP admits another launch. -/
def State.occOk (s : State) (asid : Nat) : Bool := s.occcap asid == 0 || decide (s.occupied asid < s.occcap asid)

/-- Accepts a valid record (R331, R332): a named one starts with its counter less any credit, which is freed (R334). A name and its
counter stand on the module of the submission: an instance sent by another is ready (R335). -/
def State.acceptLaunch (s : State) (r : Rec) (asid fn part ctx src : Nat) : State :=
  let named := Rec.named r && src == s.dev.midx
  let mine : Credit → Bool := fun c => named && c.die == Rec.hdie r && c.asid == asid && c.name == Rec.name r
  let credit := ((s.hts.credits.find? mine).map Credit.count).getD 0
  { s with hts := { s.hts with
      launches := s.hts.launches ++ [⟨s.hts.nextKey, asid, fn, part, ctx, r, src,
        if named then Rec.depcnt r - credit else 0, false, 0, 0, false, none⟩]
      credits := s.hts.credits.filter (fun c => !mine c)
      nextKey := s.hts.nextKey + 1 } }

/-! ## Dependences (R214, R333, R334) -/

/-- Decrements a named launch's counter: whether it stood below the decrement, and the state; none without such a name. -/
def State.depDecrement (s : State) (die asid name by' : Nat) : Option (Bool × State) :=
  match s.holder die asid name with
  | none => none
  | some (k, l) =>
    some (decide (l.dep < by'), { s with hts := { s.hts with launches := updNth s.hts.launches k (fun l => { l with dep := l.dep - by' }) } })

/-- A successor decrement (R333, R334): of the launch named, or kept as a credit, or lost with an error record. -/
def State.successor (s : State) (die asid fn name : Nat) : State :=
  match s.depDecrement die asid name 1 with
  | some r => r.2
  | none =>
    match findIx (fun c : Credit => c.die == die && c.asid == asid && c.name == name) s.hts.credits with
    | some (k, _) => { s with hts := { s.hts with credits := updNth s.hts.credits k (fun c => { c with count := min (c.count + 1) 65535 }) } }
    | none =>
      if s.htsUsed die < 4096 then { s with hts := { s.hts with credits := s.hts.credits ++ [⟨die, asid, name, 1⟩] } }
      else s.errorRecord fn asid 0 name ⟨die, 0, 9⟩ 0 5

end Sys2Proof.Machine
end

