-- ==== Sys2Proof/Machine/Mere.lean ====
section
/-! DEFINITION. Commands on objects (carrive, cexpect, cnop: R209), queue transfers (qput, qget: R210), and the Mere
commands (mred with its instances, matom, maxpy: R211 to R213). -/
namespace Sys2Proof.Machine

/-! ## carrive, cexpect, cnop (R209) -/

/-- carrive (R209): its arrival is its completion's. -/
def execCarrive (_h : CmdHdr) (s : State) : Out := runCmd s (fun a s => .ok (a.c.finish 0) s)

/-- cexpect (R209): its completion adds BYTES to TXPEND (`Cmd.finalTx`). -/
def execCexpect (_h : CmdHdr) (_bytes : BitVec 32) (s : State) : Out := runCmd s (fun a s => .ok (a.c.finish 0) s)

/-- cnop (R209): completes when every command accepted earlier at its port has. -/
def execCnop (_h : CmdHdr) (s : State) : Out :=
  runCmd s (fun a s => .ok (if a.k = 0 then a.c.finish 0 else a.c) s)

/-! ## Thresholds offered to nodes (R210, R215, R274) -/

/-- Offers a pair to the threshold register of the node at a place of mantle m: the better is kept. -/
def Fen.offer (x : Fen) (m : Nat) (t : Tile) (slot : Nat) (p : BitVec 64) : Fen :=
  x.updMantleAt m (fun y => { y with nodes := y.nodes.map (fun n =>
    if n.tile == t && n.slot == slot then n.raise p else n) })

/-! ## qput and qget (R210) -/

/-- The pieces of a ring slot that an element of z8 eight-byte units occupies, with their offsets. -/
def slotPieces (t : Tile) (o z8 : Nat) : List (Phys × Nat) := (upto 0 z8).map (fun k => (scratchPhys t (o + 8 * k), o + 8 * k))

/-- The pieces of slot j of a queue, with their addresses. -/
def State.queuePieces (s : State) (q : Qcb) (a : CmdAt) (h : Tile) (j : Nat) : List (Phys × Nat) :=
  (s.slotPhys q a.x.asid a.x.part h j).zipIdx.map (fun p => (p.1, Qcb.base q + j * 8 * Qcb.esz8 q + 8 * p.2))

/-- Meets the marks of pieces that are read. -/
def State.meetPieces (s : State) (rq : Req) : List (Phys × Nat) → BitVec 32 × State
  | [] => (0, s)
  | p :: r =>
    let m := s.meetMarks rq p.1 p.2 8
    let q := m.2.meetPieces rq r
    (m.1 ||| q.1, q.2)

/-- An engine's enqueue or dequeue: the element moves with its marks (R197, R210). -/
def State.qEngine (s : State) (a : CmdAt) (ph : Phys) (h : Tile) (enq : Bool) (elem : List (Phys × Nat)) :
    BitVec 32 × State :=
  let q := s.qcb ph.key
  let j := (if enq then Qcb.tail q else Qcb.head q) % Qcb.cap q
  let other := s.queuePieces q a h j
  let src := if enq then elem else other
  let dst := if enq then other else elem
  let bad := src.map (fun p => s.mem.poisoned p.1.key 8)
  let r := s.meetPieces (a.req a.c.pos) src
  let s := r.2.qMove ph a.x.asid a.x.part h enq (elem.map (fun p => p.1))
  (r.1, (dst.zip bad).foldl (fun s p => if p.2 then s.markPoison p.1.1 8 else s) s)

/-- One element of a queue transfer: `ready` is the ring's condition, `move` the transfer once the controller has judged
it. A queue that is full or empty holds the engine with a waiter bit, or ends the command (R177, R210). -/
def queueTurn (a : CmdAt) (s : State) (h : BitVec 5) (nm1 : BitVec 8) (q : BitVec 48) (enq : Bool)
    (ready : Ring → State → Bool) (move : Ring → Phys → State → Res Cmd) : Res Cmd :=
  let c := a.c
  let rq := a.req c.pos
  let d := a.ring h
  let small : State → Phys → Bool := fun s ph => decide (Ring.bytes d < 8 * Qcb.esz8 (s.qcb ph.key))
  let reach : State → (Phys → State → Res Cmd) → Res Cmd := fun s k =>
    (s.xlateQcb a.x rq .rmw q.toNat).bind (fun ph s =>
      if s.reserved rq ph.key 64 then .wait s
      else (s.present rq ph 64).bind (fun _ s => (s.unsnooped rq ph []).bind (fun _ s =>
        (s.charge rq ph (if enq then 8 * Qcb.esz8 (s.qcb ph.key) else 0)).bind (fun _ s => k ph s))))
  if c.asleep then .ok c s
  else if c.stage = 0 then
    reach s (fun ph s => .ok (if small s ph then c.stop else { c with stage := 1 }) s)
  else if nm1.toNat < c.pos then .ok (c.finish 0) s
  else ringGate a s h (fun s =>
    if !ready d s then .ok c s
    else reach s (fun ph s =>
      let j := s.qJudge ph q.toNat a.x.asid a.x.part (a.x.carrierOf a.place.1)
      match j.1 with
      | .frozen => .ok c j.2
      | .refused => .ok c.stop j.2
      | _ =>
        let qc := s.qcb ph.key
        if small s ph then .ok c.stop s
        else if Qcb.stuck qc enq then
          (if Qcb.blk qc then .ok { c with asleep := true, sub := ph.key } (s.qWaiter ph enq a.place.1.quad)
           else .ok (c.finish Osw.truncated) s)
        else ((if enq then s.unsnooped rq ph ((s.queuePieces qc a (a.x.carrierOf a.place.1) (Qcb.tail qc % Qcb.cap qc)).map (fun p => p.1) ++
              s.slotLeaves qc a.x.asid a.x.part (a.x.carrierOf a.place.1) (Qcb.tail qc % Qcb.cap qc))
            else .ok () s).bind (fun _ s => move d ph s)).bind (fun c s =>
          .ok { c with osw := c.osw ||| clampBit (s.effScope a.x (Qcb.scope qc)).2 } s)))

/-- qput (R210): enqueues the head slot's low bytes, pops the slot, and offers the queue's seep pair to the slot's QPORT
node. -/
def execQput (_h : CmdHdr) (nm1 : BitVec 8) (ring : BitVec 5) (q : BitVec 48) (s : State) : Out :=
  runCmd s (fun a s =>
    queueTurn a s ring nm1 q true (fun d s => s.ringFilled a.x d 1) (fun d ph s =>
      let c := a.c
      let z8 := Qcb.esz8 (s.qcb ph.key)
      let pair := Qcb.seep (s.qcb ph.key)
      let r := s.qEngine a ph (a.x.carrierOf a.place.1) true (slotPieces (a.ringTile ring) (Ring.slot d (Ring.head d)) z8)
      let s := (r.2.ringAdvance a.f c.man ring.toNat 1 true).updFen a.f (fun x => x.offer x.cur a.place.1 a.place.2 pair)
      .ok { c with pos := c.pos + 1, bytes := c.bytes + 8 * z8, osw := c.osw ||| r.1 } s))

/-- qget (R210): dequeues into the tail slot, writes zeros to its end, and advances TAIL. -/
def execQget (_h : CmdHdr) (nm1 : BitVec 8) (ring : BitVec 5) (q : BitVec 48) (s : State) : Out :=
  runCmd s (fun a s =>
    queueTurn a s ring nm1 q false (fun d s => s.ringFree a.x d 1 && !s.tailHeld a ring) (fun d ph s =>
      let c := a.c
      let z8 := Qcb.esz8 (s.qcb ph.key)
      let t := a.ringTile ring
      let o := Ring.slot d (Ring.tail d)
      let r := s.qEngine a ph (a.x.carrierOf a.place.1) false (slotPieces t o z8)
      let s := r.2.landScratch t (o + 8 * z8) (List.replicate (Ring.bytes d - 8 * z8) 0) false
      .ok { c with pos := c.pos + 1, bytes := c.bytes + Ring.bytes d, osw := c.osw ||| r.1 }
        (s.ringFill a.f c.man ring.toNat)))

/-! ## Reductions (R211) -/

/-- The Mere bank tile of a key, 0 to 63 on the module (R306). -/
def bankOf (key : Nat) : Nat := (key - 2 ^ 44) / 4096 % 64

/-- Translates the pages of a run for a Mere command: each must be of type MERE. -/
def State.merePages (s : State) (a : CmdAt) : List Nat → Res (List Phys)
  | [] => .ok [] s
  | va :: r =>
    let rq := a.req 0
    if 2 ^ 48 ≤ va then s.meetFault a.x.asid rq ⟨va, .rmw, 0, 0⟩
    else (s.xlateFor a.x rq .rmw va).bind (fun ph s =>
      if ph.typ ≠ .mere then s.meetFault a.x.asid rq ⟨va, .rmw, 3, 0⟩
      else (s.merePages a r).bind (fun l s => .ok (ph :: l) s))

/-- The addresses at which a run enters each of its pages. -/
def pageStarts (a n : Nat) : List Nat := (pagesOf a n).map (fun p => max p a)

/-- A command of a fen by its number, with its port. -/
def State.findCmd (s : State) (f num : Nat) : Option (Fen × PortKey × Cmd) :=
  match s.fens[f]? with
  | none => none
  | some x => (x.ports.flatMap (fun q => q.cmds.map (fun c => (x, q.key, c)))).find? (fun p => p.2.2.num == num)

/-- Two contributions agree in everything R211 asks, and differ in IDX. -/
def Ann.agrees (a b : Ann) : Bool :=
  a.op == b.op && a.nm1 == b.nm1 && a.rm == b.rm && a.sat == b.sat && a.fmt == b.fmt && a.size == b.size && a.idx != b.idx

/-- What time has done to an instance (R211): 2^(TMO+10) cycles after its first contribution it is abandoned, unless all have
arrived; the same time after an abandonment its entry is free. -/
def State.redTime (s : State) (key tag : Nat) : State :=
  match s.redFind key tag with
  | none => s
  | some (k, r) =>
    let due := r.since + 2 ^ (r.tmo + 10)
    if s.cycle < due then s
    else if r.abandoned then { s with reds := dropNth s.reds k }
    else if (r.anns.head?).any (fun n => r.anns.length == n.nm1 + 1) then s
    else s.redAbandon k r due

/-- An announcement reaches its bank, whose instance is as time has left it: it joins, opens or spoils an instance, or waits for an
entry of the table. -/
def State.announce (s : State) (a : CmdAt) (n : Ann) (key tag tmo : Nat) : Res Cmd :=
  let c := a.c
  let s := (s.redTime key tag).redTime key tag
  match s.redFind key tag with
  | some (k, r) =>
    if r.abandoned then .ok (c.finish Osw.reduceAborted) s
    else if r.anns.all (fun b => b.agrees n) then
      .ok { c with asleep := true, stage := 2 }
        { s with reds := updNth s.reds k (fun r => { r with anns := r.anns ++ [n] }) }
    else .ok (c.finish Osw.reduceAborted) (s.redAbandon k r s.cycle)
  | none =>
    if 64 ≤ s.reds.countP (fun r => bankOf r.key == bankOf key) then .ok c s
    else .ok { c with asleep := true, stage := 2 } { s with reds := s.reds ++ [⟨key, tag, [n], s.cycle, tmo, false, false, 0, [], 0⟩] }

/-- mred (R211): its destination's pages are translated, then its contribution is announced, and it waits. -/
def execMred (_h : CmdHdr) (_t : BitVec 12) (rm : BitVec 2) (sat : Bool) (op : BitVec 2) (desig : BitVec 11)
    (sofs : BitVec 15) (idx nm1 : BitVec 8) (tag : BitVec 12) (tmo : BitVec 5) (s : State) : Out :=
  runCmd s (fun a s =>
    let c := a.c
    let t := c.ten0
    let n := Tensor.bytes t
    if c.asleep then .ok c s
    else (s.merePages a (pageStarts (Tensor.base t) n)).bind (fun pages s =>
      let tile := (a.x.desig a.x.anchor desig.toNat).getD a.x.anchor
      let key := ((pages.head?).map Phys.key).getD 0
      let ann : Ann := ⟨a.f, c.num, idx.toNat, nm1.toNat, op.toNat, rm.toNat, sat, (Tensor.fmt t).code, n,
        (s.effScope a.x (cmdHdr c.ins).scope.toNat).1, keyScratch tile (16 * sofs.toNat), pages⟩
      s.announce a ann key tag.toNat tmo.toNat))

/-- The contributions in ascending IDX. -/
def RedInst.ordered (r : RedInst) : List Ann :=
  (upto 0 256).filterMap (fun k => r.anns.find? (fun n => n.idx == k))

/-- Splits a byte list into elements of z bytes. -/
def elemsOf (z : Nat) (bs : List Byte) : List Nat := (upto 0 (bs.length / z)).map (fun k => leNat ((bs.drop (z * k)).take z))

/-- Combines two lists of elements. -/
def reduceAll (op : BitVec 2) (f : Fmt) (rm : BitVec 2) (sat : Bool) (a b : List Nat) : List Nat × BitVec 32 :=
  let l := (a.zip b).map (fun p => reduce op f rm sat p.1 f p.2)
  (l.map (fun r => r.1), l.foldl (fun w r => w ||| r.2) 0)

/-- Writes bytes over the pages of a destination. -/
def State.landPages (s : State) (bs : List Byte) : List Phys → State
  | [] => s
  | p :: r => let n := min bs.length (4096 - p.key % 4096); (s.landWrite p (bs.take n)).landPages (bs.drop n) r

/-- The reduction buffer of a bank has room for one more destination of n bytes (R211). -/
def State.redRoom (s : State) (key n : Nat) : Bool :=
  decide ((s.reds.filter (fun r => r.room && bankOf r.key == bankOf key)).foldl
    (fun b r => b + ((r.anns.head?).map Ann.size).getD 0) 0 + n ≤ 2 ^ 18)

/-- The result so far with n bytes more of contribution k, at offset o of it: the first stands, later ones are combined element by
element (R211). -/
def RedInst.combine (r : RedInst) (a0 : Ann) (k o : Nat) (bs : List Byte) : List Byte × BitVec 32 :=
  if k = 0 then (r.acc ++ bs, 0)
  else
    let f := Fmt.ofCode a0.fmt
    let z := Fmt.esize f
    let w := reduceAll (BitVec.ofNat 2 a0.op) f (BitVec.ofNat 2 a0.rm) a0.sat (elemsOf z ((r.acc.drop o).take bs.length)) (elemsOf z bs)
    (r.acc.take o ++ (w.1.map (toLE z)).flatten ++ r.acc.drop (o + bs.length), w.2)

/-- The commands of announcements that still wait, with their announcements. -/
def State.redFound (s : State) (anns : List Ann) : List (Ann × Fen × PortKey × Cmd) :=
  anns.filterMap (fun n => match s.findCmd n.fen n.num with
    | some (x, p, c) => if c.done then none else some (n, x, p, c)
    | none => none)

/-- The bank reads the next granule of the contributions and combines it (R211, R291). -/
def State.redRead (s : State) (i : Nat) (r : RedInst) (a0 : Ann) (n : Ann) (x : Fen) (p : PortKey) (c : Cmd) : State :=
  let o := r.at' % a0.size
  let z := min 16 (a0.size - o)
  let key := n.data + o
  let m := s.meetMarks (x.portReq n.fen p (cmdHdr c.ins).port.toNat n.idx n.num) ⟨.scratch, key, 0, 0, 0, 0⟩ (key % 2 ^ 19) z
  if badOf m.1 then m.2.redAbandon i r s.cycle
  else
    let w := r.combine a0 (r.at' / a0.size) o (s.mem.getN key z)
    { m.2 with reds := updNth m.2.reds i (fun r => { r with at' := r.at' + z, acc := w.1, st := r.st ||| m.1 ||| w.2 }) }

/-- MRED_COMBINE (R211): all have announced. The bank takes room in its buffer, reads the contributions in ascending IDX, granule by
granule, combining them; then it writes the destination once, and completes every contributor with the OR of all status. A
contribution with poison, or whose task has been terminated, abandons the instance; one of a frozen fen is read once the fen runs
again (R383, R389). -/
def execMredCombine (key : Nat) (tag : BitVec 12) (s : State) : Out :=
  match s.redFind key tag.toNat with
  | none => .next s
  | some (i, r) =>
    match r.ordered with
    | [] => .next s
    | a0 :: rest =>
      let anns := a0 :: rest
      if r.abandoned || anns.length != a0.nm1 + 1 then .next s
      else
        let found := s.redFound anns
        if found.length ≠ anns.length then .next (s.redAbandon i r s.cycle)
        else if !r.room then
          .next (if s.redRoom key a0.size then { s with reds := updNth s.reds i (fun r => { r with room := true }) } else s)
        else match found[r.at' / a0.size]? with
        | some (n, x, p, c) => .next (if s.fenFrozen x then s else s.redRead i r a0 n x p c)
        | none =>
          if a0.key.any (fun p => s.reserved ⟨none, 2, ⟨0, 0, 0⟩, 0, 0, 0, 0⟩ p.key 4096) then .next s
          else
            let s := s.landPages r.acc a0.key
            let st := found.foldl (fun b p => b ||| p.2.2.2.osw) r.st
            let s := { s with reds := dropNth s.reds i }
            .next (s.redDone anns (fun c => { c.finish st with asleep := false, bytes := c.bytes + a0.size }))

/-- MRED_TIMEOUT (R211): 2^(TMO+10) cycles after the first contribution the last has not arrived. -/
def execMredTimeout (key : Nat) (tag : BitVec 12) (s : State) : Out := .next (s.redTime key tag.toNat)

/-- ABANDONED_INSTANCE_END (R211): a further 2^(TMO+10) cycles after the abandonment the entry is freed. -/
def execAbandonedInstanceEnd (key : Nat) (tag : BitVec 12) (s : State) : Out := .next (s.redTime key tag.toNat)

/-! ## matom and maxpy (R212, R213) -/

/-- Translates an access of a Mere command at an element. -/
def State.mereAt (s : State) (a : CmdAt) (k va : Nat) : Res Phys :=
  let rq := a.req k
  if 2 ^ 48 ≤ va then s.meetFault a.x.asid rq ⟨va, .rmw, 0, 0⟩
  else (s.xlateFor a.x rq .rmw va).bind (fun ph s =>
    if ph.typ = .mere then .ok ph s else s.meetFault a.x.asid rq ⟨va, .rmw, 3, 0⟩)

/-- The element operation of matom (R212). -/
def matomElem (op : Nat) (f : Fmt) (old v : Nat) : Rslt :=
  if op = 0 then reduce 0#2 f 0#2 false old f v
  else if op = 1 then minMax f false old v
  else if op = 2 then minMax f true old v
  else if op = 3 then (old &&& v, 0) else if op = 4 then (old ||| v, 0) else if op = 5 then (old ^^^ v, 0) else (v, 0)

/-- matom (R212): one element a turn, in element order; old values land densely at ROFS, and a last granule that they fill
in part is set full at the end (R22). -/
def execMatom (_h : CmdHdr) (_t : BitVec 12) (op : BitVec 4) (desig : BitVec 11) (sofs : BitVec 15) (ret : Bool)
    (rofs : BitVec 15) (_ord : Bool) (s : State) : Out :=
  runCmd s (fun a s =>
    let c := a.c
    let t := c.ten0
    let f := Tensor.fmt t
    let z := Fmt.esize f
    let tile := (a.x.desig a.x.anchor desig.toNat).getD a.x.anchor
    let ro := 16 * rofs.toNat
    if Tensor.count t ≤ c.pos then
      .ok (c.finish 0) 
        (if ret && z * c.pos % 16 != 0 then s.updMem (fun m => m.mark (keyScratch tile (ro + z * c.pos) / 16) 1 true) else s)
    else
      let va := Tensor.addr t (Tensor.indexOf t c.pos)
      let so := 16 * sofs.toNat + z * c.pos
      (s.mereAt a c.pos va).bind (fun ph s =>
        let x := leNat (s.mem.readZ (keyScratch tile so) z)
        (s.rmwAt (a.req c.pos) ph va z (fun old =>
          let r := matomElem op.toNat f (leNat old) x
          (toLE z r.1, r.2))).bind (fun r s =>
            let v := s.readScratch (a.req c.pos) tile so z
            let s := if badOf v.2.1 then v.2.2.markPoison ph z else v.2.2
            let s := if ret then s.landScratch tile (ro + z * c.pos) r.1 (badOf r.2) else s
            .ok { c with pos := c.pos + 1, bytes := c.bytes + z, osw := c.osw ||| v.2.1 ||| r.2 } s)))

/-- The elements of a line of y: A·x + y, one rounding each (R213). -/
def axpyElems (f : Fmt) (av : Val) (rm : BitVec 2) (sat : Bool) (xs ys : List Nat) : List Nat × BitVec 32 :=
  let l := (xs.zip ys).map (fun p => finishF f rm.toNat sat (fmaVal rm.toNat av (floatVal f p.1) (floatVal f p.2)))
  (l.map (fun r => r.1), l.foldl (fun w r => w ||| r.2) 0)

/-- maxpy (R213): a turn reads the elements of a granule of x, or updates a 128-byte line of y for which all are in hand; an
uncorrectable element of x leaves its element of y with poison. -/
def execMaxpy (_h : CmdHdr) (_t : BitVec 12) (rm : BitVec 2) (sat : Bool) (desig : BitVec 11) (xofs : BitVec 15)
    (av : BitVec 32) (s : State) : Out :=
  runCmd s (fun a s =>
    let c := a.c
    let t := c.ten0
    let f := Tensor.fmt t
    let z := Fmt.esize f
    let tile := (a.x.desig a.x.anchor desig.toNat).getD a.x.anchor
    if Tensor.count t ≤ c.pos then .ok (c.finish 0) s
    else
      let va := Tensor.base t + z * c.pos
      let n := min (Tensor.count t - c.pos) ((128 - va % 128) / z)
      let have' := c.data.length / (z + 1)
      if have' < n then
        let e := c.pos + have'
        let x := s.scratchElems (a.req c.pos) tile (16 * xofs.toNat + z * e) z (min (n - have') (16 / z - e % (16 / z)))
        .ok { c with data := c.data ++ x.1, osw := c.osw ||| x.2.1 } x.2.2
      else
        (s.mereAt a c.pos va).bind (fun ph s =>
          (s.rmwAt (a.req c.pos) ph va (z * n) (fun old =>
            let r := axpyElems f (floatVal .f32 av.toNat) rm sat (elemsOf z (unmark z n c.data)) (elemsOf z old)
            ((r.1.map (toLE z)).flatten, r.2))).bind (fun r s =>
              .ok { c with data := [], pos := c.pos + n, bytes := c.bytes + z * n, osw := c.osw ||| r.2 } (s.remark ph z n c.data))))

end Sys2Proof.Machine
end

