-- ==== Sys2Proof/Machine/Fc.lean ====
section
/-! DEFINITION. Phases of a fen as the fen controller starts and ends them (R356, R357), and the commands depdec, thresh,
launch and mswitch (R214 to R217, R331). -/
namespace Sys2Proof.Machine

/-! ## The schedulers' state -/

/-- The state with the schedulers changed. -/
def State.updHts (s : State) (g : Sched → Sched) : State := { s with hts := g s.hts }

/-- A partition's attempts on a die are taken up again (R338). -/
def State.unstick (s : State) (die part : Nat) : State :=
  s.updHts (fun h => { h with stuck := h.stuck.filter (fun q => q != (die, part)) })

/-! ## Clones (R346) -/

/-- A node that the balancer placed: a copy, or the SPLIT or MERGE before and behind it. -/
def Mantle.cloneAt (m : Mantle) (e : End) : Bool :=
  match e with
  | .node t sl _ => m.nodes.any (fun n => n.clone && n.tile == t && n.slot == sl)
  | _ => false

/-- Where a wire ends once an inserted SPLIT is taken out: at the node that the SPLIT feeds. -/
def Mantle.behindSplit (m : Mantle) (e : End) : End :=
  match e with
  | .node t sl p => if m.cloneAt e then ((m.wires.find? (fun v => v.src == .node t sl (2 * p))).map Wire.dst).getD e else e
  | e => e

/-- Where a wire begins once an inserted MERGE is taken out: at the node that feeds its first input. -/
def Mantle.beforeMerge (m : Mantle) (e : End) : End :=
  match e with
  | .node t sl _ => if m.cloneAt e then ((m.wires.find? (fun v => v.dst == .node t sl 0)).map Wire.src).getD e else e
  | e => e

/-- The mantle as it was loaded, without the balancer's nodes. -/
def Mantle.unclone (m : Mantle) : Mantle :=
  if m.nodes.all (fun n => !n.clone) then m
  else
    let inserted : Nat → End → Bool := fun opc e => match e with
      | .node t sl _ => m.nodes.any (fun n => n.clone && n.opc == opc && n.tile == t && n.slot == sl)
      | _ => false
    let inner : Wire → Bool := fun w =>
      (m.cloneAt w.src && !inserted 0x68 w.src) || (m.cloneAt w.dst && !inserted 0x67 w.dst)
    { m with nodes := m.nodes.filter (fun n => !n.clone)
             wires := (m.wires.filter (fun w => !inner w)).map (fun w => { w with src := m.beforeMerge w.src, dst := m.behindSplit w.dst }) }

/-! ## Phases -/

/-- Matrix nodes count the outputs written since the mantle was loaded (R236). -/
def isMatrix (i : Instr) : Bool := (matHdr i).isSome

/-- A node as a phase start finds it: no beats, no tokens, initial registers. A trapped node stays trapped, and a matrix
node keeps its count of outputs (R225, R236, R357). -/
def Node.restart (n : Node) : Node :=
  { n with st := if n.st = .trapped then .trapped else .idle, inq := [[], [], [], [], []], outq := [[], []], thr := kiFloor,
           past := [], hops := List.replicate 4 0xFF800000#32, sent := 0xFF800000#32, held := false,
           mem := { NodeMem.blank with n3 := if isMatrix n.ins then n.mem.n3 else 0 } }

/-- A mantle at a phase start; its ring table stays as it was left (R41). -/
def Mantle.restart (m : Mantle) : Mantle :=
  { m with nodes := m.nodes.map Node.restart, relays := m.relays.map (fun r => { r with q := [] }) }

/-- thresh commands not yet delivered to nodes of the old mantle end with ABORTED (R217). -/
def PortQ.dropThresh (q : PortQ) : PortQ :=
  { q with cmds := q.cmds.map (fun c => match c.ins with
      | .thresh .. => if c.done then c else c.abort
      | _ => c) }

/-- A phase of mantle m starts (R357 step 6); the mantle of the phase that ended is as it was loaded (R346). -/
def Fen.startPhase (x : Fen) (m : Nat) : Fen :=
  { x with cur := m, choice := none, exited := false, state := if x.state = 3 then 2 else x.state, eaten := [], spares := [],
           ports := if m = x.cur then x.ports else x.ports.map PortQ.dropThresh,
           mantles := updNth x.mantles x.cur (fun o => o.map Mantle.unclone) }.updMantleAt m Mantle.restart

/-- Whether mantle m holds an image. -/
def Fen.loaded (x : Fen) (m : Nat) : Bool := ((x.mantles[m]?).join).isSome

/-- The phase ends: the fen controller fixes its choice (R356). A choice of a mantle that holds no image is exit, with
ABORTED in STATUS. -/
def Fen.endPhase (x : Fen) : Fen :=
  let y := { x with select := none, sel14 := [], sel15 := [], pendSw := none, state := if x.state = 2 then 3 else x.state }
  match x.pendSw, x.select with
  | some m, _ => { y with choice := some (some m) }
  | none, some (some m) =>
    if x.loaded m then { y with choice := some (some m) }
    else { y with choice := some none, status := y.status ||| 0x0200#16 }
  | none, _ => { y with choice := some none }

/-! ## depdec and thresh -/

/-- depdec (R214): the name is looked up when the command is performed. -/
def execDepdec (_h : CmdHdr) (die : BitVec 2) (amount : BitVec 8) (name : BitVec 32) (s : State) : Out :=
  runCmd s (fun a s => match s.depDecrement die.toNat a.x.asid name.toNat amount.toNat with
    | none => .ok (a.c.finish Osw.aborted) s
    | some r => .ok (a.c.finish (Osw.when r.1 Osw.truncated)) r.2)

/-- thresh (R215): the node at its port merges the pair; a command that outlived its mantle ends with ABORTED. -/
def execThresh (_h : CmdHdr) (score : BitVec 32) (s : State) : Out :=
  runCmd s (fun a s =>
    if a.c.man ≠ a.x.cur then .ok a.c.stop s
    else .ok (a.c.finish 0) (s.updFen a.f (fun x => x.offer x.cur a.place.1 a.place.2 (kiMk score.toNat 0xFFFF_FFFF))))

/-! ## launch (R216, R331) -/

/-- The record a launch command has read. -/
def Cmd.record (c : Cmd) : Rec := BitVec.ofNat 1024 (leNat c.data)

/-- launch (R216): reads the record, 64 bytes a turn; one that fails its checks makes the command invalid; a valid one is held
until LAUNCH_ACCEPT. -/
def execLaunch (_h : CmdHdr) (addr : BitVec 48) (s : State) : Out :=
  runCmd s (fun a s =>
    let c := a.c
    if c.asleep then .ok c s
    else if c.data.length < 128 then
      (s.engRead a c.pos (addr.toNat + c.data.length) 64).bind (fun r s =>
        .ok { c with data := c.data ++ r.1, osw := c.osw ||| r.2 } s)
    else if !s.recordOk c.record a.x.asid a.x.part then .ok (c.finish Osw.cmdInvalid) s
    else .ok { c with asleep := true, stage := 1 } s)

/-- LAUNCH_ACCEPT (R331): the launch that fen k's controller holds is accepted once its scheduler has room and OCCCAP
admits it, and the command completes. A record that has become invalid while it was held makes the command invalid. -/
def execLaunchAccept (k : Nat) (s : State) : Out :=
  match s.fens[k]? with
  | none => .next s
  | some x =>
    match (x.cmdsAt .fc).head? with
    | none => .next s
    | some c =>
      if !c.asleep || c.stage != 1 || c.done || s.fenFrozen x then .next s
      else if !s.recordOk c.record x.asid x.part then
        .next (s.updNum k c.num (fun c => { c.finish Osw.cmdInvalid with asleep := false }))
      else if !s.launchRoom c.record x.asid || !s.occOk x.asid then .next s
      else .next ((s.acceptLaunch c.record x.asid x.fn x.part x.ctx s.dev.midx).updNum k c.num
        (fun c => { c.finish 0 with asleep := false }))

/-! ## mswitch (R217) -/

/-- mswitch (R217): with NOW 0 the next phase end selects M; with NOW 1 the phase ends at once; after an exit M starts its phase
at once. Completes when M is current. -/
def execMswitch (_h : CmdHdr) (m : BitVec 2) (now : Bool) (s : State) : Out :=
  runCmd s (fun a s =>
    let c := a.c
    let x := a.x
    if x.choice.isSome then .ok c s
    else if x.cur = m.toNat ∧ !x.exited then .ok (c.finish 0) s
    else if x.exited then .ok (c.finish 0) (s.updFen a.f (fun x => x.startPhase m.toNat))
    else if c.stage = 1 then .ok c s
    else .ok { c with stage := 1 } (s.updFen a.f (fun x =>
      if now then { x with choice := some (some m.toNat), sel14 := [], sel15 := [], state := if x.state = 2 then 3 else x.state }
      else { x with pendSw := some m.toNat })))

end Sys2Proof.Machine
end

