-- ==== Sys2Proof/Machine/Fire.lean ====
section
/-! DEFINITION. The firing of nodes (R219 to R226): operands and their kinds, agreement of beats, guards, outputs with the
movement of beats and tokens (R352 to R355), status, node traps, thresholds (R273, R274). Every node's meaning is a
turn given to `runNode`. -/
namespace Sys2Proof.Machine

/-! ## The node whose turn it is -/

/-- Where a node stands: fen, place in the current mantle's list, the records. -/
structure NodeAt where
  f : Nat
  k : Nat
  x : Fen
  m : Mantle
  n : Node

/-- The node whose turn it is. -/
def State.nodeHere (s : State) : Option NodeAt :=
  match s.here with
  | .node f k =>
    match s.fens[f]? with
    | none => none
    | some x => match x.mantle with
      | none => none
      | some m => (m.nodes[k]?).map (fun n => ⟨f, k, x, m, n⟩)
  | _ => none

/-- A node fires in a phase of a live, unfrozen fen that is not completing, unless it is trapped or the balancer holds it (R41,
R225, R346, R370, R383). A node whose ports are held completes the firing in progress. -/
def State.mayFire (s : State) (a : NodeAt) : Bool :=
  a.x.live && a.x.state != 1 && a.x.state != 4 && a.x.term.isNone && !a.x.exited && !s.fenFrozen a.x && a.n.st != .trapped &&
  (!a.n.held || !a.n.mem.owe.isEmpty || !a.n.mem.win.isEmpty)

/-- The state with one node of the current mantle changed. -/
def State.updNode (s : State) (f k : Nat) (g : Node → Node) : State :=
  s.updFen f (fun x => x.updMantle (fun m => { m with nodes := updNth m.nodes k g }))

/-- The header of the node. -/
def NodeAt.hdr (a : NodeAt) : NodeHdr := nodeHdr a.n.ins

/-- Input reference j. -/
def NodeAt.inp (a : NodeAt) (j : Nat) : Ref := (a.hdr.ins[j]?).getD .none
/-- Output reference p; an inserted SPLIT has a pair of outputs for each input (R346). -/
def NodeAt.outp (a : NodeAt) (p : Nat) : Ref := (a.hdr.outs[p % 2]?).getD .none
/-- Input j is connected. -/
def NodeAt.hasIn (a : NodeAt) (j : Nat) : Bool := a.inp j != .none
/-- Output p is connected. -/
def NodeAt.hasOut (a : NodeAt) (p : Nat) : Bool := a.outp p != .none
/-- The rounding code. -/
def NodeAt.rm (a : NodeAt) : Nat := a.hdr.rm.toNat
/-- The node as a requester. -/
def NodeAt.req (a : NodeAt) (elem : Nat) : Req := nodeReq a.f a.n.tile a.n.slot elem

/-! ## Movement of beats and tokens (R352 to R356) -/

/-- A wire's destination has room for a beat: its slack, or a stage's latches. Ports that the balancer holds accept none (R346). -/
def Mantle.room (m : Mantle) (w : Wire) : Bool :=
  match w.dst with
  | .node t sl p => m.nodes.any (fun n => n.tile == t && n.slot == sl && !n.held && decide (((n.inq[p]?).getD []).length < w.cap))
  | .relay k => (m.relays[k]?).any (fun r => decide (r.q.length < r.cap))
  | .sel _ => true

/-- A beat enters the end of a wire; a PAD beat is discarded at an input port (R222). -/
def Fen.deliver (x : Fen) (b : Beat) (w : Wire) : Fen :=
  match w.dst with
  | .node t sl p =>
    if b.typ = 11 then x
    else x.updMantle (fun m => { m with nodes := m.nodes.map (fun n =>
      if n.tile == t && n.slot == sl then { n with inq := updNth n.inq p (fun q => q ++ [b]) } else n) })
  | .relay k => x.updMantle (fun m => { m with relays := updNth m.relays k (fun r => { r with q := r.q ++ [b] }) })
  | .sel l => { x with selq := x.selq ++ [(l, b.data.getLsbD 0)] }

/-- A source delivers a beat into all its branches at once, when each has room (R353). -/
def Fen.forkOut (x : Fen) (src : End) (b : Beat) : Option Fen :=
  match x.mantle with
  | none => none
  | some m =>
    let ws := m.wires.filter (fun w => w.src == src && w.kind != 3)
    if ws.isEmpty || !ws.all m.room then none else some (ws.foldl (fun x w => x.deliver b w) x)

/-- The oldest beat of a fork's stage moves on. -/
def Fen.moveRelay (x : Fen) (k : Nat) : Option Fen :=
  match (x.mantle.bind (fun m => m.relays[k]?)).bind (fun r => r.q.head?) with
  | none => none
  | some b => (x.forkOut (.relay k) b).map (fun x =>
      x.updMantle (fun m => { m with relays := updNth m.relays k (fun r => { r with q := r.q.drop 1 }) }))

/-- The oldest beat of output p of node k moves on. -/
def Fen.moveOut (x : Fen) (k p : Nat) : Option Fen :=
  match x.mantle.bind (fun m => m.nodes[k]?) with
  | none => none
  | some n => match ((n.outq[p]?).getD []).head? with
    | none => none
    | some b => (x.forkOut (.node n.tile n.slot p) b).map (fun x =>
        x.updMantle (fun m => { m with nodes := updNth m.nodes k (fun n => { n with outq := updNth n.outq p (fun q => q.drop 1) }) }))

/-- One beat from each source that can move one: whether any moved. -/
def Fen.pass (x : Fen) : Bool × Fen :=
  match x.mantle with
  | none => (false, x)
  | some m =>
    let go : (Fen → Option Fen) → Bool × Fen → Bool × Fen := fun g r => match g r.2 with | some y => (true, y) | none => r
    let r := (upto 0 m.relays.length).foldl (fun r k => go (fun x => x.moveRelay k) r) (false, x)
    ((m.nodes.zipIdx).flatMap (fun n => (upto 0 n.1.outq.length).map (fun p => (n.2, p)))).foldl (fun r q => go (fun x => x.moveOut q.1 q.2) r) r

/-- Beats move as far as room goes, a bounded number of passes. -/
def Fen.settle (x : Fen) : Nat → Fen
  | 0 => x
  | n + 1 => let r := x.pass; if r.1 then r.2.settle n else x

/-- Beats of a fen move. -/
def State.settle (s : State) (f : Nat) : State := s.updFen f (fun x => x.settle 64)

/-! ## Operands (R220) -/

/-- What an input offers to a firing. -/
inductive Offer where
  /-- not connected -/
  | none
  | empty
  /-- a beat or token from a buffer -/
  | streamed (b : Beat)
  /-- a beat of a ring -/
  | ring (b : Beat)
  | const (b : Beat)
  deriving DecidableEq, Repr

/-- The beat of an offer. -/
def Offer.beat? : Offer → Option Beat
  | .streamed b | .ring b | .const b => some b
  | _ => Option.none

/-- A beat of DATA with no tag. -/
def dataBeat (d : BitVec 256) : Beat := ⟨0, d, none, false⟩

/-- A control beat, or a token. -/
def ctlBeat (typ : Nat) : Beat := ⟨typ, 0, none, false⟩

/-- A Reed token of a value. -/
def reedTok (v : Bool) : Beat := ⟨0, if v then 1 else 0, none, false⟩

/-- The value of a token. -/
def Beat.val (b : Beat) : Bool := b.data.getLsbD 0

/-- A beat as its consumer computes with it: poisoned bytes are +0 (R417). -/
def Beat.clean (b : Beat) : Beat := if b.poison then { b with data := 0 } else b

/-- A control beat is offered. -/
def Offer.isCtl (o : Offer) : Bool := match o with | .streamed b => b.typ != 0 | _ => false

/-- A token offered, with value true. -/
def Offer.isTrue (o : Offer) : Bool := match o with | .streamed b => b.val | _ => false
/-- A token offered, with value false. -/
def Offer.isFalse (o : Offer) : Bool := match o with | .streamed b => !b.val | _ => false

/-- The descriptor of a ring the node names. -/
def NodeAt.ring (a : NodeAt) (h : BitVec 5) : Ring := a.x.ring h.toNat
/-- The tile of a ring. -/
def NodeAt.ringTile (a : NodeAt) (h : BitVec 5) : Tile := (a.x.ringTile (a.ring h)).getD a.x.anchor

/-- The bytes of beat i of slot index j of a ring: offset and length; the last beat of a slot may be short (R220). -/
def beatSpan (d : Ring) (j i : Nat) : Nat × Nat := (Ring.slot d j + 32 * i, min 32 (Ring.bytes d - 32 * i))

/-- The next beat of a ring's head slot, zero-completed, at beat i. A descriptor that fails its check offers a beat whose
taking is the update that fails (R27). -/
def State.ringBeat (s : State) (a : NodeAt) (h : BitVec 5) (i : Nat) : Offer :=
  let d := a.ring h
  if Ring.flt d then .empty
  else if !a.x.ringOk d then (if Ring.occ d = 0 then .empty else .ring (dataBeat 0))
  else if !s.ringFilled a.x d 1 then .empty
  else
    let p := beatSpan d (Ring.head d) i
    let k := keyScratch (a.ringTile h) p.1
    .ring ⟨0, BitVec.ofNat 256 (leNat (s.mem.readZ k p.2)), none, s.mem.poisoned k p.2⟩

/-- What input j offers. -/
def State.offer (s : State) (a : NodeAt) (j : Nat) : Offer :=
  match a.inp j with
  | .none | .seep _ _ => .none
  | .ring h => s.ringBeat a h ((a.n.mem.pos[j]?).getD 0)
  | .const k => .const (dataBeat ((a.m.consts[k.toNat]?).getD 0))
  | .circuit _ _ | .near _ _ | .reed _ _ => match ((a.n.inq[j]?).getD []).head? with
    | some b => .streamed b.clean
    | none => .empty

/-- The oldest guard token: none when the guard is off. -/
def NodeAt.guardTok (a : NodeAt) : Option Offer :=
  match a.hdr.guard with
  | .off => none
  | _ => some (match ((a.n.inq[4]?).getD []).head? with | some b => .streamed b | none => .empty)

/-- The ring handles a node names. -/
def NodeAt.rings (a : NodeAt) : List (BitVec 5) :=
  (a.hdr.ins ++ a.hdr.outs).filterMap (fun x => match x with | .ring h => some h | _ => none)

/-- A ring the node uses has faulted, and stops it (R27). -/
def State.ringHeld (s : State) (a : NodeAt) : Bool :=
  a.rings.any (fun h => Ring.flt (((s.fens[a.f]?).map (fun x => x.ringOf a.x.cur h.toNat)).getD 0))

/-- The node's update of a ring is checked (R27): a failing descriptor sets FLT and raises trap cause 5. -/
def State.ringUse (s : State) (a : NodeAt) (h : BitVec 5) : Bool × State :=
  s.ringCheck a.f a.x.cur h.toNat a.n.tile a.n.slot

/-- The faults of the rings whose update failed in a turn that led to t: nothing else of the turn is performed (R219). -/
def State.ringFaults (s t : State) (a : NodeAt) : State :=
  a.rings.foldl (fun s h =>
    if Ring.flt (((t.fens[a.f]?).map (fun x => x.ringOf a.x.cur h.toNat)).getD 0) then (s.ringUse a h).2 else s) s

/-- Counts one use of a ring's head slot, and pops it after POPN+1 uses (R24, R220). -/
def State.useSlot (s : State) (a : NodeAt) (j : Nat) (h : BitVec 5) : State :=
  let u := (((s.fens[a.f]?).bind Fen.mantle).bind (fun m => m.nodes[a.k]?)).map (fun n => (n.mem.uses[j]?).getD 0)
  let u := u.getD 0 + 1
  let last := decide (Ring.popn (a.ring h) + 1 ≤ u)
  let s := s.updNode a.f a.k (fun n => { n with mem := { n.mem with
    pos := updNth n.mem.pos j (fun _ => 0), uses := updNth n.mem.uses j (fun _ => if last then 0 else u) } })
  if last then s.ringAdvance a.f a.x.cur h.toNat 1 true else s

/-- Takes an input's operand: the oldest beat of a buffer, the next beat of a ring slot. Answers the status its bytes give. -/
def State.take (s : State) (a : NodeAt) (j : Nat) : BitVec 32 × State :=
  match a.inp j with
  | .ring h =>
    let c := s.ringUse a h
    if !c.1 then (0, c.2) else
    let d := a.ring h
    let i := (a.n.mem.pos[j]?).getD 0
    let p := beatSpan d (Ring.head d) i
    let r := s.meetMarks (a.req i) (scratchPhys (a.ringTile h) p.1) p.1 p.2
    if Ring.bytes d ≤ 32 * (i + 1) then (r.1, r.2.useSlot a j h)
    else (r.1, r.2.updNode a.f a.k (fun n => { n with mem := { n.mem with pos := updNth n.mem.pos j (fun _ => i + 1) } }))
  | .circuit _ _ | .near _ _ | .reed _ _ =>
    (0, s.updNode a.f a.k (fun n => { n with inq := updNth n.inq j (fun q => q.drop 1) }))
  | _ => (0, s)

/-- Takes several inputs' operands. -/
def State.takeAll (s : State) (a : NodeAt) : List Nat → BitVec 32 × State
  | [] => (0, s)
  | j :: r => let p := s.take a j; let q := p.2.takeAll a r; (p.1 ||| q.1, q.2)

/-- Takes the guard's token, when the guard is on. -/
def State.takeGuard (s : State) (a : NodeAt) : State :=
  match a.hdr.guard with
  | .off => s
  | _ => s.updNode a.f a.k (fun n => { n with inq := updNth n.inq 4 (fun q => q.drop 1) })

/-! ## Outputs -/

/-- Output p has room for a beat: four beats in its buffer, or a free, tagged-empty tail slot of its ring (R219). -/
def State.outRoom (s : State) (a : NodeAt) (n : Node) (p : Nat) : Bool :=
  match a.outp p with
  | .none | .seep _ _ => true
  | .ring h =>
    let d := ((s.fens[a.f]?).map (fun x => x.ring h.toNat)).getD 0
    (n.mem.opos[p]?).getD 0 != 0 || (!Ring.flt d && (if a.x.ringOk d then s.ringFree a.x d 1 else decide (Ring.occ d < Ring.n d)))
  | _ => decide (((n.outq[p]?).getD []).length < 4)

/-- Writes bytes at an offset of a ring's tail slot, each granule set full as it is written. -/
def State.intoSlot (s : State) (t : Tile) (o : Nat) (bs : List Byte) (bad : Bool) : State :=
  let s := s.writeScratch t o bs true
  if bad then s.markPoison (scratchPhys t o) bs.length else s

/-- Closes the tail slot of an output ring after b beats: zeros to its end, and TAIL advances (R220). -/
def State.closeSlot (s : State) (a : NodeAt) (p : Nat) (h : BitVec 5) (b : Nat) : State :=
  let d := ((s.fens[a.f]?).map (fun x => x.ring h.toNat)).getD 0
  let o := min (32 * b) (Ring.bytes d)
  let s := s.intoSlot (a.ringTile h) (Ring.slot d (Ring.tail d) + o) (List.replicate (Ring.bytes d - o) 0) false
  let s := s.updNode a.f a.k (fun n => { n with mem := { n.mem with opos := updNth n.mem.opos p (fun _ => 0) } })
  let r := s.ringCheck a.f a.x.cur h.toNat a.n.tile a.n.slot
  if r.1 then r.2.ringFill a.f a.x.cur h.toNat else r.2

/-- Puts one beat on output p, where there is room. A control beat is dropped at a ring (R222). -/
def State.put (s : State) (a : NodeAt) (p : Nat) (b : Beat) : State :=
  match a.outp p with
  | .none | .seep _ _ => s
  | .ring h =>
    let c := s.ringUse a h
    if b.typ ≠ 0 then s
    else if !c.1 then c.2
    else
      let d := ((s.fens[a.f]?).map (fun x => x.ring h.toNat)).getD 0
      let i := ((((s.fens[a.f]?).bind Fen.mantle).bind (fun m => m.nodes[a.k]?)).bind (fun n => n.mem.opos[p]?)).getD 0
      let q := beatSpan d (Ring.tail d) i
      let s := s.intoSlot (a.ringTile h) q.1 (toLE q.2 b.data.toNat) b.poison
      if Ring.bytes d ≤ 32 * (i + 1) then s.closeSlot a p h (i + 1)
      else s.updNode a.f a.k (fun n => { n with mem := { n.mem with opos := updNth n.mem.opos p (fun _ => i + 1) } })
  | _ => s.updNode a.f a.k (fun n => { n with outq := updNth n.outq p (fun q => q ++ [b]) })

/-- Puts the beats a node owes, in order, as far as room goes. -/
def State.drainOwe (s : State) (a : NodeAt) : Nat → State
  | 0 => s
  | fuel + 1 =>
    match ((s.fens[a.f]?).bind Fen.mantle).bind (fun m => m.nodes[a.k]?) with
    | none => s
    | some n => match n.mem.owe with
      | [] => s
      | (p, b) :: r =>
        let free := match a.outp p with | .ring _ => b.typ != 0 || s.outRoom a n p | _ => s.outRoom a n p
        if !free then s
        else ((s.updNode a.f a.k (fun n => { n with mem := { n.mem with owe := r } })).put a p b).drainOwe a fuel

/-- The node's turn ends in a state of R40. -/
def State.nodeSt (s : State) (a : NodeAt) (st : NodeSt) : State :=
  s.updNode a.f a.k (fun n => if n.st = .trapped then n else { n with st := st })

/-! ## Status and traps (R224, R225) -/

/-- A firing's status goes to STATUS and to the node's own record. -/
def State.nodeStatus (s : State) (a : NodeAt) (w : BitVec 32) : State :=
  (s.orStatus a.f w).updNode a.f a.k (fun n => { n with mem := { n.mem with osw := n.mem.osw ||| w } })

/-- The designator of a node's tile in csr.trapval: bit [10] and the index for a memory-port tile. -/
def NodeAt.desig (a : NodeAt) : Nat :=
  if 16 ≤ a.n.slot then 1024 + ((findIx (fun t : Tile => t == a.n.tile) a.x.mpts).map (fun p => p.1)).getD 0
  else a.x.desigOf a.n.tile

/-- The node as a trap names it: for a copy in a spare tile, the node that it copies (log entry 144). -/
def NodeAt.named (a : NodeAt) : NodeAt :=
  if !a.n.clone then a
  else
    match (a.m.wires.find? (fun w => match w.dst with | .node t sl _ => t == a.n.tile && sl == a.n.slot | _ => false)).map Wire.src with
    | some (.node t _ _) => { a with n := { a.n with tile := t } }
    | _ => a

/-- csr.trapval of a node trap (R225). -/
def NodeAt.trapVal (a : NodeAt) (reason : Nat) : Word :=
  BitVec.ofNat 64 (reason * 2 ^ 56 + a.n.opc * 2 ^ 48 + a.n.slot * 2 ^ 40 + a.named.desig * 2 ^ 20)

/-- A node trap (R225, R226): the node stops in TRAPPED, and the control core is told. -/
def State.nodeTrap (s : State) (a : NodeAt) (reason : Nat) : State :=
  (s.updNode a.f a.k (fun n => { n with st := .trapped })).passTrap a.f 8 (a.trapVal reason) reason

/-! ## A firing -/

/-- What a firing does: the operands it takes, whether it takes a guard token, what it puts on its outputs, its status,
and the node's memory after it. -/
structure Fire where
  take  : List Nat
  guard : Bool
  put   : List (Nat × Beat)
  osw   : BitVec 32
  mem   : NodeMem → NodeMem

/-- Performs a firing. Poison among the operands marks every output (R417); tags are those of IN0 (R351). -/
def State.fire (s : State) (a : NodeAt) (v : Fire) (st : NodeSt) : State :=
  let offers := v.take.map (fun j => s.offer a j)
  let bad := offers.any (fun o => (o.beat?).any Beat.poison)
  let tag := match s.offer a 0 with | .streamed b => if v.take.contains 0 then b.tag else none | _ => none
  let r := s.takeAll a v.take
  let s := if v.guard then r.2.takeGuard a else r.2
  let put := v.put.map (fun p => (p.1, { p.2 with poison := p.2.poison || bad, tag := if p.2.tag.isSome then p.2.tag else tag }))
  let s := s.updNode a.f a.k (fun n => let m := v.mem n.mem; { n with mem := { m with owe := m.owe ++ put } })
  let s := if st = .guarded then s else s.nodeStatus a (v.osw ||| r.1 ||| Osw.when bad Osw.poison)
  (s.nodeSt a st).drainOwe a (put.length + 4)

/-- A turn of a node: beats it owes leave first; then `work`. A turn in which a ring update fails performs nothing but the
fault (R27, R219), and a node of a faulted ring stands still. -/
def runNode (s : State) (work : NodeAt → State → State) : Out :=
  match s.nodeHere with
  | none => .next s
  | some a =>
    if !s.mayFire a || s.ringHeld a then .next s
    else
      let t := if a.n.mem.owe ≠ [] then (s.nodeSt a .blocked).drainOwe a 64 else work a s
      if t.ringHeld a then .next ((s.ringFaults t a).settle a.f) else .next (t.settle a.f)

/-- Every connected output of the node has room. -/
def State.roomAll (s : State) (a : NodeAt) : Bool := s.outRoom a a.n 0 && s.outRoom a a.n 1

/-! ## Nodes of the ordinary form (R219, R222, R223) -/

/-- What the data inputs of a firing come to. -/
inductive Agree where
  | wait
  | trap
  | data (l : List (Option Beat))
  | ctl (b : Beat)
  deriving DecidableEq, Repr

/-- Whether the data inputs of a firing all hold a beat, and whether the streamed ones agree (R222). Rings and constants
take no part in the comparison. -/
def State.agree (s : State) (a : NodeAt) (ins : List Nat) : Agree :=
  let os := ins.map (fun j => s.offer a j)
  if os.any (fun o => o == .empty) then .wait
  else
    let st := os.filterMap (fun o => match o with | .streamed b => some b | _ => none)
    match st with
    | [] => .data (os.map Offer.beat?)
    | b :: r =>
      if r.any (fun c => c.typ != b.typ) then .trap
      else if b.typ = 0 then .data (os.map Offer.beat?)
      else .ctl b

/-- The inputs of a list that are fed from buffers. -/
def NodeAt.streams (a : NodeAt) (ins : List Nat) : List Nat :=
  ins.filter (fun j => match a.inp j with | .circuit _ _ | .near _ _ | .reed _ _ => true | _ => false)

/-- The meaning of an ordinary node: data inputs `ins`, token inputs `toks` taken by DATA firings; `data` computes from
the operands and the tokens, `ctl` says what a control beat puts out. -/
def dataTurn (ins toks : List Nat) (data : NodeAt → List (Option Beat) → List Bool → Fire) (ctl : NodeAt → Beat → Fire)
    (a : NodeAt) (s : State) : State :=
  match s.agree a ins with
  | .wait => s.nodeSt a .idle
  | .trap => s.nodeTrap a 1
  | .ctl b =>
    if !s.roomAll a then s.nodeSt a .blocked
    else
      let v := ctl a b
      s.fire a { v with take := a.streams ins, guard := false } .firing
  | .data l =>
    let ts := toks.filter a.hasIn
    let os := ts.map (fun j => s.offer a j)
    match a.guardTok with
    | some .empty => s.nodeSt a .idle
    | g =>
      if os.any (fun o => o == .empty) then s.nodeSt a .idle
      else if !s.roomAll a then s.nodeSt a .blocked
      else if g.any Offer.isFalse then
        s.fire a ⟨ins ++ ts, true, [], 0, id⟩ .guarded
      else
        let v := data a l (os.map Offer.isTrue)
        s.fire a { v with take := ins ++ ts, guard := true } .firing

/-- A control beat goes to the given outputs, where they are connected and carry beats; `State.fire` gives it the tag of the IN0
beat, or none where IN0 has no beat (R351). -/
def forward (ps : List Nat) (a : NodeAt) (b : Beat) : Fire :=
  ⟨[], false, (ps.filter a.hasOut).map (fun p => (p, { b with tag := none })), 0, id⟩

/-! ## Lanes (R221) -/

/-- The lanes of a beat in elements of w bits, lane 0 first. -/
def toLanes (w : Nat) (d : BitVec 256) : List Nat := (upto 0 (256 / w)).map (fun i => d.toNat / 2 ^ (w * i) % 2 ^ w)

/-- A beat from lanes of w bits; missing lanes are zero. -/
def ofLanes (w : Nat) (l : List Nat) : BitVec 256 :=
  BitVec.ofNat 256 (l.foldr (fun v a => v % 2 ^ w + a * 2 ^ w) 0)

/-- Whole beats of n lanes taken from the front of a list of elements, and what is left. -/
def wholeBeats (w n : Nat) : Nat → List Nat → List (BitVec 256) × List Nat
  | 0, l => ([], l)
  | fuel + 1, l =>
    if n = 0 ∨ l.length < n then ([], l)
    else let r := wholeBeats w n fuel (l.drop n); (ofLanes w (l.take n) :: r.1, r.2)

/-- Elements as a node's memory keeps them. -/
def asWords (l : List Nat) : List (BitVec 64) := l.map (BitVec.ofNat 64)
/-- Elements from a node's memory. -/
def asNats (l : List (BitVec 64)) : List Nat := l.map BitVec.toNat

/-- Packs elements of w bits on output 0 behind those that wait: the beats filled and the memory (R221). -/
def packOut (w : Nat) (bad : Bool) (m : NodeMem) (new : List Nat) : List (Nat × Beat) × NodeMem :=
  let all := asNats m.pack0 ++ new
  let r := wholeBeats w (256 / w) all.length all
  let b := m.bad || bad
  (r.1.map (fun d => (0, { dataBeat d with poison := b })), { m with pack0 := asWords r.2, bad := if r.2.isEmpty then false else b })

/-- Completes a partial beat on output 0 with a filler, when one waits (R221, R258, R273). -/
def flushOut (w fill : Nat) (m : NodeMem) : List (Nat × Beat) × NodeMem :=
  if m.pack0.isEmpty then ([], m)
  else
    let l := asNats m.pack0
    ([(0, { dataBeat (ofLanes w (l ++ List.replicate (256 / w - l.length) fill)) with poison := m.bad })],
     { m with pack0 := [], bad := false })

/-! ## Thresholds (R273, R274) -/

/-- An FP32 key above another. -/
def keyAbove (a b : BitVec 32) : Bool := (floatVal .f32 b.toNat).lt (floatVal .f32 a.toNat)

/-- A key reaches an input's seep hop: the greater is kept. -/
def Node.hopIn (n : Node) (j : Nat) (k : BitVec 32) : Node :=
  { n with hops := updNth n.hops j (fun h => if keyAbove k h then k else h) }

/-- A node sends its key on output p when it has risen (R274). -/
def State.sendKey (s : State) (a : NodeAt) (p : Nat) (key : BitVec 32) : State :=
  match ((s.fens[a.f]?).bind Fen.mantle).bind (fun m => m.nodes[a.k]?) with
  | none => s
  | some n =>
    if !keyAbove key n.sent then s
    else
      let s := s.updNode a.f a.k (fun n => { n with sent := key })
      let ws := a.m.wires.filter (fun w => w.src == .node n.tile n.slot p && w.kind == 3)
      s.updFen a.f (fun x => x.updMantle (fun m => ws.foldl (fun m w => match w.dst with
        | .node t sl j => { m with nodes := m.nodes.map (fun n => if n.tile == t && n.slot == sl then n.hopIn j key else n) }
        | _ => m) m))

/-- The pair that stands for a seep key. -/
def keyPair (k : BitVec 32) : BitVec 64 := kiMk k.toNat 0xFFFF_FFFF

/-- The inputs of a node that are seep lanes. -/
def NodeAt.seeps (a : NodeAt) : List Nat :=
  [0, 1, 2, 3].filter (fun j => match a.inp j with | .seep _ _ => true | _ => false)

/-- The threshold a node acts on: any value that its register has held since the phase start, which one being free; once its
hops' keys have reached it, the register holds them too (R274). -/
def State.readThr (s : State) (a : NodeAt) : BitVec 64 × State :=
  let up : Node → Node := fun n => a.seeps.foldl (fun n j => n.raise (keyPair ((a.n.hops[j]?).getD 0))) n
  let l := (up a.n).thr :: (up a.n).past
  ((l[Config.freeNat s.free % l.length]?).getD (up a.n).thr, { s with free := s.free + 1 }.updNode a.f a.k up)

end Sys2Proof.Machine
end

