-- ==== Sys2Proof/Machine/Vector.lean ====
section
/-! DEFINITION. The vector nodes (R227 to R235). -/
namespace Sys2Proof.Machine

/-! ## Element operations (R228) -/

/-- The data of operand k, zero when it is absent. -/
def operand (l : List (Option Beat)) (k : Nat) : BitVec 256 := (((l[k]?).getD none).map Beat.data).getD 0

/-- Lane by lane: a beat and its status from the operands' lanes in a format. -/
def laneWise (f : Fmt) (arity : Nat) (g : List Nat → Rslt) (l : List (Option Beat)) : BitVec 256 × BitVec 32 :=
  let w := Fmt.bits f
  let ops := (upto 0 arity).map (fun k => toLanes w (operand l k))
  let rs := (upto 0 (256 / w)).map (fun i => g (ops.map (fun o => (o[i]?).getD 0)))
  (ofLanes w (rs.map (fun r => r.1)), rs.foldl (fun a r => a ||| r.2) 0)

/-- An element-wise node of an arity. -/
def elementNode (n : NodeHdr) (arity : Nat) (g : List Nat → Rslt) (s : State) : Out :=
  runNode s (dataTurn (upto 0 arity) []
    (fun _ l _ => let r := laneWise n.fmt arity g l; ⟨[], true, [(0, dataBeat r.1)], r.2, id⟩) (forward [0]))

/-- Element k of an operand list. -/
def el (l : List Nat) (k : Nat) : Nat := (l[k]?).getD 0

/-- A rounded result of a float format, or an exact integer wrapped or saturated. -/
def arith (f : Fmt) (rm : Nat) (sat : Bool) (fl : Val) (i : Int) : Rslt :=
  if f.isInt then finishI f sat i else finishF f rm sat fl

/-- vadd (R228). -/
def execVadd (n : NodeHdr) (s : State) : Out :=
  elementNode n 2 (fun l => arith n.fmt n.rm.toNat n.sat (sumVals n.rm.toNat [floatVal n.fmt (el l 0), floatVal n.fmt (el l 1)])
    (intOf n.fmt (el l 0) + intOf n.fmt (el l 1))) s

/-- vsub (R228). -/
def execVsub (n : NodeHdr) (s : State) : Out :=
  elementNode n 2 (fun l => arith n.fmt n.rm.toNat n.sat
    (sumVals n.rm.toNat [floatVal n.fmt (el l 0), (floatVal n.fmt (el l 1)).neg])
    (intOf n.fmt (el l 0) - intOf n.fmt (el l 1))) s

/-- vmul (R228). -/
def execVmul (n : NodeHdr) (s : State) : Out :=
  elementNode n 2 (fun l => arith n.fmt n.rm.toNat n.sat ((floatVal n.fmt (el l 0)).mul (floatVal n.fmt (el l 1)))
    (intOf n.fmt (el l 0) * intOf n.fmt (el l 1))) s

/-- vfma (R228): one rounding. -/
def execVfma (n : NodeHdr) (s : State) : Out :=
  elementNode n 3 (fun l => arith n.fmt n.rm.toNat n.sat
    (fmaVal n.rm.toNat (floatVal n.fmt (el l 0)) (floatVal n.fmt (el l 1)) (floatVal n.fmt (el l 2)))
    (intOf n.fmt (el l 0) * intOf n.fmt (el l 1) + intOf n.fmt (el l 2))) s

/-- vdiv: floats with the cases of R147, integers under R51. -/
def execVdiv (n : NodeHdr) (s : State) : Out :=
  elementNode n 2 (fun l =>
    if n.fmt.isInt then (divI n.fmt (el l 0) (el l 1), 0) else divF n.fmt n.rm.toNat (el l 0) (el l 1)) s

/-- vsqrt (R228). -/
def execVsqrt (n : NodeHdr) (s : State) : Out := elementNode n 1 (fun l => sqrtF n.fmt n.rm.toNat (el l 0)) s

/-- vmin (R55, or the format's order). -/
def execVmin (n : NodeHdr) (s : State) : Out := elementNode n 2 (fun l => minMax n.fmt false (el l 0) (el l 1)) s

/-- vmax (R228). -/
def execVmax (n : NodeHdr) (s : State) : Out := elementNode n 2 (fun l => minMax n.fmt true (el l 0) (el l 1)) s

/-- A float whose sign bit is rewritten: NaN becomes canonical with NAN_OUT, an infinity saturates when asked. -/
def signOp (f : Fmt) (sat : Bool) (x : Nat) (sign : Bool → Bool) : Rslt :=
  match floatVal f x with
  | .nan => (Fmt.qnan f, Osw.nanOut)
  | .inf t => if sat then let r := satF f (.inf (sign t)); ((encodeF f r.1).1, r.2) else ((encodeF f (.inf (sign t))).1, 0)
  | .num t m e => ((encodeF f (.num (sign t) m e)).1, 0)

/-- vabs (R228). -/
def execVabs (n : NodeHdr) (s : State) : Out :=
  elementNode n 1 (fun l =>
    if n.fmt.isInt then finishI n.fmt n.sat ((intOf n.fmt (el l 0)).natAbs : Int)
    else signOp n.fmt n.sat (el l 0) (fun _ => false)) s

/-- vneg (R228). -/
def execVneg (n : NodeHdr) (s : State) : Out :=
  elementNode n 1 (fun l =>
    if n.fmt.isInt then finishI n.fmt n.sat (-(intOf n.fmt (el l 0))) else signOp n.fmt n.sat (el l 0) (fun t => !t)) s

/-- vand (R228). -/
def execVand (n : NodeHdr) (s : State) : Out := elementNode n 2 (fun l => (el l 0 &&& el l 1, 0)) s

/-- vor (R228). -/
def execVor (n : NodeHdr) (s : State) : Out := elementNode n 2 (fun l => (el l 0 ||| el l 1, 0)) s

/-- vxor (R228). -/
def execVxor (n : NodeHdr) (s : State) : Out := elementNode n 2 (fun l => (el l 0 ^^^ el l 1, 0)) s

/-- vshl (R228): by b mod bits(f). -/
def execVshl (n : NodeHdr) (s : State) : Out :=
  elementNode n 2 (fun l => (el l 0 * 2 ^ (el l 1 % Fmt.bits n.fmt) % 2 ^ Fmt.bits n.fmt, 0)) s

/-- vshr (R228): sign copies for iN, zeros for nN. -/
def execVshr (n : NodeHdr) (s : State) : Out :=
  elementNode n 2 (fun l => (wrapN (Fmt.bits n.fmt) (intOf n.fmt (el l 0) / 2 ^ (el l 1 % Fmt.bits n.fmt)), 0)) s

/-- vclamp (R228): vmin(vmax(x, lo), hi), each of the two an operation (log entry 137). -/
def execVclamp (n : NodeHdr) (s : State) : Out :=
  elementNode n 3 (fun l =>
    let m := minMax n.fmt true (el l 0) (el l 1)
    let r := minMax n.fmt false m.1 (el l 2)
    (r.1, m.2 ||| r.2)) s

/-! ## vcmp and sel (R229, R230) -/

/-- A condition of R229 on two elements. -/
def compare (f : Fmt) (cc : Nat) (x y : Nat) : Bool :=
  let a := valueOf f x
  let b := valueOf f y
  if cc = 0 then a.eqv b else if cc = 1 then !a.eqv b else if cc = 2 then a.lt b else if cc = 3 then a.lt b || a.eqv b
  else if cc = 4 then b.lt a else if cc = 5 then b.lt a || a.eqv b
  else if cc = 6 then !a.isNan && !b.isNan else a.isNan || b.isNan

/-- vcmp (R229): the mask on OUT0, one predicate token on OUT1. -/
def execVcmp (n : NodeHdr) (cc : BitVec 3) (any : Bool) (s : State) : Out :=
  runNode s (dataTurn [0, 1] []
    (fun a l _ =>
      let w := Fmt.bits n.fmt
      let t := ((toLanes w (operand l 0)).zip (toLanes w (operand l 1))).map (fun p => compare n.fmt cc.toNat p.1 p.2)
      let mask := ofLanes w (t.map (fun c => if c then 2 ^ w - 1 else 0))
      let v := if any then t.any id else t.all id
      ⟨[], true, (if a.hasOut 0 then [(0, dataBeat mask)] else []) ++ (if a.hasOut 1 then [(1, reedTok v)] else []), 0, id⟩)
    (forward [0]))

/-- An input reference carries Reed tokens. -/
def NodeAt.tokenIn (a : NodeAt) (j : Nat) : Bool :=
  match a.inp j with
  | .reed _ _ => true
  | .near sl o => a.m.nodes.any (fun q => q.tile == a.n.tile && q.slot == sl.toNat && outKind q.opc (b2n o) == 2)
  | _ => false

/-- sel (R230): one token selects the beat, or each lane of s its lane. -/
def execSel (n : NodeHdr) (s : State) : Out :=
  runNode s (fun a s =>
    if a.tokenIn 2 then
      dataTurn [0, 1] [2] (fun _ l t => ⟨[], true, [(0, dataBeat (operand l (if t.any id then 0 else 1)))], 0, id⟩) (forward [0]) a s
    else
      dataTurn [0, 1, 2] [] (fun _ l _ =>
        let r := laneWise n.fmt 3 (fun e => (if el e 2 ≠ 0 then el e 0 else el e 1, 0)) l
        ⟨[], true, [(0, dataBeat r.1)], 0, id⟩) (forward [0]) a s)

/-! ## cvt and vperm (R231, R232) -/

/-- A packing node's control beat: the partial beat completed with a filler, then the beat. -/
def forwardPacked (w fill : Nat) (a : NodeAt) (b : Beat) : Fire :=
  let f := flushOut w fill a.n.mem
  ⟨[], false, f.1 ++ [(0, { b with tag := none })], 0, fun _ => f.2⟩

/-- An element through cvt: SCALE of the source and the destination applied exactly to floats. -/
def cvtElem (src dst : Fmt) (ss ds : Int) (rm : Nat) (sat : Bool) (x : Nat) : Rslt :=
  let v := valueOf src x
  let v := if src.isInt then v else v.scale ss
  let v := if dst.isInt then v else v.scale (-ds)
  convertVal v src.isInt dst rm sat

/-- cvt (R231). -/
def execCvtNode (n : NodeHdr) (sfmt : Fmt) (_stid _dtid : BitVec 12) (s : State) : Out :=
  runNode s (dataTurn [0] []
    (fun a l _ =>
      let ss := Tensor.scale ((a.n.tens[0]?).getD 0)
      let ds := Tensor.scale ((a.n.tens[1]?).getD 0)
      let rs := (toLanes (Fmt.bits sfmt) (operand l 0)).map (cvtElem sfmt n.fmt ss ds n.rm.toNat n.sat)
      let bad := l.any (fun o => o.any Beat.poison)
      let p := packOut (Fmt.bits n.fmt) bad a.n.mem (rs.map (fun r => r.1))
      ⟨[], true, p.1, rs.foldl (fun w r => w ||| r.2) 0, fun _ => p.2⟩)
    (forwardPacked (Fmt.bits n.fmt) 0))

/-- vperm (R232): byte j of y is byte index[j] mod 32 of a, or zero. -/
def execVperm (_n : NodeHdr) (s : State) : Out :=
  runNode s (dataTurn [0, 1] []
    (fun _ l _ =>
      let x := toLanes 8 (operand l 0)
      let y := (toLanes 8 (operand l 1)).map (fun i => if bit i 7 then 0 else el x (i % 32))
      ⟨[], true, [(0, dataBeat (ofLanes 8 y))], 0, id⟩)
    (forward [0]))

/-! ## The functions of R233 -/

/-- vrec (R233). -/
def execVrec (n : NodeHdr) (s : State) : Out := elementNode n 1 (fun l => funcF 0 n.fmt n.rm.toNat (el l 0)) s
/-- vrsq (R233). -/
def execVrsq (n : NodeHdr) (s : State) : Out := elementNode n 1 (fun l => funcF 1 n.fmt n.rm.toNat (el l 0)) s
/-- vexp (R233). -/
def execVexp (n : NodeHdr) (s : State) : Out := elementNode n 1 (fun l => funcF 2 n.fmt n.rm.toNat (el l 0)) s
/-- vlog (R233). -/
def execVlog (n : NodeHdr) (s : State) : Out := elementNode n 1 (fun l => funcF 3 n.fmt n.rm.toNat (el l 0)) s
/-- vtanh (R233). -/
def execVtanh (n : NodeHdr) (s : State) : Out := elementNode n 1 (fun l => funcF 4 n.fmt n.rm.toNat (el l 0)) s
/-- vsigm (R233). -/
def execVsigm (n : NodeHdr) (s : State) : Out := elementNode n 1 (fun l => funcF 5 n.fmt n.rm.toNat (el l 0)) s

/-! ## vred, vscan, vbcast (R234, R235) -/

/-- The operation of a reduction on two elements: 0 add, 1 min, 2 max, 3 and, 4 or, 5 xor. -/
def redElem (f : Fmt) (op rm : Nat) (x y : Nat) : Rslt :=
  if op = 0 then (if f.isInt then (wrapN (Fmt.bits f) (intOf f x + intOf f y), 0) else addF f rm x y)
  else if op = 1 then minMax f false x y else if op = 2 then minMax f true x y
  else if op = 3 then (x &&& y, 0) else if op = 4 then (x ||| y, 0) else (x ^^^ y, 0)

/-- One level of the balanced tree: pairs combined. -/
def treeLevel (g : Nat → Nat → Rslt) : List Nat → List Nat × BitVec 32
  | a :: b :: r => let x := g a b; let q := treeLevel g r; (x.1 :: q.1, x.2 ||| q.2)
  | l => (l, 0)

/-- The balanced tree of R73 over a list of 2^n elements. -/
def treeRed (g : Nat → Nat → Rslt) : Nat → List Nat → Rslt
  | 0, l => (el l 0, 0)
  | n + 1, l => let q := treeLevel g l; let r := treeRed g n q.1; (r.1, q.2 ||| r.2)

/-- A reduction over the lanes of a beat, the result in lane 0. -/
def redLanes (f : Fmt) (op rm : Nat) (d : BitVec 256) : BitVec 256 × BitVec 32 :=
  let w := Fmt.bits f
  let r := treeRed (redElem f op rm) (Nat.log2 (256 / w)) (toLanes w d)
  (ofLanes w [r.1], r.2)

/-- A control beat that ends a segment at a level: Sk with k at or above it, or DONE (R234). -/
def endsAt (lvl : Nat) (b : Beat) : Bool := b.typ == 9 || (decide (1 ≤ b.typ ∧ b.typ ≤ 8) && decide (lvl ≤ b.typ - 1))

/-- vred (R234). -/
def execVred (n : NodeHdr) (op lvl : BitVec 3) (s : State) : Out :=
  let w := Fmt.bits n.fmt
  let g := redElem n.fmt op.toNat n.rm.toNat
  runNode s (dataTurn [0] []
    (fun a l _ =>
      if n.var = 0#4 then
        let r := redLanes n.fmt op.toNat n.rm.toNat (operand l 0)
        ⟨[], true, [(0, dataBeat r.1)], r.2, id⟩
      else
        let x := toLanes w (operand l 0)
        let bad := l.any (fun o => o.any Beat.poison)
        let rs := if a.n.mem.b0 then ((asNats a.n.mem.vals).zip x).map (fun p => g p.1 p.2) else x.map (fun e => (e, 0))
        ⟨[], true, [], rs.foldl (fun w r => w ||| r.2) 0,
         fun m => { m with vals := asWords (rs.map (fun r => r.1)), b0 := true, bad := m.bad || bad }⟩)
    (fun a b =>
      if n.var = 0#4 || !endsAt lvl.toNat b then ⟨[], false, [(0, b)], 0, id⟩
      else
        let p := (asNats a.n.mem.vals).map (passF n.fmt)
        let r : BitVec 256 × BitVec 32 :=
          if !a.n.mem.b0 then (0, 0)
          else if n.var = 2#4 then redLanes n.fmt op.toNat n.rm.toNat (ofLanes w (asNats a.n.mem.vals))
          else (ofLanes w (p.map (fun e => e.1)), p.foldl (fun w e => w ||| e.2) 0)
        ⟨[], false, [(0, { dataBeat r.1 with poison := a.n.mem.bad }), (0, b)], r.2,
         fun m => { m with vals := [], b0 := false, bad := false }⟩))

/-- An inclusive prefix, from a carry when there is one; the first lane of a run passes on. -/
def scanGo (f : Fmt) (g : Nat → Nat → Rslt) : Option Nat → List Nat → List Nat × BitVec 32
  | _, [] => ([], 0)
  | c, x :: r =>
    let y : Rslt := match c with | some p => g p x | none => passF f x
    let q := scanGo f g (some y.1) r
    (y.1 :: q.1, y.2 ||| q.2)

/-- vscan (R235). -/
def execVscan (n : NodeHdr) (op lvl : BitVec 3) (s : State) : Out :=
  let w := Fmt.bits n.fmt
  runNode s (dataTurn [0] []
    (fun a l _ =>
      let carry := if n.var = 1#4 && a.n.mem.b0 then some (el (asNats a.n.mem.vals) 0) else none
      let r := scanGo n.fmt (redElem n.fmt op.toNat n.rm.toNat) carry (toLanes w (operand l 0))
      let last := (r.1.getLast?).getD 0
      let bad := l.any (fun o => o.any Beat.poison) || (n.var = 1#4 && a.n.mem.bad)
      ⟨[], true, [(0, { dataBeat (ofLanes w r.1) with poison := bad })], r.2,
       fun m => if n.var = 1#4 then { m with vals := asWords [last], b0 := true, bad := bad } else m⟩)
    (fun _ b => ⟨[], false, [(0, b)], 0,
      fun m => if endsAt lvl.toNat b then { m with vals := [], b0 := false, bad := false } else m⟩))

/-- vbcast (R227): lane ELEM into every lane. -/
def execVbcast (n : NodeHdr) (elem : BitVec 5) (s : State) : Out :=
  let w := Fmt.bits n.fmt
  runNode s (dataTurn [0] []
    (fun _ l _ =>
      let v := el (toLanes w (operand l 0)) elem.toNat
      ⟨[], true, [(0, dataBeat (ofLanes w (List.replicate (256 / w) v)))], 0, id⟩)
    (forward [0]))

end Sys2Proof.Machine
end

