-- ==== Sys2Proof/Machine/Matrix.lean ====
section
/-! DEFINITION. The matrix nodes (R236 to R243, R396): tiles in ring slots, products under R70 to R72, the completion
record and the delivery to a barrier object, MMA, MTRN, MPOLY, MITER and MSORT. -/
namespace Sys2Proof.Machine

/-! ## Tiles (R236) -/

/-- A tile as a node reads it: format, SCALE, its 1,024 elements row by row, and whether some of it is uncorrectable. -/
structure TileIn where
  fmt   : Fmt
  scale : Int
  els   : List Nat
  bad   : Bool
  deriving DecidableEq, Repr

/-- A CF8 tile lands as e4m3 (R68, R70). -/
def landFmt (f : Fmt) : Fmt := if f = .cf8 then .e4m3 else f

/-- The captured entry of a ring: IN0, IN1, IN2, OUT0, OUT1 in that order (R36). -/
def NodeAt.tensor (a : NodeAt) (k : Nat) : Tensor := (a.n.tens[k]?).getD 0

/-- Reads the head slot of input j as a tile. -/
def State.tileIn (s : State) (a : NodeAt) (j : Nat) : TileIn × BitVec 32 × State :=
  let t := a.tensor j
  let f := landFmt (Tensor.fmt t)
  match a.inp j with
  | .ring h =>
    let d := a.ring h
    let z := landSize (Tensor.fmt t)
    let o := Ring.slot d (Ring.head d)
    let n := min (1024 * z) (Ring.bytes d)
    let ph := scratchPhys (a.ringTile h) o
    let bs := s.mem.readZ ph.key n
    let r := s.meetMarks (a.req 0) ph o n
    (⟨f, Tensor.scale t, (upto 0 1024).map (fun k => leNat ((bs.drop (z * k)).take z)), badOf r.1⟩, r.1, r.2)
  | _ => (⟨f, 0, List.replicate 1024 0, false⟩, 0, s)

/-- Counts one use of input j's head slot. -/
def State.useIn (s : State) (a : NodeAt) (j : Nat) : State :=
  match a.inp j with
  | .ring h => let c := s.ringUse a h; if c.1 then c.2.useSlot a j h else c.2
  | _ => s

/-- Pops input j's head slot. -/
def State.popIn (s : State) (a : NodeAt) (j : Nat) : State :=
  match a.inp j with
  | .ring h => let c := s.ringUse a h; if c.1 then c.2.ringAdvance a.f a.x.cur h.toNat 1 true else c.2
  | _ => s

/-- A parity error in the accumulator tiles poisons the output tile they feed: POISON, and the record of its consumption, with
ADDR 0 (R417, R419; DESIGN CHOICE, log entry 163). -/
def State.parityMet (s : State) (a : NodeAt) : State :=
  if !a.n.mem.parity then s
  else (s.eatPoison (a.req 0) 0 [(2 ^ 60 + a.n.tile.ix, 5)]).updNode a.f a.k (fun n =>
    { n with mem := { n.mem with parity := false, osw := n.mem.osw ||| Osw.poison } })

/-- Writes a tile into the tail slot of output p and advances TAIL. -/
def State.tileOut (s : State) (a : NodeAt) (p z : Nat) (els : List Nat) (bad : Bool) : State :=
  let bad := bad || a.n.mem.parity
  match a.outp p with
  | .ring h =>
    let c := (s.parityMet a).ringUse a h
    if !c.1 then c.2 else
    let d := a.ring h
    let bs := ((els.map (toLE z)).flatten).take (Ring.bytes d)
    (c.2.intoSlot (a.ringTile h) (Ring.slot d (Ring.tail d)) bs bad).closeSlot a p h (ceilDiv bs.length 32)
  | _ => s

/-- Rows of 32. -/
def rowsOf {α : Type} (l : List α) : List (List α) := (upto 0 32).map (fun i => (l.drop (32 * i)).take 32)

/-- The transpose of rows. -/
def transposed {α : Type} (d : α) (m : List (List α)) : List (List α) :=
  (upto 0 32).map (fun j => m.map (fun r => (r[j]?).getD d))

/-- The zero value. -/
def vzero : Val := .num false 0 0

/-! ## Products (R70 to R72) -/

/-- The steps of R70 over the products of an element. -/
def mmSteps (f : Fmt) (rm p : Nat) (sc : Int) : Nat → Val → List (Val × Val) → Rslt
  | 0, acc, _ => encodeF f acc
  | n + 1, acc, l =>
    let r := finishF f rm false (sumVals rm (acc :: (l.take p).map (fun q => (q.1.mul q.2).scale sc)))
    if n = 0 then r
    else let q := mmSteps f rm p sc n (floatVal f r.1) (l.drop p); (q.1, r.2 ||| q.2)

/-- The product of two 32×32 matrices of values onto initial accumulators, rounding each step; elements as bits. -/
def matMul (f : Fmt) (rm p : Nat) (sc : Int) (init x y : List (List Val)) : List (List Nat) × BitVec 32 :=
  let cols := transposed vzero y
  let rs := (x.zip init).map (fun ri => (cols.zip ri.2).map (fun ci => mmSteps f rm p sc (32 / p) ci.2 (ri.1.zip ci.1)))
  (rs.map (fun r => r.map (fun e => e.1)), rs.foldl (fun w r => r.foldl (fun w e => w ||| e.2) w) 0)

/-- The exact integer product, wrapped to i32 (R72). -/
def intMul (init : List (List Int)) (x y : List (List Int)) : List (List Nat) :=
  let cols := transposed (0 : Int) y
  (x.zip init).map (fun ri => (cols.zip ri.2).map (fun ci =>
    wrapN 32 (((ri.1.zip ci.1).map (fun q => q.1 * q.2)).foldl (fun a b => a + b) ci.2)))

/-- P of R70. -/
def stepProducts (f : Fmt) : Nat :=
  match f with
  | .bf16 | .f16 => 4
  | .f64 | .f32 => 1
  | _ => 8

/-! ## Outputs, records and deliveries (R236) -/

/-- An output of a matrix node is done: its record is written, and its delivery is owed. -/
def State.matrixDone (s : State) (a : NodeAt) (m : MatHdr) (resid : Nat) (count : Option Nat) (trap : Bool) : State :=
  match ((s.fens[a.f]?).bind Fen.mantle).bind (fun y => y.nodes[a.k]?) with
  | none => s
  | some n =>
    let outs := (n.mem.n3 + 1) % 2 ^ 32
    let c := count.getD outs
    let s := if m.recen then
        s.writeScratch a.n.tile (16 * m.recofs.toNat) (toLE 16 (c % 2 ^ 32 + resid * 2 ^ 32 + n.mem.osw.toNat * 2 ^ 64)) true
      else s
    s.updNode a.f a.k (fun n => { n with mem := { n.mem with n3 := outs, resid := n.mem.osw, osw := 0, b1 := m.baren, b2 := trap } })

/-- Delivers an output's status to its barrier object, the fen controller being the requester; it waits for translation. -/
def State.deliverBar (s : State) (a : NodeAt) (m : MatHdr) : State :=
  let va := ((a.m.bars[m.barix.toNat]?).getD 0).toNat
  let rq := fcReq a.f a.x
  let r : Res Phys := (if 2 ^ 48 ≤ va then s.meetFault a.x.asid rq ⟨va, .rmw, 0, 0⟩ else s.xlateFor a.x rq .rmw va).bind
    (fun ph s => if ph.typ = .mere then .ok ph s else s.meetFault a.x.asid rq ⟨va, .rmw, 3, 0⟩)
  match r with
  | .wait s => s
  | .fault _ t => s.faultEnd t a.f rq
  | .ok ph s =>
    if s.reserved rq ph.key 32 then s
    else (s.notify a.f ph 0 a.n.mem.resid m.bararv a.x.anchor 255).updNode a.f a.k (fun n => { n with mem := { n.mem with b1 := false } })

/-- A turn of a matrix node: an owed delivery, an owed trap, the iteration in progress; else a firing once its operands,
its guard and its outputs are ready. A firing under a false guard counts the uses of `uses` and does nothing else. -/
def matrixTurn (m : MatHdr) (ins uses : NodeAt → List Nat) (work : NodeAt → State → State) (a : NodeAt) (s : State) : State :=
  if a.n.mem.b1 then s.deliverBar a m
  else if a.n.mem.b2 then (s.updNode a.f a.k (fun n => { n with mem := { n.mem with b2 := false } })).nodeTrap a 2
  else if a.n.mem.b0 then work a s
  else if (ins a).any (fun j => s.offer a j == .empty) || a.guardTok == some .empty then s.nodeSt a .idle
  else if !s.roomAll a then s.nodeSt a .blocked
  else
    let s := s.takeGuard a
    if a.guardTok.any Offer.isFalse then ((uses a).foldl (fun s j => s.useIn a j) s).nodeSt a .guarded
    else (work a s).nodeSt a .firing

/-- A value divided by 2^SCALE of an output's entry and converted into its format (R237, R240). -/
def outElem (acc : Fmt) (t : Tensor) (rm : Nat) (sat : Bool) (x : Nat) : Rslt :=
  convertVal ((floatVal acc x).scale (-(Tensor.scale t))) false (landFmt (Tensor.fmt t)) rm sat

/-- Elements with their status, gathered. -/
def each (l : List Rslt) : List Nat × BitVec 32 := (l.map (fun r => r.1), l.foldl (fun w r => w ||| r.2) 0)

/-- Elements converted for an output, with their status. -/
def outTile (acc : Fmt) (t : Tensor) (rm : Nat) (sat : Bool) (l : List Nat) : List Nat × BitVec 32 :=
  each (l.map (outElem acc t rm sat))

/-! ## MMA (R237) -/

/-- Whether the firing reads its initial accumulator from IN2. -/
def NodeAt.readsC (a : NodeAt) (cin : Bool) : Bool := cin && a.n.mem.n0 == 0

/-- MMA (R237): accumulates KM1+1 products and writes D. -/
def execMma (n : NodeHdr) (m : MatHdr) (km1 : BitVec 16) (cin : Bool) (s : State) : Out :=
  runNode s (matrixTurn m (fun a => [0, 1] ++ (if a.readsC cin then [2] else [])) (fun _ => [0, 1]) (fun a s =>
    let ta := s.tileIn a 0
    let tb := ta.2.2.tileIn a 1
    let tc : TileIn × BitVec 32 × State := if a.readsC cin then tb.2.2.tileIn a 2 else (⟨.f32, 0, [], false⟩, 0, tb.2.2)
    let fa := ta.1.fmt
    let fb := tb.1.fmt
    let acc := ((mmaFormats fa fb).map (fun p => p.1)).getD .f32
    let flip : {α : Type} → α → Bool → List (List α) → List (List α) := fun d b r => if b then transposed d r else r
    let first := a.n.mem.n0 == 0
    let old := asNats a.n.mem.acc0
    let bad := ta.1.bad || tb.1.bad || tc.1.bad || (!first && a.n.mem.bad)
    let r : List Nat × BitVec 32 :=
      if fa.isInt then
        let init := if first then (if cin then tc.1.els.map (intOf .i32) else List.replicate 1024 0) else old.map (intOf .i32)
        ((intMul (rowsOf init) (flip 0 (bit n.var.toNat 0) (rowsOf (ta.1.els.map (intOf fa))))
          (flip 0 (bit n.var.toNat 1) (rowsOf (tb.1.els.map (intOf fb))))).flatten, 0)
      else
        let init := if first then (if cin then tc.1.els.map (fun e => (floatVal acc e).scale tc.1.scale) else List.replicate 1024 vzero)
          else old.map (floatVal acc)
        let q := matMul acc n.rm.toNat (stepProducts fa) (ta.1.scale + tb.1.scale) (rowsOf init)
          (flip vzero (bit n.var.toNat 0) (rowsOf (ta.1.els.map (floatVal fa))))
          (flip vzero (bit n.var.toNat 1) (rowsOf (tb.1.els.map (floatVal fb))))
        (q.1.flatten, q.2)
    let s := if a.readsC cin then tc.2.2.popIn a 2 else tc.2.2
    let s := (s.useIn a 0).useIn a 1
    let s := s.nodeStatus a (r.2 ||| ta.2.1 ||| tb.2.1 ||| tc.2.1 ||| Osw.when bad Osw.poison)
    if a.n.mem.n0 ≠ km1.toNat then
      s.updNode a.f a.k (fun n => { n with mem := { n.mem with n0 := n.mem.n0 + 1, acc0 := asWords r.1, bad := bad } })
    else
      let t := a.tensor 3
      let q : List Nat × BitVec 32 :=
        if fa.isInt || (acc == landFmt (Tensor.fmt t) && Tensor.scale t == 0) then (r.1, 0) else outTile acc t n.rm.toNat n.sat r.1
      let s := (s.nodeStatus a q.2).tileOut a 0 (landSize (Tensor.fmt t)) q.1 bad
      let s := s.updNode a.f a.k (fun n => { n with mem := { n.mem with n0 := 0, acc0 := [], bad := false } })
      s.matrixDone a m 0 none false))

/-! ## MTRN (R239) -/

/-- MTRN (R239): d(j, i) := a(i, j), bits unchanged. -/
def execMtrn (_n : NodeHdr) (m : MatHdr) (s : State) : Out :=
  runNode s (matrixTurn m (fun _ => [0]) (fun _ => [0]) (fun a s =>
    let t := s.tileIn a 0
    let s := (t.2.2.useIn a 0).nodeStatus a t.2.1
    let els := (transposed 0 (rowsOf t.1.els)).flatten
    (s.tileOut a 0 (landSize (Tensor.fmt (a.tensor 3))) els t.1.bad).matrixDone a m 0 none false))

/-! ## MPOLY and MITER (R240 to R242) -/

/-- A tile as the loop nodes keep it: its elements widened into FP32, where SCALE of the entry is an exact factor apart. -/
def tile32 (t : TileIn) : List Nat := t.els.map (fun e => (convertVal (floatVal t.fmt e) false .f32 0 false).1)

/-- FP32 bits as values, times 2^sc. -/
def vals32 (sc : Int) (l : List Nat) : List Val := l.map (fun e => (floatVal .f32 e).scale sc)

/-- c · I. -/
def scaledI (c : Nat) : List Val :=
  (upto 0 1024).map (fun k => (floatVal .f32 c).mul (.num false (if k / 32 = k % 32 then 1 else 0) 0))

/-- δ(i, j) by place in a tile. -/
def delta (k : Nat) : Val := .num false (if k / 32 = k % 32 then 1 else 0) 0

/-- The element of a tile at row i and column j. -/
def elemAt (l : List Val) (i j : Nat) : Val := (l[32 * i + j]?).getD vzero

/-- Step k of the FP32 product mm(p, q) of R240 onto accumulators: each element takes one product and rounds once (R70). -/
def mmStep (rm k : Nat) (acc p q : List Val) : List Nat × BitVec 32 :=
  let col := (upto 0 32).map (fun i => elemAt p i k)
  let row := (upto 0 32).map (fun j => elemAt q k j)
  each (((rowsOf acc).zip col).flatMap (fun r => (r.1.zip row).map (fun e => finishF .f32 rm false (sumVals rm [e.1, r.2.mul e.2]))))

/-- Coefficient k of a node. -/
def NodeAt.coef (a : NodeAt) (k : Nat) : Nat := ((a.n.coef[k]?).getD 0).toNat

/-- The node's output, or outputs, leave: converted, written, recorded. -/
def State.loopDone (s : State) (a : NodeAt) (m : MatHdr) (n : NodeHdr) (x : List Nat) (y : Option (List Nat)) (resid : Nat)
    (count : Option Nat) (trap : Bool) : State :=
  let bad := a.n.mem.bad
  let o0 := outTile .f32 (a.tensor 3) n.rm.toNat n.sat x
  let s := (s.nodeStatus a (o0.2 ||| Osw.when bad Osw.poison)).tileOut a 0 (landSize (Tensor.fmt (a.tensor 3))) o0.1 bad
  let s := match y with
    | none => s
    | some y =>
      let o1 := outTile .f32 (a.tensor 4) n.rm.toNat n.sat y
      (s.nodeStatus a o1.2).tileOut a 1 (landSize (Tensor.fmt (a.tensor 4))) o1.1 bad
  let s := s.updNode a.f a.k (fun n => { n with mem := { n.mem with
    b0 := false, n0 := 0, n1 := 0, n2 := 0, acc0 := [], acc1 := [], temp := [], bad := false } })
  s.matrixDone a m resid count trap

/-- A firing of MPOLY begins: the tile is loaded and its use counted; y is cDEG · I. n0 counts the coefficients left, n2 the
steps of the product in progress. -/
def State.mpolyBegin (s : State) (a : NodeAt) (deg : Nat) : State :=
  let t := s.tileIn a 0
  ((t.2.2.useIn a 0).nodeStatus a t.2.1).updNode a.f a.k (fun n => { n with mem := { n.mem with
    b0 := true, n0 := deg, n2 := 0, bad := t.1.bad, acc0 := asWords ((scaledI (a.coef deg)).map (fun v => (encodeF .f32 v).1)),
    acc1 := [], temp := [asWords (tile32 t.1)] } })

/-- MPOLY (R240): y := mm(y, x, cm · I) for m from below DEG down to 0, one step of a product a turn (R242); then y leaves. -/
def execMpoly (n : NodeHdr) (m : MatHdr) (deg : BitVec 3) (s : State) : Out :=
  runNode s (matrixTurn m (fun _ => [0]) (fun _ => [0]) (fun a s =>
    let q := a.n.mem
    if !q.b0 then s.mpolyBegin a deg.toNat
    else if q.n0 = 0 then s.loopDone a m n (asNats q.acc0) none 0 none false
    else
      let acc := if q.n2 = 0 then scaledI (a.coef (q.n0 - 1)) else vals32 0 (asNats q.acc1)
      let r := mmStep n.rm.toNat q.n2 acc (vals32 0 (asNats q.acc0)) (vals32 (Tensor.scale (a.tensor 0)) (asNats ((q.temp[0]?).getD [])))
      (s.nodeStatus a r.2).updNode a.f a.k (fun n => { n with mem :=
        if q.n2 = 31 then { n.mem with n0 := q.n0 - 1, n2 := 0, acc0 := asWords r.1, acc1 := [] }
        else { n.mem with n2 := q.n2 + 1, acc1 := asWords r.1 } })))

/-- A piece of an iteration of R241 on tiles: 0 is x, 1 is A or y, 2 to 4 hold what is in the making. Each takes 32 turns. -/
inductive LoopOp where
  /-- d := mm(p, q, 0), q transposed on request -/
  | prod (d p q : Nat) (tr : Bool)
  /-- d := fma(c1, p, round(c0 · q)) -/
  | comb (d p q : Nat)
  /-- d := round(c0 · δ − p) -/
  | less (d p : Nat)
  /-- d := round(c1 · p) -/
  | times (d p : Nat)
  /-- s := residual(p, x) -/
  | resid (p : Nat)
  deriving DecidableEq, Repr

/-- The pieces of one iteration, the residual last; tile 3 is the next x, tile 4 NISQ's next y. -/
def loopOps (var : Nat) : List LoopOp :=
  if var = 0 then [.prod 2 0 0 true, .prod 3 2 0 false, .comb 3 3 0, .resid 3]
  else if var = 1 then [.prod 2 1 0 false, .less 2 2, .prod 3 0 2 false, .resid 3]
  else [.prod 2 0 1 false, .less 2 2, .times 2 2, .prod 4 1 2 false, .prod 3 2 0 false, .resid 3]

/-- A tile of the loop. -/
def NodeMem.tile (m : NodeMem) (k : Nat) : List Nat :=
  asNats (if k = 0 then m.acc0 else if k = 1 then m.acc1 else (m.temp[k - 2]?).getD [])

/-- A working tile replaced. -/
def NodeMem.putTile (m : NodeMem) (k : Nat) (l : List Nat) : NodeMem := { m with temp := updNth m.temp (k - 2) (fun _ => asWords l) }

/-- The factor of a tile that stands as it was loaded: x and NISQ's y until the first iteration replaces them, NINV's A always. -/
def NodeAt.loopScale (a : NodeAt) (var k : Nat) : Int :=
  if var = 1 ∧ k = 1 then Tensor.scale (a.tensor 2)
  else if a.n.mem.n0 = 0 ∧ ((k = 0 ∧ var ≠ 2) ∨ (k = 1 ∧ var = 2)) then Tensor.scale (a.tensor 0)
  else 0

/-- The values of a tile of the loop. -/
def NodeAt.loopTile (a : NodeAt) (var k : Nat) : List Val := vals32 (a.loopScale var k) (a.n.mem.tile k)

/-- Row k of a tile is replaced by what g gives from the places of that row. -/
def rowStep (k : Nat) (old : List Nat) (g : Nat → Rslt) : List Nat × BitVec 32 :=
  let r := each ((upto (32 * k) 32).map g)
  (old.take (32 * k) ++ r.1 ++ old.drop (32 * k + 32), r.2)

/-- The residual's row k on a sum (R74). -/
def residRow (k : Nat) (xn x : List Val) (sum : Nat) : Rslt :=
  (upto (32 * k) 32).foldl (fun s e =>
    let d := finishF .f32 0 false (sumVals 0 [(xn[e]?).getD vzero, ((x[e]?).getD vzero).neg])
    let r := fmaF .f32 0 d.1 d.1 s.1
    (r.1, s.2 ||| d.2 ||| r.2)) (sum, 0)

/-- Step k of a piece of an iteration: the memory after it, and its status. -/
def NodeAt.loopStep (a : NodeAt) (var rm k : Nat) (op : LoopOp) : NodeMem × BitVec 32 :=
  let m := a.n.mem
  let c : Nat → Val := fun j => floatVal .f32 (a.coef j)
  let v : Nat → Nat → Val := fun t e => ((a.loopTile var t)[e]?).getD vzero
  let row : Nat → (Nat → Rslt) → NodeMem × BitVec 32 := fun d g => let r := rowStep k (m.tile d) g; (m.putTile d r.1, r.2)
  match op with
  | .prod d p q tr =>
    let y := if tr then (transposed vzero (rowsOf (a.loopTile var q))).flatten else a.loopTile var q
    let r := mmStep rm k (if k = 0 then List.replicate 1024 vzero else a.loopTile var d) (a.loopTile var p) y
    (m.putTile d r.1, r.2)
  | .comb d p q => row d (fun e =>
      let x := finishF .f32 rm false ((c 0).mul (v q e))
      let r := finishF .f32 rm false (fmaVal rm (c 1) (v p e) (floatVal .f32 x.1))
      (r.1, x.2 ||| r.2))
  | .less d p => row d (fun e => finishF .f32 rm false (sumVals rm [(c 0).mul (delta e), (v p e).neg]))
  | .times d p => row d (fun e => finishF .f32 rm false ((c 1).mul (v p e)))
  | .resid p =>
    let r := residRow k (a.loopTile var p) (a.loopTile var 0) (if k = 0 then 0 else m.n1)
    ({ m with n1 := r.1 }, r.2)

/-- The identity in FP32. -/
def ident32 : List Nat := (upto 0 1024).map (fun k => if k / 32 = k % 32 then 0x3F800000 else 0)

/-- MITER begins a firing: its tiles are loaded and their uses counted (R396). n0 counts iterations, n1 is s, n2 the steps of
the iteration in progress. -/
def State.miterBegin (s : State) (a : NodeAt) (var : Nat) : State :=
  let t := s.tileIn a 0
  let x := tile32 t.1
  let u : List Nat × Bool × BitVec 32 × State :=
    if var = 1 then let q := t.2.2.tileIn a 2; (tile32 q.1, q.1.bad, q.2.1, q.2.2.useIn a 2) else (x, false, 0, t.2.2)
  let s := (u.2.2.2.useIn a 0).nodeStatus a (t.2.1 ||| u.2.2.1)
  s.updNode a.f a.k (fun n => { n with mem := { n.mem with
    b0 := true, n0 := 0, n1 := 0, n2 := 0, bad := t.1.bad || u.2.1, acc0 := asWords (if var = 2 then ident32 else x),
    acc1 := asWords (if var = 0 then [] else u.1), temp := [[], [], []] } })

/-- The test that ends an iteration (R74, R241): diverged, converged, at the cap. -/
def loopTest (cap : BitVec 16) (tol lim : BitVec 32) (k sum : Nat) : Bool × Bool × Bool :=
  let sv := floatVal .f32 sum
  let tol2 := floatVal .f32 (mulF .f32 0 tol.toNat tol.toNat).1
  let lim2 := floatVal .f32 (mulF .f32 0 lim.toNat lim.toNat).1
  let div := sv.isNan || lim2.lt sv
  let conv := !div && (sv.lt tol2 || sv.eqv tol2)
  (div, conv, !div && !conv && k == cap.toNat)

/-- MITER (R241): one step of its iteration a turn (R242); the last step of an iteration is followed by its test, which goes on or
ends the firing with its outputs. -/
def execMiter (n : NodeHdr) (m : MatHdr) (cap : BitVec 16) (tol lim : BitVec 32) (tdiv : Bool) (s : State) : Out :=
  let var := n.var.toNat
  runNode s (matrixTurn m (fun _ => if var = 1 then [0, 2] else [0]) (fun _ => if var = 1 then [0, 2] else [0]) (fun a s =>
    let q := a.n.mem
    if !q.b0 then s.miterBegin a var
    else match (loopOps var)[q.n2 / 32]? with
      | some op =>
        let r := a.loopStep var n.rm.toNat (q.n2 % 32) op
        (s.nodeStatus a r.2).updNode a.f a.k (fun n => { n with mem := { r.1 with n2 := q.n2 + 1, osw := n.mem.osw } })
      | none =>
        let t := loopTest cap tol lim (q.n0 + 1) q.n1
        let s := s.nodeStatus a (Osw.when t.1 Osw.diverged ||| Osw.when t.2.2 Osw.capHit)
        if t.1 || t.2.1 || t.2.2 then
          s.loopDone a m n (q.tile 3) (if var = 2 && a.hasOut 1 then some (q.tile 4) else none) q.n1 (some (q.n0 + 1)) (t.1 && tdiv)
        else s.updNode a.f a.k (fun n => { n with mem := { n.mem with
          n0 := q.n0 + 1, n2 := 0, acc0 := asWords (q.tile 3), acc1 := if var = 2 then asWords (q.tile 4) else q.acc1,
          temp := [[], [], []] } })))

/-! ## MSORT (R243) -/

/-- Puts a pair into a sorted list, behind its equals. -/
def kiInsert (worst : Bool) (p : BitVec 64) : List (BitVec 64) → List (BitVec 64)
  | [] => [p]
  | q :: r => if kiFirst worst p q then p :: q :: r else q :: kiInsert worst p r

/-- A stable sort of pairs, best first or worst first. -/
def kiSort (worst : Bool) (l : List (BitVec 64)) : List (BitVec 64) := l.foldl (fun a p => kiInsert worst p a) []

/-- Beats of pairs, the last completed with pad pairs. -/
def kiBeats (l : List (BitVec 64)) : List (BitVec 256) :=
  (upto 0 (ceilDiv l.length 4)).map (fun k =>
    let q := asNats ((l.drop (4 * k)).take 4)
    ofLanes 64 (q ++ List.replicate (4 - q.length) kiPad.toNat))

/-- A group leaves: its beats, then the node's delivery is owed. -/
def msortGroup (worst bad : Bool) (l : List (BitVec 64)) : List (Nat × Beat) :=
  (kiBeats (kiSort worst l)).map (fun d => (0, { dataBeat d with poison := bad }))

/-- MSORT (R243): groups of 64 pairs, each emitted sorted; a control beat closes a partial group. -/
def execMsort (n : NodeHdr) (m : MatHdr) (s : State) : Out :=
  let worst := n.var == 1#4
  runNode s (fun a s =>
    if a.n.mem.b1 then s.deliverBar a m
    else if a.n.mem.b0 then
      (s.updNode a.f a.k (fun n => { n with mem := { n.mem with b0 := false } })).matrixDone a m 0 none false
    else dataTurn [0] []
      (fun a l _ =>
        let all := a.n.mem.vals ++ asWords (toLanes 64 (operand l 0))
        let bad := a.n.mem.bad || l.any (fun o => o.any Beat.poison)
        if all.length < 64 then ⟨[], true, [], 0, fun y => { y with vals := all, bad := bad }⟩
        else ⟨[], true, msortGroup worst bad all, 0, fun y => { y with vals := [], bad := false, b0 := true }⟩)
      (fun a b =>
        let l := a.n.mem.vals
        ⟨[], false, msortGroup worst a.n.mem.bad l ++ [(0, b)], 0, fun y => { y with vals := [], bad := false, b0 := !l.isEmpty }⟩)
      a s)

end Sys2Proof.Machine
end

