-- ==== Sys2Proof/Machine/Ctrl.lean ====
section
/-! DEFINITION. The controllers and the nodes that steer, start and end streams (R244 to R249); the fen controller's
select register and the mantle switch (R356, R357). -/
namespace Sys2Proof.Machine

/-- The node's memory changed. -/
def State.updMemOf (s : State) (a : NodeAt) (g : NodeMem → NodeMem) : State :=
  s.updNode a.f a.k (fun n => { n with mem := g n.mem })

/-- A phase end is fixed: no SINK reports and no controller begins an activation (R357 step 1). -/
def NodeAt.ending (a : NodeAt) : Bool := a.x.choice.isSome

/-- The activation of a controller: each token of input j, or once at each phase start when j is unused. Answers the state
with the activation taken. -/
def State.activation (s : State) (a : NodeAt) (j : Nat) : Option State :=
  if a.ending then none
  else if a.hasIn j then
    (match s.offer a j with
     | .streamed _ => some (s.take a j).2
     | _ => none)
  else if a.n.mem.begun then none else some (s.updMemOf a (fun m => { m with begun := true }))

/-! ## CSEQ, CPIPE, CSTRM (R244 to R246) -/

/-- Done inputs that are connected, with the tokens each has delivered. -/
def NodeAt.dones (a : NodeAt) : List (Nat × Nat) :=
  (if a.hasIn 1 then [(1, a.n.mem.n1)] else []) ++ (if a.hasIn 2 then [(2, a.n.mem.n2)] else [])

/-- Iterations completed: each connected done input has delivered for them; with none connected, all that are issued. -/
def NodeAt.completed (a : NodeAt) : Nat := a.dones.foldl (fun c d => min c d.2) a.n.mem.n0

/-- The iteration whose exit token was true. -/
def NodeAt.exitAt (a : NodeAt) : Nat := ((a.n.mem.vals[0]?).getD 0).toNat

/-- An exit token arrives (R246): the guards it settles. A token with no issued iteration to answer is a protocol error. -/
def State.exitToken (s : State) (a : NodeAt) (v : Bool) : State :=
  let e := a.n.mem.n3
  let n := a.n.mem.n0
  if n ≤ e then s.nodeTrap a 5
  else
    let s := (s.take a 3).2.updMemOf a (fun m => { m with n3 := e + 1 })
    if a.n.mem.b1 then s
    else if v then
      s.updMemOf a (fun m => { m with b1 := true, vals := [BitVec.ofNat 64 e],
                                      owe := m.owe ++ List.replicate (n - 1 - e) (1, reedTok false) })
    else if e + 1 < n then s.updMemOf a (fun m => { m with owe := m.owe ++ [(1, reedTok true)] })
    else s

/-- A done token on input j: matched in order; one with no iteration outstanding is a protocol error (R245). -/
def State.doneToken (s : State) (a : NodeAt) (j : Nat) : Option State :=
  let d := if j = 1 then a.n.mem.n1 else a.n.mem.n2
  if d < a.n.mem.n0 then
    some ((s.take a j).2.updMemOf a (fun m => if j = 1 then { m with n1 := m.n1 + 1 } else { m with n2 := m.n2 + 1 }))
  else if a.completed = a.n.mem.n0 then some (s.nodeTrap a 5)
  else none

/-- An iteration is issued: its go token, and its commit guard when that is settled (R245, R246). -/
def State.issueGo (s : State) (a : NodeAt) : State :=
  let j := a.n.mem.n0
  let guard := a.hasIn 3 && decide (j = 0 ∨ j ≤ a.n.mem.n3)
  s.updMemOf a (fun m => { m with n0 := j + 1, owe := m.owe ++ [(0, reedTok true)] ++ (if guard then [(1, reedTok true)] else []) })

/-- The activation is over (R245, R246). -/
def NodeAt.past (a : NodeAt) (count : Nat) : Bool :=
  if a.n.mem.b1 then decide (a.exitAt < a.completed)
  else count != 0 && a.n.mem.n0 == count && a.completed == count

/-- A turn of a controller: one token taken, the end of its activation, one iteration issued, or a new activation, which is the
firing that a guard token goes with (log entry 138). -/
def loopTurn (count limit : Nat) (a : NodeAt) (s : State) : State :=
  let m := a.n.mem
  let go : State → State := fun s => (s.nodeSt a .firing).drainOwe a 8
  match (if a.hasIn 3 then s.offer a 3 else .none) with
  | .streamed b => go (s.exitToken a b.val)
  | _ =>
    let done : Option State := a.dones.findSome? (fun d => match s.offer a d.1 with
      | .streamed _ => s.doneToken a d.1
      | _ => none)
    match done with
    | some s => go s
    | none =>
      if m.b0 && a.past count then
        go (s.updMemOf a (fun m => { m with b0 := false, owe := m.owe ++ (if a.hasIn 3 then [] else [(1, reedTok true)]) }))
      else if m.b0 && !m.b1 && (count == 0 || decide (m.n0 < count)) && decide (m.n0 - a.completed < limit) then
        (if s.roomAll a then go (s.issueGo a) else s.nodeSt a .blocked)
      else if m.b0 then s.nodeSt a .idle
      else match s.activation a 0 with
        | none => s.nodeSt a .idle
        | some t =>
          match a.guardTok with
          | some .empty => s.nodeSt a .idle
          | g =>
            let t := t.takeGuard a
            if g.any Offer.isFalse then t.nodeSt a .guarded
            else go (t.updMemOf a (fun m => { m with b0 := true, b1 := false, n0 := 0, n1 := 0, n2 := 0, n3 := 0, vals := [] }))

/-- CSEQ (R244, R245): one iteration outstanding. -/
def execCseq (_n : NodeHdr) (cnt : BitVec 32) (s : State) : Out := runNode s (loopTurn cnt.toNat 1)

/-- CPIPE (R244, R245): DM1 + 1 iterations outstanding. -/
def execCpipe (_n : NodeHdr) (cnt : BitVec 32) (dm1 : BitVec 4) (s : State) : Out := runNode s (loopTurn cnt.toNat (dm1.toNat + 1))

/-- CSTRM (R244, R245): any number outstanding. -/
def execCstrm (_n : NodeHdr) (cnt : BitVec 32) (s : State) : Out := runNode s (loopTurn cnt.toNat (2 ^ 32))

/-! ## STEER, PRIME, SOURCE, COUNT, SINK (R247 to R249) -/

/-- STEER in EXITED: predicates are discarded, DATA beats that reach IN0, a ring's among them, are dropped and counted, control
beats leave on OUT1, and DONE ends the state. -/
def steerExited (a : NodeAt) (s : State) : State :=
  let s := match s.offer a 1 with | .streamed _ => (s.take a 1).2 | _ => s
  match s.offer a 0 with
  | .streamed b =>
    if b.typ = 0 then (s.take a 0).2.updFen a.f (fun x => { x with dropped := x.dropped + 1 })
    else if !s.roomAll a then s.nodeSt a .blocked
    else s.fire a ⟨[0], false, [(1, b)], 0, fun m => if b.typ = 9 then { m with b0 := false } else m⟩ .firing
  | .ring _ => (s.take a 0).2.updFen a.f (fun x => { x with dropped := x.dropped + 1 })
  | _ => s.nodeSt a .idle

/-- STEER (R247): b0 is EXITED. -/
def execSteer (n : NodeHdr) (s : State) : Out :=
  runNode s (fun a s =>
    if a.n.mem.b0 then steerExited a s
    else dataTurn [0] [1]
      (fun _ l t =>
        let d := dataBeat (operand l 0)
        if t.any id then ⟨[], true, [(0, d)], 0, id⟩
        else ⟨[], true, [(1, d)], 0, fun m => { m with b0 := n.var == 1#4 }⟩)
      (forward [1]) a s)

/-- The k-th constant entry that a reference names. -/
def NodeAt.constAt (a : NodeAt) (c : BitVec 8) (k : Nat) : BitVec 256 := (a.m.consts[c.toNat + k]?).getD 0

/-- A primed beat leaves: a DATA firing, which a false guard empties (R223). -/
def State.primeBeat (s : State) (a : NodeAt) (take : List Nat) (b : Beat) : State :=
  let less : NodeMem → NodeMem := fun m => { m with n0 := m.n0 - 1, b0 := decide (1 < m.n0) }
  match a.guardTok with
  | some .empty => s.nodeSt a .idle
  | g =>
    if g.any Offer.isFalse then s.fire a ⟨take, true, [], 0, less⟩ .guarded
    else s.fire a ⟨take, true, [(0, b)], 0, less⟩ .firing

/-- PRIME (R248): b0 while primed beats are left, n0 of them; else IN0 is forwarded. -/
def execPrime (_n : NodeHdr) (nm1 : BitVec 8) (s : State) : Out :=
  runNode s (fun a s =>
    if a.n.mem.b0 then
      (if !s.roomAll a then s.nodeSt a .blocked
       else match a.inp 1 with
        | .const c => s.primeBeat a [] (dataBeat (a.constAt c (nm1.toNat + 1 - a.n.mem.n0)))
        | _ => match s.offer a 1 with
          | .ring b => s.primeBeat a [1] b
          | _ => s.nodeSt a .idle)
    else match s.activation a 2 with
      | some s => s.updMemOf a (fun m => { m with b0 := true, n0 := nm1.toNat + 1 })
      | none => dataTurn [0] [] (fun _ l _ => ⟨[], true, [(0, dataBeat (operand l 0))], 0, id⟩) (forward [0]) a s)

/-- The beat of an END code (R249): S0 to S7, DONE, or nothing. -/
def endBeat (e : BitVec 4) : List (Nat × Beat) :=
  if e.toNat ≤ 7 then [(0, ctlBeat (e.toNat + 1))] else if e.toNat = 8 then [(0, ctlBeat 9)] else []

/-- A stream's end: its END beat leaves and the activation is over. -/
def State.endStream (s : State) (a : NodeAt) (more : List (Nat × Beat)) (e : BitVec 4) : State :=
  if !s.roomAll a then s.nodeSt a .blocked
  else s.fire a ⟨[], false, more ++ endBeat e, 0, fun m => { m with b0 := false, n0 := 0, pack0 := [], bad := false }⟩ .firing

/-- SOURCE (R249): NBEAT beats of IN0, then the END beat; n0 counts those emitted. -/
def execSource (_n : NodeHdr) (nbeat : BitVec 32) (endc : BitVec 4) (s : State) : Out :=
  runNode s (fun a s =>
    if a.n.mem.b0 then
      (if nbeat.toNat ≤ a.n.mem.n0 then s.endStream a [] endc
       else dataTurn [0] [] (fun _ l _ => ⟨[], true, [(0, dataBeat (operand l 0))], 0, fun m => { m with n0 := m.n0 + 1 }⟩)
         (forward [0]) a s)
    else match s.activation a 1 with
      | some s => s.updMemOf a (fun m => { m with b0 := true, n0 := 0 })
      | none => s.nodeSt a .idle)

/-- Element m of a COUNT: BASE + m·STEP, wrapped to FMT. -/
def countElem (f : Fmt) (base step : BitVec 32) (m : Nat) : Nat := wrapN (Fmt.bits f) (base.toInt + (m : Int) * step.toInt)

/-- COUNT (R249): a beat of elements a turn, then the END beat; n0 counts the elements emitted. -/
def execCount (n : NodeHdr) (cnt base step : BitVec 32) (endc : BitVec 4) (s : State) : Out :=
  let w := Fmt.bits n.fmt
  runNode s (fun a s =>
    if a.n.mem.b0 then
      (if cnt.toNat ≤ a.n.mem.n0 then s.endStream a [] endc
       else match a.guardTok with
        | some .empty => s.nodeSt a .idle
        | g =>
          if !s.roomAll a then s.nodeSt a .blocked
          else
            let k := min (256 / w) (cnt.toNat - a.n.mem.n0)
            let d := ofLanes w ((upto a.n.mem.n0 k).map (countElem n.fmt base step))
            let off := g.any Offer.isFalse
            s.fire a ⟨[], true, if off then [] else [(0, dataBeat d)], 0, fun m => { m with n0 := m.n0 + k }⟩
              (if off then .guarded else .firing))
    else match s.activation a 0 with
      | some s => s.updMemOf a (fun m => { m with b0 := true, n0 := 0 })
      | none => s.nodeSt a .idle)

/-- The instruction is a SINK. -/
def isSink (i : Instr) : Bool := match i with | .sink .. => true | _ => false

/-- Every SINK of the current mantle has reported; a mantle with none never has (R356). -/
def Fen.sinksDone (x : Fen) : Bool :=
  match x.mantle with
  | none => false
  | some m => m.nodes.any (fun n => isSink n.ins) && m.nodes.all (fun n => !isSink n.ins || n.mem.b0)

/-- A SINK's report: the last one ends the phase (R356). -/
def State.sinkReport (s : State) (a : NodeAt) : State :=
  (s.updMemOf a (fun m => { m with b0 := true })).updFen a.f (fun x =>
    if x.choice.isNone && x.sinksDone then x.endPhase else x)

/-- SINK (R249): consumes beats; reports once it has consumed NDONE DONE beats; b0 once it has reported. -/
def execSink (_n : NodeHdr) (ndone : BitVec 16) (s : State) : Out :=
  runNode s (fun a s =>
    if !a.n.mem.b0 && !a.ending && decide (ndone.toNat ≤ a.n.mem.n0) then s.sinkReport a
    else dataTurn [0] [] (fun _ _ _ => ⟨[], true, [], 0, id⟩)
      (fun _ b => ⟨[], false, [], 0, fun m => if b.typ = 9 then { m with n0 := m.n0 + 1 } else m⟩) a s)

/-! ## The select register and the mantle switch (R356, R357) -/

/-- A token of lane x13, x14 or x15 reaches the select register. -/
def Fen.selectToken (x : Fen) (lane : Nat) (v : Bool) : Fen :=
  if lane = 13 then (if v then { x with select := some none } else x)
  else
    let y := if lane = 14 then { x with sel14 := x.sel14 ++ [v] } else { x with sel15 := x.sel15 ++ [v] }
    match y.sel14, y.sel15 with
    | p :: r, q :: t => { y with sel14 := r, sel15 := t, select := some (some (2 * b2n q + b2n p)) }
    | _, _ => y

/-- SELECT_TOKEN (R356): the first fen that holds an uncaptured token captures it. -/
def execSelectToken (s : State) : Out :=
  match findIx (fun x : Fen => x.live && x.term.isNone && !s.fenFrozen x && !x.selq.isEmpty) s.fens with
  | none => .next s
  | some (f, x) => match x.selq with
    | [] => .next s
    | (l, v) :: r => .next (s.updFen f (fun x => { x with selq := r }.selectToken l v))

/-- A memory node, in an A slot or a memory-port slot. -/
def isMemNode (opc : Nat) : Bool := decide (0x40 ≤ opc ∧ opc ≤ 0x47) || decide (0x6A ≤ opc ∧ opc ≤ 0x6D)

/-- An operand that a node does not ask for now: an MMA's C past the first firing of an output, a store's data in hand. -/
def Node.unasked (n : Node) (j : Nat) : Bool :=
  match n.ins with
  | .mma _ _ _ cin => j == 2 && !(cin && n.mem.n0 == 0)
  | .store h _ => j == 1 && decide ((if h.var = 1#4 then 16 else 4) ≤ n.mem.left1.length)
  | .stfe _ _ => j == 1 && decide (4 ≤ n.mem.left1.length)
  | _ => false

/-- Every operand of a firing is present, the guard token of a DATA firing among them (R219): the node is not IDLE (R40). -/
def State.operandsIn (s : State) (a : NodeAt) : Bool :=
  (upto 0 4).all (fun j => a.n.unasked j || s.offer a j != .empty) &&
  (a.guardTok != some .empty || (upto 0 4).any (fun j => (s.offer a j).isCtl))

/-- A memory or matrix node is not idle (R40, R357 step 2): work in progress, or every operand of a firing. Of a trapped node the
accesses that stand in its window count alone (log entry 139). -/
def State.nodeBusy (s : State) (a : NodeAt) : Bool :=
  (isMemNode a.n.opc || isMatrix a.n.ins) &&
  (!a.n.mem.win.isEmpty ||
    (a.n.st != .trapped && (a.n.mem.b0 || a.n.mem.b1 || a.n.mem.b2 || s.operandsIn a)))

/-- Every branch that leaves a source, and it has one, is discardable. -/
def Mantle.discAll (m : Mantle) (src : End) : Bool :=
  let ws := m.wires.filter (fun w => w.src == src && w.kind == 1)
  !ws.isEmpty && ws.all (fun w => w.disc)

/-- The circuit that feeds an input, if one does. -/
def Mantle.feeder (m : Mantle) (t : Tile) (slot p : Nat) : Option Wire :=
  m.wires.find? (fun w => w.kind == 1 && w.dst == .node t slot p)

/-- The outputs of a node whose beats leave on circuits or stay in its tile. -/
def Node.beatOut (n : Node) (p : Nat) : Bool := outKind n.opc (p % 2) == 1

/-- Beats dropped on discardable edges, and the node without them (R357 step 3). -/
def Node.dropDisc (m : Mantle) (n : Node) : Nat × Node :=
  let inDisc : Nat → Bool := fun p => (m.feeder n.tile n.slot p).any (fun w => w.disc)
  let outDisc : Nat → Bool := fun p => n.beatOut p && m.discAll (.node n.tile n.slot p)
  let cutIn := (n.inq.zipIdx).map (fun q => if inDisc q.2 then [] else q.1)
  let cutOut := (n.outq.zipIdx).map (fun q => if outDisc q.2 then [] else q.1)
  let owe := n.mem.owe.filter (fun q => !outDisc q.1)
  let size : List (List Beat) → Nat := fun l => l.foldl (fun a q => a + q.length) 0
  (size n.inq - size cutIn + (size n.outq - size cutOut) + (n.mem.owe.length - owe.length),
   { n with inq := cutIn, outq := cutOut, mem := { n.mem with owe := owe } })

/-- Beats dropped in a mantle, and the mantle without them. -/
def Mantle.dropDisc (m : Mantle) : Nat × Mantle :=
  let ns := m.nodes.map (fun n => n.dropDisc m)
  let rs := (m.relays.zipIdx).map (fun r => if m.discAll (.relay r.2) then (r.1.q.length, { r.1 with q := [] }) else (0, r.1))
  (ns.foldl (fun a p => a + p.1) 0 + rs.foldl (fun a p => a + p.1) 0,
   { m with nodes := ns.map (fun p => p.2), relays := rs.map (fun p => p.2) })

/-- No beat remains on a circuit or a local edge (R357 step 4): one that waits where no node consumes it does. Tokens do not
count. -/
def Mantle.drained (m : Mantle) : Bool :=
  m.nodes.all (fun n =>
    (n.inq.zipIdx).all (fun q => q.1.isEmpty || (m.feeder n.tile n.slot q.2).isNone) &&
    (n.outq.zipIdx).all (fun q => q.1.isEmpty || !n.beatOut q.2) && n.mem.owe.all (fun q => !n.beatOut q.1)) &&
  (m.relays.zipIdx).all (fun r => r.1.q.isEmpty || !m.wires.any (fun w => (w.src == .relay r.2 || w.dst == .relay r.2) && w.kind == 1))

/-- The fen is at step 2 of a switch with every memory and matrix node idle. -/
def State.switchable (s : State) (f : Nat) (x : Fen) : Bool :=
  x.live && x.term.isNone && x.choice.isSome &&
  (match x.mantle with
   | some m => (m.nodes.zipIdx).all (fun p => !s.nodeBusy ⟨f, p.2, x, m, p.1⟩)
   | none => true)

/-- After an exit no phase runs (R357); STATE reads 2 again (DESIGN CHOICE, log entry 166). -/
def Fen.exitPhase (x : Fen) : Fen :=
  { x with choice := none, exited := true, selq := [], spares := [], state := if x.state = 3 then 2 else x.state }.updMantle
    (fun m => m.unclone.restart)

/-- Steps 3 to 6 of a switch, as far as they go now. -/
def Fen.switchNow (x : Fen) : Fen :=
  match x.mantle with
  | none => x
  | some m =>
    let r := m.dropDisc
    let y := { x with dropped := x.dropped + r.1 }.updMantle (fun _ => r.2)
    if !r.2.drained then y
    else match x.choice with
      | some (some k) => { y with selq := [] }.startPhase k
      | some none => y.exitPhase
      | none => y

/-- MANTLE_SWITCH (R357): at the first fen whose phase end is fixed and whose memory and matrix nodes are idle, beats on
discardable edges are dropped, and once no other beat remains the chosen mantle's phase starts. Spare fens that this frees let the
partition's attempts go on (R338, R346). -/
def execMantleSwitch (s : State) : Out :=
  match (s.fens.zipIdx).find? (fun p => s.switchable p.2 p.1 && !s.fenFrozen p.1) with
  | none => .next s
  | some (x, f) =>
    let s := s.updFen f Fen.switchNow
    if !x.spares.isEmpty && (s.fens[f]?).any (fun y => y.spares.isEmpty) then .next (s.unstick x.die x.part) else .next s

end Sys2Proof.Machine
end

