-- ==== Sys2Proof/Machine/Slice.lean ====
section
/-! DEFINITION. Tenant contexts: time slices (R381, R382), freeze (R383 to R385), save and restore (R386 to R388), and
responses that arrive from outside the module. A save image holds the parts that R387 lays out; what its latch areas hold stays in
the fens' own records. -/
namespace Sys2Proof.Machine

/-! ## Contexts -/

/-- The fens of a tenant context that hold a task, with their places. -/
def State.ctxFens (s : State) (p c : Nat) : List (Nat × Fen) :=
  (s.fens.zipIdx.filter (fun q => q.1.live && q.1.part == p && q.1.ctx == c)).map (fun q => (q.2, q.1))

/-- The launch of a key. -/
def State.launchOf (s : State) (k : Nat) : Option Launch := s.hts.launches.find? (fun l => l.key == k)

/-- A die instance belongs to a context. -/
def State.instIn (s : State) (p c : Nat) (i : DieInst) : Bool :=
  (s.launchOf i.key).any (fun l => l.part == p && l.ctx == c)

/-- The context has a task placed or frozen. -/
def State.ctxPlaced (s : State) (p c : Nat) : Bool := !(s.ctxFens p c).isEmpty

/-- The context has a ready fen task. -/
def State.ctxReady (s : State) (p c : Nat) : Bool := s.hts.insts.any (fun i => !i.tasks.isEmpty && s.instIn p c i)

/-- The enabled functions of a context. -/
def State.ctxFns (s : State) (p c : Nat) : List Nat :=
  (upto 0 128).filter (fun f => bit (s.func f) 0 && s.fnPart f == p && s.fnCtx f == c)

/-- The migration record of a function. -/
def State.mig (s : State) (fn : Nat) : Mig :=
  tabGet s.migs fn ⟨0, false, 0, 0, 0, 0, [], [], [], [], 0, 0, false, false, []⟩

/-- The state with the migration record of a function replaced. -/
def State.setMig (s : State) (fn : Nat) (m : Mig) : State := { s with migs := tabSet s.migs fn m }

/-- MIGSTAT STATE changes, and the function's vector 3 signals it (R404). -/
def State.migState (s : State) (fn st : Nat) : State := (s.setMig fn { s.mig fn with state := st }).message fn 3

/-- The functions of a context in STOPPING become STOPPED once its save is there (R391). -/
def State.migStopped (s : State) (p c : Nat) : State :=
  s.migs.foldl (fun s m => if m.2.state = 2 ∧ s.fnPart m.1 = p ∧ s.fnCtx m.1 = c then s.migState m.1 3 else s) s

/-- A function of the context is STOPPING, STOPPED or RESUMING (R391). -/
def State.ctxBarred (s : State) (p c : Nat) : Bool :=
  s.migs.any (fun m => decide (2 ≤ m.2.state) && s.fnPart m.1 == p && s.fnCtx m.1 == c)

/-- A runnable context (R381); migration holds one back (R391). -/
def State.runnable (s : State) (p c : Nat) : Bool := (s.ctxPlaced p c || s.ctxReady p c) && !s.ctxBarred p c

/-- The next runnable context after c in CTX order, other than c (R382). -/
def State.nextCtx (s : State) (p c : Nat) : Option Nat :=
  ((upto 1 31).map (fun k => (c + k) % 32)).find? (fun d => s.runnable p d)

/-- The slice of a partition. -/
def State.sliceOf (s : State) (p : Nat) : Option Slice := s.slices.find? (fun z => z.part == p)

/-- The current context of a partition: none while its slice clock stands. -/
def State.curCtx (s : State) (p : Nat) : Option Nat :=
  match s.sliceOf p with
  | some z => if z.stopped then none else some z.cur
  | none => none

/-- The slice of a partition replaced. -/
def State.setSlice (s : State) (z : Slice) : State :=
  { s with slices := z :: s.slices.filter (fun y => y.part != z.part) }

/-- The freeze of a context. -/
def State.frzOf (s : State) (p c : Nat) : Option Frz := s.frz.find? (fun z => z.part == p && z.ctx == c)

/-- The freeze of a context changed. -/
def State.updFrz (s : State) (p c : Nat) (g : Frz → Frz) : State :=
  { s with frz := s.frz.map (fun z => if z.part == p && z.ctx == c then g z else z) }

/-! ## The save image (R387) -/

/-- Bytes at an HBM-spread address, page by page. -/
def Memory.getSpread (m : Memory) (pa : Nat) : Nat → List Byte
  | 0 => []
  | n + 1 => m.get (keySpread pa) :: m.getSpread (pa + 1) n

/-- Bytes put at an HBM-spread address. -/
def Memory.putSpread (m : Memory) (pa : Nat) : List Byte → Memory
  | [] => m
  | b :: r => (m.putN (keySpread pa) [b]).putSpread (pa + 1) r

/-- Every tile of the module in ascending die, row and column. -/
def allTiles : List Tile :=
  (upto 0 4).flatMap (fun d => (upto 0 18).flatMap (fun r => (upto 0 10).map (fun c => ⟨d, r, c⟩)))

/-- The compute tiles that a context's fens hold, ascending. -/
def State.ctxTiles (s : State) (p c : Nat) : List Tile :=
  allTiles.filter (fun t => (s.ctxFens p c).any (fun q => q.2.holds t || q.2.spares.contains t))

/-- The memory-port tiles that a context's fens are assigned, ascending. -/
def State.ctxMpts (s : State) (p c : Nat) : List Tile :=
  allTiles.filter (fun t => (s.ctxFens p c).any (fun q => q.2.mpts.contains t))

/-- n free bytes: the latches, whose layout the spec does not give. -/
def freeBytes (from' n : Nat) : List Byte := (upto from' n).map Config.freeByte

/-- The full/empty bitmap of a tile: bit g mod 8 of byte g/8. -/
def Memory.bitmap (m : Memory) (t : Tile) : List Byte :=
  (upto 0 4096).map (fun k => BitVec.ofNat 8 ((upto 0 8).foldl (fun a j =>
    a + (if m.isFull (keyScratch t 0 / 16 + 8 * k + j) then 2 ^ j else 0)) 0))

/-- A list of bytes brought to a length. -/
def sized (n : Nat) (l : List Byte) : List Byte := l.take n ++ List.replicate (n - l.length) 0

/-- The numbers of the control registers (R15), ascending. -/
def csrNumbers : List Nat := upto 0 18 ++ upto 0x018 5 ++ [0x020]

/-- The code of a slot state, in the order of R40; 0 is VACANT. -/
def NodeSt.code : NodeSt → Nat
  | .idle => 1
  | .blocked => 2
  | .firing => 3
  | .guarded => 4
  | .trapped => 5

/-- The slot state of a code other than VACANT's. -/
def NodeSt.ofCode (n : Nat) : NodeSt :=
  if n = 2 then .blocked else if n = 3 then .firing else if n = 4 then .guarded else if n = 5 then .trapped else .idle

/-- The node in slot k of a tile, in the current mantle. -/
def Fen.slotNode (x : Fen) (t : Tile) (k : Nat) : Option Node :=
  x.mantle.bind (fun m => m.nodes.find? (fun n => n.tile == t && n.slot == k))

/-- The value of a control register as the image holds it: csr.fenstat shows the STATE before the freeze (R388). -/
def State.savedCsr (s : State) (x : Fen) (n : Nat) : Nat :=
  if n = 0 then (x.fenstat false).toNat else if n = 0x020 then s.cycle - x.lag else (s.csrRead x n).toNat

/-- Byte offsets in a compute-tile header of what R387 lists there (log entry 145): die, row, column, the fen's place in the
context, anchor flag and event flag in bytes 0 to 5; the block being fetched; g0 to g63; the control registers; the ring table;
the slots. -/
def hdrRegs : Nat := 16
/-- See `hdrRegs`. -/
def hdrCsrs : Nat := 528
/-- See `hdrRegs`. -/
def hdrRings : Nat := 720
/-- See `hdrRegs`. -/
def hdrSlots : Nat := 1744

/-- The header of the section of tile t of the n-th fen of a context. The control core and the ring table stand in the anchor's. -/
def State.tileHeader (s : State) (x : Fen) (n : Nat) (t : Tile) : List Byte :=
  let c := x.core
  let top := t == x.anchor
  let word : Nat → List Byte := fun v => toLE 8 (if top then v else 0)
  let slots := (upto 0 13).flatMap (fun k => match x.slotNode t k with
    | some d => toLE 1 (NodeSt.code d.st) ++ toLE 4 d.stalled ++ toLE 4 d.starved
    | none => List.replicate 9 0)
  sized 4096 (toLE 1 t.die ++ toLE 1 t.row ++ toLE 1 t.col ++ toLE 1 n ++ toLE 1 (b2n top) ++ toLE 1 (b2n (top && c.flag)) ++ toLE 2 0 ++
    word c.pc.toNat ++ (upto 0 64).flatMap (fun r => word ((c.regs[r]?).getD 0).toNat) ++
    csrNumbers.flatMap (fun r => word (s.savedCsr x r)) ++
    (upto 0 32).flatMap (fun h => toLE 32 (if top then (x.ring h).toNat else 0)) ++ slots)

/-- The matrix node of a tile in the current mantle: its memory holds the tile's accumulators (R236). -/
def Fen.matrixNode (x : Fen) (t : Tile) : Option Node :=
  x.mantle.bind (fun m => m.nodes.find? (fun n => n.tile == t && isMatrix n.ins))

/-- The accumulator of an FP64 MMA, which takes both tiles as one (R237). -/
def Node.wideAcc (n : Node) : Bool :=
  match n.ins with
  | .mma .. => n.tens.head?.any (fun t => Tensor.fmt t == .f64)
  | _ => false

/-- The bytes of a node's accumulator tiles: two of 32-bit elements, or one of 64-bit elements. -/
def Node.accBytes (n : Node) : List Byte :=
  let part : Nat → List (BitVec 64) → List Byte := fun z l => sized (1024 * z) (l.flatMap (fun v => toLE z v.toNat))
  if n.wideAcc then part 8 n.mem.acc0 else part 4 n.mem.acc0 ++ part 4 n.mem.acc1

/-- A compute-tile section; `k` numbers the free bytes of its latch area. -/
def State.tileSection (s : State) (x : Fen) (n : Nat) (t : Tile) (k : Nat) : List Byte :=
  s.tileHeader x n t ++ s.mem.getN (keyScratch t 0) 524288 ++ s.mem.bitmap t ++
    ((x.matrixNode t).map Node.accBytes).getD (List.replicate 8192 0) ++ freeBytes k 32768

/-- The size of the sections before the m-th memory-port tile or n-th compute tile. -/
def imageSize (n m : Nat) : Nat := 4096 + 573440 * n + 16384 * m

/-- The header with its CRC field taken as zero. -/
def imageHeader (p c n m flits seq crc : Nat) : List Byte :=
  toLE 2 0x5346 ++ toLE 2 1 ++ toLE 1 p ++ toLE 1 c ++ toLE 2 n ++ toLE 2 m ++ toLE 2 0 ++ toLE 4 flits ++ toLE 8 seq ++
    toLE 4 crc ++ List.replicate 4068 0

/-- The request flits of a partition's virtual network that stand in routers, with their packets (R386). -/
def State.heldFlits (s : State) (p : Nat) : List (Flit × Packet) :=
  s.net.flits.filterMap (fun f => (s.net.packet f.pkt).bind (fun q => if q.vn == some p && !q.resp then some (f, q) else none))

/-- The entry of a held flit: the flit, whose 16 bytes the spec does not lay out, and its router, port, class and slot (log entry
145). -/
def flitEntry (k : Nat) (f : Flit) : List Byte :=
  let t := f.at'.grid
  freeBytes k 16 ++ toLE 1 t.die ++ toLE 1 t.row ++ toLE 1 t.col ++ toLE 1 f.port ++ toLE 1 0 ++ toLE 1 f.ix ++ toLE 2 0 ++ List.replicate 8 0

/-- The flit entries, brought to whole pages. -/
def State.flitPart (s : State) (p k : Nat) : List Byte :=
  let l := s.heldFlits p
  sized (ceilDiv (32 * l.length) 4096 * 4096) ((l.zipIdx).flatMap (fun e => flitEntry (k + 16 * e.2) e.1.1))

/-- The fen of a context to which a compute tile belongs, with its place in the context: a spare's is the fen that it copies for. -/
def State.tileFen (s : State) (p c : Nat) (t : Tile) : Option (Fen × Nat) :=
  ((s.ctxFens p c).zipIdx.find? (fun q => q.1.2.holds t || q.1.2.spares.contains t)).map (fun q => (q.1.2, q.2))

/-- The save image of a context. -/
def State.saveImage (s : State) (p c seq : Nat) : List Byte :=
  let ts := s.ctxTiles p c
  let ms := s.ctxMpts p c
  let k := s.free + 32768 * ts.length
  let body := (ts.zipIdx).flatMap (fun q => match s.tileFen p c q.1 with
      | some (x, n) => s.tileSection x n q.1 (s.free + 32768 * q.2)
      | none => []) ++
    (ms.zipIdx).flatMap (fun q => freeBytes (k + 16384 * q.2) 16384) ++ s.flitPart p (k + 16384 * ms.length)
  let h := imageHeader p c ts.length ms.length (s.heldFlits p).length seq
  h (crc32c (h 0 ++ body)) ++ body

/-- The save area of a context: SAVE of its lowest-numbered function (R372). -/
def State.saveArea (s : State) (p c : Nat) : Nat :=
  match s.ctxFns p c with
  | f :: _ => fld (s.func f) 127 88 * 4096
  | [] => 0

/-- A request comes from a fen of the context. -/
def State.reqIn (s : State) (p c : Nat) (r : Req) : Bool :=
  match r.fen with
  | some f => (s.fens[f]?).any (fun x => x.part == p && x.ctx == c)
  | none => false

/-- The freeze is complete (R383 steps 2, 4, 5 and 6): every block past its point of no return has committed, or awaits a response
from outside the module, and no request of the context that has entered its target, a walker or an EMT, is unanswered; no response
of it is on its way. -/
def State.freezeDone (s : State) (p c : Nat) : Bool :=
  (s.ctxFens p c).all (fun q => !q.2.core.bound || s.xl.ext.any (fun e => e.req.fen == some q.1 && e.req.srck == 0)) &&
  s.xl.walks.all (fun w => !w.running || w.reqs.all (fun r => !s.reqIn p c r.req)) &&
  s.emt.fills.all (fun f => !s.reqIn p c f.1) &&
  s.net.packets.all (fun q => !q.resp || !s.reqIn p c q.src)

/-! ## Freeze -/

/-- A freeze is raised (R383): cores that are not committing lose their block and its claims (R384); their waiter bits stay until the
next wake (R177, R385; log entry 169). -/
def State.freeze (s : State) (p c : Nat) (next : Option Nat) : State :=
  let s : State := { s with frz := s.frz ++ [⟨p, c, .stalling, s.cycle, s.seq, 0, next, [], [], []⟩], seq := s.seq + 1 }
  (s.ctxFens p c).foldl (fun s q => if q.2.core.bound || q.2.core.phase == .halted then s else s.dropBlock q.1) s

/-- The first freeze of a partition in a stage. -/
def State.frzAt (s : State) (p : Nat) (st : FrzSt) : Option Frz := s.frz.find? (fun z => z.part == p && z.st == st)

/-- The save (R386): the image is written at SAVE, the held flits leave the routers, and the marks on the tiles' scratch are kept. -/
def State.save (s : State) (z : Frz) : State :=
  let p := z.part
  let img := s.saveImage p z.ctx z.seq
  let ks := (s.ctxTiles p z.ctx).map (fun t => keyScratch t 0)
  let mine : Nat → Bool := fun k => ks.any (fun b => decide (b ≤ k ∧ k < b + 524288))
  let out := (s.heldFlits p).map (fun e => e.1)
  let s1 := s.updMem (fun m => m.putSpread (s.saveArea p z.ctx) img)
  { s1 with free := s.free + img.length, net := { s.net with flits := s.net.flits.filter (fun f => !out.contains f) } }.updFrz p z.ctx
    (fun z => { z with st := .saved, size := img.length, held := out,
                       poison := s.mem.poison.filter mine, fixed := s.mem.fixed.filter mine })

/-- A line lies in the bytes that the context's save image takes (R387). -/
def State.inSave (s : State) (p c l : Nat) : Bool :=
  let n := imageSize (s.ctxTiles p c).length (s.ctxMpts p c).length + ceilDiv (32 * (s.heldFlits p).length) 4096 * 4096
  decide (l * 128 < 2 ^ 43) && decide (s.saveArea p c < lineAddr (l * 128) + 128) && decide (lineAddr (l * 128) < s.saveArea p c + n)

/-- FREEZE_COMPLETE (R383, R386, R387): once every response is latched and the host holds no line of the save area (R408), the
context's save image is written. -/
def execFreezeComplete (part : BitVec 4) (s : State) : Out :=
  let p := part.toNat
  match s.frzAt p .stalling with
  | none => .next s
  | some z =>
    if !s.freezeDone p z.ctx then .next s
    else match s.emt.hostHas.find? (fun l => s.inSave p z.ctx l) with
      | some l => .next (s.sendSnoop ⟨none, 3, ⟨0, 0, 0⟩, 0, 0, 0, 0⟩ l)
      | none => .next ((s.save z).migStopped p z.ctx)

/-! ## Restore (R388) -/

/-- The compute tile that the n-th section of an image names. -/
def imageTile (img : List Byte) (n : Nat) : Tile :=
  let o := imageSize n 0
  ⟨imgAt img o 1, imgAt img (o + 1) 1, imgAt img (o + 2) 1⟩

/-- The compute tiles that an image names. -/
def imageTiles (img : List Byte) : List Tile := (upto 0 (imgAt img 6 2)).map (imageTile img)

/-- Step 1: magic, version, CRC, and ownership of every tile named. -/
def State.restoreOk (s : State) (p : Nat) (z : Frz) : Bool :=
  let img := s.mem.getSpread (s.saveArea p z.ctx) z.size
  imgAt img 0 2 == 0x5346 && imgAt img 2 2 == 1 &&
  crc32c (img.take 24 ++ List.replicate 4 0 ++ img.drop 28) == imgAt img 24 4 &&
  (imageTiles img).all (s.owns p) && (s.ctxMpts p z.ctx).all (s.owns p)

/-- Step 2: scratch and full/empty bits of the n-th compute tile of an image. -/
def Memory.restoreTile (m : Memory) (img : List Byte) (t : Tile) (n : Nat) : Memory :=
  let o := imageSize n 0 + 4096
  let m := m.putN (keyScratch t 0) ((img.drop o).take 524288)
  let bits := imgAt img (o + 524288) 4096
  (upto 0 32768).foldl (fun m g => m.mark (keyScratch t 0 / 16 + g) 1 (bit bits g)) m

/-- The accumulator that bytes of an image give, z to an element: one that nothing has been accumulated in stays so. -/
def accFrom (z : Nat) (old : List (BitVec 64)) (img : List Byte) (o : Nat) : List (BitVec 64) :=
  if old.isEmpty then old else (upto 0 1024).map (fun k => BitVec.ofNat 64 (imgAt img (o + z * k) z))

/-- A node as the n-th section of an image gives it: slot state, counters, accumulators. -/
def Node.restored (nd : Node) (img : List Byte) (o : Nat) : Node :=
  let q := o + hdrSlots + 9 * nd.slot
  let nd := if 13 ≤ nd.slot then nd else
    { nd with st := NodeSt.ofCode (imgAt img q 1), stalled := imgAt img (q + 1) 4, starved := imgAt img (q + 5) 4 }
  if isMatrix nd.ins then
    let acc0 := accFrom (if nd.wideAcc then 8 else 4) nd.mem.acc0 img (o + 532480)
    { nd with mem := { nd.mem with acc0 := acc0, acc1 := if nd.wideAcc then nd.mem.acc1 else accFrom 4 nd.mem.acc1 img (o + 536576) } }
  else nd

/-- The control core as an anchor's section gives it; a block whose commit awaits a response from outside the module goes on
(R383). -/
def Core.restored (c : Core) (img : List Byte) (o : Nat) : Core :=
  let csr : Nat → Nat := fun k => imgAt img (o + hdrCsrs + 8 * k) 8
  let d : Core := { c with
           pc := BitVec.ofNat 64 (imgAt img (o + 8) 8), flag := imgAt img (o + 5) 1 != 0
           regs := Vector.ofFn (fun r : Fin 64 => BitVec.ofNat 64 (imgAt img (o + hdrRegs + 8 * r.val) 8))
           seq := BitVec.ofNat 64 (csr 5), argp := BitVec.ofNat 64 (csr 6), complw := BitVec.ofNat 64 (csr 7)
           lix := (upto 0 c.lix.length).map (fun k => BitVec.ofNat 32 (csr (8 + k)))
           rm := BitVec.ofNat 2 (csr 16), trapvec := BitVec.ofNat 64 (csr 18), trapcause := BitVec.ofNat 64 (csr 19)
           trapblk := BitVec.ofNat 64 (csr 20), trapval := BitVec.ofNat 64 (csr 21), trapidx := BitVec.ofNat 64 (csr 22) }
  if c.phase = .halted ∨ c.bound then d else d.fresh

/-- A fen as the n-th section of an image gives it. -/
def Fen.restored (x : Fen) (img : List Byte) (n : Nat) : Fen :=
  let o := imageSize n 0
  let t := imageTile img n
  let x := x.updMantle (fun m => { m with nodes := m.nodes.map (fun d => if d.tile == t then d.restored img o else d) })
  if imgAt img (o + 4) 1 = 0 then x
  else
    let stat := imgAt img (o + hdrCsrs) 8
    { x with core := x.core.restored img o, dropped := fld stat 47 32, status := BitVec.ofNat 16 (fld stat 15 0) }.updMantle
      (fun m => { m with rings := (upto 0 m.rings.length).map (fun h => BitVec.ofNat 256 (imgAt img (o + hdrRings + 32 * h) 32)) })

/-- Step 2: the tile sections of a context's image are written back to its fens; what the latch areas hold is there already. -/
def State.restoreFens (s : State) (p c : Nat) (img : List Byte) : State :=
  let fs := s.ctxFens p c
  ((imageTiles img).zipIdx).foldl (fun s q => match fs[imgAt img (imageSize q.2 0 + 3) 1]? with
    | some (f, _) => s.updFen f (fun x => x.restored img q.2)
    | none => s) s

/-- Steps 1 and 2 for a context with a save image; a check that fails sends its records. -/
def State.beginRestore (s : State) (p : Nat) (z : Frz) : Bool × State :=
  if s.restoreOk p z then
    let img := s.mem.getSpread (s.saveArea p z.ctx) z.size
    let s := (s.updMem (fun m =>
      let m := ((imageTiles img).zipIdx).foldl (fun m q => m.restoreTile img q.1 q.2) m
      { m with poison := z.poison.foldl setAdd m.poison, fixed := z.fixed.foldl setAdd m.fixed })).restoreFens p z.ctx img
    let last := (s.ctxFens p z.ctx).foldl (fun l q => q.2.tiles.foldl (fun l t => tabSet l t.ix q.2.asid) l) s.hts.last
    (true, { s with hts := { s.hts with last := last } }.updFrz p z.ctx (fun z => { z with st := .restoring, next := none }))
  else
    (false, (s.ctxFns p z.ctx).foldl (fun s f => s.errorRecord f 0 0 z.ctx ⟨0, 0, 0⟩ 0 8) s)

/-- A context becomes current (R382): its slice begins, attempts are taken up again (R338), and it is restored when it has a save
image. A restore that is
refused passes on to the next runnable context. -/
def State.makeCurrent (s : State) (p : Nat) : Nat → Nat → State
  | 0, _ => s
  | n + 1, c =>
    let s := (upto 0 4).foldl (fun s d => s.unstick d p) (s.setSlice ⟨p, c, s.cycle, false⟩)
    match s.frzOf p c with
    | none => s
    | some z =>
      if z.st ≠ .saved then s
      else
        let r := s.beginRestore p z
        if r.1 then r.2
        else match r.2.nextCtx p c with
          | none => r.2
          | some d => r.2.makeCurrent p n d

/-- A stopped slice clock starts again when a context is runnable (R382). -/
def State.wakeSlice (s : State) (p : Nat) : State :=
  match s.curCtx p with
  | some _ => s
  | none =>
    let c := ((s.sliceOf p).map (fun z => z.cur)).getD 31
    match (if s.runnable p c then some c else s.nextCtx p c) with
    | none => s
    | some d => s.makeCurrent p 32 d

/-! ## The events of slices -/

/-- SLICE_END (R382): the slice is over, and the scheduler chooses: the next runnable context after a freeze, or at once
when the current one has no task placed; the current one again; or none. -/
def execSliceEnd (part : BitVec 4) (s : State) : Out :=
  let p := part.toNat
  let s := s.wakeSlice p
  match s.sliceOf p with
  | none => .next s
  | some z =>
    if z.stopped || decide (s.cycle < z.since + 120000 * fld (s.part p) 63 48) || (s.frzOf p z.cur).any (fun y => y.st != .saved || y.next.isSome) then
      .next s
    else match s.nextCtx p z.cur with
      | none =>
        if s.runnable p z.cur then .next (s.makeCurrent p 32 z.cur) else .next (s.setSlice { z with stopped := true })
      | some c =>
        if s.ctxPlaced p z.cur && (s.frzOf p z.cur).isNone then .next (s.freeze p z.cur (some c))
        else .next (s.makeCurrent p 32 c)

/-- CONTEXT_SWITCH (R382, R388): the save is done and the next context becomes current. -/
def execContextSwitch (part : BitVec 4) (s : State) : Out :=
  let p := part.toNat
  match s.frz.find? (fun z => z.part == p && z.st == .saved && z.next.isSome) with
  | none => .next s
  | some z => match z.next with
    | none => .next s
    | some c =>
      let s := s.updFrz p z.ctx (fun z => { z with next := none })
      match (if s.runnable p c then some c else s.nextCtx p c) with
      | some d => .next (s.makeCurrent p 32 d)
      | none => .next (s.setSlice ⟨p, z.ctx, s.cycle, true⟩)

/-! ## Verdicts (R321, R385, R406) -/

/-- A verdict takes effect on the requests that wait under one fault record: resume lets them translate again, and they owe
XLATE_RETRIED; terminate ends their tasks, or fails what the fen controller or the placement engine asked for. -/
def State.giveVerdict (s : State) (sq : Nat) (term : Bool) : State :=
  let ps := s.xl.pending.filter (fun p => p.seq == sq && p.repl)
  let s := (ps.filter (fun p => p.req.fen.isNone)).foldl (fun s p =>
    s.unstick p.req.tile.die (s.fnPart (s.asidFn p.asid))) s
  if !term then
    { s with xl := { s.xl with pending := s.xl.pending.filter (fun p => !(p.seq == sq && p.repl))
                               retried := s.xl.retried ++ ps.map (fun p => p.req) } }
  else
    let s := { s with xl := { s.xl with pending := s.xl.pending.map (fun p =>
      if p.seq == sq && p.repl then { p with verdict := some true } else p) } }
    ps.foldl (fun s p => match p.req.fen with
      | some f => if p.req.srck = 3 then s else s.terminate f 4 0
      | none => s) s

/-- RESTORE_COMPLETE (R388 steps 3 to 5): every awaited outside response is there; the stall is withdrawn, timers and
waits go on where they stood, and each control core's event flag is set; verdicts given meanwhile take effect (R385). A function that was told to stop meanwhile freezes
the context again (R391). -/
def execRestoreComplete (part : BitVec 4) (s : State) : Out :=
  let p := part.toNat
  match s.frzAt p .restoring with
  | none => .next s
  | some z =>
    if s.xl.ext.any (fun e => s.reqIn p z.ctx e.req && e.resp.isNone) then .next s
    else
      let d := s.cycle - z.since
      let s1 : State := { s with
        frz := s.frz.filter (fun y => !(y.part == p && y.ctx == z.ctx))
        emt := { s.emt with timers := s.emt.timers.map (fun t => if s.reqIn p z.ctx t.req then { t with due := t.due + d } else t) }
        hts := { s.hts with insts := s.hts.insts.map (fun i => if s.instIn p z.ctx i then { i with since := i.since + (s.cycle - max i.since z.since) } else i) }
        net := { s.net with flits := z.held ++ s.net.flits } }
      let s2 := (s1.ctxFens p z.ctx).foldl (fun s q => s.updCore q.1 (fun c => { c with flag := true })) s1
      let s2 := (s.xl.pending.filter (fun q => s.reqIn p z.ctx q.req)).foldl (fun s q => match q.verdict with
        | some t => s.giveVerdict q.seq t
        | none => s) s2
      .next (if s2.migs.any (fun m => m.2.state == 2 && s2.fnPart m.1 == p && s2.fnCtx m.1 == z.ctx) then s2.freeze p z.ctx none else s2)

/-- EXTERNAL_RESPONSE (R313, R383): the k-th access that has left the module gets its response: the bytes read, or, where
their number is not the access's, those that the model keeps for the other party's memory. The other side answers one
read-modify-write of a place at a time (R289, R296). -/
def execExternalResponse (k : Nat) (data : List (BitVec 8)) (s : State) : Out :=
  match s.xl.ext[k]? with
  | none => .next s
  | some e =>
    let met := s.xl.ext.zipIdx.any (fun q => q.2 != k && q.1.acc == .rmw && q.1.resp.isSome && decide (q.1.key < e.key + e.len) &&
      decide (e.key < q.1.key + q.1.len))
    if e.resp.isSome || (e.acc == .rmw && met) then .next s
    else .next { s with xl := { s.xl with ext := updNth s.xl.ext k (fun e => { e with resp := some data }) } }

end Sys2Proof.Machine
end

