-- ==== Sys2Proof/Machine/Sched.lean ====
section
/-! DEFINITION. Launch, scheduling and placement (R331 to R346), the queue port and the submission rings (R379, R380), the
rate limiters (R378). -/
namespace Sys2Proof.Machine

/-- The corner tile where a die's scheduler and arbiter stand, the source of their records. -/
def htsTile (die : Nat) : Tile := ⟨die, 0, 9⟩

/-- A launch changed. -/
def State.updLaunch (s : State) (key : Nat) (g : Launch → Launch) : State :=
  s.updHts (fun h => { h with launches := h.launches.map (fun l => if l.key == key then g l else l) })

/-! ## The queue port (R379, R380) -/

/-- A submission is discarded: its error record of kind 4 (R419). -/
def State.discard (s : State) (fn asid why : Nat) : State := s.errorRecord fn asid 0 why (htsTile 0) 0 4

/-- The completion status of a request at the queue port. -/
def State.answer (s : State) (a : Answer) : State := s.updDev (fun d => { d with answers := a :: d.answers })

/-- The distributor has no room for a valid record (R331). -/
def State.noRoom (s : State) (r : Rec) (asid part : Nat) : Bool := s.recordOk r asid part && !s.launchRoom r asid

/-- QPORT_SUBMIT (R379, R331): accepted, or busy, which leaves no trace but the answer; before release every request is busy (R412). -/
def execQportSubmit (fn : BitVec 7) (size : Nat) (rec : BitVec 1024) (s : State) : Out :=
  let f := fn.toNat
  let p := s.fnPart f
  let asid := fld (s.func f) 87 72
  if !s.boot.rel || decide (2 ≤ (s.mig f).state) || decide (256 ≤ s.hts.subs.countP (fun u => u.part == p)) || !s.occOk asid then
    .next (s.answer .busy)
  else if size ≠ 128 ∨ !bit (s.func f) 0 ∨ (s.asidCtx asid).isNone then .next ((s.discard f asid 1).answer .accepted)
  else if s.noRoom rec asid p then .next (s.answer .busy)
  else .next ((s.updHts (fun h => { h with subs := h.subs ++ [⟨p, asid, s.asidFn asid, f, rec⟩] })).answer .accepted)

/-! ## Distribution (R332, R335, R336) -/

/-- A submission is the oldest of its partition and can be taken now: it fails its check, or there is room for it. -/
def State.subDue (s : State) (k : Nat) (u : Submission) : Bool :=
  !(s.hts.subs.take k).any (fun v => v.part == u.part) &&
  (!s.recordOk u.desc u.asid u.part || s.launchRoom u.desc u.asid)

/-- Unfinished fen tasks of a partition that a die's HTS holds. -/
def State.loadOf (s : State) (part die : Nat) : Nat :=
  (s.hts.insts.filter (fun i => i.die == die && (s.launchOf i.key).any (fun l => l.part == part))).foldl
    (fun n i => n + i.tasks.length) 0 +
  s.fens.countP (fun x => x.live && x.part == part && x.die == die)

/-- The die of a fen task that no level confines: the least loaded of those where the partition owns a rectangle of the
size in the region, the lowest on a tie; `given` are the tasks this distribution has placed. -/
def State.chooseDie (s : State) (part : Nat) (quad : Option Nat) (r : Rec) (given : List (Nat × Nat)) : Nat :=
  let ds := (upto 0 4).filter (fun d => s.hasRect part d quad (Rec.height r) (Rec.width r))
  let load : Nat → Nat := fun d => s.loadOf part d + given.countP (fun g => g.1 == d)
  match ds with
  | [] => 0
  | d :: rest => rest.foldl (fun b e => if load e < load b then e else b) d

/-- The die of each fen task of a launch that runs on this module, in ascending order of the index tuple: die and task.
The tasks of one quad instance go to one die. -/
def State.assign (s : State) (l : Launch) : List (Nat × Nat) :=
  let r := l.desc
  let mine := (upto 0 (Rec.total r)).filter (fun n => Rec.moduleOf r l.src (s.dev.gm1 + 1) n == s.dev.midx)
  mine.foldl (fun given n =>
    let d := match Rec.dieOf r n with
      | some d => d
      | none =>
        let same := given.find? (fun g => (Rec.quadInst r n).isSome && Rec.quadInst r g.2 == Rec.quadInst r n)
        match same with
        | some g => g.1
        | none => s.chooseDie l.part (Rec.quadOf r n) r given
    given ++ [(d, n)]) []

/-- The greatest priority among the entries of a partition's current context on a die. -/
def State.topPrio (s : State) (die part : Nat) : Option Nat :=
  match s.curCtx part with
  | none => none
  | some c => ((s.hts.insts.filter (fun i => i.die == die && !i.tasks.isEmpty && s.instIn part c i)).map (fun i => i.prio)).max?

/-- A die instance enters its die's task table, at the tail of its list; an entry of the current context in a higher list
takes attempts up again (R337, R338), and a slice clock that stands begins (R382). -/
def State.enterInst (s : State) (part ctx : Nat) (i : DieInst) : State :=
  let higher := s.curCtx part == some ctx && (match s.topPrio i.die part with | some p => decide (p < i.prio) | none => true)
  let s := s.updHts (fun h => { h with insts := h.insts ++ [{ i with since := s.cycle }] })
  (if higher then s.unstick i.die part else s).wakeSlice part

/-- A die instance goes to its table, or waits at the distributor while the table is full. -/
def State.sendInst (s : State) (part ctx : Nat) (i : DieInst) : State :=
  if s.htsUsed i.die < 4096 then s.enterInst part ctx i else s.updHts (fun h => { h with waiting := h.waiting ++ [i] })

/-- A ready launch is divided into die instances. -/
def State.distributeOne (s : State) (l : Launch) : State :=
  let as := s.assign l
  let total := if l.src = s.dev.midx then Rec.total l.desc else as.length
  let s := s.updLaunch l.key (fun l => { l with distributed := true, left := total, remote := total - as.length })
  (upto 0 4).foldl (fun s d =>
    let ts := (as.filter (fun g => g.1 == d)).map (fun g => (g.2, Rec.quadOf l.desc g.2))
    if ts.isEmpty then s else s.sendInst l.part l.ctx ⟨d, l.key, ts, Rec.prio l.desc, s.cycle, none⟩) s

/-- DISTRIBUTE (R331, R332, R335, R336, R380): a die instance that waits enters a table with room; else the oldest record of
a ring is taken, accepted or discarded; else a ready launch is divided. A launch runs in its ASID's partition (R332); the record of a
discarded submission goes to the function that made it (R380). -/
def execDistribute (s : State) : Out :=
  match findIx (fun i : DieInst => decide (s.htsUsed i.die < 4096)) s.hts.waiting with
  | some (k, i) =>
    let l := s.launchOf i.key
    .next ((s.updHts (fun h => { h with waiting := dropNth h.waiting k })).enterInst ((l.map Launch.part).getD 0)
      ((l.map Launch.ctx).getD 0) i)
  | none =>
    match (s.hts.subs.zipIdx).find? (fun u => s.subDue u.2 u.1) with
    | some (u, k) =>
      let s1 := s.updHts (fun h => { h with subs := dropNth h.subs k })
      if !s.recordOk u.desc u.asid u.part then .next (s1.discard u.sub u.asid 2)
      else .next (s1.acceptLaunch u.desc u.asid u.fn (s.fnPart u.fn) (s.fnCtx u.fn) s.dev.midx)
    | none =>
      match s.hts.launches.find? (fun l => !l.distributed && (!Rec.named l.desc || l.dep == 0)) with
      | some l => .next (s.distributeOne l)
      | none => .next s

/-- GROUP_LAUNCH_INSTANCE (R411): another module sends an instance of its launch: accepted under the same ASID when that
ASID has a valid context here and the record passes R331. -/
def execGroupLaunchInstance (srcMod : BitVec 6) (asid : BitVec 16) (rec : BitVec 1024) (s : State) : Out :=
  let a := asid.toNat
  let f := s.asidFn a
  if (s.asidCtx a).isSome && s.recordOk rec a (s.fnPart f) then
    .next (s.acceptLaunch rec a f (s.fnPart f) (s.fnCtx f) srcMod.toNat)
  else .next s

/-! ## Completion of a launch (R333, R342) -/

/-- A launch is complete: its name and its entries are freed, and its successor is decremented (R332, R333, R336). Of another
module's launch only the entries here are freed: its own module counts its tasks (R335, R342). -/
def State.launchDone (s : State) (l : Launch) : State :=
  let s := s.updHts (fun h => { h with launches := h.launches.filter (fun m => m.key != l.key),
                                       insts := h.insts.filter (fun i => i.key != l.key) })
  if Rec.succen l.desc && !l.anyTerm && l.src == s.dev.midx then s.successor (Rec.succdie l.desc) l.asid l.fn (Rec.succ l.desc) else s

/-- Unfinished tasks of a launch end. -/
def State.tasksEnd (s : State) (key n : Nat) (term : Bool) : State :=
  s.updLaunch key (fun l => { l with left := l.left - n, anyTerm := l.anyTerm || term })

/-- Another module reports that fen tasks have completed there. With the last of all, that module's fen controller stores
the completion word. -/
def State.remoteEnd (s : State) (key n : Nat) (term : Bool) : State :=
  match s.launchOf key with
  | none => s
  | some l =>
    if l.remote < n then s
    else
      let s := (s.tasksEnd key n term).updLaunch key (fun l => { l with remote := l.remote - n })
      match s.launchOf key with
      | some m => if m.left = 0 ∧ m.distributed then s.launchDone m else s
      | none => s

/-- Another module's distributor refuses an instance of a group launch: its n fen tasks are terminated here (R343, R411), each with
an error record of kind 3 whose cause is free, for R419 lists none for this (DESIGN CHOICE, log entry 162). -/
def State.remoteRefused (s : State) (key n : Nat) : State :=
  match s.launchOf key with
  | none => s
  | some l =>
    if l.remote < n then s
    else
      let sq := fld l.desc.toNat 767 704
      ((upto 0 n).foldl (fun s _ =>
        { s with free := s.free + 1 }.errorRecord l.fn l.asid sq (fld sq 63 48 * 2 ^ 16 + Config.freeNat s.free % 256) ⟨0, 0, 0⟩ 0 3)
        s).remoteEnd key n true

/-! ## Placement (R337 to R340) -/

/-- The tiles of a context that is saved are free for others (R381, R386). -/
def State.holding (s : State) (x : Fen) : Bool := x.live && !(s.frzOf x.part x.ctx).any (fun z => z.st == .saved)

/-- A compute tile is free: no fen and no balancer spare holds it. -/
def State.tileFree (s : State) (t : Tile) : Bool := !s.fens.any (fun x => s.holding x && (x.holds t || x.spares.contains t))

/-- The memory-port tiles of a fen, index 0 first (R340). -/
def State.mptsFor (s : State) (p die row col h w : Nat) : List Tile :=
  let edge := (upto col w).map (fun c => (⟨die, if row ≤ 8 then 0 else 17, c⟩ : Tile))
  let side := (upto row h).map (fun r => (⟨die, r, if col ≤ 4 then 0 else 9⟩ : Tile))
  ((edge ++ side).filter (s.owns p)).take 16

/-- What the images need of memory-port tiles: an index alone (slot 0), or a slot in which they place a node. -/
abbrev Needs := List (Nat × Nat)

/-- A stand-in for the placement engine as a requester (R339): its accesses are carried by its own tile. -/
def engineFen (die asid part : Nat) : Fen := { Fen.blank die 0 9 1 1 with asid := asid, part := part, mpts := [htsTile die] }
/-- The placement engine as a requester. -/
def engineReq (die : Nat) : Req := ⟨none, 3, htsTile die, 0, 0, 0, 0⟩

/-- Reads bytes of an image as the placement engine. -/
def State.engineRead (s : State) (die asid part va n : Nat) : Res (List Byte) :=
  let x := engineFen die asid part
  if 2 ^ 48 < va + n then s.meetFault asid (engineReq die) ⟨va % 2 ^ 48, .read, 0, 0⟩
  else (s.readVa x (engineReq die) va n (n / 64 + 2)).bind (fun r s => .ok r.1 s)

/-- The slots of a memory-port section's node records. -/
def State.needSlots (s : State) (die asid part va ix : Nat) : Nat → Res Needs
  | 0 => .ok [] s
  | n + 1 => (s.engineRead die asid part (va + 24) 8).bind (fun b s =>
      (s.needSlots die asid part (va + 32) ix n).bind (fun l s => .ok ((ix, fld (leNat b) 47 40) :: l) s))

/-- The needs of an image's sections from an offset. -/
def State.needSects (s : State) (die asid part va : Nat) : Nat → Nat → Res Needs
  | 0, _ => .ok [] s
  | n + 1, pos => (s.engineRead die asid part (va + pos) 8).bind (fun b s =>
      let h := leNat b
      let nn := fld h 47 32
      let nr := fld h 31 16
      if 13 < nn ∨ 512 < nr then .ok [] s
      else
        let mine : Res Needs := if bit h 63 then
            (s.needSlots die asid part (va + pos + 32) (fld h 55 52) nn).bind (fun l s => .ok ((fld h 55 52, 0) :: l) s)
          else .ok [] s
        mine.bind (fun l s =>
          (s.needSects die asid part va n (pos + pad32 (32 + 32 * nn + 8 * nr))).bind (fun m s => .ok (l ++ m) s)))

/-- The needs of one image, read from its header, its command ports and its section headers (R339). A header that the
start would refuse needs nothing. -/
def State.needImage (s : State) (die asid part va : Nat) : Res Needs :=
  if va = 0 then .ok [] s
  else (s.engineRead die asid part va 64).bind (fun b s =>
    let h := leNat b
    let p := partsOf b
    if fld h 15 0 ≠ 0x4D4C ∨ fld h 31 16 ≠ 1 ∨ 144 < p.nsect ∨ 127 < p.nport ∨ 64 < p.nbar ∨ 256 < p.nconst then .ok [] s
    else (s.engineRead die asid part (va + p.oport) (4 * p.nport)).bind (fun q s =>
      let ports := (upto 0 p.nport).filterMap (fun k =>
        let e := imgAt q (4 * k) 4
        if bit e 31 then some (fld e 24 21, 0) else none)
      (s.needSects die asid part va p.nsect p.osect).bind (fun l s => .ok (ports ++ l) s)))

/-- The needs of IMG0 to IMG3. -/
def State.needAll (s : State) (die asid part : Nat) : List Nat → Res Needs
  | [] => .ok [] s
  | va :: r => (s.needImage die asid part va).bind (fun l s => (s.needAll die asid part r).bind (fun m s => .ok (l ++ m) s))

/-- A rectangle at an anchor qualifies (R339). -/
def State.anchorOk (s : State) (p die : Nat) (h w : Nat) (needs : Needs) (a : Nat × Nat) : Bool :=
  let ms := s.mptsFor p die a.1 a.2 h w
  (rectTiles die a.1 a.2 h w).all (fun t => s.owns p t && s.tileFree t) &&
  needs.all (fun q => match ms[q.1]? with
    | none => false
    | some t => q.2 == 0 || !s.fens.any (fun x => s.holding x && x.mslots.contains (t, q.2)))

/-- The entry of a partition's current context that an attempt tries: the first of its highest list (R338); none while the context is
frozen or migration holds it back (R391). -/
def State.headInst (s : State) (die part : Nat) : Option (Nat × DieInst) :=
  match s.curCtx part, s.topPrio die part with
  | some c, some p => if (s.frzOf part c).isSome || s.ctxBarred part c then none else
      findIx (fun i : DieInst => i.die == die && !i.tasks.isEmpty && s.instIn part c i && i.prio == p) s.hts.insts
  | _, _ => none

/-- A fen at its anchor, about to start (R341). -/
def newFen (l : Launch) (die : Nat) (a : Nat × Nat) (ms : List Tile) (n : Nat) (needs : Needs) : Fen :=
  let x := Fen.blank die a.1 a.2 (Rec.height l.desc) (Rec.width l.desc)
  { x with mpts := ms, asid := l.asid, fn := l.fn, part := l.part, ctx := l.ctx, launch := l.key, state := 1
           core := { x.core with lix := (tupleOf (Rec.counts l.desc) n).map (BitVec.ofNat 32) }
           mslots := needs.filterMap (fun q => if q.2 = 0 then none else (ms[q.1]?).map (fun t => (t, q.2))) }

/-- The die instance's unplaced tasks are terminated (R339, R343). -/
def State.endInst (s : State) (k : Nat) (i : DieInst) (cause : Nat) : State :=
  match s.launchOf i.key with
  | none => s
  | some l =>
    let s := s.updHts (fun h => { h with insts := updNth h.insts k (fun i => { i with tasks := [] }) })
    let s := i.tasks.foldl (fun s _ => s.errorRecord l.fn l.asid (Rec.seq l.desc)
      (fld (Rec.seq l.desc) 63 48 * 2 ^ 16 + cause) (htsTile i.die) 0 3) s
    s.tasksEnd l.key i.tasks.length true

/-- Places the first task of an entry whose needs are known, or fails the attempt. -/
def State.placeTask (s : State) (k : Nat) (i : DieInst) (l : Launch) (needs : Needs) : State :=
  match i.tasks with
  | [] => s
  | (n, quad) :: rest =>
    let h := Rec.height l.desc
    let w := Rec.width l.desc
    match (anchorsIn quad h w).find? (s.anchorOk l.part i.die h w needs) with
    | none => s.updHts (fun t => { t with stuck := (i.die, l.part) :: t.stuck })
    | some a =>
      let x := newFen l i.die a (s.mptsFor l.part i.die a.1 a.2 h w) n needs
      { s with fens := s.fens ++ [x] }.updHts (fun t => { t with insts := updNth t.insts k (fun i => { i with tasks := rest, since := s.cycle }) })

/-- One attempt of a partition on a die. -/
def State.attempt (s : State) (die part : Nat) : State :=
  if s.hts.stuck.contains (die, part) then s
  else match s.headInst die part with
    | none => s
    | some (k, i) => match s.launchOf i.key with
      | none => s
      | some l => match i.needs with
        | some needs => s.placeTask k i l needs
        | none =>
          match s.needAll die l.asid l.part ((upto 0 4).map (Rec.img l.desc)) with
          | .ok needs s => (s.updHts (fun t => { t with insts := updNth t.insts k (fun i => { i with needs := some needs }) })).placeTask k i l needs
          | .wait s =>
            if s.xl.pending.any (fun p => p.asid == l.asid && p.req.same (engineReq die)) then
              s.updHts (fun t => { t with stuck := (die, part) :: t.stuck })
            else s
          | .fault _ s => s.endInst k i (if s.replayable l.asid then 4 else 1)

/-- PLACEMENT_ATTEMPT (R338): the partitions with ready entries of their current contexts take turns by weight. -/
def execPlacementAttempt (die : BitVec 2) (s : State) : Out :=
  let d := die.toNat
  let s := (upto 0 16).foldl State.wakeSlice s
  let ps := (upto 0 16).filter (fun p => (s.headInst d p).isSome)
  match ps with
  | [] => .next s
  | p0 :: _ =>
    let left : Nat → Nat := fun p => match s.hts.rounds.find? (fun r => r.1 == d && r.2.1 == p) with | some r => r.2.2 | none => 0
    let weight : Nat → Nat := fun p => fld (s.part p) 15 8
    let put : List (Nat × Nat × Nat) → State → State := fun rs s =>
      s.updHts (fun h => { h with rounds := h.rounds.filter (fun r => r.1 != d) ++ rs })
    match ps.find? (fun p => left p != 0) with
    | some p => .next ((put (ps.map (fun q => (d, q, left q - b2n (q == p)))) s).attempt d p)
    | none => .next ((put (ps.map (fun q => (d, q, weight q - b2n (q == p0)))) s).attempt d p0)

/-- AGING (R337): the k-th waiting entry of a die, after 1,200,000 cycles in its list, moves to the tail of the next higher
one. -/
def execAging (die : BitVec 2) (k : Nat) (s : State) : Out :=
  match (s.hts.insts.zipIdx.filter (fun q => q.1.die == die.toNat && !q.1.tasks.isEmpty))[k]? with
  | none => .next s
  | some (i, j) =>
    let l := s.launchOf i.key
    let p := (l.map Launch.part).getD 0
    if 7 ≤ i.prio ∨ s.cycle < i.since + 1200000 ∨ s.frozen p ((l.map Launch.ctx).getD 0) then .next s
    else .next ((s.updHts (fun h => { h with insts := dropNth h.insts j ++ [{ i with prio := i.prio + 1, since := s.cycle }] })).unstick
      die.toNat p)

/-! ## Start of a fen task (R341) -/

/-- Steps 1 and 2: scratch is cleared when the tiles last held another ASID's task, and the full/empty bits. -/
def State.clearTiles (s : State) (x : Fen) : State :=
  let other := x.tiles.any (fun t => tabGet s.hts.last t.ix x.asid != x.asid)
  let s := x.tiles.foldl (fun s t => s.updMem (fun m =>
    (if other then m.putN (keyScratch t 0) (List.replicate 524288 0) else m).mark (keyScratch t 0 / 16) 32768 false)) s
  s.updHts (fun h => { h with last := x.tiles.foldl (fun l t => tabSet l t.ix x.asid) h.last })

/-- Step 4: the control core's state. -/
def Core.start (c : Core) (r : Rec) : Core :=
  { c with regs := Vector.replicate 64 0#64, pc := BitVec.ofNat 64 (Rec.entry r), seq := BitVec.ofNat 64 (Rec.seq r)
           argp := BitVec.ofNat 64 (Rec.args r), complw := BitVec.ofNat 64 (Rec.complw r), rm := 0, trapvec := 0, flag := false }.fresh

/-- Steps 4 and 5: csr.fenstat is cleared, mantle 0 starts, and the core fetches at ENTRY. -/
def Fen.start (x : Fen) (r : Rec) : Fen :=
  { x with state := 2, dropped := 0, status := 0, loading := 0, core := x.core.start r }.startPhase 0

/-- One turn of a fen task's start: `loading` counts the steps done. -/
def State.startTurn (s : State) (f : Nat) : State :=
  match s.fens[f]? with
  | none => s
  | some x =>
    if x.state ≠ 1 ∨ s.fenFrozen x then s
    else match s.launchOf x.launch with
      | none => s
      | some l =>
        let up : State → State := fun s => s.updFen f (fun x => { x with loading := x.loading + 1, core := { x.core with img := [] } })
        if x.loading = 0 then up (s.clearTiles x)
        else if x.loading ≤ 4 then
          let k := x.loading - 1
          let va := Rec.img l.desc k
          if va = 0 then up s
          else match s.imgStep x (fcReq f x) va x.core.img with
            | .more bs st s => (s.updCore f (fun c => { c with img := c.img ++ bs })).orStatus f st
            | .wait s => s
            | .refused fl s => s.terminate f 3 fl.2
            | .loaded m => up (s.updFen f (fun x => { x with mantles := updNth x.mantles k (fun _ => some m) }))
        else s.updFen f (fun x => x.start l.desc)

/-- FEN_START (R341): one turn of the start of every fen task that starts. -/
def execFenStart (s : State) : Out := .next ((upto 0 s.fens.length).foldl State.startTurn s)

/-! ## Completion of a fen task (R159, R342) -/

/-- The conditions of R159; a terminated task needs no sink (R343). -/
def Fen.finished (x : Fen) : Bool :=
  x.core.phase == .halted && x.ports.all (fun q => q.cmds.isEmpty) &&
  (x.term.isSome || x.exited || (x.choice.isNone && match x.mantle with
    | some m => m.nodes.all (fun n => match n.ins with | .sink .. => false | _ => true)
    | none => true))

/-- Every access of the task's agents is performed: none awaits an answer from outside the module, no write is on its way. -/
def State.performed (s : State) (f : Nat) : Bool := s.xl.ext.all (fun e => e.req.fen != some f || e.resp.isSome) && !s.sending f

/-- The beats and tokens that a mantle's ports and edges hold are discarded (R370). -/
def Mantle.discard (m : Mantle) : Mantle :=
  { m with nodes := m.nodes.map (fun n => { n with inq := n.inq.map (fun _ => []), outq := n.outq.map (fun _ => []),
                                                   mem := { n.mem with owe := [] } })
           relays := m.relays.map (fun r => { r with q := [] }) }

/-- The same of a fen whose task completes: they do not count as dropped. -/
def Fen.discard (x : Fen) : Fen := { x with mantles := x.mantles.map (fun o => o.map (fun m => m.discard.unclone)), selq := [] }

/-- Whether the decrement of a fen task of another module's launch reaches zero there is a free value, kept with the launch. -/
def State.lastOf (s : State) (l : Launch) : Bool × State :=
  if l.src = s.dev.midx then (l.left == 0, s)
  else match l.last with
    | some b => (l.left == 0 && b, s)
    | none =>
      if l.left != 0 then (false, s)
      else (Config.freeBool s.free, { s with free := s.free + 1 }.updLaunch l.key (fun l => { l with last := some (Config.freeBool s.free) }))

/-- Step 1 and 2: waits for the accesses, then counts down; the scopes are reduced to csr.scopecap (R45). -/
def State.countDown (s : State) (f : Nat) (x : Fen) (l : Launch) : State :=
  if !s.performed f then s
  else
    let s := { s with xl := { s.xl with ext := s.xl.ext.filter (fun e => e.req.fen != some f) } }
    let clamp := (Rec.levels l.desc).any (fun v => decide (s.scopeCap x < v.scope))
    let s := (s.orStatus f (Osw.when clamp Osw.scopeClamped)).tasksEnd l.key 1 x.term.isSome
    match s.launchOf l.key with
    | none => s.updFen f (fun x => { x with drain := 3 })
    | some m =>
      let r := s.lastOf m
      if r.1 && Rec.complw m.desc != 0 then r.2.updFen f (fun x => { x with drain := 2 })
      else (if m.left = 0 then r.2.launchDone m else r.2).updFen f (fun x => { x with drain := 3 })

/-- Step 3: SEQ is stored at COMPLW; a fault under the non-replayable policy or a terminate verdict leaves it undone. -/
def State.storeDone (s : State) (f : Nat) (x : Fen) (l : Launch) : State :=
  let va := Rec.complw l.desc
  let fin : State → State := fun s => (s.launchDone ((s.launchOf l.key).getD l)).updFen f (fun x => { x with drain := 3 })
  match (s.xlateFor x (fcReq f x) .write va).bind (fun ph s => s.writeAt (fcReq f x) ph va (toLE 8 (Rec.seq l.desc)) false) with
  | .wait s => s
  | .fault _ s => fin s
  | .ok _ s => fin s

/-- Steps 4 and 5: the fen is reusable, its tiles and slots are free, and the event takes its SEQ (R420). -/
def State.freeFen (s : State) (f : Nat) (x : Fen) : State :=
  let s := ({ s with seq := s.seq + 1 }.updFen f (fun x => { x with state := 6, spares := [], mslots := [] })).unstick x.die x.part
  s.forget (fun r => r.fen == some f)

/-- One turn of the completion of a fen task; with its conditions first met what its ports and edges hold is discarded (R370). -/
def State.finishTurn (s : State) (f : Nat) : State :=
  match s.fens[f]? with
  | none => s
  | some x =>
    if !x.live || s.fenFrozen x || (x.state == 1 && x.term.isNone) || !x.finished then s
    else if x.drain = 0 then s.updFen f (fun x => { x.discard with drain := 1, state := if x.term.isSome then 7 else 4 })
    else if x.drain = 3 then s.freeFen f x
    else match s.launchOf x.launch with
      | none => s.updFen f (fun x => { x with drain := 3 })
      | some l => if x.drain = 1 then s.countDown f x l else s.storeDone f x l

/-- The completion store of a launch whose last tasks ended without a fen (R339, R343). -/
def State.finishLaunch (s : State) (l : Launch) : State :=
  let die := ((s.hts.insts.find? (fun i => i.key == l.key)).map DieInst.die).getD 0
  let x := engineFen die l.asid l.part
  let rq := engineReq die
  let va := Rec.complw l.desc
  let r := s.lastOf l
  let s := r.2
  if va = 0 || !r.1 then s.launchDone l
  else match (s.xlateFor x rq .write va).bind (fun ph s => s.writeAt rq ph va (toLE 8 (Rec.seq l.desc))) with
    | .wait s => s
    | .fault _ s => s.launchDone l
    | .ok _ s => s.launchDone l

/-- A launch has ended with no fen left to complete it. -/
def State.orphan (s : State) (l : Launch) : Bool :=
  l.distributed && l.left == 0 && !s.fens.any (fun x => x.live && x.launch == l.key)

/-- TASK_COMPLETE (R342): one turn of the completion of every fen task whose conditions hold. -/
def execTaskComplete (s : State) : Out :=
  let s := (upto 0 s.fens.length).foldl State.finishTurn s
  .next ((s.hts.launches.filter s.orphan).foldl State.finishLaunch s)

/-! ## The balancer (R344 to R346) -/

/-- The node that feeds an input by circuit or local reference, through fork stages. -/
def Mantle.source (m : Mantle) : Nat → Wire → Option Node
  | 0, _ => none
  | n + 1, w => match w.src with
    | .node t sl _ => m.nodes.find? (fun q => q.tile == t && q.slot == sl)
    | .relay k => (m.wires.find? (fun v => v.dst == .relay k)).bind (fun v => m.source n v)
    | .sel _ => none

/-- The increments of a node's counters over the window: stalled, starved. -/
def Node.window (n : Node) : Nat × Nat :=
  ((n.stalled + 2 ^ 32 - n.seen.1) % 2 ^ 32, (n.starved + 2 ^ 32 - n.seen.2) % 2 ^ 32)

/-- The node is the bottleneck of its fen in the window. -/
def Mantle.bottleneck (m : Mantle) (n : Node) : Bool :=
  decide (n.window.1 < 256 ∧ n.window.2 < 256) &&
  m.wires.any (fun w => w.kind == 1 && (match w.dst with | .node t sl p => t == n.tile && sl == n.slot && decide (p < 4) | _ => false) &&
    (m.source 64 w).any (fun q => decide (2048 ≤ q.window.1)))

/-- The counters of a window are read. -/
def Mantle.window (m : Mantle) : Mantle :=
  { m with nodes := m.nodes.map (fun n =>
      { n with wins := if m.bottleneck n then n.wins + 1 else 0, seen := (n.stalled, n.starved) }) }

/-- BALANCER_WINDOW (R344): at the end of each 4,096-cycle window, for the nodes of every mantle. -/
def execBalancerWindow (die : BitVec 2) (s : State) : Out :=
  if s.cycle % 4096 ≠ 0 then .next s
  else .next { s with fens := s.fens.map (fun x =>
    if x.live && x.die == die.toNat && !s.fenFrozen x then { x with mantles := x.mantles.map (fun o => o.map Mantle.window) } else x) }

/-- A node that the balancer may clone (R345); SPLIT takes the inputs that are fed by beats (R346). -/
def Node.clonable (n : Node) : Bool :=
  let h := nodeHdr n.ins
  let plain : Ref → Bool := fun r => match r with | .none | .circuit _ _ | .near _ _ | .const _ => true | _ => false
  let beat : Ref → Bool := fun r => match r with | .circuit _ _ | .near _ _ => true | _ => false
  let sent : Ref → Bool := fun r => match r with | .none | .circuit _ _ | .near _ _ => true | _ => false
  h.clone && h.guard == .off && !n.clone && (n.held || decide (8 ≤ n.wins)) && (NodeHdr.ins h).any beat &&
  (if n.opc = 0x45 then
     (match n.ins with | .atom _ _ op => decide (op.toNat ≤ 5) | _ => false) &&
     h.in2 == .none && h.in3 == .none && h.out0 == .none && h.out1 == .none && plain h.in0 && plain h.in1
   else (decide (1 ≤ n.opc ∧ n.opc ≤ 0x10) || decide (0x18 ≤ n.opc ∧ n.opc ≤ 0x1D)) &&
     (NodeHdr.ins h).all plain && (NodeHdr.outs h).all sent)

/-- J slots that a clone takes: SPLIT, and MERGE for a vector node. -/
def Node.cloneSlots (n : Node) : Nat := if n.opc = 0x45 then 1 else 2

/-- The vacant J slots of a tile. -/
def Mantle.vacantJ (m : Mantle) (t : Tile) : List Nat :=
  [5, 6, 7, 8].filter (fun k => !m.nodes.any (fun n => n.tile == t && n.slot == k))

/-- The node has a clone. -/
def Mantle.cloned (m : Mantle) (n : Node) : Bool :=
  m.wires.any (fun w => m.cloneAt w.src && (match w.dst with | .node t sl _ => t == n.tile && sl == n.slot | _ => false))

/-- A circuit lane that the partition owns and the mantle leaves free runs between neighbouring tiles, in both
directions. -/
def Fen.hopOk (x : Fen) (s : State) (m : Mantle) (a b : Tile) : Bool :=
  let one : Tile → Tile → Bool := fun a b => (upto 0 4).any (fun d => (upto 0 8).any (fun k =>
    let l : Lane := ⟨a, 1, d, k⟩
    l.next == some b && l.owner s == 16 + x.part && !m.lanes.contains l))
  one a b && one b a

/-- The tiles that circuits reach from some tiles over such lanes. -/
def Fen.reach (x : Fen) (s : State) (m : Mantle) : Nat → List Tile → List Tile
  | 0, l => l
  | n + 1, l => x.reach s m n (l ++ allTiles.filter (fun t => t.die == x.die && !l.contains t && l.any (fun u => x.hopOk s m u t)))

/-- The spare tile for a clone of a node: owned, free, on the same die and within reach. -/
def State.spareFor (s : State) (x : Fen) (m : Mantle) (n : Node) : Option Tile :=
  (x.reach s m 24 [n.tile]).find? (fun t => t.die == x.die && decide (1 ≤ t.row ∧ t.row ≤ 16 ∧ 1 ≤ t.col ∧ t.col ≤ 8) && s.owns x.part t && s.tileFree t)

/-- A fen's candidate in a slot (R345): its place among the nodes, and the spare tile. -/
def State.cloneIn (s : State) (x : Fen) (slot : Nat) : Option (Nat × Tile) :=
  match x.mantle with
  | none => none
  | some m =>
    if !x.live || x.exited || s.fenFrozen x || decide (4 ≤ x.spares.length) ||
        (s.launchOf x.launch).any (fun l => Rec.noclone l.desc) then none
    else (m.nodes.zipIdx).findSome? (fun q =>
      if q.1.slot == slot && q.1.clonable && !m.cloned q.1 && decide (q.1.cloneSlots ≤ (m.vacantJ q.1.tile).length) then
        (s.spareFor x m q.1).map (fun t => (q.2, t)) else none)

/-- The record of an inserted SPLIT or MERGE: its inputs by which it takes beats, and local outputs. -/
def insertedHdr (slot : Nat) (fmt : Fmt) (i0 i1 i2 : Bool) : NodeHdr :=
  let near : Bool → Ref := fun b => if b then .near 0 false else .none
  { var := 0, fmt := fmt, slot := BitVec.ofNat 8 slot, in0 := near i0, in1 := near i1, in2 := near i2, in3 := .none, out0 := near true,
    out1 := near true, guard := .off, rm := 0, sat := false, clone := false }

/-- Steps 2 to 5 (R346): SPLIT takes the node's inputs and its buffered beats, MERGE its output and what waits there; the copy stands
in the spare tile. The branches to the copy are as long as the way to its tile. -/
def Mantle.insertClone (m : Mantle) (n : Node) (spare : Tile) : Mantle :=
  match m.vacantJ n.tile with
  | [] => m
  | js :: more =>
    let h := nodeHdr n.ins
    let fed : Nat → Bool := fun j => match (NodeHdr.ins h)[j]? with | some (.circuit _ _) | some (.near _ _) => true | _ => false
    let d := (n.tile.row - spare.row) + (spare.row - n.tile.row) + (n.tile.col - spare.col) + (spare.col - n.tile.col)
    let disc : Nat → Bool := fun j => m.wires.any (fun w => w.dst == .node n.tile n.slot j && w.disc)
    let split := { Node.fresh n.tile js (.split (insertedHdr js .f64 (fed 0) (fed 1) (fed 2))) 0x67 [] [] with
      clone := true, inq := n.inq, outq := List.replicate 6 [] }
    let copy := { Node.fresh spare n.slot n.ins n.opc n.tens n.coef with clone := true }
    let self := { n with inq := n.inq.map (fun _ => []), held := false, wins := 0 }
    let into : List Wire := ((upto 0 3).filter fed).flatMap (fun j =>
      [⟨.node n.tile js (2 * j), 1, .node n.tile n.slot j, slack 1 0, disc j⟩,
       ⟨.node n.tile js (2 * j + 1), 1, .node spare n.slot j, slack 1 d, disc j⟩])
    let fedWires := m.wires.map (fun w => match w.dst with
      | .node t sl j => if t == n.tile && sl == n.slot && decide (j < 4) then { w with dst := .node t js j } else w
      | _ => w)
    let put : Node → List Node := fun v => m.nodes.map (fun q => if q.tile == n.tile && q.slot == n.slot then v else q)
    match (if n.opc = 0x45 then [] else more) with
    | [] => { m with nodes := put self ++ [split, copy], wires := fedWires ++ into }
    | jm :: _ =>
      let merge := { Node.fresh n.tile jm (.merge (insertedHdr jm .f64 true true false)) 0x68 [] [] with clone := true, outq := n.outq }
      let gone := m.wires.any (fun w => w.src == .node n.tile n.slot 0 && w.disc)
      { m with nodes := put { self with outq := n.outq.map (fun _ => []) } ++ [split, copy, merge]
               wires := (fedWires.map (fun w => if w.src == .node n.tile n.slot 0 then { w with src := .node n.tile jm 0 } else w)) ++ into ++
                 [⟨.node n.tile n.slot 0, 1, .node n.tile jm 0, slack 1 0, gone⟩, ⟨.node spare n.slot 0, 1, .node n.tile jm 1, slack 1 d, gone⟩] }

/-- A firing of the node is in progress. -/
def Node.midFiring (n : Node) : Bool := !n.mem.owe.isEmpty || !n.mem.win.isEmpty

/-- The node's ports are released. -/
def State.release (s : State) (slot : Nat) : State :=
  { s with fens := s.fens.map (fun x => x.updMantle (fun m => { m with nodes := m.nodes.map (fun n =>
      if n.slot == slot && n.held then { n with held := false } else n) })) }

/-- CLONE_NODE (R345, R346): the first candidate in a slot is held until its firing in progress completes, and then gets its copy in a
spare tile, with SPLIT and MERGE in J slots of its own tile; with no candidate left what was held is released. -/
def execCloneNode (slot : BitVec 8) (s : State) : Out :=
  match (s.fens.zipIdx).findSome? (fun q => (s.cloneIn q.1 slot.toNat).map (fun r => (q.2, r))) with
  | none => .next (s.release slot.toNat)
  | some (f, k, t) =>
    match ((s.fens[f]?).bind Fen.mantle).bind (fun m => m.nodes[k]?) with
    | none => .next s
    | some n =>
      if n.midFiring then .next (s.updNode f k (fun n => { n with held := true }))
      else .next ((s.updFen f (fun x => { x.updMantle (fun m => m.insertClone n t) with spares := x.spares ++ [t] })).updHts
        (fun h => { h with last := tabSet h.last t.ix (((s.fens[f]?).map Fen.asid).getD 0) }))

/-! ## Rate limiters (R378) -/

/-- RATE_REFILL (R378): at the end of each 1,024-cycle window, once, RATE flits enter the bucket, up to BURST. -/
def execRateRefill (die : BitVec 2) (part : BitVec 4) (s : State) : Out :=
  let key := (die.toNat, part.toNat)
  if s.cycle % 1024 ≠ 0 ∨ tabGet s.dev.refilled key 0 = s.cycle then .next s
  else
    let e := s.part part.toNat
    .next (s.updDev (fun d => { d with refilled := tabSet d.refilled key s.cycle, buckets := tabSet d.buckets key (min (fld e 39 32) (tabGet d.buckets key 0 + fld e 31 16)) }))

end Sys2Proof.Machine
end

