-- ==== Sys2Proof/Machine/Mig.lean ====
section
/-! DEFINITION. Migration of a virtual function (R390 to R394): the states of MIGCTL, dirty pages, the migration stream
and the sleeve. The bodies of kinds 3 and 4, whose contents the spec lists, stand in a layout of the model's own (log entry 146). -/
namespace Sys2Proof

/-- The fens that the latch areas of a save image hold (R387), whose layout the spec does not give; their ASIDs as ordinals of R393.
What a tile's header and accumulators say of them comes from the image's bytes at the restore. -/
opaque Config.imageFens : List Byte → List Machine.Fen

namespace Machine

/-! ## Pages -/

/-- The pages that the page list of a function names (R390), ascending: intermediate physical addresses. -/
def State.pageList (s : State) (m : Mig) : List Nat :=
  let runs := (upto 0 m.cnt).map (fun k =>
    let a := m.list / 16 * 16 + 16 * k
    (leNat (s.mem.getSpread a 8) / 4096, leNat (s.mem.getSpread (a + 8) 8)))
  runs.foldl (fun l r => (upto r.1 (min r.2 (2 ^ 36 - r.1))).foldl (fun l p => setAdd l (p * 4096)) l) []

/-- Where the partition's stage-2 tables put a page; none for a page they do not map and for a HOST or PEER page, which
is not streamed (R392). -/
def State.pageKey (s : State) (part ipa : Nat) : Option Nat :=
  match s.walk2 ipa 4 1 (s.root2 part) with
  | .error _ => none
  | .ok l => match l.phys ipa with
    | .error _ => none
    | .ok (t, m, pa) => if t.leaves then none else some (t.key m (pa / 4096 * 4096))

/-! ## Records (R393) -/

/-- A record: header, body, CRC-32C, padding. -/
def migRecord (kind key : Nat) (body : List Byte) : List Byte :=
  let h := toLE 2 kind ++ toLE 2 0 ++ toLE 4 body.length ++ toLE 8 key ++ body
  h ++ toLE 4 (crc32c h) ++ List.replicate ((16 - (h.length + 4) % 16) % 16) 0

/-- The ASIDs of a function, ascending: an ASID's ordinal is its place. -/
def State.fnAsids (s : State) (f : Nat) : List Nat :=
  s.dev.ctxs.foldl (fun l c => if bit c.2.toNat 47 && fld c.2.toNat 63 57 == f then setAdd l (fld c.2.toNat 79 64) else l) []

/-- The ordinal of an ASID. -/
def ordinal (as : List Nat) (a : Nat) : Nat := ((findIx (fun b => b == a) as).map (fun p => p.1)).getD 0

/-- An ASID of a tensor entry. -/
def tensorAsid (e : BitVec 512) : Nat := fld e.toNat 511 496

/-- A tensor entry under an ASID. -/
def tensorUnder (e : BitVec 512) (a : Nat) : BitVec 512 := BitVec.ofNat 512 (e.toNat % 2 ^ 496 + a % 65536 * 2 ^ 496)

/-- Kind 2: the tensor entries. -/
def State.tensorRecords (s : State) (f : Nat) : List (List Byte) :=
  ((s.fnAsids f).zipIdx).flatMap (fun a => (s.dev.tensors.filter (fun e => tensorAsid e == a.1)).map (fun e =>
    migRecord 2 a.2 (toLE 64 (tensorUnder e 0).toNat)))

/-- The 16 bytes of kind 3: REPL, OCCCAP and the launches accepted and not complete. -/
def asidBytes (repl : Bool) (cap count : Nat) : List Byte := toLE 4 (b2n repl) ++ toLE 4 cap ++ toLE 8 count

/-- REPL and OCCCAP of those bytes. -/
def asidFields (b : List Byte) : Bool × Nat := (imgAt b 0 4 != 0, imgAt b 4 4)

/-- Kind 3: the ASID contexts. The launches of an ASID are counted as OCCCAP counts them (R380). -/
def State.asidRecords (s : State) (f : Nat) : List (List Byte) :=
  ((s.fnAsids f).zipIdx).map (fun a => migRecord 3 a.2 (asidBytes (s.replayable a.1) (s.occcap a.1) (s.occupied a.1)))

/-! ## Task-table entries (R393 kind 4) -/

/-- A launch: its name and counter stand in its record and the fields behind it. -/
def launchBytes (l : Launch) : List Byte :=
  toLE 16 l.key ++ toLE 2 l.asid ++ toLE 1 l.src ++ toLE 2 l.dep ++ toLE 1 (b2n l.distributed) ++ toLE 1 (b2n l.anyTerm) ++
    toLE 8 l.left ++ toLE 8 l.remote ++ toLE 128 l.desc.toNat ++
    toLE 1 (match l.last with | none => 0 | some b => 1 + b2n b)

/-- The bytes of a launch. -/
def launchSize : Nat := 168

/-- The launch at an offset. -/
def launchAt (b : List Byte) (o : Nat) : Launch :=
  { key := imgAt b o 16, asid := imgAt b (o + 16) 2, fn := 0, part := 0, ctx := 0, desc := BitVec.ofNat 1024 (imgAt b (o + 39) 128)
    src := imgAt b (o + 18) 1, dep := imgAt b (o + 19) 2, distributed := imgAt b (o + 21) 1 != 0, left := imgAt b (o + 23) 8
    remote := imgAt b (o + 31) 8, anyTerm := imgAt b (o + 22) 1 != 0
    last := if imgAt b (o + 167) 1 = 0 then none else some (imgAt b (o + 167) 1 == 2) }

/-- A credit. -/
def creditBytes (c : Credit) : List Byte := toLE 1 c.die ++ toLE 2 c.asid ++ toLE 4 c.name ++ toLE 2 c.count

/-- The credit at an offset. -/
def creditAt (b : List Byte) (o : Nat) : Credit := ⟨imgAt b o 1, imgAt b (o + 1) 2, imgAt b (o + 3) 4, imgAt b (o + 7) 2⟩

/-- A die instance; its place in its list is its place among them and its list, and `since` is the time it has waited. -/
def instBytes (i : DieInst) : List Byte :=
  let needs := i.needs.getD []
  toLE 1 i.die ++ toLE 16 i.key ++ toLE 1 i.prio ++ toLE 8 i.since ++ toLE 4 i.tasks.length ++ toLE 1 (b2n i.needs.isSome) ++
    toLE 4 needs.length ++ i.tasks.flatMap (fun t => toLE 8 t.1 ++ toLE 1 (t.2.getD 255)) ++
    needs.flatMap (fun q => toLE 2 q.1 ++ toLE 2 q.2)

/-- The die instance at an offset, and where it ends. -/
def instAt (b : List Byte) (o : Nat) : DieInst × Nat :=
  let nt := imgAt b (o + 26) 4
  let nn := imgAt b (o + 31) 4
  let p := o + 35 + 9 * nt
  ({ die := imgAt b o 1, key := imgAt b (o + 1) 16, prio := imgAt b (o + 17) 1, since := imgAt b (o + 18) 8
     tasks := (upto 0 nt).map (fun k =>
       let q := imgAt b (o + 35 + 9 * k + 8) 1
       (imgAt b (o + 35 + 9 * k) 8, if q = 255 then none else some q))
     needs := if imgAt b (o + 30) 1 = 0 then none else some ((upto 0 nn).map (fun k => (imgAt b (p + 4 * k) 2, imgAt b (p + 4 * k + 2) 2))) },
   p + 4 * nn)

/-- The die instances that stand from an offset on. -/
def instsAt (b : List Byte) : Nat → Nat → List DieInst
  | _, 0 => []
  | o, n + 1 => let r := instAt b o; r.1 :: instsAt b r.2 n

/-- The body of kind 4. -/
def schedBytes (ls : List Launch) (cs : List Credit) (is : List DieInst) : List Byte :=
  toLE 4 ls.length ++ toLE 4 cs.length ++ toLE 4 is.length ++ ls.flatMap launchBytes ++ cs.flatMap creditBytes ++ is.flatMap instBytes

/-- The entries of such a body. -/
def schedEntries (b : List Byte) : List Launch × List Credit × List DieInst :=
  let nl := imgAt b 0 4
  let nc := imgAt b 4 4
  let oc := 12 + launchSize * nl
  ((upto 0 nl).map (fun k => launchAt b (12 + launchSize * k)), (upto 0 nc).map (fun k => creditAt b (oc + 9 * k)),
   instsAt b (oc + 9 * nc) (imgAt b 8 4))

/-- What stands in a record for a launch of the function's own module: it is own to the module that takes it. -/
def ownSrc : Nat := 255

/-- The cycles that a die instance has waited; those in which its context stood frozen do not count (R337, R381). -/
def State.waited (s : State) (f : Nat) (i : DieInst) : Nat :=
  (match s.frzOf (s.fnPart f) (s.fnCtx f) with | some z => min s.cycle z.since | none => s.cycle) - i.since

/-- Kind 4: the task-table entries of a die; an unnamed launch goes with die 0. -/
def State.schedRecord (s : State) (f d : Nat) : List Byte :=
  let as := s.fnAsids f
  migRecord 4 d (schedBytes
    ((s.hts.launches.filter (fun l => l.fn == f && (if Rec.named l.desc then Rec.hdie l.desc else 0) == d)).map
      (fun l => { l with asid := ordinal as l.asid, src := if l.src = s.dev.midx then ownSrc else l.src }))
    ((s.hts.credits.filter (fun c => c.die == d && as.contains c.asid)).map (fun c => { c with asid := ordinal as c.asid }))
    (((s.hts.insts ++ s.hts.waiting).filter (fun i => i.die == d && (s.launchOf i.key).any (fun l => l.fn == f))).map
      (fun i => { i with since := s.waited f i })))

/-- Kind 5: the records in the submission ring. -/
def State.subRecord (s : State) (f : Nat) : List Byte :=
  migRecord 5 0 ((s.hts.subs.filter (fun u => u.sub == f)).flatMap (fun u => toLE 128 u.desc.toNat))

/-- Kind 6: the save image in pieces of 4,096 bytes. -/
def State.imageRecords (s : State) (f : Nat) : List (List Byte) :=
  match s.frzOf (s.fnPart f) (s.fnCtx f) with
  | none => []
  | some z => (upto 0 (ceilDiv z.size 4096)).map (fun k =>
      migRecord 6 (4096 * k) (s.mem.getSpread (s.saveArea z.part z.ctx + 4096 * k) (min 4096 (z.size - 4096 * k))))

/-- The records that follow the pages in STOPPED. -/
def State.stopRecords (s : State) (f : Nat) : List (List Byte) :=
  s.tensorRecords f ++ s.asidRecords f ++ (upto 0 4).map (s.schedRecord f) ++ [s.subRecord f] ++ s.imageRecords f ++
    [migRecord 7 0 []]

/-! ## The source -/

/-- Forms records until a window's bytes are there: the lowest dirty page, which becomes clean before it is read; then, in
STOPPED, the other records (R392, R393). -/
def State.migFill (s : State) (f : Nat) : Nat → Mig → Mig
  | 0, m => m
  | n + 1, m =>
    if 4096 ≤ m.buf.length then m
    else match m.dirty with
      | a :: r =>
        let rec' := match s.pageKey (s.fnPart f) a with
          | some k => migRecord 1 a (s.mem.readZ k 4096)
          | none => []
        s.migFill f n { m with dirty := r, buf := m.buf ++ rec' }
      | [] =>
        if m.state ≠ 3 then m
        else match (s.stopRecords f)[m.step]? with
          | some b => s.migFill f n { m with buf := m.buf ++ b, step := m.step + 1 }
          | none => m

/-- The window is filled with the next bytes of the stream (R394). -/
def State.sleeveOut (s : State) (f : Nat) (m : Mig) : State :=
  let m := s.migFill f (m.dirty.length + 300) m
  let w := m.buf.take 4096
  s.setMig f { m with buf := m.buf.drop 4096, ofs := m.count, len := w.length, count := m.count + w.length,
                      sleeve := w ++ m.sleeve.drop w.length }

/-! ## The destination -/

/-- A tensor entry takes the place of its pair's entry, or a free one (R405). -/
def putTensor (l : List (BitVec 512)) (e : BitVec 512) : List (BitVec 512) :=
  match l with
  | [] => [e]
  | d :: r => if fld d.toNat 511 484 = fld e.toNat 511 484 then e :: r else d :: putTensor r e

/-- The launch key of a migrated launch: apart from every key of this module. -/
def migKey (f k : Nat) : Nat := 2 ^ 64 * (f + 1) + k

/-- The names and credits of a body that enter the table of a die. -/
def schedNames (e : List Launch × List Credit × List DieInst) (d : Nat) : Nat :=
  e.1.countP (fun l => Rec.named l.desc && Rec.hdie l.desc == d) + e.2.1.countP (fun c => c.die == d)

/-- A launch of the stream under the destination's function; one of the source's own is own here. -/
def State.adoptLaunch (s : State) (f : Nat) (l : Launch) : Launch :=
  { l with key := migKey f l.key, fn := f, src := if l.src = ownSrc then s.dev.midx else l.src, part := s.fnPart f, ctx := s.fnCtx f }

/-- Kind 4 at the destination; a launch of the source's own is own here. A die instance that its table has no room for waits at the
distributor (R336); names and credits that it has no room for make the record fail (DESIGN CHOICE, log entry 165). -/
def State.takeSched (s : State) (f : Nat) (body : List Byte) : Option State :=
  let as := s.fnAsids f
  let asid : Nat → Nat := fun k => (as[k]?).getD 0
  let e := schedEntries body
  if (upto 0 4).any (fun d => decide (4096 < s.htsUsed d + schedNames e d)) then none
  else
    let s := s.updHts (fun h => { h with
      launches := h.launches ++ e.1.map (fun l => s.adoptLaunch f { l with asid := asid l.asid })
      credits := h.credits ++ e.2.1.map (fun c => { c with asid := asid c.asid }) })
    some (e.2.2.foldl (fun s i =>
      let i : DieInst := { i with key := migKey f i.key, since := s.cycle - i.since }
      if s.htsUsed i.die < 4096 then s.updHts (fun h => { h with insts := h.insts ++ [i] })
      else s.updHts (fun h => { h with waiting := h.waiting ++ [i] })) s)

/-- A fen of the image under the destination's function. -/
def State.adopt (s : State) (f : Nat) (x : Fen) : Fen :=
  { x with fn := f, part := s.fnPart f, ctx := s.fnCtx f, asid := (((s.fnAsids f)[x.asid]?).getD 0), launch := migKey f x.launch }

/-- The END record: every tile that the image names is owned, and the context's fens stand saved (R393). The image names a fen's
tiles. -/
def State.takeEnd (s : State) (f : Nat) (m : Mig) : Mig × State :=
  let p := s.fnPart f
  let c := s.fnCtx f
  let named := if m.image.isEmpty then [] else imageTiles m.image
  let xs := ((Config.imageFens m.image).filter (fun x => !named.isEmpty && (x.tiles ++ x.spares).all named.contains)).map (s.adopt f)
  let tiles := named ++ xs.flatMap (fun x => x.mpts)
  if m.step ≠ 0 || !tiles.all (s.owns p) then ({ m with broken := true, err := true }, s)
  else if m.image.isEmpty || (s.frzOf p c).isSome then ({ m with ended := true }, s)
  else
    let s := s.updMem (fun h => h.putSpread (s.saveArea p c) m.image)
    ({ m with ended := true }, { s with fens := s.fens ++ xs
                                        frz := s.frz ++ [⟨p, c, .saved, s.cycle, imgAt m.image 16 8, m.image.length, none, [], [], []⟩] })

/-- Bytes put at an offset of a list. -/
def pasteAt (l : List Byte) (o : Nat) (b : List Byte) : List Byte :=
  (l ++ List.replicate (o - l.length) 0).take o ++ b ++ l.drop (o + b.length)

/-- One whole record is taken (R393); `step` counts ordinals that name no ASID here. -/
def State.takeRecord (s : State) (f : Nat) (m : Mig) (kind key : Nat) (body : List Byte) : Mig × State :=
  let as := s.fnAsids f
  if kind = 1 then
    match s.pageKey (s.fnPart f) key with
    | some k => (m, s.updMem (fun h => h.putN k (body.take 4096)))
    | none => (m, s)
  else if kind = 2 then
    match as[key]? with
    | some a => (m, s.updDev (fun d => { d with tensors := putTensor d.tensors (tensorUnder (BitVec.ofNat 512 (leNat body)) a) }))
    | none => ({ m with step := m.step + 1 }, s)
  else if kind = 3 then
    match as[key]? with
    | some a =>
      let r := asidFields body
      (m, s.updDev (fun d => { d with ctxs := d.ctxs.map (fun c =>
        if bit c.2.toNat 47 && fld c.2.toNat 79 64 == a then
          (c.1, BitVec.ofNat 128 (setFld (setFld c.2.toNat 46 46 (b2n r.1)) 31 0 r.2)) else c) }))
    | none => ({ m with step := m.step + 1 }, s)
  else if kind = 4 then
    match s.takeSched f body with
    | some t => (m, t)
    | none => ({ m with broken := true, err := true }, s)
  else if kind = 5 then
    (m, s.updHts (fun h => { h with subs := h.subs ++ (upto 0 (body.length / 128)).map (fun k =>
      let a := fld (s.func f) 87 72
      ⟨s.fnPart f, a, s.asidFn a, f, BitVec.ofNat 1024 (imgAt body (128 * k) 128)⟩) }))
  else if kind = 6 then ({ m with image := pasteAt m.image key body }, s)
  else s.takeEnd f m

/-- Takes the whole records at the head of the bytes in hand; a record whose KIND or CRC fails stops it. -/
def State.takeRecords (s : State) (f : Nat) : Nat → Mig → Mig × State
  | 0, m => (m, s)
  | n + 1, m =>
    if m.buf.length < 16 || m.ended || m.broken then (m, s)
    else
      let kind := imgAt m.buf 0 2
      let body := imgAt m.buf 4 4
      let whole := (20 + body + 15) / 16 * 16
      if kind = 0 ∨ 7 < kind then ({ m with broken := true, err := true }, s)
      else if m.buf.length < whole then (m, s)
      else if crc32c (m.buf.take (16 + body)) ≠ imgAt m.buf (16 + body) 4 then ({ m with broken := true, err := true }, s)
      else
        let r := s.takeRecord f { m with buf := m.buf.drop whole } kind (imgAt m.buf 8 8) ((m.buf.drop 16).take body)
        r.2.takeRecords f n r.1

/-- The window is consumed (R394). -/
def State.sleeveIn (s : State) (f : Nat) (m : Mig) : State :=
  if m.broken || m.ofs != m.count then s.setMig f { m with err := true }
  else
    let n := min m.len 4096
    let w := (m.sleeve ++ List.replicate 4096 0).take n
    let r := s.takeRecords f (m.buf.length + n) { m with buf := m.buf ++ w, count := m.count + n }
    r.2.setMig f r.1

/-! ## The events -/

/-- A register of a function's migration page is reached: not before release (R412), and not for the physical function,
which has none. -/
def onMigPage (fn : BitVec 7) (s : State) (k : Nat → Mig → State) : Out :=
  if !s.boot.rel || fn == 0 then .next s else .next (k fn.toNat (s.mig fn.toNat))

/-- A request or a sleeve operation is refused. -/
def State.migRefuse (s : State) (f : Nat) : State := s.setMig f { s.mig f with err := true }

/-- The stream stands at its beginning. -/
def Mig.clear (m : Mig) : Mig :=
  { m with pages := [], dirty := [], buf := [], count := 0, step := 0, ended := false, broken := false, image := [] }

/-- The function has a task placed, held, frozen or ready. -/
def State.hasTasks (s : State) (f : Nat) : Bool :=
  s.fens.any (fun x => x.live && x.fn == f) || s.hts.launches.any (fun l => l.fn == f)

/-- MIGCTL REQ 1. -/
def State.migPre (s : State) (f : Nat) (m : Mig) : State :=
  if m.state ≠ 0 then s.migRefuse f
  else
    let ps := s.pageList m
    (s.setMig f { m.clear with pages := ps, dirty := ps }).migState f 1

/-- MIG_PRE_COPY (R391): RUNNING to PRE_COPY: every listed page is dirty and tracked from here. -/
def execMigPreCopy (fn : BitVec 7) (s : State) : Out := onMigPage fn s (fun f m => s.migPre f m)

/-- MIGCTL REQ 2. -/
def State.migStop (s : State) (f : Nat) (m : Mig) : State :=
  if 2 ≤ m.state then s.migRefuse f
  else
    let p := s.fnPart f
    let c := s.fnCtx f
    let s := (if m.state = 0 then s.setMig f m.clear else s).migState f 2
    match s.frzOf p c with
    | some z => if z.st = .saved then s.migStopped p c else s
    | none => s.freeze p c none

/-- MIG_STOP (R391): RUNNING or PRE_COPY to STOPPING; the context is frozen at once and saved, or keeps its save; with the
save there, STOPPED. -/
def execMigStop (fn : BitVec 7) (s : State) : Out := onMigPage fn s (fun f m => s.migStop f m)

/-- MIGCTL REQ 0. -/
def State.migRun (s : State) (f : Nat) (m : Mig) : State :=
  if m.state = 1 ∨ m.state = 3 ∨ (m.state = 4 ∧ m.ended ∧ !m.broken) then
    ((s.setMig f m.clear).migState f 0).wakeSlice (s.fnPart f)
  else s.migRefuse f

/-- MIG_RUN (R391): PRE_COPY or STOPPED to RUNNING, the stream abandoned; RESUMING to RUNNING after an END record with every
check passed. -/
def execMigRun (fn : BitVec 7) (s : State) : Out := onMigPage fn s (fun f m => s.migRun f m)

/-- MIGCTL REQ 4. -/
def State.migResume (s : State) (f : Nat) (m : Mig) : State :=
  if m.state ≠ 0 ∨ s.hasTasks f then s.migRefuse f else (s.setMig f m.clear).migState f 4

/-- MIG_RESUME (R391): RUNNING to RESUMING, for a function with no task. -/
def execMigResume (fn : BitVec 7) (s : State) : Out := onMigPage fn s (fun f m => s.migResume f m)

/-- SLVCMD GO. -/
def State.sleeveGo (s : State) (f : Nat) (m : Mig) : State :=
  if m.state = 1 ∨ m.state = 3 then s.sleeveOut f m
  else if m.state = 4 then s.sleeveIn f m
  else s.migRefuse f

/-- SLEEVE_GO (R394): the source fills the window, the destination consumes it; elsewhere ERR. -/
def execSleeveGo (fn : BitVec 7) (s : State) : Out := onMigPage fn s (fun f m => s.sleeveGo f m)

end Machine
end Sys2Proof
end

