-- ==== Sys2Proof/Machine/Regs.lean ====
section
/-! DEFINITION. What the host reads in BAR0 of a function (R3, R4, R372 to R377, R390, R403, R404, R409, R410). Reserved fields and
write-only registers read zero (R3, R4), and so does every offset that names nothing. -/
namespace Sys2Proof.Machine

/-! ## Function pages (R404) -/

/-- A register of a record ring: base, TAIL, HEAD. -/
def RingRegs.read (r : RingRegs) (k : Nat) : Nat :=
  if k = 0 then r.addr + r.log2n else if k = 1 then r.tail else if k = 2 then r.head else 0

/-- The 8 bytes at an offset of a function page. QPORT and FRSEQ are write-only. -/
def FnPage.read (p : FnPage) (ofs : Nat) : Nat :=
  if 0x80 ≤ ofs ∧ ofs < 0x98 then p.fr.read ((ofs - 0x80) / 8)
  else if ofs = 0x98 then b2n p.term
  else if 0xC0 ≤ ofs ∧ ofs < 0xD8 then p.er.read ((ofs - 0xC0) / 8)
  else if ofs = 0x100 then p.twOp * 2 ^ 62 + b2n p.twBusy * 2 ^ 61 + b2n p.twFail * 2 ^ 60 + p.twTnum * 2 ^ 32 + p.twAsid
  else if 0x140 ≤ ofs ∧ ofs < 0x180 then fld p.twData.toNat (8 * (ofs - 0x140) + 63) (8 * (ofs - 0x140))
  else if ofs = 0x180 then p.invKind * 2 ^ 61 + b2n p.invBusy * 2 ^ 60 + p.invId
  else if ofs = 0x188 then p.invAddr
  else if ofs = 0x190 then p.invLen
  else if ofs = 0x1C0 then p.cecnt * 2 ^ 32 + p.elost * 2 ^ 16 + b2n p.err
  else 0

/-! ## The physical function (R403) -/

/-- Half of a 128-bit entry: the low one or the high one. -/
def halfOf (w : Nat) (high : Bool) : Nat := if high then fld w 127 64 else fld w 63 0

/-- A management register (R409). -/
def State.mgmtRead (s : State) (ofs : Nat) : Nat :=
  let d := s.dev
  if ofs = 0x5100 then s.boot.step * 2 ^ 56 + s.boot.fail * 2 ^ 48 + b2n s.boot.rel * 2 ^ 12 + s.boot.portup
  else if ofs = 0x5108 then d.pwrcap
  else if ofs = 0x5110 then d.therm.toNat
  else if ofs = 0x5118 then d.hdmSize * 2 ^ 16 + d.hdmBase
  else if ofs = 0x5120 then d.gm1 * 256 + d.midx
  else if 0x5140 ≤ ofs ∧ ofs < 0x51A0 then tabGet d.portmod ((ofs - 0x5140) / 8) 0
  else 0

/-- What an owner byte covers (R375, R403): a tile, or a lane; none for a byte that names nothing. -/
def ownedAt (o : Nat) : Option (Tile × Option Lane) :=
  let q := o % 0x8000 / 128
  let t : Tile := ⟨o / 0x8000, q / 10, q % 10⟩
  let item := o % 128
  let edgeRow := t.row == 0 || t.row == 17
  let edgeCol := t.col == 0 || t.col == 9
  let lane : Lane → Option (Tile × Option Lane) := fun l => if l.next.isSome then some (t, some l) else none
  if 180 ≤ q ∨ 4 ≤ t.die then none
  else if item = 0 then (if edgeRow && edgeCol then none else some (t, none))
  else if item < 33 then lane ⟨t, 1, (item - 1) / 8, (item - 1) % 8⟩
  else if item < 97 then lane ⟨t, 2, (item - 33) / 16, (item - 33) % 16⟩
  else none

/-- One owner byte: the field, or zero where it names nothing. -/
def State.ownerRead (s : State) (o : Nat) : Nat := if (ownedAt o).isSome then s.owner o else 0

/-- A register of a migration page (R390): MIGCTL is write-only. -/
def Mig.read (m : Mig) (ofs : Nat) : Nat :=
  if ofs = 0x08 then m.dirty.length % 2 ^ 32 * 2 ^ 32 + b2n m.err * 8 + m.state
  else if ofs = 0x10 then m.ofs
  else if ofs = 0x18 then m.len
  else if ofs = 0x28 then m.list
  else if ofs = 0x30 then m.cnt
  else if 0x1000 ≤ ofs then imgAt m.sleeve (ofs - 0x1000) 8
  else 0

/-- The 8 bytes at an offset of the physical function's space behind its function page (R403). -/
def State.physRead (s : State) (ofs : Nat) : Nat :=
  let high := ofs % 16 == 8
  if 0x2000 ≤ ofs ∧ ofs < 0x2800 then halfOf (s.func ((ofs - 0x2000) / 16)) high
  else if 0x3000 ≤ ofs ∧ ofs < 0x5000 then halfOf (tabGet s.dev.ctxs ((ofs - 0x3000) / 16) 0#128).toNat high
  else if 0x5000 ≤ ofs ∧ ofs < 0x5080 then s.part ((ofs - 0x5000) / 8)
  else if 0x5100 ≤ ofs ∧ ofs < 0x5200 then s.mgmtRead ofs
  else if 0x6000 ≤ ofs ∧ ofs < 0x6400 then halfOf (tabGet s.dev.imports ((ofs - 0x6000) / 16) 0#128).toNat high
  else if 0x8000 ≤ ofs ∧ ofs < 0x28000 then
    (upto 0 8).foldl (fun v k => v + s.ownerRead (ofs - 0x8000 + k) * 256 ^ k) 0
  else if 0x102000 ≤ ofs ∧ ofs < 0x200000 then (s.mig ((ofs - 0x100000) / 0x2000)).read ((ofs - 0x100000) % 0x2000)
  else 0

/-- The 8 bytes at an offset of BAR0 of a function: of a virtual function its page alone. -/
def State.barRead (s : State) (f ofs : Nat) : Nat :=
  if ofs < 0x2000 then (s.page f).read ofs else if f = 0 then s.physRead ofs else 0

/-- The host reads 8 bytes of BAR0: before release only BOOTSTAT answers (R412). -/
def State.hostReads (s : State) (f ofs : Nat) : State :=
  let o := ofs / 8 * 8
  if s.boot.rel || (f == 0 && o == 0x5100) then s.answer (.value (BitVec.ofNat 64 (s.barRead f o))) else s.answer .unsupported

end Sys2Proof.Machine
end

