-- ==== Sys2Proof/Machine/Host.lean ====
section
/-! DEFINITION. The host and the peers: device registers (R372 to R377, R390, R403 to R410), fault verdicts (R406), tensor
windows (R405), invalidations (R407), host and peer accesses (R408, R410), ports that go down (R411), SPDM (R414). -/
namespace Sys2Proof.Machine

/-! ## Registers -/

/-- A register is reached: not before release (R412). -/
def onBar (s : State) (k : State) : Out := .next (if s.boot.rel then k else s)

/-- A register operation is refused: ERR of the function's page (R404). -/
def State.barErr (s : State) (f : Nat) : State := s.updPage f (fun p => { p with err := true })

/-- The function has a task placed, held or frozen. -/
def State.fnBusy (s : State) (f : Nat) : Bool :=
  s.fens.any (fun x => x.live && x.fn == f) || s.hts.launches.any (fun l => l.fn == f && Rec.named l.desc && l.dep != 0)

/-- Some task is placed, held or frozen. -/
def State.anyBusy (s : State) : Bool := (upto 0 128).any s.fnBusy

/-! ## Fault verdicts (R321, R406) -/

/-- A write of FRSEQ: the verdict in TERM for the pending fault that it names; held while the fault's context is frozen
(R385). -/
def State.frseq (s : State) (f sq : Nat) : State :=
  match s.xl.pending.find? (fun p => p.seq == sq && p.fn == f && p.repl && p.verdict.isNone) with
  | none => s.barErr f
  | some _ =>
    let t := (s.page f).term
    if s.frozen (s.fnPart f) (s.fnCtx f) then
      { s with xl := { s.xl with pending := s.xl.pending.map (fun q =>
        if q.seq == sq && q.repl then { q with verdict := some t } else q) } }
    else s.giveVerdict sq t

/-- FAULT_VERDICT (R321, R406). -/
def execFaultVerdict (fn : BitVec 7) (seq : BitVec 64) (s : State) : Out := onBar s (s.frseq fn.toNat seq.toNat)

/-! ## The tensor window (R405) -/

/-- The pair (ASID, TNUM) of an entry. -/
def tensorPair (e : BitVec 512) : Nat := fld e.toNat 511 484

/-- An operation of TWCTL: 1 writes, 2 reads, 3 removes the entry of the pair; refused when the ASID is not the function's
or no entry is free. It ends with BUSY 0. -/
def State.tensorOp (s : State) (f op asid tnum : Nat) : State :=
  let s := s.updPage f (fun p => { p with twOp := op, twAsid := asid, twTnum := tnum, twBusy := false })
  let pair := asid * 4096 + tnum
  let held := s.dev.tensors.find? (fun e => tensorPair e == pair)
  if op = 0 then s
  else if (s.asidCtx asid).isNone || s.asidFn asid != f || (op == 1 && held.isNone && decide (16384 ≤ s.dev.tensors.length)) then
    (s.barErr f).updPage f (fun p => { p with twFail := true })
  else
    let s := s.updPage f (fun p => { p with twFail := false })
    if op = 1 then
      let e := BitVec.ofNat 512 ((s.page f).twData.toNat % 2 ^ 484 + pair * 2 ^ 484)
      s.updDev (fun d => { d with tensors := putTensor d.tensors e })
    else if op = 2 then s.updPage f (fun p => { p with twData := held.getD 0 })
    else s.updDev (fun d => { d with tensors := d.tensors.filter (fun e => tensorPair e != pair) })

/-- An operation is refused because another is in progress (R405). -/
def State.tensorBusy (s : State) (f : Nat) : State := (s.barErr f).updPage f (fun p => { p with twFail := true })

/-- A write of TWCTL starts its operation: BUSY is 1 until it is performed. Written while BUSY is 1 it is refused. -/
def State.tensorStart (s : State) (f op asid tnum : Nat) : State :=
  if (s.page f).twBusy then s.tensorBusy f
  else s.updPage f (fun p => { p with twOp := op, twAsid := asid, twTnum := tnum, twBusy := op != 0 })

/-- The operation that TWCTL names is performed, in one step with its write or after it; another operation than the one in
progress is a write while BUSY is 1 (log entry 106). -/
def State.tensorDo (s : State) (f op asid tnum : Nat) : State :=
  let p := s.page f
  if p.twBusy && !(p.twOp == op && p.twAsid == asid && p.twTnum == tnum) then s.tensorBusy f else s.tensorOp f op asid tnum

/-- TW_WRITE (R405). -/
def execTwWrite (fn : BitVec 7) (asid : BitVec 16) (tnum : BitVec 12) (s : State) : Out :=
  onBar s (s.tensorDo fn.toNat 1 asid.toNat tnum.toNat)

/-- TW_READ (R405). -/
def execTwRead (fn : BitVec 7) (asid : BitVec 16) (tnum : BitVec 12) (s : State) : Out :=
  onBar s (s.tensorDo fn.toNat 2 asid.toNat tnum.toNat)

/-- TW_REMOVE (R405). -/
def execTwRemove (fn : BitVec 7) (asid : BitVec 16) (tnum : BitVec 12) (s : State) : Out :=
  onBar s (s.tensorDo fn.toNat 3 asid.toNat tnum.toNat)

/-! ## Invalidations (R151, R316, R407) -/

/-- What an invalidation covers: kind, ID, first address, pages. -/
structure Inval where
  kind  : Nat
  id    : Nat
  from' : Nat
  pages : Nat
  deriving DecidableEq, Repr

/-- An address range of some bytes meets the pages. -/
def Inval.meets (v : Inval) (a n : Nat) : Bool := decide (a < v.from' + 4096 * v.pages) && decide (v.from' < a + n)

/-- A combined translation is removed. -/
def Inval.takes (v : Inval) (t : Tlb) : Bool :=
  if v.kind = 1 then t.asid == v.id && v.meets t.va t.size
  else if v.kind = 2 then t.asid == v.id
  else if v.kind = 3 then t.part == v.id && v.meets t.ipa t.size
  else if v.kind = 4 then t.part == v.id
  else true

/-- A walker-cache entry is removed. -/
def Inval.takesWalk (v : Inval) (c : WalkCache) : Bool :=
  if v.kind ≤ 2 then false
  else if v.kind = 3 then c.part == v.id && v.meets (c.ipa * 4096) 4096
  else if v.kind = 4 then c.part == v.id
  else true

/-- Accesses under an ASID of a partition can use a translation that is removed. -/
def Inval.concerns (v : Inval) (asid part : Nat) : Bool :=
  if v.kind ≤ 2 then asid == v.id else if v.kind ≤ 4 then part == v.id else true

/-- A held translation of one access, n bytes at va under an ASID of a partition, is removed. -/
def Inval.takesHeld (v : Inval) (asid part : Nat) (ph : Phys) (va n : Nat) : Bool :=
  ph.typ != .scratch && v.concerns asid part &&
  (if v.kind = 1 then v.meets va n else if v.kind = 3 then v.meets ph.ipa n else true)

/-- The translations that a block holds for accesses it performs later (R151): its stores', its non-revocable instruction's
location and the pieces of its element, each with its address and length. -/
def Core.held (c : Core) : List (Phys × Nat × Nat) :=
  c.effs.filterMap (fun e => match e.2 with
    | .store ph va bs => some (ph, va, bs.length)
    | _ => none) ++
  (match c.prep with
   | some p => (p.ph, p.a.toNat, 64) :: p.elem.zipIdx.map (fun q => (q.1, p.b.toNat + 8 * q.2, 8))
   | none => [])

/-- A read issued ahead of its turn, at `va`, goes under a translation that is removed. -/
def Inval.takesSent (v : Inval) (x : Fen) (home : Option Phys) (va : Nat) : Bool :=
  home.any (fun ph => v.takesHeld x.asid x.part ph va 16)

/-- Such a read of the fen's engines or nodes has not come back (R316). -/
def Fen.sentHit (x : Fen) (v : Inval) : Bool :=
  x.ports.any (fun p => p.cmds.any (fun c => c.early.any (fun h => h.got.isNone && v.takesSent x h.home h.va))) ||
  x.mantles.any (fun o => o.any (fun m => m.nodes.any (fun n => n.mem.win.any (fun e =>
    e.got.isNone && v.takesSent x e.home (e.addr.toNat + e.off)))))

/-- The data of such reads stays as it came: they go under the translation no more. -/
def Fen.unsend (x : Fen) (v : Inval) : Fen :=
  { x with
    ports := x.ports.map (fun p => { p with cmds := p.cmds.map (fun c =>
      { c with early := c.early.map (fun h => if v.takesSent x h.home h.va then { h with home := none } else h) }) })
    mantles := x.mantles.map (fun o => o.map (fun m => { m with nodes := m.nodes.map (fun n =>
      { n with mem := { n.mem with win := n.mem.win.map (fun e =>
        if v.takesSent x e.home (e.addr.toNat + e.off) then { e with home := none } else e) } }) })) }

/-- A block of the fen holds a translation that an invalidation removes. -/
def Fen.holdsHit (x : Fen) (v : Inval) : Bool := x.core.held.any (fun h => v.takesHeld x.asid x.part h.1 h.2.1 h.2.2)

/-- Blocks that hold such a translation and are not past their point of no return are discarded. -/
def State.invDrop (s : State) (v : Inval) : State :=
  { s with fens := s.fens.map (fun x =>
      if x.live && x.holdsHit v && !x.core.bound then { x with core := x.core.fresh } else x) }

/-- A write of INVCTL: an invalidation starts (R407). -/
def State.invStart (s : State) (f : Nat) (kind id : Nat) : State :=
  let p := s.page f
  let ok := if kind = 1 ∨ kind = 2 then (s.asidCtx id).isSome && s.asidFn id == f else decide (3 ≤ kind ∧ kind ≤ 5) && f == 0
  if p.invBusy || !ok then s.barErr f
  else
    let v : Inval := ⟨kind, if kind = 3 ∨ kind = 4 then id % 16 else id, p.invAddr, p.invLen⟩
    let s := s.updPage f (fun p => { p with invKind := kind, invId := id, invBusy := true, invFrom := p.invAddr, invPages := p.invLen })
    ({ s with xl := { s.xl with walks := s.xl.walks.map (fun w : Walk =>
        if w.running && v.concerns w.asid w.part then { w with stale := true } else w) } }).invDrop v

/-- INV_VA (R407 kind 1). -/
def execInvVa (fn : BitVec 7) (asid : BitVec 16) (s : State) : Out := onBar s (s.invStart fn.toNat 1 asid.toNat)
/-- INV_ASID (R407 kind 2). -/
def execInvAsid (fn : BitVec 7) (asid : BitVec 16) (s : State) : Out := onBar s (s.invStart fn.toNat 2 asid.toNat)
/-- INV_IPA (R407 kind 3). -/
def execInvIpa (fn : BitVec 7) (part : BitVec 16) (s : State) : Out := onBar s (s.invStart fn.toNat 3 part.toNat)
/-- INV_PART (R407 kind 4). -/
def execInvPart (fn : BitVec 7) (part : BitVec 16) (s : State) : Out := onBar s (s.invStart fn.toNat 4 part.toNat)
/-- INV_ALL (R407 kind 5). -/
def execInvAll (fn : BitVec 7) (s : State) : Out := onBar s (s.invStart fn.toNat 5 0)

/-- Every access under a translation that is removed has been performed: no committing block holds one, no read issued ahead is
without its data, no access is outside the module, no announced contribution waits, no request is on its way (R316). -/
def State.invDone (s : State) (v : Inval) : Bool :=
  let fen : Nat → Bool := fun f => (s.fens[f]?).any (fun x => v.concerns x.asid x.part)
  s.fens.all (fun x => !(x.core.bound && x.holdsHit v) && !x.sentHit v) &&
  s.xl.ext.all (fun e => e.resp.isSome || !v.concerns e.asid (s.fnPart (s.asidFn e.asid))) &&
  s.reds.all (fun r => r.anns.all (fun a => !fen a.fen)) &&
  s.net.packets.all (fun q => q.resp || !(q.src.fen).any fen)

/-- INV_COMPLETE (R316, R407): until here an access can meet the old entry or, once a holder has lost it, the new one. The
translations are removed, and with them the replicas of lines (R308), of which an EMT may give up any; BUSY clears and vector 2 is
signalled. -/
def execInvComplete (fn : BitVec 7) (s : State) : Out :=
  let f := fn.toNat
  let p := s.page f
  let v : Inval := ⟨p.invKind, if p.invKind = 3 ∨ p.invKind = 4 then p.invId % 16 else p.invId, p.invFrom, p.invPages⟩
  let s1 := s.invDrop v
  if !p.invBusy || !s1.invDone v then .next s
  else .next (({ s1 with fens := s1.fens.map (fun x : Fen => x.unsend v)
                         xl := { s1.xl with tlbs := s1.xl.tlbs.filter (fun t => !v.takes t)
                                            wcache := s1.xl.wcache.filter (fun c => !v.takesWalk c) },
                         emt := { s1.emt with replicas := [] } }.updPage f
    (fun p => { p with invBusy := false })).message f 2)

/-! ## Writes of registers without a row of their own (R4, R372 to R377, R390, R403 to R410) -/

/-- Half of a 128-bit entry replaced: the low one or the high one. -/
def half (w : Nat) (high : Bool) (v : Nat) : Nat := if high then setFld w 127 64 v else setFld w 63 0 v

/-- A register of a record ring: base, HEAD. -/
def RingRegs.write (r : RingRegs) (k v : Nat) : RingRegs :=
  if k = 0 then { r with addr := fld v 63 12 * 4096, log2n := max 4 (v % 16) }
  else if k = 2 then { r with head := v % 2 ^ 32 }
  else r

/-- A write to a function page (R404). A plain write to the queue port is discarded (R379). -/
def State.pageWrite (s : State) (f ofs v : Nat) : State :=
  if ofs = 0x80 ∨ ofs = 0x90 then
    let s := s.updPage f (fun p => { p with fr := p.fr.write ((ofs - 0x80) / 8) v })
    s.drainHeld f (s.page f).heldRec.length
  else if ofs = 0x98 then s.updPage f (fun p => { p with term := bit v 0 })
  else if ofs = 0xA0 then s.frseq f v
  else if 0xC0 ≤ ofs ∧ ofs < 0xD8 then s.updPage f (fun p => { p with er := p.er.write ((ofs - 0xC0) / 8) v })
  else if ofs = 0x100 then s.tensorStart f (fld v 63 62) (v % 65536) (fld v 43 32)
  else if 0x140 ≤ ofs ∧ ofs < 0x180 then
    let k := ofs - 0x140
    s.updPage f (fun p => { p with twData := BitVec.ofNat 512 (setFld p.twData.toNat (8 * k + 63) (8 * k) v) })
  else if ofs = 0x180 then s.invStart f (fld v 63 61) (v % 65536)
  else if ofs = 0x188 then s.updPage f (fun p => { p with invAddr := fld v 47 12 * 4096 })
  else if ofs = 0x190 then s.updPage f (fun p => { p with invLen := v % 2 ^ 32 })
  else if ofs = 0x1C0 then s.updPage f (fun p => { p with err := p.err && !bit v 0 })
  else s

/-- A write to a function entry (R372): ignored when it changes PART, CTX or SAVE of a function with a task. -/
def State.funcWrite (s : State) (g : Nat) (high : Bool) (v : Nat) : State :=
  let old := s.func g
  let w := half old high v
  let cap := if 6 ≤ fld w 6 4 then 5 else fld w 6 4
  let new := fld w 127 72 * 2 ^ 72 + fld w 15 7 * 128 + cap * 16 + w % 2
  let same := fld new 127 88 == fld old 127 88 && fld new 15 7 == fld old 15 7
  if s.fnBusy g && !same then s else s.updDev (fun d => { d with funcs := tabSet d.funcs g (BitVec.ofNat 128 new) })

/-- A write to an ASID context (R373): ignored when it would make a second valid context of one ASID. -/
def State.ctxWrite (s : State) (slot : Nat) (high : Bool) (v : Nat) : State :=
  let w := half (tabGet s.dev.ctxs slot 0#128).toNat high v
  let new := fld w 127 88 * 2 ^ 88 + fld w 79 57 * 2 ^ 57 + fld w 47 46 * 2 ^ 46 + w % 2 ^ 32
  if bit new 47 && s.dev.ctxs.any (fun c => c.1 != slot && bit c.2.toNat 47 && fld c.2.toNat 79 64 == fld new 79 64) then s
  else s.updDev (fun d => { d with ctxs := tabSet d.ctxs slot (BitVec.ofNat 128 new) })

/-- A write to a partition entry (R377). -/
def State.partWrite (s : State) (p v : Nat) : State :=
  let slice := min 1000 (max 1 (fld v 63 48))
  let new := slice * 2 ^ 48 + max 9 (fld v 39 32) * 2 ^ 32 + fld v 31 16 * 2 ^ 16 + max 1 (fld v 15 8) * 256 + v % 2
  s.updDev (fun d => { d with parts := tabSet d.parts p (BitVec.ofNat 64 new) })

/-- A write to a management register (R409). -/
def State.mgmtWrite (s : State) (ofs v : Nat) : State :=
  if ofs = 0x5108 then s.updDev (fun d => { d with pwrcap := min 1800 (max 1200 (v % 65536)) })
  else if ofs = 0x5118 then
    (if s.dev.hdmLock then s.barErr 0
     else s.updDev (fun d => { d with hdmSize := min 256 (fld v 24 16), hdmBase := v % 1024 }))
  else if ofs = 0x5120 then
    (if s.anyBusy then s else s.updDev (fun d => { d with gm1 := fld v 13 8, midx := v % 64 }))
  else if 0x5140 ≤ ofs ∧ ofs < 0x51A0 then
    (if s.anyBusy then s else s.updDev (fun d => { d with portmod := tabSet d.portmod ((ofs - 0x5140) / 8) (v % 128) }))
  else s

/-- A write to an import entry (R410). -/
def State.importWrite (s : State) (k : Nat) (high : Bool) (v : Nat) : State :=
  let w := half (tabGet s.dev.imports k 0#128).toNat high v
  let new := fld w 127 50 * 2 ^ 50 + fld w 3 2 * 4 + w % 2
  s.updDev (fun d => { d with imports := tabSet d.imports k (BitVec.ofNat 128 new) })

/-- The fen holds a tile, or a route of one of its mantles uses a lane, or the seep lane that shares its owner field (R375). -/
def Fen.uses (x : Fen) (t : Tile) (l : Option Lane) : Bool :=
  match l with
  | none => x.holds t || x.mpts.contains t || x.spares.contains t
  | some l => x.mantles.any (fun m => match m with
    | some m => m.lanes.any (fun k => k.paired == l)
    | none => false)

/-- A write to one owner byte. -/
def State.ownerWrite (s : State) (o v : Nat) : State :=
  match ownedAt o with
  | none => s
  | some (t, l) =>
    if s.fens.any (fun x => x.live && x.uses t l) then s
    else s.updDev (fun d => { d with owners := tabSet d.owners o (v % 32) })

/-- A write to a migration page (R390). -/
def State.migWrite (s : State) (f ofs v : Nat) : State :=
  let m := s.mig f
  if ofs = 0 then
    (if v % 8 = 0 then s.migRun f m else if v % 8 = 1 then s.migPre f m else if v % 8 = 2 then s.migStop f m
     else if v % 8 = 4 then s.migResume f m else s.migRefuse f)
  else if ofs = 8 then s.setMig f { m with err := m.err && !bit v 3 }
  else if ofs = 0x10 then s.setMig f { m with ofs := v }
  else if ofs = 0x18 then s.setMig f { m with len := v % 8192 }
  else if ofs = 0x20 then (if bit v 0 then s.sleeveGo f m else s)
  else if ofs = 0x28 then (if m.state = 0 then s.setMig f { m with list := v } else s.migRefuse f)
  else if ofs = 0x30 then (if m.state = 0 then s.setMig f { m with cnt := v % 65536 } else s.migRefuse f)
  else if 0x1000 ≤ ofs then s.setMig f { m with sleeve := pasteAt m.sleeve (ofs - 0x1000) (toLE 8 v) }
  else s

/-- A write to the rest of the physical function's space (R403). -/
def State.physWrite (s : State) (ofs v : Nat) : State :=
  let high := ofs % 16 == 8
  if 0x2000 ≤ ofs ∧ ofs < 0x2800 then s.funcWrite ((ofs - 0x2000) / 16) high v
  else if 0x3000 ≤ ofs ∧ ofs < 0x5000 then s.ctxWrite ((ofs - 0x3000) / 16) high v
  else if 0x5000 ≤ ofs ∧ ofs < 0x5080 then s.partWrite ((ofs - 0x5000) / 8) v
  else if 0x5100 ≤ ofs ∧ ofs < 0x5200 then s.mgmtWrite ofs v
  else if 0x6000 ≤ ofs ∧ ofs < 0x6400 then s.importWrite ((ofs - 0x6000) / 16) high v
  else if 0x8000 ≤ ofs ∧ ofs < 0x28000 then
    (upto 0 8).foldl (fun s k => s.ownerWrite (ofs - 0x8000 + k) (v / 256 ^ k)) s
  else if 0x102000 ≤ ofs then s.migWrite ((ofs - 0x100000) / 0x2000) ((ofs - 0x100000) % 0x2000) v
  else s

/-- REGISTER_WRITE (R4, R403): a 64-bit write to BAR0 of a function, at the 8-byte unit of the offset. -/
def execRegisterWrite (fn : BitVec 7) (ofs : BitVec 21) (val : BitVec 64) (s : State) : Out :=
  let o := ofs.toNat / 8 * 8
  onBar s (if o < 0x2000 then s.pageWrite fn.toNat o val.toNat
           else if fn = 0#7 then s.physWrite o val.toNat else s)

/-! ## Host and peer accesses (R408, R410) -/

/-- A write that another party makes at the home EMTs of spread lines; tracking does not see it (R392). -/
def State.foreignWrite (s : State) (pa : Nat) (bs : List Byte) : State :=
  let ls := (upto 0 bs.length).map (fun k => keySpread (pa + k) / 128)
  (s.updMem (fun m => m.putSpread pa bs)).updEmt (fun e => { e with lines := e.lines.map (fun l =>
    if ls.contains l.line then { l with owner := 0, dirty := true } else l) })

/-- A byte of the range is reserved by a granted claim (R161). -/
def State.foreignHeld (s : State) (pa n : Nat) : Bool :=
  (upto 0 n).any (fun k => s.reserved ⟨none, 3, ⟨0, 0, 0⟩, 0, 0, 0, 0⟩ (keySpread (pa + k)) 1)

/-- The function that a corrected error at a spread line is charged to (R416): the owner of the line's last write where its EMT holds
it, else the physical function. -/
def State.ownerFn (s : State) (line : Nat) : Nat :=
  match s.emt.lines.find? (fun l => l.line == line) with
  | some l => s.asidFn l.owner
  | none => 0

/-- A read at the home: a unit that its check corrects is corrected and counted (R416); uncorrectable bytes are poison and read as
zero. Answers the bytes and whether some are poison. -/
def State.foreignRead (s : State) (pa n : Nat) : (List Byte × Bool) × State :=
  let ks := (upto 0 n).map (fun k => keySpread (pa + k))
  let good := ((s.mem.fixed.filter ks.contains).map s.mem.unitOf).eraseDups
  let t := good.foldl (fun s u => s.updPage (s.ownerFn (u / 128)) (fun q => { q with cecnt := min (q.cecnt + 1) 0xFFFFFFFF })) s
  ((ks.map (fun k => if s.mem.poison.contains k then 0 else s.mem.get k), ks.any s.mem.poison.contains),
   if good.isEmpty then s else t.updMem (fun m => { m with fixed := m.fixed.filter (fun k => !good.contains (m.unitOf k)) }))

/-- Length of an access. -/
def extLen : ExtOp → Nat
  | .read n => n
  | .write b => b.length
  | .rmw _ w32 _ _ => syncBytes w32

/-- The new value of a read-modify-write (R170): the operation by its code, from the old value, v and e. -/
def rmwOp (op w old v e : Nat) : Nat :=
  if op = 0 then (if old = e then v else old)
  else if op = 1 then (old + v) % 2 ^ (8 * w)
  else if op = 2 then old &&& v
  else if op = 3 then old ||| v
  else if op = 4 then old ^^^ v
  else if op = 5 then (if sx (8 * w) v < sx (8 * w) old then v else old)
  else if op = 6 then (if sx (8 * w) old < sx (8 * w) v then v else old)
  else if op = 7 then min old v
  else if op = 8 then max old v
  else v

/-- An access at spread offset pa, with its answer: a write and a read-modify-write wait while a granted claim reserves the place
(R161); a read-modify-write of uncorrectable bytes writes nothing (R170). -/
def State.foreign (s : State) (pa : Nat) (op : ExtOp) : State :=
  match op with
  | .read n =>
    let r := s.foreignRead pa n
    r.2.answer (.data r.1.1 r.1.2)
  | .write bs => if s.foreignHeld pa bs.length then s else s.foreignWrite pa bs
  | .rmw k w32 b d =>
    let w := syncBytes w32
    if s.foreignHeld pa w then s
    else
      let r := s.foreignRead pa w
      let t := r.2.answer (.data r.1.1 r.1.2)
      if r.1.2 then t
      else t.foreignWrite pa (toLE w (rmwOp k w (leNat r.1.1) (b.toNat % 2 ^ (8 * w)) (d.toNat % 2 ^ (8 * w))))

/-- HOST_MEM_ACCESS (R408): the access at an HDM offset. -/
def execHostMemAccess (ofs : Nat) (op : ExtOp) (s : State) : Out :=
  let pa := s.dev.hdmBase * 2 ^ 30 + ofs
  if !s.boot.rel then .next s
  else if s.dev.hdmSize * 2 ^ 30 < ofs + extLen op ∨ MemType.limit .spread < pa + extLen op then .fault .outsideHdm
  else .next (s.foreign pa op)

/-- The valid import entry of a source, lowest first (R410). -/
def State.importOf (s : State) (mod part : Nat) : Option Nat :=
  (upto 0 64).findSome? (fun k =>
    let e := (tabGet s.dev.imports k 0#128).toNat
    if bit e 0 && fld e 63 58 == mod && fld e 57 54 == part then some e else none)

/-- PEER_ACCESS (R410): admitted by an import entry, or refused with no effect here but the answer. An admitted access travels on VN PART, and waits
while a freeze stalls it (R360, R361, R383). -/
def execPeerAccess (srcMod : BitVec 6) (srcPart : BitVec 4) (_die : BitVec 2) (ofs : Nat) (op : ExtOp) (s : State) : Out :=
  if !s.boot.rel then .next s
  else match s.importOf srcMod.toNat srcPart.toNat with
    | none => .next (s.answer .refused)
    | some e =>
      let pa := fld e 127 88 * 4096 + ofs
      let allowed := match op with | .read _ => bit e 2 | _ => bit e 3
      if !allowed || decide (fld e 87 64 * 2 ^ 21 < ofs + extLen op) || decide (MemType.limit .spread < pa + extLen op) then
        .next (s.answer .refused)
      else if s.frz.any (fun z => z.part == fld e 53 50 && z.st != .saved) then .next s
      else .next (s.foreign pa op)

/-! ## Boardwalk ports (R411) -/

/-- PORT_DOWN (R411): a port goes down. -/
def execPortDown (port : BitVec 4) (s : State) : Out :=
  let k := port.toNat
  if 12 ≤ k ∨ s.boot.down.any (fun d => d.1 == k) then .next s
  else .next { s with boot := { s.boot with down := s.boot.down ++ [(k, s.cycle)]
                                            portup := if bit s.boot.portup k then s.boot.portup - 2 ^ k else s.boot.portup } }

/-- PORT_DOWN_TIMEOUT (R411): 2^24 cycles after a port went down its outstanding requests complete with poison, each with an
error record of kind 9. -/
def execPortDownTimeout (port : BitVec 4) (s : State) : Out :=
  let k := port.toNat
  match s.boot.down.find? (fun d => d.1 == k) with
  | none => .next s
  | some d =>
    if s.cycle < d.2 + 2 ^ 24 then .next s
    else
      let out : Ext → Bool := fun e => e.port == some k && e.resp.isNone
      let s1 := (s.xl.ext.filter out).foldl (fun s e =>
        s.errorRecord (s.asidFn e.asid) e.asid e.va k e.req.tile e.req.slot 9) s
      .next { s1 with xl := { s1.xl with ext := s1.xl.ext.map (fun e => if out e then { e with resp := some [], bad := true } else e) } }

/-! ## SPDM (R414) -/

/-- A measurement: 1 the ROM, 2 to 5 the images of kinds 1 to 4, 6 the fused configuration. -/
def Boot.measurement (b : Boot) (k : Nat) : List Byte :=
  if k = 1 then sha512 b.rom
  else if k = 6 then sha512 b.fuses
  else match b.firmware.find? (fun x => x.kind + 1 == k) with
    | some x => sha512 (x.header ++ x.body)
    | none => sha512 []

/-- A reply whose bytes R414 does not lay out: free, and of a free length (DESIGN CHOICE, log entry 117). -/
def freeReply (n : Nat) : List Byte := (upto 0 (Config.freeNat n % 2 ^ 16)).map (fun k => Config.freeByte (n + k))

/-- The responder's reply and what the request changes: `other` is the reply where R414 gives none. IDE keys are set within a
session alone. -/
def Boot.answer (b : Boot) (r : SpdmReq) (other : List Byte) : Boot :=
  match r with
  | .getDigests => { b with replies := sha512 b.chain :: b.replies }
  | .getCertificate n => { b with replies := (if n = 0 then b.chain else other) :: b.replies }
  | .getMeasurement k => { b with replies := (if 1 ≤ k ∧ k ≤ 6 then b.measurement k else other) :: b.replies }
  | .openSession => { b with session := true, replies := other :: b.replies }
  | .endSession => { b with session := false, replies := other :: b.replies }
  | .keySet k key => { b with ideKeys := if b.session then tabSet b.ideKeys k key else b.ideKeys, replies := other :: b.replies }
  | .other => { b with replies := other :: b.replies }

/-- SPDM_REQUEST (R414): answered once configuration space answers (R412 step 5). -/
def execSpdmRequest (req : SpdmReq) (s : State) : Out :=
  if s.boot.step < 5 then .next s
  else
    let r := freeReply s.free
    .next { s with boot := s.boot.answer req r, free := s.free + 1 + r.length }

end Sys2Proof.Machine
end

