-- ==== Sys2Proof/Machine/MemNode.lean ====
section
/-! DEFINITION. The memory nodes (R250 to R257): load, store, ldfe, stfe, atom, ojoin, rdring, wrring. A firing of four
addresses performs one of them a turn, in address order. -/
namespace Sys2Proof.Machine

/-! ## Accesses of a node -/

/-- The retry of one of a node's accesses (R257, R328). -/
def State.nodeRetry (s : State) (rq : Req) : BitVec 32 × State :=
  (Osw.when (s.xl.retried.any (fun r => r.is rq)) Osw.xlateRetried,
   { s with xl := { s.xl with retried := s.xl.retried.filter (fun r => !r.is rq) } })

/-- SCOPE_CLAMPED of a node's scope (R45, R250). -/
def State.nodeClamp (s : State) (a : NodeAt) (scope : BitVec 3) : BitVec 32 := clampBit (s.effScope a.x scope.toNat).2

/-- Reads n bytes at a place. -/
def State.nodeRead (s : State) (a : NodeAt) (rq : Req) (sp : Space) (n : Nat) : Res (List Byte × BitVec 32) :=
  match sp with
  | .scratch t o => s.readAt rq (scratchPhys t o) o n
  | .global va => (s.xlateFor a.x rq .read va).bind (fun ph s => s.readAt rq ph va n)
  | _ => .ok (List.replicate n 0, 0) s

/-- Writes bytes at a place; poisoned data is written with poison (R197, R417). The full/empty bits stay (R22). -/
def State.nodeWrite (s : State) (a : NodeAt) (rq : Req) (sp : Space) (bs : List Byte) (bad : Bool) : Res Unit :=
  match sp with
  | .scratch t o =>
    let ph := scratchPhys t o
    if s.reserved rq ph.key bs.length then .wait s
    else (s.charge rq ph bs.length).bind (fun _ s =>
      .ok () (let s := s.landWrite ph bs; if bad then s.markPoison ph bs.length else s))
  | .global va =>
    (s.xlateFor a.x rq .write va).bind (fun ph s =>
      (s.writeAt rq ph va bs).bind (fun _ s => .ok () (if bad then s.markPoison ph bs.length else s)))
  | _ => .ok () s

/-- One read-modify-write at a place. -/
def State.nodeRmw (s : State) (a : NodeAt) (rq : Req) (sp : Space) (n : Nat) (g : List Byte → List Byte × BitVec 32) :
    Res (List Byte × BitVec 32) :=
  match sp with
  | .scratch t o => s.rmwAt rq (scratchPhys t o) o n g
  | .global va => (s.xlateFor a.x rq .rmw va).bind (fun ph s => s.rmwAt rq ph va n g)
  | _ => .ok (List.replicate n 0, 0) s

/-! ## Firings and the reorder window (R250, R251, R325 to R328) -/

/-- The order token of a firing, when OUT1 is connected. -/
def NodeAt.orderTok (a : NodeAt) : List (Nat × Beat) := if a.hasOut 1 then [(1, reedTok true)] else []

/-- A beat put out for an element, with its tag and its poison. -/
def NodeMem.mark (m : NodeMem) (b : Beat) : Beat := { b with tag := m.tag, poison := b.poison || m.bad }

/-- The four addresses of a beat. -/
def addrsOf (d : BitVec 256) : List (BitVec 64) := asWords (toLanes 64 d)

/-- The requester of an element. -/
def NodeAt.elReq (a : NodeAt) (e : WinEl) : Req := { a.req e.elem with cmd := e.cmd }

/-- The elements of a new firing, after `n` firings: one for each address, or for a 32-byte access two, one for each granule
(R291). `data` gives the operand at an address's place and offset, with its poison, `cmp` the value to compare. -/
def winEls (beat : Bool) (n : Nat) (tag : Option (BitVec 16)) (bad : Bool) (data : Nat → Nat → List Byte × Bool)
    (cmp : Nat → List Byte) (addrs : List (BitVec 64)) : List WinEl :=
  let offs := if beat then [0, 16] else [0]
  (addrs.zipIdx).flatMap (fun p => offs.map (fun o =>
    ⟨p.1, o, n + 1, p.2, p.2 + 1 == addrs.length && o + 16 == (if beat then 32 else 16), (data p.2 o).1, cmp p.2,
     bad || (data p.2 o).2, tag, 0, none, none⟩))

/-- What the form of a memory node's accesses says: bytes in an access, bytes in a piece of it, whether it acts on a full/empty
bit, whether a later access may be issued while an earlier one is being translated (R325: reads; a write stream issues in
order, R321), the access itself, and what its delivery does to the node's memory. -/
structure MemForm where
  size  : Nat
  piece : Nat
  fe    : Bool
  ahead : Bool
  /-- each firing ends with an order token (R251) -/
  toks  : Bool := true
  /-- an address of no space goes to `act`; else it is a node trap (R20, R250) -/
  stray : Bool := false
  act   : NodeAt → WinEl → Space → State → Res (List Byte × BitVec 32)
  put   : WinEl → List Byte → NodeMem → NodeMem

/-- Where an element's piece lies. -/
def NodeAt.place (a : NodeAt) (e : WinEl) : Space := a.x.space a.n.tile (e.addr.toNat + e.off)

/-- The address at which an access to a place meets marks. -/
def Space.va : Space → Nat
  | .scratch _ o => o
  | .global va => va
  | _ => 0

/-- Reads n bytes for an element: where its translation has led, if it was issued before (R326). -/
def State.elRead (s : State) (a : NodeAt) (e : WinEl) (sp : Space) (n : Nat) : Res (List Byte × BitVec 32) :=
  match e.home with
  | some ph => s.readAt (a.elReq e) ph sp.va n
  | none => s.nodeRead a (a.elReq e) sp n

/-- Where a read of an element goes. -/
def State.elHome (s : State) (a : NodeAt) (e : WinEl) : Res Phys :=
  match e.home with
  | some ph => .ok ph s
  | none => match a.place e with
    | .scratch t o => .ok (scratchPhys t o) s
    | .global va => s.xlateFor a.x (a.elReq e) .read va
    | _ => s.meetFault a.x.asid (a.elReq e) ⟨e.addr.toNat, .read, 0, 0⟩

/-- Two pieces touch a common byte. -/
def WinEl.meets (n : Nat) (e d : WinEl) : Bool :=
  decide (e.addr.toNat + e.off < d.addr.toNat + d.off + n) && decide (d.addr.toNat + d.off < e.addr.toNat + e.off + n)

/-- The oldest element is delivered, its status counted; with the firing's last its order token leaves. -/
def State.elDone (s : State) (a : NodeAt) (form : MemForm) (e : WinEl) (d : List Byte × BitVec 32) : State :=
  let t := s.nodeRetry (a.elReq e)
  ((((t.2.nodeStatus a (d.2 ||| t.1)).updMemOf a (fun m =>
      let m := form.put e d.1 { m with tag := e.tag, bad := m.bad || e.bad }
      { m with win := m.win.drop 1, bad := m.bad && !m.pack0.isEmpty,
               owe := m.owe ++ (if e.fin && form.toks then a.orderTok else []) }))).nodeSt a .firing).drainOwe a 8

/-- Data that was read before its turn is delivered (`State.deliver`). -/
def State.elHeld (s : State) (a : NodeAt) (form : MemForm) (e : WinEl) (d : List Byte × BitVec 32) : State :=
  let q := s.deliver (a.elReq e) e.home (a.place e).va d
  q.2.elDone a form e q.1

/-- The first element behind others that can be issued is, and its data is held (R325): whether one was, and the state, in which
the others have asked for their translations. A read that leaves the module is made in its turn (log entry 164). -/
def State.issueAhead (s : State) (a : NodeAt) (form : MemForm) : List WinEl → List WinEl → Bool × State
  | _, [] => (false, s)
  | past, e :: r =>
    let later := fun (s : State) => s.issueAhead a form (past ++ [e]) r
    if e.got.isSome || past.any (fun d => d.got.isNone && d.meets form.piece e) || e.addr.toNat % form.size ≠ 0 then later s
    else if a.place e = .badTile ∨ (a.place e = .none ∧ form.stray = false) then later s
    else match s.elHome a e with
      | .wait s => later s
      | .fault _ s => (true, s.terminate a.f 1 0)
      | .ok ph s =>
        let put : (WinEl → WinEl) → State → State := fun g s => s.updMemOf a (fun m => { m with win := updNth m.win past.length g })
        let s := put (fun e => { e with home := some ph }) s
        if ph.typ.leaves then later s
        else match form.act a { e with home := some ph } (a.place e) s with
        | .wait s => later s
        | .fault _ s => (true, s.terminate a.f 1 0)
        | .ok d s => (true, put (fun e => { e with got := some d }) s)

/-- Later elements of a write stream ask for their translations while an earlier one waits (R321, R325). -/
def State.askAhead (s : State) (a : NodeAt) (acc : Acc) (l : List WinEl) : State :=
  l.foldl (fun s e => match a.place e with
    | .global va => s.askFor a.x (a.elReq e) acc va
    | _ => s) s

/-- Another firing may begin while earlier ones are in progress: the window spans at most 64 elements, and no fault of the node
awaits its service or the delivery of its element (R325, R328). -/
def State.mayBegin (s : State) (a : NodeAt) : Bool :=
  decide (((a.n.mem.win.map (fun e => (e.cmd, e.elem))).eraseDups).length + 4 ≤ 64) &&
  !a.n.held && !s.xl.pending.any (fun p => p.req.same (a.req 0)) && !s.xl.retried.any (fun r => r.same (a.req 0))

/-- A turn of a node whose accesses have one form. The oldest element is performed and delivered, a node trap where its address is
not one; while it waits, a later one is issued, or another firing begins. -/
def memTurn (form : MemForm) (acc : Acc) (start : NodeAt → State → State) (a : NodeAt) (s : State) : State :=
  match a.n.mem.win with
  | [] => start a s
  | e :: r =>
    match e.got with
    | some d => s.elHeld a form e d
    | none =>
      let sp := a.place e
      let isGlobal := match sp with | .global _ => true | _ => false
      if e.addr.toNat % form.size ≠ 0 ∨ sp = .badTile ∨ (sp = .none ∧ form.stray = false) then s.nodeTrap a 3
      else if form.fe && isGlobal then s.nodeTrap a 4
      else match form.act a e sp s with
        | .fault _ s => s.terminate a.f 1 0
        | .ok d s => s.elDone a form e d
        | .wait s =>
          let q := if form.ahead then s.issueAhead a form [e] r else (false, if form.fe then s else s.askAhead a acc r)
          if q.1 then q.2.nodeSt a .firing
          else if q.2.mayBegin a then (start a q.2).nodeSt a .firing
          else q.2.nodeSt a .firing

/-- The inputs a firing takes besides its data: order-in. -/
def NodeAt.orderIn (a : NodeAt) : List Nat := if a.hasIn 3 then [3] else []

/-- A firing of four addresses begins; under a false guard it takes its operands and emits its order token. `w` and `fill`
are those of its packed output, `els` makes its elements. A control beat, a guarded firing and disagreeing beats wait until
earlier firings have ended, so that all leaves in firing order. -/
def memStart (ins : List Nat) (w fill : Nat) (scope : BitVec 3) (els : List (Option Beat) → NodeMem → List WinEl)
    (a : NodeAt) (s : State) : State :=
  let busy := !a.n.mem.win.isEmpty
  match s.agree a ins with
  | .wait => s.nodeSt a .idle
  | .trap => if busy then s else s.nodeTrap a 1
  | .ctl b =>
    if busy then s
    else if !s.roomAll a then s.nodeSt a .blocked
    else s.fire a { forwardPacked w fill a b with take := a.streams ins, guard := false } .firing
  | .data l =>
    if a.orderIn.any (fun j => s.offer a j == .empty) || a.guardTok == some .empty then s.nodeSt a .idle
    else if !s.roomAll a then s.nodeSt a .blocked
    else if a.guardTok.any Offer.isFalse then
      (if busy then s else s.fire a ⟨ins ++ a.orderIn, true, a.orderTok, 0, id⟩ .guarded)
    else
      s.fire a ⟨ins ++ a.orderIn, true, [], s.nodeClamp a scope, fun m => { m with win := m.win ++ els l m, n3 := m.n3 + 1 }⟩ .firing

/-- The sequence tag that a firing of operands l goes on with: that of a beat of IN0 (R351). -/
def tagOf (l : List (Option Beat)) : Option (BitVec 16) := ((l[0]?).getD none).bind Beat.tag

/-- The filler of a packed beat of a format (R221, R273). -/
def fillOf (f : Fmt) : Nat := if f = .ki then kiPad.toNat else 0

/-- An element goes to the packed output. -/
def NodeMem.packed (w v : Nat) (m : NodeMem) : NodeMem :=
  let p := packOut w false m [v]
  { p.2 with owe := p.2.owe ++ p.1.map (fun q => (q.1, m.mark q.2)) }

/-- A granule of a 32-byte load: the first waits for the second, with which the beat leaves. -/
def NodeMem.halfBeat (e : WinEl) (bs : List Byte) (m : NodeMem) : NodeMem :=
  if e.off = 0 then { m with vals := [BitVec.ofNat 64 (leNat (bs.take 8)), BitVec.ofNat 64 (leNat (bs.drop 8))] }
  else
    let lo := ((m.vals[0]?).getD 0).toNat + ((m.vals[1]?).getD 0).toNat * 2 ^ 64
    { m with vals := [], owe := m.owe ++ [(0, m.mark (dataBeat (BitVec.ofNat 256 (lo + leNat bs * 2 ^ 128))))] }

/-- load (R252): an element, or a 32-byte beat, per address. -/
def execLoad (n : NodeHdr) (scope : BitVec 3) (s : State) : Out :=
  let beat := n.var == 1#4
  let form : MemForm :=
    { size := if beat then 32 else Fmt.esize n.fmt
      piece := if beat then 16 else Fmt.esize n.fmt
      fe := false
      ahead := true
      act := fun a e sp s => s.elRead a e sp (if beat then 16 else Fmt.esize n.fmt)
      put := fun e bs m => if beat then m.halfBeat e bs else m.packed (Fmt.bits n.fmt) (leNat bs) }
  runNode s (memTurn form .read (memStart [0] (Fmt.bits n.fmt) (fillOf n.fmt) scope (fun l m =>
    winEls beat m.n3 (tagOf l) (l.any (fun o => o.any Beat.poison)) (fun _ _ => ([], false)) (fun _ => []) (addrsOf (operand l 0)))))

/-! ## store and stfe -/

/-- The data input offers a control beat. -/
def State.dataCtl (s : State) (a : NodeAt) : Bool := match s.offer a 1 with | .streamed b => b.typ != 0 | _ => false

/-- A control beat of a store's inputs: it is taken, and data beats in hand are given up. -/
def State.storeCtl (s : State) (a : NodeAt) (b : Beat) : State :=
  if !a.n.mem.win.isEmpty then s
  else if !s.roomAll a then s.nodeSt a .blocked
  else s.fire a { forward [] a b with take := a.streams [0, 1], mem := fun m => { m with left1 := [], occ := [] } } .firing

/-- A store's firing begins: data beats are taken until what the four addresses need is in hand, elements of w bits, or
for a 32-byte store four beats as 64-bit words (R219, R252). An address control beat must meet a data beat of its type; where
only one of the two inputs is streamed, its control beat is simply taken (R222). -/
def storeStart (beat : Bool) (w : Nat) (scope : BitVec 3) (a : NodeAt) (s : State) : State :=
  let need := if beat then 16 else 4
  let trap := if a.n.mem.win.isEmpty then s.nodeTrap a 1 else s
  match s.offer a 0 with
  | .empty | .none => s.nodeSt a .idle
  | o =>
    let ad := (o.beat?).getD (dataBeat 0)
    let tag := match o with | .streamed b => b.tag | _ => none
    if ad.typ ≠ 0 then
      (match s.agree a [0, 1] with
       | .wait => s.nodeSt a .idle
       | .ctl b => s.storeCtl a b
       | _ => trap)
    else if a.n.mem.left1.length < need then
      (match s.offer a 1 with
       | .empty | .none => s.nodeSt a .idle
       | d =>
         let b := (d.beat?).getD (dataBeat 0)
         if s.dataCtl a then (if a.streams [0] = [] then s.storeCtl a b else trap)
         else
           let es := toLanes (if beat then 64 else w) b.data
           let r := s.take a 1
           (r.2.nodeStatus a r.1).updMemOf a (fun m =>
             { m with left1 := m.left1 ++ asWords es, occ := m.occ ++ List.replicate es.length b.poison }))
    else if a.orderIn.any (fun j => s.offer a j == .empty) || a.guardTok == some .empty then s.nodeSt a .idle
    else if !s.roomAll a then s.nodeSt a .blocked
    else if a.guardTok.any Offer.isFalse then
      (if !a.n.mem.win.isEmpty then s
       else s.fire a ⟨[0] ++ a.orderIn, true, a.orderTok, 0,
         fun m => { m with left1 := m.left1.drop need, occ := m.occ.drop need }⟩ .guarded)
    else
      s.fire a ⟨[0] ++ a.orderIn, true, [], s.nodeClamp a scope, fun m =>
        let word : Nat → Nat := fun k => ((m.left1[k]?).getD 0).toNat
        let els := winEls beat m.n3 tag ad.poison (fun i o =>
          if beat then (toLE 8 (word (4 * i + o / 8)) ++ toLE 8 (word (4 * i + o / 8 + 1)), (m.occ[4 * i]?).getD false)
          else (toLE (w / 8) (word i), (m.occ[i]?).getD false)) (fun _ => []) (addrsOf ad.data)
        { m with win := m.win ++ els, n3 := m.n3 + 1, left1 := m.left1.drop need, occ := m.occ.drop need }⟩ .firing

/-- store (R252): an element, or a 32-byte data beat, per address. -/
def execStore (n : NodeHdr) (scope : BitVec 3) (s : State) : Out :=
  let beat := n.var == 1#4
  let form : MemForm :=
    { size := if beat then 32 else Fmt.esize n.fmt
      piece := if beat then 16 else Fmt.esize n.fmt
      fe := false
      ahead := false
      act := fun a e sp s => (s.nodeWrite a (a.elReq e) sp e.data e.bad).bind (fun _ s => .ok ([], Osw.when e.bad Osw.poison) s)
      put := fun _ _ m => m }
  runNode s (memTurn form .write (storeStart beat (Fmt.bits n.fmt) scope))

/-- The key of a scratch place. -/
def Space.key : Space → Nat
  | .scratch t o => keyScratch t o
  | _ => 0

/-- A full/empty access of a node waits for its granule's bit (R22, R23); the holds of R154 do not concern it (R253). -/
def State.nodeFeWaits (s : State) (sp : Space) (full : Bool) : Bool := s.mem.isFull (sp.key / 16) != full

/-- ldfe (R253): waits for full, reads, and clears the bit in VAR 1. -/
def execLdfe (n : NodeHdr) (scope : BitVec 3) (s : State) : Out :=
  let z := Fmt.esize n.fmt
  let form : MemForm :=
    { size := z
      piece := z
      fe := true
      ahead := false
      act := fun a e sp s =>
        if s.nodeFeWaits sp true then .wait s
        else (s.nodeRead a (a.elReq e) sp z).bind (fun r s =>
          .ok r (if n.var = 1#4 then s.updMem (fun y => y.mark (sp.key / 16) 1 false) else s))
      put := fun _ bs m => m.packed (Fmt.bits n.fmt) (leNat bs) }
  runNode s (memTurn form .read (memStart [0] (Fmt.bits n.fmt) (fillOf n.fmt) scope (fun l m =>
    winEls false m.n3 (tagOf l) (l.any (fun o => o.any Beat.poison)) (fun _ _ => ([], false)) (fun _ => []) (addrsOf (operand l 0)))))

/-- stfe (R253): waits for empty, writes, sets full. -/
def execStfe (n : NodeHdr) (scope : BitVec 3) (s : State) : Out :=
  let form : MemForm :=
    { size := Fmt.esize n.fmt
      piece := Fmt.esize n.fmt
      fe := true
      ahead := false
      act := fun a e sp s =>
        if s.nodeFeWaits sp false then .wait s
        else (s.nodeWrite a (a.elReq e) sp e.data e.bad).bind (fun _ s =>
          .ok ([], Osw.when e.bad Osw.poison) (s.updMem (fun y => y.mark (sp.key / 16) 1 true)))
      put := fun _ _ m => m }
  runNode s (memTurn form .write (storeStart false (Fmt.bits n.fmt) scope))

/-! ## atom, ojoin, rdring, wrring -/

/-- The operation of atom on an element (R254). -/
def atomElem (op : Nat) (f : Fmt) (old v e : Nat) : Rslt :=
  if op = 0 then (if f.isInt then (wrapN (Fmt.bits f) (intOf f old + intOf f v), 0) else addF f 0 old v)
  else if op = 1 then (old &&& v, 0) else if op = 2 then (old ||| v, 0) else if op = 3 then (old ^^^ v, 0)
  else if op = 4 then minMax f false old v else if op = 5 then minMax f true old v
  else if op = 6 then (v, 0) else (if old = e then v else old, 0)

/-- The node is a copy, and an address of its oldest firing lies outside MERE: it refuses the firing whole (R345). -/
def State.cloneBars (s : State) (a : NodeAt) : Bool :=
  a.n.clone && (match a.n.mem.win with
    | e :: _ => a.n.mem.win.any (fun d => d.cmd == e.cmd && (match a.place d with
      | .global va => (s.lookup a.x.asid a.x.part (a.x.carrierOf a.n.tile) .rmw va).any (fun ph => ph.typ != .mere)
      | _ => true))
    | [] => false)

/-- atom (R254): one read-modify-write per address. -/
def execAtom (n : NodeHdr) (scope : BitVec 3) (op : BitVec 4) (s : State) : Out :=
  let z := Fmt.esize n.fmt
  let w := Fmt.bits n.fmt
  let form : MemForm :=
    { size := z
      piece := z
      fe := false
      ahead := false
      act := fun a e sp s => s.nodeRmw a (a.elReq e) sp z (fun old =>
        let r := atomElem op.toNat n.fmt (leNat old) (leNat e.data) (leNat e.cmp)
        (toLE z r.1, r.2))
      put := fun _ bs m => m.packed w (leNat bs) }
  runNode s (fun a s =>
    if s.cloneBars a then s.nodeTrap a 3
    else memTurn form .rmw (memStart (if op = 7#4 then [0, 1, 2] else [0, 1]) w 0 scope (fun l m =>
      let of : Nat → Nat → List Byte := fun j i => toLE z (((toLanes w (operand l j))[i]?).getD 0)
      winEls false m.n3 (tagOf l) (l.any (fun o => o.any Beat.poison)) (fun i _ => (of 1 i, false)) (of 2) (addrsOf (operand l 0)))) a s)

/-- ojoin (R255): one order token from each connected input, then one on OUT0, under a false guard as well (R223, R251). -/
def execOjoin (_n : NodeHdr) (scope : BitVec 3) (s : State) : Out :=
  runNode s (fun a s =>
    let ins := [0, 1, 2].filter a.hasIn
    if ins.isEmpty || ins.any (fun j => s.offer a j == .empty) || a.guardTok == some .empty then s.nodeSt a .idle
    else if !s.roomAll a then s.nodeSt a .blocked
    else if a.guardTok.any Offer.isFalse then s.fire a ⟨ins, true, [(0, reedTok true)], 0, id⟩ .guarded
    else s.fire a ⟨ins, true, [(0, reedTok true)], s.nodeClamp a scope, id⟩ .firing)

/-- rdring (R256): a beat of the head slot a firing. -/
def execRdring (_n : NodeHdr) (scope : BitVec 3) (s : State) : Out :=
  runNode s (fun a s =>
    dataTurn [0] [] (fun a l _ => ⟨[], true, [(0, dataBeat (operand l 0))], s.nodeClamp a scope, id⟩) (forward [0]) a s)

/-- A control beat that closes wrring's slot (R256): a stop at or above CLOSE, or DONE. -/
def closes (close : BitVec 4) (b : Beat) : Bool := b.typ == 9 || (decide (1 ≤ b.typ ∧ b.typ ≤ 8) && decide (close.toNat ≤ b.typ - 1))

/-- wrring (R256, R397). -/
def execWrring (_n : NodeHdr) (scope : BitVec 3) (close : BitVec 4) (s : State) : Out :=
  runNode s (fun a s =>
    match s.agree a [0] with
    | .ctl b =>
      if b.typ = 9 && !s.outRoom a a.n 1 then s.nodeSt a .blocked
      else
        let s := (s.take a 0).2
        let used := (a.n.mem.opos[0]?).getD 0
        let s := match a.outp 0 with
          | .ring h => if closes close b && used != 0 then s.closeSlot a 0 h used else s
          | _ => s
        let s := if b.typ = 9 && a.hasOut 1 then s.updMemOf a (fun m => { m with owe := m.owe ++ [(1, reedTok true)] }) else s
        (s.nodeSt a .firing).drainOwe a 4
    | _ => dataTurn [0] [] (fun a l _ => ⟨[], true, [(0, dataBeat (operand l 0))], s.nodeClamp a scope, id⟩) (forward []) a s)

end Sys2Proof.Machine
end

