-- ==== Sys2Proof/Machine/Sparse.lean ====
section
/-! DEFINITION. The sparse nodes (R258 to R272, R363, R364): level scans, stream combinators, split, merge and rmerge,
gath and scat. They work item by item: a turn takes one beat, handles one item, or handles one control beat. -/
namespace Sys2Proof.Machine

/-! ## Packed outputs -/

/-- The two packed outputs exchanged. -/
def NodeMem.swapPack (m : NodeMem) : NodeMem := { m with pack0 := m.pack1, pack1 := m.pack0 }

/-- Elements go to packed output 0; a beat has the tag of the IN0 beat taken last (R351, log entry 140). -/
def NodeMem.emit0 (p w : Nat) (new : List Nat) (m : NodeMem) : NodeMem :=
  let r := packOut w m.bad m new
  { r.2 with owe := r.2.owe ++ r.1.map (fun q => (p, { q.2 with tag := m.tag })), bad := m.bad }

/-- Elements of w bits go to packed output p (R221). -/
def NodeMem.emitOn (p w : Nat) (new : List Nat) (m : NodeMem) : NodeMem :=
  if p = 0 then m.emit0 0 w new else (m.swapPack.emit0 p w new).swapPack

/-- Completes a partial beat of packed output 0. -/
def NodeMem.flush0 (p w fill : Nat) (m : NodeMem) : NodeMem :=
  let r := flushOut w fill m
  { r.2 with owe := r.2.owe ++ r.1.map (fun q => (p, { q.2 with tag := m.tag })), bad := m.bad }

/-- Completes a partial beat of packed output p with a filler. -/
def NodeMem.flushOn (p w fill : Nat) (m : NodeMem) : NodeMem :=
  if p = 0 then m.flush0 0 w fill else (m.swapPack.flush0 p w fill).swapPack

/-- A control beat leaves on outputs, behind their partial beats. -/
def NodeMem.ctlOn (ps : List Nat) (w fill : Nat) (b : Beat) (m : NodeMem) : NodeMem :=
  ps.foldl (fun m p => let m := m.flushOn p w fill; { m with owe := m.owe ++ [(p, { b with tag := m.tag })] }) m

/-- Beats leave with the tag of the IN0 beat taken last (R351, log entry 140). -/
def NodeMem.push (l : List (Nat × Beat)) (m : NodeMem) : NodeMem :=
  { m with owe := m.owe ++ l.map (fun p => (p.1, { p.2 with tag := m.tag })) }

/-- Poison is over once nothing that came with it is left. -/
def NodeMem.tidy (m : NodeMem) : NodeMem :=
  { m with bad := m.bad && !(m.pack0.isEmpty && m.pack1.isEmpty && m.left0.isEmpty && m.left1.isEmpty) }

/-! ## Entries (R258 to R260) -/

/-- The hole entry. -/
def hole : Nat := 0xFFFF_FFFF * 2 ^ 32
/-- An entry of a coordinate and a value. -/
def entry (crd v : Nat) : Nat := crd % 2 ^ 32 * 2 ^ 32 + v % 2 ^ 32
/-- The coordinate of an entry. -/
def entCrd (e : Nat) : Nat := e / 2 ^ 32
/-- The value of an entry in a format. -/
def entVal (f : Fmt) (e : Nat) : Nat := e % 2 ^ Fmt.bits f

/-- The entries of a beat without holes and without coordinates below `next`, which rises past each (R260): what is left, the
next coordinate admitted, and whether one was dropped. -/
def freshEntries (next : Nat) : List Nat → List Nat × Nat × Bool
  | [] => ([], next, false)
  | e :: r =>
    if entCrd e = 0xFFFF_FFFF then freshEntries next r
    else if entCrd e < next then let q := freshEntries next r; (q.1, q.2.1, true)
    else let q := freshEntries (entCrd e + 1) r; (e :: q.1, q.2)

/-- The least coordinate that the open fibre of input j still admits. -/
def NodeMem.next (j : Nat) (m : NodeMem) : Nat := if j = 0 then m.n2 else m.n3
/-- Sets it. -/
def NodeMem.setNext (j v : Nat) (m : NodeMem) : NodeMem := if j = 0 then { m with n2 := v } else { m with n3 := v }
/-- The items of input j not yet used. -/
def NodeMem.left (j : Nat) (m : NodeMem) : List (BitVec 64) := if j = 0 then m.left0 else m.left1
/-- Sets them. -/
def NodeMem.setLeft (j : Nat) (l : List (BitVec 64)) (m : NodeMem) : NodeMem :=
  if j = 0 then { m with left0 := l } else { m with left1 := l }
/-- The oldest item of input j is used. -/
def NodeMem.pop (j : Nat) (m : NodeMem) : NodeMem := m.setLeft j ((m.left j).drop 1)

/-- What stands at an input: nothing, a data beat to be opened, an item, or a control beat. -/
inductive Item where
  | empty
  | load (b : Beat)
  | ent (e : Nat)
  | ctl (b : Beat)
  deriving DecidableEq, Repr

/-- What stands at input j. -/
def State.item (s : State) (a : NodeAt) (j : Nat) : Item :=
  match a.n.mem.left j with
  | e :: _ => .ent e.toNat
  | [] => match s.offer a j with
    | .streamed b => if b.typ = 0 then .load b else .ctl b
    | .ring b | .const b => .load b
    | .none | .empty => .empty

/-- A BOUND beat, which opcodes 0x60 to 0x66 do not take (R260). -/
def Item.isBound (i : Item) : Bool := match i with | .ctl b => b.typ == 10 | _ => false

/-- The level of a stop; none for another beat. -/
def Beat.stop? (b : Beat) : Option Nat := if 1 ≤ b.typ ∧ b.typ ≤ 8 then some (b.typ - 1) else none
/-- The beat S_k, at most S7. -/
def stopBeat (k : Nat) : Beat := ctlBeat (min k 7 + 1)

/-! ## Turns -/

/-- The tag of the IN0 beat that a step takes, where it takes one. -/
def State.newTag (s : State) (a : NodeAt) (js : List Nat) (m : NodeMem) : NodeMem :=
  if js.contains 0 then { m with tag := match s.offer a 0 with | .streamed b => b.tag | _ => none } else m

/-- Takes one data beat, with a guard token where the guard is on (R223). -/
def State.takeData (s : State) (a : NodeAt) (j : Nat) (osw : BitVec 32) (load : NodeMem → NodeMem) : State :=
  let load := fun m => load (s.newTag a [j] m)
  match a.guardTok with
  | some .empty => s.nodeSt a .idle
  | g =>
    if g.any Offer.isFalse then s.fire a ⟨[j], true, [], 0, id⟩ .guarded else s.fire a ⟨[j], true, [], osw, load⟩ .firing

/-- Opens a beat of items. -/
def State.takeItems (s : State) (a : NodeAt) (j : Nat) (b : Beat) (l : List Nat) : State :=
  s.takeData a j 0 (fun m => { m.setLeft j (asWords l) with bad := m.bad || b.poison })

/-- Opens a beat of entries (R258, R260). -/
def State.takeEntries (s : State) (a : NodeAt) (j : Nat) (b : Beat) : State :=
  let q := freshEntries (a.n.mem.next j) (toLanes 64 b.data)
  s.takeData a j (Osw.when q.2.2 Osw.truncated) (fun m =>
    { (m.setLeft j (asWords q.1)).setNext j q.2.1 with bad := m.bad || b.poison })

/-- A step on items in hand. -/
def State.work (s : State) (a : NodeAt) (osw : BitVec 32) (g : NodeMem → NodeMem) : State :=
  s.fire a ⟨[], false, [], osw, fun m => (g m).tidy⟩ .firing

/-- Takes control beats of inputs, which end their fibres. -/
def State.takeCtl (s : State) (a : NodeAt) (js : List Nat) (osw : BitVec 32) (g : NodeMem → NodeMem) : State :=
  s.fire a ⟨js, false, [], osw, fun m => (g (js.foldl (fun m j => m.setNext j 0) (s.newTag a js m))).tidy⟩ .firing

/-- A node's turn with room on its outputs; `bound` refuses BOUND beats (R260). -/
def itemNode (bound : Bool) (ins : List Nat) (work : NodeAt → State → State) (s : State) : Out :=
  runNode s (fun a s =>
    if !s.roomAll a then s.nodeSt a .blocked
    else if bound && ins.any (fun j => (s.item a j).isBound) then s.nodeTrap a 1
    else work a s)

/-- Bytes of a scratch array read as fe=keep (R260): none while their granule is not full. -/
def State.arrayRead (s : State) (a : NodeAt) (o n : Nat) : Option (Nat × BitVec 32 × State) :=
  if s.nodeFeWaits (.scratch a.n.tile o) true then none
  else let r := s.readScratch (a.req 0) a.n.tile o n; some (leNat r.1, r.2.1, r.2.2)

/-- A result of min or max under SAT: an infinity, which is an operand, becomes the largest finite value (R61, R263). -/
def pickSat (n : NodeHdr) (r : Rslt) : Rslt :=
  if n.sat && !n.fmt.isInt then
    let y := satF n.fmt (floatVal n.fmt r.1)
    if y.2 = 0 then r else let z := encodeF n.fmt y.1; (z.1, r.2 ||| y.2 ||| z.2)
  else r

/-- A value that is the result of its operation: a NaN is the canonical one, an infinity is bounded under SAT (R54, R61). -/
def entPass (n : NodeHdr) (x : Nat) : Rslt := arith n.fmt n.rm.toNat n.sat (floatVal n.fmt x) (intOf n.fmt x)

/-- An operation on two values: 0 add, 1 min, 2 max, 3 first, 4 second, 5 mul, 6 sub; one rounding under RM, then SAT. -/
def entOp (n : NodeHdr) (op x y : Nat) : Rslt :=
  let f := n.fmt
  let a := floatVal f x; let b := floatVal f y
  let i := intOf f x; let j := intOf f y
  let rm := n.rm.toNat
  if op = 0 then arith f rm n.sat (sumVals rm [a, b]) (i + j)
  else if op = 1 then pickSat n (minMax f false x y) else if op = 2 then pickSat n (minMax f true x y)
  else if op = 3 then entPass n x else if op = 4 then entPass n y
  else if op = 5 then arith f rm n.sat (a.mul b) (i * j)
  else arith f rm n.sat (sumVals rm [a, b.neg]) (i - j)

/-! ## fscan (R262, R363) -/

/-- fscan's next entry of the fibre in progress: n0 of n1, the dense reference in n3. -/
def fscanEmit (dense : Bool) (crdofs cnt : Nat) (a : NodeAt) (s : State) : State :=
  let m := a.n.mem
  let go : Nat → BitVec 32 → State → State := fun e w s =>
    s.work a w (fun m => { m.emitOn 0 64 [e] with n0 := m.n0 + 1, b0 := decide (m.n0 + 1 < m.n1) })
  if dense then go (entry m.n0 (m.n3 * cnt + m.n0)) 0 s
  else
    let o := 16 * crdofs + 4 * m.n0
    if 0x8_0000 < o + 4 then s.nodeTrap a 3
    else match s.arrayRead a o 4 with
      | none => s.nodeSt a .firing
      | some r => go (entry r.1 m.n0) r.2.1 r.2.2

/-- fscan opens the fibre of a reference: b0 while entries are left, b1 until its stop. -/
def fscanOpen (dense : Bool) (ptrofs cnt r : Nat) (a : NodeAt) (s : State) : State :=
  let fibre : Nat → Nat → BitVec 32 → State → State := fun p e w s =>
    s.work a (w ||| Osw.when (decide (e < p)) Osw.truncated) (fun m =>
      { m.pop 0 with n0 := p, n1 := e, n3 := r, b0 := decide (p < e), b1 := true })
  if dense then fibre 0 cnt 0 s
  else if cnt ≤ r then s.work a Osw.truncated (fun m => { m.pop 0 with b1 := true })
  else match s.arrayRead a (16 * ptrofs + 4 * r) 4 with
    | none => s.nodeSt a .firing
    | some p => match p.2.2.arrayRead a (16 * ptrofs + 4 * (r + 1)) 4 with
      | none => p.2.2.nodeSt a .firing
      | some q => fibre p.1 q.1 (p.2.1 ||| q.2.1) q.2.2

/-- fscan (R262). -/
def execFscan (n : NodeHdr) (ptrofs crdofs : BitVec 15) (cnt : BitVec 32) (s : State) : Out :=
  let v := n.var.toNat
  let dense := bit v 1
  itemNode true [0] (fun a s =>
    let m := a.n.mem
    let started := s.item a 0 != .empty
    if started && !dense && decide (0x8_0000 < 16 * ptrofs.toNat + 4 * (cnt.toNat + 1)) then s.nodeTrap a 3
    else if m.b0 then fscanEmit dense crdofs.toNat cnt.toNat a s
    else match s.item a 0 with
      | .empty => s.nodeSt a .idle
      | .load b => if bit v 0 then s.takeEntries a 0 b else s.takeItems a 0 b (toLanes 32 b.data)
      | .ent e =>
        if m.b1 then s.work a 0 (fun m => { m.ctlOn [0] 64 hole (stopBeat 0) with b1 := false })
        else fscanOpen dense ptrofs.toNat cnt.toNat (if bit v 2 then entCrd e else e % 2 ^ 32) a s
      | .ctl b => match b.stop? with
        | some k => s.takeCtl a [0] (Osw.when (k == 7) Osw.truncated) (fun m => { m.ctlOn [0] 64 hole (stopBeat (k + 1)) with b1 := false })
        | none => s.takeCtl a [0] 0 (fun m =>
          let m := if m.b1 then m.ctlOn [0] 64 hole (stopBeat 1) else m
          { m.ctlOn [0] 64 hole b with b1 := false })) s

/-! ## isect, union, repeat (R263, R264) -/

/-- Two inputs advanced by coordinate: `both` handles a coordinate present in both, `one` one that input j alone has. -/
def zipTurn (outs : List Nat) (both : Nat → Nat → NodeMem → BitVec 32 × NodeMem) (one : Nat → NodeMem → NodeMem)
    (a : NodeAt) (s : State) : State :=
  match s.item a 0, s.item a 1 with
  | .load b, _ => s.takeEntries a 0 b
  | _, .load b => s.takeEntries a 1 b
  | .empty, _ => s.nodeSt a .idle
  | _, .empty => s.nodeSt a .idle
  | .ent x, .ent y =>
    if entCrd x = entCrd y then
      let r := both x y ((a.n.mem.pop 0).pop 1)
      s.work a r.1 (fun m => (both x y ((m.pop 0).pop 1)).2)
    else if entCrd x < entCrd y then s.work a 0 (fun m => one x (m.pop 0))
    else s.work a 0 (fun m => one y (m.pop 1))
  | .ent x, .ctl _ => s.work a 0 (fun m => one x (m.pop 0))
  | .ctl _, .ent y => s.work a 0 (fun m => one y (m.pop 1))
  | .ctl x, .ctl y =>
    if x.typ ≠ y.typ then s.nodeTrap a 1 else s.takeCtl a [0, 1] 0 (fun m => m.ctlOn outs 64 hole x)

/-- isect (R263). -/
def execIsect (_n : NodeHdr) (s : State) : Out :=
  itemNode true [0, 1] (zipTurn [0, 1] (fun x y m => (0, (m.emitOn 0 64 [x]).emitOn 1 64 [y])) (fun _ m => m)) s

/-- union (R263). -/
def execUnion (n : NodeHdr) (op : BitVec 3) (s : State) : Out :=
  itemNode true [0, 1] (zipTurn [0]
    (fun x y m => let r := entOp n op.toNat (entVal n.fmt x) (entVal n.fmt y); (r.2, m.emitOn 0 64 [entry (entCrd x) r.1]))
    (fun e m => m.emitOn 0 64 [e])) s

/-- The value held for a fibre. -/
def NodeMem.held (m : NodeMem) : Nat := ((m.vals[0]?).getD 0).toNat

/-- repeat (R264): b1 while an entry of IN0 is held for the fibre of IN1. -/
def execRepeatNode (_n : NodeHdr) (lvl : BitVec 3) (s : State) : Out :=
  itemNode true [0, 1] (fun a s =>
    match s.item a 1 with
    | .empty => s.nodeSt a .idle
    | .load b => s.takeEntries a 1 b
    | .ent y =>
      if a.n.mem.b1 then s.work a 0 (fun m => (m.pop 1).emitOn 0 64 [entry (entCrd y) m.held])
      else (match s.item a 0 with
        | .empty => s.nodeSt a .idle
        | .load b => s.takeEntries a 0 b
        | .ent x => s.work a 0 (fun m => { m.pop 0 with b1 := true, vals := [BitVec.ofNat 64 (x % 2 ^ 32)] })
        | .ctl b => if b.typ = 9 then s.nodeTrap a 1 else s.takeCtl a [0] 0 id)
    | .ctl t => match t.stop? with
      | some k =>
        let copy : NodeMem → NodeMem := fun m => m.ctlOn [0] 64 hole t
        if k < lvl.toNat then s.takeCtl a [1] 0 copy
        else if a.n.mem.b1 then s.takeCtl a [1] 0 (fun m => { copy m with b1 := false, vals := [] })
        else (match s.item a 0 with
          | .empty => s.nodeSt a .idle
          | .load b => s.takeEntries a 0 b
          | .ent _ => s.takeCtl a [1] 0 (fun m => copy (m.pop 0))
          | .ctl b => if b.typ = 9 then s.nodeTrap a 1 else s.takeCtl a [0] 0 id)
      | none => match s.item a 0 with
        | .empty => s.nodeSt a .idle
        | .load b => s.takeEntries a 0 b
        | .ent _ => s.nodeTrap a 1
        | .ctl b =>
          if b.typ = 9 then s.takeCtl a [0, 1] 0 (fun m => { m.ctlOn [0] 64 hole t with b1 := false, vals := [] })
          else s.takeCtl a [0] 0 id) s

/-! ## sred, sjoin, sacc (R265 to R267, R364) -/

/-- sred (R265): b0 while the fibre holds an entry, its value in vals, its ordinal in n0. -/
def execSred (n : NodeHdr) (op lvl : BitVec 3) (s : State) : Out :=
  itemNode true [0] (fun a s =>
    match s.item a 0 with
    | .empty => s.nodeSt a .idle
    | .load b => s.takeEntries a 0 b
    | .ent e =>
      let v := entVal n.fmt e
      let r : Rslt := if a.n.mem.b0 then entOp n op.toNat a.n.mem.held v else (v, 0)
      s.work a r.2 (fun m => { m.pop 0 with b0 := true, vals := [BitVec.ofNat 64 r.1] })
    | .ctl t =>
      let close : NodeMem → NodeMem := fun m =>
        let m := if m.b0 then m.emitOn 0 64 [entry m.n0 (entPass n m.held).1] else m
        { m with b0 := false, vals := [], n0 := m.n0 + 1 }
      let osw := if a.n.mem.b0 then (entPass n a.n.mem.held).2 else 0
      match t.stop? with
      | some k =>
        if k < lvl.toNat then s.takeCtl a [0] 0 id
        else if k = lvl.toNat then s.takeCtl a [0] osw close
        else s.takeCtl a [0] osw (fun m => { (close m).ctlOn [0] 64 hole (stopBeat (k - lvl.toNat - 1)) with n0 := 0 })
      | none => s.takeCtl a [0] osw (fun m => { (close m).ctlOn [0] 64 hole t with n0 := 0 })) s

/-- sjoin's operation codes in the order of `entOp`. -/
def sjoinOp (op : Nat) : Nat := ([5, 0, 6, 1, 2, 3, 4][op]?).getD 3

/-- The reset of R266: IN0's entries are discarded up to and including its next stop; a DONE stays (R364). -/
def sjoinReset (a : NodeAt) (s : State) : State :=
  match s.item a 0 with
  | .empty => s.nodeSt a .idle
  | .load b => s.takeEntries a 0 b
  | .ent _ => s.work a 0 (fun m => m.setLeft 0 [])
  | .ctl b => if b.typ = 9 then s.work a 0 (fun m => { m with b0 := false }) else s.takeCtl a [0] 0 (fun m => { m with b0 := false })

/-- IN1 stands at DONE: IN0 is discarded up to its DONE, which is matched (R364). -/
def sjoinDone (t : Beat) (a : NodeAt) (s : State) : State :=
  match s.item a 0 with
  | .empty => s.nodeSt a .idle
  | .load b => s.takeEntries a 0 b
  | .ent _ => s.work a 0 (fun m => m.setLeft 0 [])
  | .ctl b =>
    if b.typ = 9 then s.takeCtl a [0, 1] 0 (fun m => { m.ctlOn [0] 64 hole t with b1 := false, b2 := false, vals := [] })
    else s.takeCtl a [0] 0 id

/-- sjoin VAR 0: both inputs aligned. -/
def sjoinAligned (n : NodeHdr) (op rlvl : Nat) (a : NodeAt) (s : State) : State :=
  match s.item a 1 with
  | .empty => s.nodeSt a .idle
  | .load b => s.takeEntries a 1 b
  | .ent y => (match s.item a 0 with
    | .empty => s.nodeSt a .idle
    | .load b => s.takeEntries a 0 b
    | .ctl _ => s.work a Osw.truncated (fun m => m.pop 1)
    | .ent x =>
      if entCrd x ≠ entCrd y then s.work a Osw.truncated (fun m => (m.pop 0).pop 1)
      else
        let r := entOp n (sjoinOp op) (entVal n.fmt x) (entVal n.fmt y)
        s.work a r.2 (fun m => ((m.pop 0).pop 1).emitOn 0 64 [entry (entCrd y) r.1]))
  | .ctl t => match t.stop? with
    | none => sjoinDone t a s
    | some k =>
      if rlvl ≤ k then s.takeCtl a [1] 0 (fun m => { m.ctlOn [0] 64 hole t with b0 := true })
      else match s.item a 0 with
        | .empty => s.nodeSt a .idle
        | .load b => s.takeEntries a 0 b
        | .ent _ => s.work a Osw.truncated (fun m => m.pop 0)
        | .ctl b => if b.typ = t.typ then s.takeCtl a [0, 1] 0 (fun m => m.ctlOn [0] 64 hole t) else s.nodeTrap a 1

/-- sjoin VAR 1: b1 while an entry of IN0 is held for the fibre of IN1, b2 while that fibre is dropped. -/
def sjoinReuse (n : NodeHdr) (op lvl rlvl : Nat) (a : NodeAt) (s : State) : State :=
  let m := a.n.mem
  match s.item a 1 with
  | .empty => s.nodeSt a .idle
  | .load b => s.takeEntries a 1 b
  | .ent y =>
    if m.b2 then s.work a Osw.truncated (fun m => m.pop 1)
    else if m.b1 then
      let r := entOp n (sjoinOp op) m.held (entVal n.fmt y)
      s.work a r.2 (fun m => (m.pop 1).emitOn 0 64 [entry (entCrd y) r.1])
    else (match s.item a 0 with
      | .empty => s.nodeSt a .idle
      | .load b => s.takeEntries a 0 b
      | .ent x => s.work a 0 (fun m => { m.pop 0 with b1 := true, vals := [BitVec.ofNat 64 (entVal n.fmt x)] })
      | .ctl _ => s.work a Osw.truncated (fun m => { m with b2 := true }))
  | .ctl t => match t.stop? with
    | none => sjoinDone t a s
    | some k =>
      let close : Bool → NodeMem → NodeMem := fun reset m =>
        let m := m.ctlOn [0] 64 hole t
        if k < lvl then { m with b0 := reset } else { m with b0 := reset, b1 := false, b2 := false, vals := [] }
      if rlvl ≤ k then s.takeCtl a [1] 0 (close true)
      else if k < lvl || m.b1 || m.b2 then s.takeCtl a [1] 0 (close false)
      else match s.item a 0 with
        | .empty => s.nodeSt a .idle
        | .load b => s.takeEntries a 0 b
        | .ent _ => s.takeCtl a [1] 0 (fun m => close false (m.pop 0))
        | .ctl _ => s.takeCtl a [1] 0 (close false)

/-- sjoin (R266). -/
def execSjoin (n : NodeHdr) (op lvl rlvl : BitVec 3) (s : State) : Out :=
  itemNode true [0, 1] (fun a s =>
    if a.n.mem.b0 then sjoinReset a s
    else if n.var = 0#4 then sjoinAligned n op.toNat rlvl.toNat a s
    else sjoinReuse n op.toNat lvl.toNat rlvl.toNat a s) s

/-- The bytes of sacc's array and its bitmap. -/
def saccBytes (w : Nat) : Nat := 4 * w + ceilDiv w 8

/-- sacc's array cleared, with plain writes. -/
def State.saccClear (s : State) (a : NodeAt) (o w : Nat) : State :=
  s.landWrite (scratchPhys a.n.tile o) (List.replicate (saccBytes w) 0)

/-- One entry added to sacc's array: the status and the state. -/
def State.saccAdd (s : State) (a : NodeAt) (n : NodeHdr) (o w j v : Nat) : BitVec 32 × State :=
  let t := a.n.tile
  let old := s.readScratch (a.req 0) t (o + 4 * j) 4
  let bm := old.2.2.readScratch (a.req 0) t (o + 4 * w + j / 8) 1
  let used := bit (leNat bm.1) (j % 8)
  let r : Rslt :=
    if n.fmt.isInt then (if used then wrapN 32 (intOf n.fmt (leNat old.1) + intOf n.fmt v) else v, 0)
    else
      let wide := convertVal (floatVal n.fmt v) false .f32 0 false
      if used then addF .f32 n.rm.toNat (leNat old.1) wide.1 else wide
  (r.2 ||| old.2.1 ||| bm.2.1,
   (bm.2.2.landWrite (scratchPhys t (o + 4 * j)) (toLE 4 r.1)).landWrite (scratchPhys t (o + 4 * w + j / 8))
     (toLE 1 (leNat bm.1 ||| 2 ^ (j % 8))))

/-- The occupied words of sacc's array, ascending, converted to FMT under R63. -/
def State.saccList (s : State) (a : NodeAt) (n : NodeHdr) (o w : Nat) : List (Nat × BitVec 32) :=
  let k := keyScratch a.n.tile o
  let occ := leNat (s.mem.readZ (k + 4 * w) (ceilDiv w 8))
  ((upto 0 w).filter (fun j => bit occ j)).map (fun j =>
    let v := leNat (s.mem.readZ (k + 4 * j) 4)
    let r : Rslt := if n.fmt.isInt then (v, 0) else convertVal (floatVal .f32 v) false n.fmt n.rm.toNat n.sat
    (entry j r.1, r.2))

/-- sacc (R267): begun once its array is cleared for the phase. -/
def execSacc (n : NodeHdr) (accofs : BitVec 15) (wm1 : BitVec 13) (lvl : BitVec 3) (s : State) : Out :=
  let o := 16 * accofs.toNat
  let w := wm1.toNat + 1
  itemNode true [0] (fun a s =>
    let far := decide (0x8_0000 < o + saccBytes w)
    if !a.n.mem.begun && !far then (s.saccClear a o w).updMemOf a (fun m => { m with begun := true })
    else if far && s.item a 0 != .empty then s.nodeTrap a 3
    else
      let flush : NodeMem → NodeMem := fun m => m.emitOn 0 64 ((s.saccList a n o w).map (fun p => p.1))
      let osw := (s.saccList a n o w).foldl (fun b p => b ||| p.2) 0
      match s.item a 0 with
      | .empty => s.nodeSt a .idle
      | .load b => s.takeEntries a 0 b
      | .ent e =>
        if s.reserved (a.req 0) (keyScratch a.n.tile o) (saccBytes w) then s.nodeSt a .firing
        else if w ≤ entCrd e then s.work a Osw.truncated (fun m => m.pop 0)
        else
          let r := s.saccAdd a n o w (entCrd e) (entVal n.fmt e)
          r.2.work a r.1 (fun m => m.pop 0)
      | .ctl t => match t.stop? with
        | some k =>
          if k < lvl.toNat then s.takeCtl a [0] 0 id
          else (s.takeCtl a [0] osw (fun m => (flush m).ctlOn [0] 64 hole (stopBeat (k - lvl.toNat)))).saccClear a o w
        | none => (s.takeCtl a [0] osw (fun m => (flush m).ctlOn [0] 64 hole t)).saccClear a o w) s

/-! ## split, merge, rmerge (R269, R270) -/

/-- split (R269): the beats sent in n0. A SPLIT that the balancer inserted takes the inputs of the node it stands before, one beat
of each, has a pair of outputs for each, and leaves the beats the tags they have (R346, log entry 144). -/
def execSplit (_n : NodeHdr) (s : State) : Out :=
  itemNode false [] (fun a s =>
    let js := [0, 1, 2].filter a.hasIn
    let side := a.n.mem.n0 % 2
    let tag : Beat → Option (BitVec 16) := fun b => if a.n.clone then b.tag else some (BitVec.ofNat 16 a.n.mem.n0)
    if (upto 2 (a.n.outq.length - 2)).any (fun p => !s.outRoom a a.n p) then s.nodeSt a .blocked
    else match s.agree a js with
      | .wait => s.nodeSt a .idle
      | .trap => s.nodeTrap a 1
      | .ctl t => s.takeCtl a (a.streams js) 0 (fun m => { m with owe := m.owe ++ js.flatMap (fun j => [(2 * j, t), (2 * j + 1, t)]) })
      | .data l => match a.guardTok with
        | some .empty => s.nodeSt a .idle
        | g =>
          if g.any Offer.isFalse then s.fire a ⟨js, true, [], 0, id⟩ .guarded
          else s.fire a ⟨js, true, (js.zip l).filterMap (fun p => p.2.map (fun b => (2 * p.1 + side, { b with tag := tag b }))), 0,
            fun m => { m with n0 := m.n0 + 1 }⟩ .firing) s

/-- A tag that comes before another in the sequence. -/
def tagBefore (x y : BitVec 16) : Bool := decide ((y - x).toNat < 2 ^ 15)

/-- merge takes a tagged beat of input j; the next tag is kept in n0. -/
def State.mergeTake (s : State) (a : NodeAt) (j : Nat) (b : Beat) : State :=
  s.takeData a j 0 (fun m =>
    { m with n0 := ((b.tag.getD 0) + 1).toNat, owe := m.owe ++ [(0, { b with tag := none })] })

/-- A control beat of both inputs goes out once. -/
def State.mergeCtl (s : State) (a : NodeAt) (x y : Beat) : State :=
  if x.typ ≠ y.typ then s.nodeTrap a 1 else s.takeCtl a [0, 1] 0 (fun m => { m with owe := m.owe ++ [(0, x)] })

/-- A MERGE that the balancer inserted takes the beats of its inputs by turns, as its SPLIT sent them, with the tags they have: the
stream is that of the fen without the clone, also between a split and a merge of the program (R346, log entry 144). -/
def State.mergeTurns (s : State) (a : NodeAt) : State :=
  let j := a.n.mem.n0 % 2
  match s.item a 0, s.item a 1, s.item a j with
  | .ctl x, .ctl y, _ => s.mergeCtl a x y
  | _, _, .load b => s.takeData a j 0 (fun m => { m with n0 := (m.n0 + 1) % 2, owe := m.owe ++ [(0, b)] })
  | _, _, _ => s.nodeSt a .idle

/-- merge (R269): the beat with the next tag, or the earlier of the two that stand. -/
def execMerge (_n : NodeHdr) (s : State) : Out :=
  itemNode false [0, 1] (fun a s =>
    if a.n.clone then s.mergeTurns a else
    let due : Beat → Bool := fun b => b.tag == some (BitVec.ofNat 16 a.n.mem.n0)
    match s.item a 0, s.item a 1 with
    | .load x, .load y =>
      (match x.tag, y.tag with
       | some t, some u => if tagBefore t u then s.mergeTake a 0 x else s.mergeTake a 1 y
       | _, _ => s.nodeTrap a 1)
    | .load x, .ctl _ => if x.tag.isNone then s.nodeTrap a 1 else s.mergeTake a 0 x
    | .ctl _, .load y => if y.tag.isNone then s.nodeTrap a 1 else s.mergeTake a 1 y
    | .ctl x, .ctl y => s.mergeCtl a x y
    | .load x, _ => if x.tag.isNone then s.nodeTrap a 1 else if due x then s.mergeTake a 0 x else s.nodeSt a .idle
    | _, .load y => if y.tag.isNone then s.nodeTrap a 1 else if due y then s.mergeTake a 1 y else s.nodeSt a .idle
    | _, _ => s.nodeSt a .idle) s

/-- rmerge (R270): VAR 0 best first, VAR 1 worst first; IN0 first between equivalent pairs. -/
def execRmerge (n : NodeHdr) (s : State) : Out :=
  itemNode false [0, 1] (fun a s =>
    let put : Nat → Nat → State := fun j e => s.work a 0 (fun m => (m.pop j).emitOn 0 64 [e])
    match s.item a 0, s.item a 1 with
    | .load b, _ => s.takeItems a 0 b (toLanes 64 b.data)
    | _, .load b => s.takeItems a 1 b (toLanes 64 b.data)
    | .empty, _ => s.nodeSt a .idle
    | _, .empty => s.nodeSt a .idle
    | .ent x, .ent y =>
      if kiFirst (n.var != 0#4) (BitVec.ofNat 64 y) (BitVec.ofNat 64 x) then put 1 y else put 0 x
    | .ent x, .ctl _ => put 0 x
    | .ctl _, .ent y => put 1 y
    | .ctl x, .ctl y =>
      if x.typ ≠ y.typ then s.nodeTrap a 1 else s.takeCtl a [0, 1] 0 (fun m => m.ctlOn [0] 64 kiPad.toNat x)) s

/-! ## gath and scat (R271, R272) -/

/-- The entries of a beat without holes. -/
def noHoles (b : Beat) : List Nat := (toLanes 64 b.data).filter (fun e => entCrd e != 0xFFFF_FFFF)

/-- Opens a beat of entries at a memory-port node, whose firing is in progress until they are used. n3 is their number. -/
def State.takePort (s : State) (a : NodeAt) (b : Beat) (scope : BitVec 3) : State :=
  let l := noHoles b
  s.takeData a 0 (s.nodeClamp a scope) (fun m =>
    { m with left0 := asWords l, n3 := l.length, b0 := !l.isEmpty, bad := m.bad || b.poison })

/-- The oldest entry of a memory-port node is done. -/
def NodeMem.portPop (m : NodeMem) : NodeMem :=
  let r := m.left0.drop 1
  { m with left0 := r, b0 := !r.isEmpty, n2 := 0 }

/-- The place of the entry in hand in its firing (R320). -/
def NodeAt.entryIx (a : NodeAt) : Nat := a.n.mem.n3 - a.n.mem.left0.length

/-- Later accesses of a node, by element number and address, ask for their translations: those within its window (R325). -/
def State.askNext (s : State) (a : NodeAt) (acc : Acc) (l : List (Nat × Nat)) : State :=
  (l.take 63).foldl (fun s p => match a.x.space a.n.tile p.2 with
    | .global va => s.askFor a.x (a.req p.1) acc va
    | _ => s) s

/-- An access of a memory-port or filter node to an element of a tensor; while it waits, the node's later ones ask for their
translations. An address of no space is a translation fault of reason 0 (R20, R319); a misaligned one, or a scratch address outside
the fen, is a node trap (R225, R250). -/
def State.elemAccess {α : Type} (s : State) (a : NodeAt) (rq : Req) (acc : Acc) (addr size : Nat) (next : List (Nat × Nat))
    (act : Space → State → Res α) (done : α → BitVec 32 → State → State) : State :=
  let r : Res α := match a.x.space a.n.tile addr with
    | .none => s.meetFault a.x.asid rq ⟨addr, acc, 0, 0⟩
    | sp => act sp s
  if a.x.space a.n.tile addr = .badTile ∨ addr % size ≠ 0 then s.nodeTrap a 3
  else match r with
    | .wait s => (s.askNext a acc next).nodeSt a .firing
    | .fault _ s => s.terminate a.f 1 0
    | .ok r s => let t := s.nodeRetry rq; done r t.1 t.2

/-- The reference of an entry of gath. -/
def gathRef (icrd : Bool) (e : Nat) : Nat := if icrd then entCrd e else e % 2 ^ 32

/-- The elements of a gath firing: one for each entry in the tensor, and with ZPAD one for each outside it, whose value is zero
(R271). -/
def gathEls (t : Tensor) (icrd : Bool) (m : NodeMem) (b : Beat) : List WinEl :=
  let l := ((noHoles b).zipIdx).filter (fun p => decide (gathRef icrd p.1 < Tensor.dim t 0) || Tensor.zpad t)
  (l.zipIdx).map (fun p =>
    let e := p.1.1
    let far := decide (Tensor.dim t 0 ≤ gathRef icrd e)
    ⟨BitVec.ofNat 64 (if far then 0 else Tensor.addr t [gathRef icrd e]), 0, m.n3 + 1, p.1.2, p.2 + 1 == l.length, [], [], b.poison, b.tag,
     BitVec.ofNat 64 e, none, if far then some ([0], 0) else none⟩)

/-- gath (R271): its accesses are the elements of its window, an address of no space being a translation fault (R20). -/
def execGath (n : NodeHdr) (scope : BitVec 3) (_tid : BitVec 12) (icrd : Bool) (s : State) : Out :=
  let z := Fmt.esize n.fmt
  let form : MemForm :=
    { size := z
      piece := z
      fe := false
      ahead := true
      act := fun a e sp s => match sp with
        | .none => s.meetFault a.x.asid (a.elReq e) ⟨e.addr.toNat, .read, 0, 0⟩
        | sp => s.elRead a e sp z
      put := fun e bs m => m.emitOn 0 64 [entry (entCrd e.note.toNat) (leNat bs)] }
  itemNode false [0] (fun a s =>
    let t := (a.n.tens[0]?).getD 0
    memTurn { form with toks := false, stray := true } .read (fun a s =>
      match s.item a 0 with
      | .empty | .ent _ => s.nodeSt a .idle
      | .load b =>
        let drops := !Tensor.zpad t && (noHoles b).any (fun e => decide (Tensor.dim t 0 ≤ gathRef icrd e))
        s.takeData a 0 (s.nodeClamp a scope ||| Osw.when drops Osw.truncated) (fun m =>
          { m with win := m.win ++ gathEls t icrd m b, n3 := m.n3 + 1 })
      | .ctl b =>
        if !a.n.mem.win.isEmpty then s
        else s.takeCtl a [0] 0 (fun m =>
          let m := m.ctlOn [0] 64 hole b
          if b.typ = 9 then { m with owe := m.owe ++ a.orderTok } else m)) a s) s

/-- One write of scat to an element, where the tensor has it; `next` gives the places of the entries behind the one in hand. -/
def State.scatWrite (s : State) (a : NodeAt) (t : Tensor) (ix : List Nat) (z v : Nat) (bad : Bool) (next : Nat → Nat → List Nat)
    (done : BitVec 32 → State → State) : State :=
  let rq := a.req a.entryIx
  if !Tensor.inside t ix then done Osw.truncated s
  else s.elemAccess a rq .write (Tensor.addr t ix) z ((a.n.mem.left0.drop 1).zipIdx.map (fun p =>
      (a.entryIx + 1 + p.2, Tensor.addr t (next (p.2 + 1) (entCrd p.1.toNat)))))
    (fun sp s => s.nodeWrite a rq sp (toLE z v) bad) (fun _ w s => done w s)

/-- scat (R272): pos in n0, f or r in n1; n2 is 1 once the coordinate of the entry in hand is written. -/
def execScat (n : NodeHdr) (scope : BitVec 3) (_tv _tc _tp : BitVec 12) (lvl : BitVec 3) (s : State) : Out :=
  let z := Fmt.esize n.fmt
  itemNode false [0] (fun a s =>
    let m := a.n.mem
    let tv := (a.n.tens[0]?).getD 0; let tc := (a.n.tens[1]?).getD 0; let tp := (a.n.tens[2]?).getD 0
    if n.var = 0#4 && !m.begun then
      s.scatWrite a tp [0] 4 0 false (fun _ _ => [0]) (fun w s => s.work a (w ||| s.nodeClamp a scope) (fun m => { m with begun := true }))
    else match s.item a 0 with
      | .empty => s.nodeSt a .idle
      | .load b => s.takePort a b scope
      | .ent e =>
        if n.var = 0#4 then
          (if m.n2 = 0 then s.scatWrite a tc [m.n0] 4 (entCrd e) m.bad (fun k _ => [m.n0 + k]) (fun w s => s.work a w (fun m => { m with n2 := 1 }))
           else s.scatWrite a tv [m.n0] z (entVal n.fmt e) m.bad (fun k _ => [m.n0 + k]) (fun w s => s.work a w (fun m => { m.portPop with n0 := m.n0 + 1 })))
        else s.scatWrite a tv [entCrd e, m.n1] z (entVal n.fmt e) m.bad (fun _ c => [c, m.n1]) (fun w s => s.work a w NodeMem.portPop)
      | .ctl b =>
        if endsAt lvl.toNat b && b.typ != 9 then
          (if n.var = 0#4 then s.scatWrite a tp [m.n1 + 1] 4 m.n0 false (fun _ _ => [0]) (fun w s =>
             s.takeCtl a [0] (w ||| s.nodeClamp a scope) (fun m => { m with n1 := m.n1 + 1 }))
           else s.takeCtl a [0] 0 (fun m => { m with n1 := m.n1 + 1 }))
        else s.takeCtl a [0] 0 (fun m => if b.typ = 9 then { m with owe := m.owe ++ a.orderTok } else m)) s

end Sys2Proof.Machine
end

