-- ==== Sys2Proof/Machine/Retr.lean ====
section
/-! DEFINITION. The retrieval nodes (R273 to R288, R398, R399): address generation, queue ports, scoring, bounding and
ranking, filters and packing. -/
namespace Sys2Proof.Machine

/-! ## Shared pieces -/

/-- What a node's threshold register holds. -/
def State.thrNow (s : State) (a : NodeAt) : BitVec 64 :=
  ((((s.fens[a.f]?).bind Fen.mantle).bind (fun m => m.nodes[a.k]?)).map Node.thr).getD kiFloor

/-- A threshold is read for the node to act on; the register's key is sent on output p if it has risen (R274, R398). -/
def State.readSend (s : State) (a : NodeAt) (p : Nat) : BitVec 64 × State :=
  let r := s.readThr a
  (r.1, r.2.sendKey a p (BitVec.ofNat 32 (kiScore (r.2.thrNow a))))

/-- A bound lies strictly below a key; never for a NaN (R275, R278). -/
def belowKey (bnd : Nat) (t : BitVec 64) : Bool := (floatVal .f32 bnd).lt (floatVal .f32 (kiScore t))

/-- A record of bound or topk in the node's tile, its granule set full; the status it carries is cleared (R278, R279). -/
def State.rankRecord (s : State) (a : NodeAt) (en : Bool) (ofs passed skipped : Nat) : State :=
  if !en then s
  else
    let osw := ((((s.fens[a.f]?).bind Fen.mantle).bind (fun m => m.nodes[a.k]?)).map (fun n => n.mem.osw)).getD 0
    (s.writeScratch a.n.tile (16 * ofs) (toLE 16 (osw.toNat * 2 ^ 64 + passed % 2 ^ 32 * 2 ^ 32 + skipped % 2 ^ 32)) true).updMemOf a
      (fun m => { m with osw := 0 })

/-- A threshold write of a node (R280): done, or again at a later turn. -/
def State.nodeThresh (s : State) (a : NodeAt) (q : BitVec 42) (p : BitVec 64) (done : NodeMem → NodeMem) : State :=
  let va := 64 * q.toNat
  let rq := a.req 0
  match (s.xlateQcb a.x rq .rmw va).bind (fun ph s =>
      if s.reserved rq ph.key 64 then .wait s
      else (s.present rq ph 64).bind (fun _ s => (s.unsnooped rq ph []).bind (fun _ s => (s.charge rq ph 16).bind (fun _ s => .ok ph s)))) with
  | .wait s => s.nodeSt a .firing
  | .fault _ s => s.terminate a.f 1 0
  | .ok ph s => match s.threshWrite ph va a.x.asid a.x.part (a.x.carrierOf a.n.tile) p with
    | none => s.nodeSt a .firing
    | some s => let t := s.nodeRetry rq; (t.2.nodeStatus a t.1).updMemOf a done

/-- A control beat goes out behind the partial beat of a node that packs. -/
def State.passCtl (s : State) (a : NodeAt) (w fill : Nat) (b : Beat) : State :=
  s.takeCtl a [0] 0 (fun m => m.ctlOn [0] w fill b)

/-! ## agen (R275) -/

/-- A word of an address program. -/
inductive AgWord where
  | walk (tk e : Nat)
  | blocks (tk first count e : Nat)
  | halt
  | bad
  deriving DecidableEq, Repr

/-- Reads a word: a nonzero field that the table does not name, or an END or a count that it does not allow, makes it an
unassigned word. -/
def agWord (w : Word) : AgWord :=
  let v := w.toNat
  let op := fld v 63 60
  if op = 1 ∧ zeros v [(47, 44), (39, 0)] ∧ fld v 43 40 ≤ 9 then .walk (fld v 59 48) (fld v 43 40)
  else if op = 2 ∧ zeros v [(15, 12), (7, 0)] ∧ fld v 11 8 ≤ 9 ∧ fld v 31 16 ≠ 0 then
    .blocks (fld v 59 48) (fld v 47 32) (fld v 31 16) (fld v 11 8)
  else if op = 15 ∧ zeros v [(59, 0)] then .halt
  else .bad

/-- The tensor of the word in execution, resolved when its execution began (n3 is not 0). -/
def NodeAt.agTensor (a : NodeAt) : Tensor := (a.n.tens[0]?).getD 0

/-- The word in execution begins: its tensor is kept. -/
def State.agBegin (s : State) (a : NodeAt) (t : Tensor) (block : Nat) : State :=
  (s.updNode a.f a.k (fun n => { n with tens := [t] })).work a 0 (fun m => { m with n1 := 0, n2 := block, n3 := 1, vals := [] })

/-- The activation is over: with ABORTED and, where the rule says so, a DONE. -/
def State.agAbort (s : State) (a : NodeAt) (done : Bool) : State :=
  s.work a Osw.aborted (fun m =>
    let m := if done then m.push [(0, ctlBeat 9)] else m
    { m with b0 := false, n3 := 0, vals := [] })

/-- The word is over: its END beat leaves behind a partial beat. -/
def State.agNext (s : State) (a : NodeAt) (e : Nat) : State :=
  s.work a 0 (fun m =>
    { (m.flushOn 0 32 0).push (endBeat (BitVec.ofNat 4 e)) with n0 := m.n0 + 1, n3 := 0 })

/-- A read of agen: the value goes on to `done`; `next` gives the addresses of the activation's reads behind it. -/
def State.agRead (s : State) (a : NodeAt) (addr size : Nat) (next : List Nat) (done : Nat → BitVec 32 → State → State) : State :=
  let k := a.n.mem.nth
  s.elemAccess a (a.req k) .read addr size (next.zipIdx.map (fun p => (k + 1 + p.2, p.1)))
    (fun sp s => s.nodeRead a (a.req k) sp size)
    (fun d w s => done (leNat d.1) (d.2 ||| w) (s.updMemOf a (fun m => { m with nth := k + 1 })))

/-- One element of a WALK, in row-major order. -/
def agWalk (e : Nat) (a : NodeAt) (s : State) : State :=
  let t := a.agTensor
  let w := Fmt.bits (Tensor.fmt t)
  if Tensor.count t ≤ a.n.mem.n1 then
    s.work a 0 (fun m =>
      { (m.flushOn 0 w 0).push (endBeat (BitVec.ofNat 4 e)) with n0 := m.n0 + 1, n3 := 0 })
  else s.agRead a (Tensor.addr t (Tensor.indexOf t a.n.mem.n1)) (Fmt.esize (Tensor.fmt t))
    ((upto (a.n.mem.n1 + 1) (min 63 (Tensor.count t - a.n.mem.n1 - 1))).map (fun k => Tensor.addr t (Tensor.indexOf t k))) (fun v x s =>
    s.work a x (fun m => { m.emitOn 0 w [v] with n1 := m.n1 + 1 }))

/-- The next block. -/
def NodeMem.nextBlock (m : NodeMem) : NodeMem := { m with n1 := 0, n2 := m.n2 + 1, n3 := 1, vals := [] }

/-- A canonical address: of global memory, or of scratch with its reserved bits zero (R20). -/
def canonical (a : Nat) : Bool := fld a 63 48 == 0 || (fld a 63 48 == 0xFFFF && fld a 47 31 == 0 && !bit a 19)

/-- A header read whole: malformed, below the threshold, or a BOUND beat and the payload (n3 is 2). -/
def agHeader (a : NodeAt) (s : State) : State :=
  let h : Nat → Nat := fun k => ((a.n.mem.vals[k]?).getD 0).toNat
  let isz := h 1 / 2 ^ 32
  let r := s.readThr a
  if h 3 ≠ 0 ∨ isz % 4 ≠ 0 ∨ isz < 4 ∨ 256 < isz ∨ h 2 % 4 ≠ 0 ∨ !canonical (h 2) then
    s.work a Osw.truncated NodeMem.nextBlock
  else if belowKey (h 0 % 2 ^ 32) r.1 then r.2.work a Osw.blockSkipped NodeMem.nextBlock
  else r.2.work a 0 (fun m =>
    { m.push [(0, { ctlBeat 10 with data := BitVec.ofNat 256 (h 1 * 2 ^ 64 + h 0) })] with n1 := 0, n3 := 2 })

/-- One step of a BLOCKS word: an element of a header, or four bytes of a payload. -/
def agBlocks (first count e : Nat) (a : NodeAt) (s : State) : State :=
  let m := a.n.mem
  let t := a.agTensor
  let h : Nat → Nat := fun k => ((m.vals[k]?).getD 0).toNat
  if m.n3 = 2 then
    (if h 1 % 2 ^ 32 * (h 1 / 2 ^ 32) ≤ m.n1 then
      s.work a 0 (fun m => ((m.flushOn 0 32 0).push [(0, stopBeat 0)]).nextBlock)
     else s.agRead a (wrapN 64 (h 2 + m.n1)) 4
       ((upto 1 (min 63 ((h 1 % 2 ^ 32 * (h 1 / 2 ^ 32) - m.n1) / 4 - 1))).map (fun k : Nat => wrapN 64 ((h 2 + m.n1 + 4 * k : Nat) : Int))) (fun v x s => s.work a x (fun m => { m.emitOn 0 32 [v] with n1 := m.n1 + 4 })))
  else if first + count ≤ m.n2 then s.agNext a e
  else if Tensor.dim t 0 ≤ 4 * m.n2 + 3 then s.work a Osw.truncated NodeMem.nextBlock
  else if 4 ≤ m.vals.length then agHeader a s
  else s.agRead a (Tensor.addr t [4 * m.n2 + m.vals.length]) 8
    ((upto (m.vals.length + 1) (3 - m.vals.length)).map (fun k => Tensor.addr t [4 * m.n2 + k])) (fun v x s =>
    s.work a x (fun m => { m with vals := m.vals ++ [BitVec.ofNat 64 v] }))

/-- agen (R275): b0 while an activation runs; n0 its word, n3 the stage of the word, n2 the block, n1 the progress. -/
def execAgen (_n : NodeHdr) (scope : BitVec 3) (start : BitVec 8) (s : State) : Out :=
  itemNode false [] (fun a s =>
    let m := a.n.mem
    if !m.b0 then
      (match s.activation a 0 with
       | none => s.nodeSt a .idle
       | some s => s.work a (s.nodeClamp a scope) (fun m => { m with b0 := true, n0 := start.toNat, n3 := 0, nth := 0 }))
    else
      let word : AgWord := match (a.x.store a.n.tile a.n.slot)[m.n0]? with | some w => agWord w | none => .bad
      match word with
      | .bad => s.agAbort a true
      | .halt => s.work a 0 (fun m => { m with b0 := false, n3 := 0 })
      | .walk tk e =>
        if m.n3 ≠ 0 then agWalk e a s
        else (match s.goodTensor a.x.asid tk with
          | none => s.agAbort a true
          | some t => if Tensor.fmt t = .cf8 then s.agAbort a false else s.agBegin a t 0)
      | .blocks tk first count e =>
        if m.n3 ≠ 0 then agBlocks first count e a s
        else match s.goodTensor a.x.asid tk with
          | none => s.agAbort a true
          | some t => if Tensor.fmt t ≠ .n64 ∨ Tensor.rank t ≠ 1 then s.agAbort a true else s.agBegin a t first) s

/-! ## qport, pqadc (R276, R277) -/

/-- qport (R276): its key goes out when it has risen; it fires on no data. -/
def execQport (_n : NodeHdr) (s : State) : Out :=
  runNode s (fun a s => s.sendKey a 1 (BitVec.ofNat 32 (kiScore a.n.thr)))

/-- The code bytes of an item. -/
def codeAt (ws : List (BitVec 64)) (m : Nat) : Nat := ((ws[1 + m / 4]?).getD 0).toNat / 2 ^ (8 * (m % 4)) % 256

/-- The score of an item, subspace by subspace: none while a granule of the table is not full. -/
def pqScore (a : NodeAt) (rm tab : Nat) (ws : List (BitVec 64)) : Nat → Nat → Nat × BitVec 32 → State → Option (Nat × BitVec 32 × State)
  | 0, _, acc, s => some (acc.1, acc.2, s)
  | k + 1, m, acc, s =>
    match s.arrayRead a (tab + (256 * m + codeAt ws m) * 2) 2 with
    | none => none
    | some r =>
      let w := convertVal (floatVal .f16 r.1) false .f32 0 false
      let q := addF .f32 rm acc.1 w.1
      pqScore a rm tab ws k (m + 1) (q.1, acc.2 ||| q.2 ||| r.2.1) r.2.2

/-- pqadc (R277): words of items in left0; b0 in a block with a BOUND beat, n0 its items left. SAT bounds the score that is
written (log entry 142). -/
def execPqadc (n : NodeHdr) (tabofs : BitVec 15) (mm1 : BitVec 6) (iszw : BitVec 8) (s : State) : Out :=
  let tab := 16 * tabofs.toNat
  let z := iszw.toNat
  itemNode false [] (fun a s =>
    let m := a.n.mem
    let o := s.offer a 0
    let past := m.b0 && m.n0 == 0
    if o != .empty && decide (0x8_0000 < tab + 512 * (mm1.toNat + 1)) then s.nodeTrap a 3
    else if !past && decide (z ≤ m.left0.length) then
      (match pqScore a n.rm.toNat tab m.left0 (mm1.toNat + 1) 0 (0, 0) s with
       | none => s.nodeSt a .firing
       | some r =>
         let v : Rslt := if n.sat then finishF .f32 n.rm.toNat true (floatVal .f32 r.1) else (r.1, 0)
         r.2.2.work a (r.2.1 ||| v.2) (fun m =>
          { m with left0 := m.left0.drop z, n0 := m.n0 - 1 }.emitOn 0 64 [(kiMk v.1 ((m.left0[0]?).getD 0).toNat).toNat]))
    else match o with
      | .none | .empty => s.nodeSt a .idle
      | .ring b | .const b => s.takeData a 0 0 (fun m => { m with left0 := m.left0 ++ asWords (toLanes 32 b.data), bad := m.bad || b.poison })
      | .streamed b =>
        if b.typ = 0 then s.takeData a 0 0 (fun m =>
          if past then m else { m with left0 := m.left0 ++ asWords (toLanes 32 b.data), bad := m.bad || b.poison })
        else
          let isz := fld b.data.toNat 127 96
          let wrong := b.typ == 10 && isz != 4 * z
          s.takeCtl a [0] (Osw.when wrong Osw.truncated) (fun m =>
            { m.ctlOn [0] 64 kiPad.toNat b with left0 := [], b0 := b.typ == 10, n0 := if wrong then 0 else fld b.data.toNat 95 64 })) s

/-! ## bound, topk, seepm (R278 to R281, R398, R399) -/

/-- bound (R278): b0 in a forwarded block, b1 in a skipped one, b2 once the rest of a block is dropped; n0 passed, n1
skipped; vals holds BND. -/
def execBound (_n : NodeHdr) (recen : Bool) (recofs : BitVec 15) (s : State) : Out :=
  itemNode false [] (fun a s =>
    let m := a.n.mem
    let r := s.readSend a 1
    let s := r.2
    match s.offer a 0 with
    | .none | .empty => s.nodeSt a .idle
    | .ring b | .const b => s.takeData a 0 0 (fun m => m.push [(0, b)])
    | .streamed b =>
      let pass : NodeMem → NodeMem := fun m => m.push [(0, b)]
      let close : NodeMem → NodeMem := fun m => { m with b0 := false, b1 := false, b2 := false, vals := [] }
      if b.typ = 0 then
        let drop := m.b2 || (m.b0 && belowKey m.held r.1)
        s.takeData a 0 0 (fun m => if m.b1 then m else if drop then { m with b2 := true } else pass m)
      else if b.typ = 10 then
        let bnd := b.data.toNat % 2 ^ 32
        (if belowKey bnd r.1 then s.takeCtl a [0] Osw.blockSkipped (fun m => { close m with b1 := true, n1 := m.n1 + 1 })
         else s.takeCtl a [0] 0 (fun m => { pass (close m) with b0 := true, n0 := m.n0 + 1, vals := [BitVec.ofNat 64 bnd] }))
      else if m.b1 && b.typ == 1 then s.takeCtl a [0] 0 close
      else
        let s := s.takeCtl a [0] 0 (fun m => pass (close m))
        if b.typ = 9 then s.rankRecord a recen recofs.toNat m.n0 m.n1 else s) s

/-- A pair that topk admits (R279). -/
def topAdmits (k : Nat) (l : List (BitVec 64)) (thr p : BitVec 64) : Bool :=
  !kiNan p && kiAbove p thr && (decide (l.length < k) || l.getLast?.any (fun q => kiAbove p q))

/-- The list with a pair admitted. -/
def topInsert (k : Nat) (l : List (BitVec 64)) (p : BitVec 64) : List (BitVec 64) := (kiInsert false p l).take k

/-- The K-th pair of a full list. -/
def topKth (k : Nat) (l : List (BitVec 64)) : Option (BitVec 64) := if l.length = k then l.getLast? else none

/-- topk (R279): the list in vals, pairs admitted in n0; b2 while a threshold write is due. -/
def execTopk (_n : NodeHdr) (km1 : BitVec 8) (seg : Bool) (lvl : BitVec 3) (qen : Bool) (q : BitVec 42) (recen : Bool)
    (recofs : BitVec 15) (s : State) : Out :=
  let k := km1.toNat + 1
  itemNode false [] (fun a s =>
    let m := a.n.mem
    if m.b2 then s.nodeThresh a q ((topKth k m.vals).getD kiFloor) (fun m => { m with b2 := false })
    else match s.item a 0 with
      | .empty => (s.readSend a 1).2.nodeSt a .idle
      | .load b => s.takeItems a 0 b (toLanes 64 b.data)
      | .ent e =>
        let p := BitVec.ofNat 64 e
        let r := s.readSend a 1
        if !topAdmits k m.vals r.1 p then r.2.work a 0 (fun m => m.pop 0)
        else
          let l := topInsert k m.vals p
          let risen := (topKth k l).isSome && topKth k l != topKth k m.vals
          let s := r.2.work a 0 (fun m => { m.pop 0 with vals := l, n0 := m.n0 + 1, b2 := risen && qen, flags := [m.bad || m.flags.any id] })
          (match (if risen then topKth k l else none) with
           | none => s
           | some t => (s.updNode a.f a.k (fun n => n.raise t)).sendKey a 1
              (BitVec.ofNat 32 (kiScore t)))
      | .ctl b =>
        if b.typ = 9 || (seg && b.typ != 10 && endsAt lvl.toNat b) then
          let s1 := s.takeCtl a [0] 0 (fun m =>
            { m.push ((kiBeats m.vals).map (fun d => (0, { dataBeat d with poison := m.flags.any id })) ++ [(0, b)]) with
              vals := [], n0 := 0, flags := [] })
          s1.rankRecord a recen recofs.toNat m.n0 (match topKth k m.vals with | some p => kiScore p | none => 0xFF80_0000)
        else s.takeCtl a [0] 0 id) s

/-- seepm (R281): merges its inputs, sends its key, and writes the threshold each time it rises; vals holds the pair last
written. -/
def execSeepm (_n : NodeHdr) (qen : Bool) (q : BitVec 42) (s : State) : Out :=
  runNode s (fun a s =>
    let s := (s.readSend a 0).2
    let t := s.thrNow a
    if qen && kiAbove t ((a.n.mem.vals[0]?).getD kiFloor) then s.nodeThresh a q t (fun m => { m with vals := [t] })
    else s.nodeSt a .idle)

/-! ## tomb, vset (R282, R283) -/

/-- The bitmap lies in a tensor up to this identifier's byte. -/
def inBitmap (t : Tensor) (id : Nat) : Bool := decide (id / 8 < Tensor.dim t 0)

/-- The accesses to a bitmap for the items behind the one in hand; `idOf` gives the identifier of an item. -/
def NodeAt.nextBits (a : NodeAt) (t : Tensor) (idOf : Nat → Nat) : List (Nat × Nat) :=
  (a.n.mem.left0.drop 1).zipIdx.filterMap (fun p =>
    let id := idOf p.1.toNat
    if inBitmap t id then some (a.n.mem.nth + 1 + p.2, Tensor.addr t [id / 8]) else none)

/-- The item in hand is used: the next access is that of the next item. -/
def NodeMem.popItem (m : NodeMem) : NodeMem := { m.pop 0 with nth := m.nth + 1 }

/-- Reads the bit of an identifier in a bitmap tensor. -/
def State.bitmapRead (s : State) (a : NodeAt) (t : Tensor) (idOf : Nat → Nat) (id : Nat) (done : Bool → BitVec 32 → State → State) :
    State :=
  s.elemAccess a (a.req a.n.mem.nth) .read (Tensor.addr t [id / 8]) 1 (a.nextBits t idOf)
    (fun sp s => s.nodeRead a (a.req a.n.mem.nth) sp 1)
    (fun d w s => done (bit (leNat d.1) (id % 8)) (d.2 ||| w) s)

/-- The filler and the beats of items of a node whose FMT is ki or of entries. -/
def itemFill (n : NodeHdr) : Nat := if n.fmt = .ki then kiPad.toNat else hole

/-- tomb (R282): VAR 0 pairs, VAR 1 entries. -/
def execTomb (n : NodeHdr) (scope : BitVec 3) (_tid : BitVec 12) (s : State) : Out :=
  itemNode false [] (fun a s =>
    let t := (a.n.tens[0]?).getD 0
    match s.item a 0 with
    | .empty => s.nodeSt a .idle
    | .load b =>
      let s := (s.nodeStatus a (s.nodeClamp a scope)).updMemOf a (fun m => { m with nth := 0 })
      if n.var = 0#4 then s.takeItems a 0 b (toLanes 64 b.data) else s.takeEntries a 0 b
    | .ent e =>
      let id := e / 2 ^ 32
      let keep : NodeMem → NodeMem := fun m => m.popItem.emitOn 0 64 [e]
      if !inBitmap t id then s.work a Osw.truncated keep
      else s.bitmapRead a t (· / 2 ^ 32) id (fun dead w s => s.work a w (fun m => if dead then m.popItem else keep m))
    | .ctl b => s.passCtl a 64 (itemFill n) b) s

/-- vset's test-and-set of a bit: one operation at the bank; a page that is not MERE is a fault with reason 3. -/
def State.testSet (s : State) (a : NodeAt) (t : Tensor) (idOf : Nat → Nat) (id : Nat) (done : Bool → BitVec 32 → State → State) :
    State :=
  let rq := a.req a.n.mem.nth
  let g : List Byte → List Byte × BitVec 32 := fun old => (toLE 1 (leNat old ||| 2 ^ (id % 8)), 0)
  s.elemAccess a rq .rmw (Tensor.addr t [id / 8]) 1 (a.nextBits t idOf)
    (fun sp s => match sp with
      | .global va => (s.xlateFor a.x rq .rmw va).bind (fun ph s =>
          if ph.typ = .mere then s.rmwAt rq ph va 1 g else s.meetFault a.x.asid rq ⟨va, .rmw, 3, 0⟩)
      | _ => s.nodeRmw a rq sp 1 g)
    (fun d w s => done (bit (leNat d.1) (id % 8)) (d.2 ||| w) s)

/-- vset (R283): references, or pairs by identifier. -/
def execVset (n : NodeHdr) (scope : BitVec 3) (_tvis _ttomb : BitVec 12) (expdel ten : Bool) (s : State) : Out :=
  let ki := n.fmt == .ki
  let w := if ki then 64 else 32
  itemNode false [] (fun a s =>
    let tv := (a.n.tens[0]?).getD 0
    let tt := (a.n.tens[1]?).getD 0
    match s.item a 0 with
    | .empty => s.nodeSt a .idle
    | .load b =>
      ((s.nodeStatus a (s.nodeClamp a scope)).updMemOf a (fun m => { m with nth := 0 })).takeItems a 0 b (toLanes w b.data)
    | .ent e =>
      let idOf : Nat → Nat := fun e => if ki then e / 2 ^ 32 else e
      let id := idOf e
      let visit : BitVec 32 → State → State := fun x s => s.testSet a tv idOf id (fun old y s =>
        s.work a (x ||| y) (fun m => if old then m.popItem else m.popItem.emitOn 0 w [e]))
      if !inBitmap tv id || (ten && !inBitmap tt id) then s.work a Osw.truncated NodeMem.popItem
      else if ten && !expdel then
        s.bitmapRead a tt idOf id (fun dead x s => if dead then s.work a x NodeMem.popItem else visit x s)
      else visit 0 s
    | .ctl b => s.passCtl a w (if ki then kiPad.toNat else 0) b) s

/-! ## kipack, fcomp (R284, R285) -/

/-- A score widened exactly to FP32, a NaN to the canonical one (R54). -/
def scoreOf (f : Fmt) (v : Nat) : Rslt := if f = .f32 then passF f v else convertVal (floatVal f v) false .f32 0 false

/-- kipack (R284): scores in left0, references in left1, the items since the last DONE in n0. -/
def execKipack (n : NodeHdr) (base : BitVec 32) (s : State) : Out :=
  let w := Fmt.bits n.fmt
  let reset : Beat → NodeMem → NodeMem := fun b m =>
    let m := m.ctlOn [0] 64 kiPad.toNat b
    if b.typ = 9 then { m with n0 := 0 } else m
  let put : Nat → Nat → NodeMem → NodeMem := fun v id m => { m.emitOn 0 64 [(kiMk (scoreOf n.fmt v).1 id).toNat] with n0 := m.n0 + 1 }
  let spare : Nat → NodeAt → State → State := fun j a s =>
    match s.offer a j with
    | .streamed b => if b.typ = 0 then s.nodeTrap a 1 else s.work a 0 (fun m => m.setLeft j [])
    | _ => s.nodeSt a .idle
  itemNode false [] (fun a s =>
    if n.var = 1#4 then
      (match s.item a 0 with
       | .empty => s.nodeSt a .idle
       | .load b => s.takeItems a 0 b (toLanes w b.data)
       | .ent v => s.work a (scoreOf n.fmt v).2 (fun m => put v ((base.toNat + m.n0) % 2 ^ 32) (m.pop 0))
       | .ctl b => s.takeCtl a [0] 0 (reset b))
    else match s.item a 0, s.item a 1 with
      | .load b, _ => s.takeItems a 0 b (toLanes w b.data)
      | _, .load b => s.takeItems a 1 b (toLanes 32 b.data)
      | .empty, _ => s.nodeSt a .idle
      | _, .empty => s.nodeSt a .idle
      | .ent v, .ent id => s.work a (scoreOf n.fmt v).2 (fun m => put v id ((m.pop 0).pop 1))
      | .ent _, .ctl _ => spare 0 a s
      | .ctl _, .ent _ => spare 1 a s
      | .ctl x, .ctl y => if x.typ ≠ y.typ then s.nodeTrap a 1 else s.takeCtl a [0, 1] 0 (reset x)) s

/-- The magnitude of a value. -/
def Val.abs : Val → Val
  | .num _ m e => .num false m e
  | .inf _ => .inf false
  | .nan => .nan

/-- The item that fcomp drops (R285). -/
def fcompDrops (n : NodeHdr) (eps : BitVec 32) (e : Nat) : Bool :=
  let x := valueOf n.fmt (entVal n.fmt e)
  let y := floatVal .f32 eps.toNat
  if n.var = 0#4 then x.eqv (.num false 0 0)
  else if n.var = 1#4 then (Val.abs x).lt y || (Val.abs x).eqv y
  else let p := floatVal .f32 (e % 2 ^ 32); p.isNan || p.lt y

/-- fcomp (R285). -/
def execFcomp (n : NodeHdr) (eps : BitVec 32) (s : State) : Out :=
  itemNode false [] (fun a s =>
    match s.item a 0 with
    | .empty => s.nodeSt a .idle
    | .load b => if n.var = 2#4 then s.takeItems a 0 b (toLanes 64 b.data) else s.takeEntries a 0 b
    | .ent e => s.work a 0 (fun m => if fcompDrops n eps e then m.pop 0 else (m.pop 0).emitOn 0 64 [e])
    | .ctl b => s.passCtl a 64 (itemFill n) b) s

end Sys2Proof.Machine
end

