-- ==== Sys2Proof/Machine/Walks.lean ====
section
/-! DEFINITION. The events of the translation units and the EMTs (R309, R318, R327). -/
namespace Sys2Proof.Machine

/-- The walks of a die in progress. -/
def State.running (s : State) (die : Nat) : Nat := s.xl.walks.countP (fun w => w.die == die && w.running)

/-- The first queued walk of the partition a die serves next, from `p` on (R318). -/
def nextWalk (ws : List Walk) (die : Nat) : Nat → Nat → Option (Nat × Nat)
  | 0, _ => none
  | n + 1, p =>
    match findIx (fun w : Walk => w.die == die && w.part == p % 16 && !w.running) ws with
    | some (k, _) => some (k, p % 16)
    | none => nextWalk ws die n (p + 1)

/-- WALK_START (R317, R318): a free walker of the die takes the oldest queued walk of the partition whose turn it is. -/
def execWalkStart (die : BitVec 2) (s : State) : Out :=
  let d := die.toNat
  if 128 ≤ s.running d then .next s
  else match nextWalk s.xl.walks d 16 ((s.xl.turn[d]?).getD 0) with
    | none => .next s
    | some (k, p) => .next { s with xl := { s.xl with
        walks := updNth s.xl.walks k (fun w => { w with running := true })
        turn := updNth s.xl.turn d (fun _ => (p + 1) % 16) } }

/-- The request of the lowest element; of one stream, the first in its order (R327). -/
def lowestAsk : List Ask → Option Ask
  | [] => none
  | r :: l => match lowestAsk l with
    | none => some r
    | some q => some (if q.req.same r.req then (if r.req.upTo q.req then r else q) else if q.req.elem < r.req.elem then q else r)

/-- Each stream's first request. -/
def firstAsks : List Ask → List Ask
  | [] => []
  | r :: l =>
    let q := firstAsks l
    if q.any (fun b => b.req.same r.req && b.req.upTo r.req) then q else r :: q.filter (fun b => !b.req.same r.req)

/-- Requests whose translation fails: one fault record, for the lowest element, with its address and its access; every
stream meets the fault at its own first element, and its later requests are withdrawn (R320, R321, R326, R327). -/
def State.failAsks (s : State) (asid : Nat) (l : List Ask) (why : Ask → WalkErr) : State :=
  let f : Ask → XFault := fun r => ⟨r.va, r.acc, (why r).1, (why r).2⟩
  match lowestAsk l with
  | none => s
  | some r => (firstAsks l).foldl (fun t q => (t.pend asid q.req (f q) s.seq).withdraw q.req) (s.faultRecord asid r.req (f r))

/-- WALK_COMPLETE (R314, R315, R318 to R321, R327): the k-th walk in progress on the die returns a translation to the die
TLB or fails. Each request that waits is held to its own access; the translation is kept when it serves one of them. A walk
whose tables were invalidated meanwhile returns nothing. -/
def execWalkComplete (die : BitVec 2) (k : Nat) (s : State) : Out :=
  match (s.xl.walks.zipIdx.filter (fun p => p.1.die == die.toNat && p.1.running))[k]? with
  | none => .next s
  | some (w, i) =>
    let s1 := { s with xl := { s.xl with walks := dropNth s.xl.walks i } }
    if w.stale then .next s1
    else match s1.walk w with
      | .error e => .next (s1.failAsks w.asid w.reqs (fun _ => e))
      | .ok (t, s2) =>
        let bad := w.reqs.filter (fun r => (t.lacks r.acc).isSome)
        let s3 := s2.failAsks w.asid bad (fun r => (2, (t.lacks r.acc).getD 1))
        .next (if bad.length = w.reqs.length ∧ !w.reqs.isEmpty then s3 else s3.addTlb t)

/-- The lines an EMT holds (R308): 4 MiB. -/
def emtLines : Nat := 32768

/-- The lines of an EMT, replicas among them. -/
def Emt.held (e : Emt) (n : Nat) : List Nat :=
  (e.lines.map Line.line).filter (fun l => emtOf l == n) ++ (e.replicas.filter (fun r => r.2 == n)).map (fun r => r.1)

/-- An EMT that is full gives up a line, which one being free (R308, R311). -/
def State.makeRoom (s : State) (n : Nat) : State :=
  let l := s.emt.held n
  if l.length < emtLines then s
  else
    let v := (l[Config.freeNat s.free % l.length]?).getD 0
    let s := { s with free := s.free + 1 }
    if emtOf v = n then s.evictLine v else s.updEmt (fun e => { e with replicas := e.replicas.filter (fun r => r != (v, n)) })

/-- Some translation of a page with ROS set covers a line (R308, R314). -/
def State.rosLine (s : State) (line : Nat) : Bool :=
  s.xl.tlbs.any (fun t => t.typ.inEmt && bit (leNat (s.mem.getN (keySpread t.leaf) 8)) 1 &&
    (upto 0 (ceilDiv t.size 4096)).any (fun k => t.typ.key t.mod (t.base + 4096 * k) / 4096 == line * 128 / 4096))

/-- LINE_FILL (R308, R309): a fill in flight returns and the line is present; of a present line of a page with ROS set, a
read-only replica in some EMT. -/
def execLineFill (line : Nat) (s : State) : Out :=
  if s.emt.fills.any (fun p => p.2 == line) then
    let s := if s.emt.has line then s else s.makeRoom (emtOf line)
    .next (s.updEmt (fun e => { e with fills := e.fills.filter (fun p => p.2 != line),
                                       lines := if e.has line then e.lines else ⟨line, 0, false⟩ :: e.lines }))
  else if s.emt.has line && s.rosLine line then
    let n := Config.freeNat s.free % 128
    .next (({ s with free := s.free + 1 }.makeRoom n).updEmt (fun e => { e with
      replicas := if e.replicas.contains (line, n) then e.replicas else (line, n) :: e.replicas }))
  else .next s

/-- The request of a retry timer stands frozen. -/
def State.reqFrozen (s : State) (r : Req) : Bool :=
  match r.fen with
  | some f => (s.fens[f]?).any (fun x => s.fenFrozen x)
  | none => false

/-- RETRY_TIMER (R309, R310): the k-th timer has run out, and its request is presented again. -/
def execRetryTimer (k : Nat) (s : State) : Out :=
  match s.emt.timers[k]? with
  | none => .next s
  | some t =>
    if decide (t.due ≤ s.cycle) && !s.reqFrozen t.req then
      .next (s.updEmt (fun e => { e with timers := updNth e.timers k (fun t => { t with ready := true }) }))
    else .next s

end Sys2Proof.Machine
end

