-- ==== Sys2Proof/Machine/Dispatch.lean ====
section
/-! DEFINITION. The one match over Instr: each arm is one direct call of its instruction's meaning. -/
namespace Sys2Proof.Machine

/-- The meaning of an instruction. -/
def exec (i : Instr) (s : State) : Host.Outcome State Fault Refusal :=
  match i with
  | .fetchBlock => Sys2Proof.Machine.execFetchBlock s
  | .commit => Sys2Proof.Machine.execCommit s
  | .grant => Sys2Proof.Machine.execGrant s
  | .takeNodeTrap => Sys2Proof.Machine.execTakeNodeTrap s
  | .wfeTimeout => Sys2Proof.Machine.execWfeTimeout s
  | .claimRetry => Sys2Proof.Machine.execClaimRetry s
  | .queueWake quad => Sys2Proof.Machine.execQueueWake quad s
  | .cmdComplete => Sys2Proof.Machine.execCmdComplete s
  | .add rd ra rb => Sys2Proof.Machine.execAdd rd ra rb s
  | .sub rd ra rb => Sys2Proof.Machine.execSub rd ra rb s
  | .and rd ra rb => Sys2Proof.Machine.execAnd rd ra rb s
  | .or rd ra rb => Sys2Proof.Machine.execOr rd ra rb s
  | .xor rd ra rb => Sys2Proof.Machine.execXor rd ra rb s
  | .andn rd ra rb => Sys2Proof.Machine.execAndn rd ra rb s
  | .sll rd ra rb => Sys2Proof.Machine.execSll rd ra rb s
  | .srl rd ra rb => Sys2Proof.Machine.execSrl rd ra rb s
  | .sra rd ra rb => Sys2Proof.Machine.execSra rd ra rb s
  | .ror rd ra rb => Sys2Proof.Machine.execRor rd ra rb s
  | .slt rd ra rb => Sys2Proof.Machine.execSlt rd ra rb s
  | .sltn rd ra rb => Sys2Proof.Machine.execSltn rd ra rb s
  | .seq rd ra rb => Sys2Proof.Machine.execSeq rd ra rb s
  | .min rd ra rb => Sys2Proof.Machine.execMin rd ra rb s
  | .max rd ra rb => Sys2Proof.Machine.execMax rd ra rb s
  | .minn rd ra rb => Sys2Proof.Machine.execMinn rd ra rb s
  | .maxn rd ra rb => Sys2Proof.Machine.execMaxn rd ra rb s
  | .clz rd ra => Sys2Proof.Machine.execClz rd ra s
  | .ctz rd ra => Sys2Proof.Machine.execCtz rd ra s
  | .popc rd ra => Sys2Proof.Machine.execPopc rd ra s
  | .mul rd ra rb => Sys2Proof.Machine.execMul rd ra rb s
  | .mulh rd ra rb => Sys2Proof.Machine.execMulh rd ra rb s
  | .mulhn rd ra rb => Sys2Proof.Machine.execMulhn rd ra rb s
  | .div rd ra rb => Sys2Proof.Machine.execDiv rd ra rb s
  | .divn rd ra rb => Sys2Proof.Machine.execDivn rd ra rb s
  | .rem rd ra rb => Sys2Proof.Machine.execRem rd ra rb s
  | .remn rd ra rb => Sys2Proof.Machine.execRemn rd ra rb s
  | .mksa rd ra rb => Sys2Proof.Machine.execMksa rd ra rb s
  | .taddr rd ra rb => Sys2Proof.Machine.execTaddr rd ra rb s
  | .tbase rd ra => Sys2Proof.Machine.execTbase rd ra s
  | .tdim rd ra rb => Sys2Proof.Machine.execTdim rd ra rb s
  | .tstr rd ra rb => Sys2Proof.Machine.execTstr rd ra rb s
  | .tinfo rd ra => Sys2Proof.Machine.execTinfo rd ra s
  | .fadd rd ra rb f32 dyn rm => Sys2Proof.Machine.execFadd rd ra rb f32 dyn rm s
  | .fsub rd ra rb f32 dyn rm => Sys2Proof.Machine.execFsub rd ra rb f32 dyn rm s
  | .fmul rd ra rb f32 dyn rm => Sys2Proof.Machine.execFmul rd ra rb f32 dyn rm s
  | .fdiv rd ra rb f32 dyn rm => Sys2Proof.Machine.execFdiv rd ra rb f32 dyn rm s
  | .fsqrt rd ra f32 dyn rm => Sys2Proof.Machine.execFsqrt rd ra f32 dyn rm s
  | .fmin rd ra rb f32 => Sys2Proof.Machine.execFmin rd ra rb f32 s
  | .fmax rd ra rb f32 => Sys2Proof.Machine.execFmax rd ra rb f32 s
  | .fma rd ra rb f32 dyn rm => Sys2Proof.Machine.execFma rd ra rb f32 dyn rm s
  | .feq rd ra rb f32 => Sys2Proof.Machine.execFeq rd ra rb f32 s
  | .flt rd ra rb f32 => Sys2Proof.Machine.execFlt rd ra rb f32 s
  | .fle rd ra rb f32 => Sys2Proof.Machine.execFle rd ra rb f32 s
  | .cvt rd ra dyn rm sat dst src => Sys2Proof.Machine.execCvt rd ra dyn rm sat dst src s
  | .csrr rd csr => Sys2Proof.Machine.execCsrr rd csr s
  | .csrw csr ra => Sys2Proof.Machine.execCsrw csr ra s
  | .csrx rd ra csr => Sys2Proof.Machine.execCsrx rd ra csr s
  | .addi rd ra imm => Sys2Proof.Machine.execAddi rd ra imm s
  | .andi rd ra imm => Sys2Proof.Machine.execAndi rd ra imm s
  | .ori rd ra imm => Sys2Proof.Machine.execOri rd ra imm s
  | .xori rd ra imm => Sys2Proof.Machine.execXori rd ra imm s
  | .slli rd ra sh => Sys2Proof.Machine.execSlli rd ra sh s
  | .srli rd ra sh => Sys2Proof.Machine.execSrli rd ra sh s
  | .srai rd ra sh => Sys2Proof.Machine.execSrai rd ra sh s
  | .slti rd ra imm => Sys2Proof.Machine.execSlti rd ra imm s
  | .sltni rd ra imm => Sys2Proof.Machine.execSltni rd ra imm s
  | .lui rd imm => Sys2Proof.Machine.execLui rd imm s
  | .lba rd imm => Sys2Proof.Machine.execLba rd imm s
  | .ld rd base size fe imm => Sys2Proof.Machine.execLd rd base size fe imm s
  | .st rd base size fe imm => Sys2Proof.Machine.execSt rd base size fe imm s
  | .br cond ra ofs => Sys2Proof.Machine.execBr cond ra ofs s
  | .call cond ra ofs => Sys2Proof.Machine.execCall cond ra ofs s
  | .jr rd ra => Sys2Proof.Machine.execJr rd ra s
  | .halt => Sys2Proof.Machine.execHalt s
  | .trap code => Sys2Proof.Machine.execTrap code s
  | .tret => Sys2Proof.Machine.execTret s
  | .wfe => Sys2Proof.Machine.execWfe s
  | .sev => Sys2Proof.Machine.execSev s
  | .fence scope => Sys2Proof.Machine.execFence scope s
  | .lda w32 rd ra scope => Sys2Proof.Machine.execLda w32 rd ra scope s
  | .stl w32 ra rb scope => Sys2Proof.Machine.execStl w32 ra rb scope s
  | .cas w32 rd ra rb scope => Sys2Proof.Machine.execCas w32 rd ra rb scope s
  | .amoAdd w32 rd ra rb scope => Sys2Proof.Machine.execAmoAdd w32 rd ra rb scope s
  | .amoAnd w32 rd ra rb scope => Sys2Proof.Machine.execAmoAnd w32 rd ra rb scope s
  | .amoOr w32 rd ra rb scope => Sys2Proof.Machine.execAmoOr w32 rd ra rb scope s
  | .amoXor w32 rd ra rb scope => Sys2Proof.Machine.execAmoXor w32 rd ra rb scope s
  | .amoMin w32 rd ra rb scope => Sys2Proof.Machine.execAmoMin w32 rd ra rb scope s
  | .amoMax w32 rd ra rb scope => Sys2Proof.Machine.execAmoMax w32 rd ra rb scope s
  | .amoMinn w32 rd ra rb scope => Sys2Proof.Machine.execAmoMinn w32 rd ra rb scope s
  | .amoMaxn w32 rd ra rb scope => Sys2Proof.Machine.execAmoMaxn w32 rd ra rb scope s
  | .amoSwap w32 rd ra rb scope => Sys2Proof.Machine.execAmoSwap w32 rd ra rb scope s
  | .binit ra rb scope => Sys2Proof.Machine.execBinit ra rb scope s
  | .barv rd ra => Sys2Proof.Machine.execBarv rd ra s
  | .bexp ra rb => Sys2Proof.Machine.execBexp ra rb s
  | .bwait rd ra rb scope => Sys2Proof.Machine.execBwait rd ra rb scope s
  | .qinit ra rb => Sys2Proof.Machine.execQinit ra rb s
  | .qenq ra rb => Sys2Proof.Machine.execQenq ra rb s
  | .qdeq ra rb => Sys2Proof.Machine.execQdeq ra rb s
  | .qtenq rd ra rb => Sys2Proof.Machine.execQtenq rd ra rb s
  | .qtdeq rd ra rb => Sys2Proof.Machine.execQtdeq rd ra rb s
  | .qstat rd ra => Sys2Proof.Machine.execQstat rd ra s
  | .qdrain ra => Sys2Proof.Machine.execQdrain ra s
  | .rwfill rd h cnt => Sys2Proof.Machine.execRwfill rd h cnt s
  | .rwfree rd h cnt => Sys2Proof.Machine.execRwfree rd h cnt s
  | .rpop h cnt => Sys2Proof.Machine.execRpop h cnt s
  | .rpush h cnt => Sys2Proof.Machine.execRpush h cnt s
  | .rset h ra => Sys2Proof.Machine.execRset h ra s
  | .rget h ra => Sys2Proof.Machine.execRget h ra s
  | .issue ra rb => Sys2Proof.Machine.execIssue ra rb s
  | .cfgld rd ra rb => Sys2Proof.Machine.execCfgld rd ra rb s
  | .dcinv ra rb => Sys2Proof.Machine.execDcinv ra rb s
  | .dcdrain ra rb => Sys2Proof.Machine.execDcdrain ra rb s
  | .icinv ra rb => Sys2Proof.Machine.execIcinv ra rb s
  | .copy h src rm sat dst o2 o1 o0 => Sys2Proof.Machine.execCopy h src rm sat dst o2 o1 o0 s
  | .copyr h ring rm sat src o2 o1 o0 => Sys2Proof.Machine.execCopyr h ring rm sat src o2 o1 o0 s
  | .copyx h ring rm sat dst o2 o1 o0 => Sys2Proof.Machine.execCopyx h ring rm sat dst o2 o1 o0 s
  | .copyred h src rm sat dst op o1 o0 => Sys2Proof.Machine.execCopyred h src rm sat dst op o1 o0 s
  | .gather h t desig rofs iofs nm1 n32 => Sys2Proof.Machine.execGather h t desig rofs iofs nm1 n32 s
  | .scatter h t desig rofs iofs nm1 n32 => Sys2Proof.Machine.execScatter h t desig rofs iofs nm1 n32 s
  | .fill h t scr desig ofs val => Sys2Proof.Machine.execFill h t scr desig ofs val s
  | .agload h nm1 addr => Sys2Proof.Machine.execAgload h nm1 addr s
  | .sbar h mask => Sys2Proof.Machine.execSbar h mask s
  | .carrive h => Sys2Proof.Machine.execCarrive h s
  | .cexpect h bytes => Sys2Proof.Machine.execCexpect h bytes s
  | .cnop h => Sys2Proof.Machine.execCnop h s
  | .qput h nm1 ring q => Sys2Proof.Machine.execQput h nm1 ring q s
  | .qget h nm1 ring q => Sys2Proof.Machine.execQget h nm1 ring q s
  | .depdec h die amount name => Sys2Proof.Machine.execDepdec h die amount name s
  | .mred h t rm sat op desig sofs idx nm1 tag tmo => Sys2Proof.Machine.execMred h t rm sat op desig sofs idx nm1 tag tmo s
  | .mredCombine key tag => Sys2Proof.Machine.execMredCombine key tag s
  | .mredTimeout key tag => Sys2Proof.Machine.execMredTimeout key tag s
  | .matom h t op desig sofs ret rofs ord => Sys2Proof.Machine.execMatom h t op desig sofs ret rofs ord s
  | .maxpy h t rm sat desig xofs a => Sys2Proof.Machine.execMaxpy h t rm sat desig xofs a s
  | .thresh h score => Sys2Proof.Machine.execThresh h score s
  | .launch h addr => Sys2Proof.Machine.execLaunch h addr s
  | .launchAccept k => Sys2Proof.Machine.execLaunchAccept k s
  | .mswitch h m now => Sys2Proof.Machine.execMswitch h m now s
  | .pref h t => Sys2Proof.Machine.execPref h t s
  | .inval h t => Sys2Proof.Machine.execInval h t s
  | .flush h t => Sys2Proof.Machine.execFlush h t s
  | .vadd n => Sys2Proof.Machine.execVadd n s
  | .vsub n => Sys2Proof.Machine.execVsub n s
  | .vmul n => Sys2Proof.Machine.execVmul n s
  | .vfma n => Sys2Proof.Machine.execVfma n s
  | .vdiv n => Sys2Proof.Machine.execVdiv n s
  | .vsqrt n => Sys2Proof.Machine.execVsqrt n s
  | .vmin n => Sys2Proof.Machine.execVmin n s
  | .vmax n => Sys2Proof.Machine.execVmax n s
  | .vabs n => Sys2Proof.Machine.execVabs n s
  | .vneg n => Sys2Proof.Machine.execVneg n s
  | .vand n => Sys2Proof.Machine.execVand n s
  | .vor n => Sys2Proof.Machine.execVor n s
  | .vxor n => Sys2Proof.Machine.execVxor n s
  | .vshl n => Sys2Proof.Machine.execVshl n s
  | .vshr n => Sys2Proof.Machine.execVshr n s
  | .vclamp n => Sys2Proof.Machine.execVclamp n s
  | .vcmp n cc any => Sys2Proof.Machine.execVcmp n cc any s
  | .sel n => Sys2Proof.Machine.execSel n s
  | .cvtNode n sfmt stid dtid => Sys2Proof.Machine.execCvtNode n sfmt stid dtid s
  | .vperm n => Sys2Proof.Machine.execVperm n s
  | .vrec n => Sys2Proof.Machine.execVrec n s
  | .vrsq n => Sys2Proof.Machine.execVrsq n s
  | .vexp n => Sys2Proof.Machine.execVexp n s
  | .vlog n => Sys2Proof.Machine.execVlog n s
  | .vtanh n => Sys2Proof.Machine.execVtanh n s
  | .vsigm n => Sys2Proof.Machine.execVsigm n s
  | .vred n op lvl => Sys2Proof.Machine.execVred n op lvl s
  | .vscan n op lvl => Sys2Proof.Machine.execVscan n op lvl s
  | .vbcast n elem => Sys2Proof.Machine.execVbcast n elem s
  | .mma n m km1 cin => Sys2Proof.Machine.execMma n m km1 cin s
  | .mpoly n m deg => Sys2Proof.Machine.execMpoly n m deg s
  | .miter n m cap tol lim tdiv => Sys2Proof.Machine.execMiter n m cap tol lim tdiv s
  | .msort n m => Sys2Proof.Machine.execMsort n m s
  | .mtrn n m => Sys2Proof.Machine.execMtrn n m s
  | .cseq n cnt => Sys2Proof.Machine.execCseq n cnt s
  | .cpipe n cnt dm1 => Sys2Proof.Machine.execCpipe n cnt dm1 s
  | .cstrm n cnt => Sys2Proof.Machine.execCstrm n cnt s
  | .steer n => Sys2Proof.Machine.execSteer n s
  | .prime n nm1 => Sys2Proof.Machine.execPrime n nm1 s
  | .source n nbeat endc => Sys2Proof.Machine.execSource n nbeat endc s
  | .count n cnt base step endc => Sys2Proof.Machine.execCount n cnt base step endc s
  | .sink n ndone => Sys2Proof.Machine.execSink n ndone s
  | .selectToken => Sys2Proof.Machine.execSelectToken s
  | .mantleSwitch => Sys2Proof.Machine.execMantleSwitch s
  | .load n scope => Sys2Proof.Machine.execLoad n scope s
  | .store n scope => Sys2Proof.Machine.execStore n scope s
  | .ldfe n scope => Sys2Proof.Machine.execLdfe n scope s
  | .stfe n scope => Sys2Proof.Machine.execStfe n scope s
  | .ojoin n scope => Sys2Proof.Machine.execOjoin n scope s
  | .atom n scope op => Sys2Proof.Machine.execAtom n scope op s
  | .rdring n scope => Sys2Proof.Machine.execRdring n scope s
  | .wrring n scope close => Sys2Proof.Machine.execWrring n scope close s
  | .fscan n ptrofs crdofs cnt => Sys2Proof.Machine.execFscan n ptrofs crdofs cnt s
  | .isect n => Sys2Proof.Machine.execIsect n s
  | .union n op => Sys2Proof.Machine.execUnion n op s
  | .repeatNode n lvl => Sys2Proof.Machine.execRepeatNode n lvl s
  | .sred n op lvl => Sys2Proof.Machine.execSred n op lvl s
  | .sjoin n op lvl rlvl => Sys2Proof.Machine.execSjoin n op lvl rlvl s
  | .sacc n accofs wm1 lvl => Sys2Proof.Machine.execSacc n accofs wm1 lvl s
  | .split n => Sys2Proof.Machine.execSplit n s
  | .merge n => Sys2Proof.Machine.execMerge n s
  | .rmerge n => Sys2Proof.Machine.execRmerge n s
  | .gath n scope tid icrd => Sys2Proof.Machine.execGath n scope tid icrd s
  | .scat n scope tv tc tp lvl => Sys2Proof.Machine.execScat n scope tv tc tp lvl s
  | .agen n scope start => Sys2Proof.Machine.execAgen n scope start s
  | .qport n => Sys2Proof.Machine.execQport n s
  | .pqadc n tabofs mm1 iszw => Sys2Proof.Machine.execPqadc n tabofs mm1 iszw s
  | .bound n recen recofs => Sys2Proof.Machine.execBound n recen recofs s
  | .topk n km1 seg lvl qen q recen recofs => Sys2Proof.Machine.execTopk n km1 seg lvl qen q recen recofs s
  | .seepm n qen q => Sys2Proof.Machine.execSeepm n qen q s
  | .tomb n scope tid => Sys2Proof.Machine.execTomb n scope tid s
  | .vset n scope tvis ttomb expdel ten => Sys2Proof.Machine.execVset n scope tvis ttomb expdel ten s
  | .kipack n base => Sys2Proof.Machine.execKipack n base s
  | .fcomp n eps => Sys2Proof.Machine.execFcomp n eps s
  | .walkStart die => Sys2Proof.Machine.execWalkStart die s
  | .walkComplete die k => Sys2Proof.Machine.execWalkComplete die k s
  | .lineFill line => Sys2Proof.Machine.execLineFill line s
  | .retryTimer k => Sys2Proof.Machine.execRetryTimer k s
  | .qportSubmit fn size rec => Sys2Proof.Machine.execQportSubmit fn size rec s
  | .distribute => Sys2Proof.Machine.execDistribute s
  | .placementAttempt die => Sys2Proof.Machine.execPlacementAttempt die s
  | .fenStart => Sys2Proof.Machine.execFenStart s
  | .aging die k => Sys2Proof.Machine.execAging die k s
  | .taskComplete => Sys2Proof.Machine.execTaskComplete s
  | .balancerWindow die => Sys2Proof.Machine.execBalancerWindow die s
  | .cloneNode slot => Sys2Proof.Machine.execCloneNode slot s
  | .rateRefill die part => Sys2Proof.Machine.execRateRefill die part s
  | .sliceEnd part => Sys2Proof.Machine.execSliceEnd part s
  | .freezeComplete part => Sys2Proof.Machine.execFreezeComplete part s
  | .contextSwitch part => Sys2Proof.Machine.execContextSwitch part s
  | .restoreComplete part => Sys2Proof.Machine.execRestoreComplete part s
  | .externalResponse k data => Sys2Proof.Machine.execExternalResponse k data s
  | .migPreCopy fn => Sys2Proof.Machine.execMigPreCopy fn s
  | .migStop fn => Sys2Proof.Machine.execMigStop fn s
  | .migRun fn => Sys2Proof.Machine.execMigRun fn s
  | .migResume fn => Sys2Proof.Machine.execMigResume fn s
  | .sleeveGo fn => Sys2Proof.Machine.execSleeveGo fn s
  | .faultVerdict fn seq => Sys2Proof.Machine.execFaultVerdict fn seq s
  | .twWrite fn asid tnum => Sys2Proof.Machine.execTwWrite fn asid tnum s
  | .twRead fn asid tnum => Sys2Proof.Machine.execTwRead fn asid tnum s
  | .twRemove fn asid tnum => Sys2Proof.Machine.execTwRemove fn asid tnum s
  | .invVa fn asid => Sys2Proof.Machine.execInvVa fn asid s
  | .invAsid fn asid => Sys2Proof.Machine.execInvAsid fn asid s
  | .invIpa fn part => Sys2Proof.Machine.execInvIpa fn part s
  | .invPart fn part => Sys2Proof.Machine.execInvPart fn part s
  | .invAll fn => Sys2Proof.Machine.execInvAll fn s
  | .invComplete fn => Sys2Proof.Machine.execInvComplete fn s
  | .registerWrite fn ofs val => Sys2Proof.Machine.execRegisterWrite fn ofs val s
  | .hostMemAccess ofs op => Sys2Proof.Machine.execHostMemAccess ofs op s
  | .peerAccess srcMod srcPart die ofs op => Sys2Proof.Machine.execPeerAccess srcMod srcPart die ofs op s
  | .portDown port => Sys2Proof.Machine.execPortDown port s
  | .portDownTimeout port => Sys2Proof.Machine.execPortDownTimeout port s
  | .spdmRequest req => Sys2Proof.Machine.execSpdmRequest req s
  | .bringUp => Sys2Proof.Machine.execBringUp s
  | .powerWindow watts => Sys2Proof.Machine.execPowerWindow watts s
  | .thermalThrottle tj => Sys2Proof.Machine.execThermalThrottle tj s
  | .thermalTrip tj => Sys2Proof.Machine.execThermalTrip tj s
  | .groupLaunchInstance srcMod asid rec => Sys2Proof.Machine.execGroupLaunchInstance srcMod asid rec s
  | .abandonedInstanceEnd key tag => Sys2Proof.Machine.execAbandonedInstanceEnd key tag s
  | .cxlLinkTrained => Sys2Proof.Machine.execCxlLinkTrained s

end Sys2Proof.Machine
end

