-- ==== Sys2Proof/Machine/Next.lean ====
section
/-! DEFINITION. Which instruction an agent performs when its turn comes, and the moves that are no instruction: time,
other parties' own memory, evictions, soft errors, the roots of stage-2 tables. -/
namespace Sys2Proof.Machine

/-- The instruction an agent performs: a core's next, a node's firing, a command's work or its completion, an event. -/
def State.instrOf (s : State) (a : Agent) : Option Instr :=
  match a with
  | .core f => match s.fens[f]? with
    | some x => x.core.next s.cycle
    | none => none
  | .node f k => match s.fens[f]? with
    | some x => match x.mantle with
      | some m => (m.nodes[k]?).map (fun n => n.ins)
      | none => none
    | none => none
  | .port f p k => match s.fens[f]? with
    | some x => match x.ports[p]? with
      | some q => (q.cmds[k]?).map (fun c => if c.done then .cmdComplete else c.ins)
      | none => none
    | none => none
  | .event i => some i
  | _ => none

/-- No one's request: what another party's own write stands for. -/
def noReq : Req := ⟨none, 0, ⟨0, 0, 0⟩, 0, 0, 0, 0⟩

/-- Another party writes its own memory; not between the parts of an indivisible operation of this module (R296). -/
def State.outsideWrite (s : State) (o : Outside) (a : Nat) (bs : List Byte) : State :=
  let key := match o with | .host => keyHost a | .peer k => keyPeer k a
  let known := match o with | .host => true | .peer k => decide (k < 64)
  if decide (2 ^ 52 < a + bs.length) || !known || s.reserved noReq key bs.length then s
  else s.updMem (fun m => m.putN key bs)

/-- A cached line or fetch block leaves a core's caches. -/
def State.evictCached (s : State) (f va : Nat) : State :=
  s.updCore f (fun c => { c with icache := c.icache.filter (fun l => l.1 != va), dcache := c.dcache.filter (fun l => l.va != va) })

/-- A translation leaves its holder: the k-th kept, counting on into the walker caches. -/
def State.evictTlb (s : State) (k : Nat) : State :=
  let n := s.xl.tlbs.length
  { s with xl := { s.xl with tlbs := dropNth s.xl.tlbs k,
                             wcache := if k < n then s.xl.wcache else dropNth s.xl.wcache (k - n) } }

/-- A soft error in the unit of the check that covers a key: that of the line's EMT while it holds the line, else that of the
storage (R415, R416). -/
def State.softError (s : State) (key : Nat) (fatal : Bool) : State :=
  let emt := decide (key < 2 ^ 44) && s.emt.has (key / 128)
  let u := if emt then 8 else (checkOf key).2
  let a := key / u * u
  s.updMem (fun m =>
    let m := { m with emtMark := setRange m.emtMark a u emt, netMark := setRange m.netMark a u false }
    if fatal then { m with poison := setRange m.poison a u true } else { m with fixed := setRange m.fixed a u true })

/-- A parity error in a node's accumulator tiles: the tile that they feed is poisoned (R417). -/
def State.accError (s : State) (f k : Nat) : State :=
  s.updNode f k (fun n => { n with mem := { n.mem with parity := true } })

/-- A move that is no instruction. -/
def State.move (s : State) (a : Agent) : State :=
  match a with
  | .pass n => s.tick n
  | .outside o ad bs => s.outsideWrite o ad bs
  | .evictLine f va => s.evictCached f va
  | .evictTlb k => s.evictTlb k
  | .evictEmt l => s.evictLine l
  | .stage2Root p r => if p < 16 then s.updDev (fun d => { d with roots := tabSet d.roots p r }) else s
  | .hostRead f o => if f < 128 then s.hostReads f o else s
  | .hdmDecoder b => s.updDev (fun d => { d with hdmLock := b })
  | .softError k b => s.softError k b
  | .netError u => s.updMem (fun m => { m with transit := setAdd m.transit u })
  | .accError f k => s.accError f k
  | .coolant t => s.updDev (fun d => { d with therm := BitVec.ofNat 16 (t % 256 * 256 + fld d.therm.toNat 7 0) })
  | .remoteRefused k n => s.remoteRefused k n
  | .writeLate f => s.updCore f (fun c => { c with late0 := true })
  | .router at' out => s.routerTurn at' out
  | .barCycle on => s.barCycleTurn on
  | .hostLine l on => s.hostTakes l on
  | .remoteDone k n t => s.remoteEnd k n t
  | _ => s

/-- Bring-up goes on while nothing else is scheduled and the host link's hold is not yet released. -/
def State.booting (s : State) : Bool := !s.boot.rel && !s.boot.held && s.boot.fail == 0

end Sys2Proof.Machine
end

