-- ==== Sys2Proof/Machine/Step.lean ====
section
/-! DEFINITION. One step of the module: the agent at the head of the schedule acts; with an empty schedule, bring-up
goes on, and then the agent that acted last acts again. -/
namespace Sys2Proof.Machine

/-- The agent whose turn it is acts. -/
def State.act (s : State) (a : Agent) : Out :=
  match s.instrOf a with
  | some i => exec i { s with here := a }
  | none => .next ({ s with here := a }.move a)

/-- One step. A module whose fabric power is removed does nothing (R421). -/
def step (s : State) : Out :=
  if s.boot.off then .next s
  else match s.sched with
    | a :: r => { s with sched := r }.act a
    | [] => if s.booting then exec .bringUp s else s.act s.here

/-- The state with an instruction placed where the next step takes one (Place.lean). -/
def State.withFetchWord (s : State) (nbits w : Nat) : State := s.place nbits w

end Sys2Proof.Machine
end

