-- ==== Sys2Proof/Safety.lean ====
section
/-! DEFINITION. What counts as a safe state and a safe run, and the terms the statements use: what a step leaves
unchanged, and the shape of a register instruction's step. -/
namespace Sys2Proof.Machine

/-- A state whose memory is in canonical form. -/
abbrev State.memOk (s : State) : Prop := s.mem.wf = true

/-- A step that goes on. -/
abbrev Goes (o : Out) (t : State) : Prop := o = .next t

/-- A run of k steps that neither faults nor refuses and keeps memory canonical. -/
def SafeRun (s : State) (k : Nat) : Prop :=
  ∃ t, Host.Core.run Sys2Proof.core k s = .next t ∧ State.memOk t

/-! ## Frames -/

/-- From s to t nothing changes but fen f, which becomes y: no byte of memory, no other fen, no table. -/
structure FenOnly (s t : State) (f : Nat) (y : Fen) : Prop where
  fen    : t.fens[f]? = some y
  others : ∀ g, g ≠ f → t.fens[g]? = s.fens[g]?
  rest   : { t with fens := s.fens } = s

/-- From s to t nothing changes but the control core of fen f, which was x and becomes y. -/
structure CoreOnly (s t : State) (f : Nat) (x y : Fen) : Prop extends FenOnly s t f y where
  own : { y with core := x.core } = x

/-- A core of which nothing changes but its registers as the block sees them, the place in the block and the status the
block gathers. -/
def SameRest (c d : Core) : Prop := { d with loc := c.loc, late := c.late, idx := c.idx, stat := c.stat } = c

/-- The step of a register instruction at one state: rd receives the value, g0 never; every other register is as before;
the next instruction of the block follows; the status bits are added; nothing else changes. -/
def RegStepAt (i : Instr) (s : State) (f : Nat) (x : Fen) (rd : Reg) (v : Word) (st : BitVec 32) : Prop :=
  ∃ t y, exec i s = .next t ∧ CoreOnly s t f x y ∧ SameRest x.core y.core ∧
    (∀ r, y.core.get r = if r = rd ∧ rd ≠ 0#6 then v else x.core.get r) ∧
    y.core.idx = x.core.idx + 1 ∧ y.core.stat = x.core.stat ||| st

/-- A register instruction makes that step at every state in which its core has its turn. -/
def RegStep (i : Instr) (rd : Reg) (v : Core → Word) (st : Core → BitVec 32) : Prop :=
  ∀ s f x, State.coreHere s = some (f, x) → RegStepAt i s f x rd (v x.core) (st x.core)

/-- A register instruction that sets no status bit. -/
def RegStep0 (i : Instr) (rd : Reg) (v : Core → Word) : Prop := RegStep i rd v (fun _ => 0#32)

/-- A step of a core's instruction that changes nothing but the core of its fen, in the given way. -/
def CoreStep (i : Instr) (s : State) (f : Nat) (x : Fen) (c : Core) : Prop :=
  ∃ t, exec i s = .next t ∧ CoreOnly s t f x { x with core := c }

/-- The next instruction of a block follows, with the status bits added. -/
def Core.after (c : Core) (st : BitVec 32) : Core := { c with idx := c.idx + 1, stat := c.stat ||| st }

/-- The program counter that a control register gives: bits [63:48] of a program counter are zero (R14; log entry 132). -/
def pcOf (w : Word) : Word := BitVec.ofNat 64 (w.toNat % 2 ^ 48)

/-- Nothing but the status that the accesses of a core's block at pc still owed it: an aborted run sets no status bit (R135; log
entry 160). -/
def State.unowed (s : State) (f pc : Nat) : State :=
  { s with xl := { s.xl with retried := s.xl.retried.filter (fun r => !(r.fen == some f && r.srck == 0 && r.cmd == pc)) } }

/-- A trap (R19): the block leaves nothing but the trap registers, and the core goes on at csr.trapvec. -/
def Trapped (s t : State) (f : Nat) (x : Fen) (cause : Nat) (val : Word) : Prop :=
  ∃ y, CoreOnly (s.unowed f x.core.pc.toNat) t f x y ∧ y.core.regs = x.core.regs ∧ y.core.pc = pcOf x.core.trapvec ∧
    y.core.trapcause = BitVec.ofNat 64 cause ∧ y.core.trapblk = x.core.pc ∧ y.core.trapval = val ∧
    y.core.trapidx = BitVec.ofNat 64 x.core.idx ∧ y.core.phase = .fetch ∧ y.core.effs = [] ∧ y.core.loc = x.core.regs ∧
    y.core.rm = x.core.rm ∧ y.core.trapvec = x.core.trapvec ∧ y.core.seq = x.core.seq ∧ y.core.argp = x.core.argp ∧
    y.core.complw = x.core.complw ∧ y.core.lix = x.core.lix ∧ y.core.flag = x.core.flag ∧ y.core.prep = none

/-- An instruction takes a trap. -/
def Traps (i : Instr) (s : State) (f : Nat) (x : Fen) (cause : Nat) (val : Word) : Prop :=
  ∃ t, exec i s = .next t ∧ Trapped s t f x cause val

/-! ## Accesses that nothing holds -/

/-- Nothing holds a read of n bytes at a place: each of its lines answers at once (R309), no write of the same source is under
way to it (R295), and the rate limiter lets the source's accesses pass (R378). -/
structure Readable (s : State) (rq : Req) (ph : Phys) (n : Nat) : Prop where
  home   : ph.typ.inEmt = true → ∀ l, ph.key / 128 ≤ l → l * 128 < ph.key + n → s.needLine rq l = .ok () s
  first  : s.behind rq ph.key n = false
  enters : ∀ q w, s.charge rq q w = .ok () s

/-- Nothing holds a write there either: the host holds none of its lines (R408), and no claim reserves it (R161). -/
structure Freely (s : State) (rq : Req) (ph : Phys) (n : Nat) : Prop extends Readable s rq ph n where
  ours   : s.snooped rq ph n = .ok () s
  open'  : s.reserved rq ph.key n = false

/-! ## What a block sees -/

/-- No byte of memory is marked (R416), and no transfer is about to fail the end-to-end check (R415). -/
def State.Clean (s : State) : Prop := s.mem.poison = [] ∧ s.mem.fixed = [] ∧ s.mem.transit = []

/-- The byte an effect list leaves at a key over another: the latest effect held back that writes it wins (R132). -/
def seenOver (effs : List (Nat × Eff)) (key : Nat) (b : Byte) : Byte :=
  ((effs.filterMap (fun e => e.2.byteAt key)).getLast?).getD b

/-- The number in n bytes from a key up as a block sees them. -/
def State.seenN (s : State) (c : Core) (key n : Nat) : Nat :=
  leNat ((upto key n).map (fun k => seenOver c.effs k (s.mem.get k)))

/-- A load's value from the number it read: sign-extended for the sizes i8, i16 and i32 (R151). -/
def loaded (z : MSize) (v : Nat) : Word :=
  match z with
  | .i8 => (BitVec.ofNat 8 v).signExtend 64
  | .i16 => (BitVec.ofNat 16 v).signExtend 64
  | .i32 => (BitVec.ofNat 32 v).signExtend 64
  | _ => BitVec.ofNat 64 v

/-- The width of a load or store. -/
def widthOf (z : MSize) : Nat := match z with | .i8 | .n8 => 1 | .i16 | .n16 => 2 | .i32 | .n32 => 4 | .d64 => 8

/-- A core after an acquire of scope k (R166): every line of its data cache is gone, or at tile scope those that other agents of
its tile have written. -/
def Core.acquired (c : Core) (k : Nat) : Core :=
  { c with dcache := if 1 ≤ k then [] else c.dcache.filter (fun l => !c.near.contains l.key), near := [] }

/-- A queue's occupancy (R38): TAIL less HEAD, modulo twice the capacity. -/
def Qcb.count (q : Qcb) : Nat := (((Qcb.tail q : Int) - Qcb.head q) % (2 * Qcb.cap q : Int)).toNat

/-- The effective address of ld and st (R150). -/
def ldAddr (c : Core) (base : Reg) (z : MSize) (imm : BitVec 9) : Word :=
  BitVec.ofInt 64 ((c.get base).toInt + imm.toInt * widthOf z)

/-- The carrier's micro-TLB maps an address for a core's access, with permission and D set, and no fault stops it. -/
structure State.Maps (s : State) (f : Nat) (x : Fen) (acc : Acc) (va : Nat) (e : Tlb) : Prop where
  hit  : s.tlbFind (.micro (x.carrierOf x.anchor)) x.asid x.part va = some e
  fits : e.within va = true
  perm : Tlb.lacks e acc = none
  d    : e.dirty = true
  go   : ∀ p ∈ s.xl.pending, (p.asid == x.asid && p.stops (coreReq f x) va) = false

/-! ## Non-revocable operations -/

/-- The core after its granted operation (R161, R134): rd receives v unless it is g0 or a later instruction of the block
wrote it; no line enters the data cache, status is added, and the commit follows. The event flag may have changed. -/
structure Performed (c d : Core) (rd : Option Reg) (v : Word) (st : BitVec 32) : Prop where
  phase : d.phase = .commit
  cache : ∀ l ∈ d.dcache, l ∈ c.dcache
  stat  : d.stat = c.stat ||| st
  regs  : ∀ r, d.get r = if rd = some r ∧ r ≠ 0#6 ∧ r.toNat ∉ c.late then v else c.get r
  rest  : { d with phase := c.phase, dcache := c.dcache, near := c.near, stat := c.stat, loc := c.loc, flag := c.flag } = c

/-- From s to t the n bytes from a key up become bs, and no other byte of memory changes. -/
def Stored (s t : State) (key : Nat) (bs : List Byte) : Prop :=
  ∀ k, t.mem.get k = if key ≤ k ∧ k < key + bs.length then (bs[k - key]?).getD 0 else s.mem.get k

/-- A core performs its granted operation. -/
def Does (i : Instr) (s : State) (f : Nat) (x : Fen) (rd : Option Reg) (v : Word) (st : BitVec 32)
    (more : State → Prop) : Prop :=
  ∃ t y, exec i s = .next t ∧ t.fens[f]? = some y ∧ Performed x.core y.core rd v st ∧ more t

/-- The core whose turn it is has a granted operation. -/
structure State.Granted (s : State) (f : Nat) (x : Fen) (p : Prep) : Prop where
  here  : s.coreHere = some (f, x)
  phase : x.core.phase = .granted
  prep  : x.core.prep = some p

/-- A barrier object after one update with status (R29, R30). -/
def barAfter (b : Bar) (tx : Nat) (osw : BitVec 32) (arrive : Bool) : Bar :=
  let tx' := (b.tx + tx) % 2 ^ 32
  let arr' := if arrive then (b.arr + 0xFFFF) % 2 ^ 16 else b.arr
  if tx' = 0 ∧ arr' = 0 then
    { b with phase := !b.phase, tx := 0, arr := b.exparr, last := b.cur ||| osw, cur := 0, phases := (b.phases + 1) % 2 ^ 32 }
  else { b with tx := tx', arr := arr', cur := b.cur ||| osw }

/-- The quads whose bits a mask has, in order. -/
def quadList (m : Nat) : List Nat := (List.range 16).filter (fun k => m / 2 ^ k % 2 = 1)

/-- The ten read-modify-write instructions and what each makes of the old value, v and e, w bytes wide (R170). -/
def atomicTable (w32 : Bool) (rd ra rb : Reg) (sc : BitVec 3) : List (Instr × (Nat → Nat → Nat → Nat)) :=
  let w := if w32 then 32 else 64
  let int : Nat → Int := fun a => (BitVec.ofNat w a).toInt
  [(.cas w32 rd ra rb sc, fun old v e => if old = e then v else old),
   (.amoAdd w32 rd ra rb sc, fun old v _ => (old + v) % 2 ^ w),
   (.amoAnd w32 rd ra rb sc, fun old v _ => old &&& v),
   (.amoOr w32 rd ra rb sc, fun old v _ => old ||| v),
   (.amoXor w32 rd ra rb sc, fun old v _ => old ^^^ v),
   (.amoMin w32 rd ra rb sc, fun old v _ => if int v < int old then v else old),
   (.amoMax w32 rd ra rb sc, fun old v _ => if int old < int v then v else old),
   (.amoMinn w32 rd ra rb sc, fun old v _ => if v < old then v else old),
   (.amoMaxn w32 rd ra rb sc, fun old v _ => if old < v then v else old),
   (.amoSwap w32 rd ra rb sc, fun _ v _ => v)]

/-! ## Commands -/

/-- The command at a place of a port. -/
def State.cmdAt (s : State) (f p k : Nat) : Option Cmd :=
  match s.fens[f]? with
  | none => none
  | some x => match x.ports[p]? with
    | none => none
    | some q => q.cmds[k]?

/-- A command whose turn it is may do its next piece of work, with nothing to report first. -/
structure State.Runs (s : State) (a : CmdAt) : Prop where
  here : s.cmdHere = some a
  may  : s.mayRun a = true
  few  : a.c.bytes ≤ 4096
  calm : s.xl.retried = []

/-- A turn of a command: it becomes c, begun, at its place; and what more holds. -/
def CmdTurn (s : State) (a : CmdAt) (c : Cmd) (more : State → Prop) : Prop :=
  ∃ t, exec a.c.ins s = .next t ∧ t.cmdAt a.f a.p a.k = some { c with begun := true } ∧ more t

/-- The twenty-four stream commands (R98). -/
def isCommand : Instr → Bool
  | .copy .. | .copyr .. | .copyx .. | .copyred .. | .gather .. | .scatter .. | .fill .. | .agload .. | .sbar ..
  | .carrive .. | .cexpect .. | .cnop .. | .qput .. | .qget .. | .depdec .. | .mred .. | .matom .. | .maxpy ..
  | .thresh .. | .launch .. | .mswitch .. | .pref .. | .inval .. | .flush .. => true
  | _ => false

/-- An access of n bytes reaches its home at once: it is translated, and nothing holds it there. -/
structure State.Reaches (s : State) (x : Fen) (rq : Req) (acc : Acc) (va n : Nat) (ph : Phys) : Prop extends Freely s rq ph n where
  low  : va < 2 ^ 48
  at'  : s.xlateFor x rq acc va = .ok ph s
  stay : ph.typ.leaves = false

/-- No byte of memory and no full/empty bit changes. -/
def MemSame (s t : State) : Prop := t.mem.cells = s.mem.cells ∧ t.mem.full = s.mem.full

/-- Bytes land in scratch (R22): they are stored, and every granule whose last byte is among them becomes full. -/
def Landed (s t : State) (tile : Tile) (o : Nat) (bs : List Byte) : Prop :=
  Stored s t (keyScratch tile o) bs ∧
  ∀ g, t.mem.isFull g = (s.mem.isFull g || decide (keyScratch tile o / 16 ≤ g ∧ g < (keyScratch tile o + bs.length) / 16))

/-- An element's encoding in a command's destination format (R199): itself, or converted under R63. -/
def asFmt (src dst : Fmt) (v : Nat) (rm : BitVec 2) (sat : Bool) : Nat × BitVec 32 :=
  if src = dst then (v, 0#32) else convert v src dst rm.toNat sat

/-- The node at a place of a fen's current mantle. -/
def Fen.nodeOn (x : Fen) (t : Tile) (slot : Nat) : Option Node :=
  match x.mantle with
  | none => none
  | some m => m.nodes.find? (fun n => n.tile == t && n.slot == slot)

/-! ## Nodes -/

/-- Lane i of a beat in elements of w bits (R221). -/
def lane (w : Nat) (d : BitVec 256) (i : Nat) : Nat := d.toNat / 2 ^ (w * i) % 2 ^ w

/-- The node's record in a state. -/
def State.nodeOf (s : State) (a : NodeAt) : Option Node := ((s.fens[a.f]?).bind Fen.mantle).bind (fun m => m.nodes[a.k]?)

/-- A node has its turn: it may fire, its rings pass their checks (R27), and no beat waits to leave it. -/
structure State.Turn (s : State) (a : NodeAt) : Prop where
  here  : s.nodeHere = some a
  may   : s.mayFire a = true
  rings : ∀ h ∈ a.rings, Ring.flt (a.ring h) = false ∧ a.x.ringOk (a.ring h) = true
  clear : a.n.mem.owe = []

/-- The guard is off, or its oldest token is true (R223). -/
def NodeAt.goes (a : NodeAt) : Prop := a.guardTok = none ∨ ∃ g, a.guardTok = some (.streamed g) ∧ g.val = true

/-- The guard's oldest token is false. -/
def NodeAt.off (a : NodeAt) : Prop := ∃ g, a.guardTok = some (.streamed g) ∧ g.val = false

/-- The inputs named offer these beats, the streamed ones DATA; the outputs have room (R219). -/
structure State.Offers (s : State) (a : NodeAt) (ins : List Nat) (bs : List Beat) : Prop extends State.Turn s a where
  beats : ins.map (fun j => (s.offer a j).beat?) = bs.map some
  data  : ∀ j ∈ ins, ∀ b, s.offer a j = .streamed b → b.typ = 0
  room  : s.roomAll a = true

/-- A node is ready for a DATA firing on these beats. -/
structure State.Ready (s : State) (a : NodeAt) (ins : List Nat) (bs : List Beat) : Prop extends State.Offers s a ins bs where
  guard : a.goes

/-- The node's turn leaves this state; then the beats of its fen move. Where an update of a ring fails in it, the turn is that
fault alone (R27, R219). -/
def TurnTo (s : State) (a : NodeAt) (t : State) : Prop :=
  exec a.n.ins s = .next ((if t.ringHeld a then s.ringFaults t a else t).settle a.f)

/-- The node's turn is this firing. -/
def Fires (s : State) (a : NodeAt) (v : Fire) (st : NodeSt) : Prop := TurnTo s a (s.fire a v st)

/-- The node fires on its operands and puts on output 0 a DATA beat of the given lanes, with the status of all of them. -/
def FiresLanes (s : State) (a : NodeAt) (ins : List Nat) (w : Nat) (v : Nat → Rslt) : Prop :=
  ∃ y, (∀ i, i < 256 / w → lane w y i = (v i).1 % 2 ^ w) ∧
    Fires s a ⟨ins, true, [(0, dataBeat y)], (List.range (256 / w)).foldl (fun o i => o ||| (v i).2) 0, id⟩ .firing

/-- The element-wise nodes (R228, R233): how many operands, and the element made of theirs, x j being operand j's. -/
def elementTable (n : NodeHdr) : List (Instr × Nat × ((Nat → Nat) → Rslt)) :=
  let f := n.fmt
  let w := Fmt.bits f
  let rm := n.rm.toNat
  let num : Int → Val → Rslt := fun z v => if f.isInt then finishI f n.sat z else finishF f rm n.sat v
  let pick : Bool → Nat → Nat → Rslt := fun big p q =>
    if f.isInt then (if big then (if intOf f p < intOf f q then q else p) else (if intOf f q < intOf f p then q else p), 0)
    else minMaxF f big p q
  [(.vadd n, 2, fun x => num (intOf f (x 0) + intOf f (x 1)) (sumVals rm [floatVal f (x 0), floatVal f (x 1)])),
   (.vsub n, 2, fun x => num (intOf f (x 0) - intOf f (x 1)) (sumVals rm [floatVal f (x 0), (floatVal f (x 1)).neg])),
   (.vmul n, 2, fun x => num (intOf f (x 0) * intOf f (x 1)) ((floatVal f (x 0)).mul (floatVal f (x 1)))),
   (.vfma n, 3, fun x => num (intOf f (x 0) * intOf f (x 1) + intOf f (x 2))
     (sumVals rm [(floatVal f (x 0)).mul (floatVal f (x 1)), floatVal f (x 2)])),
   (.vdiv n, 2, fun x =>
     if f.isInt then (if x 1 = 0 then 2 ^ w - 1 else wrapN w ((intOf f (x 0)).tdiv (intOf f (x 1))), 0)
     else finishF f rm false ((floatVal f (x 0)).div (floatVal f (x 1)))),
   (.vsqrt n, 1, fun x => finishF f rm false (floatVal f (x 0)).sqrt),
   (.vmin n, 2, fun x => pick false (x 0) (x 1)),
   (.vmax n, 2, fun x => pick true (x 0) (x 1)),
   (.vabs n, 1, fun x => if f.isInt then finishI f n.sat (if intOf f (x 0) < 0 then -intOf f (x 0) else intOf f (x 0))
     else signOp f n.sat (x 0) (fun _ => false)),
   (.vneg n, 1, fun x => if f.isInt then finishI f n.sat (0 - intOf f (x 0)) else signOp f n.sat (x 0) (fun t => !t)),
   (.vand n, 2, fun x => (x 0 &&& x 1, 0)), (.vor n, 2, fun x => (x 0 ||| x 1, 0)), (.vxor n, 2, fun x => (x 0 ^^^ x 1, 0)),
   (.vshl n, 2, fun x => (x 0 * 2 ^ (x 1 % w), 0)),
   (.vshr n, 2, fun x => (wrapN w (intOf f (x 0) / 2 ^ (x 1 % w)), 0)),
   (.vclamp n, 3, fun x => let m := pick true (x 0) (x 1); let r := pick false m.1 (x 2); (r.1, m.2 ||| r.2)),
   (.vrec n, 1, fun x => funcF 0 f rm (x 0)), (.vrsq n, 1, fun x => funcF 1 f rm (x 0)), (.vexp n, 1, fun x => funcF 2 f rm (x 0)),
   (.vlog n, 1, fun x => funcF 3 f rm (x 0)), (.vtanh n, 1, fun x => funcF 4 f rm (x 0)), (.vsigm n, 1, fun x => funcF 5 f rm (x 0))]

/-- What a node has yet to send on output q: the beats in its buffer, then those it owes. -/
def Node.due (n : Node) (q : Nat) : List Beat :=
  (n.outq[q]?).getD [] ++ (n.mem.owe.filter (fun p => p.1 == q)).map (fun p => p.2)

/-- An input or an output carries beats or tokens between nodes. -/
def isStream (r : Ref) : Bool := match r with | .circuit _ _ | .near _ _ | .reed _ _ => true | _ => false

/-- A beat as a firing puts it out: poisoned if an operand is (R417), with the tag of the IN0 beat it takes unless it has its own
(R351). -/
def State.marked (s : State) (a : NodeAt) (take : List Nat) (b : Beat) : Beat :=
  { b with
    poison := b.poison || take.any (fun j => (s.offer a j).beat?.any Beat.poison)
    tag := if b.tag.isSome then b.tag else match s.offer a 0 with | .streamed c => if 0 ∈ take then c.tag else none | _ => none }

/-- What firing v in a node state st leaves, for a node none of whose operands or outputs is a ring. -/
structure FireLeaves (s : State) (a : NodeAt) (v : Fire) (st : NodeSt) (t : State) (y : Fen) (n : Node) : Prop where
  fen    : t.fens[a.f]? = some y
  node   : t.nodeOf a = some n
  inputs : ∀ j, (n.inq[j]?).getD [] =
    if (j ∈ v.take ∧ isStream (a.inp j) = true) ∨ (j = 4 ∧ v.guard = true ∧ a.hdr.guard ≠ .off) then ((a.n.inq[j]?).getD []).drop 1
    else (a.n.inq[j]?).getD []
  outs   : ∀ q, isStream (a.outp q) = true → n.due q = (a.n.outq[q]?).getD [] ++
    (((v.mem a.n.mem).owe ++ v.put.map (fun p => (p.1, s.marked a v.take p.2))).filter (fun p => p.1 == q)).map (fun p => p.2)
  phase  : n.st = st
  status : y.status = if st = .guarded then a.x.status else
    a.x.status ||| (v.osw ||| (if v.take.any (fun j => (s.offer a j).beat?.any Beat.poison) then Osw.poison else 0)).truncate 16
  own    : { y with status := a.x.status, mantles := a.x.mantles } = a.x
  nodes  : ∀ m, y.mantle = some m → ∀ k, k ≠ a.k → m.nodes[k]? = a.m.nodes[k]?
  others : ∀ g, g ≠ a.f → t.fens[g]? = s.fens[g]?
  rest   : { t with fens := s.fens } = s

/-- The lanes of the DATA beats that a firing puts on output q, in order. -/
def lanesPut (w q : Nat) (l : List (Nat × Beat)) : List Nat :=
  (l.filter (fun p => p.1 == q && p.2.typ == 0)).flatMap (fun p => (List.range (256 / w)).map (lane w p.2.data))

/-- Waiting elements of w bits. -/
def waiting (w : Nat) (l : List (BitVec 64)) : List Nat := l.map (fun v => v.toNat % 2 ^ w)

/-- The balanced tree of R73 over 2^k elements x 0, x 1, …: the tree of the first half combined with that of the second. -/
def treeOf (g : Nat → Nat → Rslt) : Nat → (Nat → Nat) → Rslt
  | 0, x => (x 0, 0)
  | k + 1, x =>
    let l := treeOf g k x
    let r := treeOf g k (fun i => x (i + 2 ^ k))
    ((g l.1 r.1).1, (g l.1 r.1).2 ||| l.2 ||| r.2)

/-- An element that becomes a result with no operation on it: a NaN is written as the canonical one, with NAN_OUT (R54). -/
def writtenOf (f : Fmt) (x : Nat) : Rslt :=
  if f.isInt = false ∧ (floatVal f x).isNan = true then (Fmt.qnan f, Osw.nanOut) else (x, 0)

/-- The prefix of R235 over x 0, x 1, …, from a carry when there is one: its element i and the status up to it. -/
def prefixOf (f : Fmt) (g : Nat → Nat → Rslt) (carry : Option Nat) (x : Nat → Nat) : Nat → Rslt
  | 0 => match carry with | some c => g c (x 0) | none => writtenOf f (x 0)
  | i + 1 => let p := prefixOf f g carry x i; ((g p.1 (x (i + 1))).1, p.2 ||| (g p.1 (x (i + 1))).2)

/-- The six operations of a reduction on two elements (R234). -/
def reduceOp (f : Fmt) (op rm x y : Nat) : Rslt :=
  match op with
  | 0 => if f.isInt then (wrapN (Fmt.bits f) (intOf f x + intOf f y), 0)
         else finishF f rm false (sumVals rm [floatVal f x, floatVal f y])
  | 1 => minMax f false x y
  | 2 => minMax f true x y
  | 3 => (x &&& y, 0)
  | 4 => (x ||| y, 0)
  | _ => (x ^^^ y, 0)

/-- The eight conditions of R229. -/
def condOf (f : Fmt) (cc x y : Nat) : Bool :=
  let a := valueOf f x
  let b := valueOf f y
  match cc with
  | 0 => a.eqv b
  | 1 => !a.eqv b
  | 2 => a.lt b
  | 3 => a.lt b || a.eqv b
  | 4 => b.lt a
  | 5 => b.lt a || a.eqv b
  | 6 => !a.isNan && !b.isNan
  | _ => a.isNan || b.isNan

/-- A stop at a level or above, or DONE (R234). -/
abbrev endsSegment (lvl : Nat) (b : Beat) : Prop := b.typ = 9 ∨ (1 ≤ b.typ ∧ b.typ ≤ 8 ∧ lvl ≤ b.typ - 1)

/-- A node's one streamed data input offers this control beat, and its outputs have room. -/
structure State.Control (s : State) (a : NodeAt) (b : Beat) : Prop extends State.Turn s a where
  beat : s.offer a 0 = .streamed b
  ctl  : b.typ ≠ 0
  room : s.roomAll a = true

/-! ## Tiles -/

/-- From s to t the byte runs listed are stored, a later one over an earlier, and no other byte of memory changes. -/
def StoredAll (s t : State) (l : List (Nat × List Byte)) : Prop :=
  ∀ k, t.mem.get k = l.foldl (fun b p => if p.1 ≤ k ∧ k < p.1 + p.2.length then (p.2[k - p.1]?).getD 0 else b) (s.mem.get k)

/-- Element k of the tile in the head slot of input j's ring (R236). -/
def State.tileEl (s : State) (a : NodeAt) (j k : Nat) : Nat :=
  match a.inp j with
  | .ring h =>
    let z := landSize (Tensor.fmt (a.tensor j))
    leNat (s.mem.getN (a.x.slotKey (a.ring h) (Ring.head (a.ring h)) + z * k) z)
  | _ => 0

/-- Input j is a ring that carries tiles, its head slot filled. -/
def State.TileAt (s : State) (a : NodeAt) (j : Nat) : Prop :=
  ∃ h, a.inp j = .ring h ∧ 1024 * landSize (Tensor.fmt (a.tensor j)) ≤ Ring.bytes (a.ring h) ∧
    Ring.flt (a.ring h) = false ∧ s.ringFilled a.x (a.ring h) 1 = true

/-- Output p is a ring that carries tiles of elements of z bytes, other than the rings the node reads. -/
def NodeAt.tileTo (a : NodeAt) (p z : Nat) (h : BitVec 5) : Prop :=
  a.outp p = .ring h ∧ 1024 * z ≤ Ring.bytes (a.ring h) ∧ ∀ j, a.inp j ≠ .ring h

/-- A matrix node is ready for a firing on these tiles: nothing is owed, no firing is in progress, the tiles are filled,
the guard lets it go, the outputs have room; the node names no ring twice. -/
structure State.MatReady (s : State) (a : NodeAt) (ins : List Nat) : Prop extends State.Turn s a where
  once  : a.rings.Nodup
  fresh : a.n.mem.b0 = false ∧ a.n.mem.b1 = false ∧ a.n.mem.b2 = false ∧ a.n.mem.bad = false ∧ a.n.mem.parity = false
  tiles : ∀ j ∈ ins, s.TileAt a j
  guard : a.goes
  room  : s.roomAll a = true
  clean : s.Clean
  mem   : s.memOk

/-- Rings whose tail slot has been filled have advanced. -/
def Pushed (t : State) (a : NodeAt) (h : BitVec 5) : Prop :=
  ∀ y, t.fens[a.f]? = some y →
    Ring.tail (y.ringOf a.x.cur h.toNat) = (Ring.tail (a.ring h) + 1) % (2 * Ring.n (a.ring h))

/-- The slot that a tile is written to and its bytes, zeros to the slot's end. -/
def NodeAt.slotBytes (a : NodeAt) (h : BitVec 5) (z : Nat) (e : Nat → Nat) : Nat × List Byte :=
  (a.x.slotKey (a.ring h) (Ring.tail (a.ring h)),
   (List.range 1024).flatMap (fun k => toLE z (e k)) ++ List.replicate (Ring.bytes (a.ring h) - 1024 * z) 0)

/-- The completion record of R236, where the node writes one. -/
def NodeAt.record (a : NodeAt) (m : MatHdr) (count resid : Nat) (osw : BitVec 32) : List (Nat × List Byte) :=
  if m.recen then [(keyScratch a.n.tile (16 * m.recofs.toNat), toLE 16 (count % 2 ^ 32 + resid * 2 ^ 32 + osw.toNat * 2 ^ 64))]
  else []

/-- A matrix node after an output: its count of outputs is one more, the output's status is kept for its delivery, which is
owed where BAREN is set. -/
def OutputDone (a : NodeAt) (m : MatHdr) (osw : BitVec 32) (n : Node) : Prop :=
  n.mem.n3 = (a.n.mem.n3 + 1) % 2 ^ 32 ∧ n.mem.resid = osw ∧ n.mem.osw = 0 ∧ n.mem.b1 = m.baren

/-- A matrix node writes one tile: its turn ends so. -/
def WritesTile (s : State) (a : NodeAt) (m : MatHdr) (h : BitVec 5) (z : Nat) (e : Nat → Nat) (osw : BitVec 32)
    (count resid : Nat) (more : State → Node → Prop) : Prop :=
  ∃ t n, exec a.n.ins s = .next t ∧ t.nodeOf a = some n ∧
    StoredAll s t (a.slotBytes h z e :: a.record m count resid osw) ∧ Pushed t a h ∧ OutputDone a m osw n ∧ more t n

/-- An element of an MMA's output (R237): divided by 2^SCALE and converted once, or itself where nothing changes. -/
def outOf (acc : Fmt) (u : Tensor) (rm : Nat) (sat : Bool) (x : Nat) : Rslt :=
  if acc = landFmt (Tensor.fmt u) ∧ Tensor.scale u = 0 then (x, 0)
  else convertVal ((floatVal acc x).scale (-(Tensor.scale u))) false (landFmt (Tensor.fmt u)) rm sat

/-- An element of a loop node's output (R240): divided by 2^SCALE and converted once. -/
def scaledOf (u : Tensor) (rm : Nat) (sat : Bool) (x : Nat) : Rslt :=
  convertVal ((floatVal .f32 x).scale (-(Tensor.scale u))) false (landFmt (Tensor.fmt u)) rm sat

/-- A loop node is within a firing (R242), nothing else of it being owed. -/
structure State.InLoop (s : State) (a : NodeAt) : Prop extends State.Turn s a where
  once  : a.rings.Nodup
  going : a.n.mem.b0 = true ∧ a.n.mem.b1 = false ∧ a.n.mem.b2 = false ∧ a.n.mem.bad = false ∧ a.n.mem.parity = false
  mem   : s.memOk

/-- A turn of a loop node that makes one step: memory is as before, the node's memory as stated, with status. -/
def LoopStep (s : State) (a : NodeAt) (osw : BitVec 32) (p : NodeMem → Prop) : Prop :=
  ∃ t n, exec a.n.ins s = .next t ∧ t.nodeOf a = some n ∧ StoredAll s t [] ∧ n.mem.osw = a.n.mem.osw ||| osw ∧ p n.mem

/-- The status of 1,024 elements. -/
def statusOf (e : Nat → Rslt) : BitVec 32 := (List.range 1024).foldl (fun o k => o ||| (e k).2) 0

/-- The 1,024 elements as a node keeps them. -/
def kept (e : Nat → Nat) : List (BitVec 64) := (List.range 1024).map (fun k => BitVec.ofNat 64 (e k))

/-! ## Turns that change one node -/

/-- The node's turn changes nothing but the node itself; then the beats of its fen move. -/
def NodeTurn (s : State) (a : NodeAt) (p : Node → Prop) : Prop :=
  ∃ n, TurnTo s a (s.updNode a.f a.k (fun _ => n)) ∧ p n

/-- A node none of whose outputs is a ring, with its two output buffers. -/
def NodeAt.onWires (a : NodeAt) : Prop := (∀ q h, a.outp q ≠ .ring h) ∧ a.n.outq.length = 2

/-- Output q, where it is connected, has these beats or tokens to send behind what it had. -/
def Sends (a : NodeAt) (n : Node) (q : Nat) (l : List Beat) : Prop := isStream (a.outp q) = true → n.due q = a.n.due q ++ l

/-- One beat or token has been taken from input j's buffer. -/
def Took (a : NodeAt) (n : Node) (j : Nat) : Prop :=
  ∀ i, (n.inq[i]?).getD [] = if i = j then ((a.n.inq[i]?).getD []).drop 1 else (a.n.inq[i]?).getD []

/-- The first fen that meets a test. -/
def State.firstFen (s : State) (p : Fen → Bool) (f : Nat) (x : Fen) : Prop :=
  s.fens[f]? = some x ∧ p x = true ∧ ∀ g y, g < f → s.fens[g]? = some y → p y = false

/-- The END beat of R249. -/
def endOf (e : BitVec 4) : List (Nat × Beat) :=
  if e.toNat < 8 then [(0, ctlBeat (e.toNat + 1))] else if e = 8#4 then [(0, ctlBeat 9)] else []

/-! ## Accesses of nodes -/

/-- A source's access to n bytes at an address finds them at once, at this key: in scratch, or translated and reached. -/
def State.Finds (s : State) (a : NodeAt) (rq : Req) (acc : Acc) (va n key : Nat) : Prop :=
  (∃ t o, a.x.space a.n.tile va = .scratch t o ∧ Freely s rq (scratchPhys t o) n ∧ key = keyScratch t o) ∨
  (∃ g ph, a.x.space a.n.tile va = .global g ∧ s.Reaches a.x rq acc g n ph ∧ key = ph.key)

/-- An element of a memory node is aligned to its size, and its piece of n bytes is found at once (R250). -/
def State.Locates (s : State) (a : NodeAt) (e : WinEl) (acc : Acc) (size n key : Nat) : Prop :=
  e.addr.toNat % size = 0 ∧ s.Finds a (a.elReq e) acc (e.addr.toNat + e.off) n key

/-- A memory node's turn: the node changes, STATUS gains bits, memory as stated; then the beats of its fen move. Lines of the
core that the node wrote are noted for its next acquire (R166). -/
def NodeDoes (s : State) (a : NodeAt) (osw : BitVec 32) (p : State → Node → Prop) : Prop :=
  ∃ t y n, TurnTo s a t ∧ t.nodeOf a = some n ∧ t.fens[a.f]? = some y ∧
    { y with status := a.x.status, mantles := a.x.mantles, core := { y.core with near := a.x.core.near } } = a.x ∧
    y.status = a.x.status ||| osw.truncate 16 ∧ (∀ g, g ≠ a.f → t.fens[g]? = s.fens[g]?) ∧ p t n

/-- Element e is the oldest of a memory node, with others behind it (R325); no mark, no retry and no poison is about. -/
structure State.HeadAt (s : State) (a : NodeAt) (e : WinEl) (r : List WinEl) : Prop extends State.Turn s a where
  head  : a.n.mem.win = e :: r
  wires : a.onWires
  calm  : s.xl.retried = [] ∧ s.Clean ∧ s.memOk
  pure'  : a.n.mem.bad = false ∧ e.bad = false

/-- It has not been issued. -/
structure State.ElemAt (s : State) (a : NodeAt) (e : WinEl) (r : List WinEl) : Prop extends State.HeadAt s a e r where
  fresh : e.got = none ∧ e.home = none

/-- The elements that a firing on the addresses of a beat puts into an empty window, in order (R250, R291, R325): one for each
address, or two granules; the last of them ends the firing. -/
structure NewEls (mem new : NodeMem) (b : Beat) (two : Bool) (data : Nat → Nat → List Byte) (cmp : Nat → List Byte) : Prop where
  order : new.win.map (fun e => (e.addr, e.elem, e.off, e.fin)) = (List.range 4).flatMap (fun i =>
    let ad := BitVec.ofNat 64 (lane 64 b.data i)
    if two then [(ad, i, 0, false), (ad, i, 16, decide (i = 3))] else [(ad, i, 0, decide (i = 3))])
  each  : ∀ e ∈ new.win, e.cmd = mem.n3 + 1 ∧ e.got = none ∧ e.home = none ∧ e.data = data e.elem e.off ∧ e.cmp = cmp e.elem
  next  : new.n3 = mem.n3 + 1

/-- The oldest element is done: the next follows, and with the last of its firing the order token leaves (R251). -/
def ElemDone (a : NodeAt) (n : Node) (e : WinEl) (r : List WinEl) : Prop :=
  n.mem.win = r ∧ Sends a n 1 (if e.fin then [reedTok true] else [])

/-- Elements of w bits go to output 0, packed: whole beats leave in order, the rest wait (R221). -/
def Packs (a : NodeAt) (n : Node) (w : Nat) (vs : List Nat) : Prop :=
  ∃ new, Sends a n 0 new ∧ (∀ b ∈ new, b.typ = 0) ∧
    new.flatMap (fun b => (List.range (256 / w)).map (lane w b.data)) ++ waiting w n.mem.pack0 =
      waiting w a.n.mem.pack0 ++ vs.map (· % 2 ^ w)

/-- SCOPE_CLAMPED where a node's scope is beyond csr.scopecap (R250). -/
def State.clampOf (s : State) (a : NodeAt) (scope : BitVec 3) : BitVec 32 := if s.scopeCap a.x < scope.toNat then 0x400#32 else 0

/-- The order tokens that a firing takes and puts out (R251). -/
def NodeAt.orders (a : NodeAt) : List Nat := if a.hasIn 3 then [3] else []

/-- The eight operations of atom on an element of a format (R254). -/
def atomOp (f : Fmt) (op old v e : Nat) : Rslt :=
  match op with
  | 0 => if f.isInt then (wrapN (Fmt.bits f) (intOf f old + intOf f v), 0)
         else finishF f 0 false (sumVals 0 [floatVal f old, floatVal f v])
  | 1 => (old &&& v, 0)
  | 2 => (old ||| v, 0)
  | 3 => (old ^^^ v, 0)
  | 4 => minMax f false old v
  | 5 => minMax f true old v
  | 6 => (v, 0)
  | _ => (if old = e then v else old, 0)

/-! ## Nodes that work item by item -/

/-- A node of items of w bits has its turn, with room on its outputs; no output holds a whole beat back. -/
structure State.Items (s : State) (a : NodeAt) (w : Nat) : Prop extends State.Turn s a where
  room  : s.roomAll a = true
  packs : a.n.mem.pack0.length < 256 / w ∧ a.n.mem.pack1.length < 256 / w

/-- The tag that a node puts on its beats after it takes inputs js: that of the IN0 beat it took last (R351; log entry 140). -/
def State.tagAfter (s : State) (a : NodeAt) (js : List Nat) : Option (BitVec 16) :=
  if 0 ∈ js then (match s.offer a 0 with | .streamed b => b.tag | _ => none) else a.n.mem.tag

/-- A turn that takes the beats of inputs js, with status, and leaves the node's memory as stated. -/
def Steps (s : State) (a : NodeAt) (js : List Nat) (osw : BitVec 32) (p : NodeMem → Prop) : Prop :=
  ∃ m, Fires s a ⟨js, false, [], osw, m⟩ .firing ∧ (m a.n.mem).tag = s.tagAfter a js ∧ p (m a.n.mem)

/-- A turn that takes a DATA beat of input j, with a guard token where the guard is on. -/
def Opens (s : State) (a : NodeAt) (j : Nat) (osw : BitVec 32) (p : NodeMem → Prop) : Prop :=
  ∃ m, Fires s a ⟨[j], true, [], osw, m⟩ .firing ∧ (m a.n.mem).tag = s.tagAfter a [j] ∧ p (m a.n.mem)

/-- What waits for a whole beat on output q. -/
def NodeMem.packOf (q : Nat) (m : NodeMem) : List (BitVec 64) := if q = 0 then m.pack0 else m.pack1

/-- Elements of w bits have gone to output q behind those that waited (R221), in beats of the node's tag. -/
def Emitted (old new : NodeMem) (q w : Nat) (es : List Nat) : Prop :=
  (∀ p ∈ new.owe, p.2.tag = new.tag) ∧
  lanesPut w q new.owe ++ waiting w (NodeMem.packOf q new) = waiting w (NodeMem.packOf q old) ++ es.map (· % 2 ^ w)

/-- Elements, and then control beats, have gone to output q, the last DATA beat completed with a filler (R221, R258), all with
the node's tag (R351). -/
def Ended (old new : NodeMem) (q w fill : Nat) (es : List Nat) (cs : List Beat) : Prop :=
  ∃ ds : List Beat, (∀ b ∈ ds, b.typ = 0 ∧ b.tag = new.tag) ∧
    (new.owe.filter (fun p => p.1 == q)).map (fun p => p.2) = ds ++ cs.map (fun c => { c with tag := new.tag }) ∧
    NodeMem.packOf q new = [] ∧
    let l := waiting w (NodeMem.packOf q old) ++ es.map (· % 2 ^ w)
    let n := 256 / w
    ds.flatMap (fun b => (List.range n).map (lane w b.data)) = l ++ List.replicate ((n - l.length % n) % n) fill

/-- The coordinate of an entry (R258). -/
def crdOf (e : Nat) : Nat := e / 2 ^ 32
/-- The value of an entry in a format. -/
def valOf (f : Fmt) (e : Nat) : Nat := e % 2 ^ Fmt.bits f
/-- The entry of a coordinate and a value. -/
def pairOf (crd v : Nat) : Nat := crd % 2 ^ 32 * 2 ^ 32 + v % 2 ^ 32
/-- The hole. -/
def holeOf : Nat := 0xFFFF_FFFF * 2 ^ 32

/-- A minimum or maximum under SAT (R61, R263): an infinite one becomes the largest finite value of its sign. -/
def boundedOf (n : NodeHdr) (r : Rslt) : Rslt :=
  match n.sat && !n.fmt.isInt, floatVal n.fmt r.1 with
  | true, .inf g =>
    let y := satF n.fmt (.inf g)
    let z := encodeF n.fmt y.1
    (z.1, r.2 ||| y.2 ||| z.2)
  | _, _ => r

/-- The seven operations on two values (R263, R265), each rounded once under RM and SAT; the result of first and of second is one of
the two, a NaN as the canonical one and an infinity bounded under SAT (R54, R61). -/
def pairOp (n : NodeHdr) (op x y : Nat) : Rslt :=
  let num : Int → Val → Rslt := fun z v => if n.fmt.isInt then finishI n.fmt n.sat z else finishF n.fmt n.rm.toNat n.sat v
  let i := intOf n.fmt x
  let j := intOf n.fmt y
  let a := floatVal n.fmt x
  let b := floatVal n.fmt y
  match op with
  | 0 => num (i + j) (sumVals n.rm.toNat [a, b])
  | 1 => boundedOf n (minMax n.fmt false x y)
  | 2 => boundedOf n (minMax n.fmt true x y)
  | 3 => num i a
  | 4 => num j b
  | 5 => num (i * j) (a.mul b)
  | _ => num (i - j) (sumVals n.rm.toNat [a, b.neg])

/-- sjoin's operations (R266): mul, add, sub, min, max, first, second. -/
def joinOp (n : NodeHdr) (op x y : Nat) : Rslt := pairOp n (match op with | 0 => 5 | 1 => 0 | 2 => 6 | 3 => 1 | 4 => 2 | 5 => 3 | _ => 4) x y

/-! ## Records and messages (R320, R404, R406, R418) -/

/-- A record ring has no room: it is full, or it has no address (R406). -/
abbrev RingRegs.NoRoom (r : RingRegs) : Prop := r.addr = 0 ∨ 2 ^ r.log2n ≤ (r.tail + 2 ^ 32 - r.head) % 2 ^ 32

/-- A record of 32 bytes is written at a ring's tail in host memory, and a message follows: two events (R406, R420). -/
def RingTakes (s t : State) (fn vector : Nat) (r r' : RingRegs) (word : Nat) : Prop :=
  Stored s t (keyHost (r.addr + 32 * (r.tail % 2 ^ r.log2n))) (toLE 32 word) ∧ r' = { r with tail := (r.tail + 1) % 2 ^ 32 } ∧
  t.dev.msix = s.dev.msix ++ [⟨fn, vector⟩] ∧ t.seq = s.seq + 2

/-- An error record (R418) goes to a function's error ring; a full ring drops it, and ELOST counts it (R406). -/
def ErrorSent (s t : State) (fn asid addr detail : Nat) (tile : Tile) (slot kind : Nat) : Prop :=
  let p := s.page fn
  let word := s.seq * 2 ^ 192 + asid * 2 ^ 176 + addr % 2 ^ 48 * 2 ^ 128 + detail % 2 ^ 32 * 2 ^ 96 + tile.die * 2 ^ 94 + tile.row * 2 ^ 89 +
    tile.col * 2 ^ 85 + slot * 2 ^ 77 + kind * 2 ^ 64 + fn * 2 ^ 57
  (p.er.NoRoom → t.mem = s.mem ∧ t.dev.msix = s.dev.msix ∧ t.seq = s.seq + 1 ∧
    t.page fn = { p with elost := min (p.elost + 1) 0xFFFF }) ∧
  (¬p.er.NoRoom → RingTakes s t fn 1 p.er (t.page fn).er word)

/-- A fault record (R320) goes to the owning function's fault ring; a full ring leaves it held. -/
def FaultSent (s t : State) (asid : Nat) (rq : Req) (x : XFault) : Prop :=
  let fn := s.asidFn asid
  let p := s.page fn
  let word := s.seq * 2 ^ 192 + asid * 2 ^ 176 + x.va % 2 ^ 48 * 2 ^ 128 + rq.elem % 2 ^ 32 * 2 ^ 96 + rq.tile.die * 2 ^ 94 +
    rq.tile.row * 2 ^ 89 + rq.tile.col * 2 ^ 85 + rq.slot * 2 ^ 77 + rq.srck * 2 ^ 74 + rq.stream * 2 ^ 67 + x.stage * 2 ^ 65 +
    x.reason * 2 ^ 61 + x.acc.code * 2 ^ 58 + (if s.replayable asid then 2 ^ 57 else 0) + fn * 2 ^ 50
  (p.fr.NoRoom → t.mem = s.mem ∧ t.dev.msix = s.dev.msix ∧ t.seq = s.seq + 1 ∧
    t.page fn = { p with heldRec := p.heldRec ++ [BitVec.ofNat 256 word] }) ∧
  (¬p.fr.NoRoom → RingTakes s t fn 0 p.fr (t.page fn).fr word)

/-- What comes back for n bytes from a spread offset up (R408, R410): poisoned ones read as zero, and are told of (R417). -/
def readBack (s : State) (pa n : Nat) : Answer :=
  let bad : Nat → Bool := fun k => s.mem.poison.contains (keySpread (pa + k))
  .data ((List.range n).map (fun k => if bad k then 0 else s.mem.get (keySpread (pa + k)))) ((List.range n).any bad)

/-! ## Tables in memory (R314) -/

/-- Entry l of a stage-2 table at an HBM-spread address for an intermediate address. -/
def State.entry2 (s : State) (tbl l ipa : Nat) : Nat :=
  leNat (s.mem.getN (keySpread (tbl + 8 * (ipa / 2 ^ (48 - 9 * l) % 512))) 8)

/-- A stage-2 entry that points to the table at an address. -/
def pointsTo (e tbl : Nat) : Prop :=
  fld e 0 0 = 1 ∧ fld e 2 2 = 0 ∧ fld e 63 56 = 0 ∧ fld e 11 7 = 0 ∧ fld e 3 3 = 0 ∧ fld e 1 1 = 0 ∧ tbl = fld e 51 12 * 4096

/-- A stage-2 leaf at level 2 to 4 that breaks no rule. -/
def leafOk (e l : Nat) : Prop :=
  fld e 0 0 = 1 ∧ fld e 2 2 = 1 ∧ fld e 63 62 = 0 ∧ fld e 11 9 < 6 ∧ ¬(fld e 1 1 = 1 ∧ fld e 6 6 = 1) ∧
  ¬(fld e 11 9 = 5 ∧ l = 2) ∧ (fld e 11 9 ≠ 4 → fld e 61 56 = 0) ∧ (fld e 11 9 ≠ 1 → fld e 8 7 = 0)

end Sys2Proof.Machine
end

