-- ==== Sys2Proof/WellFormed.lean ====
section
/-! DEFINITION. Which terms of Instr are instructions that a word of the spec can hold (R76 to R105). A constructor's
argument types hold most field widths; what is checked here is what the spec forbids beside them: illegal values,
reserved codes, fields that must be zero. Events carry no encoding and are always well formed. -/
namespace Sys2Proof

/-- A scope code that the spec assigns (R44, R45). -/
def scopeOk (s : BitVec 3) : Bool := decide (s.toNat < 6)

/-- DYN and RM of a rounding FP instruction (R86, R148): DYN requires RM 0. -/
def fpRmOk (dyn : Bool) (rm : BitVec 2) : Bool := !dyn || rm == 0#2

/-- The conversions of R149: no CF8 or KI, DYN only with RM 0, no rounding between integers. -/
def cvtOk (dyn : Bool) (rm : BitVec 2) (dst src : Fmt) : Bool :=
  (dst.isFloat || dst.isInt) && (src.isFloat || src.isInt) && fpRmOk dyn rm &&
    (dst.isFloat || src.isFloat || (!dyn && rm == 0#2))

/-- A ring count lies from 1 to 32,767 (R93). -/
def countOk (c : BitVec 15) : Bool := c != 0#15

/-- Code 0 (always) requires ra 0 (R90). -/
def condOk (c : Cond) (ra : Reg) : Bool := c != .always || ra == 0#6

/-- The fields of a command's header (R94): its scope code. -/
def hdrOk (h : CmdHdr) : Bool := scopeOk h.scope

/-- An address field whose bits [5:0] are zero (R207, R210). -/
def low6 (a : BitVec 48) : Bool := decide (a.toNat % 64 = 0)

/-- A reference that R102 can hold as an input or output field; every term of Ref can. A guard names slot code 0 to
12 when it is local (R103). -/
def guardOk : Guard → Bool
  | .near _ s => decide (s.toNat < 13)
  | _ => true

/-- A node record whose opcode has a row, and that the row and the node's own rules allow (R104, R105, R109). -/
def nodeOk (n : NodeHdr) (w : Nat) : Bool :=
  let opc := fld w 255 248
  match nodeRow opc with
  | none => false
  | some r => guardOk n.guard && (rowFlaws opc r n w).isEmpty && (nodeExtra opc n w).isEmpty

/-- The header of a node's term. -/
def Instr.node? : Instr → Option NodeHdr
  | .vadd n | .vsub n | .vmul n | .vfma n | .vdiv n | .vsqrt n | .vmin n | .vmax n | .vabs n | .vneg n | .vand n
  | .vor n | .vxor n | .vshl n | .vshr n | .vclamp n | .vcmp n _ _ | .sel n | .cvtNode n _ _ _ | .vperm n | .vrec n
  | .vrsq n | .vexp n | .vlog n | .vtanh n | .vsigm n | .vred n _ _ | .vscan n _ _ | .vbcast n _ | .mma n _ _ _
  | .mpoly n _ _ | .miter n _ _ _ _ _ | .msort n _ | .mtrn n _ | .cseq n _ | .cpipe n _ _ | .cstrm n _ | .steer n
  | .prime n _ | .source n _ _ | .count n _ _ _ _ | .sink n _ | .load n _ | .store n _ | .ldfe n _ | .stfe n _
  | .ojoin n _ | .atom n _ _ | .rdring n _ | .wrring n _ _ | .fscan n _ _ _ | .isect n | .union n _
  | .repeatNode n _ | .sred n _ _ | .sjoin n _ _ _ | .sacc n _ _ _ | .split n | .merge n | .rmerge n
  | .gath n _ _ _ | .scat n _ _ _ _ _ | .agen n _ _ | .qport n | .pqadc n _ _ _ | .bound n _ _
  | .topk n _ _ _ _ _ _ _ | .seepm n _ _ | .tomb n _ _ | .vset n _ _ _ _ _ | .kipack n _ | .fcomp n _ => some n
  | _ => none

/-- The header of a command's term. -/
def Instr.cmd? : Instr → Option CmdHdr
  | .copy h .. | .copyr h .. | .copyx h .. | .copyred h .. | .gather h .. | .scatter h .. | .fill h .. | .agload h ..
  | .sbar h .. | .carrive h | .cexpect h .. | .cnop h | .qput h .. | .qget h .. | .depdec h .. | .mred h .. | .matom h ..
  | .maxpy h .. | .thresh h .. | .launch h .. | .mswitch h .. | .pref h .. | .inval h .. | .flush h .. => some h
  | _ => none

/-- The well-formed instructions. -/
def Instr.wf (i : Instr) : Bool :=
  match i with
  | .fadd _ _ _ _ y m | .fsub _ _ _ _ y m | .fmul _ _ _ _ y m | .fdiv _ _ _ _ y m | .fma _ _ _ _ y m => fpRmOk y m
  | .fsqrt _ _ _ y m => fpRmOk y m
  | .cvt _ _ y m _ dst src => cvtOk y m dst src
  | .ld _ _ _ fe _ => fe != .set
  | .st _ _ _ fe _ => fe == .none || fe == .set
  | .br c a _ | .call c a _ => condOk c a
  | .fence s | .binit _ _ s | .bwait _ _ _ s => scopeOk s
  | .lda _ _ _ s | .stl _ _ _ s => scopeOk s
  | .cas _ _ _ _ s | .amoAdd _ _ _ _ s | .amoAnd _ _ _ _ s | .amoOr _ _ _ _ s | .amoXor _ _ _ _ s
  | .amoMin _ _ _ _ s | .amoMax _ _ _ _ s | .amoMinn _ _ _ _ s | .amoMaxn _ _ _ _ s | .amoSwap _ _ _ _ s => scopeOk s
  | .rwfill _ _ c | .rwfree _ _ c => countOk c
  | .rpop _ c | .rpush _ c => countOk c
  | .copyred h _ _ _ _ op _ _ => hdrOk h && op != 3#2
  | .fill h _ scr d o _ => hdrOk h && (scr || (d == 0#11 && o == 0#15))
  | .agload h _ a => hdrOk h && low6 a
  | .qput h _ _ q | .qget h _ _ q => hdrOk h && low6 q
  | .mred h _ _ _ op _ _ _ _ _ _ => hdrOk h && op != 3#2
  | .matom h _ op _ _ ret r _ => hdrOk h && decide (op.toNat < 7) && (ret || r == 0#15)
  | .launch h a => hdrOk h && decide (a.toNat % 128 = 0)
  | i =>
    match i.node?, i.cmd? with
    | some n, _ => nodeOk n (encodeNode i)
    | _, some h => hdrOk h
    | _, _ => true

end Sys2Proof
end

