-- ==== Sys2Proof/Certificates/Slice0/Obligations.lean ====
section
/-! DEFINITION. The statements for the provers. -/

open Sys2Proof Sys2Proof.Machine

/-! ## Scalar computation -/

/-- R137, R138, R51: the integer instructions give rd the value of the table, for every register and operand, and change
nothing else; clz, ctz and popc count zeros above the highest set bit, zeros below the lowest, and set bits; a division by
zero gives all ones, its remainder the dividend. -/
def Obligations.IntegerResults : Prop :=
  ((∀ rd ra rb : Reg,
    RegStep0 (.add rd ra rb) rd (fun c => BitVec.ofNat 64 ((c.get ra).toNat + (c.get rb).toNat)) ∧
    RegStep0 (.sub rd ra rb) rd (fun c => BitVec.ofInt 64 (((c.get ra).toNat : Int) - (c.get rb).toNat)) ∧
    RegStep0 (.and rd ra rb) rd (fun c => c.get ra &&& c.get rb) ∧
    RegStep0 (.or rd ra rb) rd (fun c => c.get ra ||| c.get rb) ∧
    RegStep0 (.xor rd ra rb) rd (fun c => c.get ra ^^^ c.get rb) ∧
    RegStep0 (.andn rd ra rb) rd (fun c => c.get ra &&& ~~~ c.get rb) ∧
    RegStep0 (.sll rd ra rb) rd (fun c => BitVec.ofNat 64 ((c.get ra).toNat * 2 ^ ((c.get rb).toNat % 64))) ∧
    RegStep0 (.srl rd ra rb) rd (fun c => BitVec.ofNat 64 ((c.get ra).toNat / 2 ^ ((c.get rb).toNat % 64))) ∧
    RegStep0 (.sra rd ra rb) rd (fun c => BitVec.ofInt 64 ((c.get ra).toInt / 2 ^ ((c.get rb).toNat % 64))) ∧
    RegStep0 (.ror rd ra rb) rd (fun c => BitVec.ofNat 64 ((c.get ra).toNat / 2 ^ ((c.get rb).toNat % 64) +
      (c.get ra).toNat * 2 ^ (64 - (c.get rb).toNat % 64))) ∧
    RegStep0 (.slt rd ra rb) rd (fun c => if (c.get ra).toInt < (c.get rb).toInt then 1#64 else 0#64) ∧
    RegStep0 (.sltn rd ra rb) rd (fun c => if (c.get ra).toNat < (c.get rb).toNat then 1#64 else 0#64) ∧
    RegStep0 (.seq rd ra rb) rd (fun c => if c.get ra = c.get rb then 1#64 else 0#64) ∧
    RegStep0 (.min rd ra rb) rd (fun c => if (c.get ra).toInt < (c.get rb).toInt then c.get ra else c.get rb) ∧
    RegStep0 (.max rd ra rb) rd (fun c => if (c.get ra).toInt < (c.get rb).toInt then c.get rb else c.get ra) ∧
    RegStep0 (.minn rd ra rb) rd (fun c => if (c.get ra).toNat < (c.get rb).toNat then c.get ra else c.get rb) ∧
    RegStep0 (.maxn rd ra rb) rd (fun c => if (c.get ra).toNat < (c.get rb).toNat then c.get rb else c.get ra)) ∧
  (∀ rd ra : Reg,
    RegStep0 (.clz rd ra) rd (fun c => if c.get ra = 0#64 then 64#64 else BitVec.ofNat 64 (63 - Nat.log2 (c.get ra).toNat)) ∧
    RegStep0 (.ctz rd ra) rd (fun c => BitVec.ofNat 64 (((List.range 64).find? (fun k => (c.get ra).getLsbD k)).getD 64)) ∧
    RegStep0 (.popc rd ra) rd (fun c => BitVec.ofNat 64 ((List.range 64).countP (fun k => (c.get ra).getLsbD k))))) ∧
  (∀ rd ra rb : Reg,
    RegStep0 (.mul rd ra rb) rd (fun c => BitVec.ofNat 64 ((c.get ra).toNat * (c.get rb).toNat)) ∧
    RegStep0 (.mulh rd ra rb) rd (fun c => BitVec.ofInt 64 ((c.get ra).toInt * (c.get rb).toInt / 2 ^ 64)) ∧
    RegStep0 (.mulhn rd ra rb) rd (fun c => BitVec.ofNat 64 ((c.get ra).toNat * (c.get rb).toNat / 2 ^ 64)) ∧
    RegStep0 (.div rd ra rb) rd (fun c =>
      if c.get rb = 0#64 then BitVec.allOnes 64 else BitVec.ofInt 64 ((c.get ra).toInt.tdiv (c.get rb).toInt)) ∧
    RegStep0 (.divn rd ra rb) rd (fun c =>
      if c.get rb = 0#64 then BitVec.allOnes 64 else BitVec.ofNat 64 ((c.get ra).toNat / (c.get rb).toNat)) ∧
    RegStep0 (.rem rd ra rb) rd (fun c =>
      if c.get rb = 0#64 then c.get ra else BitVec.ofInt 64 ((c.get ra).toInt.tmod (c.get rb).toInt)) ∧
    RegStep0 (.remn rd ra rb) rd (fun c =>
      if c.get rb = 0#64 then c.get ra else BitVec.ofNat 64 ((c.get ra).toNat % (c.get rb).toNat)))

/-- R139, R140: the immediate instructions, lui and lba; a shift by an immediate whose bits [13:6] are not zero is an illegal
instruction. -/
def Obligations.ImmediateResults : Prop :=
  ∀ (rd ra : Reg) (i : BitVec 14) (k : BitVec 6) (u : BitVec 20),
    RegStep0 (.addi rd ra i) rd (fun c => BitVec.ofInt 64 ((c.get ra).toInt + i.toInt)) ∧
    RegStep0 (.andi rd ra i) rd (fun c => c.get ra &&& BitVec.ofNat 64 i.toNat) ∧
    RegStep0 (.ori rd ra i) rd (fun c => c.get ra ||| BitVec.ofNat 64 i.toNat) ∧
    RegStep0 (.xori rd ra i) rd (fun c => c.get ra ^^^ BitVec.ofNat 64 i.toNat) ∧
    RegStep0 (.slti rd ra i) rd (fun c => if (c.get ra).toInt < i.toInt then 1#64 else 0#64) ∧
    RegStep0 (.sltni rd ra i) rd (fun c => if (c.get ra).toNat < (BitVec.ofInt 64 i.toInt).toNat then 1#64 else 0#64) ∧
    RegStep0 (.slli rd ra k) rd (fun c => BitVec.ofNat 64 ((c.get ra).toNat * 2 ^ k.toNat)) ∧
    RegStep0 (.srli rd ra k) rd (fun c => BitVec.ofNat 64 ((c.get ra).toNat / 2 ^ k.toNat)) ∧
    RegStep0 (.srai rd ra k) rd (fun c => BitVec.ofInt 64 ((c.get ra).toInt / 2 ^ k.toNat)) ∧
    RegStep0 (.lui rd u) rd (fun _ => BitVec.ofInt 64 (u.toInt * 2 ^ 12)) ∧
    RegStep0 (.lba rd u) rd (fun c => BitVec.ofInt 64 (c.pc.toInt + u.toInt * 64)) ∧
    ∀ w, w < 2 ^ 32 → 0x0C ≤ w / 2 ^ 26 → w / 2 ^ 26 ≤ 0x0E → w / 2 ^ 6 % 2 ^ 8 ≠ 0 → decodeTableWord 32 w = none

/-- R146, R149: floating-point instructions and cvt round once under the rounding mode, from RM or csr.rm, and add the
status bits of their result; comparisons give 1 or 0. -/
def Obligations.FloatResults : Prop :=
  ∀ (rd ra rb : Reg) (f32 dyn sat : Bool) (rm : BitVec 2) (dst src : Fmt),
    let fm : Fmt := if f32 then .f32 else .f64
    let arg : Core → Reg → Nat := fun c r => if f32 then (c.get r).toNat % 2 ^ 32 else (c.get r).toNat
    let mode : Core → Nat := fun c => if dyn then c.locRm.toNat else rm.toNat
    let step : Instr → (Core → Rslt) → Prop := fun i r =>
      RegStep i rd (fun c => BitVec.ofNat 64 (r c).1) (fun c => (r c).2)
    let test : Instr → (Val → Val → Bool) → Prop := fun i p =>
      RegStep0 i rd (fun c => if p (floatVal fm (arg c ra)) (floatVal fm (arg c rb)) then 1#64 else 0#64)
    step (.fadd rd ra rb f32 dyn rm) (fun c => addF fm (mode c) (arg c ra) (arg c rb)) ∧
    step (.fsub rd ra rb f32 dyn rm) (fun c => subF fm (mode c) (arg c ra) (arg c rb)) ∧
    step (.fmul rd ra rb f32 dyn rm) (fun c => mulF fm (mode c) (arg c ra) (arg c rb)) ∧
    step (.fdiv rd ra rb f32 dyn rm) (fun c => divF fm (mode c) (arg c ra) (arg c rb)) ∧
    step (.fsqrt rd ra f32 dyn rm) (fun c => sqrtF fm (mode c) (arg c ra)) ∧
    step (.fma rd ra rb f32 dyn rm) (fun c => fmaF fm (mode c) (arg c ra) (arg c rb) (arg c rd)) ∧
    step (.fmin rd ra rb f32) (fun c => minMaxF fm false (arg c ra) (arg c rb)) ∧
    step (.fmax rd ra rb f32) (fun c => minMaxF fm true (arg c ra) (arg c rb)) ∧
    test (.feq rd ra rb f32) Val.eqv ∧ test (.flt rd ra rb f32) Val.lt ∧
    test (.fle rd ra rb f32) (fun a b => a.lt b || a.eqv b) ∧
    RegStep (.cvt rd ra dyn rm sat dst src) rd
      (fun c => let v := (convert ((c.get ra).toNat % 2 ^ Fmt.bits src) src dst (mode c) sat).1
                if Fmt.signed dst then BitVec.ofInt 64 (sx (Fmt.bits dst) v) else BitVec.ofNat 64 v)
      (fun c => (convert ((c.get ra).toNat % 2 ^ Fmt.bits src) src dst (mode c) sat).2)

/-- R142 to R145: tbase, tdim, tstr and tinfo read the entry that a tensor number names, taddr computes an element's
address; a number that does not resolve, or names a malformed entry, gives all ones (tinfo: 0, or MALF). R141, R143: mksa
gives the scratch address of a good designator and offset, and traps with cause 10 otherwise; taddr with an index register
beyond g63 traps with cause 2. Which operand csr.trapval holds when both of mksa's fail is the model's choice (log entry 126). -/
def Obligations.TensorAddresses : Prop :=
  (∀ (s : State) (f : Nat) (x : Fen) (rd ra rb : Reg), State.coreHere s = some (f, x) →
    let k := (x.core.get ra).toNat
    let j := (x.core.get rb).toNat
    let ones := BitVec.allOnes 64
    ((4096 ≤ k ∨ s.goodTensor x.asid k = none) →
      RegStepAt (.tbase rd ra) s f x rd ones 0 ∧ RegStepAt (.tdim rd ra rb) s f x rd ones 0 ∧
      RegStepAt (.tstr rd ra rb) s f x rd ones 0 ∧ RegStepAt (.taddr rd ra rb) s f x rd ones 0) ∧
    ((4096 ≤ k ∨ s.tensor x.asid k = none) → RegStepAt (.tinfo rd ra) s f x rd 0 0) ∧
    (∀ e, k < 4096 → s.tensor x.asid k = some e →
      RegStepAt (.tinfo rd ra) s f x rd (BitVec.ofNat 64 (Tensor.rank e + e.toNat / 2 ^ 432 % 16 * 2 ^ 4 +
        e.toNat / 2 ^ 440 % 256 * 2 ^ 8 + Tensor.blen e * 2 ^ 16 + (if Tensor.wp e then 2 ^ 28 else 0) +
        (if Tensor.zpad e then 2 ^ 29 else 0) + (if Tensor.malformed e then 2 ^ 30 else 0) + 2 ^ 31)) 0) ∧
    (∀ e, k < 4096 → s.goodTensor x.asid k = some e →
      RegStepAt (.tbase rd ra) s f x rd (BitVec.ofNat 64 (e.toNat % 2 ^ 64)) 0 ∧
      RegStepAt (.tdim rd ra rb) s f x rd
        (if j < Tensor.rank e then BitVec.ofNat 64 (Tensor.dim e j) else if j ≤ 4 then 1#64 else ones) 0 ∧
      RegStepAt (.tstr rd ra rb) s f x rd
        (if j < Tensor.rank e then BitVec.ofInt 64 (Tensor.sd e j) else if j ≤ 4 then 0#64 else ones) 0 ∧
      (rb.toNat + Tensor.rank e ≤ 64 →
        let ix := (List.range (Tensor.rank e)).map (fun m => (x.core.get (BitVec.ofNat 6 (rb.toNat + m))).toNat)
        RegStepAt (.taddr rd ra rb) s f x rd
          (if (List.range (Tensor.rank e)).any (fun m => decide (Tensor.dim e m ≤ (ix[m]?).getD 0)) then ones
           else if Tensor.fmt e = .cf8 ∧ Tensor.blen e = 0 then
             (if (ix[0]?).getD 0 < 32 ∧ Tensor.rank e = 1 then BitVec.ofNat 64 (Tensor.base e) else ones)
           else BitVec.ofNat 64 (Tensor.addr e ix)) 0))) ∧
  (∀ (s : State) (f : Nat) (x : Fen) (rd ra rb : Reg), State.coreHere s = some (f, x) →
    let d := (x.core.get ra).toNat
    let o := (x.core.get rb).toNat
    let self := d / 2 ^ 10 % 2 = 1
    let named := d / 2 ^ 3 % 2 = 0 ∧ d / 2 ^ 8 % 4 = 0 ∧ d / 2 ^ 4 % 16 < x.height ∧ d % 8 < x.width
    (d < 2 ^ 11 → (self ∨ named) → o < 2 ^ 19 →
      RegStepAt (.mksa rd ra rb) s f x rd
        (BitVec.ofNat 64 (0xFFFF * 2 ^ 48 + (if self then 2 ^ 10 else d) * 2 ^ 20 + o)) 0) ∧
    (x.core.trapvec ≠ 0#64 → (2 ^ 11 ≤ d ∨ (¬self ∧ ¬named)) → Traps (.mksa rd ra rb) s f x 10 (x.core.get ra)) ∧
    (x.core.trapvec ≠ 0#64 → d < 2 ^ 11 → (self ∨ named) → 2 ^ 19 ≤ o →
      Traps (.mksa rd ra rb) s f x 10 (x.core.get rb)) ∧
    (∀ e, x.core.trapvec ≠ 0#64 → (x.core.get ra).toNat < 4096 → s.goodTensor x.asid (x.core.get ra).toNat = some e →
      64 < rb.toNat + Tensor.rank e → Traps (.taddr rd ra rb) s f x 2 x.core.word))


/-! ## Control registers, control transfer, traps -/

/-- R15 to R18, R185: csrr reads a control register as the block sees it; csrw and csrx clear the STATUS bits written as
ones, write csr.rm and csr.trapvec, and change no other; a write of an unassigned number is illegal, and the instruction word that csr.trapval then
holds is the model's reading (log entry 14). csr.cycle counts the
fabric cycles since module reset less those during which its fen was frozen (R11); reading it takes cycles, how many being
a free value of the model (log entry 8). -/
def Obligations.CsrResults : Prop :=
  (∀ (s : State) (f : Nat) (x : Fen) (rd ra : Reg) (n : BitVec 12), State.coreHere s = some (f, x) →
    let c := x.core
    let v := c.get ra
    let assigned := n.toNat ≤ 0x11 ∨ (0x18 ≤ n.toNat ∧ n.toNat ≤ 0x1C)
    let read : Word :=
      if n = 0x000#12 then BitVec.ofNat 64 ((x.status &&& ~~~c.clr).toNat + min x.dropped 0xFFFF * 2 ^ 32 +
        (if s.fenFrozen x then 5 else x.state) * 2 ^ 56)
      else if n = 0x001#12 then BitVec.ofNat 64 (x.width + x.height * 2 ^ 16 + x.col0 * 2 ^ 24 + x.row0 * 2 ^ 32 + x.die * 2 ^ 40)
      else if n = 0x002#12 then BitVec.ofNat 64 x.asid else if n = 0x003#12 then BitVec.ofNat 64 x.fn
      else if n = 0x004#12 then BitVec.ofNat 64 x.cur else if n = 0x005#12 then c.seq
      else if n = 0x006#12 then c.argp else if n = 0x007#12 then c.complw
      else if 0x008 ≤ n.toNat ∧ n.toNat ≤ 0x00F then BitVec.ofNat 64 ((c.lix[n.toNat - 8]?).getD 0#32).toNat
      else if n = 0x010#12 then BitVec.ofNat 64 c.locRm.toNat
      else if n = 0x011#12 then BitVec.ofNat 64 (s.scopeCap x)
      else if n = 0x018#12 then c.locVec else if n = 0x019#12 then c.trapcause else if n = 0x01A#12 then c.trapblk
      else if n = 0x01B#12 then c.trapval else if n = 0x01C#12 then c.trapidx else 0#64
    let written : Core := { c with
      clr := if n = 0x000#12 then c.clr ||| BitVec.ofNat 16 v.toNat else c.clr,
      locRm := if n = 0x010#12 then BitVec.ofNat 2 v.toNat else c.locRm,
      locVec := if n = 0x018#12 then BitVec.ofNat 64 (v.toNat / 64 * 64) else c.locVec }
    (n ≠ 0x020#12 → RegStepAt (.csrr rd n) s f x rd read 0) ∧
    ((assigned ∨ n = 0x020#12) → CoreStep (.csrw n ra) s f x (Core.after written 0)) ∧
    (assigned → CoreStep (.csrx rd ra n) s f x (Core.after (written.put rd read) 0)) ∧
    (x.core.trapvec ≠ 0#64 → ¬assigned → n ≠ 0x020#12 →
      Traps (.csrw n ra) s f x 2 x.core.word ∧ Traps (.csrx rd ra n) s f x 2 x.core.word)) ∧
  (∀ (s : State) (f : Nat) (x : Fen) (rd ra : Reg), State.coreHere s = some (f, x) → s.fenFrozen x = false →
    ∃ t y, exec (.csrr rd 0x020#12) s = .next t ∧ exec (.csrx rd ra 0x020#12) s = .next t ∧ t.fens[f]? = some y ∧
      s.cycle ≤ t.cycle ∧ y.core = Core.after (x.core.put rd (BitVec.ofNat 64 (t.cycle - x.lag))) 0 ∧
      t.mem = s.mem ∧ y.status = x.status)

/-- R157 to R159, R187: br, call, jr, halt and tret; a taken exit nullifies every later instruction of the block. -/
def Obligations.ControlTransfers : Prop :=
  ∀ (s : State) (f : Nat) (x : Fen) (rd ra : Reg) (k : Cond) (ofs : BitVec 17), State.coreHere s = some (f, x) →
    let c := x.core
    let a := (c.get ra).toInt
    let holds := match k with
      | .always => True | .eqz => a = 0 | .nez => a ≠ 0 | .ltz => a < 0 | .gez => 0 ≤ a | .gtz => 0 < a | .lez => a ≤ 0
    let target := BitVec.ofInt 64 (c.pc.toInt + ofs.toInt * 64)
    let fall := BitVec.ofNat 64 ((c.pc.toNat + 4 * (c.words.length + 1) + 63) / 64 * 64)
    let out : Core → Word → Core := fun c w => { c with exit := some w, exitIx := c.idx, idx := c.words.length }
    (holds → CoreStep (.br k ra ofs) s f x (out c target) ∧ CoreStep (.call k ra ofs) s f x (out (c.put 63#6 fall) target)) ∧
    (¬holds → CoreStep (.br k ra ofs) s f x (Core.after c 0) ∧ CoreStep (.call k ra ofs) s f x (Core.after c 0)) ∧
    CoreStep (.jr rd ra) s f x (out (c.put rd fall) (c.get ra)) ∧
    CoreStep .halt s f x { c with halting := true, idx := c.words.length } ∧
    CoreStep .tret s f x (out c c.trapblk)

/-- R186, R19, R135: trap aborts the block with cause 9 and its code, and the core goes on at csr.trapvec with the trap
registers saved. R19, R343: while csr.trapvec is 0 it terminates the task: csr.fenstat shows state 7 with ABORTED, the core
stops, no command of the fen performs anything more, and no node of another fen or other core changes. -/
def Obligations.TrapEntry : Prop :=
  (∀ (s : State) (f : Nat) (x : Fen) (code : BitVec 10), State.coreHere s = some (f, x) → x.core.trapvec ≠ 0#64 →
    Traps (.trap code) s f x 9 (BitVec.ofNat 64 code.toNat)) ∧
  (∀ (s : State) (f : Nat) (x : Fen) (code : BitVec 10), State.coreHere s = some (f, x) → x.core.trapvec = 0#64 →
    x.live = true → x.term = none → x.core.phase = .run →
    ∃ t y, exec (.trap code) s = .next t ∧ t.fens[f]? = some y ∧ (∀ g, g ≠ f → t.fens[g]? = s.fens[g]?) ∧
      y.state = 7 ∧ y.term = some (2, 0) ∧ y.status = x.status ||| 0x0200#16 ∧ y.core.phase = .halted ∧
      y.core.regs = x.core.regs ∧ y.mantles = x.mantles ∧
      (∀ q ∈ y.ports, ∀ c ∈ q.cmds, c.done = true ∧ c.osw &&& Osw.aborted = Osw.aborted) ∧
      (∀ p ∈ t.xl.pending, p.req.fen ≠ some f))

/-- R168, R166, R188: fence waits for the core's write-throughs and acquires at its effective scope; wfe completes when the
event flag is set and otherwise waits; sev and wfe's clear of the flag are held until the commit. What an acquire drops is the
model's reading (log entry 124). -/
def Obligations.FenceAndEvents : Prop :=
  ∀ (s : State) (f : Nat) (x : Fen) (sc : BitVec 3), State.coreHere s = some (f, x) →
    let c := x.core
    let cap := s.scopeCap x
    (s.drained f = true →
      CoreStep (.fence sc) s f x (Core.after (c.acquired (min sc.toNat cap)) (if cap < sc.toNat then 0x400#32 else 0))) ∧
    (s.drained f = false → exec (.fence sc) s = .next s) ∧
    (c.flag = true → CoreStep .wfe s f x (Core.after { c with effs := c.effs ++ [(c.idx, .clearFlag)], wfe := none } 0)) ∧
    (c.flag = false → s.cycle < c.wfe.getD s.cycle + 65536 →
      CoreStep .wfe s f x { c with wfe := some (c.wfe.getD s.cycle) }) ∧
    CoreStep .sev s f x (Core.after { c with effs := c.effs ++ [(c.idx, .sev)] } 0)

/-! ## Loads and stores -/

/-- R150, R151, R132, R155, R166, R169: loads from scratch give what the block sees there; a keep or clear waits for a full
granule; lda acquires at its effective scope, what that drops being the model's reading (log entry 124). R154: stores to scratch are held until the commit; a set waits for an empty
granule. -/
def Obligations.ScratchAccesses : Prop :=
  (∀ (s : State) (f : Nat) (x : Fen) (rd base ra : Reg) (z : MSize) (imm : BitVec 9) (w32 : Bool) (sc : BitVec 3)
    (t : Tile) (o : Nat), State.coreHere s = some (f, x) → s.Clean →
    let c := x.core
    let k := keyScratch t o
    let ea := (ldAddr c base z imm).toNat
    let v := loaded z (s.seenN c k (widthOf z))
    let w := if w32 then 4 else 8
    let cap := s.scopeCap x
    s.charge (coreReq f x) (scratchPhys t o) 0 = .ok () s →
    (x.space x.anchor ea = .scratch t o → ea % widthOf z = 0 →
      RegStepAt (.ld rd base z .none imm) s f x rd v 0 ∧
      (s.granFull c (k / 16) = true → RegStepAt (.ld rd base z .keep imm) s f x rd v 0) ∧
      (s.granFull c (k / 16) = true → s.granHeld f (k / 16) = false →
        CoreStep (.ld rd base z .clear imm) s f x
          (Core.after { (c.put rd v) with effs := c.effs ++ [(c.idx, .setEmpty (scratchPhys t o))] } 0)) ∧
      (s.granFull c (k / 16) = false →
        exec (.ld rd base z .keep imm) s = .next s ∧ exec (.ld rd base z .clear imm) s = .next s)) ∧
    (x.space x.anchor (c.get ra).toNat = .scratch t o → (c.get ra).toNat % w = 0 →
      CoreStep (.lda w32 rd ra sc) s f x
        (Core.after ((c.put rd (BitVec.ofNat 64 (s.seenN c k w))).acquired (min sc.toNat cap))
          (if cap < sc.toNat then 0x400#32 else 0)))) ∧
  (∀ (s : State) (f : Nat) (x : Fen) (rd base ra rb : Reg) (z : MSize) (imm : BitVec 9) (w32 : Bool) (sc : BitVec 3)
    (t : Tile) (o : Nat), State.coreHere s = some (f, x) →
    let c := x.core
    let gran := keyScratch t o / 16
    let ea := ldAddr c base z imm
    let bs := toLE (widthOf z) (c.get rd).toNat
    let w := if w32 then 4 else 8
    let cap := s.scopeCap x
    let hold : Eff → Core := fun e => { c with effs := c.effs ++ [(c.idx, e)] }
    (x.space x.anchor ea.toNat = .scratch t o → ea.toNat % widthOf z = 0 →
      CoreStep (.st rd base z .none imm) s f x (Core.after (hold (.store (scratchPhys t o) ea.toNat bs)) 0) ∧
      (s.granFull c gran = false → s.granHeld f gran = false →
        CoreStep (.st rd base z .set imm) s f x (Core.after (hold (.setFull (scratchPhys t o) bs)) 0)) ∧
      (s.granFull c gran = true → exec (.st rd base z .set imm) s = .next s)) ∧
    (x.space x.anchor (c.get ra).toNat = .scratch t o → (c.get ra).toNat % w = 0 →
      CoreStep (.stl w32 ra rb sc) s f x
        (Core.after (hold (.store (scratchPhys t o) (c.get ra).toNat (toLE w (c.get rb).toNat)))
          (if cap < sc.toNat then 0x400#32 else 0))))

/-- R150 to R152, R132, R169: loads and stores at a mapped global address: from the data cache for the types it caches, where
it holds the line, else from the home, the line entering the cache; bytes that the block has stored come from its stores; lda
at fen scope or wider reads the home; stores are held until the commit. What the acquire of lda drops is the model's reading (log
entry 124). -/
def Obligations.GlobalAccesses : Prop :=
  ∀ (s : State) (f : Nat) (x : Fen) (rd base ra rb : Reg) (z : MSize) (imm : BitVec 9) (w32 : Bool) (sc : BitVec 3)
    (e : Tlb), State.coreHere s = some (f, x) → s.Clean →
    let c := x.core
    let cap := s.scopeCap x
    let clamp := if cap < sc.toNat then 0x400#32 else 0
    let w := if w32 then 4 else 8
    let hold : Eff → Core := fun e => { c with effs := c.effs ++ [(c.idx, e)] }
    let place : Nat → Phys := fun va => Tlb.target e (s.asidFn x.asid) va
    let ea := (ldAddr c base z imm).toNat
    let va := (c.get ra).toNat
    let rq := coreReq f x
    let lineKey : Nat → Nat := fun va => (place va).key - va % 64
    let line : Nat → Option DLine := fun va => c.dcache.find? (fun l => l.va == va / 64 * 64 && l.key == lineKey va)
    let held : DLine → Nat → Nat → Nat := fun l va n =>
      leNat ((List.range n).map (fun j => seenOver c.effs ((place va).key + j) ((l.bytes[va % 64 + j]?).getD 0)))
    let cached : Core → List DLine → Fen := fun c d => { x with core := Core.after { c with dcache := d } 0 }
    let unseen : Nat → Nat → Prop := fun va n => ∀ j, j < n → ∀ e ∈ c.effs, e.2.byteAt ((place va).key + j) = none
    (ea < 2 ^ 48 → ea % widthOf z = 0 → s.Maps f x .read ea e →
      (e.typ.inEmt = false → e.typ.leaves = false → Readable s rq (place ea) (widthOf z) →
        RegStepAt (.ld rd base z .none imm) s f x rd (loaded z (s.seenN c (place ea).key (widthOf z))) 0) ∧
      (∀ l, e.typ.inEmt = true → line ea = some l → l.bytes.length = 64 →
        RegStepAt (.ld rd base z .none imm) s f x rd (loaded z (held l ea (widthOf z))) 0) ∧
      (e.typ.inEmt = true → line ea = none → unseen ea (widthOf z) → Readable s rq (place ea) (widthOf z) →
        s.behind rq (lineKey ea) 64 = false →
        ∃ t d, exec (.ld rd base z .none imm) s = .next t ∧ t.mem = s.mem ∧
          t.fens[f]? = some (cached (c.put rd (loaded z (leNat (s.mem.getN (place ea).key (widthOf z))))) d) ∧
          (⟨ea / 64 * 64, lineKey ea, s.mem.getN (lineKey ea) 64⟩ : DLine) ∈ d ∧
          ∀ l ∈ d, l ∈ c.dcache ∨ l = ⟨ea / 64 * 64, lineKey ea, s.mem.getN (lineKey ea) 64⟩) ∧
      (∀ bs s1, e.typ.leaves = true → unseen ea (widthOf z) → s.behind rq (place ea).key (widthOf z) = false →
        s.outside rq .read (place ea) ea (widthOf z) = .ok (bs, false) s1 →
        bs.length = widthOf z → ∃ t, exec (.ld rd base z .none imm) s = .next t ∧ t.mem = s1.mem ∧
          t.fens[f]? = some { x with core := Core.after (c.put rd (loaded z (leNat bs))) 0 })) ∧
    (va < 2 ^ 48 → va % w = 0 → s.Maps f x .read va e → e.typ.leaves = false →
      (Readable s rq (place va) w → (e.typ.inEmt = false ∨ 1 ≤ min sc.toNat cap) →
        CoreStep (.lda w32 rd ra sc) s f x
          (Core.after ((c.put rd (BitVec.ofNat 64 (s.seenN c (place va).key w))).acquired (min sc.toNat cap)) clamp)) ∧
      (∀ l, e.typ.inEmt = true → min sc.toNat cap = 0 → line va = some l → l.bytes.length = 64 →
        CoreStep (.lda w32 rd ra sc) s f x
          (Core.after ((c.put rd (BitVec.ofNat 64 (held l va w))).acquired 0) clamp))) ∧
    (ea < 2 ^ 48 → ea % widthOf z = 0 → s.Maps f x .write ea e →
      CoreStep (.st rd base z .none imm) s f x
        (Core.after (hold (.store (place ea) ea (toLE (widthOf z) (c.get rd).toNat))) 0)) ∧
    (va < 2 ^ 48 → va % w = 0 → s.Maps f x .write va e →
      CoreStep (.stl w32 ra rb sc) s f x (Core.after (hold (.store (place va) va (toLE w (c.get rb).toNat))) clamp))

/-- R150, R154, R20: the traps of an address, in order: cause 10 for bits [63:48] that are neither all zeros nor all ones,
cause 4 for a misaligned address, cause 10 for a scratch address with a nonzero reserved bit or a tile outside the fen,
and for a full/empty access to global memory. -/
def Obligations.AddressTraps : Prop :=
  ∀ (s : State) (f : Nat) (x : Fen) (rd base ra rb : Reg) (z : MSize) (fe : Fe) (imm : BitVec 9) (w32 : Bool) (sc : BitVec 3),
    State.coreHere s = some (f, x) → x.core.trapvec ≠ 0#64 → x.core.phase = .run →
    let cause : Word → Nat → Bool → Option Nat := fun a w full =>
      let hi := a.toNat / 2 ^ 48
      let d := a.toNat / 2 ^ 20 % 2 ^ 11
      if hi ≠ 0 ∧ hi ≠ 0xFFFF then some 10
      else if a.toNat % w ≠ 0 then some 4
      else if hi = 0 then (if full then some 10 else none)
      else if a.toNat / 2 ^ 31 % 2 ^ 17 = 0 ∧ a.toNat / 2 ^ 19 % 2 = 0 ∧ (d / 2 ^ 10 = 1 ∨
        (d / 2 ^ 3 % 2 = 0 ∧ d / 2 ^ 8 % 4 = 0 ∧ d / 2 ^ 4 % 16 < x.height ∧ d % 8 < x.width)) then none
      else some 10
    (∀ n, cause (ldAddr x.core base z imm) (widthOf z) (fe != .none) = some n →
      Traps (.ld rd base z fe imm) s f x n (ldAddr x.core base z imm) ∧
      Traps (.st rd base z fe imm) s f x n (ldAddr x.core base z imm)) ∧
    (∀ n, cause (x.core.get ra) (if w32 then 4 else 8) false = some n →
      Traps (.lda w32 rd ra sc) s f x n (x.core.get ra) ∧ Traps (.stl w32 ra rb sc) s f x n (x.core.get ra) ∧
      Traps (.cas w32 rd ra rb sc) s f x n (x.core.get ra) ∧ Traps (.amoAdd w32 rd ra rb sc) s f x n (x.core.get ra)) ∧
    (∀ n, cause (x.core.get ra) 32 false = some n →
      Traps (.barv rd ra) s f x n (x.core.get ra) ∧
      (x.core.get rb = 0 ∨ x.core.get rb = 1 → Traps (.bwait rd ra rb sc) s f x n (x.core.get ra)))

/-! ## Non-revocable operations -/

/-- R161, R170, R166: an atomic at its granted claim replaces the value at its location by the one its operation computes, as
one step; rd receives the old value; no other byte changes; at fen scope or wider the data cache is empty after it. At a HOST
or PEER page the old value is the one the other side answers (R289, R296). -/
def Obligations.AtomicResults : Prop :=
  ∀ (s : State) (f : Nat) (x : Fen) (p : Prep) (w32 : Bool) (rd ra rb : Reg) (sc : BitVec 3),
    s.Granted f x p → s.memOk → s.Clean →
    ∀ a ∈ atomicTable w32 rd ra rb sc,
      let w := if w32 then 4 else 8
      let st := if s.scopeCap x < sc.toNat then 0x400#32 else 0
      let swaps : Nat → Prop := fun old =>
        let new := a.2 old (p.b.toNat % 2 ^ (8 * w)) (p.d.toNat % 2 ^ (8 * w))
        Does a.1 s f x (some rd) (BitVec.ofNat 64 old) st
          (fun t => Stored s t p.ph.key (toLE w new) ∧ t.mem.full = s.mem.full ∧ (∀ g, g ≠ f → t.fens[g]? = s.fens[g]?) ∧
            ∀ y, t.fens[f]? = some y → 1 ≤ p.scope → y.core.dcache = [])
      (p.ph.typ.leaves = false → Freely s (coreReq f x) p.ph w → swaps (leNat (s.mem.getN p.ph.key w))) ∧
      (∀ bs s1, p.ph.typ.leaves = true → s.reserved (coreReq f x) p.ph.key w = false → s.behind (coreReq f x) p.ph.key w = false →
        s.outside (coreReq f x) .rmw p.ph p.a.toNat w = .ok (bs, false) s1 → bs.length = w → swaps (leNat bs))

/-- R161, R150: an atomic that a block reaches is prepared: its operands and its location are kept and nothing else is
done; GRANT then passes the point of no return, and an atomic waits on a location that another block's granted claim holds, and
for the core's write-throughs (R166). -/
def Obligations.AtomicClaims : Prop :=
  ∀ (s : State) (f : Nat) (x : Fen) (w32 : Bool) (rd ra rb : Reg) (sc : BitVec 3), State.coreHere s = some (f, x) →
    ∀ a ∈ atomicTable w32 rd ra rb sc,
      let c := x.core
      (∀ t o, c.phase = .run → x.space x.anchor (c.get ra).toNat = .scratch t o → (c.get ra).toNat % (if w32 then 4 else 8) = 0 →
        let p : Prep := ⟨c.get ra, c.get rb, c.get rd, scratchPhys t o, 0, [], [], min sc.toNat (s.scopeCap x)⟩
        CoreStep a.1 s f x (Core.after { c with prep := some p } 0)) ∧
      (∀ p w, (c.phase = .run ∨ c.phase = .claim) → c.words.length ≤ c.idx → s.fenFrozen x = false → c.asleep = false →
        c.prep = some p → c.words[c.nrix]? = some w → decodeScalar w.toNat = .ok a.1 → x.roomFor c.cmds = true →
        p.ph.typ = .scratch →
        (s.reserved (coreReq f x) p.ph.key 64 = false → s.drained f = true →
          CoreStep .grant s f x { c with phase := .granted, idx := c.nrix, prep := some p, asleep := false, retry := false }) ∧
        (s.reserved (coreReq f x) p.ph.key 64 = true ∨ s.drained f = false → exec .grant s = .next s))

/-- R171 to R174, R28 to R30: binit writes a whole object at commit; barv and bexp update a live object as one step and
evaluate it, unless they are of a cycle in which objects collect their updates: then memory is as before, until that cycle ends;
bwait waits for the phase to change, then reads LASTSTAT and acquires. That cycle is the model's reading (log entry 153), as are the
order of an operand's check and an address's (15), that bexp takes no scope (18), and what an acquire drops (124). -/
def Obligations.BarrierResults : Prop :=
  ∀ (s : State) (f : Nat) (x : Fen) (rd ra rb : Reg) (sc : BitVec 3) (p : Prep) (t : Tile) (o : Nat),
    State.coreHere s = some (f, x) → s.memOk →
    let c := x.core
    let cap := s.scopeCap x
    let clamp := if cap < sc.toNat then 0x400#32 else 0
    let there := x.space x.anchor (c.get ra).toNat = .scratch t o ∧ (c.get ra).toNat % 32 = 0
    let b := s.bar (keyScratch t o)
    (there → 1 ≤ (c.get rb).toNat → (c.get rb).toNat < 2 ^ 16 →
      let n := (c.get rb).toNat
      let made : Bar := { phase := false, arr := n, tx := 0, init := true, scope := min sc.toNat cap, exparr := n, cur := clamp, last := 0, phases := 0 }
      ∃ bs,
      CoreStep (.binit ra rb sc) s f x (Core.after { c with effs := c.effs ++ [(c.idx, .binit (scratchPhys t o) bs)] } clamp) ∧
      bs.length = 32 ∧ Bar.ofBytes bs = made) ∧
    (s.Granted f x p → (s.bar p.ph.key).live = true → s.barq = none →
      let b := s.bar p.ph.key
      let st := if cap < b.scope then 0x400#32 else 0
      Does (.barv rd ra) s f x (some rd) (if b.phase then 1#64 else 0#64) st
        (fun t => t.bar p.ph.key = barAfter b 0 (c.stat ||| st) true ∧
          ∀ k, k < p.ph.key ∨ p.ph.key + 32 ≤ k → t.mem.get k = s.mem.get k) ∧
      Does (.bexp ra rb) s f x none 0 0
        (fun t => t.bar p.ph.key = barAfter b p.b.toNat c.stat false ∧
          ∀ k, k < p.ph.key ∨ p.ph.key + 32 ≤ k → t.mem.get k = s.mem.get k)) ∧
    (∀ l, s.Granted f x p → (s.bar p.ph.key).live = true → s.barq = some l →
      let b := s.bar p.ph.key
      let st := if cap < b.scope then 0x400#32 else 0
      ((∀ u ∈ l, ∀ q, u.core = some q → q.1 ≠ f) → ∃ u, exec (.barv rd ra) s = .next { s with barq := some (l ++ [u]) } ∧
        u.ph = p.ph ∧ u.tx = 0 ∧ u.osw = c.stat ||| st ∧ u.arrive = true ∧ u.core = some (f, st)) ∧
      ((∃ u ∈ l, ∃ q, u.core = some q ∧ q.1 = f) → exec (.barv rd ra) s = .next s) ∧
      Does (.bexp ra rb) s f x none 0 0 (fun t => t.mem = s.mem ∧ ∃ u, t.barq = some (l ++ [u]) ∧ u.ph = p.ph ∧
        u.tx = (p.b.toNat : Int) ∧ u.osw = c.stat ∧ u.arrive = false)) ∧
    (there → b.init = true → (c.get rb = if b.phase then 0#64 else 1#64) →
      CoreStep (.bwait rd ra rb sc) s f x
        (Core.after ((c.put rd (BitVec.ofNat 64 b.last.toNat)).acquired (min sc.toNat cap)) clamp)) ∧
    (there → b.init = true → (c.get rb = if b.phase then 1#64 else 0#64) → exec (.bwait rd ra rb sc) s = .next s) ∧
    (c.trapvec ≠ 0#64 →
      ((c.get rb).toNat = 0 ∨ 2 ^ 16 ≤ (c.get rb).toNat → Traps (.binit ra rb sc) s f x 2 (c.get rb)) ∧
      (2 ≤ (c.get rb).toNat → Traps (.bwait rd ra rb sc) s f x 2 (c.get rb)))

/-- R176, R177, R37, R39: an enqueue or a dequeue at its granted claim moves one element as one step: the index and FREE change,
the waiters of the other side are woken, CHK is recomputed; qtenq and qtdeq of a full or empty queue answer code 1. The claim of
qenq on a full queue and of qdeq on an empty one is held: with BLK 1 the quad's waiter bit is set in the control block and the core
sleeps until a wake, with BLK 0 memory is as before and it is presented again; the claim of a queue with room is granted. -/
def Obligations.QueueResults : Prop :=
  (∀ (s : State) (f : Nat) (x : Fen) (p : Prep) (rd ra rb : Reg), s.Granted f x p → s.memOk →
    let q := s.qcb p.ph.key
    let n := Qcb.cap q
    let occ := Qcb.count q
    let slot : Nat → List Phys := fun k => s.slotPhys q x.asid x.part (x.carrier x.anchor) (k % n)
    let leaves := s.slotLeaves q x.asid x.part (x.carrier x.anchor) (Qcb.tail q % n)
    let ours : List Phys → Prop := fun l => s.unsnooped (coreReq f x) p.ph l = .ok () s
    let woken : State → Nat → Prop := fun t m => t.hts.wakes = s.hts.wakes ++ (quadList m).map (fun k => (k, p.ph.key))
    let st := if s.scopeCap x < Qcb.scope q then 0x400#32 else 0
    let code : Nat → Word := fun k => BitVec.ofNat 64 ((Qcb.seep q).toNat % 2 ^ 32 * 2 ^ 32 + k)
    let enq : State → Prop := fun t =>
      let r := t.qcb p.ph.key
      Qcb.tail r = (Qcb.tail q + 1) % (2 * n) ∧ Qcb.head r = Qcb.head q ∧ Qcb.free r = Qcb.free q - 1 ∧ Qcb.wne r = 0 ∧
        Qcb.wnf r = Qcb.wnf q ∧ Qcb.cap r = n ∧ Qcb.base r = Qcb.base q ∧ Qcb.chk r = Qcb.crc r ∧ woken t (Qcb.wne q)
    let deq : State → Prop := fun t =>
      let r := t.qcb p.ph.key
      Qcb.head r = (Qcb.head q + 1) % (2 * n) ∧ Qcb.tail r = Qcb.tail q ∧ Qcb.free r = Qcb.free q + 1 ∧ Qcb.wnf r = 0 ∧
        Qcb.wne r = Qcb.wne q ∧ Qcb.cap r = n ∧ Qcb.base r = Qcb.base q ∧ Qcb.chk r = Qcb.crc r ∧ woken t (Qcb.wnf q)
    let still : State → Prop := fun t => t.mem = s.mem ∧ t.hts = s.hts
    1 ≤ n → n ≤ 2 ^ 24 → Qcb.free q ≤ n →
    (occ ≠ n → 1 ≤ Qcb.free q → ours (slot (Qcb.tail q) ++ p.elem ++ leaves) → Does (.qenq ra rb) s f x none 0 st enq ∧ Does (.qtenq rd ra rb) s f x (some rd) (code 0) st enq) ∧
    (occ ≠ 0 → ours (slot (Qcb.head q) ++ p.elem) → Does (.qdeq ra rb) s f x none 0 st deq ∧ Does (.qtdeq rd ra rb) s f x (some rd) (code 0) st deq) ∧
    (occ = n → Does (.qtenq rd ra rb) s f x (some rd) (code 1) st still) ∧
    (occ = 0 → Does (.qtdeq rd ra rb) s f x (some rd) (code 1) st still)) ∧
  (∀ (s : State) (f : Nat) (x : Fen) (p : Prep) (w : BitVec 32) (ra rb : Reg) (enq : Bool), State.coreHere s = some (f, x) → s.memOk →
    let c := x.core
    let q := s.qcb p.ph.key
    let quad := x.anchor.quad
    let full := if enq then Qcb.count q = Qcb.cap q else Qcb.count q = 0
    let waiters : Qcb → Nat := fun r => if enq then Qcb.wnf r else Qcb.wne r
    1 ≤ Qcb.cap q → Qcb.head q < 2 * Qcb.cap q → Qcb.tail q < 2 * Qcb.cap q → quad < 16 →
    (c.phase = .run ∨ c.phase = .claim) → c.words.length ≤ c.idx → s.fenFrozen x = false → c.asleep = false → c.prep = some p →
    c.words[c.nrix]? = some w → decodeScalar w.toNat = .ok (if enq then .qenq ra rb else .qdeq ra rb) → x.roomFor c.cmds = true →
    s.reserved (coreReq f x) p.ph.key 64 = false → s.drained f = true → s.writable (coreReq f x) p.ph 64 = .ok () s →
    (∀ n, s.charge (coreReq f x) p.ph n = .ok () s) → s.qcbFrozen q = false → Qcb.flt q = false →
    s.qcbValid q x.asid x.part (x.carrier x.anchor) p.ph.key = true → Qcb.mdie q = true → Qcb.esz8 q = p.esz →
    (full → ∃ t y, exec .grant s = .next t ∧ t.fens[f]? = some y ∧
      y = { x with core := { c with phase := .claim, asleep := true, retry := !Qcb.blk q } } ∧
      (Qcb.blk q = false → t.mem = s.mem) ∧
      (Qcb.blk q = true → waiters (t.qcb p.ph.key) = waiters q ||| 2 ^ quad ∧
        ∀ k, k < p.ph.key ∨ p.ph.key + 64 ≤ k → t.mem.get k = s.mem.get k)) ∧
    (¬full → CoreStep .grant s f x { c with phase := .granted, idx := c.nrix, asleep := false, retry := false }))

/-- R176: the element's bytes of qenq, qtenq, qdeq and qtdeq move between its location and the queue's slot, where neither the pieces of the destination
overlap each other nor the control block; no other byte changes but the control block's, and for an enqueue D of the slot's
pages (R315). -/
def Obligations.QueueElements : Prop :=
  ∀ (s : State) (f : Nat) (x : Fen) (p : Prep) (rd ra rb : Reg) (enq : Bool) (i : Instr), s.Granted f x p → s.memOk →
    let q := s.qcb p.ph.key
    let n := Qcb.cap q
    let slot := s.slotPhys q x.asid x.part (x.carrier x.anchor) ((if enq then Qcb.tail q else Qcb.head q) % n)
    let src := if enq then p.elem else slot
    let dst := if enq then slot else p.elem
    let leaves := if enq then s.slotLeaves q x.asid x.part (x.carrier x.anchor) (Qcb.tail q % n) else []
    i ∈ (if enq then [.qenq ra rb, .qtenq rd ra rb] else [.qdeq ra rb, .qtdeq rd ra rb] : List Instr) →
    Qcb.count q ≠ (if enq then n else 0) → src.length = dst.length →
    s.unsnooped (coreReq f x) p.ph (slot ++ p.elem ++ leaves) = .ok () s →
    (∀ a ∈ dst, a.key + 8 ≤ p.ph.key ∨ p.ph.key + 64 ≤ a.key) →
    dst.Pairwise (fun a b => a.key + 8 ≤ b.key ∨ b.key + 8 ≤ a.key) →
    let s0 := if enq then s.dirtySlot q x.asid x.part (x.carrier x.anchor) (Qcb.tail q % n) else s
    ∃ t, exec i s = .next t ∧ t.readPieces dst = s.readPieces src ∧
      ∀ k, s0.mem.get k = s.mem.get k → (∀ a ∈ dst, k < a.key ∨ a.key + 8 ≤ k) → (k < p.ph.key ∨ p.ph.key + 64 ≤ k) → t.mem.get k = s.mem.get k

/-- R178 to R180: qinit writes the whole control block from its template, qdrain empties the queue, qstat reads the state
of one; each at its granted claim or as one read. -/
def Obligations.QueueControl : Prop :=
  ∀ (s : State) (f : Nat) (x : Fen) (p : Prep) (rd ra rb : Reg) (e : Tlb), s.memOk → x.asid < 2 ^ 16 →
    homeDie p.ph.key < 4 →
    let q := s.qcb p.ph.key
    let m := Qcb.ofBytes p.bytes
    let a := x.core.get ra
    let ph := Tlb.target e (s.asidFn x.asid) a.toNat
    let z := s.qcb ph.key
    (s.Granted f x p → Does (.qinit ra rb) s f x none 0 0 (fun y =>
      let r := y.qcb p.ph.key
      Qcb.base r = Qcb.base m ∧ Qcb.cap r = Qcb.cap m ∧ Qcb.esz8 r = Qcb.esz8 m ∧ Qcb.blk r = Qcb.blk m ∧
        Qcb.mdie r = Qcb.mdie m ∧ Qcb.frz r = false ∧ Qcb.flt r = false ∧ Qcb.home r = homeDie p.ph.key ∧
        Qcb.scope r = Qcb.scope m ∧ Qcb.free r = Qcb.cap m ∧ Qcb.head r = 0 ∧ Qcb.tail r = 0 ∧ Qcb.wne r = 0 ∧
        Qcb.wnf r = 0 ∧ Qcb.seep r = kiFloor ∧ Qcb.owner r = x.asid ∧ Qcb.chk r = Qcb.crc r ∧
        y.hts.wakes = s.hts.wakes ++ (quadList (Qcb.wne q ||| Qcb.wnf q)).map (fun k => (k, p.ph.key)))) ∧
    (s.Granted f x p → Does (.qdrain ra) s f x none 0 0 (fun y =>
      let r := y.qcb p.ph.key
      Qcb.head r = Qcb.tail q ∧ Qcb.tail r = Qcb.tail q ∧ Qcb.free r = Qcb.cap q ∧ Qcb.cap r = Qcb.cap q ∧
        Qcb.wnf r = 0 ∧ Qcb.wne r = Qcb.wne q ∧ Qcb.chk r = Qcb.crc r ∧
        y.hts.wakes = s.hts.wakes ++ (quadList (Qcb.wnf q)).map (fun k => (k, p.ph.key)))) ∧
    (State.coreHere s = some (f, x) → a.toNat < 2 ^ 48 → a.toNat % 64 = 0 → s.Maps f x .rmw a.toNat e → e.typ.holdsQcb = true →
      Readable s (coreReq f x) ph 64 → 1 ≤ Qcb.cap z →
      CoreStep (.qstat rd ra) s f x (Core.after { (x.core.put rd (BitVec.ofNat 64 ((Qcb.seep z).toNat % 2 ^ 32 +
        Qcb.count z % 2 ^ 25 * 2 ^ 32 + Qcb.home z * 2 ^ 57 +
        (if Qcb.blk z then 2 ^ 59 else 0) + (if Qcb.mdie z then 2 ^ 60 else 0) +
        (if Qcb.frz z || s.qcbFrozen z then 2 ^ 61 else 0) + (if Qcb.flt z then 2 ^ 62 else 0) +
        (if s.qcbValid z x.asid x.part (x.carrier x.anchor) ph.key then 2 ^ 63 else 0)))) with
          dcache := x.core.dcache.filter (fun l => decide (l.key + 64 ≤ ph.key) || decide (ph.key + 64 ≤ l.key)) } 0)) ∧
    (State.coreHere s = some (f, x) → x.core.trapvec ≠ 0#64 → x.core.phase = .run → a.toNat / 2 ^ 48 = 0 →
      a.toNat % 64 ≠ 0 → Traps (.qinit ra rb) s f x 4 a ∧ Traps (.qenq ra rb) s f x 4 a ∧ Traps (.qdeq ra rb) s f x 4 a ∧
        Traps (.qtenq rd ra rb) s f x 4 a ∧ Traps (.qtdeq rd ra rb) s f x 4 a ∧ Traps (.qstat rd ra) s f x 4 a ∧
        Traps (.qdrain ra) s f x 4 a)

/-- R181, R26: rwfill and rwfree wait for filled or free slots and give the address of the head or tail slot; rpop and
rpush wait likewise and move the index at commit; each is tested against the ring as the block's earlier instructions
leave it (log entry 20), and traps on a descriptor that has failed (log entry 21). -/
def Obligations.RingResults : Prop :=
  ∀ (s : State) (f : Nat) (x y : Fen) (rd : Reg) (h : BitVec 5) (cnt : BitVec 15) (t : Tile), State.coreHere s = some (f, x) →
    let v := s.ringView f x.core
    let d := y.ring h.toNat
    let c := x.core
    let at' : Nat → Word := fun i => BitVec.ofNat 64 (0xFFFF * 2 ^ 48 + ((t.row - y.row0) * 16 + (t.col - y.col0)) * 2 ^ 20 +
      (Ring.base d + i % Ring.n d * Ring.bytes d))
    let hold : Eff → Core := fun e => Core.after { c with effs := c.effs ++ [(c.idx, e)] } 0
    v.fens[f]? = some y →
    (Ring.flt d = false → y.ringOk d = true → cnt.toNat ≤ Ring.n d → y.ringTile d = some t →
      (Ring.cons d = 0 → v.ringFilled y d cnt.toNat = true →
        RegStepAt (.rwfill rd h cnt) s f x rd (at' (Ring.head d)) 0 ∧
        CoreStep (.rpop h cnt) s f x (hold (.rpop h.toNat cnt.toNat))) ∧
      (Ring.cons d = 0 → v.ringFilled y d cnt.toNat = false →
        exec (.rwfill rd h cnt) s = .next s ∧ exec (.rpop h cnt) s = .next s) ∧
      (Ring.prod d = 0 → v.ringFree y d cnt.toNat = true → RegStepAt (.rwfree rd h cnt) s f x rd (at' (Ring.tail d)) 0) ∧
      (Ring.prod d = 0 → v.ringFree y d cnt.toNat = false → exec (.rwfree rd h cnt) s = .next s) ∧
      (Ring.prod d = 0 → Ring.occ d + cnt.toNat ≤ Ring.n d →
        CoreStep (.rpush h cnt) s f x (hold (.rpush h.toNat cnt.toNat))) ∧
      (Ring.prod d = 0 → Ring.n d < Ring.occ d + cnt.toNat → exec (.rpush h cnt) s = .next s)) ∧
    (c.trapvec ≠ 0#64 → Ring.flt d = true →
      Traps (.rwfill rd h cnt) s f x 5 (BitVec.ofNat 64 h.toNat) ∧ Traps (.rwfree rd h cnt) s f x 5 (BitVec.ofNat 64 h.toNat) ∧
      Traps (.rpop h cnt) s f x 5 (BitVec.ofNat 64 h.toNat) ∧ Traps (.rpush h cnt) s f x 5 (BitVec.ofNat 64 h.toNat)) ∧
    (c.trapvec ≠ 0#64 → Ring.flt d = false → y.ringOk d = true → Ring.n d < cnt.toNat →
      (Ring.cons d = 0 → Traps (.rwfill rd h cnt) s f x 2 (BitVec.ofNat 64 cnt.toNat) ∧ Traps (.rpop h cnt) s f x 2 (BitVec.ofNat 64 cnt.toNat)) ∧
      (Ring.prod d = 0 → Traps (.rwfree rd h cnt) s f x 2 (BitVec.ofNat 64 cnt.toNat) ∧ Traps (.rpush h cnt) s f x 2 (BitVec.ofNat 64 cnt.toNat))) ∧
    (c.trapvec ≠ 0#64 → Ring.flt d = false → y.ringOk d = true →
      (Ring.cons d ≠ 0 → Traps (.rwfill rd h cnt) s f x 5 (BitVec.ofNat 64 h.toNat) ∧ Traps (.rpop h cnt) s f x 5 (BitVec.ofNat 64 h.toNat)) ∧
      (Ring.prod d ≠ 0 → Traps (.rwfree rd h cnt) s f x 5 (BitVec.ofNat 64 h.toNat) ∧ Traps (.rpush h cnt) s f x 5 (BitVec.ofNat 64 h.toNat)))

/-- R182, R183, R184, R189: rset, rget, issue and icinv are held until the commit; cfgld loads an image into a mantle that
is not current and answers its code; dcinv drops lines of the data cache; dcdrain waits for the write-throughs to its lines. -/
def Obligations.IssueAndConfig : Prop :=
  ∀ (s : State) (f : Nat) (x : Fen) (rd ra rb : Reg) (h : BitVec 5) (t : Tile) (o : Nat), State.coreHere s = some (f, x) →
    let c := x.core
    let a := c.get ra
    let w := BitVec.ofNat 128 ((c.get rb).toNat * 2 ^ 64 + a.toNat)
    let hold : Eff → Core := fun e => { c with effs := c.effs ++ [(c.idx, e)] }
    let d := BitVec.ofNat 256 (s.seenN c (keyScratch t o) 32) &&& Ring.rw
    let meets : Nat → Bool := fun v => (c.get rb).toNat = 0 || (v < a.toNat + (c.get rb).toNat && a.toNat < v + 64)
    (x.space x.anchor a.toNat = .scratch t o → a.toNat % 32 = 0 →
      CoreStep (.rget h ra) s f x (Core.after (hold (.store (scratchPhys t o) a.toNat (toLE 32 (x.ring h.toNat).toNat))) 0) ∧
      (s.Clean → s.charge (coreReq f x) (scratchPhys t o) 0 = .ok () s → (Ring.v d = false ∨ x.ringFields d = true) → CoreStep (.rset h ra) s f x (Core.after (hold (.rset h.toNat d)) 0))) ∧
    ((c.get rb).toNat / 2 ^ 56 ≠ 0x41 → c.phase = .run → CoreStep (.issue ra rb) s f x (Core.after (hold (.cmd w)) 0)) ∧
    ((c.get rb).toNat / 2 ^ 56 = 0x41 → c.phase = .run → c.nrv = true → c.nrix = c.idx →
      CoreStep (.issue ra rb) s f x (Core.after { hold (.cmd w) with prep := some ⟨0, 0, 0, noPhys, 0, [], [], 0⟩ } 0)) ∧
    (∀ p, s.Granted f x p → Does (.issue ra rb) s f x none 0 0 (fun y => y.mem = s.mem)) ∧
    (a.toNat < 2 ^ 48 → a.toNat % 64 = 0 →
      (3 < (c.get rb).toNat → CoreStep (.cfgld rd ra rb) s f x (Core.after { (c.put rd 17#64) with img := [] } 0)) ∧
      ((c.get rb).toNat ≤ 3 → (c.get rb).toNat = x.cur →
        CoreStep (.cfgld rd ra rb) s f x (Core.after { (c.put rd 18#64) with img := [] } 0)) ∧
      (∀ m, (c.get rb).toNat ≤ 3 → (c.get rb).toNat ≠ x.cur → imgWants c.img = .ok c.img.length → s.loadImage x c.img = .ok m →
        CoreStep (.cfgld rd ra rb) s f x (Core.after
          { (c.put rd 0#64) with img := [], effs := c.effs ++ [(c.idx, .cfgld (c.get rb).toNat m)] } 0)) ∧
      (∀ fl, (c.get rb).toNat ≤ 3 → (c.get rb).toNat ≠ x.cur → imgWants c.img = .ok c.img.length → s.loadImage x c.img = .error fl →
        CoreStep (.cfgld rd ra rb) s f x (Core.after
          { (c.put rd (BitVec.ofNat 64 (fl.2 + 256 * fl.1))) with img := [] } 0))) ∧
    (a.toNat < 2 ^ 48 →
      CoreStep (.dcinv ra rb) s f x (Core.after { c with dcache := c.dcache.filter (fun e => !meets e.va) } 0) ∧
      ((∀ q ∈ s.net.packets, q.src.fen = some f → q.src.srck = 0 → ∀ ph va bs, q.load = .write ph va bs → meets (va / 64 * 64) = false) →
        CoreStep (.dcdrain ra rb) s f x (Core.after c 0)) ∧
      (∀ q ∈ s.net.packets, q.src.fen = some f → q.src.srck = 0 → ∀ ph va bs, q.load = .write ph va bs → meets (va / 64 * 64) = true →
        exec (.dcdrain ra rb) s = .next s) ∧
      CoreStep (.icinv ra rb) s f x (Core.after (hold (.icinv a.toNat (c.get rb).toNat)) 0)) ∧
    (2 ^ 48 ≤ a.toNat → c.trapvec ≠ 0#64 → Traps (.dcinv ra rb) s f x 10 a ∧ Traps (.dcdrain ra rb) s f x 10 a ∧
      Traps (.icinv ra rb) s f x 10 a ∧ Traps (.cfgld rd ra rb) s f x 10 a)

/-! ## The block engine -/

/-- R78 to R82, R77: a block whose fetch blocks can be read is taken whole: its words, and the place NRIX names; a bad header
and a misplaced instruction give cause 3, an illegal word cause 2 with the word's index. -/
def Obligations.FetchBlock : Prop :=
  ∀ (s s0 s1 : State) (f : Nat) (x y : Fen) (b1 b2 : List Byte) (st1 st2 : BitVec 32), State.coreHere s = some (f, x) →
    x.core.phase = .fetch → s.fenFrozen x = false → s.coreStopped f x = false →
    let a := x.core.pc
    let h := leNat (b1.take 4)
    let n := h / 2 ^ 19 % 2 ^ 7 + 1
    let more := (4 * (n + 1) + 63) / 64 - 1
    let nrv := h / 2 ^ 18 % 2 = 1
    let nrix := h / 2 ^ 11 % 2 ^ 7
    let ws := (List.range n).map (fun k => BitVec.ofNat 32 (leNat (((b1 ++ b2).drop (4 * k + 4)).take 4)))
    let good := h / 2 ^ 26 = 0x3F ∧ h % 2 ^ 11 = 0 ∧ (¬nrv → nrix = 0) ∧ nrix < n
    let wrong : Nat → Prop := fun k => ∃ w i, ws[k]? = some w ∧ decodeScalar w.toNat = .ok i ∧
      ((isNonRevocable i = true ∧ ¬(nrv ∧ k = nrix)) ∨ (nrv ∧ k = nrix ∧ isNonRevocable i = false ∧ isIssue i = false))
    let ends : Nat → Word → Nat → Prop := fun cause v k => ∃ t z, exec .fetchBlock s = .next t ∧ t.fens[f]? = some z ∧
      z.core.trapcause = BitVec.ofNat 64 cause ∧ z.core.trapval = v ∧ z.core.trapblk = a ∧
      z.core.trapidx = BitVec.ofNat 64 k ∧ z.core.pc = pcOf y.core.trapvec ∧ z.core.phase = .fetch ∧ z.core.regs = y.core.regs
    a.toNat + 64 * (more + 1) ≤ 2 ^ 48 → b1.length = 64 → s.fetchLines f x a.toNat blockBytes 1 = .ok (b1, st1) s0 →
    (good → if more = 0 then s1 = s0 ∧ b2 = [] ∧ st2 = 0 else s0.fetchLines f x (a.toNat + 64) (fun _ => 4 * (n + 1) - 64) more = .ok (b2, st2) s1) →
    (¬good → s1 = s0) → s1.fens[f]? = some y →
    (¬good → y.core.trapvec ≠ 0#64 → ends 3 (BitVec.ofNat 64 h) 0) ∧
    (good → y.core.trapvec ≠ 0#64 →
      (∀ k w, ws.findIdx? (fun w => match decodeScalar w.toNat with | .ok _ => false | .error _ => true) = some k →
        ws[k]? = some w → ends 2 (BitVec.ofNat 64 w.toNat) k) ∧
      (∀ k, (∀ w ∈ ws, ∃ i, decodeScalar w.toNat = .ok i) → wrong k → (∀ j, j < k → ¬wrong j) →
        ends 3 (BitVec.ofNat 64 h) k)) ∧
    (good → (∀ w ∈ ws, ∃ i, decodeScalar w.toNat = .ok i) → (∀ k, ¬wrong k) →
      ∃ t z, exec .fetchBlock s = .next t ∧ t.fens[f]? = some z ∧ t.mem = s1.mem ∧ z.core.phase = .run ∧ z.core.words = ws ∧
        z.core.idx = 0 ∧ z.core.nrix = nrix ∧ (z.core.nrv = true ↔ nrv) ∧ z.core.loc = y.core.regs ∧ z.core.effs = [] ∧
        z.core.prep = none ∧ z.core.stat = st1 ||| st2 ∧ z.core.pc = y.core.pc)

/-- R133, R134, R79: a block without effects commits its registers and control registers and continues at its exit or
behind itself; a halting block stops the core; an exit to a misaligned address gives cause 1, to one beyond the address
space cause 10 (csr.trapidx of that: log entry 14). R134, R132, R22: a commit performs the stores its block holds, in program order, and no other byte of memory
changes; a set leaves its granule full, a clear empty. A block of any effects, each of which can be performed when its turn
comes, commits in one step: memory is as its effects leave it. -/
def Obligations.Commits : Prop :=
  (∀ (s : State) (f : Nat) (x : Fen), State.coreHere s = some (f, x) → x.core.phase = .run → x.core.words.length ≤ x.core.idx →
    x.core.prep = none → x.core.effs = [] → s.fenFrozen x = false → x.term = none → s.accepting f x = false →
    (s.drained f = true ∨ x.core.releases = false) →
    let c := x.core
    let fall := BitVec.ofNat 64 ((c.pc.toNat + 4 * (c.words.length + 1) + 63) / 64 * 64)
    let next := c.exit.getD fall
    let st := c.stat ||| (if s.coreRetried f x then 0x100#32 else 0)
    let lands := next.toNat % 64 = 0 ∧ next.toNat < 2 ^ 48
    (c.halting = true → ∀ u ∈ c.traps, u.1 ≠ 8) → (c.halting = false → lands ∨ (c.locVec ≠ 0#64 ∧ c.exit.isSome = true)) →
    ∃ t y, exec .commit s = .next t ∧ t.fens[f]? = some y ∧ t.mem = s.mem ∧ (∀ g, g ≠ f → t.fens[g]? = s.fens[g]?) ∧
      y.core.regs = c.loc ∧ y.status = (x.status &&& ~~~c.clr) ||| BitVec.ofNat 16 st.toNat ∧ y.core.rm = c.locRm ∧
      y.core.trapvec = c.locVec ∧
      (c.halting = true → y.core.phase = .halted ∧ y.core.pc = c.pc) ∧
      (c.halting = false → lands → y.core.pc = next ∧ y.core.phase = .fetch ∧ y.core.trapcause = c.trapcause ∧
        y.core.trapblk = c.trapblk) ∧
      (c.halting = false → ¬lands → y.core.phase = .fetch ∧ y.core.pc = pcOf c.locVec ∧ y.core.trapval = next ∧
        y.core.trapblk = c.pc ∧ y.core.trapidx = BitVec.ofNat 64 c.exitIx ∧
        y.core.trapcause = if next.toNat % 64 ≠ 0 then 1#64 else 10#64)) ∧
  (∀ (s : State) (f : Nat) (x : Fen) (t : Tile) (o va k : Nat) (bs cs : List Byte), State.coreHere s = some (f, x) → s.memOk →
    x.core.phase = .run → x.core.words.length ≤ x.core.idx → x.core.prep = none → s.fenFrozen x = false →
    x.core.halting = false → x.core.exit = none → x.core.pc.toNat < 2 ^ 47 → x.core.words.length ≤ 128 →
    (s.drained f = true ∨ x.core.releases = false) →
    let ph := scratchPhys t o
    (∀ w, s.charge (coreReq f x) ph w = .ok () s) → s.reserved (coreReq f x) ph.key bs.length = false →
    s.behind (coreReq f x) ph.key bs.length = false →
    (x.core.effs = [(k, .store ph va bs), (k + 1, .store ph va cs)] → cs.length = bs.length →
      ∃ u, exec .commit s = .next u ∧ Stored s u ph.key cs ∧ u.mem.full = s.mem.full) ∧
    (x.core.effs = [(k, .setFull ph bs)] → ∃ u, exec .commit s = .next u ∧ Stored s u ph.key bs ∧
      u.mem.isFull (ph.key / 16) = true) ∧
    (x.core.effs = [(k, .setEmpty ph)] → s.mem.full.Pairwise (· < ·) → ∃ u, exec .commit s = .next u ∧
      (∀ j, u.mem.get j = s.mem.get j) ∧ u.mem.isFull (ph.key / 16) = false)) ∧
  (∀ (s : State) (f : Nat) (x : Fen), State.coreHere s = some (f, x) → x.core.phase = .run → x.core.words.length ≤ x.core.idx →
    x.core.prep = none → s.fenFrozen x = false → x.roomFor x.core.cmds = true →
    (s.drained f = true ∨ x.core.releases = false) →
    let c := x.core
    let y := { x with core := { c with phase := .commit, regs := c.loc, late0 := c.late0 && !c.releases && c.prep.isNone } }
    let r := (s.updCore f (fun _ => y.core)).performAll f y (commitOrder c.effs)
    let next := c.exit.getD (BitVec.ofNat 64 ((c.pc.toNat + 4 * (c.words.length + 1) + 63) / 64 * 64))
    ∀ z, r.2.fens[f]? = some z → r.1 = [] → r.2.accepting f z = false → x.term = none → c.halting = false →
      next.toNat % 64 = 0 → next.toNat < 2 ^ 48 →
      ∃ t v, exec .commit s = .next t ∧ t.fens[f]? = some v ∧ t.mem = r.2.mem ∧ v.core.regs = c.loc ∧ v.core.pc = next ∧
        v.core.phase = .fetch ∧ v.core.effs = [] ∧ v.core.rm = c.locRm ∧ v.core.trapvec = c.locVec ∧
        v.status = (z.status &&& ~~~c.clr) ||| BitVec.ofNat 16 (c.stat ||| (if r.2.coreRetried f z then 0x100#32 else 0)).toNat)

/-- R225, R188, R177: a trap passed by a node is taken before the next fetch; wfe ends after 65,536 cycles; a held claim with
BLK 0 is presented again; a wake of a queue reaches the claims that its quad holds for that queue, and no other core. -/
def Obligations.CoreEvents : Prop :=
  ∀ (s : State) (f : Nat) (x : Fen) (q : BitVec 4), State.coreHere s = some (f, x) →
    let c := x.core
    (∀ cause val r, c.phase = .fetch → c.traps = (cause, val) :: r → s.fenFrozen x = false → c.trapvec ≠ 0#64 →
      ∃ t y, exec .takeNodeTrap s = .next t ∧ t.fens[f]? = some y ∧ t.mem = s.mem ∧ y.core.trapcause = BitVec.ofNat 64 cause ∧
        y.core.trapval = val ∧ y.core.trapblk = c.pc ∧ y.core.pc = pcOf c.trapvec ∧ y.core.traps = r ∧ y.core.regs = c.regs ∧
        y.core.phase = .fetch) ∧
    (∀ u, c.wfe = some u → c.phase = .run → u + 65536 ≤ s.cycle →
      CoreStep .wfeTimeout s f x (Core.after { c with effs := c.effs ++ [(c.idx, .clearFlag)], wfe := none } 0)) ∧
    (c.retry = true → CoreStep .claimRetry s f x { c with asleep := false, retry := false }) ∧
    (∀ k key, s.hts.wakes[k]? = some (q.toNat, key) → (∀ (j : Nat) (u : Nat × Nat), j < k → s.hts.wakes[j]? = some u → u.1 ≠ q.toNat) →
      ∃ t, exec (.queueWake q) s = .next t ∧ t.hts.wakes = s.hts.wakes.take k ++ s.hts.wakes.drop (k + 1) ∧
      t.mem = s.mem ∧ ∀ (g : Nat) (y : Fen), s.fens[g]? = some y → ∃ z : Fen, t.fens[g]? = some z ∧ z.core.regs = y.core.regs ∧
        let waits := y.core.phase = .claim ∧ y.core.asleep = true ∧ y.core.retry = false ∧ ∃ p, y.core.prep = some p ∧ p.ph.key = key
        (y.anchor.quad = q.toNat → waits → z.core = { y.core with asleep := false, flag := true }) ∧
        (y.anchor.quad ≠ q.toNat ∨ ¬waits → z.core = y.core))

/-! ## Stream commands -/

/-- R190 to R195, R208, R209: a command acts only in its place of its port's order; carrive and cexpect act at once, cnop
when every earlier command of its port is complete, sbar when every access of earlier commands at the streams it names is
performed. R192 to R194, R208, R384: a command other than those two that must wait for an earlier one, or whose context is
frozen, performs nothing. R195, R28, R33, R202: a finished command ORs its OSW into STATUS, updates its object with the bytes landed and the
arrival, and leaves its port; an object that is not live is not updated and STATUS takes CMD_INVALID; a copyr advances the
TAIL of its ring with its last report. The turns of a command and what ACQ, REL and cnop wait for are the model's reading (log
entries 68 and 69). -/
def Obligations.OrderCommands : Prop :=
  ((∀ (s : State) (a : CmdAt) (h : CmdHdr) (n : BitVec 32) (m : BitVec 7), s.Runs a →
    let done := { a.c with done := true, osw := a.c.osw ||| 0#32 }
    let earlier := (a.x.named (a.x.portPlace a.key).1 m.toNat).all (fun b => b.done || decide (a.c.num ≤ b.num))
    (a.c.ins = .carrive h ∨ a.c.ins = .cexpect h n → CmdTurn s a done (fun t => t.mem = s.mem)) ∧
    (a.c.ins = .cnop h → CmdTurn s a (if a.k = 0 then done else a.c) (fun t => t.mem = s.mem)) ∧
    (a.c.ins = .sbar h m → CmdTurn s a (if earlier then done else a.c) (fun t => t.mem = s.mem))) ∧
  (∀ (s : State) (a : CmdAt), s.cmdHere = some a → isCommand a.c.ins = true → a.c.done = false →
    ((atOnce a.c.ins = false ∧ s.fenFrozen a.x = true) ∨
      (atOnce a.c.ins = false ∧ a.key ≠ .fc ∧ ∃ b ∈ (a.x.cmdsAt a.key).take a.k, b.done = false ∧
        ((cmdHdr b.ins).rel = true ∨ s.mustFollow a.x (a.x.carrierOf (a.x.portPlace a.key).1) b a.c = true)) ∨
      (atOnce a.c.ins = false ∧ a.key ≠ .fc ∧ (cmdHdr a.c.ins).acq = true ∧ 0 < a.k) ∨
      (atOnce a.c.ins = false ∧ a.key = .fc ∧ 0 < a.k)) →
    exec a.c.ins s = .next s)) ∧
  (∀ (s : State) (a : CmdAt), s.cmdHere = some a → s.fenFrozen a.x = false → a.c.done = true → a.c.bytes ≤ 4096 → s.memOk →
    s.xl.retried = [] →
    let left : Fen → Prop := fun y => (y.ports[a.p]?).map PortQ.cmds = (a.x.ports[a.p]?).map (fun q => dropNth q.cmds a.k)
    let plain := (∀ h r rm sat t o2 o1 o0, a.c.ins = .copyr h r rm sat t o2 o1 o0 → a.c.stage ≠ 2) ∧
      ∀ h th rm sat op d so ix nm1 tag tmo, a.c.ins = .mred h th rm sat op d so ix nm1 tag tmo →
        a.c.stage = 2 ∨ a.c.osw &&& 0x200#32 = 0
    let told := a.x.status ||| BitVec.ofNat 16 a.c.osw.toNat
    (plain → (cmdHdr a.c.ins).ct = .none → ∃ t y, exec .cmdComplete s = .next t ∧ t.fens[a.f]? = some y ∧ y.status = told ∧
      left y ∧ t.mem = s.mem) ∧
    (∀ arv d o tile, plain → s.barq = none → (cmdHdr a.c.ins).ct = .scratch arv d o → a.x.desig a.x.anchor d.toNat = some tile →
      s.reserved (a.req 0) (keyScratch tile (32 * o.toNat)) 32 = false →
      let k := keyScratch tile (32 * o.toNat)
      let b := s.bar k
      let tx := match a.c.ins with | .cexpect _ n => n.toNat | _ => 2 ^ 32 - a.c.bytes
      ∃ t y, exec .cmdComplete s = .next t ∧ t.fens[a.f]? = some y ∧ left y ∧
        (b.live = true → t.bar k = barAfter b tx a.c.osw arv ∧ y.status = told) ∧
        (b.live = false → t.mem = s.mem ∧ y.status = told ||| 0x8000#16) ∧
        ∀ j, j < k ∨ k + 32 ≤ j → t.mem.get j = s.mem.get j) ∧
    (∀ h r rm sat t o2 o1 o0, a.c.ins = .copyr h r rm sat t o2 o1 o0 → a.c.stage = 2 → h.ct = .none →
      let d := a.x.ringOf a.c.man r.toNat
      Ring.flt d = false → a.x.ringOk d = true → ∃ t y, exec .cmdComplete s = .next t ∧ t.fens[a.f]? = some y ∧ left y ∧
        y.status = told ∧ Ring.tail (y.ringOf a.c.man r.toNat) = (Ring.tail d + 1) % (2 * Ring.n d) ∧
        Ring.head (y.ringOf a.c.man r.toNat) = Ring.head d ∧ t.mem.cells = s.mem.cells))

/-- R198, R199, R201, R310: copy reads each element of its window in row-major order, or takes the data of a read issued ahead, as
its bytes stand when it is delivered where they lie in the module (R297; log entry 164), converts it, and writes the elements in hand that lie one behind the other in one granule to the destination's elements; it
completes after the last; beyond a ZPAD source it writes zero; a read that touches an element in hand waits for its write. -/
def Obligations.CopyResults : Prop :=
  ∀ (s : State) (a : CmdAt) (h : CmdHdr) (src dst : BitVec 12) (rm : BitVec 2) (sat : Bool) (o2 o1 o0 : BitVec 16),
    s.Runs a → s.memOk → s.Clean → a.c.ins = .copy h src rm sat dst o2 o1 o0 →
    let c := a.c
    let w := c.ten1
    let u := c.ten0
    let z := Fmt.esize (Tensor.fmt u)
    let n := landSize (Tensor.fmt w)
    let dst : Nat → Nat := fun m => Tensor.addr w (Tensor.indexOf w m)
    let run := max 1 (runLen dst n (Tensor.count w) c.pos 16)
    (∀ k, c.pos < Tensor.count w → c.data.length = k * (n + 1) → k ≤ run →
      let j := windowIx w [o0.toNat, o1.toNat, o2.toNat] (Tensor.indexOf w (c.pos + k))
      let clash := Tensor.inside u j = true ∧
        ∃ i, c.pos ≤ i ∧ i < c.pos + k ∧ Tensor.addr u j < dst i + n ∧ dst i < Tensor.addr u j + z
      let got : Nat → Prop := fun v =>
        let r := asFmt (Tensor.fmt u) (Tensor.fmt w) v rm sat
        CmdTurn s a { c with data := c.data ++ toLE n r.1 ++ [0], osw := c.osw ||| r.2 } (fun t => MemSame s t)
      (∀ ph, k < run → Tensor.inside u j = true → ¬clash → c.early = [] →
        s.Reaches a.x (a.req (c.pos + k)) .read (Tensor.addr u j) z ph → got (leNat (s.mem.getN ph.key z))) ∧
      (∀ g bs, k < run → Tensor.inside u j = true → ¬clash → c.issuedRead (c.pos + k) (Tensor.addr u j) = some g → g.got = some (bs, 0) →
        (∀ ph, g.home = some ph → ph.typ.leaves = false → got (leNat (s.mem.getN ph.key bs.length))) ∧
        ((∀ ph, g.home = some ph → ph.typ.leaves = true) → got (leNat bs))) ∧
      (k < run → Tensor.inside u j = false →
        CmdTurn s a { c with data := c.data ++ List.replicate n 0 ++ [0] } (fun t => MemSame s t)) ∧
      (∀ ph, (k = run ∨ clash) → (∀ i, i < k → (c.data[i * (n + 1) + n]?).getD 0 = 0) →
        s.Reaches a.x (a.req c.pos) .write (dst c.pos) (k * n) ph →
        CmdTurn s a { c with data := [], pos := c.pos + k, bytes := c.bytes + k * n } (fun t =>
          Stored s t ph.key ((List.range k).flatMap (fun i => (c.data.drop (i * (n + 1))).take n))))) ∧
    (Tensor.count w ≤ c.pos → CmdTurn s a { c with done := true } (fun t => MemSame s t))

/-- R202, R26, R22: copyr waits for a free, tagged-empty tail slot, fills it element by element, then with zeros to its end;
a slot byte that lands completes its granule, which becomes full. -/
def Obligations.CopyToRing : Prop :=
  ∀ (s : State) (a : CmdAt) (h : CmdHdr) (src : BitVec 12) (ring : BitVec 5) (rm : BitVec 2) (sat : Bool)
    (o2 o1 o0 : BitVec 16), s.Runs a → s.memOk → s.Clean → a.c.ins = .copyr h ring rm sat src o2 o1 o0 →
    let c := a.c
    let w := c.ten0
    let u := c.ten1
    let d := a.x.ringOf c.man ring.toNat
    let tile := (a.x.ringTile d).getD a.x.anchor
    let o := Ring.base d + Ring.tail d % Ring.n d * Ring.bytes d
    let ix := Tensor.indexOf w c.pos
    let j := windowIx w [o0.toNat, o1.toNat, o2.toNat] ix
    let z := Fmt.esize (Tensor.fmt u)
    let n := landSize (Tensor.fmt w)
    let used := Tensor.count w * n
    (c.stage = 0 → Ring.flt d = false → a.x.ringOk d = true →
      CmdTurn s a { c with stage := if s.ringFree a.x d 1 && !s.tailHeld a ring then 1 else 0 } (fun t => MemSame s t)) ∧
    (∀ ph, c.stage ≠ 0 → Ring.flt d = false → c.pos < Tensor.count w → Tensor.fmt u ≠ .cf8 → Tensor.inside u j = true → c.early = [] →
      s.Reaches a.x (a.req c.pos) .read (Tensor.addr u j) z ph →
      let r := asFmt (Tensor.fmt u) (Tensor.fmt w) (leNat (s.mem.getN ph.key z)) rm sat
      CmdTurn s a { c with pos := c.pos + 1, osw := c.osw ||| r.2, bytes := c.bytes + n, bad := false }
        (fun t => Landed s t tile (o + c.pos * n) (toLE n r.1))) ∧
    (c.stage ≠ 0 → Ring.flt d = false → c.pos < Tensor.count w → Tensor.fmt u = .cf8 → Tensor.inside u j = true →
      c.sub ≠ lostSync → c.bad = false → tokenNeeds c.raw (tokenPlace c u j).2 ≤ c.raw.length →
      let k := cf8Decode c.raw (Tensor.blen u)
      let osw := c.osw ||| (if k.bad then 0x2000#32 else 0)
      let sub := if Tensor.blen u ≠ 0 then 0 else if k.badLen then lostSync else c.sub + k.len
      CmdTurn s a { c with raw := [], osw := osw, sub := sub, pos := c.pos + 32, bytes := c.bytes + k.bytes.length, bad := false }
        (fun t => Landed s t tile (o + c.pos) k.bytes)) ∧
    (c.stage ≠ 0 → Ring.flt d = false → Tensor.count w ≤ c.pos → used ≤ Ring.bytes d →
      CmdTurn s a { c with stage := 2, done := true, bytes := c.bytes + (Ring.bytes d - used), bad := false }
        (fun t => Landed s t tile (o + used) (List.replicate (Ring.bytes d - used) 0))) ∧
    (c.stage ≠ 0 → Ring.flt d = true →
      CmdTurn s a { c with done := true, osw := c.osw ||| 0x200#32, asleep := c.asleep } (fun t => MemSame s t))

/-- R202, R204, R291: copyx waits for a filled head slot, reads it granule by granule, pops it with the last, and writes its elements,
converted, to the target, as many at once as lie one behind the other in one granule (its turns: log entry 77); copyred reads a source element and
combines it with its target element as one operation at the home: add rounds once under the command's mode, minimum and
maximum keep one of the two encodings, integer sums wrap. -/
def Obligations.CopyFromRingAndReduce : Prop :=
  (∀ (s : State) (a : CmdAt) (h : CmdHdr) (src dst : BitVec 12) (ring : BitVec 5) (rm op : BitVec 2) (sat : Bool)
    (o2 o1 o0 : BitVec 16), s.Runs a → s.memOk → s.Clean →
    let c := a.c
    (a.c.ins = .copyx h ring rm sat dst o2 o1 o0 →
      let w := c.ten0
      let u := c.ten1
      let d := a.x.ringOf c.man ring.toNat
      let z := landSize (Tensor.fmt w)
      let e := Fmt.esize (Tensor.fmt u)
      let dst : Nat → Nat := fun m => Tensor.addr u (windowIx w [o0.toNat, o1.toNat, o2.toNat] (Tensor.indexOf w m))
      let run := max 1 (runLen dst e (Tensor.count w) c.pos 16)
      let v : Nat → Rslt := fun i => asFmt (Tensor.fmt w) (Tensor.fmt u) (leNat ((c.data.drop ((z + 1) * i)).take z)) rm sat
      let hand := c.data.length / (z + 1)
      let k := min (Tensor.count w - hand) (16 / z)
      let slot := Ring.base d + Ring.head d % Ring.n d * Ring.bytes d + z * hand
      let got := c.data ++ (List.range k).flatMap (fun i => s.mem.getN (keyScratch ((a.x.ringTile d).getD a.x.anchor) (slot + i * z)) z ++ [0])
      (c.stage = 0 → Ring.flt d = false → a.x.ringOk d = true →
        CmdTurn s a { c with stage := if s.ringFilled a.x d 1 = true ∧ s.headHeld a ring = false then 1 else 0 } (fun t => MemSame s t)) ∧
      (c.stage = 1 → Ring.flt d = false → hand + k < Tensor.count w → CmdTurn s a { c with data := got } (fun t => MemSame s t)) ∧
      (c.stage = 1 → Ring.flt d = false → a.x.ringOk d = true → Tensor.count w ≤ hand + k →
        CmdTurn s a { c with stage := 2, data := got } (fun t => t.mem.cells = s.mem.cells ∧ ∀ y, t.fens[a.f]? = some y →
          Ring.head (y.ringOf c.man ring.toNat) = (Ring.head d + 1) % (2 * Ring.n d))) ∧
      (∀ ph, 2 ≤ c.stage → c.pos < Tensor.count w → (∀ i, i < run → (c.data[(z + 1) * i + z]?).getD 0 = 0) →
        s.Reaches a.x (a.req c.pos) .write (dst c.pos) (run * e) ph →
        CmdTurn s a { c with data := c.data.drop ((z + 1) * run), pos := c.pos + run, bytes := c.bytes + run * e,
                             osw := (List.range run).foldl (fun o i => o ||| (v i).2) c.osw }
          (fun t => Stored s t ph.key ((List.range run).flatMap (fun i => toLE e (v i).1)))) ∧
      (2 ≤ c.stage → Tensor.count w ≤ c.pos → CmdTurn s a { c with done := true } (fun t => MemSame s t))) ∧
    (a.c.ins = .copyred h src rm sat dst op o1 o0 →
      let w := c.ten1
      let u := c.ten0
      let ix := Tensor.indexOf w c.pos
      let z := Fmt.esize (Tensor.fmt w)
      let j := windowIx w [o0.toNat, o1.toNat, 0] ix
      let n := Fmt.esize (Tensor.fmt u)
      (c.pos < Tensor.count w → c.data = [] → Tensor.inside u j = false → Tensor.fmt u ≠ .cf8 →
        CmdTurn s a { c with data := List.replicate n 0, bad := false } (fun t => MemSame s t)) ∧
      (∀ ph, c.pos < Tensor.count w → c.data = [] → Tensor.inside u j = true → Tensor.fmt u ≠ .cf8 → c.early = [] →
        s.Reaches a.x (a.req c.pos) .read (Tensor.addr u j) n ph →
        CmdTurn s a { c with data := s.mem.getN ph.key n, bad := false } (fun t => MemSame s t)) ∧
      (∀ ph, c.pos < Tensor.count w → c.data ≠ [] → c.bad = false →
        s.Reaches a.x (a.req c.pos) .rmw (Tensor.addr w ix) z ph →
        let r := reduce op (Tensor.fmt w) rm sat (leNat (s.mem.getN ph.key z)) (Tensor.fmt u) (leNat c.data)
        CmdTurn s a { c with data := [], pos := c.pos + 1, bytes := c.bytes + z, osw := c.osw ||| r.2 }
          (fun t => Stored s t ph.key (toLE z r.1))) ∧
      (Tensor.count w ≤ c.pos → CmdTurn s a { c with done := true } (fun t => MemSame s t)))) ∧
  (∀ (rm : BitVec 2) (sat : Bool) (old v : Nat),
    (∀ d ∈ [Fmt.i32, Fmt.i64], old < 2 ^ Fmt.bits d → v < 2 ^ Fmt.bits d →
      reduce 0#2 d rm sat old d v = ((old + v) % 2 ^ Fmt.bits d, 0#32) ∧
      (reduce 1#2 d rm sat old d v).1 = (if (BitVec.ofNat (Fmt.bits d) old).slt (BitVec.ofNat (Fmt.bits d) v) then old else v) ∧
      (reduce 2#2 d rm sat old d v).1 = (if (BitVec.ofNat (Fmt.bits d) old).slt (BitVec.ofNat (Fmt.bits d) v) then v else old)) ∧
    (∀ d ∈ [Fmt.f64, Fmt.f32, Fmt.bf16, Fmt.f16],
      reduce 0#2 d rm sat old d v = finishF d rm.toNat sat (sumVals rm.toNat [floatVal d old, floatVal d v])))

/-- R205, R206, R350, R291, R304: gather reads each row's index and elements, the tokens of a CF8 row as they are decoded, and lands
the row granule by granule, with its padding, a row beyond the tensor as zeros; scatter reads a row granule by granule and writes
its elements, as many as lie one behind the other in one granule of the tensor; fill writes its value into every
element, a granule of scratch at once, or as many of the tensor's elements as lie one behind the other in one granule. -/
def Obligations.GatherScatterFill : Prop :=
  ∀ (s : State) (a : CmdAt) (h : CmdHdr) (th : BitVec 12) (desig : BitVec 11) (rofs iofs : BitVec 15) (nm1 : BitVec 12)
    (n32 scr : Bool) (val : BitVec 32) (tile : Tile), s.Runs a → s.memOk → s.Clean →
    a.x.desig a.x.anchor desig.toNat = some tile →
    let c := a.c
    let u := c.ten0
    let n := Tensor.count u / Tensor.size u (Tensor.rank u - 1)
    let rows := Tensor.size u (Tensor.rank u - 1)
    let z := landSize (Tensor.fmt u)
    let e := Fmt.esize (Tensor.fmt u)
    let wide := if n32 then 4 else 2
    let pitch := (n * z + 15) / 16 * 16
    let index := leNat (s.mem.getN (keyScratch tile (16 * iofs.toNat + wide * c.pos)) wide)
    (a.c.ins = .gather h th desig rofs iofs nm1 n32 →
      let hand := c.data.length / (z + 1)
      let landed := c.stage - 1
      let next := landed / z + hand
      let more := c.sub < rows ∧ next < n ∧ hand * z < 16
      (c.pos ≤ nm1.toNat → c.stage = 0 → CmdTurn s a { c with stage := 1, sub := index } (fun t => MemSame s t)) ∧
      (∀ ph, c.pos ≤ nm1.toNat → c.stage ≠ 0 → more → Tensor.fmt u ≠ .cf8 → c.early = [] →
        s.Reaches a.x (a.req (c.pos * n + next)) .read (Tensor.addr u (Tensor.indexOf u (c.sub * n + next))) z ph →
        CmdTurn s a { c with data := c.data ++ s.mem.getN ph.key z ++ [0] } (fun t => MemSame s t)) ∧
      (c.pos ≤ nm1.toNat → c.stage ≠ 0 → more → Tensor.fmt u = .cf8 → Tensor.blen u ≠ 0 → c.sub ≠ lostSync → c.bad = false →
        let k := c.sub * n + next
        tokenNeeds c.raw (tokenPlace c u (Tensor.indexOf u k)).2 ≤ c.raw.length →
        let t := cf8Decode c.raw (Tensor.blen u)
        let part := (t.bytes.drop (k % 32)).take (n - next)
        CmdTurn s a { c with raw := [], osw := c.osw ||| (if t.bad then 0x2000#32 else 0), data := c.data ++ part.flatMap (fun b => [b, 0]) }
          (fun t => MemSame s t)) ∧
      (c.pos ≤ nm1.toNat → c.stage ≠ 0 → ¬more →
        let k := min hand (16 / z)
        let left := { c with data := c.data.drop ((z + 1) * (16 / z)), bytes := c.bytes + 16 }
        (∀ i, i < k → (c.data[i * (z + 1) + z]?).getD 0 = 0) →
        let out : BitVec 32 := if rows ≤ c.sub ∧ Tensor.zpad u = false then 0x1000#32 else 0
        CmdTurn s a (if landed + 16 < pitch then { left with stage := c.stage + 16 }
            else { left with stage := 0, sub := 0, pos := c.pos + 1, osw := c.osw ||| out })
          (fun t => Landed s t tile (16 * rofs.toNat + c.pos * pitch + landed)
            ((List.range k).flatMap (fun i => (c.data.drop (i * (z + 1))).take z) ++ List.replicate (16 - z * k) 0))) ∧
      (nm1.toNat < c.pos → CmdTurn s a { c with done := true } (fun t => MemSame s t))) ∧
    (a.c.ins = .scatter h th desig rofs iofs nm1 n32 →
      let w := c.stage - 1
      let hand := c.data.length / (e + 1)
      let dst : Nat → Nat := fun m => Tensor.addr u (Tensor.indexOf u (c.sub * n + m))
      let run := max 1 (runLen dst e n w 16)
      (c.pos ≤ nm1.toNat → c.stage = 0 → index < rows → CmdTurn s a { c with stage := 1, sub := index } (fun t => MemSame s t)) ∧
      (c.pos ≤ nm1.toNat → c.stage ≠ 0 → w < n → hand < run →
        let m := w + hand
        let k := min (n - m) (16 / e - m % (16 / e))
        CmdTurn s a { c with data := c.data ++ (List.range k).flatMap (fun i =>
          s.mem.getN (keyScratch tile (16 * rofs.toNat + c.pos * Tensor.rowPitch u + e * m + i * e)) e ++ [0]) } (fun t => MemSame s t)) ∧
      (c.pos ≤ nm1.toNat → c.stage = 0 → rows ≤ index →
        CmdTurn s a { c with pos := c.pos + 1, osw := c.osw ||| 0x1000#32 } (fun t => MemSame s t)) ∧
      (∀ ph, c.pos ≤ nm1.toNat → c.stage ≠ 0 → w < n → run ≤ hand → (∀ i, i < run → (c.data[(e + 1) * i + e]?).getD 0 = 0) →
        s.Reaches a.x (a.req (c.pos * n + w)) .write (dst w) (run * e) ph →
        CmdTurn s a { c with data := c.data.drop ((e + 1) * run), stage := c.stage + run, bytes := c.bytes + e * run }
          (fun t => Stored s t ph.key ((List.range run).flatMap (fun i => (c.data.drop ((e + 1) * i)).take e)))) ∧
      (c.pos ≤ nm1.toNat → c.stage ≠ 0 → n ≤ w → CmdTurn s a { c with stage := 0, sub := 0, pos := c.pos + 1 } (fun t => MemSame s t)) ∧
      (nm1.toNat < c.pos → CmdTurn s a { c with done := true } (fun t => MemSame s t))) ∧
    (a.c.ins = .fill h th scr desig iofs val →
      let v := fillBits (Tensor.fmt u) val
      let one := toLE e v.1
      let per := 16 / e
      let k := min per (Tensor.count u - c.pos)
      let dst : Nat → Nat := fun m => Tensor.addr u (Tensor.indexOf u m)
      let run := max 1 (runLen dst e (Tensor.count u) c.pos 16)
      (scr = true → c.pos < Tensor.count u → CmdTurn s a { c with pos := c.pos + per, bytes := c.bytes + 16 }
        (fun t => Landed s t tile (16 * iofs.toNat + e * c.pos) ((List.replicate k one).flatten ++ List.replicate (16 - k * e) 0))) ∧
      (∀ ph, scr = false → c.pos < Tensor.count u → s.Reaches a.x (a.req c.pos) .write (dst c.pos) (run * e) ph →
        CmdTurn s a { c with pos := c.pos + run, bytes := c.bytes + run * e }
          (fun t => Stored s t ph.key (List.replicate run one).flatten)) ∧
      (Tensor.count u ≤ c.pos → CmdTurn s a { c with done := true, osw := c.osw ||| v.2 } (fun t => MemSame s t)))

/-- R207, R215, R218: agload reads its words and replaces them in the slot's store at once; thresh offers its score to the
node at its port; pref, inval and flush act on a line a turn and change no byte of memory. -/
def Obligations.StoreAndLineCommands : Prop :=
  ∀ (s : State) (a : CmdAt) (h : CmdHdr) (th : BitVec 12) (nm1 : BitVec 8) (addr : BitVec 48) (score : BitVec 32),
    s.Runs a → s.memOk → s.Clean →
    let c := a.c
    let place := a.x.portPlace a.key
    let ft := Tensor.foot c.ten0 (Tensor.indexOf c.ten0 c.pos) false
    let va := ft.a / 128 * 128 + 128 * c.sub
    let next := if va + 128 < ft.a + ft.n then { c with sub := c.sub + 1 } else { c with sub := 0, pos := c.pos + 1 }
    let found := if 2 ^ 48 ≤ va then none else s.lookup a.x.asid a.x.part (a.x.carrierOf place.1) .read va
    (a.c.ins = .agload h nm1 addr →
      (∀ ph, (c.stage ≠ 0 ∨ (a.x.nodeAt place.1 place.2).any (fun m => m.mem.b0) = false) → c.pos ≤ nm1.toNat → c.early = [] →
        s.Reaches a.x (a.req c.pos) .read (addr.toNat + 8 * c.pos) 8 ph →
        CmdTurn s a { c with stage := 1, pos := c.pos + 1, data := c.data ++ s.mem.getN ph.key 8 } (fun t => MemSame s t)) ∧
      (c.stage ≠ 0 → nm1.toNat < c.pos → CmdTurn s a { c with data := [], done := true } (fun t => MemSame s t ∧
        ∃ y, t.fens[a.f]? = some y ∧ ∀ k, (y.store place.1 place.2)[k]? =
          if k ≤ nm1.toNat then some (BitVec.ofNat 64 (leNat ((c.data.drop (8 * k)).take 8))) else (a.x.store place.1 place.2)[k]?))) ∧
    (a.c.ins = .thresh h score → c.man = a.x.cur → CmdTurn s a { c with done := true } (fun t => MemSame s t ∧
      ∀ n, a.x.nodeOn place.1 place.2 = some n → ∃ y m, t.fens[a.f]? = some y ∧ y.nodeOn place.1 place.2 = some m ∧
        m.thr = kiBest n.thr (kiMk score.toNat 0xFFFFFFFF))) ∧
    (a.c.ins = .thresh h score → c.man ≠ a.x.cur → CmdTurn s a { c with done := true, osw := c.osw ||| 0x200#32 } (fun t => MemSame s t)) ∧
    (a.c.ins = .pref h th ∨ a.c.ins = .inval h th ∨ a.c.ins = .flush h th →
      (Tensor.count c.ten0 ≤ c.pos → CmdTurn s a { c with done := true } (fun t => MemSame s t)) ∧
      (c.pos < Tensor.count c.ten0 → found = none → CmdTurn s a next (fun t => MemSame s t))) ∧
    (∀ ph, c.pos < Tensor.count c.ten0 → found = some ph →
      (a.c.ins = .pref h th → s.present (a.req c.pos) ph 1 = .ok () s → CmdTurn s a next (fun t => MemSame s t)) ∧
      (a.c.ins = .inval h th → ph.typ ≠ .mere → CmdTurn s a next (fun t => MemSame s t ∧ (∀ r ∈ t.emt.replicas, r.1 ≠ ph.key / 128) ∧
        ∀ y, t.fens[a.f]? = some y → ∀ l ∈ y.core.dcache, l.va / 128 ≠ va / 128)) ∧
      (a.c.ins = .flush h th → ph.typ.inEmt = true → CmdTurn s a next (fun t => MemSame s t ∧
        ∀ l ∈ t.emt.lines, l.line = ph.key / 128 → l.dirty = false)))

/-- R210, R197, R176, R39: qput completes an element: the head slot's low bytes move into the queue and the slot is popped; qget
the other way: the queue's element moves into the tail slot, zeros to its end, and the slot is filled. The queue's index and
FREE change, and the waiters of its other side are woken. A full or empty queue with BLK 0 ends the command with TRUNCATED;
after the last element the command completes. What the command reports as landed is the model's reading (log entry 71). -/
def Obligations.QueueCommands : Prop :=
  ∀ (s : State) (a : CmdAt) (h : CmdHdr) (nm1 : BitVec 8) (ring : BitVec 5) (q : BitVec 48) (ph : Phys), s.Runs a →
    s.memOk → s.Clean → a.c.asleep = false →
    let c := a.c
    let d := a.x.ringOf c.man ring.toNat
    let z := s.qcb ph.key
    let n := Qcb.cap z
    let put := a.c.ins = .qput h nm1 ring q
    let get := a.c.ins = .qget h nm1 ring q
    let home := a.x.carrierOf (a.x.portPlace a.key).1
    let judged := (s.qcbFrozen z = false ∨ Qcb.owner z ≠ a.x.asid) ∧ Qcb.flt z = false ∧
      (home.die = homeDie ph.key ∨ Qcb.mdie z = true) ∧ s.qcbValid z a.x.asid a.x.part home ph.key = true
    let there := s.xlateQcb a.x (a.req c.pos) .rmw q.toNat = .ok ph s ∧ s.reserved (a.req c.pos) ph.key 64 = false ∧
      s.present (a.req c.pos) ph 64 = .ok () s ∧ s.snooped (a.req c.pos) ph 64 = .ok () s ∧ ∀ n, s.charge (a.req c.pos) ph n = .ok () s
    let tile := (a.x.ringTile d).getD a.x.anchor
    let inRing : Nat → List Phys := fun i => (List.range (Qcb.esz8 z)).map (fun k =>
      scratchPhys tile (Ring.base d + i % Ring.n d * Ring.bytes d + 8 * k))
    let inQueue : Nat → List Phys := fun i => s.slotPhys z a.x.asid a.x.part home (i % n)
    let apart : List Phys → Prop := fun l => (∀ e ∈ l, e.key + 8 ≤ ph.key ∨ ph.key + 64 ≤ e.key) ∧
      l.Pairwise (fun e g => e.key + 8 ≤ g.key ∨ g.key + 8 ≤ e.key)
    let next := { c with pos := c.pos + 1, osw := c.osw ||| (if s.scopeCap a.x < Qcb.scope z then 0x400#32 else 0) }
    let fits := 8 * Qcb.esz8 z ≤ Ring.bytes d
    let sound := Ring.flt d = false ∧ a.x.ringOk d = true
    let occ := Qcb.count z
    1 ≤ n → n ≤ 2 ^ 24 → Qcb.free z ≤ n →
    (put ∨ get → c.stage = 0 → there → fits → CmdTurn s a { c with stage := 1 } (fun t => MemSame s t)) ∧
    (put ∨ get → c.stage ≠ 0 → nm1.toNat < c.pos → CmdTurn s a { c with done := true } (fun t => MemSame s t)) ∧
    (put → c.stage ≠ 0 → c.pos ≤ nm1.toNat → there → fits → sound → s.ringFilled a.x d 1 = true → judged → occ ≠ n → 1 ≤ Qcb.free z →
      s.unsnooped (a.req c.pos) ph (inQueue (Qcb.tail z) ++ s.slotLeaves z a.x.asid a.x.part home (Qcb.tail z % n)) = .ok () s →
      ∃ t y, exec (.qput h nm1 ring q) s = .next t ∧ t.fens[a.f]? = some y ∧
        t.cmdAt a.f a.p a.k = some { next with begun := true, bytes := c.bytes + 8 * Qcb.esz8 z } ∧
        (apart (inQueue (Qcb.tail z)) → t.readPieces (inQueue (Qcb.tail z)) = s.readPieces (inRing (Ring.head d))) ∧
        Ring.head (y.ringOf c.man ring.toNat) = (Ring.head d + 1) % (2 * Ring.n d) ∧
        Qcb.tail (t.qcb ph.key) = (Qcb.tail z + 1) % (2 * n) ∧ Qcb.free (t.qcb ph.key) = Qcb.free z - 1 ∧
        Qcb.wne (t.qcb ph.key) = 0 ∧ t.hts.wakes = s.hts.wakes ++ (quadList (Qcb.wne z)).map (fun k => (k, ph.key))) ∧
    (put → c.stage ≠ 0 → c.pos ≤ nm1.toNat → there → fits → sound → s.ringFilled a.x d 1 = true → judged → occ = n → Qcb.blk z = false →
      CmdTurn s a { c with done := true, osw := c.osw ||| 0x1000#32 } (fun t => MemSame s t)) ∧
    (get → c.stage ≠ 0 → c.pos ≤ nm1.toNat → there → fits → sound → s.ringFree a.x d 1 = true → s.tailHeld a ring = false → judged →
      occ ≠ 0 →
      let slot := keyScratch tile (Ring.base d + Ring.tail d % Ring.n d * Ring.bytes d)
      (slot + Ring.bytes d ≤ ph.key ∨ ph.key + 64 ≤ slot) →
      ∃ t y, exec (.qget h nm1 ring q) s = .next t ∧ t.fens[a.f]? = some y ∧
        t.cmdAt a.f a.p a.k = some { next with begun := true, bytes := c.bytes + Ring.bytes d } ∧
        t.readPieces (inRing (Ring.tail d)) = s.readPieces (inQueue (Qcb.head z)) ∧
        (∀ k, 8 * Qcb.esz8 z ≤ k → k < Ring.bytes d → t.mem.get (slot + k) = 0) ∧
        Ring.tail (y.ringOf c.man ring.toNat) = (Ring.tail d + 1) % (2 * Ring.n d) ∧
        Qcb.head (t.qcb ph.key) = (Qcb.head z + 1) % (2 * n) ∧ Qcb.free (t.qcb ph.key) = Qcb.free z + 1 ∧
        Qcb.wnf (t.qcb ph.key) = 0 ∧ t.hts.wakes = s.hts.wakes ++ (quadList (Qcb.wnf z)).map (fun k => (k, ph.key))) ∧
    (get → c.stage ≠ 0 → c.pos ≤ nm1.toNat → there → fits → sound → s.ringFree a.x d 1 = true → s.tailHeld a ring = false → judged →
      occ = 0 → Qcb.blk z = false → CmdTurn s a { c with done := true, osw := c.osw ||| 0x1000#32 } (fun t => MemSame s t))

/-- R211: an mred whose destination's pages lie in the Mere announces its contribution and waits: it opens an instance, joins
one it agrees with, or spoils one; a contribution to an abandoned instance, or past the timeout, ends with REDUCE_ABORTED. When
every contribution has been announced, the bank takes room in its buffer of 256 KiB, reads the contributions in ascending IDX,
granule by granule, and combines them; the result is written once over the destination, and every contributor completes with the OR
of all status; at its timeout an instance is abandoned, and after a second one its entry is freed. How the bank finds an instance
and what its turns are is the model's choice (log entries 71 and 78). -/
def Obligations.Reductions : Prop :=
  (∀ (s : State) (a : CmdAt) (h : CmdHdr) (th : BitVec 12) (rm op : BitVec 2) (sat : Bool) (desig : BitVec 11)
    (sofs : BitVec 15) (idx nm1 : BitVec 8) (tag : BitVec 12) (tmo : BitVec 5) (tile : Tile) (p : Phys) (ps : List Phys),
    s.Runs a → a.c.ins = .mred h th rm sat op desig sofs idx nm1 tag tmo → a.c.asleep = false →
    a.x.desig a.x.anchor desig.toNat = some tile →
    let c := a.c
    let n := Tensor.bytes c.ten0
    let ann : Ann := ⟨a.f, c.num, idx.toNat, nm1.toNat, op.toNat, rm.toNat, sat, (Tensor.fmt c.ten0).code, n,
      min h.scope.toNat (s.scopeCap a.x), keyScratch tile (16 * sofs.toNat), p :: ps⟩
    (∀ s0, s0 = s.updCmd a.f a.p a.k (fun c => { c with begun := true }) →
      s0.merePages a (pageStarts (Tensor.base c.ten0) n) = .ok (p :: ps) s0) →
    (s.redFind p.key tag.toNat = none → s.reds.countP (fun r => bankOf r.key == bankOf p.key) < 64 →
      CmdTurn s a { c with asleep := true, stage := 2 } (fun t => t.mem = s.mem ∧
        t.reds = s.reds ++ [⟨p.key, tag.toNat, [ann], s.cycle, tmo.toNat, false, false, 0, [], 0⟩])) ∧
    (∀ k r, s.redFind p.key tag.toNat = some (k, r) → r.abandoned = false → r.anns.all (fun b => b.agrees ann) = true →
      s.cycle < r.since + 2 ^ (r.tmo + 10) →
      CmdTurn s a { c with asleep := true, stage := 2 } (fun t => t.mem = s.mem ∧
        t.reds[k]? = some { r with anns := r.anns ++ [ann] } ∧ ∀ j, j ≠ k → t.reds[j]? = s.reds[j]?)) ∧
    (∀ k r, s.redFind p.key tag.toNat = some (k, r) → r.abandoned = true → s.cycle < r.since + 2 ^ (r.tmo + 10) →
      CmdTurn s a { c with done := true, osw := c.osw ||| 0x800#32 } (fun t => t.mem = s.mem ∧ t.reds = s.reds)) ∧
    (∀ k r, s.redFind p.key tag.toNat = some (k, r) → r.abandoned = false → r.anns.all (fun b => b.agrees ann) = false →
      s.cycle < r.since + 2 ^ (r.tmo + 10) →
      CmdTurn s a { c with done := true, osw := c.osw ||| 0x800#32 } (fun t => t.mem = s.mem ∧
        t.reds[k]? = some { r with abandoned := true, anns := [], since := s.cycle, room := false, at' := 0, acc := [], st := 0 })) ∧
    (∀ k r, s.redFind p.key tag.toNat = some (k, r) → r.abandoned = false → (∀ b, r.anns.head? = some b → r.anns.length ≠ b.nm1 + 1) →
      let due := r.since + 2 ^ (r.tmo + 10)
      due ≤ s.cycle → s.cycle < due + 2 ^ (r.tmo + 10) →
      CmdTurn s a { c with done := true, osw := c.osw ||| 0x800#32 } (fun t => t.mem = s.mem ∧
        t.reds[k]? = some { r with abandoned := true, anns := [], since := due, room := false, at' := 0, acc := [], st := 0 }))) ∧
  (∀ (s : State) (key : Nat) (tag : BitVec 12) (k : Nat) (r : RedInst), s.redFind key tag.toNat = some (k, r) → s.memOk → s.Clean →
    (∀ (a0 : Ann) (rest : List Ann) (found : List (Ann × Fen × PortKey × Cmd)) (ph : Phys), r.abandoned = false →
      r.ordered = a0 :: rest → rest.length = a0.nm1 → 0 < a0.size →
      found.map (fun q => q.1) = a0 :: rest →
      (∀ q ∈ found, s.findCmd q.1.fen q.1.num = some (q.2.1, q.2.2.1, q.2.2.2) ∧ q.2.2.2.done = false) →
      let f := Fmt.ofCode a0.fmt
      let z := Fmt.esize f
      let j := r.at' / a0.size
      let o := r.at' % a0.size
      let n := min 16 (a0.size - o)
      let held := ((s.reds.filter (fun u => u.room && bankOf u.key == bankOf key)).map (fun u => ((u.anns.head?).map Ann.size).getD 0)).sum
      (r.room = false →
        (held + a0.size ≤ 2 ^ 18 → ∃ t, exec (.mredCombine key tag) s = .next t ∧ t.mem = s.mem ∧ t.fens = s.fens ∧
          t.reds[k]? = some { r with room := true } ∧ ∀ i, i ≠ k → t.reds[i]? = s.reds[i]?) ∧
        (2 ^ 18 < held + a0.size → exec (.mredCombine key tag) s = .next s)) ∧
      (∀ q, r.room = true → found[j]? = some q → (s.fenFrozen q.2.1 = true → exec (.mredCombine key tag) s = .next s) ∧
        (s.fenFrozen q.2.1 = false → (j = 0 ∨ r.acc.length = a0.size) →
          let bs := s.mem.getN (q.1.data + o) n
          let l := (List.range (n / z)).map (fun i => reduce (BitVec.ofNat 2 a0.op) f (BitVec.ofNat 2 a0.rm) a0.sat
            (leNat ((r.acc.drop (o + z * i)).take z)) f (leNat ((bs.drop (z * i)).take z)))
          ∃ t, exec (.mredCombine key tag) s = .next t ∧ t.mem = s.mem ∧ t.reds[k]? = some (if j = 0
            then { r with at' := r.at' + n, acc := r.acc ++ bs }
            else { r with at' := r.at' + n, st := r.st ||| l.foldl (fun w v => w ||| v.2) 0,
                          acc := r.acc.take o ++ l.flatMap (fun v => toLE z v.1) ++ r.acc.drop (o + n) }))) ∧
      (r.room = true → rest.length + 1 ≤ j → a0.key = [ph] → s.reserved ⟨none, 2, ⟨0, 0, 0⟩, 0, 0, 0, 0⟩ ph.key 4096 = false →
        r.acc.length ≤ 4096 - ph.key % 4096 →
        let osw := found.foldl (fun w q => w ||| q.2.2.2.osw) r.st
        ∃ t, exec (.mredCombine key tag) s = .next t ∧ Stored s t ph.key r.acc ∧ t.reds = dropNth s.reds k ∧
          ∀ q ∈ found, (t.findCmd q.1.fen q.1.num).map (fun v => v.2.2) = some { q.2.2.2 with
            done := true, osw := q.2.2.2.osw ||| osw, asleep := false, bytes := q.2.2.2.bytes + a0.size })) ∧
    (r.abandoned = false → r.since + 2 ^ (r.tmo + 10) ≤ s.cycle →
      (∀ n, r.anns.head? = some n → r.anns.length ≠ n.nm1 + 1) →
      ∃ t, exec (.mredTimeout key tag) s = .next t ∧ t.mem = s.mem ∧
        t.reds[k]? = some { r with abandoned := true, anns := [], since := r.since + 2 ^ (r.tmo + 10), room := false, at' := 0,
                                   acc := [], st := 0 } ∧
        ∀ n ∈ r.anns, ∀ x, t.fens[n.fen]? = some x → ∀ p ∈ x.ports, ∀ c ∈ p.cmds, c.num = n.num → c.done = true) ∧
    (r.abandoned = true → r.since + 2 ^ (r.tmo + 10) ≤ s.cycle →
      exec (.abandonedInstanceEnd key tag) s = .next { s with reds := dropNth s.reds k }))

/-- R212, R213, R291: matom combines one element with the Mere's as one step and returns the old value; maxpy reads the elements of x
granule by granule and replaces each element of a line of y by A·x + y, rounded once (their turns: log entries 71 and 73). -/
def Obligations.MereUpdates : Prop :=
  ∀ (s : State) (a : CmdAt) (h : CmdHdr) (th : BitVec 12) (op : BitVec 4) (desig : BitVec 11) (sofs rofs : BitVec 15)
    (ret ord sat : Bool) (rm : BitVec 2) (av : BitVec 32) (tile : Tile) (ph : Phys), s.Runs a → s.memOk → s.Clean →
    a.x.desig a.x.anchor desig.toNat = some tile → ph.typ = .mere →
    let c := a.c
    let u := c.ten0
    let f := Tensor.fmt u
    let z := Fmt.esize f
    let src := keyScratch tile (16 * sofs.toNat) + z * c.pos
    let dst := keyScratch tile (16 * rofs.toNat) + z * c.pos
    (a.c.ins = .matom h th op desig sofs ret rofs ord →
      (c.pos < Tensor.count u → s.Reaches a.x (a.req c.pos) .rmw (Tensor.addr u (Tensor.indexOf u c.pos)) z ph →
        let old := leNat (s.mem.getN ph.key z)
        let v := leNat (s.mem.getN src z)
        let r : Nat × BitVec 32 :=
          if op = 0#4 then reduce 0#2 f 0#2 false old f v else if op = 1#4 then minMax f false old v
          else if op = 2#4 then minMax f true old v else if op = 3#4 then (old &&& v, 0) else if op = 4#4 then (old ||| v, 0)
          else if op = 5#4 then (old ^^^ v, 0) else (v, 0)
        CmdTurn s a { c with pos := c.pos + 1, bytes := c.bytes + z, osw := c.osw ||| r.2 } (fun t =>
          (ret = false → Stored s t ph.key (toLE z r.1)) ∧
          (ret = true → t.mem.getN dst z = s.mem.getN ph.key z ∧
            (ph.key + z ≤ dst ∨ dst + z ≤ ph.key → t.mem.getN ph.key z = toLE z r.1)))) ∧
      (Tensor.count u ≤ c.pos → CmdTurn s a { c with done := true } (fun t => t.mem.cells = s.mem.cells))) ∧
    (a.c.ins = .maxpy h th rm sat desig sofs av →
      let va := Tensor.base u + z * c.pos
      let n := min (Tensor.count u - c.pos) ((128 - va % 128) / z)
      let hand := c.data.length / (z + 1)
      let l := (List.range n).map (fun k => finishF f rm.toNat sat (fmaVal rm.toNat (floatVal .f32 av.toNat)
        (floatVal f (leNat ((c.data.drop ((z + 1) * k)).take z))) (floatVal f (leNat (s.mem.getN (ph.key + z * k) z)))))
      (c.pos < Tensor.count u → 0 < z → hand < n →
        let e := c.pos + hand
        let k := min (n - hand) (16 / z - e % (16 / z))
        CmdTurn s a { c with data := c.data ++ (List.range k).flatMap (fun i =>
          s.mem.getN (keyScratch tile (16 * sofs.toNat + z * e + i * z)) z ++ [0]) } (fun t => MemSame s t)) ∧
      (c.pos < Tensor.count u → 0 < z → n ≤ hand → (∀ i, i < n → (c.data[(z + 1) * i + z]?).getD 0 = 0) →
        s.Reaches a.x (a.req c.pos) .rmw va (z * n) ph →
        CmdTurn s a { c with data := [], pos := c.pos + n, bytes := c.bytes + z * n, osw := c.osw ||| l.foldl (fun w r => w ||| r.2) 0 }
          (fun t => Stored s t ph.key (l.flatMap (fun r => toLE z r.1)))) ∧
      (Tensor.count u ≤ c.pos → CmdTurn s a { c with done := true } (fun t => t.mem = s.mem)))

/-- R214, R216, R217, R331, R332: depdec decrements a held launch's counter; launch reads its record, and LAUNCH_ACCEPT adds
it to the launches with its dependence count less any credit; mswitch makes its mantle current at a phase end, at once, or
after an exit. R331, R332, R334, R373: a launch that its fen's controller holds is accepted once its scheduler has room and
OCCCAP admits it, and its command completes; until then it waits. -/
def Obligations.LaunchCommands : Prop :=
  (∀ (s : State) (a : CmdAt) (h : CmdHdr) (die m : BitVec 2) (amount : BitVec 8) (name : BitVec 32) (addr : BitVec 48) (now : Bool),
    s.Runs a → s.memOk → s.Clean →
    let c := a.c
    let x := a.x
    let rec' : Rec := BitVec.ofNat 1024 (leNat c.data)
    let done := { c with done := true }
    (a.c.ins = .depdec h die amount name →
      (∀ k l, s.holder die.toNat x.asid name.toNat = some (k, l) →
        CmdTurn s a { done with osw := c.osw ||| (if l.dep < amount.toNat then 0x1000#32 else 0) } (fun t => t.mem = s.mem ∧
          t.hts.launches[k]? = some { l with dep := l.dep - amount.toNat } ∧
          ∀ j, j ≠ k → t.hts.launches[j]? = s.hts.launches[j]?)) ∧
      (s.holder die.toNat x.asid name.toNat = none →
        CmdTurn s a { done with osw := c.osw ||| 0x200#32 } (fun t => t.mem = s.mem ∧ t.hts = s.hts))) ∧
    (a.c.ins = .launch h addr → c.asleep = false →
      (∀ ph, c.data.length < 128 → c.early = [] → s.Reaches x (a.req c.pos) .read (addr.toNat + c.data.length) 64 ph →
        CmdTurn s a { c with data := c.data ++ s.mem.getN ph.key 64 } (fun t => MemSame s t)) ∧
      (128 ≤ c.data.length → s.recordOk rec' x.asid x.part = false →
        CmdTurn s a { done with osw := c.osw ||| 0x8000#32 } (fun t => t.hts = s.hts)) ∧
      (128 ≤ c.data.length → s.recordOk rec' x.asid x.part = true →
        CmdTurn s a { c with asleep := true, stage := 1 } (fun t => t.hts = s.hts))) ∧
    (a.c.ins = .mswitch h m now → x.choice = none →
      (x.cur = m.toNat → x.exited = false → CmdTurn s a done (fun t => t.mem = s.mem)) ∧
      (x.exited = true → CmdTurn s a done (fun t => ∃ y, t.fens[a.f]? = some y ∧ y.cur = m.toNat ∧ y.exited = false ∧
        y.state = (if x.state = 3 then 2 else x.state) ∧ t.mem = s.mem)) ∧
      (x.cur ≠ m.toNat → x.exited = false → c.stage ≠ 1 → CmdTurn s a { c with stage := 1 } (fun t =>
        ∃ y, t.fens[a.f]? = some y ∧ y.cur = x.cur ∧ t.mem = s.mem ∧
          (now = true → y.choice = some (some m.toNat) ∧ y.sel14 = [] ∧ y.sel15 = []) ∧
          (now = false → y.pendSw = some m.toNat ∧ y.choice = none))))) ∧
  (∀ (s : State) (k : Nat) (x : Fen) (c : Cmd) (r : List Cmd), s.fens[k]? = some x → x.cmdsAt .fc = c :: r → c.asleep = true →
    c.stage = 1 → c.done = false → s.fenFrozen x = false →
    let d : Rec := BitVec.ofNat 1024 (leNat c.data)
    let mine : Credit → Bool := fun u => Rec.named d && u.die == Rec.hdie d && u.asid == x.asid && u.name == Rec.name d
    let credit := match s.hts.credits.find? mine with | some u => u.count | none => 0
    s.recordOk d x.asid x.part = true →
    (s.launchRoom d x.asid = true → s.occOk x.asid = true →
      ∃ t y, exec (.launchAccept k) s = .next t ∧ t.fens[k]? = some y ∧ t.mem = s.mem ∧
        t.hts.launches = s.hts.launches ++ [⟨s.hts.nextKey, x.asid, x.fn, x.part, x.ctx, d, s.dev.midx,
          if Rec.named d then Rec.depcnt d - credit else 0, false, 0, 0, false, none⟩] ∧
        t.hts.credits = s.hts.credits.filter (fun u => !mine u) ∧
        (∀ q ∈ y.ports, ∀ e ∈ q.cmds, e.num = c.num → e.done = true ∧ e.asleep = false)) ∧
    (s.launchRoom d x.asid = false ∨ s.occOk x.asid = false → exec (.launchAccept k) s = .next s))


/-! ## Nodes: element-wise nodes and the rules of a firing -/

/-- R221, R228, R233: an element-wise node that is ready computes every lane of its beat from the lanes of its operands. The status of vclamp
is the model's reading (log entry 137). -/
def Obligations.ElementNodes : Prop :=
  ∀ (s : State) (a : NodeAt) (n : NodeHdr) (bs : List Beat), ∀ r ∈ elementTable n, a.n.ins = r.1 →
    s.Ready a (List.range r.2.1) bs →
    FiresLanes s a (List.range r.2.1) (Fmt.bits n.fmt)
      (fun i => r.2.2 (fun j => lane (Fmt.bits n.fmt) ((bs[j]?).getD (dataBeat 0)).data i))

/-- R219, R222, R223, R225, shown of the element-wise nodes: a node waits in IDLE for an operand or a guard token and in
BLOCKED for room; beats of different types trap it with reason 1; beats of one control type pass and take no guard token;
a false token makes the firing consume its operands and do nothing else. How a ring operand stands beside control beats is the
model's reading (log entry 47). -/
def Obligations.NodeFiring : Prop :=
  ∀ (s : State) (a : NodeAt) (n : NodeHdr), s.Turn a → ∀ r ∈ elementTable n, a.n.ins = r.1 →
    let ins := List.range r.2.1
    let held : List Beat → Prop := fun bs => ins.map (fun j => (s.offer a j).beat?) = bs.map some ∧
      ∀ j ∈ ins, ∀ b, s.offer a j = .streamed b → b.typ = 0
    ((∃ j ∈ ins, s.offer a j = .empty) → TurnTo s a (s.nodeSt a .idle)) ∧
    (∀ bs, held bs → a.guardTok = some .empty → TurnTo s a (s.nodeSt a .idle)) ∧
    (∀ bs, held bs → a.goes ∨ a.off → s.roomAll a = false → TurnTo s a (s.nodeSt a .blocked)) ∧
    (∀ bs, s.Offers a ins bs → a.off → Fires s a ⟨ins, true, [], 0, id⟩ .guarded) ∧
    ((∀ j ∈ ins, s.offer a j ≠ .empty) →
      (∀ i j b c, i ∈ ins → j ∈ ins → s.offer a i = .streamed b → s.offer a j = .streamed c → b.typ ≠ c.typ →
        TurnTo s a (s.nodeTrap a 1)) ∧
      (∀ b, (ins.filterMap (fun j => match s.offer a j with | .streamed c => some c | _ => none)).head? = some b →
        b.typ ≠ 0 → (∀ j ∈ ins, ∀ c, s.offer a j = .streamed c → c.typ = b.typ) → s.roomAll a = true →
        Fires s a ⟨ins.filter (fun j => isStream (a.inp j)), false, if a.hasOut 0 then [(0, { b with tag := none })] else [], 0, id⟩ .firing))

/-- R219, R224 to R226, R351, R352, R417: what a firing on circuits does: one beat leaves each buffer it takes from, its
outputs follow what the node has yet to send, its status goes to STATUS, and nothing else changes; beats then move, which
changes buffers only; what a node trap does, whose tile for a copy is that of the node it copies (log entry 144); and that no
update of a ring fails in a firing of a node whose rings pass their checks and that names no ring twice (R27). -/
def Obligations.FiringEffects : Prop :=
  (∀ (s : State) (a : NodeAt) (v : Fire) (st : NodeSt), s.nodeHere = some a → a.n.mem.owe = [] → a.n.st ≠ .trapped →
    a.n.outq.length = 2 → v.take.Nodup → (∀ j h, a.inp j ≠ .ring h) → (∀ q h, a.outp q ≠ .ring h) →
    ∃ y n, FireLeaves s a v st (s.fire a v st) y n) ∧
  (∀ (s : State) (f : Nat) (x : Fen), s.fens[f]? = some x → ∃ y, (s.settle f).fens[f]? = some y ∧
    { y with mantles := x.mantles, selq := x.selq } = x ∧ (∀ g, g ≠ f → (s.settle f).fens[g]? = s.fens[g]?) ∧
    { (s.settle f) with fens := s.fens } = s ∧
    (∀ m, x.mantle = some m → ∃ m', y.mantle = some m' ∧ m'.nodes.length = m.nodes.length ∧
      ∀ (k : Nat) (n n' : Node), m.nodes[k]? = some n → m'.nodes[k]? = some n' → { n' with inq := n.inq, outq := n.outq } = n)) ∧
  (∀ (s : State) (a : NodeAt) (reason : Nat), s.nodeHere = some a → reason < 256 → a.n.opc < 256 → a.n.slot < 256 →
    a.named.desig < 2 ^ 11 → (a.n.clone = false → a.named = a) ∧
    let t := s.nodeTrap a reason
    (∀ g, g ≠ a.f → t.fens[g]? = s.fens[g]?) ∧
    (a.x.core.phase ≠ .halted → t.mem = s.mem ∧ t.nodeOf a = some { a.n with st := .trapped } ∧
      ∃ y v, t.fens[a.f]? = some y ∧ y.core = { a.x.core with traps := a.x.core.traps ++ [(8, v)] } ∧ y.status = a.x.status ∧
        v.toNat = reason * 2 ^ 56 + a.n.opc * 2 ^ 48 + a.n.slot * 2 ^ 40 + a.named.desig * 2 ^ 20) ∧
    (a.x.core.phase = .halted → a.x.live = true → a.x.term = none → ∃ y, t.fens[a.f]? = some y ∧ y.state = 7 ∧
      y.term = some (5, reason))) ∧
  (∀ (s : State) (a : NodeAt) (v : Fire) (st : NodeSt), s.Turn a → a.rings.Nodup → v.take.Nodup →
    (∀ j h, a.inp j = .ring h → 0 < Ring.n (a.ring h)) → (s.fire a v st).ringHeld a = false)

/-! ## Nodes: vector, matrix, controllers -/

/-- R229 to R232, R234, R235, R221: vcmp's mask and predicate, sel by token and by lane, cvt with its scales and its packing,
vperm, vred, vscan and vbcast. The status of running values is the model's reading (log entry 137). -/
def Obligations.VectorShapes : Prop :=
  ∀ (s : State) (a : NodeAt) (n : NodeHdr) (b0 b1 b2 tk : Beat),
    let w := Fmt.bits n.fmt
    let l := 256 / w
    let x : Beat → Nat → Nat := fun b => lane w b.data
    let mem := a.n.mem
    let run : Nat → Nat := fun i => ((mem.vals[i]?).getD 0).toNat % 2 ^ w
    (∀ cc any, a.n.ins = .vcmp n cc any → s.Ready a [0, 1] [b0, b1] →
      let c : Nat → Bool := fun i => condOf n.fmt cc.toNat (x b0 i) (x b1 i)
      ∃ y, (∀ i, i < l → lane w y i = if c i then 2 ^ w - 1 else 0) ∧
        Fires s a ⟨[0, 1], true, (if a.hasOut 0 then [(0, dataBeat y)] else []) ++
          (if a.hasOut 1 then [(1, reedTok (if any then (List.range l).any c else (List.range l).all c))] else []), 0, id⟩ .firing) ∧
    (a.n.ins = .sel n → a.tokenIn 2 = true → s.offer a 2 = .streamed tk → s.Ready a [0, 1] [b0, b1] →
      Fires s a ⟨[0, 1, 2], true, [(0, dataBeat (if tk.val then b0.data else b1.data))], 0, id⟩ .firing) ∧
    (a.n.ins = .sel n → a.tokenIn 2 = false → s.Ready a [0, 1, 2] [b0, b1, b2] →
      FiresLanes s a [0, 1, 2] w (fun i => (if x b2 i ≠ 0 then x b0 i else x b1 i, 0))) ∧
    (∀ sf st dt, a.n.ins = .cvtNode n sf st dt →
      let idx := List.range (256 / Fmt.bits sf)
      let r : Nat → Rslt := fun i =>
        let v := valueOf sf (lane (Fmt.bits sf) b0.data i)
        let v := if sf.isInt then v else v.scale (Tensor.scale ((a.n.tens[0]?).getD 0))
        convertVal (if n.fmt.isInt then v else v.scale (-(Tensor.scale ((a.n.tens[1]?).getD 0)))) sf.isInt n.fmt n.rm.toNat n.sat
      (s.Ready a [0] [b0] →
        ∃ put m, Fires s a ⟨[0], true, put, idx.foldl (fun o i => o ||| (r i).2) 0, m⟩ .firing ∧
          (∀ p ∈ put, p.1 = 0 ∧ p.2.typ = 0) ∧ (m mem).pack0.length < l ∧
          lanesPut w 0 put ++ waiting w (m mem).pack0 = waiting w mem.pack0 ++ idx.map (fun i => (r i).1 % 2 ^ w)) ∧
      (s.Control a b0 → mem.pack0.length < l →
        ∃ y m, Fires s a ⟨[0], false, (if mem.pack0 = [] then [] else [(0, { dataBeat y with poison := mem.bad })]) ++
            [(0, { b0 with tag := none })], 0, m⟩
          .firing ∧ (m mem).pack0 = [] ∧ ∀ i, i < l → lane w y i = ((waiting w mem.pack0)[i]?).getD 0)) ∧
    (a.n.ins = .vperm n → s.Ready a [0, 1] [b0, b1] →
      ∃ y, (∀ j, j < 32 → lane 8 y j = if lane 8 b1.data j / 128 = 1 then 0 else lane 8 b0.data (lane 8 b1.data j % 32)) ∧
        Fires s a ⟨[0, 1], true, [(0, dataBeat y)], 0, id⟩ .firing) ∧
    (∀ op lvl, a.n.ins = .vred n op lvl →
      let g := reduceOp n.fmt op.toNat n.rm.toNat
      (n.var = 0#4 → s.Ready a [0] [b0] →
        let r := treeOf g (Nat.log2 l) (x b0)
        ∃ y, (∀ i, i < l → lane w y i = if i = 0 then r.1 % 2 ^ w else 0) ∧
          Fires s a ⟨[0], true, [(0, dataBeat y)], r.2, id⟩ .firing) ∧
      (n.var ≠ 0#4 → s.Ready a [0] [b0] → (mem.b0 = true → mem.vals.length = l) →
        let r : Nat → Rslt := fun i => if mem.b0 then g ((mem.vals[i]?).getD 0).toNat (x b0 i) else (x b0 i, 0)
        ∃ m, Fires s a ⟨[0], true, [], (List.range l).foldl (fun o i => o ||| (r i).2) 0, m⟩ .firing ∧
          (m mem).b0 = true ∧ (m mem).vals = (List.range l).map (fun i => BitVec.ofNat 64 (r i).1)) ∧
      (s.Control a b0 → n.var = 0#4 ∨ ¬endsSegment lvl.toNat b0 → Fires s a ⟨[0], false, [(0, b0)], 0, id⟩ .firing) ∧
      (s.Control a b0 → n.var ≠ 0#4 → endsSegment lvl.toNat b0 →
        (mem.b0 = true → mem.vals.length = l ∧ ∀ v ∈ mem.vals, v.toNat < 2 ^ w) →
        let r := treeOf g (Nat.log2 l) run
        let whole := n.var = 2#4 ∧ mem.b0 = true
        let out : Nat → Rslt := fun i => writtenOf n.fmt (run i)
        ∃ y m, (∀ i, i < l → lane w y i = if whole then (if i = 0 then r.1 % 2 ^ w else 0) else if mem.b0 then (out i).1 % 2 ^ w else 0) ∧
          Fires s a ⟨[0], false, [(0, { dataBeat y with poison := mem.bad }), (0, b0)],
            if whole then r.2 else if mem.b0 then (List.range l).foldl (fun o i => o ||| (out i).2) 0 else 0, m⟩ .firing ∧
          (m mem).b0 = false)) ∧
    (∀ op lvl, a.n.ins = .vscan n op lvl →
      let carry := if n.var = 1#4 ∧ mem.b0 = true then some ((mem.vals[0]?).getD 0).toNat else none
      let r := prefixOf n.fmt (reduceOp n.fmt op.toNat n.rm.toNat) carry (x b0)
      (s.Ready a [0] [b0] →
        ∃ y m, (∀ i, i < l → lane w y i = (r i).1 % 2 ^ w) ∧
          Fires s a ⟨[0], true, [(0, { dataBeat y with poison := b0.poison || (n.var == 1#4 && mem.bad) })], (r (l - 1)).2, m⟩ .firing ∧
          (n.var = 1#4 → (m mem).b0 = true ∧ (m mem).vals = [BitVec.ofNat 64 (r (l - 1)).1]) ∧ (n.var ≠ 1#4 → m mem = mem)) ∧
      (s.Control a b0 →
        ∃ m, Fires s a ⟨[0], false, [(0, b0)], 0, m⟩ .firing ∧ (m mem).b0 = (if endsSegment lvl.toNat b0 then false else mem.b0))) ∧
    (∀ elem, a.n.ins = .vbcast n elem → elem.toNat < l → s.Ready a [0] [b0] →
      FiresLanes s a [0] w (fun _ => (x b0 elem.toNat, 0)))

/-- R236, R237, R70, R72: an MMA firing accumulates its products onto C, onto zero, or onto what earlier firings left, and
the last firing of an output writes D, scaled and converted. -/
def Obligations.MmaFirings : Prop :=
  ∀ (s : State) (a : NodeAt) (n : NodeHdr) (m : MatHdr) (km1 : BitVec 16) (cin : Bool) (acc : Fmt) (ds : List Fmt),
    a.n.ins = .mma n m km1 cin → mmaFormats (Tensor.fmt (a.tensor 0)) (Tensor.fmt (a.tensor 1)) = some (acc, ds) →
    let mem := a.n.mem
    let first := mem.n0 = 0
    s.MatReady a (if cin = true ∧ first then [0, 1, 2] else [0, 1]) → (¬first → mem.acc0.length = 1024) →
    let fa := landFmt (Tensor.fmt (a.tensor 0))
    let fb := landFmt (Tensor.fmt (a.tensor 1))
    let rm := n.rm.toNat
    let p := if fa = .bf16 ∨ fa = .f16 then 4 else if fa = .f64 ∨ fa = .f32 then 1 else 8
    let x : Nat → Nat → Nat := fun i k => s.tileEl a 0 (if n.var.toNat % 2 = 1 then 32 * k + i else 32 * i + k)
    let y : Nat → Nat → Nat := fun k j => s.tileEl a 1 (if n.var.toNat / 2 % 2 = 1 then 32 * j + k else 32 * k + j)
    let old : Nat → Nat := fun k => ((mem.acc0[k]?).getD 0).toNat
    let e : Nat → Rslt := fun k =>
      let i := k / 32
      let j := k % 32
      if fa.isInt then
        let c := if first then (if cin then intOf .i32 (s.tileEl a 2 k) else 0) else intOf .i32 (old k)
        (wrapN 32 (c + ((List.range 32).map (fun l => intOf fa (x i l) * intOf fb (y l j))).sum), 0)
      else
        let c := if first then (if cin then (floatVal acc (s.tileEl a 2 k)).scale (Tensor.scale (a.tensor 2)) else .num false 0 0)
          else floatVal acc (old k)
        mmSteps acc rm p (Tensor.scale (a.tensor 0) + Tensor.scale (a.tensor 1)) (32 / p) c
          ((List.range 32).map (fun l => (floatVal fa (x i l), floatVal fb (y l j))))
    (mem.n0 ≠ km1.toNat → ∃ t n', exec a.n.ins s = .next t ∧ t.nodeOf a = some n' ∧ n'.mem.acc0 = kept (fun k => (e k).1) ∧
      n'.mem.n0 = mem.n0 + 1 ∧ n'.mem.osw = mem.osw ||| statusOf e ∧ StoredAll s t []) ∧
    (∀ h, mem.n0 = km1.toNat → a.tileTo 0 (landSize (Tensor.fmt (a.tensor 3))) h →
      let d : Nat → Rslt := fun k => if fa.isInt then ((e k).1, 0) else outOf acc (a.tensor 3) rm n.sat (e k).1
      WritesTile s a m h (landSize (Tensor.fmt (a.tensor 3))) (fun k => (d k).1) (mem.osw ||| statusOf e ||| statusOf d)
        (mem.n3 + 1) 0 (fun _ n' => n'.mem.n0 = 0 ∧ n'.mem.acc0 = []))

/-- R236, R239 to R242, R65, R74, R396: MTRN transposes; MPOLY loads its tile and makes one step of its products a turn, each
rounding once, by Horner's rule; MITER loads its tiles, makes one step of an iteration a turn, and ends with DIVERGED, with
CAP_HIT or at its tolerance, with its count and residual in the record. A tile as it was loaded is taken times 2^SCALE exactly.
The status of the residual and what a turn performs are the model's reading (log entries 40 and 41). -/
def Obligations.TileFunctions : Prop :=
  ∀ (s : State) (a : NodeAt) (n : NodeHdr) (m : MatHdr),
    let mem := a.n.mem
    let rm := n.rm.toNat
    let wide : Nat → Nat → Nat := fun j k => (convertVal (floatVal (landFmt (Tensor.fmt (a.tensor j))) (s.tileEl a j k)) false .f32 0 false).1
    let z := landSize (Tensor.fmt (a.tensor 3))
    let unit : Nat → Val := fun e => .num false (if e / 32 = e % 32 then 1 else 0) 0
    let coef : Nat → Val := fun k => floatVal .f32 (a.coef k)
    let el : List (BitVec 64) → Nat → Val := fun l e => floatVal .f32 ((l[e]?).getD 0).toNat
    (∀ h, a.n.ins = .mtrn n m → s.MatReady a [0] → a.tileTo 0 z h →
      WritesTile s a m h z (fun k => s.tileEl a 0 (32 * (k % 32) + k / 32)) mem.osw (mem.n3 + 1) 0 (fun _ _ => True)) ∧
    (∀ deg, a.n.ins = .mpoly n m deg →
      (s.MatReady a [0] → LoopStep s a 0 (fun q => q.b0 = true ∧ q.n0 = deg.toNat ∧ q.n2 = 0 ∧ q.temp = [kept (wide 0)] ∧
        q.acc0 = kept (fun e => (encodeF .f32 ((coef deg.toNat).mul (unit e))).1))) ∧
      (∀ x, s.InLoop a → mem.n0 ≠ 0 → mem.n2 < 32 → mem.temp = [x] → x.length = 1024 → mem.acc0.length = 1024 →
        (mem.n2 ≠ 0 → mem.acc1.length = 1024) →
        let r : Nat → Rslt := fun e => finishF .f32 rm false (sumVals rm
          [if mem.n2 = 0 then (coef (mem.n0 - 1)).mul (unit e) else el mem.acc1 e,
           (el mem.acc0 (32 * (e / 32) + mem.n2)).mul ((el x (32 * mem.n2 + e % 32)).scale (Tensor.scale (a.tensor 0)))])
        LoopStep s a (statusOf r) (fun q => q.temp = [x] ∧
          (mem.n2 = 31 → q.n0 = mem.n0 - 1 ∧ q.n2 = 0 ∧ q.acc0 = kept (fun e => (r e).1)) ∧
          (mem.n2 ≠ 31 → q.n0 = mem.n0 ∧ q.n2 = mem.n2 + 1 ∧ q.acc0 = mem.acc0 ∧ q.acc1 = kept (fun e => (r e).1)))) ∧
      (∀ h, s.InLoop a → mem.n0 = 0 → mem.acc0.length = 1024 → a.tileTo 0 z h →
        let d : Nat → Rslt := fun k => scaledOf (a.tensor 3) rm n.sat ((mem.acc0[k]?).getD 0).toNat
        WritesTile s a m h z (fun k => (d k).1) (mem.osw ||| statusOf d) (mem.n3 + 1) 0 (fun _ q => q.mem.b0 = false))) ∧
    (∀ cap tol lim tdiv, a.n.ins = .miter n m cap tol lim tdiv →
      let scale : Nat → Int := fun t =>
        if n.var = 1#4 ∧ t = 1 then Tensor.scale (a.tensor 2)
        else if mem.n0 = 0 ∧ ((t = 0 ∧ n.var ≠ 2#4) ∨ (t = 1 ∧ n.var = 2#4)) then Tensor.scale (a.tensor 0) else 0
      let v : Nat → Nat → Val := fun t e => (floatVal .f32 (((mem.tile t)[e]?).getD 0)).scale (scale t)
      let k := mem.n2 % 32
      let whole : Nat → Prop := fun t => (mem.tile t).length = 1024
      (loopOps 0 = [.prod 2 0 0 true, .prod 3 2 0 false, .comb 3 3 0, .resid 3] ∧
       loopOps 1 = [.prod 2 1 0 false, .less 2 2, .prod 3 0 2 false, .resid 3] ∧
       loopOps 2 = [.prod 2 0 1 false, .less 2 2, .times 2 2, .prod 4 1 2 false, .prod 3 2 0 false, .resid 3]) ∧
      (s.MatReady a (if n.var = 1#4 then [0, 2] else [0]) →
        LoopStep s a 0 (fun q => q.b0 = true ∧ q.n0 = 0 ∧ q.n2 = 0 ∧
          q.acc0 = kept (if n.var = 2#4 then (fun e => if e / 32 = e % 32 then 0x3F800000 else 0) else wide 0) ∧
          (n.var ≠ 0#4 → q.acc1 = kept (wide (if n.var = 1#4 then 2 else 0))))) ∧
      (s.InLoop a → mem.temp.length = 3 → ∀ op, (loopOps n.var.toNat)[mem.n2 / 32]? = some op →
        let steps : Nat → (Nat → Rslt) → BitVec 32 → Prop := fun d r osw => LoopStep s a osw (fun q => q.n2 = mem.n2 + 1 ∧
          q.n0 = mem.n0 ∧ (q.tile d).length = 1024 ∧ (∀ e, e < 1024 → (q.tile d)[e]? = some ((r e).1 % 2 ^ 64)) ∧
          ∀ t, t ≠ d → t < 5 → q.tile t = mem.tile t)
        match op with
        | .prod d p g tr => whole p → whole g → (k ≠ 0 → whole d) →
          let r : Nat → Rslt := fun e => finishF .f32 rm false (sumVals rm [if k = 0 then .num false 0 0 else v d e,
            (v p (32 * (e / 32) + k)).mul (v g (if tr then 32 * (e % 32) + k else 32 * k + e % 32))])
          steps d r (statusOf r)
        | .comb d p g => whole d → whole p → whole g →
          let x : Nat → Rslt := fun e => finishF .f32 rm false ((coef 0).mul (v g e))
          let y : Nat → Rslt := fun e => finishF .f32 rm false (fmaVal rm (coef 1) (v p e) (floatVal .f32 (x e).1))
          steps d (fun e => if e / 32 = k then y e else (((mem.tile d)[e]?).getD 0, 0))
            ((List.range 32).foldl (fun o j => o ||| ((x (32 * k + j)).2 ||| (y (32 * k + j)).2)) 0)
        | .less d p => whole d → whole p →
          let y : Nat → Rslt := fun e => finishF .f32 rm false (sumVals rm [(coef 0).mul (unit e), (v p e).neg])
          steps d (fun e => if e / 32 = k then y e else (((mem.tile d)[e]?).getD 0, 0))
            ((List.range 32).foldl (fun o j => o ||| (y (32 * k + j)).2) 0)
        | .times d p => whole d → whole p →
          let y : Nat → Rslt := fun e => finishF .f32 rm false ((coef 1).mul (v p e))
          steps d (fun e => if e / 32 = k then y e else (((mem.tile d)[e]?).getD 0, 0))
            ((List.range 32).foldl (fun o j => o ||| (y (32 * k + j)).2) 0)
        | .resid p => whole p → whole 0 →
          let r : Rslt := (List.range 32).foldl (fun u j =>
            let x := finishF .f32 0 false (sumVals 0 [v p (32 * k + j), (v 0 (32 * k + j)).neg])
            let y := fmaF .f32 0 x.1 x.1 u.1
            (y.1, u.2 ||| x.2 ||| y.2)) (if k = 0 then 0 else mem.n1, 0)
          LoopStep s a r.2 (fun q => q.n2 = mem.n2 + 1 ∧ q.n0 = mem.n0 ∧ q.n1 = r.1 ∧ ∀ t, t < 5 → q.tile t = mem.tile t)) ∧
      (s.InLoop a → (loopOps n.var.toNat)[mem.n2 / 32]? = none →
        let sq : BitVec 32 → Val := fun v => floatVal .f32 (mulF .f32 0 v.toNat v.toNat).1
        let res := floatVal .f32 mem.n1
        let div := res.isNan || (sq lim).lt res
        let conv := !div && (res.lt (sq tol) || res.eqv (sq tol))
        let hit := !div && !conv && mem.n0 + 1 == cap.toNat
        let told := (if div then Osw.diverged else 0) ||| (if hit then Osw.capHit else 0)
        let out : Nat → Nat → Nat → Rslt := fun j t k => scaledOf (a.tensor j) rm n.sat (((mem.tile t)[k]?).getD 0)
        (div = false → conv = false → hit = false → LoopStep s a 0 (fun q => q.b0 = true ∧ q.n0 = mem.n0 + 1 ∧ q.n2 = 0 ∧
          q.tile 0 = mem.tile 3 ∧ q.tile 1 = (if n.var = 2#4 then mem.tile 4 else mem.tile 1))) ∧
        (∀ h, div = true ∨ conv = true ∨ hit = true → (n.var ≠ 2#4 ∨ a.hasOut 1 = false) → a.tileTo 0 z h → whole 3 →
          WritesTile s a m h z (fun k => (out 3 3 k).1) (mem.osw ||| told ||| statusOf (out 3 3)) (mem.n0 + 1) mem.n1
            (fun _ q => q.mem.b0 = false ∧ q.mem.b2 = (div && tdiv))) ∧
        (∀ h h1, div = true ∨ conv = true ∨ hit = true → n.var = 2#4 → a.tileTo 0 z h →
          a.tileTo 1 (landSize (Tensor.fmt (a.tensor 4))) h1 → h ≠ h1 → whole 3 → whole 4 →
          let all := mem.osw ||| told ||| statusOf (out 3 3) ||| statusOf (out 4 4)
          ∃ t q, exec a.n.ins s = .next t ∧ t.nodeOf a = some q ∧
            StoredAll s t (a.slotBytes h z (fun k => (out 3 3 k).1) ::
              a.slotBytes h1 (landSize (Tensor.fmt (a.tensor 4))) (fun k => (out 4 4 k).1) :: a.record m (mem.n0 + 1) mem.n1 all) ∧
            Pushed t a h ∧ Pushed t a h1 ∧ OutputDone a m all q ∧ q.mem.b0 = false ∧ q.mem.b2 = (div && tdiv))))

/-- R243, R57: MSORT collects pairs, sends each group of 64 sorted, best or worst first with equivalent pairs in their order and
NaN scores last, and closes a partial group at a control beat with pad pairs. -/
def Obligations.SortGroups : Prop :=
  ∀ (s : State) (a : NodeAt) (n : NodeHdr) (m : MatHdr) (b : Beat), a.n.ins = .msort n m →
    a.n.mem.b0 = false → a.n.mem.b1 = false →
    let l := a.n.mem.vals
    let past : BitVec 64 → BitVec 64 → Bool := fun p q => if n.var = 1#4 then !kiNan p && (kiNan q || kiAbove q p) else kiAbove p q
    let sorted : List (BitVec 64) → List (Nat × Beat) → Prop := fun g put => ∃ o : List (BitVec 64), o.Perm g ∧
      o.Pairwise (fun p q => past q p = false) ∧
      (∀ p, o.filter (fun q => !past p q && !past q p) = g.filter (fun q => !past p q && !past q p)) ∧
      (∀ q ∈ put, q.1 = 0 ∧ q.2.typ = 0) ∧
      lanesPut 64 0 put = o.map BitVec.toNat ++ List.replicate ((4 - g.length % 4) % 4) (0xFFFFFFFF * 2 ^ 32 + 0x7FC00000)
    (s.Ready a [0] [b] →
      let all := l ++ (List.range 4).map (fun i => BitVec.ofNat 64 (lane 64 b.data i))
      (all.length < 64 → ∃ k, Fires s a ⟨[0], true, [], 0, k⟩ .firing ∧ (k a.n.mem).vals = all) ∧
      (64 ≤ all.length → ∃ k put, sorted all put ∧ Fires s a ⟨[0], true, put, 0, k⟩ .firing ∧ (k a.n.mem).vals = [] ∧ (k a.n.mem).b0 = true)) ∧
    (s.Control a b → ∃ k put, sorted l put ∧ Fires s a ⟨[0], false, put ++ [(0, b)], 0, k⟩ .firing ∧ (k a.n.mem).vals = [] ∧
      (k a.n.mem).b0 = !l.isEmpty)

/-- R244 to R246: a controller begins an activation, issues iterations up to its limit with their go tokens and commit
guards, counts done tokens and exit tokens, ends the activation, and traps with reason 5 on a token out of place. -/
def Obligations.ControllerTurns : Prop :=
  ∀ (s : State) (a : NodeAt) (n : NodeHdr) (cnt : BitVec 32) (dm1 : BitVec 4), s.Turn a → a.onWires →
    ∀ r ∈ [(Instr.cseq n cnt, 1), (.cpipe n cnt dm1, dm1.toNat + 1), (.cstrm n cnt, 2 ^ 32)], a.n.ins = r.1 →
    let mem := a.n.mem
    let exits := a.hasIn 3
    let comp := min (if a.hasIn 1 then mem.n1 else mem.n0) (min (if a.hasIn 2 then mem.n2 else mem.n0) mem.n0)
    let quiet := ∀ j ∈ [1, 2, 3], ∀ b, s.offer a j ≠ .streamed b
    let past := if mem.b1 then ((mem.vals[0]?).getD 0).toNat < comp else cnt ≠ 0#32 ∧ mem.n0 = cnt.toNat ∧ comp = cnt.toNat
    (quiet → mem.b0 = false → a.ending = false →
      (a.hasIn 0 = false → mem.begun = false →
        NodeTurn s a (fun k => k.mem.b0 = true ∧ k.mem.begun = true ∧ k.mem.n0 = 0 ∧ k.mem.n1 = 0 ∧ k.mem.n2 = 0 ∧ k.mem.n3 = 0)) ∧
      (∀ b, s.offer a 0 = .streamed b →
        NodeTurn s a (fun k => Took a k 0 ∧ k.mem.b0 = true ∧ k.mem.n0 = 0 ∧ k.mem.n1 = 0 ∧ k.mem.n2 = 0 ∧ k.mem.n3 = 0))) ∧
    (quiet → mem.b0 = true → mem.b1 = false → ¬past → cnt = 0#32 ∨ mem.n0 < cnt.toNat → mem.n0 - comp < r.2 → s.roomAll a = true →
      NodeTurn s a (fun k => k.mem.n0 = mem.n0 + 1 ∧ Sends a k 0 [reedTok true] ∧
        Sends a k 1 (if exits ∧ (mem.n0 = 0 ∨ mem.n0 ≤ mem.n3) then [reedTok true] else []))) ∧
    (quiet → mem.b0 = true → past →
      NodeTurn s a (fun k => k.mem.b0 = false ∧ Sends a k 1 (if exits then [] else [reedTok true]))) ∧
    (∀ b, s.offer a 1 = .streamed b → (∀ c, s.offer a 3 ≠ .streamed c) →
      (mem.n1 < mem.n0 → NodeTurn s a (fun k => Took a k 1 ∧ k.mem.n1 = mem.n1 + 1 ∧ k.mem.n2 = mem.n2 ∧ k.mem.n0 = mem.n0)) ∧
      (mem.n0 ≤ mem.n1 → comp = mem.n0 → TurnTo s a (((s.nodeTrap a 5).nodeSt a .firing).drainOwe a 8))) ∧
    (∀ b, s.offer a 2 = .streamed b → (∀ j ∈ [1, 3], ∀ c, s.offer a j ≠ .streamed c) → mem.n2 < mem.n0 →
      NodeTurn s a (fun k => Took a k 2 ∧ k.mem.n2 = mem.n2 + 1 ∧ k.mem.n1 = mem.n1 ∧ k.mem.n0 = mem.n0)) ∧
    (∀ b, s.offer a 3 = .streamed b →
      (mem.n0 ≤ mem.n3 → TurnTo s a (((s.nodeTrap a 5).nodeSt a .firing).drainOwe a 8)) ∧
      (mem.n3 < mem.n0 → NodeTurn s a (fun k => Took a k 3 ∧ k.mem.n3 = mem.n3 + 1 ∧
        (mem.b1 = true → Sends a k 1 []) ∧
        (mem.b1 = false → b.val = true → k.mem.b1 = true ∧ k.mem.vals = [BitVec.ofNat 64 mem.n3] ∧
          Sends a k 1 (List.replicate (mem.n0 - 1 - mem.n3) (reedTok false))) ∧
        (mem.b1 = false → b.val = false → k.mem.b1 = false ∧
          Sends a k 1 (if mem.n3 + 1 < mem.n0 then [reedTok true] else [])))))

/-- R247 to R249: STEER routes by its predicate, and once it has EXITED drops DATA beats, counts them and ends with DONE;
PRIME emits its primed beats, then forwards; SOURCE and COUNT emit their streams and END beats; SINK consumes, counts DONE
beats, and its report, when it is the last, ends the phase with the choice of R356. The last partial beat of COUNT with END 9 is the
model's reading (log entry 50). -/
def Obligations.StreamNodes : Prop :=
  ∀ (s : State) (a : NodeAt) (n : NodeHdr) (b tk : Beat),
    let mem := a.n.mem
    (a.n.ins = .steer n →
      (mem.b0 = false → s.Ready a [0] [b] → s.offer a 1 = .streamed tk →
        if tk.val then Fires s a ⟨[0, 1], true, [(0, dataBeat b.data)], 0, id⟩ .firing
        else ∃ m, Fires s a ⟨[0, 1], true, [(1, dataBeat b.data)], 0, m⟩ .firing ∧ (m mem).b0 = (n.var == 1#4)) ∧
      (mem.b0 = false → s.Control a b → Fires s a ⟨[0], false, if a.hasOut 1 then [(1, { b with tag := none })] else [], 0, id⟩ .firing) ∧
      (mem.b0 = true → (∀ c, s.offer a 1 ≠ .streamed c) →
        (s.Turn a → s.offer a 0 = .streamed b → b.typ = 0 →
          ∃ k, TurnTo s a ((s.updNode a.f a.k (fun _ => k)).updFen a.f (fun x => { x with dropped := x.dropped + 1 })) ∧ Took a k 0) ∧
        (s.Control a b → ∃ m, Fires s a ⟨[0], false, [(1, b)], 0, m⟩ .firing ∧ (m mem).b0 = (b.typ != 9)))) ∧
    (∀ nm1, a.n.ins = .prime n nm1 →
      (s.Turn a → mem.b0 = false → a.ending = false → a.hasIn 2 = false → mem.begun = false →
        NodeTurn s a (fun k => k.mem.b0 = true ∧ k.mem.n0 = nm1.toNat + 1 ∧ k.mem.begun = true)) ∧
      (∀ c, s.Turn a → mem.b0 = true → s.roomAll a = true → a.inp 1 = .const c →
        ∃ m, Fires s a ⟨[], false, [(0, dataBeat ((a.m.consts[c.toNat + (nm1.toNat + 1 - mem.n0)]?).getD 0))], 0, m⟩ .firing ∧
          (m mem).n0 = mem.n0 - 1 ∧ ((m mem).b0 = true ↔ 1 < mem.n0)) ∧
      (s.Turn a → mem.b0 = true → s.roomAll a = true → s.offer a 1 = .ring b →
        ∃ m, Fires s a ⟨[1], false, [(0, b)], 0, m⟩ .firing ∧ (m mem).n0 = mem.n0 - 1 ∧ ((m mem).b0 = true ↔ 1 < mem.n0)) ∧
      (mem.b0 = false → s.activation a 2 = none →
        (s.Ready a [0] [b] → Fires s a ⟨[0], true, [(0, dataBeat b.data)], 0, id⟩ .firing) ∧
        (s.Control a b → Fires s a ⟨[0], false, if a.hasOut 0 then [(0, { b with tag := none })] else [], 0, id⟩ .firing))) ∧
    (∀ nbeat e, a.n.ins = .source n nbeat e →
      (s.Turn a → mem.b0 = false → a.ending = false → a.hasIn 1 = false → mem.begun = false →
        NodeTurn s a (fun k => k.mem.b0 = true ∧ k.mem.n0 = 0 ∧ k.mem.begun = true)) ∧
      (mem.b0 = true → mem.n0 < nbeat.toNat → s.Ready a [0] [b] →
        ∃ m, Fires s a ⟨[0], true, [(0, dataBeat b.data)], 0, m⟩ .firing ∧ (m mem).n0 = mem.n0 + 1 ∧ (m mem).b0 = true) ∧
      (s.Turn a → mem.b0 = true → nbeat.toNat ≤ mem.n0 → s.roomAll a = true →
        ∃ m, Fires s a ⟨[], false, endOf e, 0, m⟩ .firing ∧ (m mem).b0 = false)) ∧
    (∀ cnt base step e, a.n.ins = .count n cnt base step e →
      let w := Fmt.bits n.fmt
      (s.Turn a → mem.b0 = false → a.ending = false → a.hasIn 0 = false → mem.begun = false →
        NodeTurn s a (fun k => k.mem.b0 = true ∧ k.mem.n0 = 0 ∧ k.mem.begun = true)) ∧
      (s.Turn a → mem.b0 = true → mem.n0 < cnt.toNat → s.roomAll a = true → a.goes →
        ∃ m y, Fires s a ⟨[], true, [(0, dataBeat y)], 0, m⟩ .firing ∧ (m mem).n0 = mem.n0 + min (256 / w) (cnt.toNat - mem.n0) ∧
          ∀ i, i < 256 / w → lane w y i =
            if mem.n0 + i < cnt.toNat then wrapN w (base.toInt + ((mem.n0 + i : Nat) : Int) * step.toInt) else 0) ∧
      (s.Turn a → mem.b0 = true → cnt.toNat ≤ mem.n0 → s.roomAll a = true →
        ∃ m, Fires s a ⟨[], false, endOf e, 0, m⟩ .firing ∧ (m mem).b0 = false)) ∧
    (∀ ndone, a.n.ins = .sink n ndone →
      let due := mem.b0 = false ∧ a.ending = false ∧ ndone.toNat ≤ mem.n0
      (¬due → s.Ready a [0] [b] → Fires s a ⟨[0], true, [], 0, id⟩ .firing) ∧
      (¬due → s.Control a b →
        ∃ m, Fires s a ⟨[0], false, [], 0, m⟩ .firing ∧ (m mem).n0 = mem.n0 + (if b.typ = 9 then 1 else 0)) ∧
      (due → s.Turn a → a.x.mantle = some a.m → ∃ t y k, exec a.n.ins s = .next t ∧ t.fens[a.f]? = some y ∧
        t.nodeOf a = some k ∧ k.mem.b0 = true ∧
        y.choice = if (a.m.nodes.zipIdx.all (fun q => !isSink q.1.ins || q.1.mem.b0 || q.2 == a.k)) then
            some (match a.x.pendSw, a.x.select with
              | some m, _ => some m
              | none, some (some m) => if a.x.loaded m then some m else none
              | none, _ => none)
          else none))

/-- R356, R357: a token captured at lane x13, x14 or x15 selects exit or a mantle; a switch drops beats of discardable edges,
waits for the others, and then starts the phase of the chosen mantle or ends the phases. That the first fen that can act is served
is the model's choice (log entry 55). -/
def Obligations.PhaseSteps : Prop :=
  ∀ (s : State) (f : Nat) (x : Fen),
    (∀ l v r, s.firstFen (fun x => x.live && x.term.isNone && !s.fenFrozen x && !x.selq.isEmpty) f x → x.selq = (l, v) :: r →
      let p := x.sel14 ++ (if l = 14 then [v] else [])
      let q := x.sel15 ++ (if l ≠ 13 ∧ l ≠ 14 then [v] else [])
      ∃ y, exec .selectToken s = .next (s.updFen f (fun _ => y)) ∧ y.selq = r ∧
        (l = 13 → y.select = (if v then some none else x.select) ∧ y.sel14 = x.sel14 ∧ y.sel15 = x.sel15) ∧
        (l ≠ 13 → p = [] ∨ q = [] → y.select = x.select ∧ y.sel14 = p ∧ y.sel15 = q) ∧
        (∀ c d p' q', l ≠ 13 → p = c :: p' → q = d :: q' →
          y.select = some (some ((if d then 2 else 0) + (if c then 1 else 0))) ∧ y.sel14 = p' ∧ y.sel15 = q')) ∧
    (∀ m, s.fens[f]? = some x → s.switchable f x = true → s.fenFrozen x = false →
      (∀ g y, g < f → s.fens[g]? = some y → s.switchable g y = true → s.fenFrozen y = true) → x.mantle = some m →
      let r := m.dropDisc
      ∃ y, exec .mantleSwitch s = .next (if x.spares ≠ [] ∧ y.spares = [] then (s.updFen f (fun _ => y)).unstick x.die x.part
          else s.updFen f (fun _ => y)) ∧ y.dropped = x.dropped + r.1 ∧ y.core = x.core ∧
        (r.2.drained = false → y.choice = x.choice ∧ y.cur = x.cur ∧ y.mantle = some r.2) ∧
        (∀ k, r.2.drained = true → x.choice = some (some k) → y.cur = k ∧ y.choice = none ∧ y.exited = false ∧ y.selq = []) ∧
        (r.2.drained = true → x.choice = some none → y.cur = x.cur ∧ y.choice = none ∧ y.exited = true))

/-! ## Nodes: memory, sparse, retrieval -/

/-- R250 to R252, R254, R291, R325: load, store and atom take a firing's four addresses into their window and perform their
accesses in order, the oldest first, with the order token after the last; a load's read behind an oldest that still waits for its
translation may be performed, and is delivered in its turn with its bytes as they stand then where they lie in the module (R297; log
entry 164); a read that was issued goes on where its translation led (R326); a false guard makes the firing emit its order token and do nothing
else; an address that is misaligned or is none traps the node with reason 3. When a store begins and which accesses go ahead are
the model's reading (log entries 128 and 141). -/
def Obligations.MemoryNodes : Prop :=
  ∀ (s : State) (a : NodeAt) (n : NodeHdr) (sc : BitVec 3) (op : BitVec 4) (b : Beat) (e : WinEl) (r : List WinEl),
    let mem := a.n.mem
    let z := Fmt.esize n.fmt
    let w := Fmt.bits n.fmt
    let two : Bool := n.var == 1#4
    let size := if two then 32 else z
    let piece := if two then 16 else z
    let word : Nat → Nat := fun k => ((mem.left1[k]?).getD 0).toNat
    let ordered := ∀ j ∈ a.orders, s.offer a j ≠ .empty
    let start : List Nat → Bool → (Nat → Nat → List Byte) → (Nat → List Byte) → Nat → Prop := fun ins two data cmp used =>
      ∃ m, Fires s a ⟨ins ++ a.orders, true, [], s.clampOf a sc, m⟩ .firing ∧ NewEls mem (m mem) b two data cmp ∧
        (m mem).left1 = mem.left1.drop used
    let order : List (Nat × Beat) := if a.hasOut 1 then [(1, reedTok true)] else []
    let out : Node → List Byte → Prop := fun k bs =>
      if two then (if e.off = 0 then Sends a k 0 [] ∧ k.mem.vals = [BitVec.ofNat 64 (leNat (bs.take 8)), BitVec.ofNat 64 (leNat (bs.drop 8))]
        else Sends a k 0 [⟨0, BitVec.ofNat 256 (((mem.vals[0]?).getD 0).toNat + ((mem.vals[1]?).getD 0).toNat * 2 ^ 64 + leNat bs * 2 ^ 128),
          e.tag, false⟩])
      else Packs a k w [leNat bs]
    (a.n.ins = .load n sc →
      (mem.win = [] → ordered →
        (s.Ready a [0] [b] → start [0] two (fun _ _ => []) (fun _ => []) 0 ∧
          ∃ m, Fires s a ⟨[0] ++ a.orders, true, [], s.clampOf a sc, m⟩ .firing ∧ ∀ d ∈ (m mem).win, d.tag = b.tag ∧ d.bad = b.poison) ∧
        (s.Offers a [0] [b] → a.off → Fires s a ⟨[0] ++ a.orders, true, order, 0, id⟩ .guarded)) ∧
      (∀ key, s.ElemAt a e r → s.Locates a e .read size piece key →
        NodeDoes s a 0 (fun t k => MemSame s t ∧ ElemDone a k e r ∧ out k (s.mem.getN key piece))) ∧
      (∀ bs o, s.HeadAt a e r → e.got = some (bs, o) → (∀ ph, e.home = some ph → ph.typ.leaves = true) →
        NodeDoes s a o (fun t k => MemSame s t ∧ ElemDone a k e r ∧ out k bs)) ∧
      (∀ bs ph, s.HeadAt a e r → e.got = some (bs, 0) → e.home = some ph → ph.typ.leaves = false →
        NodeDoes s a 0 (fun t k => MemSame s t ∧ ElemDone a k e r ∧ out k (s.mem.getN ph.key bs.length))) ∧
      (∀ ph, s.HeadAt a e r → e.got = none → e.home = some ph → ph.typ.leaves = false → e.addr.toNat % size = 0 →
        a.place e ≠ .none → a.place e ≠ .badTile → Readable s (a.elReq e) ph piece →
        NodeDoes s a 0 (fun t k => MemSame s t ∧ ElemDone a k e r ∧ out k (s.mem.getN ph.key piece))) ∧
      (∀ d r' va key, s.ElemAt a e r → r = d :: r' → d.got = none → d.home = none → d.bad = false → e.addr.toNat % size = 0 →
        a.place e = .global va → s.xlateFor a.x (a.elReq e) .read va = .wait s →
        (e.addr.toNat + e.off + piece ≤ d.addr.toNat + d.off ∨ d.addr.toNat + d.off + piece ≤ e.addr.toNat + e.off) →
        s.Locates a d .read size piece key →
        NodeDoes s a 0 (fun t k => MemSame s t ∧ (∃ ph, ph.key = key ∧ ph.typ.leaves = false ∧
            k.mem.win = e :: { d with got := some (s.mem.getN key piece, 0), home := some ph } :: r') ∧
          ∀ q, Sends a k q [])) ∧
      (s.ElemAt a e r → e.addr.toNat % size ≠ 0 ∨ a.place e = .none ∨ a.place e = .badTile → TurnTo s a (s.nodeTrap a 3))) ∧
    (a.n.ins = .store n sc →
      let need := if two then 16 else 4
      let lw := if two then 64 else w
      (mem.win = [] → mem.left1.length < need → ∀ d, s.Offers a [0, 1] [b, d] →
        ∃ m, TurnTo s a (((s.take a 1).2.nodeStatus a (s.take a 1).1).updMemOf a m) ∧
          (m mem).left1 = mem.left1 ++ (List.range (256 / lw)).map (fun i => BitVec.ofNat 64 (lane lw d.data i))) ∧
      (mem.win = [] → need ≤ mem.left1.length → ordered →
        (s.Ready a [0] [b] → start [0] two (fun i o =>
          if two then toLE 8 (word (4 * i + o / 8)) ++ toLE 8 (word (4 * i + o / 8 + 1)) else toLE (w / 8) (word i)) (fun _ => []) need) ∧
        (s.Offers a [0] [b] → a.off →
          ∃ m, Fires s a ⟨[0] ++ a.orders, true, order, 0, m⟩ .guarded ∧ (m mem).left1 = mem.left1.drop need ∧ (m mem).win = [])) ∧
      (∀ key, s.ElemAt a e r → e.data.length = piece → s.Locates a e .write size piece key →
        NodeDoes s a 0 (fun t k => ElemDone a k e r ∧ Stored s t key e.data))) ∧
    (a.n.ins = .atom n sc op → a.n.clone = false →
      (mem.win = [] → ordered → ∀ v, s.Ready a [0, 1] [b, v] → op ≠ 7#4 →
        start [0, 1] false (fun i _ => toLE z (lane w v.data i)) (fun _ => toLE z 0) 0) ∧
      (mem.win = [] → ordered → ∀ v c, s.Ready a [0, 1, 2] [b, v, c] → op = 7#4 →
        start [0, 1, 2] false (fun i _ => toLE z (lane w v.data i)) (fun i => toLE z (lane w c.data i)) 0) ∧
      (∀ key, s.ElemAt a e r → s.Locates a e .rmw z z key →
        let old := leNat (s.mem.getN key z)
        let q := atomOp n.fmt op.toNat old (leNat e.data) (leNat e.cmp)
        NodeDoes s a q.2 (fun t k => ElemDone a k e r ∧ Packs a k w [old] ∧ Stored s t key (toLE z q.1))))

/-- R253, R255, R256, R397, R223: ldfe waits for full, reads and, in VAR 1, clears; stfe waits for empty, writes and sets full; an
address in global memory traps them with reason 4; ojoin joins order tokens, under a false guard as well; rdring and wrring move
beats from and to ring slots, and a closing control beat completes wrring's slot with zeros. The guard
token of ojoin is the model's reading (log entry 138). -/
def Obligations.TaggedAndRingNodes : Prop :=
  ∀ (s : State) (a : NodeAt) (n : NodeHdr) (sc : BitVec 3) (b : Beat) (e : WinEl) (r : List WinEl) (t : Tile) (o : Nat),
    let mem := a.n.mem
    let z := Fmt.esize n.fmt
    let w := Fmt.bits n.fmt
    let key := keyScratch t o
    let here : Acc → Prop := fun acc => a.place e = .scratch t o ∧ s.Locates a e acc z z key
    let word : Nat → Nat := fun k => ((mem.left1[k]?).getD 0).toNat
    let ordered := ∀ j ∈ a.orders, s.offer a j ≠ .empty
    (a.n.ins = .ldfe n sc →
      (mem.win = [] → ordered → s.Ready a [0] [b] →
        ∃ m, Fires s a ⟨[0] ++ a.orders, true, [], s.clampOf a sc, m⟩ .firing ∧
          NewEls mem (m mem) b false (fun _ _ => []) (fun _ => [])) ∧
      (s.ElemAt a e r → here .read →
        (s.mem.isFull (key / 16) = true → NodeDoes s a 0 (fun u k => ElemDone a k e r ∧ Packs a k w [leNat (s.mem.getN key z)] ∧
          u.mem.cells = s.mem.cells ∧ ∀ g, u.mem.isFull g = if n.var = 1#4 ∧ g = key / 16 then false else s.mem.isFull g)) ∧
        (s.mem.isFull (key / 16) = false → s.mayBegin a = false → TurnTo s a (s.nodeSt a .firing)))) ∧
    (a.n.ins = .stfe n sc →
      (mem.win = [] → ordered → s.Ready a [0] [b] → 4 ≤ mem.left1.length →
        ∃ m, Fires s a ⟨[0] ++ a.orders, true, [], s.clampOf a sc, m⟩ .firing ∧
          NewEls mem (m mem) b false (fun i _ => toLE (w / 8) (word i)) (fun _ => []) ∧ (m mem).left1 = mem.left1.drop 4) ∧
      (s.ElemAt a e r → here .write → e.data.length = z →
        (s.mem.isFull (key / 16) = false → NodeDoes s a 0 (fun u k => ElemDone a k e r ∧ Stored s u key e.data ∧
          ∀ g, u.mem.isFull g = if g = key / 16 then true else s.mem.isFull g)) ∧
        (s.mem.isFull (key / 16) = true → s.mayBegin a = false → TurnTo s a (s.nodeSt a .firing)))) ∧
    (∀ va, a.n.ins = .ldfe n sc ∨ a.n.ins = .stfe n sc → s.ElemAt a e r → a.place e = .global va → e.addr.toNat % z = 0 →
      TurnTo s a (s.nodeTrap a 4)) ∧
    (a.n.ins = .ojoin n sc → s.Turn a →
      let ins := [0, 1, 2].filter a.hasIn
      (ins ≠ [] → (∀ j ∈ ins, s.offer a j ≠ .empty) → s.roomAll a = true →
        (a.goes → Fires s a ⟨ins, true, [(0, reedTok true)], s.clampOf a sc, id⟩ .firing) ∧
        (a.off → Fires s a ⟨ins, true, [(0, reedTok true)], 0, id⟩ .guarded)) ∧
      ((∃ j ∈ ins, s.offer a j = .empty) ∨ a.guardTok = some .empty → TurnTo s a (s.nodeSt a .idle))) ∧
    (a.n.ins = .rdring n sc → s.Ready a [0] [b] →
      Fires s a ⟨[0], true, [(0, dataBeat b.data)], s.clampOf a sc, id⟩ .firing) ∧
    (∀ close, a.n.ins = .wrring n sc close →
      let used := (mem.opos[0]?).getD 0
      (s.Ready a [0] [b] → Fires s a ⟨[0], true, [(0, dataBeat b.data)], s.clampOf a sc, id⟩ .firing) ∧
      (∀ h, s.Turn a → s.memOk → s.offer a 0 = .streamed b → b.typ ≠ 0 → (b.typ = 9 → s.outRoom a a.n 1 = true) →
        a.outp 0 = .ring h → (∀ h', a.outp 1 ≠ .ring h') → a.n.outq.length = 2 →
        (used = 0 ∨ ¬endsSegment close.toNat b →
          NodeTurn s a (fun k => Took a k 0 ∧ Sends a k 1 (if b.typ = 9 then [reedTok true] else []))) ∧
        (used ≠ 0 → endsSegment close.toNat b →
          let d := a.ring h
          let from' := min (32 * used) (Ring.bytes d)
          ∃ u k, exec a.n.ins s = .next u ∧ u.nodeOf a = some k ∧ (k.mem.opos[0]?).getD 0 = 0 ∧ Pushed u a h ∧
            StoredAll s u [(a.x.slotKey d (Ring.tail d) + from', List.replicate (Ring.bytes d - from') 0)])))

/-- R258 to R265: the level scan and the combinators, entry by entry: fscan opens a fibre of a reference, emits its entries
and ends it with its stop; isect and union advance by coordinate; repeat gives one value to every entry of a fibre; sred
reduces each fibre to one entry. The status of running values and of values that an operation passes on is the model's reading (log
entries 127 and 137). -/
def Obligations.StreamCombinators : Prop :=
  ∀ (s : State) (a : NodeAt) (n : NodeHdr) (x y : Nat) (b c : Beat), s.Items a 64 →
    let mem := a.n.mem
    let held := ((mem.vals[0]?).getD 0).toNat
    (∀ po co cnt, a.n.ins = .fscan n po co cnt →
      let v := n.var.toNat
      let dense := v / 2 % 2 = 1
      let r := if v / 4 % 2 = 1 then crdOf x else x % 2 ^ 32
      let at' : Nat → Nat := fun o => leNat (s.mem.getN (keyScratch a.n.tile o) 4)
      let ptr : Nat → Nat := fun k => 16 * po.toNat + 4 * k
      let fits := dense ∨ ptr (cnt.toNat + 1) ≤ 0x80000
      (s.item a 0 = .ent x → mem.b0 = false → mem.b1 = false →
        (dense → Steps s a [] 0 (fun k => k.n0 = 0 ∧ k.n1 = cnt.toNat ∧ k.n3 = r ∧ (k.b0 = true ↔ 0 < cnt.toNat) ∧ k.b1 = true ∧
          k.left0 = mem.left0.drop 1)) ∧
        (¬dense → fits → r < cnt.toNat → s.Clean → s.nodeFeWaits (.scratch a.n.tile (ptr r)) true = false →
          s.nodeFeWaits (.scratch a.n.tile (ptr (r + 1))) true = false →
          Steps s a [] (if at' (ptr (r + 1)) < at' (ptr r) then 0x1000 else 0) (fun k => k.n0 = at' (ptr r) ∧
            k.n1 = at' (ptr (r + 1)) ∧ (k.b0 = true ↔ at' (ptr r) < at' (ptr (r + 1))) ∧ k.b1 = true ∧ k.left0 = mem.left0.drop 1)) ∧
        (¬dense → fits → cnt.toNat ≤ r → Steps s a [] 0x1000 (fun k => k.b0 = false ∧ k.b1 = true ∧ k.left0 = mem.left0.drop 1))) ∧
      (fits → mem.b0 = true → (∀ d, s.item a 0 = .ctl d → d.typ ≠ 10) →
        (dense → Steps s a [] 0 (fun k =>
          Emitted mem k 0 64 [pairOf mem.n0 (mem.n3 * cnt.toNat + mem.n0)] ∧ k.n0 = mem.n0 + 1 ∧ (k.b0 = true ↔ mem.n0 + 1 < mem.n1))) ∧
        (let o := 16 * co.toNat + 4 * mem.n0
         ¬dense → o + 4 ≤ 0x80000 → s.Clean →
          s.nodeFeWaits (.scratch a.n.tile o) true = false →
          Steps s a [] 0 (fun k => Emitted mem k 0 64 [pairOf (at' o) mem.n0] ∧ k.n0 = mem.n0 + 1 ∧
            (k.b0 = true ↔ mem.n0 + 1 < mem.n1)))) ∧
      (mem.b0 = false → fits →
        (s.item a 0 = .ent x → mem.b1 = true → Steps s a [] 0 (fun k => Ended mem k 0 64 holeOf [] [ctlBeat 1] ∧ k.b1 = false)) ∧
        (s.item a 0 = .ctl b → 1 ≤ b.typ → b.typ ≤ 8 → Steps s a [0] (if b.typ = 8 then 0x1000 else 0) (fun k =>
          Ended mem k 0 64 holeOf [] [ctlBeat (min (b.typ + 1) 8)] ∧ k.b1 = false)))) ∧
    (a.n.ins = .isect n →
      (s.item a 0 = .ent x → s.item a 1 = .ent y →
        (crdOf x = crdOf y → Steps s a [] 0 (fun k => Emitted mem k 0 64 [x] ∧ Emitted mem k 1 64 [y] ∧
          k.left0 = mem.left0.drop 1 ∧ k.left1 = mem.left1.drop 1)) ∧
        (crdOf x < crdOf y → Steps s a [] 0 (fun k => k.owe = [] ∧ k.left0 = mem.left0.drop 1 ∧ k.left1 = mem.left1)) ∧
        (crdOf y < crdOf x → Steps s a [] 0 (fun k => k.owe = [] ∧ k.left0 = mem.left0 ∧ k.left1 = mem.left1.drop 1))) ∧
      (s.item a 0 = .ent x → s.item a 1 = .ctl c → c.typ ≠ 10 →
        Steps s a [] 0 (fun k => k.owe = [] ∧ k.left0 = mem.left0.drop 1)) ∧
      (s.item a 0 = .ctl b → s.item a 1 = .ctl c → b.typ ≠ 10 → c.typ ≠ 10 →
        (b.typ = c.typ → Steps s a [0, 1] 0 (fun k => Ended mem k 0 64 holeOf [] [b] ∧ Ended mem k 1 64 holeOf [] [b])) ∧
        (b.typ ≠ c.typ → TurnTo s a (s.nodeTrap a 1)))) ∧
    (∀ op, a.n.ins = .union n op →
      (s.item a 0 = .ent x → s.item a 1 = .ent y →
        (crdOf x = crdOf y →
          let r := pairOp n op.toNat (valOf n.fmt x) (valOf n.fmt y)
          Steps s a [] r.2 (fun k => Emitted mem k 0 64 [pairOf (crdOf x) r.1] ∧ k.left0 = mem.left0.drop 1 ∧ k.left1 = mem.left1.drop 1)) ∧
        (crdOf x < crdOf y → Steps s a [] 0 (fun k => Emitted mem k 0 64 [x] ∧ k.left0 = mem.left0.drop 1 ∧ k.left1 = mem.left1)) ∧
        (crdOf y < crdOf x → Steps s a [] 0 (fun k => Emitted mem k 0 64 [y] ∧ k.left0 = mem.left0 ∧ k.left1 = mem.left1.drop 1))) ∧
      (s.item a 0 = .ctl b → s.item a 1 = .ctl c → b.typ ≠ 10 → b.typ = c.typ →
        Steps s a [0, 1] 0 (fun k => Ended mem k 0 64 holeOf [] [b]))) ∧
    (∀ lvl, a.n.ins = .repeatNode n lvl → (∀ d, s.item a 0 = .ctl d → d.typ ≠ 10) →
      (s.item a 1 = .ent y → mem.b1 = true →
        Steps s a [] 0 (fun k => Emitted mem k 0 64 [pairOf (crdOf y) held] ∧ k.left1 = mem.left1.drop 1)) ∧
      (s.item a 1 = .ent y → mem.b1 = false → s.item a 0 = .ent x →
        Steps s a [] 0 (fun k => k.b1 = true ∧ k.vals = [BitVec.ofNat 64 (x % 2 ^ 32)] ∧ k.left0 = mem.left0.drop 1)) ∧
      (s.item a 1 = .ctl b → 1 ≤ b.typ → b.typ ≤ 8 →
        (b.typ - 1 < lvl.toNat → Steps s a [1] 0 (fun k => Ended mem k 0 64 holeOf [] [b] ∧ k.b1 = mem.b1)) ∧
        (lvl.toNat ≤ b.typ - 1 → mem.b1 = true → Steps s a [1] 0 (fun k => Ended mem k 0 64 holeOf [] [b] ∧ k.b1 = false)) ∧
        (lvl.toNat ≤ b.typ - 1 → mem.b1 = false → s.item a 0 = .ent x →
          Steps s a [1] 0 (fun k => Ended mem k 0 64 holeOf [] [b] ∧ k.left0 = mem.left0.drop 1))) ∧
      (s.item a 1 = .ctl b → b.typ = 9 → s.item a 0 = .ctl c → c.typ = 9 →
        Steps s a [0, 1] 0 (fun k => Ended mem k 0 64 holeOf [] [b] ∧ k.b1 = false))) ∧
    (∀ op lvl, a.n.ins = .sred n op lvl →
      (s.item a 0 = .ent x →
        let r : Rslt := if mem.b0 then pairOp n op.toNat held (valOf n.fmt x) else (valOf n.fmt x, 0)
        Steps s a [] r.2 (fun k => k.b0 = true ∧ k.vals = [BitVec.ofNat 64 r.1] ∧ k.left0 = mem.left0.drop 1)) ∧
      (s.item a 0 = .ctl b → 1 ≤ b.typ → b.typ ≤ 8 →
        let last := pairOp n 3 held held
        let one := if mem.b0 then [pairOf mem.n0 last.1] else []
        let osw := if mem.b0 then last.2 else 0
        (b.typ - 1 < lvl.toNat → Steps s a [0] 0 (fun k => k.owe = [] ∧ k.b0 = mem.b0 ∧ k.n0 = mem.n0)) ∧
        (b.typ - 1 = lvl.toNat → Steps s a [0] osw (fun k => Emitted mem k 0 64 one ∧ k.b0 = false ∧ k.n0 = mem.n0 + 1)) ∧
        (lvl.toNat < b.typ - 1 → Steps s a [0] osw (fun k =>
          Ended mem k 0 64 holeOf one [ctlBeat (b.typ - 1 - lvl.toNat)] ∧ k.b0 = false ∧ k.n0 = 0))))

/-- R266, R267, R269 to R272: sjoin joins aligned entries, or reuses one entry for a fibre; sacc accumulates into its array
and flushes it; split and merge keep the order of tags; rmerge merges two runs; gath reads and scat writes elements of
tensors, a read in hand being delivered with its bytes as they stand then (log entry 164). The passed values of sjoin, the tags of
merge, and the split and merge of a clone are the model's reading (log entries 127, 61 and 144). -/
def Obligations.SparseNodes : Prop :=
  ∀ (s : State) (a : NodeAt) (n : NodeHdr) (x y : Nat) (b c : Beat) (sc : BitVec 3), s.Items a 64 → s.memOk →
    let mem := a.n.mem
    let held := ((mem.vals[0]?).getD 0).toNat
    let z := Fmt.esize n.fmt
    (∀ op lvl rlvl, a.n.ins = .sjoin n op lvl rlvl → mem.b0 = false → (∀ j ∈ [0, 1], ∀ d, s.item a j = .ctl d → d.typ ≠ 10) →
      (n.var = 0#4 →
        (s.item a 0 = .ent x → s.item a 1 = .ent y →
          (crdOf x = crdOf y →
            let r := joinOp n op.toNat (valOf n.fmt x) (valOf n.fmt y)
            Steps s a [] r.2 (fun k => Emitted mem k 0 64 [pairOf (crdOf y) r.1] ∧ k.left0 = mem.left0.drop 1 ∧ k.left1 = mem.left1.drop 1)) ∧
          (crdOf x ≠ crdOf y → Steps s a [] 0x1000 (fun k => k.owe = [] ∧ k.left0 = mem.left0.drop 1 ∧ k.left1 = mem.left1.drop 1))) ∧
        (s.item a 0 = .ctl b → s.item a 1 = .ctl c → c.typ ≤ 8 → b.typ = c.typ → c.typ - 1 < rlvl.toNat → 1 ≤ c.typ →
          Steps s a [0, 1] 0 (fun k => Ended mem k 0 64 holeOf [] [c]))) ∧
      (n.var ≠ 0#4 → s.item a 1 = .ent y → mem.b2 = false →
        (mem.b1 = true →
          let r := joinOp n op.toNat held (valOf n.fmt y)
          Steps s a [] r.2 (fun k => Emitted mem k 0 64 [pairOf (crdOf y) r.1] ∧ k.left1 = mem.left1.drop 1)) ∧
        (mem.b1 = false → s.item a 0 = .ent x →
          Steps s a [] 0 (fun k => k.b1 = true ∧ k.vals = [BitVec.ofNat 64 (valOf n.fmt x)] ∧ k.left0 = mem.left0.drop 1))) ∧
      (s.item a 1 = .ctl c → 1 ≤ c.typ → c.typ ≤ 8 → rlvl.toNat ≤ c.typ - 1 →
        Steps s a [1] 0 (fun k => Ended mem k 0 64 holeOf [] [c] ∧ k.b0 = true))) ∧
    (∀ ao wm1 lvl, a.n.ins = .sacc n ao wm1 lvl →
      let w := wm1.toNat + 1
      let o := 16 * ao.toNat
      let key := keyScratch a.n.tile o
      let size := 4 * w + (w + 7) / 8
      let word : Nat → Nat := fun j => leNat (s.mem.getN (key + 4 * j) 4)
      let used : Nat → Bool := fun j => leNat (s.mem.getN (key + 4 * w + j / 8) 1) / 2 ^ (j % 8) % 2 = 1
      o + size ≤ 0x80000 → s.Clean → (∀ d, s.item a 0 = .ctl d → d.typ ≠ 10) →
      (mem.begun = false → ∃ t k, exec a.n.ins s = .next t ∧ t.nodeOf a = some k ∧ k.mem.begun = true ∧
        StoredAll s t [(key, List.replicate size 0)]) ∧
      (mem.begun = true → s.item a 0 = .ent x → s.reserved (a.req 0) key size = false →
        (w ≤ crdOf x → Steps s a [] 0x1000 (fun k => k.left0 = mem.left0.drop 1)) ∧
        (crdOf x < w →
          let j := crdOf x
          let wide := convertVal (floatVal n.fmt (valOf n.fmt x)) false .f32 0 false
          let r : Rslt := if n.fmt.isInt then ((if used j then wrapN 32 (intOf n.fmt (word j) + intOf n.fmt (valOf n.fmt x)) else valOf n.fmt x), 0)
            else if used j then addF .f32 n.rm.toNat (word j) wide.1 else wide
          ∃ t k, exec a.n.ins s = .next t ∧ t.nodeOf a = some k ∧ k.mem.left0 = mem.left0.drop 1 ∧
            StoredAll s t [(key + 4 * j, toLE 4 r.1),
              (key + 4 * w + j / 8, toLE 1 (leNat (s.mem.getN (key + 4 * w + j / 8) 1) ||| 2 ^ (j % 8)))])) ∧
      (mem.begun = true → s.item a 0 = .ctl c → 1 ≤ c.typ → c.typ ≤ 8 → lvl.toNat ≤ c.typ - 1 →
        let r : Nat → Rslt := fun j => if n.fmt.isInt then (word j, 0) else convertVal (floatVal .f32 (word j)) false n.fmt n.rm.toNat n.sat
        let js := (List.range w).filter used
        ∃ m, TurnTo s a ((s.fire a ⟨[0], false, [], js.foldl (fun o j => o ||| (r j).2) 0, m⟩ .firing).landWrite
            (scratchPhys a.n.tile o) (List.replicate size 0)) ∧
          Ended mem (m mem) 0 64 holeOf (js.map (fun j => pairOf j (r j).1)) [ctlBeat (c.typ - lvl.toNat)])) ∧
    (a.n.ins = .split n →
      (∀ p, s.outRoom a a.n p = true) →
      let js := [0, 1, 2].filter a.hasIn
      (∀ bs, js ≠ [] → bs.length = js.length → s.Ready a js bs →
        ∃ m, Fires s a ⟨js, true, (js.zip bs).map (fun p => (2 * p.1 + mem.n0 % 2, { p.2 with
          tag := if a.n.clone then p.2.tag else some (BitVec.ofNat 16 mem.n0) })), 0, m⟩ .firing ∧ (m mem).n0 = mem.n0 + 1) ∧
      (js = [0] → s.Control a c → Steps s a [0] 0 (fun k => k.owe = [(0, c), (1, c)]))) ∧
    (a.n.ins = .merge n → a.n.clone = true → a.goes →
      s.item a (mem.n0 % 2) = .load b →
      Opens s a (mem.n0 % 2) 0 (fun k => k.n0 = (mem.n0 + 1) % 2 ∧ k.owe = [(0, b)])) ∧
    (a.n.ins = .merge n → a.n.clone = false →
      let take : Nat → Beat → Prop := fun j b => ∀ t, b.tag = some t →
        Opens s a j 0 (fun k => k.n0 = (t + 1).toNat ∧ k.owe = [(0, { b with tag := none })])
      (a.goes → s.item a 0 = .load b → s.item a 1 = .load c → ∀ t u, b.tag = some t → c.tag = some u →
        if (u - t).toNat < 2 ^ 15 then take 0 b else take 1 c) ∧
      (a.goes → s.item a 0 = .load b → s.item a 1 = .empty → b.tag = some (BitVec.ofNat 16 mem.n0) → take 0 b) ∧
      (s.item a 0 = .load b → s.item a 1 = .empty → b.tag = none → TurnTo s a (s.nodeTrap a 1)) ∧
      (s.item a 0 = .ctl b → s.item a 1 = .ctl c → b.typ = c.typ → Steps s a [0, 1] 0 (fun k => k.owe = [(0, b)]))) ∧
    (a.n.ins = .rmerge n →
      (s.item a 0 = .ent x → s.item a 1 = .ent y →
        let p := BitVec.ofNat 64 x
        let q := BitVec.ofNat 64 y
        let second := if n.var = 0#4 then kiAbove q p = true else kiAbove p q = true
        (¬second → Steps s a [] 0 (fun k => Emitted mem k 0 64 [x] ∧ k.left0 = mem.left0.drop 1 ∧ k.left1 = mem.left1)) ∧
        (second → Steps s a [] 0 (fun k => Emitted mem k 0 64 [y] ∧ k.left0 = mem.left0 ∧ k.left1 = mem.left1.drop 1))) ∧
      (s.item a 0 = .ctl b → s.item a 1 = .ent y → Steps s a [] 0 (fun k => Emitted mem k 0 64 [y] ∧ k.left1 = mem.left1.drop 1)) ∧
      (s.item a 0 = .ctl b → s.item a 1 = .ctl c → b.typ = c.typ →
        Steps s a [0, 1] 0 (fun k => Ended mem k 0 64 (0xFFFFFFFF * 2 ^ 32 + 0x7FC00000) [] [b]))) ∧
    (∀ tid icrd, a.n.ins = .gath n sc tid icrd →
      let u := a.tensor 0
      let ref : Nat → Nat := fun e => if icrd then crdOf e else e % 2 ^ 32
      let far : Nat → Bool := fun e => decide (Tensor.dim u 0 ≤ ref e)
      (s.item a 0 = .load b → mem.win = [] → a.goes →
        let es := ((List.range 4).map (lane 64 b.data)).filter (fun e => crdOf e ≠ 0xFFFFFFFF)
        Opens s a 0 (s.clampOf a sc ||| (if Tensor.zpad u = false ∧ es.any far then 0x1000 else 0)) (fun k =>
          k.win.map (fun e => (e.note, e.got, if e.got.isSome then 0#64 else e.addr)) =
            (es.filter (fun e => !far e || Tensor.zpad u)).map (fun e => (BitVec.ofNat 64 e, (if far e then some ([0], 0) else none),
              if far e then 0#64 else BitVec.ofNat 64 (Tensor.addr u [ref e]))) ∧ ∀ d ∈ k.win, d.home = none)) ∧
      (∀ e r key, s.ElemAt a e r → s.Locates a e .read z z key →
        NodeDoes s a 0 (fun t k => MemSame s t ∧ k.mem.win = r ∧
          Packs a k 64 [pairOf (crdOf e.note.toNat) (leNat (s.mem.getN key z))])) ∧
      (∀ e r bs o, s.HeadAt a e r → e.got = some (bs, o) → (∀ ph, e.home = some ph → ph.typ.leaves = true) →
        NodeDoes s a o (fun t k => MemSame s t ∧ k.mem.win = r ∧ Packs a k 64 [pairOf (crdOf e.note.toNat) (leNat bs)])) ∧
      (∀ e r bs ph, s.HeadAt a e r → e.got = some (bs, 0) → e.home = some ph → ph.typ.leaves = false →
        NodeDoes s a 0 (fun t k => MemSame s t ∧ k.mem.win = r ∧
          Packs a k 64 [pairOf (crdOf e.note.toNat) (leNat (s.mem.getN ph.key bs.length))])) ∧
      (∀ e t, s.ElemAt a e [] → a.place e = .none → e.addr.toNat % z = 0 →
        (s.meetFault a.x.asid (a.elReq e) ⟨e.addr.toNat, .read, 0, 0⟩ : Res (List Byte × BitVec 32)) = .wait t → t.mayBegin a = false →
        TurnTo s a (t.nodeSt a .firing))) ∧
    (∀ tv tc tp lvl, a.n.ins = .scat n sc tv tc tp lvl → s.xl.retried = [] → mem.bad = false →
      let put : Tensor → List Nat → Nat → Nat → (NodeMem → Prop) → Prop := fun u ix size v p => ∀ key, Tensor.inside u ix = true →
        Tensor.addr u ix % size = 0 → s.Finds a (a.req (mem.n3 - mem.left0.length)) .write (Tensor.addr u ix) size key →
        ∃ t k, exec a.n.ins s = .next t ∧ t.nodeOf a = some k ∧ Stored s t key (toLE size v) ∧ p k.mem
      (n.var = 0#4 → mem.begun = false → put (a.tensor 2) [0] 4 0 (fun k => k.begun = true)) ∧
      (n.var = 0#4 → mem.begun = true → s.item a 0 = .ent x →
        (mem.n2 = 0 → put (a.tensor 1) [mem.n0] 4 (crdOf x) (fun k => k.n2 = 1)) ∧
        (mem.n2 ≠ 0 → put (a.tensor 0) [mem.n0] z (valOf n.fmt x) (fun k => k.n0 = mem.n0 + 1 ∧ k.n2 = 0 ∧ k.left0 = mem.left0.drop 1))) ∧
      (n.var = 0#4 → mem.begun = true → s.item a 0 = .ctl c → 1 ≤ c.typ → c.typ ≤ 8 → lvl.toNat ≤ c.typ - 1 →
        put (a.tensor 2) [mem.n1 + 1] 4 mem.n0 (fun k => k.n1 = mem.n1 + 1)) ∧
      (n.var ≠ 0#4 → s.item a 0 = .ent x →
        put (a.tensor 0) [crdOf x, mem.n1] z (valOf n.fmt x) (fun k => k.left0 = mem.left0.drop 1)) ∧
      (n.var ≠ 0#4 → s.item a 0 = .ent x → Tensor.inside (a.tensor 0) [crdOf x, mem.n1] = false →
        Steps s a [] 0x1000 (fun k => k.left0 = mem.left0.drop 1)))

/-- R274 to R279, R281: agen executes its words; pqadc scores items; bound drops a
block whose bound lies below its key; topk keeps the best pairs it admits and emits them; seepm and qport send the key that their register holds.
A node acts on its threshold register's value or on one that the register has held since the phase start, which one being free (log
entry 7). The words of agen, the lists of topk and bound, and SAT of pqadc are the model's reading where log entries 64, 65 and 142
say so. -/
def Obligations.RankingNodes : Prop :=
  ∀ (s : State) (a : NodeAt) (n : NodeHdr) (x : Nat) (b : Beat) (sc : BitVec 3),
    let mem := a.n.mem
    let val : Nat → Nat := fun k => ((mem.vals[k]?).getD 0).toNat
    let below : Nat → BitVec 64 → Bool := fun bnd t => (floatVal .f32 bnd).lt (floatVal .f32 (t.toNat % 2 ^ 32))
    let calm := s.xl.retried = [] ∧ s.Clean
    let hop : Nat → BitVec 64 := fun j => kiMk ((a.n.hops[j]?).getD 0).toNat 0xFFFFFFFF
    let up := a.seeps.foldl (fun (y : Node) j => y.raise (hop j)) a.n
    ((s.readThr a).1 ∈ up.thr :: up.past ∧ up.thr = a.seeps.foldl (fun t j => kiBest t (hop j)) a.n.thr ∧
      ∀ v ∈ a.n.thr :: a.n.past, v ∈ up.thr :: up.past) ∧
    (∀ p, s.nodeHere = some a →
      s.readSend a p = ((s.readThr a).1, (s.readThr a).2.sendKey a p (BitVec.ofNat 32 (up.thr.toNat % 2 ^ 32)))) ∧
    (∀ start, a.n.ins = .agen n sc start →
      let word := (a.x.store a.n.tile a.n.slot)[mem.n0]?
      let u := a.tensor 0
      let w := Fmt.bits (Tensor.fmt u)
      (s.Items a 64 → mem.b0 = false → a.ending = false → a.hasIn 0 = false → mem.begun = false →
        NodeDoes s a (s.clampOf a sc) (fun _ k => k.mem.b0 = true ∧ k.mem.n0 = start.toNat ∧ k.mem.n3 = 0 ∧ k.mem.nth = 0 ∧
          k.mem.begun = true)) ∧
      (s.Items a 64 → mem.b0 = true → word = some 0xF000000000000000#64 → Steps s a [] 0 (fun k => k.b0 = false ∧ k.owe = [])) ∧
      (s.Items a 64 → mem.b0 = true → word = none →
        Steps s a [] 0x200 (fun k => k.b0 = false ∧ k.owe = [(0, { ctlBeat 9 with tag := mem.tag })])) ∧
      (∀ (tk e : Nat), tk < 4096 → e < 10 → mem.b0 = true → word = some (BitVec.ofNat 64 (2 ^ 60 + tk * 2 ^ 48 + e * 2 ^ 40)) →
        (∀ t, s.Items a 64 → mem.n3 = 0 → s.goodTensor a.x.asid tk = some t → Tensor.fmt t ≠ .cf8 →
          NodeDoes s a 0 (fun _ k => k.tens = [t] ∧ k.mem.n1 = 0 ∧ k.mem.n3 = 1)) ∧
        (s.Items a 64 → mem.n3 = 0 → s.goodTensor a.x.asid tk = none →
          Steps s a [] 0x200 (fun k => k.b0 = false ∧ k.owe = [(0, { ctlBeat 9 with tag := mem.tag })])) ∧
        (∀ key, s.Items a w → mem.n3 ≠ 0 → mem.n1 < Tensor.count u → calm →
          Tensor.addr u (Tensor.indexOf u mem.n1) % Fmt.esize (Tensor.fmt u) = 0 →
          s.Finds a (a.req mem.nth) .read (Tensor.addr u (Tensor.indexOf u mem.n1)) (Fmt.esize (Tensor.fmt u)) key →
          Steps s a [] 0 (fun k => Emitted mem k 0 w [leNat (s.mem.getN key (Fmt.esize (Tensor.fmt u)))] ∧ k.n1 = mem.n1 + 1 ∧
            k.nth = mem.nth + 1)) ∧
        (s.Items a w → mem.n3 ≠ 0 → Tensor.count u ≤ mem.n1 →
          Steps s a [] 0 (fun k => Ended mem k 0 w 0 [] ((endOf (BitVec.ofNat 4 e)).map (fun p => p.2)) ∧ k.n0 = mem.n0 + 1 ∧ k.n3 = 0))) ∧
      (∀ (tk f nb e : Nat), tk < 4096 → f < 65536 → 1 ≤ nb → nb < 65536 → e < 10 → mem.b0 = true →
        word = some (BitVec.ofNat 64 (2 ^ 61 + tk * 2 ^ 48 + f * 2 ^ 32 + nb * 2 ^ 16 + e * 2 ^ 8)) → s.Items a 32 → mem.n3 ≠ 0 → calm →
        let isz := val 1 / 2 ^ 32
        let high := val 2 / 2 ^ 48
        let good := val 3 = 0 ∧ isz % 4 = 0 ∧ 4 ≤ isz ∧ isz ≤ 256 ∧ val 2 % 4 = 0 ∧
          (high = 0 ∨ (high = 0xFFFF ∧ val 2 / 2 ^ 31 % 2 ^ 17 = 0 ∧ val 2 / 2 ^ 19 % 2 = 0))
        (mem.n3 ≠ 2 → mem.n2 < f + nb → 4 * mem.n2 + 3 < Tensor.dim u 0 → 4 ≤ mem.vals.length →
          (¬good → Steps s a [] 0x1000 (fun k => k.n2 = mem.n2 + 1 ∧ k.vals = [] ∧ k.owe = [])) ∧
          (good → ∃ osw m, TurnTo s a ((s.readThr a).2.fire a ⟨[], false, [], osw, m⟩ .firing) ∧
            (below (val 0 % 2 ^ 32) (s.readThr a).1 = true → osw = 0x8 ∧ (m mem).n2 = mem.n2 + 1 ∧ (m mem).owe = []) ∧
            (below (val 0 % 2 ^ 32) (s.readThr a).1 = false → osw = 0 ∧ (m mem).n3 = 2 ∧ (m mem).n1 = 0 ∧
              (m mem).owe = [(0, ⟨10, BitVec.ofNat 256 (val 1 * 2 ^ 64 + val 0), mem.tag, false⟩)]))) ∧
        (∀ key, mem.n3 = 2 → mem.n1 < val 1 % 2 ^ 32 * isz → (val 2 + mem.n1) % 2 ^ 64 % 4 = 0 →
          s.Finds a (a.req mem.nth) .read ((val 2 + mem.n1) % 2 ^ 64) 4 key →
          Steps s a [] 0 (fun k => Emitted mem k 0 32 [leNat (s.mem.getN key 4)] ∧ k.n1 = mem.n1 + 4 ∧ k.nth = mem.nth + 1)) ∧
        (mem.n3 = 2 → val 1 % 2 ^ 32 * isz ≤ mem.n1 →
          Steps s a [] 0 (fun k => Ended mem k 0 32 0 [] [ctlBeat 1] ∧ k.n2 = mem.n2 + 1 ∧ k.n3 = 1)))) ∧
    (a.n.ins = .qport n → s.Turn a → TurnTo s a (s.sendKey a 1 (BitVec.ofNat 32 (a.n.thr.toNat % 2 ^ 32)))) ∧
    (∀ tab mm1 iszw, a.n.ins = .pqadc n tab mm1 iszw → s.Items a 64 →
      let place : Nat → Nat := fun m => 16 * tab.toNat + (256 * m + codeAt mem.left0 m) * 2
      let sum := (List.range (mm1.toNat + 1)).foldl (fun (acc : Nat × BitVec 32) m =>
        let q := addF .f32 n.rm.toNat acc.1
          (convertVal (floatVal .f16 (leNat (s.mem.getN (keyScratch a.n.tile (place m)) 2))) false .f32 0 false).1
        (q.1, acc.2 ||| q.2)) (0, 0)
      let past := mem.b0 = true ∧ mem.n0 = 0
      let score : Rslt := if n.sat then finishF .f32 n.rm.toNat true (floatVal .f32 sum.1) else (sum.1, 0)
      16 * tab.toNat + 512 * (mm1.toNat + 1) ≤ 0x80000 →
      (¬past → iszw.toNat ≤ mem.left0.length → s.Clean →
        (∀ m, m ≤ mm1.toNat → s.nodeFeWaits (.scratch a.n.tile (place m)) true = false) →
        Steps s a [] (sum.2 ||| score.2) (fun k => Emitted mem k 0 64 [(kiMk score.1 ((mem.left0[0]?).getD 0).toNat).toNat] ∧
          k.left0 = mem.left0.drop iszw.toNat)) ∧
      (¬past → mem.left0.length < iszw.toNat → s.offer a 0 = .streamed b → b.typ = 0 → a.goes →
        Opens s a 0 0 (fun k => k.left0 = mem.left0 ++ (List.range 8).map (fun i => BitVec.ofNat 64 (lane 32 b.data i)))) ∧
      (past ∨ mem.left0.length < iszw.toNat → s.offer a 0 = .streamed b → b.typ ≠ 0 →
        let wrong := b.typ = 10 ∧ b.data.toNat / 2 ^ 96 % 2 ^ 32 ≠ 4 * iszw.toNat
        Steps s a [0] (if wrong then 0x1000 else 0) (fun k => Ended mem k 0 64 (0xFFFFFFFF * 2 ^ 32 + 0x7FC00000) [] [b] ∧
          k.left0 = [] ∧ (b.typ = 10 → k.b0 = true ∧ k.n0 = if wrong then 0 else b.data.toNat / 2 ^ 64 % 2 ^ 32)))) ∧
    (∀ rec ofs, a.n.ins = .bound n rec ofs → s.Items a 64 → s.offer a 0 = .streamed b →
      let thr := (s.readSend a 1).1
      let go : BitVec 32 → (NodeMem → Prop) → Prop := fun osw p =>
        ∃ m, TurnTo s a ((s.readSend a 1).2.fire a ⟨[0], false, [], osw, m⟩ .firing) ∧ p (m mem)
      (b.typ = 10 → below (b.data.toNat % 2 ^ 32) thr = true →
        go 0x8 (fun k => k.owe = [] ∧ k.b1 = true ∧ k.n1 = mem.n1 + 1 ∧ k.n0 = mem.n0)) ∧
      (b.typ = 10 → below (b.data.toNat % 2 ^ 32) thr = false →
        go 0 (fun k => k.owe = [(0, b)] ∧ k.b0 = true ∧ k.b1 = false ∧ k.n0 = mem.n0 + 1 ∧ k.n1 = mem.n1)) ∧
      (b.typ = 1 → mem.b1 = true → go 0 (fun k => k.owe = [] ∧ k.b1 = false)) ∧
      (1 ≤ b.typ → b.typ ≤ 8 → mem.b1 = false ∨ b.typ ≠ 1 → go 0 (fun k => k.owe = [(0, b)] ∧ k.b1 = false)) ∧
      (b.typ = 0 → a.guardTok = none → ∃ m, TurnTo s a ((s.readSend a 1).2.fire a ⟨[0], true, [], 0, m⟩ .firing) ∧
        (m mem).owe = if mem.b1 || mem.b2 || (mem.b0 && below (val 0) thr) then [] else [(0, b)])) ∧
    (∀ km1 seg lvl qen q rec ofs, a.n.ins = .topk n km1 seg lvl qen q rec ofs → s.Items a 64 → mem.b2 = false →
      let cap := km1.toNat + 1
      let l := mem.vals
      (s.item a 0 = .ent x → l.length ≤ cap →
        let p := BitVec.ofNat 64 x
        let thr := (s.readSend a 1).1
        let admitted := kiNan p = false ∧ kiAbove p thr = true ∧ (l.length < cap ∨ ∃ k, l.getLast? = some k ∧ kiAbove p k = true)
        (¬admitted → ∃ m, TurnTo s a ((s.readSend a 1).2.fire a ⟨[], false, [], 0, m⟩ .firing) ∧ (m mem).vals = l ∧ (m mem).n0 = mem.n0) ∧
        (admitted → ∃ t k front back, exec a.n.ins s = .next t ∧ t.nodeOf a = some k ∧ k.mem.n0 = mem.n0 + 1 ∧ l = front ++ back ∧
          (∀ f, front.getLast? = some f → kiAbove p f = false) ∧ (∀ f, back.head? = some f → kiAbove p f = true) ∧
          k.mem.vals = (front ++ [p] ++ back).take cap)) ∧
      (s.item a 0 = .ctl b → rec = false → b.typ = 9 ∨ (seg = true ∧ b.typ ≠ 10 ∧ endsSegment lvl.toNat b) →
        Steps s a [0] 0 (fun k => k.vals = [] ∧ k.n0 = 0 ∧ ∃ put, k.owe = put ++ [(0, b)] ∧ (∀ p ∈ put, p.1 = 0 ∧ p.2.typ = 0) ∧
          lanesPut 64 0 put = l.map BitVec.toNat ++ List.replicate ((4 - l.length % 4) % 4) (0xFFFFFFFF * 2 ^ 32 + 0x7FC00000)))) ∧
    (∀ qen q, a.n.ins = .seepm n qen q → s.Turn a →
      let r := s.readSend a 0
      let last := (mem.vals[0]?).getD kiFloor
      (qen = false ∨ kiAbove up.thr last = false → TurnTo s a (r.2.nodeSt a .idle)) ∧
      (∀ ph s1, qen = true → kiAbove up.thr last = true → r.2.xlateQcb a.x (a.req 0) .rmw (64 * q.toNat) = .ok ph r.2 →
        r.2.reserved (a.req 0) ph.key 64 = false → r.2.present (a.req 0) ph 64 = .ok () r.2 → r.2.unsnooped (a.req 0) ph [] = .ok () r.2 →
        r.2.charge (a.req 0) ph 16 = .ok () r.2 → r.2.threshWrite ph (64 * q.toNat) a.x.asid a.x.part (a.x.carrierOf a.n.tile) up.thr = some s1 → s1.xl.retried = [] →
        TurnTo s a (s1.updMemOf a (fun m => { m with vals := [up.thr] }))))

/-- R282 to R285: tomb drops deleted identifiers; vset emits an identifier whose visited bit it finds clear, and sets it;
kipack pairs scores with identifiers; fcomp drops the items its variant names. Where vset's page and tomb tensor are checked is the
model's reading (log entry 66). -/
def Obligations.FilterNodes : Prop :=
  ∀ (s : State) (a : NodeAt) (n : NodeHdr) (x y : Nat) (b c : Beat) (sc : BitVec 3), s.xl.retried = [] → s.Clean → s.memOk →
    let mem := a.n.mem
    let pop := fun (k : NodeMem) => k.left0 = mem.left0.drop 1
    let used := fun (k : NodeMem) => pop k ∧ k.nth = mem.nth + 1
    let flag : Nat → Nat → Bool := fun key id => leNat (s.mem.getN key 1) / 2 ^ (id % 8) % 2 = 1
    let fill := if n.fmt = .ki then 0xFFFFFFFF * 2 ^ 32 + 0x7FC00000 else holeOf
    (∀ tid, a.n.ins = .tomb n sc tid → s.Items a 64 →
      let id := x / 2 ^ 32
      let u := a.tensor 0
      (s.item a 0 = .ent x → Tensor.dim u 0 ≤ id / 8 → Steps s a [] 0x1000 (fun k => Emitted mem k 0 64 [x] ∧ used k)) ∧
      (∀ key, s.item a 0 = .ent x → id / 8 < Tensor.dim u 0 → s.Finds a (a.req mem.nth) .read (Tensor.addr u [id / 8]) 1 key →
        Steps s a [] 0 (fun k => Emitted mem k 0 64 (if flag key id then [] else [x]) ∧ used k)) ∧
      (s.item a 0 = .ctl b → Steps s a [0] 0 (fun k => Ended mem k 0 64 fill [] [b]))) ∧
    (∀ tv tt exp ten, a.n.ins = .vset n sc tv tt exp ten →
      let w := if n.fmt = .ki then 64 else 32
      let id := if n.fmt = .ki then x / 2 ^ 32 else x
      let u := a.tensor 0
      s.Items a w → s.item a 0 = .ent x →
      ((Tensor.dim u 0 ≤ id / 8 ∨ (ten = true ∧ Tensor.dim (a.tensor 1) 0 ≤ id / 8)) →
        Steps s a [] 0x1000 (fun k => k.owe = [] ∧ used k)) ∧
      (∀ key, ten = true → exp = false → id / 8 < Tensor.dim u 0 → id / 8 < Tensor.dim (a.tensor 1) 0 →
        s.Finds a (a.req mem.nth) .read (Tensor.addr (a.tensor 1) [id / 8]) 1 key → flag key id = true →
        Steps s a [] 0 (fun k => k.owe = [] ∧ used k)) ∧
      (∀ ph g, ten = false ∨ exp = true → id / 8 < Tensor.dim u 0 → (ten = true → id / 8 < Tensor.dim (a.tensor 1) 0) →
        a.x.space a.n.tile (Tensor.addr u [id / 8]) = .global g → s.Reaches a.x (a.req mem.nth) .rmw g 1 ph → ph.typ = .mere →
        ∃ t m, TurnTo s a (t.fire a ⟨[], false, [], 0, m⟩ .firing) ∧
          Stored s t ph.key (toLE 1 (leNat (s.mem.getN ph.key 1) ||| 2 ^ (id % 8))) ∧ t.fens = s.fens ∧
          Emitted mem (m mem) 0 w (if flag ph.key id then [] else [x]) ∧ used (m mem))) ∧
    (∀ base, a.n.ins = .kipack n base → s.Items a 64 →
      let score : Rslt := if n.fmt = .f32 then writtenOf .f32 x else convertVal (floatVal n.fmt x) false .f32 0 false
      (n.var = 1#4 → s.item a 0 = .ent x →
        Steps s a [] score.2 (fun k => Emitted mem k 0 64 [(kiMk score.1 ((base.toNat + mem.n0) % 2 ^ 32)).toNat] ∧ k.n0 = mem.n0 + 1 ∧ pop k)) ∧
      (n.var ≠ 1#4 → s.item a 0 = .ent x → s.item a 1 = .ent y →
        Steps s a [] score.2 (fun k => Emitted mem k 0 64 [(kiMk score.1 y).toNat] ∧ pop k ∧ k.left1 = mem.left1.drop 1)) ∧
      (n.var ≠ 1#4 → s.item a 0 = .ctl b → s.item a 1 = .ctl c →
        (b.typ ≠ c.typ → TurnTo s a (s.nodeTrap a 1)) ∧
        (b.typ = c.typ → Steps s a [0, 1] 0 (fun k => Ended mem k 0 64 (0xFFFFFFFF * 2 ^ 32 + 0x7FC00000) [] [b] ∧
          k.n0 = if b.typ = 9 then 0 else mem.n0)))) ∧
    (∀ eps, a.n.ins = .fcomp n eps → s.Items a 64 →
      let v := valueOf n.fmt (valOf n.fmt x)
      let size := match v with | .num _ m e => Val.num false m e | .inf _ => .inf false | .nan => .nan
      let bar := floatVal .f32 eps.toNat
      let key := floatVal .f32 (x % 2 ^ 32)
      let drops : Bool := if n.var = 0#4 then v.eqv (.num false 0 0)
        else if n.var = 1#4 then size.lt bar || size.eqv bar
        else key.isNan || key.lt bar
      (s.item a 0 = .ent x → Steps s a [] 0 (fun k => Emitted mem k 0 64 (if drops then [] else [x]) ∧ pop k)) ∧
      (s.item a 0 = .ctl b → Steps s a [0] 0 (fun k => Ended mem k 0 64 fill [] [b])))

/-! ## Events -/

/-- R309, R314, R318 to R320: a free walker takes the oldest queued walk of the partition whose turn it is; a walk that
returns gives its die TLB the translation, or one fault record for the lowest element of those it fails, with that element's own
address and access, under whose SEQ each of them meets the fault, and the later requests of their streams are withdrawn; stage-2
tables are read level by level; fills make lines present, and replicas of lines of ROS pages; a timer that has run out lets its
request be presented again. Which requests one record serves and where a replica lies are the model's reading (log entries 32 and
89). -/
def Obligations.TranslationEvents : Prop :=
  (∀ (s : State) (die : BitVec 2),
    let d := die.toNat
    let turn := (s.xl.turn[d]?).getD 0
    let busy := s.xl.walks.countP (fun w => w.die == d && w.running)
    let queued : Walk → Nat → Prop := fun w p => w.die = d ∧ w.part = p ∧ w.running = false
    (128 ≤ busy → exec (.walkStart die) s = .next s) ∧
    (∀ j k w, busy < 128 → j < 16 → s.xl.walks[k]? = some w → queued w ((turn + j) % 16) →
      (∀ i v, i < j → v ∈ s.xl.walks → ¬queued v ((turn + i) % 16)) →
      (∀ l v, l < k → s.xl.walks[l]? = some v → ¬queued v w.part) →
      exec (.walkStart die) s = .next { s with xl := { s.xl with
        walks := s.xl.walks.set k { w with running := true }
        turn := s.xl.turn.set d ((w.part + 1) % 16) } })) ∧
  (∀ (s : State) (die : BitVec 2) (k i : Nat) (w : Walk), s.memOk →
    (s.xl.walks.zipIdx.filter (fun p => p.1.die == die.toNat && p.1.running))[k]? = some (w, i) →
    let gone := s.xl.walks.eraseIdx i
    (w.stale = true → exec (.walkComplete die k) s = .next { s with xl := { s.xl with walks := gone } }) ∧
    let inDie := s.xl.tlbs.countP (fun e => e.holder == .die w.die)
    (∀ t u, w.stale = false → s.walk w = .ok (t, u) → (∀ q ∈ w.reqs, t.lacks q.acc = none) →
      t.holder = .die w.die ∧ t.asid = w.asid ∧ t.part = w.part ∧ t.va ≤ w.va ∧ w.va < t.va + t.size ∧
      ∃ v, exec (.walkComplete die k) s = .next v ∧ v.xl.walks = gone ∧ t ∈ v.xl.tlbs ∧
        (inDie < 8192 → v.xl.tlbs = t :: s.xl.tlbs) ∧
        v.xl.pending = s.xl.pending ∧ v.mem = s.mem ∧ v.fens = s.fens ∧ v.dev = s.dev ∧ v.seq = s.seq) ∧
    (∀ (bad : List Ask) (why : Ask → Nat × Nat) (r : Ask) (a b : List Ask), w.stale = false →
      (∃ x, s.walk w = .error x ∧ bad = w.reqs ∧ ∀ q, why q = x) ∨
        (∃ t u, s.walk w = .ok (t, u) ∧ bad = w.reqs.filter (fun q => (t.lacks q.acc).isSome) ∧ ∀ q, why q = (2, (t.lacks q.acc).getD 1)) →
      bad.Pairwise (fun p q => p.req.same q.req = false) →
      bad = a ++ r :: b → (∀ q ∈ a, r.req.elem < q.req.elem) → (∀ q ∈ b, r.req.elem ≤ q.req.elem) →
      let x : Ask → XFault := fun q => ⟨q.va, q.acc, (why q).1, (why q).2⟩
      ∃ v, exec (.walkComplete die k) s = .next v ∧ FaultSent s v w.asid r.req (x r) ∧
        v.xl.walks = gone.map (fun u => { u with reqs := u.reqs.filter (fun q =>
          !bad.any (fun p => q.req.same p.req && !q.req.upTo p.req)) }) ∧
        (bad = w.reqs → v.xl.tlbs = s.xl.tlbs) ∧
        v.xl.pending = s.xl.pending ++
          bad.map (fun q => ⟨s.seq, s.asidFn w.asid, w.asid, x q, s.ofBlock q.req, s.replayable w.asid, none, s.issued (s.ofBlock q.req)⟩))) ∧
  (∀ (s : State) (ipa m : Nat) (tbl : Nat → Nat), s.Clean → 2 ≤ m → m ≤ 4 →
    (∀ l, 1 ≤ l → l ≤ m → tbl l + 4096 ≤ 512 * 10 ^ 9) →
    (∀ l, 1 ≤ l → l < m → pointsTo (s.entry2 (tbl l) l ipa) (tbl (l + 1))) →
    (leafOk (s.entry2 (tbl m) m ipa) m → s.walk2 ipa 4 1 (tbl 1) =
      .ok ⟨tbl m + 8 * (ipa / 2 ^ (48 - 9 * m) % 512), s.entry2 (tbl m) m ipa, 2 ^ (48 - 9 * m)⟩) ∧
    (fld (s.entry2 (tbl m) m ipa) 0 0 = 0 → s.walk2 ipa 4 1 (tbl 1) = .error (1, 2))) ∧
  (∀ (s : State) (line : Nat),
    let e := s.emt
    let there := ∃ l ∈ e.lines, l.line = line
    let ros := ∃ u ∈ s.xl.tlbs, u.typ.inEmt = true ∧ fld (leNat (s.mem.getN (keySpread u.leaf) 8)) 1 1 = 1 ∧
      ∃ k, k < (u.size + 4095) / 4096 ∧ u.typ.key u.mod (u.base + 4096 * k) / 4096 = line * 128 / 4096
    (∀ r, (r, line) ∈ e.fills → there ∨ (e.held (emtOf line)).length < 32768 →
      exec (.lineFill line) s = .next { s with emt := { e with
        fills := e.fills.filter (fun p => p.2 != line)
        lines := if e.lines.any (fun l => l.line == line) then e.lines else ⟨line, 0, false⟩ :: e.lines } }) ∧
    (∀ r, (r, line) ∈ e.fills → ∃ t, exec (.lineFill line) s = .next t ∧ (∃ l ∈ t.emt.lines, l.line = line) ∧
      (∀ l ∈ t.emt.lines, l.line = line ∨ l ∈ e.lines) ∧ t.emt.fills = e.fills.filter (fun p => p.2 != line)) ∧
    ((∀ p ∈ e.fills, p.2 ≠ line) → there → ros → ∃ n, n < 128 ∧ ((e.held n).length < 32768 →
      ∃ t, exec (.lineFill line) s = .next t ∧ { t with emt := { t.emt with replicas := e.replicas }, free := s.free } = s ∧
        ∀ q, q ∈ t.emt.replicas ↔ q = (line, n) ∨ q ∈ e.replicas)) ∧
    ((∀ p ∈ e.fills, p.2 ≠ line) → there → ¬ros → exec (.lineFill line) s = .next s) ∧
    ((∀ p ∈ e.fills, p.2 ≠ line) → (∀ l ∈ e.lines, l.line ≠ line) → exec (.lineFill line) s = .next s)) ∧
  (∀ (s : State) (k : Nat) (m : Timer), s.emt.timers[k]? = some m →
    let held := ∃ f x, m.req.fen = some f ∧ s.fens[f]? = some x ∧ s.fenFrozen x = true
    (m.due ≤ s.cycle → ¬held → exec (.retryTimer k) s =
      .next { s with emt := { s.emt with timers := s.emt.timers.set k { m with ready := true } } }) ∧
    (s.cycle < m.due ∨ held → exec (.retryTimer k) s = .next s))

/-- R379, R380, R331 to R336, R411, R378: what the queue port answers, busy or accepted, and keeps; the distributor takes the
records of the rings in order, discards or accepts them, and divides a ready launch by die; an instance of another module's launch
is accepted ready; buckets are filled at the end of a window, once. The
turns of the distributor and the windows are the model's choice (log entries 81 and 87). -/
def Obligations.LaunchEvents : Prop :=
  (∀ (s : State) (fn : BitVec 7) (size : Nat) (rec : BitVec 1024), s.memOk →
    let f := fn.toNat
    let p := s.fnPart f
    let asid := fld (s.func f) 87 72
    let busy := s.boot.rel = false ∨ 2 ≤ (s.mig f).state ∨ 256 ≤ s.hts.subs.countP (fun u => u.part == p) ∨
      (s.occcap asid ≠ 0 ∧ s.occcap asid ≤ s.occupied asid)
    let bad := size ≠ 128 ∨ fld (s.func f) 0 0 = 0 ∨ s.asidCtx asid = none
    let full := s.recordOk rec asid p = true ∧ s.launchRoom rec asid = false
    let told : Answer → Device := fun r => { s.dev with answers := r :: s.dev.answers }
    (busy → exec (.qportSubmit fn size rec) s = .next { s with dev := told .busy }) ∧
    (¬busy → bad → ∃ t, exec (.qportSubmit fn size rec) s = .next t ∧ t.hts = s.hts ∧ t.dev.answers = .accepted :: s.dev.answers ∧
      ErrorSent s t f asid 0 1 ⟨0, 0, 9⟩ 0 4) ∧
    (¬busy → ¬bad → full → exec (.qportSubmit fn size rec) s = .next { s with dev := told .busy }) ∧
    (¬busy → ¬bad → ¬full → exec (.qportSubmit fn size rec) s =
      .next { s with hts := { s.hts with subs := s.hts.subs ++ [⟨p, asid, s.asidFn asid, f, rec⟩] }, dev := told .accepted })) ∧
  (∀ s : State, s.memOk →
    let room : Nat → Prop := fun d => s.htsUsed d < 4096
    let noWait := ∀ i ∈ s.hts.waiting, ¬room i.die
    let due : Nat → Submission → Prop := fun k u => (∀ j v, j < k → s.hts.subs[j]? = some v → v.part ≠ u.part) ∧
      (s.recordOk u.desc u.asid u.part = false ∨ s.launchRoom u.desc u.asid = true)
    let noRec := ∀ (k : Nat) (u : Submission), s.hts.subs[k]? = some u → ¬due k u
    let ready : Launch → Prop := fun l => l.distributed = false ∧ (Rec.named l.desc = true → l.dep = 0)
    (∀ (k : Nat) (i : DieInst), s.hts.waiting[k]? = some i → room i.die → (∀ (j : Nat) (v : DieInst), j < k → s.hts.waiting[j]? = some v → ¬room v.die) →
      ∃ t, exec .distribute s = .next t ∧ t.hts.insts = s.hts.insts ++ [{ i with since := s.cycle }] ∧
        t.hts.waiting = s.hts.waiting.eraseIdx k ∧ t.hts.launches = s.hts.launches ∧ t.hts.subs = s.hts.subs ∧
        ((∃ l, s.launchOf i.key = some l ∧ s.curCtx l.part ≠ none) → t.mem = s.mem)) ∧
    (∀ (k : Nat) (u : Submission), noWait → s.hts.subs[k]? = some u → due k u → (∀ j v, j < k → s.hts.subs[j]? = some v → ¬due j v) →
      (s.recordOk u.desc u.asid u.part = false → ∃ t, exec .distribute s = .next t ∧
        t.hts = { s.hts with subs := s.hts.subs.eraseIdx k } ∧ ErrorSent s t u.sub u.asid 0 2 ⟨0, 0, 9⟩ 0 4) ∧
      (s.recordOk u.desc u.asid u.part = true →
        let mine : Credit → Bool := fun c => Rec.named u.desc && c.die == Rec.hdie u.desc && c.asid == u.asid && c.name == Rec.name u.desc
        let credit := match s.hts.credits.find? mine with | some c => c.count | none => 0
        exec .distribute s = .next { s with hts := { s.hts with
          subs := s.hts.subs.eraseIdx k
          launches := s.hts.launches ++ [⟨s.hts.nextKey, u.asid, u.fn, s.fnPart u.fn, s.fnCtx u.fn, u.desc, s.dev.midx,
            if Rec.named u.desc then Rec.depcnt u.desc - credit else 0, false, 0, 0, false, none⟩]
          credits := s.hts.credits.filter (fun c => !mine c)
          nextKey := s.hts.nextKey + 1 } })) ∧
    (∀ (k : Nat) (l : Launch), noWait → noRec → s.hts.launches[k]? = some l → ready l → (∀ j m, j < k → s.hts.launches[j]? = some m → ¬ready m) →
      let given := s.assign l
      let mine := (List.range (Rec.total l.desc)).filter (fun n => Rec.moduleOf l.desc l.src (s.dev.gm1 + 1) n == s.dev.midx)
      let on : Nat → List (Nat × Option Nat) := fun d => (given.filter (fun g => g.1 == d)).map (fun g => (g.2, Rec.quadOf l.desc g.2))
      let all := if l.src = s.dev.midx then Rec.total l.desc else mine.length
      given.map (fun g => g.2) = mine ∧
      (∀ pre d n post, given = pre ++ (d, n) :: post →
        (∀ e, Rec.dieOf l.desc n = some e → d = e) ∧
        (Rec.dieOf l.desc n = none → Rec.quadInst l.desc n = none →
          (∃ e, e < 4 ∧ s.hasRect l.part e none (Rec.height l.desc) (Rec.width l.desc) = true) →
          let load : Nat → Nat := fun e => s.loadOf l.part e + pre.countP (fun g => g.1 == e)
          s.hasRect l.part d none (Rec.height l.desc) (Rec.width l.desc) = true ∧
          ∀ e, e < 4 → s.hasRect l.part e none (Rec.height l.desc) (Rec.width l.desc) = true →
            load d < load e ∨ (load d = load e ∧ d ≤ e))) ∧
      ∃ t, exec .distribute s = .next t ∧ (s.curCtx l.part ≠ none → t.mem = s.mem ∧ t.fens = s.fens) ∧
        t.hts.launches[k]? = some { l with distributed := true, left := all, remote := all - mine.length } ∧
        ∀ d, d < 4 → on d ≠ [] →
          let i : DieInst := ⟨d, l.key, on d, Rec.prio l.desc, s.cycle, none⟩
          (room d → i ∈ t.hts.insts) ∧ (¬room d → i ∈ t.hts.waiting)) ∧
    (noWait → noRec → (∀ l ∈ s.hts.launches, ¬ready l) → exec .distribute s = .next s)) ∧
  (∀ (s : State) (m : BitVec 6) (asid : BitVec 16) (rec : BitVec 1024),
    let f := s.asidFn asid.toNat
    let p := s.fnPart f
    ((s.asidCtx asid.toNat = none ∨ s.recordOk rec asid.toNat p = false) → exec (.groupLaunchInstance m asid rec) s = .next s) ∧
    (s.asidCtx asid.toNat ≠ none → s.recordOk rec asid.toNat p = true → Rec.named rec = false ∨ m.toNat ≠ s.dev.midx →
      exec (.groupLaunchInstance m asid rec) s = .next { s with hts := { s.hts with
        launches := s.hts.launches ++ [⟨s.hts.nextKey, asid.toNat, f, p, s.fnCtx f, rec, m.toNat, 0, false, 0, 0, false, none⟩]
        nextKey := s.hts.nextKey + 1 } })) ∧
  (∀ (s : State) (die : BitVec 2) (part : BitVec 4),
    let key := (die.toNat, part.toNat)
    let last := tabGet s.dev.refilled key 0
    (s.cycle % 1024 ≠ 0 ∨ last = s.cycle → exec (.rateRefill die part) s = .next s) ∧
    (s.cycle % 1024 = 0 → last ≠ s.cycle → ∃ t, exec (.rateRefill die part) s = .next t ∧
      { t with dev := { t.dev with buckets := s.dev.buckets, refilled := s.dev.refilled } } = s ∧
      tabGet t.dev.refilled key 0 = s.cycle ∧
      tabGet t.dev.buckets key 0 =
        min (fld (s.part part.toNat) 39 32) (tabGet s.dev.buckets key 0 + fld (s.part part.toNat) 31 16) ∧
      ∀ k, k ≠ key → tabGet t.dev.buckets k 0 = tabGet s.dev.buckets k 0))

/-- R337 to R346: an attempt goes to the partition whose turn it is and places the oldest task of its highest list at the
first anchor that qualifies; a start clears the tiles, loads the images and sets the core; waiting entries age; a task that
has finished holds no beats, is counted down, its completion word stored and its tiles freed; the balancer's windows, and a clone
with the SPLIT before it and the MERGE behind it once the node's firing in progress is over. The rounds, the windows and the places of
a clone are the model's reading (log entries 83, 87, 88 and 144). -/
def Obligations.PlacementEvents : Prop :=
  (∀ (s : State) (die : BitVec 2) (p k n : Nat) (i : DieInst) (l : Launch) (quad : Option Nat) (rest : List (Nat × Option Nat))
      (needs : List (Nat × Nat)),
    let d := die.toNat
    let left : Nat → Nat := fun q => match s.hts.rounds.find? (fun r => r.1 == d && r.2.1 == q) with | some r => r.2.2 | none => 0
    let ready : Nat → Prop := fun q => q < 16 ∧ (s.headInst d q).isSome = true
    (∀ q, q < 16 → (∃ z, s.sliceOf q = some z ∧ z.stopped = false) ∨ ∀ c, s.runnable q c = false) →
    ready p → (left p ≠ 0 ∧ (∀ q, q < p → ready q → left q = 0)) ∨ ((∀ q, ready q → left q = 0) ∧ (∀ q, q < p → ¬ready q)) →
    s.headInst d p = some (k, i) → (d, p) ∉ s.hts.stuck → i.tasks = (n, quad) :: rest → s.launchOf i.key = some l →
    i.needs = some needs →
    let h := Rec.height l.desc
    let w := Rec.width l.desc
    let g := regionOf quad
    let inside : Nat → Nat → Prop := fun r c => g.1 ≤ r ∧ r + h ≤ g.2.1 + 1 ∧ r ≤ g.2.1 ∧ g.2.2.1 ≤ c ∧ c + w ≤ g.2.2.2 + 1 ∧ c ≤ g.2.2.2
    let fits : Nat → Nat → Prop := fun r c =>
      (∀ y x, r ≤ y → y < r + h → c ≤ x → x < c + w → s.owns l.part ⟨d, y, x⟩ = true ∧ s.tileFree ⟨d, y, x⟩ = true) ∧
      (∀ q ∈ needs, ∃ m, (s.mptsFor l.part d r c h w)[q.1]? = some m ∧
        (q.2 = 0 ∨ ∀ x ∈ s.fens, s.holding x = true → (m, q.2) ∉ x.mslots))
    (∀ r c, inside r c → fits r c → (∀ r' c', inside r' c' → fits r' c' → r < r' ∨ (r = r' ∧ c ≤ c')) →
      ∃ t x, exec (.placementAttempt die) s = .next t ∧ t.fens = s.fens ++ [x] ∧ x.anchor = ⟨d, r, c⟩ ∧ x.height = h ∧ x.width = w ∧
        x.mpts = s.mptsFor l.part d r c h w ∧ x.state = 1 ∧ x.asid = l.asid ∧ x.fn = l.fn ∧ x.part = l.part ∧ x.ctx = l.ctx ∧
        x.launch = l.key ∧ x.core.lix = (tupleOf (Rec.counts l.desc) n).map (BitVec.ofNat 32) ∧
        t.hts.insts[k]? = some { i with tasks := rest, since := s.cycle } ∧ t.mem = s.mem) ∧
    ((∀ r c, inside r c → ¬fits r c) → ∃ t, exec (.placementAttempt die) s = .next t ∧ t.fens = s.fens ∧ t.hts.insts = s.hts.insts ∧
      (d, l.part) ∈ t.hts.stuck ∧ t.mem = s.mem)) ∧
  (∀ (s : State) (f : Nat) (x : Fen) (l : Launch), s.fens[f]? = some x → x.state = 1 → s.fenFrozen x = false →
    s.launchOf x.launch = some l → (∀ (g : Nat) (y : Fen), g ≠ f → s.fens[g]? = some y → y.state ≠ 1) →
    let on : State → Fen → Prop := fun t y => exec .fenStart s = .next t ∧ t.fens[f]? = some y ∧ ∀ g, g ≠ f → t.fens[g]? = s.fens[g]?
    let next : Fen := { x with loading := x.loading + 1, core := { x.core with img := [] } }
    (x.loading = 0 → s.memOk → s.mem.full.Nodup →
      let other := ∃ t ∈ x.tiles, tabGet s.hts.last t.ix x.asid ≠ x.asid
      ∃ t, on t next ∧
        (∀ a, t.mem.get a = if other ∧ (∃ u ∈ x.tiles, keyScratch u 0 ≤ a ∧ a < keyScratch u 0 + 524288) then 0 else s.mem.get a) ∧
        (∀ u ∈ x.tiles, ∀ o, o < 32768 → t.mem.isFull (keyScratch u 0 / 16 + o) = false) ∧
        (∀ u ∈ x.tiles, tabGet t.hts.last u.ix 0 = x.asid)) ∧
    (1 ≤ x.loading → x.loading ≤ 4 → Rec.img l.desc (x.loading - 1) = 0 → ∃ t, on t next ∧ t.mem = s.mem) ∧
    (∀ m, 1 ≤ x.loading → x.loading ≤ 4 → Rec.img l.desc (x.loading - 1) ≠ 0 →
      s.imgStep x (fcReq f x) (Rec.img l.desc (x.loading - 1)) x.core.img = .loaded m →
      ∃ t, on t { next with mantles := updNth x.mantles (x.loading - 1) (fun _ => some m) } ∧ t.mem = s.mem) ∧
    (5 ≤ x.loading → ∃ t y, on t y ∧ t.mem = s.mem ∧ y.state = 2 ∧ y.dropped = 0 ∧ y.status = 0 ∧ y.cur = 0 ∧
      (∀ r, y.core.regs.get r = 0#64) ∧ y.core.pc = BitVec.ofNat 64 (Rec.entry l.desc) ∧
      y.core.seq = BitVec.ofNat 64 (Rec.seq l.desc) ∧ y.core.argp = BitVec.ofNat 64 (Rec.args l.desc) ∧
      y.core.complw = BitVec.ofNat 64 (Rec.complw l.desc) ∧ y.core.lix = x.core.lix ∧ y.core.rm = 0 ∧ y.core.trapvec = 0 ∧
      y.core.flag = false ∧ y.core.phase = .fetch)) ∧
  (∀ (s : State) (die : BitVec 2) (k j : Nat) (i : DieInst) (l : Launch),
    (s.hts.insts.zipIdx.filter (fun q => q.1.die == die.toNat && !q.1.tasks.isEmpty))[k]? = some (i, j) →
    s.launchOf i.key = some l →
    let still := 7 ≤ i.prio ∨ s.cycle < i.since + 1200000 ∨ s.frozen l.part l.ctx = true
    (still → exec (.aging die k) s = .next s) ∧
    (¬still → ∃ t, exec (.aging die k) s = .next t ∧
      t.hts.insts = s.hts.insts.eraseIdx j ++ [{ i with prio := i.prio + 1, since := s.cycle }] ∧
      (die.toNat, l.part) ∉ t.hts.stuck ∧ t.fens = s.fens ∧ t.mem = s.mem)) ∧
  (∀ (s : State) (f : Nat) (x : Fen) (l : Launch), s.memOk → s.fens[f]? = some x → x.live = true → s.fenFrozen x = false →
    (x.state = 1 → x.term.isSome = true) → x.finished = true → s.launchOf x.launch = some l →
    (∀ (g : Nat) (y : Fen), g ≠ f → s.fens[g]? = some y → y.live = false) →
    (∀ m ∈ s.hts.launches, m.key = l.key ∨ ¬(m.distributed = true ∧ m.left = 0)) →
    let on : State → (Fen → Prop) → Prop := fun t q => exec .taskComplete s = .next t ∧ (∃ y, t.fens[f]? = some y ∧ q y) ∧
      ∀ g, g ≠ f → t.fens[g]? = s.fens[g]?
    let answered := (∀ e ∈ s.xl.ext, e.req.fen = some f → e.resp.isSome = true) ∧ s.sending f = false
    let term := l.anyTerm || x.term.isSome
    let counted := s.hts.launches.map (fun m => if m.key = l.key then { m with left := m.left - 1, anyTerm := m.anyTerm || x.term.isSome } else m)
    let gone := s.hts.launches.filter (fun m => m.key != l.key)
    (x.drain = 0 → ∃ t, on t (fun y => y.drain = 1 ∧ y.state = (if x.term.isSome then 7 else 4) ∧ y.dropped = x.dropped ∧ y.status = x.status ∧
        y.core = x.core ∧ y.selq = [] ∧ ∀ o ∈ y.mantles, ∀ m, o = some m → (∀ r ∈ m.relays, r.q = []) ∧
          ∀ n ∈ m.nodes, (∀ q ∈ n.inq, q = []) ∧ (∀ q ∈ n.outq, q = []) ∧ n.mem.owe = []) ∧ t.hts = s.hts ∧ t.mem = s.mem) ∧
    (x.drain = 1 → ¬answered → exec .taskComplete s = .next s) ∧
    (x.drain = 1 → answered → 2 ≤ l.left → ∃ t, on t (fun y => y.drain = 3) ∧ t.hts.launches = counted ∧ t.mem = s.mem) ∧
    (x.drain = 1 → answered → l.left = 1 → l.src = s.dev.midx → Rec.complw l.desc ≠ 0 →
      ∃ t, on t (fun y => y.drain = 2) ∧ t.hts.launches = counted ∧ t.mem = s.mem) ∧
    (x.drain = 1 → answered → l.left = 1 → l.src = s.dev.midx → Rec.complw l.desc = 0 → Rec.succen l.desc = false ∨ term = true →
      ∃ t, on t (fun y => y.drain = 3) ∧ t.hts.launches = gone ∧ t.hts.credits = s.hts.credits ∧ t.mem = s.mem) ∧
    (∀ ph, x.drain = 2 → s.Reaches x (fcReq f x) .write (Rec.complw l.desc) 8 ph →
      ∃ t, on t (fun y => y.drain = 3) ∧ Stored s t ph.key (toLE 8 (Rec.seq l.desc)) ∧
        (Rec.succen l.desc = false ∨ l.anyTerm = true ∨ l.src ≠ s.dev.midx → t.hts.launches = gone ∧ t.hts.credits = s.hts.credits) ∧
        (Rec.succen l.desc = true → l.anyTerm = false → l.src = s.dev.midx →
          (∀ m ∈ gone, ¬(Rec.named m.desc = true ∧ Rec.hdie m.desc = Rec.succdie l.desc ∧ m.asid = l.asid ∧
            Rec.name m.desc = Rec.succ l.desc ∧ m.src = s.dev.midx)) →
          (∀ c ∈ s.hts.credits, ¬(c.die = Rec.succdie l.desc ∧ c.asid = l.asid ∧ c.name = Rec.succ l.desc)) →
          s.htsUsed (Rec.succdie l.desc) < 4096 →
          t.hts.credits = s.hts.credits ++ [⟨Rec.succdie l.desc, l.asid, Rec.succ l.desc, 1⟩]))) ∧
  (∀ (s : State) (f : Nat) (x : Fen), s.fens[f]? = some x → x.live = true → s.fenFrozen x = false → x.finished = true →
    (x.state = 1 → x.term.isSome = true) → x.drain = 3 → (∀ (g : Nat) (y : Fen), g ≠ f → s.fens[g]? = some y → y.live = false) →
    (∀ m ∈ s.hts.launches, ¬(m.distributed = true ∧ m.left = 0)) →
    ∃ t, exec .taskComplete s = .next t ∧ t.fens[f]? = some { x with state := 6, spares := [], mslots := [] } ∧ t.seq = s.seq + 1 ∧
      t.hts.launches = s.hts.launches ∧ (x.die, x.part) ∉ t.hts.stuck ∧ t.mem = s.mem ∧ ∀ g, g ≠ f → t.fens[g]? = s.fens[g]?) ∧
  (∀ (s : State) (die : BitVec 2),
    (s.cycle % 4096 ≠ 0 → exec (.balancerWindow die) s = .next s) ∧
    (s.cycle % 4096 = 0 → ∃ t, exec (.balancerWindow die) s = .next t ∧ t.mem = s.mem ∧ t.hts = s.hts ∧
      ∀ (f k j : Nat) (x : Fen) (m : Mantle) (n : Node), s.fens[f]? = some x → x.live = true → x.die = die.toNat → s.fenFrozen x = false →
        x.mantles[j]? = some (some m) → m.nodes[k]? = some n →
        let since : Nat → Nat → Nat := fun now then' => (now + 2 ^ 32 - then') % 2 ^ 32
        let fed := ∃ w ∈ m.wires, w.kind = 1 ∧ (∃ p, p < 4 ∧ w.dst = .node n.tile n.slot p) ∧
          ∃ q, m.source 64 w = some q ∧ 2048 ≤ since q.stalled q.seen.1
        let worst := since n.stalled n.seen.1 < 256 ∧ since n.starved n.seen.2 < 256 ∧ fed
        ∃ (y : Fen) (v : Mantle) (e : Node), t.fens[f]? = some y ∧ y.mantles[j]? = some (some v) ∧ v.nodes[k]? = some e ∧
          { e with wins := n.wins, seen := n.seen } = n ∧ e.seen = (n.stalled, n.starved) ∧
          (worst → e.wins = n.wins + 1) ∧ (¬worst → e.wins = 0))) ∧
  (∀ (s : State) (slot : BitVec 8),
    ((∀ x ∈ s.fens, s.cloneIn x slot.toNat = none) → ∃ t, exec (.cloneNode slot) s = .next t ∧ { t with fens := s.fens } = s ∧
      ∀ (f : Nat) (x : Fen) (m : Mantle), s.fens[f]? = some x → x.mantle = some m →
        ∃ y v, t.fens[f]? = some y ∧ { y with mantles := x.mantles } = x ∧ y.mantle = some v ∧
          v.nodes = m.nodes.map (fun n => if n.slot = slot.toNat then { n with held := false } else n)) ∧
    (∀ (f k : Nat) (x : Fen) (u : Tile) (m : Mantle) (n : Node), s.fens[f]? = some x → s.cloneIn x slot.toNat = some (k, u) →
      (∀ (g : Nat) (y : Fen), g < f → s.fens[g]? = some y → s.cloneIn y slot.toNat = none) → x.mantle = some m → m.nodes[k]? = some n →
      (∀ (j : Nat) (q : Node), m.nodes[j]? = some q → q.tile = n.tile → q.slot = n.slot → j = k) →
      let atom := n.opc = 0x45
      let len := m.nodes.length
      let mine : End := .node n.tile n.slot 0
      (n.slot = slot.toNat ∧ (nodeHdr n.ins).clone = true ∧ (nodeHdr n.ins).guard = .off ∧ n.clone = false ∧ (n.held = true ∨ 8 ≤ n.wins) ∧
        (atom ∨ (1 ≤ n.opc ∧ n.opc ≤ 0x10) ∨ (0x18 ≤ n.opc ∧ n.opc ≤ 0x1D)) ∧ x.spares.length < 4 ∧
        (if n.opc = 0x45 then 1 else 2) ≤ ([5, 6, 7, 8].filter (fun k => !m.nodes.any (fun q => q.tile == n.tile && q.slot == k))).length ∧
        s.owns x.part u = true ∧ s.tileFree u = true ∧ u.die = x.die) ∧
      ∃ t y, ∃ v : Mantle, exec (.cloneNode slot) s = .next t ∧ t.mem = s.mem ∧ t.fens[f]? = some y ∧ y.mantle = some v ∧
        (∀ g, g ≠ f → t.fens[g]? = s.fens[g]?) ∧ (∀ j, j ≠ k → j < len → v.nodes[j]? = m.nodes[j]?) ∧
        (n.mem.owe ≠ [] ∨ n.mem.win ≠ [] → y.spares = x.spares ∧ v.nodes[k]? = some { n with held := true } ∧ v.nodes.length = len) ∧
        (n.mem.owe = [] → n.mem.win = [] → y.spares = x.spares ++ [u] ∧ v.nodes.length = len + (if n.opc = 0x45 then 2 else 3) ∧
          ∃ e p c, v.nodes[k]? = some e ∧ v.nodes[len]? = some p ∧ v.nodes[len + 1]? = some c ∧
            (e.ins = n.ins ∧ e.tile = n.tile ∧ e.slot = n.slot ∧ e.held = false ∧ e.mem = n.mem ∧ ∀ q ∈ e.inq, q = []) ∧
            (p.opc = 0x67 ∧ p.tile = n.tile ∧ p.slot ∈ [5, 6, 7, 8] ∧ p.clone = true ∧ p.inq = n.inq) ∧
            (c.ins = n.ins ∧ c.tile = u ∧ c.slot = n.slot ∧ c.clone = true) ∧
            (∀ w j, w ∈ m.wires → w.dst = .node n.tile n.slot j → j < 4 → w.src ≠ mine → { w with dst := .node n.tile p.slot j } ∈ v.wires) ∧
            (∀ j, j < 3 → (∃ o q, (NodeHdr.ins (nodeHdr n.ins))[j]? = some (.circuit o q)) ∨
                (∃ o q, (NodeHdr.ins (nodeHdr n.ins))[j]? = some (.near o q)) →
              (∃ w ∈ v.wires, w.src = .node n.tile p.slot (2 * j) ∧ w.dst = .node n.tile n.slot j) ∧
              (∃ w ∈ v.wires, w.src = .node n.tile p.slot (2 * j + 1) ∧ w.dst = .node u n.slot j)) ∧
            (¬atom → ∃ q, v.nodes[len + 2]? = some q ∧ q.opc = 0x68 ∧ q.tile = n.tile ∧ q.slot ∈ [5, 6, 7, 8] ∧ q.slot ≠ p.slot ∧
              q.clone = true ∧ q.outq = n.outq ∧ (∀ o ∈ e.outq, o = []) ∧
              (∀ w ∈ m.wires, w.src = mine → (∀ j, w.dst ≠ .node n.tile n.slot j) → { w with src := .node n.tile q.slot 0 } ∈ v.wires) ∧
              (∃ w ∈ v.wires, w.src = mine ∧ w.dst = .node n.tile q.slot 0) ∧
              (∃ w ∈ v.wires, w.src = .node u n.slot 0 ∧ w.dst = .node n.tile q.slot 1)))))

/-- R382 to R388, R391 to R394: the end of a slice freezes for the next runnable context, goes over to it, stays, or stops the
clock, which a runnable context starts again; a complete freeze, for which a block that awaits the world outside the module does not
wait, writes the save image, once the host holds no line of it, and takes the held flits from the routers; a
switch makes the next context current and restores it from its image, whose layout is the model's where log entry 145 says so; a
restore ends with the answers awaited there; and the states, dirty pages and windows of a migration. The image of a tenant context,
marks on scratch, and the page list are the model's reading (log entries 91, 94, 95 and 96). -/
def Obligations.SliceEvents : Prop :=
  (∀ (s : State) (part : BitVec 4) (z : Slice),
    let p := part.toNat
    let past := z.since + 120000 * fld (s.part p) 63 48 ≤ s.cycle
    let nextIs : Nat → Prop := fun c => ∃ j, 1 ≤ j ∧ j ≤ 31 ∧ c = (z.cur + j) % 32 ∧ s.runnable p c = true ∧
      ∀ i, 1 ≤ i → i < j → s.runnable p ((z.cur + i) % 32) = false
    let alone := ∀ j, 1 ≤ j → j ≤ 31 → s.runnable p ((z.cur + j) % 32) = false
    let others := s.slices.filter (fun y => y.part != p)
    let slice : Nat → Bool → State := fun c stop => { s with
      slices := ⟨p, c, if stop then z.since else s.cycle, stop⟩ :: others
      hts := if stop then s.hts else { s.hts with stuck := s.hts.stuck.filter (fun q => decide (q.2 ≠ p ∨ 4 ≤ q.1)) } }
    s.sliceOf p = some z →
    (z.stopped = true → 0 < fld (s.part p) 63 48 → s.runnable p z.cur = true → s.frzOf p z.cur = none →
      exec (.sliceEnd part) s = .next (slice z.cur false)) ∧
    (z.stopped = true → (∀ c, s.runnable p c = false) → exec (.sliceEnd part) s = .next s) ∧
    (z.stopped = false → ¬past → exec (.sliceEnd part) s = .next s) ∧
    (z.stopped = false → past → s.frzOf p z.cur = none →
      (alone → s.runnable p z.cur = true → exec (.sliceEnd part) s = .next (slice z.cur false)) ∧
      (alone → s.runnable p z.cur = false → exec (.sliceEnd part) s = .next (slice z.cur true)) ∧
      (∀ c, nextIs c → s.ctxPlaced p z.cur = false → s.frzOf p c = none → exec (.sliceEnd part) s = .next (slice c false)) ∧
      (∀ c, nextIs c → s.ctxPlaced p z.cur = true → ∃ t, exec (.sliceEnd part) s = .next t ∧
        t.frz = s.frz ++ [⟨p, z.cur, .stalling, s.cycle, s.seq, 0, some c, [], [], []⟩] ∧ t.seq = s.seq + 1 ∧ t.slices = s.slices ∧ t.mem = s.mem ∧
        ∀ (f : Nat) (x : Fen), s.fens[f]? = some x → t.fens[f]? = some
          (if x.live ∧ x.part = p ∧ x.ctx = z.cur ∧ ¬(x.core.phase = .granted ∨ x.core.phase = .commit ∨ x.core.phase = .halted)
           then { x with core := x.core.fresh } else x)))) ∧
  (∀ (s : State) (part : BitVec 4) (z : Frz), s.memOk →
    let p := part.toNat
    s.frz.find? (fun y => y.part == p && y.st == .stalling) = some z →
    let mine : Fen → Prop := fun x => x.live = true ∧ x.part = p ∧ x.ctx = z.ctx
    let from' : Req → Prop := fun r => ∃ f x, r.fen = some f ∧ s.fens[f]? = some x ∧ x.part = p ∧ x.ctx = z.ctx
    let outside : Nat → Prop := fun f => ∃ e ∈ s.xl.ext, e.req.fen = some f ∧ e.req.srck = 0
    let waits := (∃ f x, s.fens[f]? = some x ∧ mine x ∧ (x.core.phase = .granted ∨ x.core.phase = .commit) ∧ ¬outside f) ∨
      (∃ w ∈ s.xl.walks, w.running = true ∧ ∃ r ∈ w.reqs, from' r.req) ∨ (∃ q ∈ s.emt.fills, from' q.1) ∨
      (∃ q ∈ s.net.packets, q.resp = true ∧ from' q.src)
    let out := (s.heldFlits p).map (fun q => q.1)
    let kept : Nat → Bool := fun k => (s.ctxTiles p z.ctx).any (fun u => decide (keyScratch u 0 ≤ k ∧ k < keyScratch u 0 + 524288))
    let img := s.saveImage p z.ctx z.seq
    let n := (s.ctxTiles p z.ctx).length
    let m := (s.ctxMpts p z.ctx).length
    let at' : Nat → Nat := fun k => keySpread (s.saveArea p z.ctx + k)
    (waits → exec (.freezeComplete part) s = .next s) ∧
    (img.length = 4096 + 573440 * n + 16384 * m + (32 * out.length + 4095) / 4096 * 4096 ∧ imgAt img 12 4 = out.length % 2 ^ 32 ∧ imgAt img 0 2 = 0x5346 ∧ imgAt img 2 2 = 1 ∧ imgAt img 4 1 = p ∧
      imgAt img 5 1 = z.ctx % 256 ∧ imgAt img 6 2 = n % 65536 ∧ imgAt img 8 2 = m % 65536 ∧ imgAt img 16 8 = z.seq % 2 ^ 64 ∧
      imgAt img 24 4 = crc32c (img.take 24 ++ List.replicate 4 0 ++ img.drop 28) ∧
      ∀ j u, (s.ctxTiles p z.ctx)[j]? = some u →
        (img.drop (4096 + 573440 * j + 4096)).take 524288 = s.mem.getN (keyScratch u 0) 524288 ∧
        ∀ g, g < 32768 → (imgAt img (4096 + 573440 * j + 528384 + g / 8) 1 / 2 ^ (g % 8) % 2 = 1 ↔
          s.mem.isFull (keyScratch u 0 / 16 + g) = true)) ∧
    (∀ l, ¬waits → s.emt.hostHas.find? (fun l => s.inSave p z.ctx l) = some l →
      exec (.freezeComplete part) s = .next (s.sendSnoop ⟨none, 3, ⟨0, 0, 0⟩, 0, 0, 0, 0⟩ l)) ∧
    (¬waits → s.emt.hostHas.find? (fun l => s.inSave p z.ctx l) = none → ∃ t, exec (.freezeComplete part) s = .next t ∧ t.fens = s.fens ∧
      t.frz = s.frz.map (fun y => if y.part = p ∧ y.ctx = z.ctx then 
        { y with st := .saved, size := img.length, held := out, poison := s.mem.poison.filter kept, fixed := s.mem.fixed.filter kept } else y) ∧
      t.net = { s.net with flits := s.net.flits.filter (fun f => !out.contains f) } ∧
      (∀ k b, img[k]? = some b → t.mem.get (at' k) = b) ∧ (∀ a, (∀ k, k < img.length → a ≠ at' k) → t.mem.get a = s.mem.get a))) ∧
  (∀ (s : State) (part : BitVec 4) (z : Frz) (c : Nat), s.memOk →
    let p := part.toNat
    s.frz.find? (fun y => y.part == p && y.st == .saved && y.next.isSome) = some z → z.next = some c → s.runnable p c = true → c ≠ z.ctx →
    let out : List Frz := s.frz.map (fun y => if y.part = p ∧ y.ctx = z.ctx then { y with next := none } else y)
    let turn : State → Prop := fun t => exec (.contextSwitch part) s = .next t ∧ t.sliceOf p = some ⟨p, c, s.cycle, false⟩ ∧
      ∀ d, d < 4 → (d, p) ∉ t.hts.stuck
    (s.frzOf p c = none → ∃ t, turn t ∧ t.frz = out ∧ t.mem = s.mem ∧ t.fens = s.fens) ∧
    (∀ y, s.frzOf p c = some y → y.st = .saved → s.restoreOk p y = true →
      let img := s.mem.getSpread (s.saveArea p c) y.size
      let ts := imageTiles img
      ∃ t, turn t ∧ t.frz = out.map (fun y => if y.part = p ∧ y.ctx = c then { y with st := .restoring, next := none } else y) ∧
        (∀ j u, ts.Nodup → ts[j]? = some u → 4096 + 573440 * (j + 1) ≤ img.length →
          t.mem.getN (keyScratch u 0) 524288 = (img.drop (4096 + 573440 * j + 4096)).take 524288 ∧
          ∀ g, g < 32768 → (t.mem.isFull (keyScratch u 0 / 16 + g) = true ↔
            imgAt img (4096 + 573440 * j + 528384 + g / 8) 1 / 2 ^ (g % 8) % 2 = 1)) ∧
        (∀ f x, s.ctxFens p c = [(f, x)] → imgAt img 6 2 = 1 → imgAt img 4099 1 = 0 → imgAt img 4100 1 ≠ 0 →
          ∃ e, t.fens[f]? = some e ∧ e.core.pc = BitVec.ofNat 64 (imgAt img 4104 8) ∧
            ∀ r, r < 64 → e.core.regs[r]? = some (BitVec.ofNat 64 (imgAt img (4112 + 8 * r) 8)))) ∧
    (∀ y f, s.frzOf p c = some y → y.st = .saved → s.restoreOk p y = false → s.ctxFns p c = [f] →
      (∀ j, 1 ≤ j → j ≤ 31 → s.runnable p ((c + j) % 32) = false) → ∃ t, turn t ∧ t.frz = out ∧ t.fens = s.fens ∧
      ErrorSent s t f 0 0 c ⟨0, 0, 0⟩ 0 8)) ∧
  (∀ (s : State) (part : BitVec 4) (z : Frz),
    let p := part.toNat
    s.frz.find? (fun y => y.part == p && y.st == .restoring) = some z →
    let mine : Req → Prop := fun r => ∃ f x, r.fen = some f ∧ s.fens[f]? = some x ∧ x.part = p ∧ x.ctx = z.ctx
    let waits := ∃ e ∈ s.xl.ext, mine e.req ∧ e.resp = none
    (waits → exec (.restoreComplete part) s = .next s) ∧
    (¬waits → (∀ q ∈ s.xl.pending, q.verdict = none) → (∀ m ∈ s.migs, m.2.state ≠ 2) →
      ∃ t, exec (.restoreComplete part) s = .next t ∧ t.mem = s.mem ∧ t.net = { s.net with flits := z.held ++ s.net.flits } ∧
        t.hts.insts = s.hts.insts.map (fun i => if s.instIn p z.ctx i then { i with since := i.since + (s.cycle - max i.since z.since) } else i) ∧
        t.frz = s.frz.filter (fun y => !(y.part == p && y.ctx == z.ctx)) ∧
        (∀ (f : Nat) (x : Fen), s.fens[f]? = some x → t.fens[f]? = some (if x.live ∧ x.part = p ∧ x.ctx = z.ctx
          then { x with core := { x.core with flag := true } } else x)) ∧
        (∀ (k : Nat) (m : Timer), s.emt.timers[k]? = some m → (mine m.req → t.emt.timers[k]? = some { m with due := m.due + (s.cycle - z.since) }) ∧
          (¬mine m.req → t.emt.timers[k]? = some m)))) ∧
  (∀ (s : State) (k : Nat) (e : Ext) (data : List (BitVec 8)), s.xl.ext[k]? = some e →
    let met := e.acc = .rmw ∧ ∃ j d, j ≠ k ∧ s.xl.ext[j]? = some d ∧ d.acc = .rmw ∧ d.resp ≠ none ∧ d.key < e.key + e.len ∧ e.key < d.key + d.len
    (e.resp = none → ¬met → exec (.externalResponse k data) s =
      .next { s with xl := { s.xl with ext := s.xl.ext.set k { e with resp := some data } } }) ∧
    (e.resp ≠ none ∨ met → exec (.externalResponse k data) s = .next s)) ∧
  (∀ (s : State) (fn : BitVec 7), s.boot.rel = true → fn ≠ 0#7 → s.memOk →
    let f := fn.toNat
    let m := s.mig f
    let p := s.fnPart f
    let c := s.fnCtx f
    let refused : Instr → Prop := fun i => ∃ t, exec i s = .next t ∧ t.mig f = { m with err := true } ∧ { t with migs := s.migs } = s ∧
      ∀ g, g ≠ f → t.mig g = s.mig g
    let said : State → List Nat → Prop := fun t vs => t.dev.msix = s.dev.msix ++ vs.map (fun v => ⟨f, v⟩)
    let base : Nat → Nat := fun k => m.list / 16 * 16 + 16 * k
    let num : Nat → Nat := fun a => leNat (s.mem.getSpread a 8)
    let clean : Mig → Prop := fun q => q.pages = [] ∧ q.dirty = [] ∧ q.buf = [] ∧ q.count = 0 ∧ q.ended = false ∧ q.broken = false
    let w := (m.sleeve ++ List.replicate 4096 0).take (min m.len 4096)
    let pageRec : Nat → List Byte → List Byte := fun a b =>
      let h := toLE 2 1 ++ toLE 2 0 ++ toLE 4 4096 ++ toLE 8 a ++ b
      h ++ toLE 4 (crc32c h) ++ List.replicate 12 0
    (m.state = 0 → ∃ t, exec (.migPreCopy fn) s = .next t ∧ (t.mig f).state = 1 ∧ (t.mig f).dirty = (t.mig f).pages ∧ said t [3] ∧
      (∀ a, a ∈ (t.mig f).pages ↔ ∃ k j, k < m.cnt ∧ j < num (base k + 8) ∧ num (base k) / 4096 + j < 2 ^ 36 ∧
        a = (num (base k) / 4096 + j) * 4096)) ∧
    (m.state ≠ 0 → refused (.migPreCopy fn)) ∧
    (2 ≤ m.state → refused (.migStop fn)) ∧
    (∀ z, m.state < 2 → (s.migs.map (fun q => q.1)).Nodup → (∀ q ∈ s.migs, q.1 ≠ f → q.2.state ≠ 2) → s.frzOf p c = some z → z.st = .saved →
      ∃ t, exec (.migStop fn) s = .next t ∧ (t.mig f).state = 3 ∧ said t [3, 3] ∧ t.fens = s.fens ∧ t.frz = s.frz ∧ t.mem = s.mem) ∧
    (m.state < 2 → s.frzOf p c = none →
      ∃ t, exec (.migStop fn) s = .next t ∧ (t.mig f).state = 2 ∧ said t [3] ∧
        t.frz = s.frz ++ [⟨p, c, .stalling, s.cycle, s.seq + 1, 0, none, [], [], []⟩] ∧ t.mem = s.mem) ∧
    (m.state = 1 ∨ m.state = 3 ∨ (m.state = 4 ∧ m.ended = true ∧ m.broken = false) → (∃ z, s.sliceOf p = some z ∧ z.stopped = false) →
      ∃ t, exec (.migRun fn) s = .next t ∧ (t.mig f).state = 0 ∧ clean (t.mig f) ∧ said t [3] ∧ t.mem = s.mem) ∧
    (¬(m.state = 1 ∨ m.state = 3 ∨ (m.state = 4 ∧ m.ended = true ∧ m.broken = false)) → refused (.migRun fn)) ∧
    (m.state = 0 → s.hasTasks f = false → ∃ t, exec (.migResume fn) s = .next t ∧ (t.mig f).state = 4 ∧ clean (t.mig f) ∧ said t [3] ∧
      t.mem = s.mem) ∧
    (m.state ≠ 0 ∨ s.hasTasks f = true → refused (.migResume fn)) ∧
    (m.state ≠ 1 → m.state ≠ 3 → m.state ≠ 4 → refused (.sleeveGo fn)) ∧
    (m.state = 1 ∨ m.state = 3 → 4096 ≤ m.buf.length → ∃ t, exec (.sleeveGo fn) s = .next t ∧
      t.mig f = { m with buf := m.buf.drop 4096, ofs := m.count, len := 4096, count := m.count + 4096,
                         sleeve := m.buf.take 4096 ++ m.sleeve.drop 4096 }) ∧
    (m.state = 1 → m.buf = [] → m.dirty = [] → ∃ t, exec (.sleeveGo fn) s = .next t ∧
      t.mig f = { m with ofs := m.count, len := 0 }) ∧
    (∀ a r k, m.state = 1 ∨ m.state = 3 → m.buf = [] → m.dirty = a :: r → s.pageKey p a = some k → s.Clean →
      let e := pageRec a (s.mem.getN k 4096)
      ∃ t, exec (.sleeveGo fn) s = .next t ∧ (t.mig f).dirty = r ∧ (t.mig f).buf = e.drop 4096 ∧ (t.mig f).ofs = m.count ∧
        (t.mig f).len = 4096 ∧ (t.mig f).sleeve.take 4096 = e.take 4096) ∧
    (m.state = 4 → m.broken = true ∨ m.ofs ≠ m.count → refused (.sleeveGo fn)) ∧
    (∀ a b k tail, m.state = 4 → m.broken = false → m.ended = false → m.ofs = m.count → m.buf ++ w = pageRec a b ++ tail →
      b.length = 4096 → a < 2 ^ 64 → tail.length < 16 → s.pageKey p a = some k →
      ∃ t, exec (.sleeveGo fn) s = .next t ∧ Stored s t k b ∧ t.mig f = { m with buf := tail, count := m.count + w.length }) ∧
    (∀ a b crc tail, m.state = 4 → m.broken = false → m.ended = false → m.ofs = m.count →
      let h := toLE 2 1 ++ toLE 2 0 ++ toLE 4 4096 ++ toLE 8 a ++ b
      m.buf ++ w = h ++ toLE 4 crc ++ tail → b.length = 4096 → crc < 2 ^ 32 → crc ≠ crc32c h → 12 ≤ tail.length →
      ∃ t, exec (.sleeveGo fn) s = .next t ∧ (t.mig f).broken = true ∧ (t.mig f).err = true ∧ t.mem = s.mem))

/-- R3, R4, R372, R373, R375, R377, R404 to R407, R409, R410, R412, R316, R321, R385: verdicts, tensor-window operations,
invalidations and register writes reach the device once the fabric is released, and before that have no effect; each is refused as
its rule says; a read answers the register, zero for a write-only one and for an offset that names nothing, and before release only
BOOTSTAT answers. Widths, the units of offsets, what a verdict reaches and the turns of a tensor-window operation are the model's
(log entries 30, 32, 103, 106 and 154). -/
def Obligations.HostRegisterEvents : Prop :=
  (∀ (s : State) (fn : BitVec 7) (seq val : BitVec 64) (a : BitVec 16) (k : BitVec 12) (ofs : BitVec 21), s.boot.rel = false →
    ∀ i ∈ [Instr.faultVerdict fn seq, .twWrite fn a k, .twRead fn a k, .twRemove fn a k, .invVa fn a, .invAsid fn a, .invIpa fn a,
      .invPart fn a, .invAll fn, .registerWrite fn ofs val, .migPreCopy fn, .migStop fn, .migRun fn, .migResume fn, .sleeveGo fn],
      exec i s = .next s) ∧
  (∀ (s : State) (fn : BitVec 7), s.boot.rel = true → s.memOk →
    let f := fn.toNat
    let q := s.page f
    let pageOnly : State → FnPage → Prop := fun t y => t.page f = y ∧ (∀ g, g ≠ f → t.page g = s.page g) ∧
      { t with dev := { t.dev with pages := s.dev.pages } } = s
    let sets : Instr → FnPage → Prop := fun i y => ∃ t, exec i s = .next t ∧ pageOnly t y
    (∀ seq : BitVec 64,
      let named : Pending → Bool := fun p => p.seq == seq.toNat && p.repl
      let first := s.xl.pending.find? (fun p => p.seq == seq.toNat && p.fn == f && p.repl && p.verdict.isNone)
      let held := s.frozen (s.fnPart f) (s.fnCtx f) = true
      (first = none → sets (.faultVerdict fn seq) { q with err := true }) ∧
      (∀ p, first = some p → held → exec (.faultVerdict fn seq) s = .next { s with xl := { s.xl with
        pending := s.xl.pending.map (fun r => if named r then { r with verdict := some q.term } else r) } }) ∧
      (∀ p, first = some p → ¬held → q.term = false → ∃ t, exec (.faultVerdict fn seq) s = .next t ∧
        t.xl = { s.xl with pending := s.xl.pending.filter (fun r => !named r)
                           retried := s.xl.retried ++ (s.xl.pending.filter named).map (fun r => r.req) } ∧
        t.fens = s.fens ∧ t.mem = s.mem) ∧
      (∀ p r g x, first = some p → ¬held → q.term = true → r ∈ s.xl.pending → named r = true → r.req.fen = some g → r.req.srck ≠ 3 →
        s.fens[g]? = some x → x.live = true → x.term = none →
        ∃ t y, exec (.faultVerdict fn seq) s = .next t ∧ t.fens[g]? = some y ∧ y.term = some (4, 0) ∧ y.state = 7 ∧
          y.status = x.status ||| 0x200#16 ∧ (x.core.phase ≠ .granted → x.core.phase ≠ .commit → y.core.phase = .halted))) ∧
    (∀ (a : BitVec 16) (k : BitVec 12),
      let pair := a.toNat * 4096 + k.toNat
      let look : List (BitVec 512) → Nat → Option (BitVec 512) := fun l n => l.find? (fun e => fld e.toNat 511 484 == n)
      let mine := s.asidCtx a.toNat ≠ none ∧ s.asidFn a.toNat = f
      let after : Nat → Bool → FnPage := fun op bad => { q with twOp := op, twAsid := a.toNat, twTnum := k.toNat, twBusy := false, twFail := bad }
      let free : Nat → Prop := fun op => q.twBusy = false ∨ (q.twOp = op ∧ q.twAsid = a.toNat ∧ q.twTnum = k.toNat)
      let entry := BitVec.ofNat 512 (q.twData.toNat % 2 ^ 484 + pair * 2 ^ 484)
      let noRoom := look s.dev.tensors pair = none ∧ 16384 ≤ s.dev.tensors.length
      (∀ e ∈ [(Instr.twWrite fn a k, 1), (.twRead fn a k, 2), (.twRemove fn a k, 3)],
        (¬free e.2 → sets e.1 { q with err := true, twFail := true }) ∧ (free e.2 → ¬mine → sets e.1 { after e.2 true with err := true })) ∧
      (free 1 → mine → noRoom → sets (.twWrite fn a k) { after 1 true with err := true }) ∧
      (free 1 → mine → ¬noRoom → ∃ t, exec (.twWrite fn a k) s = .next t ∧ t.page f = after 1 false ∧ t.mem = s.mem ∧
        ∀ n, look t.dev.tensors n = if n = pair then some entry else look s.dev.tensors n) ∧
      (free 2 → mine → sets (.twRead fn a k) { after 2 false with twData := match look s.dev.tensors pair with | some e => e | none => 0 }) ∧
      (free 3 → mine → ∃ t, exec (.twRemove fn a k) s = .next t ∧ t.page f = after 3 false ∧ t.mem = s.mem ∧
        ∀ n, look t.dev.tensors n = if n = pair then none else look s.dev.tensors n)) ∧
    (∀ (a : BitVec 16), ∀ e ∈ [(Instr.invVa fn a, 1, a.toNat), (.invAsid fn a, 2, a.toNat), (.invIpa fn a, 3, a.toNat),
        (.invPart fn a, 4, a.toNat), (.invAll fn, 5, 0)],
      let kind := e.2.1
      let id := e.2.2
      let may := if kind ≤ 2 then s.asidCtx id ≠ none ∧ s.asidFn id = f else f = 0
      let concerns : Nat → Nat → Prop := fun asid part => if kind ≤ 2 then asid = id else if kind ≤ 4 then part = id % 16 else True
      (q.invBusy = true ∨ ¬may → sets e.1 { q with err := true }) ∧
      (q.invBusy = false → may → ∃ t, exec e.1 s = .next t ∧
        t.page f = { q with invKind := kind, invId := id, invBusy := true, invFrom := q.invAddr, invPages := q.invLen } ∧
        t.xl.tlbs = s.xl.tlbs ∧ t.mem = s.mem ∧
        (∀ (j : Nat) (w : Walk), s.xl.walks[j]? = some w → ∃ v, t.xl.walks[j]? = some v ∧ { v with stale := w.stale } = w ∧
          (v.stale = true ↔ w.stale = true ∨ (w.running = true ∧ concerns w.asid w.part))) ∧
        (∀ (j : Nat) (x : Fen), s.fens[j]? = some x → ∃ y, t.fens[j]? = some y ∧
          let meets : Nat → Nat → Prop := fun a n => a < q.invAddr + 4096 * q.invLen ∧ q.invAddr < a + n
          let drops := x.live = true ∧ concerns x.asid x.part ∧ (∃ h ∈ x.core.held, h.1.typ ≠ .scratch ∧
            (kind = 1 → meets h.2.1 h.2.2) ∧ (kind = 3 → meets h.1.ipa h.2.2)) ∧ x.core.phase ≠ .granted ∧ x.core.phase ≠ .commit
          (drops → y = { x with core := x.core.fresh }) ∧ (¬drops → y = x)))) ∧
    (let kind := q.invKind
     let id := if kind = 3 ∨ kind = 4 then q.invId % 16 else q.invId
     let meets : Nat → Nat → Bool := fun a n => decide (a < q.invFrom + 4096 * q.invPages ∧ q.invFrom < a + n)
     let takes : Tlb → Bool := fun t => if kind = 1 then t.asid == id && meets t.va t.size else if kind = 2 then t.asid == id
       else if kind = 3 then t.part == id && meets t.ipa t.size else if kind = 4 then t.part == id else true
     let loses : WalkCache → Bool := fun c => if kind ≤ 2 then false
       else if kind = 3 then c.part == id && meets (c.ipa * 4096) 4096 else if kind = 4 then c.part == id else true
     let concerns : Nat → Nat → Prop := fun asid part => if kind ≤ 2 then asid = id else if kind ≤ 4 then part = id else True
     let goes : Fen → Phys → Nat → Nat → Prop := fun x ph va n => concerns x.asid x.part ∧ ph.typ ≠ .scratch ∧ (kind = 1 → meets va n = true) ∧
       (kind = 3 → meets ph.ipa n = true)
     let uses : Fen → Prop := fun x => (∃ h ∈ x.core.held, goes x h.1 h.2.1 h.2.2) ∧ (x.core.phase = .granted ∨ x.core.phase = .commit)
     let sent : Fen → Prop := fun x =>
       (∃ p ∈ x.ports, ∃ c ∈ p.cmds, ∃ h ∈ c.early, h.got = none ∧ ∃ ph, h.home = some ph ∧ goes x ph h.va 16) ∨
       (∃ m, some m ∈ x.mantles ∧ ∃ n ∈ m.nodes, ∃ e ∈ n.mem.win, e.got = none ∧ ∃ ph, e.home = some ph ∧ goes x ph (e.addr.toNat + e.off) 16)
     let done := (∀ x ∈ s.fens, ¬uses x ∧ ¬sent x) ∧ (∀ e ∈ s.xl.ext, e.resp = none → ¬concerns e.asid (s.fnPart (s.asidFn e.asid))) ∧
       (∀ r ∈ s.reds, ∀ a ∈ r.anns, ∀ x, s.fens[a.fen]? = some x → ¬concerns x.asid x.part) ∧
       (∀ k ∈ s.net.packets, k.resp = false → ∀ g x, k.src.fen = some g → s.fens[g]? = some x → ¬concerns x.asid x.part)
     (q.invBusy = false ∨ ¬done → exec (.invComplete fn) s = .next s) ∧
     (q.invBusy = true → done → ∃ t, exec (.invComplete fn) s = .next t ∧ t.page f = { q with invBusy := false } ∧
       t.xl.tlbs = s.xl.tlbs.filter (fun t => !takes t) ∧ t.xl.wcache = s.xl.wcache.filter (fun c => !loses c) ∧
       t.emt.replicas = [] ∧ t.dev.msix = s.dev.msix ++ [⟨f, 2⟩] ∧ t.mem = s.mem)) ∧
    (∀ (ofs : BitVec 21) (val : BitVec 64),
      let v := val.toNat
      let o := ofs.toNat
      let w := Instr.registerWrite fn ofs val
      (o = 0x80 → q.heldRec = [] → sets w { q with fr := { q.fr with addr := fld v 63 12 * 4096, log2n := max 4 (v % 16) } }) ∧
      (o = 0x90 → q.heldRec = [] → sets w { q with fr := { q.fr with head := v % 2 ^ 32 } }) ∧
      (∀ x, o = 0x90 → q.heldRec = [x] → ¬({ q.fr with head := v % 2 ^ 32 } : RingRegs).NoRoom → ∃ t, exec w s = .next t ∧
        (t.page f).heldRec = [] ∧ (t.page f).fr.tail = (q.fr.tail + 1) % 2 ^ 32 ∧ t.dev.msix = s.dev.msix ++ [⟨f, 0⟩] ∧
        Stored s t (keyHost (q.fr.addr + 32 * (q.fr.tail % 2 ^ q.fr.log2n))) (toLE 32 x.toNat)) ∧
      (o = 0x98 → sets w { q with term := bit v 0 }) ∧
      (o = 0xC0 → sets w { q with er := { q.er with addr := fld v 63 12 * 4096, log2n := max 4 (v % 16) } }) ∧
      (o = 0xD0 → sets w { q with er := { q.er with head := v % 2 ^ 32 } }) ∧
      (o = 0x100 → q.twBusy = false → sets w { q with twOp := fld v 63 62, twAsid := v % 65536, twTnum := fld v 43 32, twBusy := fld v 63 62 != 0 }) ∧
      (o = 0x100 → q.twBusy = true → sets w { q with err := true, twFail := true }) ∧
      (o = 0x188 → sets w { q with invAddr := fld v 47 12 * 4096 }) ∧
      (o = 0x190 → sets w { q with invLen := v % 2 ^ 32 }) ∧
      (o = 0x1C0 → sets w { q with err := q.err && !bit v 0 }) ∧
      (∀ k, k < 8 → o = 0x140 + 8 * k → ∃ t, exec w s = .next t ∧ ∀ j, j < 512 → (t.page f).twData.getLsbD j =
        if 64 * k ≤ j ∧ j < 64 * k + 64 then val.getLsbD (j - 64 * k) else q.twData.getLsbD j) ∧
      (o < 0x80 ∨ (0x1C8 ≤ o ∧ o < 0x2000) ∨ (0x2000 ≤ o ∧ fn ≠ 0#7) → exec w s = .next s))) ∧
  (∀ (s : State) (f o : Nat) (q : List Agent), s.boot.off = false → s.sched = .hostRead f o :: q → f < 128 → o % 8 = 0 →
    let told : Answer → State := fun r => { s with sched := q, here := .hostRead f o, dev := { s.dev with answers := r :: s.dev.answers } }
    (s.boot.rel = true ∨ (f = 0 ∧ o = 0x5100) → step s = .next (told (.value (BitVec.ofNat 64 (s.barRead f o))))) ∧
    (s.boot.rel = false → f ≠ 0 ∨ o ≠ 0x5100 → step s = .next (told .unsupported))) ∧
  (∀ (s : State) (f o : Nat),
    (o < 0x80 ∨ o = 0xA0 ∨ (0x1C8 ≤ o ∧ o < 0x2000) ∨ (0x2000 ≤ o ∧ f ≠ 0) → s.barRead f o = 0) ∧
    (1 ≤ f → f < 128 → s.barRead 0 (0x100000 + 0x2000 * f) = 0) ∧
    (s.barRead f 0x98 = if (s.page f).term then 1 else 0) ∧ s.barRead f 0x190 = (s.page f).invLen ∧
    (∀ p, p < 16 → s.barRead 0 (0x5000 + 8 * p) = s.part p) ∧
    (∀ g, g < 128 → s.barRead 0 (0x2000 + 16 * g) = s.func g % 2 ^ 64 ∧ s.barRead 0 (0x2008 + 16 * g) = s.func g / 2 ^ 64 % 2 ^ 64)) ∧
  (∀ (s : State) (ofs : BitVec 21) (val : BitVec 64), s.boot.rel = true →
    let v := val.toNat
    let o := ofs.toNat
    let w := Instr.registerWrite 0#7 ofs val
    let gives : (State → Prop) → Prop := fun p => ∃ t, exec w s = .next t ∧ t.mem = s.mem ∧ t.fens = s.fens ∧ p t
    (∀ g, g < 128 → o = 0x2000 + 16 * g →
      (s.fnBusy g = false → gives (fun t => fld (t.func g) 0 0 = v % 2 ∧ fld (t.func g) 6 4 = (if 6 ≤ fld v 6 4 then 5 else fld v 6 4) ∧
        t.fnPart g = fld v 10 7 ∧ t.fnCtx g = fld v 15 11 ∧ fld (t.func g) 3 1 = 0 ∧ ∀ h, h ≠ g → t.func h = s.func h)) ∧
      (s.fnBusy g = true → fld v 15 7 ≠ fld (s.func g) 15 7 → exec w s = .next s)) ∧
    (∀ p, p < 16 → o = 0x5000 + 8 * p → gives (fun t => fld (t.part p) 63 48 = min 1000 (max 1 (fld v 63 48)) ∧
      fld (t.part p) 39 32 = max 9 (fld v 39 32) ∧ fld (t.part p) 31 16 = fld v 31 16 ∧ fld (t.part p) 15 8 = max 1 (fld v 15 8) ∧
      fld (t.part p) 0 0 = v % 2 ∧ ∀ r, r ≠ p → t.part r = s.part r)) ∧
    (∀ k, k < 512 → o = 0x3000 + 16 * k →
      let new := tabGet s.dev.ctxs k 0#128
      let clash := fld v 47 47 = 1 ∧ ∃ c ∈ s.dev.ctxs, c.1 ≠ k ∧ fld c.2.toNat 47 47 = 1 ∧ fld c.2.toNat 79 64 = fld new.toNat 79 64
      (clash → exec w s = .next s) ∧
      (¬clash → gives (fun t => let e := (tabGet t.dev.ctxs k 0#128).toNat
        fld e 63 57 = fld v 63 57 ∧ fld e 47 46 = fld v 47 46 ∧ fld e 31 0 = fld v 31 0 ∧ fld e 79 64 = fld new.toNat 79 64 ∧
        ∀ j, j ≠ k → tabGet t.dev.ctxs j 0#128 = tabGet s.dev.ctxs j 0#128))) ∧
    (o = 0x5108 → gives (fun t => t.dev = { s.dev with pwrcap := min 1800 (max 1200 (v % 65536)) })) ∧
    (o = 0x5118 → s.dev.hdmLock = true → gives (fun t => t.page 0 = { s.page 0 with err := true } ∧ t.dev.hdmSize = s.dev.hdmSize ∧
      t.dev.hdmBase = s.dev.hdmBase)) ∧
    (o = 0x5118 → s.dev.hdmLock = false → gives (fun t => t.dev = { s.dev with hdmSize := min 256 (fld v 24 16), hdmBase := v % 1024 })) ∧
    (o = 0x5120 → s.anyBusy = false → gives (fun t => t.dev = { s.dev with gm1 := fld v 13 8, midx := v % 64 })) ∧
    (o = 0x5120 → s.anyBusy = true → exec w s = .next s) ∧
    (∀ k, k < 64 → o = 0x6000 + 16 * k → gives (fun t => let e := (tabGet t.dev.imports k 0#128).toNat
      fld e 63 58 = fld v 63 58 ∧ fld e 57 54 = fld v 57 54 ∧ fld e 53 50 = fld v 53 50 ∧ fld e 3 2 = fld v 3 2 ∧ fld e 0 0 = v % 2 ∧
      fld e 127 64 = fld (tabGet s.dev.imports k 0#128).toNat 127 64)) ∧
    (0x8000 ≤ o → o < 0x28000 → o % 8 = 0 → gives (fun t => ∀ k, k < 8 →
      let b := o - 0x8000 + k
      t.owner b = match ownedAt b with
        | none => s.owner b
        | some (u, l) => if s.fens.any (fun x => x.live && x.uses u l) then s.owner b else v / 256 ^ k % 32)))

/-- R408, R410 to R414, R421: accesses of the host and of peers reach spread memory through HDMCFG and the import entries; ports
go down; the responder answers, a reply that R414 does not give being free (log entry 117), and takes keys within a session alone;
bring-up performs its steps in order; power and heat. Beyond the HDM range the model stops by name.
What a host access needs, which import serves, a port that is down, digests and measurements, and FAIL are the model's reading (log
entries 107, 108, 110, 112, 115 and 116). -/
def Obligations.ModuleEvents : Prop :=
  (∀ (s : State) (ofs : Nat) (n : Nat) (bs : List (BitVec 8)), s.memOk →
    let pa := s.dev.hdmBase * 2 ^ 30 + ofs
    let within : Nat → Prop := fun len => ofs + len ≤ s.dev.hdmSize * 2 ^ 30 ∧ pa + len ≤ 512 * 10 ^ 9
    let wr := Instr.hostMemAccess ofs (.write bs)
    let reserved := ∃ k, k < bs.length ∧ ((∃ x ∈ s.fens, x.core.phase = .granted ∧
        ∃ q, x.core.prep = some q ∧ q.ph.key ≤ keySpread (pa + k) ∧ keySpread (pa + k) < q.ph.key + 64) ∨
      ∃ e ∈ s.xl.ext, e.acc = .rmw ∧ e.resp.isSome = true ∧ e.key ≤ keySpread (pa + k) ∧ keySpread (pa + k) < e.key + e.len)
    (s.boot.rel = false → exec (.hostMemAccess ofs (.read n)) s = .next s ∧ exec wr s = .next s) ∧
    (s.boot.rel = true → ¬within n → exec (.hostMemAccess ofs (.read n)) s = .fault .outsideHdm) ∧
    (s.boot.rel = true → ¬within bs.length → exec wr s = .fault .outsideHdm) ∧
    (s.boot.rel = true → within n → s.mem.fixed = [] → exec (.hostMemAccess ofs (.read n)) s =
      .next { s with dev := { s.dev with answers := readBack s pa n :: s.dev.answers } }) ∧
    (s.boot.rel = true → within bs.length → ¬reserved → ∃ t, exec wr s = .next t ∧ t.fens = s.fens ∧ t.dev = s.dev ∧
      (∀ k b, bs[k]? = some b → t.mem.get (keySpread (pa + k)) = b) ∧
      (∀ a, (∀ k, k < bs.length → a ≠ keySpread (pa + k)) → t.mem.get a = s.mem.get a) ∧
      ∀ l ∈ s.emt.lines, (∃ k, k < bs.length ∧ keySpread (pa + k) / 128 = l.line) → ⟨l.line, 0, true⟩ ∈ t.emt.lines)) ∧
  (∀ (s : State) (m : BitVec 6) (p : BitVec 4) (die : BitVec 2) (ofs n j : Nat) (bs : List (BitVec 8)) (v : BitVec 64), s.memOk →
    s.boot.rel = true →
    let entry : Nat → Nat := fun k => (tabGet s.dev.imports k 0#128).toNat
    let names : Nat → Prop := fun k => fld (entry k) 0 0 = 1 ∧ fld (entry k) 63 58 = m.toNat ∧ fld (entry k) 57 54 = p.toNat
    let pa := fld (entry j) 127 88 * 4096 + ofs
    let fits : Nat → Prop := fun len => ofs + len ≤ fld (entry j) 87 64 * 2 ^ 21 ∧ pa + len ≤ 512 * 10 ^ 9
    let rd := Instr.peerAccess m p die ofs (.read n)
    let wr := Instr.peerAccess m p die ofs (.write bs)
    let am := Instr.peerAccess m p die ofs (.rmw 1 false v 0)
    let told : Answer → Instr → Prop := fun r i => exec i s = .next { s with dev := { s.dev with answers := r :: s.dev.answers } }
    let stalled := ∃ z ∈ s.frz, z.part = fld (entry j) 53 50 ∧ z.st ≠ .saved
    ((∀ k, k < 64 → ¬names k) → told .refused rd ∧ told .refused wr ∧ told .refused am) ∧
    (j < 64 → names j → (∀ k, k < j → ¬names k) →
      (fld (entry j) 2 2 = 0 ∨ ¬fits n → told .refused rd) ∧
      (fld (entry j) 3 3 = 0 ∨ ¬fits bs.length → told .refused wr) ∧
      (fld (entry j) 3 3 = 0 ∨ ¬fits 8 → told .refused am) ∧
      (fld (entry j) 2 2 = 1 → fits n → (stalled → exec rd s = .next s) ∧ (¬stalled → s.mem.fixed = [] → told (readBack s pa n) rd)) ∧
      (fld (entry j) 3 3 = 1 → fits bs.length → stalled → exec wr s = .next s) ∧
      (fld (entry j) 3 3 = 1 → fits 8 → ¬stalled → s.mem.fixed = [] → s.mem.poison = [] → s.foreignHeld pa 8 = false →
        let old := (List.range 8).map (fun k => s.mem.get (keySpread (pa + k)))
        ∃ t, exec am s = .next t ∧ t.dev.answers = .data old false :: s.dev.answers ∧
          ∀ k, k < 8 → t.mem.get (keySpread (pa + k)) = ((toLE 8 (leNat old + v.toNat))[k]?).getD 0) ∧
      (fld (entry j) 3 3 = 1 → fits bs.length → (∀ x ∈ s.fens, x.core.phase ≠ .granted) → (∀ e ∈ s.xl.ext, e.acc = .rmw → e.resp = none) →
        (∀ z ∈ s.frz, z.part = fld (entry j) 53 50 → z.st = .saved) → ∃ t, exec wr s = .next t ∧ t.fens = s.fens ∧
        (∀ k b, bs[k]? = some b → t.mem.get (keySpread (pa + k)) = b) ∧
        (∀ a, (∀ k, k < bs.length → a ≠ keySpread (pa + k)) → t.mem.get a = s.mem.get a)))) ∧
  (∀ (s : State) (port : BitVec 4), s.memOk →
    let k := port.toNat
    let down := ∃ d ∈ s.boot.down, d.1 = k
    (12 ≤ k ∨ down → exec (.portDown port) s = .next s) ∧
    (k < 12 → ¬down → ∃ up, exec (.portDown port) s = .next { s with boot := { s.boot with down := s.boot.down ++ [(k, s.cycle)], portup := up } } ∧
      ∀ j, Nat.testBit up j = (Nat.testBit s.boot.portup j && j != k)) ∧
    (∀ c, s.boot.down.find? (fun d => d.1 == k) = some (k, c) →
      let out : Ext → Bool := fun e => e.port == some k && e.resp.isNone
      (s.cycle < c + 2 ^ 24 → exec (.portDownTimeout port) s = .next s) ∧
      (∀ e, c + 2 ^ 24 ≤ s.cycle → s.xl.ext.filter out = [e] → ∃ t, exec (.portDownTimeout port) s = .next t ∧
        t.xl = { s.xl with ext := s.xl.ext.map (fun e => if out e then { e with resp := some [], bad := true } else e) } ∧
        ErrorSent s t (s.asidFn e.asid) e.asid e.va k e.req.tile e.req.slot 9 ∧ t.fens = s.fens)) ∧
    (¬down → exec (.portDownTimeout port) s = .next s)) ∧
  (∀ (s : State) (n : Nat) (key : List Byte),
    let open' := freeReply s.free
    let gives : SpdmReq → Boot → Prop := fun r b => exec (.spdmRequest r) s = .next { s with boot := b, free := s.free + 1 + open'.length }
    let tells : SpdmReq → List Byte → Prop := fun r a => gives r { s.boot with replies := a :: s.boot.replies }
    let said : List (List Byte) := open' :: s.boot.replies
    let image : Nat → List Byte := fun k => match s.boot.firmware.find? (fun x => x.kind == k) with | some x => x.header ++ x.body | none => []
    (s.boot.step < 5 → exec (.spdmRequest (.getMeasurement n)) s = .next s ∧ exec (.spdmRequest .getDigests) s = .next s) ∧
    (5 ≤ s.boot.step → tells .getDigests (sha512 s.boot.chain) ∧ tells (.getCertificate 0) s.boot.chain ∧
      tells (.getMeasurement 1) (sha512 s.boot.rom) ∧ tells (.getMeasurement 6) (sha512 s.boot.fuses) ∧
      (2 ≤ n → n ≤ 5 → tells (.getMeasurement n) (sha512 (image (n - 1)))) ∧
      gives .openSession { s.boot with session := true, replies := said } ∧ gives .endSession { s.boot with session := false, replies := said } ∧
      (s.boot.session = true → gives (.keySet n key) { s.boot with ideKeys := tabSet s.boot.ideKeys n key, replies := said }) ∧
      (s.boot.session = false → tells (.keySet n key) open') ∧ tells .other open' ∧
      (n = 0 ∨ 6 < n → tells (.getMeasurement n) open') ∧ (n ≠ 0 → tells (.getCertificate n) open'))) ∧
  (∀ s : State,
    let b := s.boot
    let goes : Boot → Prop := fun c => exec .bringUp s = .next { s with boot := c }
    let trains : Bool := match b.train with | [] => true | r :: _ => r
    let rest := b.train.drop 1
    let good : (Nat → Prop) → Prop := fun kinds => ∀ x ∈ b.firmware, kinds x.kind → b.accepts x = true
    let passed : Boot := { b with step := b.step + 1, fail := 0 }
    (b.rel = true ∨ b.held = true → exec .bringUp s = .next s) ∧
    (b.rel = false → b.held = false →
      (b.step = 0 → (good (· = 1) → goes passed) ∧ (¬good (· = 1) → goes { b with held := true, fail := 1 })) ∧
      (1 ≤ b.step → b.step ≤ 3 → (trains = true → goes { passed with train := rest }) ∧
        (trains = false → goes { b with train := rest, held := true, fail := b.step + 1 })) ∧
      (b.step = 4 → (trains = true → goes { passed with train := rest }) ∧ (trains = false → goes { b with train := rest, fail := 5 })) ∧
      (b.step = 5 → goes { passed with portup := b.partners % 4096 }) ∧
      (b.step = 6 → (good (· ≠ 1) → goes passed) ∧ (¬good (· ≠ 1) → goes { b with held := true, fail := 7 })) ∧
      (b.step = 7 → goes { passed with rel := true })) ∧
    (b.step = 4 → b.fail = 5 → b.held = false → exec .cxlLinkTrained s = .next { s with boot := passed }) ∧
    (b.step ≠ 4 ∨ b.fail ≠ 5 ∨ b.held = true → exec .cxlLinkTrained s = .next s)) ∧
  (∀ (s : State) (x : Firmware),
    let num : Nat → Nat → Nat := fun o n => leNat ((x.header.drop o).take n)
    (num 0 4 ≠ 0x46574C50 ∨ x.header.length ≠ 256 ∨ x.body.length ≠ num 12 4 ∨ sha512 x.body ≠ (x.header.drop 16).take 64 ∨
      s.boot.fused[num 6 2]? ≠ some (beNat (sha512 (toBE 66 x.keyX ++ toBE 66 x.keyY))) ∨ s.boot.revoked[num 6 2]? = some true ∨
      (∃ m, s.boot.minima[num 4 2]? = some m ∧ num 8 4 < m)) → s.boot.accepts x = false) ∧
  (∀ (s : State) (watts : Nat) (tj : BitVec 8),
    let hot : Nat := s.dev.therm.toNat / 256
    let cap : Nat → Nat := fun t => if 105 ≤ t then 1200 else s.dev.pwrcap
    exec (.powerWindow watts) s = .next { s with dev := { s.dev with watts := watts, throttle := decide (cap (s.dev.therm.toNat % 256) < watts) } } ∧
    exec (.thermalThrottle tj) s = .next { s with dev := { s.dev with therm := BitVec.ofNat 16 (hot * 256 + tj.toNat),
                                                                      throttle := decide (cap tj.toNat < s.dev.watts) } } ∧
    (∃ t, exec (.thermalTrip tj) s = .next t ∧ t.boot.off = (s.boot.off || decide (115 ≤ tj.toNat)) ∧ t.mem = s.mem ∧ t.fens = s.fens ∧
      (115 ≤ tj.toNat → step t = .next t)))

/-! ## Steps, encodings, reset -/

/-- A step performs the decoded instruction of the agent whose turn it is: of a control core the word at its place in the
block, or the non-revocable word of a granted claim; of a port its command, or the command's completion; of a mantle its
node's firing; an event itself. Around it the step only takes the agent off the schedule and records it as the one that
acts. The schedule is the model's own (log entries 4 and 5). -/
def Obligations.StepRunsDecoded : Prop :=
  ∀ (s : State) (a : Agent) (q : List Agent) (i : Instr), s.boot.off = false →
    (s.sched = a :: q ∨ (s.sched = [] ∧ q = [] ∧ s.here = a ∧ (s.boot.rel = true ∨ s.boot.held = true ∨ s.boot.fail ≠ 0))) →
    let runs := step s = exec i { s with sched := q, here := a }
    (∀ (f : Nat) (x : Fen) (w : BitVec 32), a = .core f → s.fens[f]? = some x → x.core.phase = .run → x.core.wfe = none →
      x.core.words[x.core.idx]? = some w → decodeTableWord 32 w.toNat = some i → runs) ∧
    (∀ (f : Nat) (x : Fen) (w : BitVec 32), a = .core f → s.fens[f]? = some x → x.core.phase = .granted → x.core.before = [] →
      x.core.words[x.core.nrix]? = some w → decodeTableWord 32 w.toNat = some i → runs) ∧
    (∀ (f : Nat) (x : Fen), a = .core f → s.fens[f]? = some x → x.core.phase = .fetch → x.core.traps = [] → i = .fetchBlock → runs) ∧
    (∀ (f : Nat) (x : Fen), a = .core f → s.fens[f]? = some x → x.core.phase = .run → x.core.wfe = none →
      x.core.words.length ≤ x.core.idx → x.core.prep = none → i = .commit → runs) ∧
    (∀ f p k c, a = .port f p k → s.cmdAt f p k = some c → i = (if c.done then .cmdComplete else c.ins) → runs) ∧
    (∀ (f k : Nat) (x : Fen) (m : Mantle) (n : Node), a = .node f k → s.fens[f]? = some x → x.mantle = some m → m.nodes[k]? = some n →
      i = n.ins → runs) ∧
    (a = .event i → runs)

/-- Words of the spec's own examples decode to the instructions they stand for. -/
def Obligations.ExampleWords : Prop :=
  decodeTableWord 32 0x00304200 = some (.add 3#6 1#6 2#6) ∧
  decodeTableWord 32 0x5050B002 = some (.ld 5#6 2#6 .d64 .none 2#9) ∧
  decodeTableWord 32 0x6109FFFE = some (.br .nez 4#6 0x1FFFE#17) ∧
  decodeTableWord 32 0x0C60C409 = some (.fadd 6#6 3#6 4#6 true false 1#2) ∧
  decodeTableWord 32 0x103248A1 = some (.cvt 3#6 9#6 false 1#2 false .i32 .f32) ∧
  decodeTableWord 32 0x80518768 = some (.amoAdd false 5#6 6#6 7#6 3#3) ∧
  decodeTableWord 32 0x8C328C04 = some (.qtdeq 3#6 10#6 12#6) ∧
  decodeTableWord 32 0x90818002 = some (.rwfill 8#6 3#5 2#15) ∧
  decodeTableWord 32 0x6C000405 = some (.trap 5#10) ∧
  decodeTableWord 128 0x11080004000000000001000000000000 =
    some (.copyr ⟨false, false, 1#3, 0#7, .none⟩ 4#5 0#2 false 1#12 0#16 0#16 0#16) ∧
  decodeTableWord 256 (0x0101023A060300000028000000000000 * 2 ^ 128) =
    some (.vadd ⟨0#4, .f32, 2#8, .circuit 3#2 2#3, .ring 3#5, .none, .none, .circuit 1#2 0#3, .none, .off, 0#2, false, false⟩)

/-- Every well-formed scalar instruction and stream command is read back from its encoding (R76 to R98). -/
def Obligations.WordsRoundTrip : Prop :=
  ∀ i : Instr, i.wf = true → i.width = 32 ∨ i.width = 128 → decodeTableWord i.width (encode i).2 = some i

/-- Every well-formed node record is read back from its encoding (R101 to R105). -/
def Obligations.RecordsRoundTrip : Prop :=
  ∀ i : Instr, i.wf = true → i.width = 256 → decodeTableWord 256 (encode i).2 = some i

/-- Memory keeps its canonical form through every step of every agent. -/
def Obligations.MemoryStaysCanonical : Prop :=
  ∀ s t : State, s.memOk → step s = .next t → t.memOk

/-- R372, R373, R377, R390, R404, R409, R410, R412, R420, R15: what reset leaves in the registers whose reset value the spec gives;
memory is in canonical form, and no fen is placed. -/
def Obligations.ResetState : Prop :=
  let s := State.reset
  s.memOk ∧ s.fens = [] ∧ s.seq = 0 ∧ s.cycle = 0 ∧
  (∀ f, f < 128 → fld (s.func f) 127 88 = 0 ∧ fld (s.func f) 87 72 = 0 ∧ s.fnCtx f = 0 ∧ s.fnPart f = 0 ∧ s.fnCap f = 5 ∧
    fld (s.func f) 0 0 = 0) ∧
  (∀ a, s.asidCtx a = none) ∧
  (∀ p, p < 16 → fld (s.part p) 63 48 = 20 ∧ fld (s.part p) 39 32 = 255 ∧ fld (s.part p) 31 16 = 0 ∧ fld (s.part p) 15 8 = 1 ∧
    fld (s.part p) 0 0 = 0) ∧
  (∀ f, f < 128 → (s.page f).fr = ⟨0, 4, 0, 0⟩ ∧ (s.page f).er = ⟨0, 4, 0, 0⟩ ∧ (s.page f).term = false ∧ (s.page f).twData = 0 ∧
    (s.page f).invBusy = false ∧ (s.page f).cecnt = 0 ∧ (s.page f).elost = 0 ∧ (s.page f).err = false) ∧
  (∀ f, f < 128 → (s.mig f).state = 0 ∧ (s.mig f).err = false ∧ (s.mig f).dirty = [] ∧ (s.mig f).ofs = 0 ∧ (s.mig f).len = 0 ∧
    (s.mig f).list = 0 ∧ (s.mig f).cnt = 0) ∧
  (∀ k, k < 64 → tabGet s.dev.imports k 0#128 = 0#128) ∧
  s.boot.step = 0 ∧ s.boot.fail = 0 ∧ s.boot.rel = false ∧ s.boot.portup = 0 ∧ s.dev.pwrcap = 1800 ∧ s.dev.hdmSize = 0 ∧
  s.dev.hdmBase = 0 ∧ s.dev.gm1 = 0 ∧ s.dev.midx = 0 ∧ (∀ k, k < 12 → tabGet s.dev.portmod k 0 = 0)
end

