-- ==== Sys2Proof/Laws/Basic.lean ====
section
/-! SUPPORT. Lists, sparse tables and runs of numbers: what the helpers of Ops.lean do. -/
namespace Sys2Proof.Machine

theorem getElem?_updNth {α : Type} (l : List α) (f : Nat) (g : α → α) (k : Nat) :
    (updNth l f g)[k]? = if k = f then (l[k]?).map g else l[k]? := by
  induction l generalizing f k with
  | nil => cases f <;> simp [updNth]
  | cons a r ih => cases f <;> cases k <;> simp [updNth, ih]

@[simp] theorem getElem?_updNth_self {α : Type} (l : List α) (f : Nat) (g : α → α) :
    (updNth l f g)[f]? = (l[f]?).map g := by simp [getElem?_updNth]

theorem getElem?_updNth_ne {α : Type} (l : List α) {f k : Nat} (g : α → α) (h : k ≠ f) :
    (updNth l f g)[k]? = l[k]? := by simp [getElem?_updNth, h]

@[simp] theorem length_updNth {α : Type} (l : List α) (f : Nat) (g : α → α) : (updNth l f g).length = l.length := by
  induction l generalizing f with
  | nil => cases f <;> rfl
  | cons a r ih => cases f <;> simp [updNth, ih]

@[simp] theorem updNth_updNth {α : Type} (l : List α) (f : Nat) (g h : α → α) :
    updNth (updNth l f g) f h = updNth l f (fun a => h (g a)) := by
  induction l generalizing f with
  | nil => cases f <;> rfl
  | cons a r ih => cases f <;> simp [updNth, ih]

@[simp] theorem length_upto (a n : Nat) : (upto a n).length = n := by
  induction n generalizing a with
  | zero => rfl
  | succ n ih => simp [upto, ih]

theorem mem_upto {a n k : Nat} : k ∈ upto a n ↔ a ≤ k ∧ k < a + n := by
  induction n generalizing a with
  | zero => simp [upto]
  | succ n ih => simp [upto, ih]; omega

@[simp] theorem length_toLE (n v : Nat) : (toLE n v).length = n := by
  induction n generalizing v with
  | zero => rfl
  | succ n ih => simp [toLE, ih]

/-- The bytes of a number hold its low 8n bits. -/
theorem leNat_toLE (n v : Nat) : leNat (toLE n v) = v % 256 ^ n := by
  induction n generalizing v with
  | zero => simp [toLE, leNat, Nat.mod_one]
  | succ n ih =>
    have h : v % 256 ^ (n + 1) = v % 256 + 256 * (v / 256 % 256 ^ n) := by
      rw [Nat.pow_succ, Nat.mul_comm, Nat.mod_mul]
    rw [h]
    simp [toLE, leNat, ih]

theorem tabGet_tabSet {α κ : Type} [DecidableEq κ] (l : List (κ × α)) (k j : κ) (a d : α) :
    tabGet (tabSet l k a) j d = if j = k then a else tabGet l j d := by
  induction l with
  | nil => simp [tabSet, tabGet, eq_comm]
  | cons p r ih =>
    obtain ⟨i, b⟩ := p
    by_cases h : i = k
    · subst h
      by_cases hj : i = j
      · subst hj; simp [tabSet, tabGet]
      · have : ¬j = i := fun e => hj e.symm
        simp [tabSet, tabGet, hj, this]
    · by_cases hj : i = j
      · subst hj; simp [tabSet, tabGet, h]
      · simp [tabSet, tabGet, h, hj, ih]

end Sys2Proof.Machine
end

