-- ==== Sys2Proof/Laws/Dispatch.lean ====
section
/-! SUPPORT. What exec performs for each constructor: one equation an arm, true by unfolding. -/
namespace Sys2Proof.Machine

@[simp] theorem exec_fetchBlock (s : State) :
    exec (.fetchBlock) s = execFetchBlock s := rfl
@[simp] theorem exec_commit (s : State) :
    exec (.commit) s = execCommit s := rfl
@[simp] theorem exec_grant (s : State) :
    exec (.grant) s = execGrant s := rfl
@[simp] theorem exec_takeNodeTrap (s : State) :
    exec (.takeNodeTrap) s = execTakeNodeTrap s := rfl
@[simp] theorem exec_wfeTimeout (s : State) :
    exec (.wfeTimeout) s = execWfeTimeout s := rfl
@[simp] theorem exec_claimRetry (s : State) :
    exec (.claimRetry) s = execClaimRetry s := rfl
@[simp] theorem exec_queueWake (quad : BitVec 4) (s : State) :
    exec (.queueWake quad) s = execQueueWake quad s := rfl
@[simp] theorem exec_cmdComplete (s : State) :
    exec (.cmdComplete) s = execCmdComplete s := rfl
@[simp] theorem exec_add (rd ra rb : Reg) (s : State) :
    exec (.add rd ra rb) s = execAdd rd ra rb s := rfl
@[simp] theorem exec_sub (rd ra rb : Reg) (s : State) :
    exec (.sub rd ra rb) s = execSub rd ra rb s := rfl
@[simp] theorem exec_and (rd ra rb : Reg) (s : State) :
    exec (.and rd ra rb) s = execAnd rd ra rb s := rfl
@[simp] theorem exec_or (rd ra rb : Reg) (s : State) :
    exec (.or rd ra rb) s = execOr rd ra rb s := rfl
@[simp] theorem exec_xor (rd ra rb : Reg) (s : State) :
    exec (.xor rd ra rb) s = execXor rd ra rb s := rfl
@[simp] theorem exec_andn (rd ra rb : Reg) (s : State) :
    exec (.andn rd ra rb) s = execAndn rd ra rb s := rfl
@[simp] theorem exec_sll (rd ra rb : Reg) (s : State) :
    exec (.sll rd ra rb) s = execSll rd ra rb s := rfl
@[simp] theorem exec_srl (rd ra rb : Reg) (s : State) :
    exec (.srl rd ra rb) s = execSrl rd ra rb s := rfl
@[simp] theorem exec_sra (rd ra rb : Reg) (s : State) :
    exec (.sra rd ra rb) s = execSra rd ra rb s := rfl
@[simp] theorem exec_ror (rd ra rb : Reg) (s : State) :
    exec (.ror rd ra rb) s = execRor rd ra rb s := rfl
@[simp] theorem exec_slt (rd ra rb : Reg) (s : State) :
    exec (.slt rd ra rb) s = execSlt rd ra rb s := rfl
@[simp] theorem exec_sltn (rd ra rb : Reg) (s : State) :
    exec (.sltn rd ra rb) s = execSltn rd ra rb s := rfl
@[simp] theorem exec_seq (rd ra rb : Reg) (s : State) :
    exec (.seq rd ra rb) s = execSeq rd ra rb s := rfl
@[simp] theorem exec_min (rd ra rb : Reg) (s : State) :
    exec (.min rd ra rb) s = execMin rd ra rb s := rfl
@[simp] theorem exec_max (rd ra rb : Reg) (s : State) :
    exec (.max rd ra rb) s = execMax rd ra rb s := rfl
@[simp] theorem exec_minn (rd ra rb : Reg) (s : State) :
    exec (.minn rd ra rb) s = execMinn rd ra rb s := rfl
@[simp] theorem exec_maxn (rd ra rb : Reg) (s : State) :
    exec (.maxn rd ra rb) s = execMaxn rd ra rb s := rfl
@[simp] theorem exec_clz (rd ra : Reg) (s : State) :
    exec (.clz rd ra) s = execClz rd ra s := rfl
@[simp] theorem exec_ctz (rd ra : Reg) (s : State) :
    exec (.ctz rd ra) s = execCtz rd ra s := rfl
@[simp] theorem exec_popc (rd ra : Reg) (s : State) :
    exec (.popc rd ra) s = execPopc rd ra s := rfl
@[simp] theorem exec_mul (rd ra rb : Reg) (s : State) :
    exec (.mul rd ra rb) s = execMul rd ra rb s := rfl
@[simp] theorem exec_mulh (rd ra rb : Reg) (s : State) :
    exec (.mulh rd ra rb) s = execMulh rd ra rb s := rfl
@[simp] theorem exec_mulhn (rd ra rb : Reg) (s : State) :
    exec (.mulhn rd ra rb) s = execMulhn rd ra rb s := rfl
@[simp] theorem exec_div (rd ra rb : Reg) (s : State) :
    exec (.div rd ra rb) s = execDiv rd ra rb s := rfl
@[simp] theorem exec_divn (rd ra rb : Reg) (s : State) :
    exec (.divn rd ra rb) s = execDivn rd ra rb s := rfl
@[simp] theorem exec_rem (rd ra rb : Reg) (s : State) :
    exec (.rem rd ra rb) s = execRem rd ra rb s := rfl
@[simp] theorem exec_remn (rd ra rb : Reg) (s : State) :
    exec (.remn rd ra rb) s = execRemn rd ra rb s := rfl
@[simp] theorem exec_mksa (rd ra rb : Reg) (s : State) :
    exec (.mksa rd ra rb) s = execMksa rd ra rb s := rfl
@[simp] theorem exec_taddr (rd ra rb : Reg) (s : State) :
    exec (.taddr rd ra rb) s = execTaddr rd ra rb s := rfl
@[simp] theorem exec_tbase (rd ra : Reg) (s : State) :
    exec (.tbase rd ra) s = execTbase rd ra s := rfl
@[simp] theorem exec_tdim (rd ra rb : Reg) (s : State) :
    exec (.tdim rd ra rb) s = execTdim rd ra rb s := rfl
@[simp] theorem exec_tstr (rd ra rb : Reg) (s : State) :
    exec (.tstr rd ra rb) s = execTstr rd ra rb s := rfl
@[simp] theorem exec_tinfo (rd ra : Reg) (s : State) :
    exec (.tinfo rd ra) s = execTinfo rd ra s := rfl
@[simp] theorem exec_fadd (rd ra rb : Reg) (f32 dyn : Bool) (rm : BitVec 2) (s : State) :
    exec (.fadd rd ra rb f32 dyn rm) s = execFadd rd ra rb f32 dyn rm s := rfl
@[simp] theorem exec_fsub (rd ra rb : Reg) (f32 dyn : Bool) (rm : BitVec 2) (s : State) :
    exec (.fsub rd ra rb f32 dyn rm) s = execFsub rd ra rb f32 dyn rm s := rfl
@[simp] theorem exec_fmul (rd ra rb : Reg) (f32 dyn : Bool) (rm : BitVec 2) (s : State) :
    exec (.fmul rd ra rb f32 dyn rm) s = execFmul rd ra rb f32 dyn rm s := rfl
@[simp] theorem exec_fdiv (rd ra rb : Reg) (f32 dyn : Bool) (rm : BitVec 2) (s : State) :
    exec (.fdiv rd ra rb f32 dyn rm) s = execFdiv rd ra rb f32 dyn rm s := rfl
@[simp] theorem exec_fsqrt (rd ra : Reg) (f32 dyn : Bool) (rm : BitVec 2) (s : State) :
    exec (.fsqrt rd ra f32 dyn rm) s = execFsqrt rd ra f32 dyn rm s := rfl
@[simp] theorem exec_fmin (rd ra rb : Reg) (f32 : Bool) (s : State) :
    exec (.fmin rd ra rb f32) s = execFmin rd ra rb f32 s := rfl
@[simp] theorem exec_fmax (rd ra rb : Reg) (f32 : Bool) (s : State) :
    exec (.fmax rd ra rb f32) s = execFmax rd ra rb f32 s := rfl
@[simp] theorem exec_fma (rd ra rb : Reg) (f32 dyn : Bool) (rm : BitVec 2) (s : State) :
    exec (.fma rd ra rb f32 dyn rm) s = execFma rd ra rb f32 dyn rm s := rfl
@[simp] theorem exec_feq (rd ra rb : Reg) (f32 : Bool) (s : State) :
    exec (.feq rd ra rb f32) s = execFeq rd ra rb f32 s := rfl
@[simp] theorem exec_flt (rd ra rb : Reg) (f32 : Bool) (s : State) :
    exec (.flt rd ra rb f32) s = execFlt rd ra rb f32 s := rfl
@[simp] theorem exec_fle (rd ra rb : Reg) (f32 : Bool) (s : State) :
    exec (.fle rd ra rb f32) s = execFle rd ra rb f32 s := rfl
@[simp] theorem exec_cvt (rd ra : Reg) (dyn : Bool) (rm : BitVec 2) (sat : Bool) (dst src : Fmt) (s : State) :
    exec (.cvt rd ra dyn rm sat dst src) s = execCvt rd ra dyn rm sat dst src s := rfl
@[simp] theorem exec_csrr (rd : Reg) (csr : BitVec 12) (s : State) :
    exec (.csrr rd csr) s = execCsrr rd csr s := rfl
@[simp] theorem exec_csrw (csr : BitVec 12) (ra : Reg) (s : State) :
    exec (.csrw csr ra) s = execCsrw csr ra s := rfl
@[simp] theorem exec_csrx (rd ra : Reg) (csr : BitVec 12) (s : State) :
    exec (.csrx rd ra csr) s = execCsrx rd ra csr s := rfl
@[simp] theorem exec_addi (rd ra : Reg) (imm : BitVec 14) (s : State) :
    exec (.addi rd ra imm) s = execAddi rd ra imm s := rfl
@[simp] theorem exec_andi (rd ra : Reg) (imm : BitVec 14) (s : State) :
    exec (.andi rd ra imm) s = execAndi rd ra imm s := rfl
@[simp] theorem exec_ori (rd ra : Reg) (imm : BitVec 14) (s : State) :
    exec (.ori rd ra imm) s = execOri rd ra imm s := rfl
@[simp] theorem exec_xori (rd ra : Reg) (imm : BitVec 14) (s : State) :
    exec (.xori rd ra imm) s = execXori rd ra imm s := rfl
@[simp] theorem exec_slli (rd ra : Reg) (sh : BitVec 6) (s : State) :
    exec (.slli rd ra sh) s = execSlli rd ra sh s := rfl
@[simp] theorem exec_srli (rd ra : Reg) (sh : BitVec 6) (s : State) :
    exec (.srli rd ra sh) s = execSrli rd ra sh s := rfl
@[simp] theorem exec_srai (rd ra : Reg) (sh : BitVec 6) (s : State) :
    exec (.srai rd ra sh) s = execSrai rd ra sh s := rfl
@[simp] theorem exec_slti (rd ra : Reg) (imm : BitVec 14) (s : State) :
    exec (.slti rd ra imm) s = execSlti rd ra imm s := rfl
@[simp] theorem exec_sltni (rd ra : Reg) (imm : BitVec 14) (s : State) :
    exec (.sltni rd ra imm) s = execSltni rd ra imm s := rfl
@[simp] theorem exec_lui (rd : Reg) (imm : BitVec 20) (s : State) :
    exec (.lui rd imm) s = execLui rd imm s := rfl
@[simp] theorem exec_lba (rd : Reg) (imm : BitVec 20) (s : State) :
    exec (.lba rd imm) s = execLba rd imm s := rfl
@[simp] theorem exec_ld (rd base : Reg) (size : MSize) (fe : Fe) (imm : BitVec 9) (s : State) :
    exec (.ld rd base size fe imm) s = execLd rd base size fe imm s := rfl
@[simp] theorem exec_st (rd base : Reg) (size : MSize) (fe : Fe) (imm : BitVec 9) (s : State) :
    exec (.st rd base size fe imm) s = execSt rd base size fe imm s := rfl
@[simp] theorem exec_br (cond : Cond) (ra : Reg) (ofs : BitVec 17) (s : State) :
    exec (.br cond ra ofs) s = execBr cond ra ofs s := rfl
@[simp] theorem exec_call (cond : Cond) (ra : Reg) (ofs : BitVec 17) (s : State) :
    exec (.call cond ra ofs) s = execCall cond ra ofs s := rfl
@[simp] theorem exec_jr (rd ra : Reg) (s : State) :
    exec (.jr rd ra) s = execJr rd ra s := rfl
@[simp] theorem exec_halt (s : State) :
    exec (.halt) s = execHalt s := rfl
@[simp] theorem exec_trap (code : BitVec 10) (s : State) :
    exec (.trap code) s = execTrap code s := rfl
@[simp] theorem exec_tret (s : State) :
    exec (.tret) s = execTret s := rfl
@[simp] theorem exec_wfe (s : State) :
    exec (.wfe) s = execWfe s := rfl
@[simp] theorem exec_sev (s : State) :
    exec (.sev) s = execSev s := rfl
@[simp] theorem exec_fence (scope : BitVec 3) (s : State) :
    exec (.fence scope) s = execFence scope s := rfl
@[simp] theorem exec_lda (w32 : Bool) (rd ra : Reg) (scope : BitVec 3) (s : State) :
    exec (.lda w32 rd ra scope) s = execLda w32 rd ra scope s := rfl
@[simp] theorem exec_stl (w32 : Bool) (ra rb : Reg) (scope : BitVec 3) (s : State) :
    exec (.stl w32 ra rb scope) s = execStl w32 ra rb scope s := rfl
@[simp] theorem exec_cas (w32 : Bool) (rd ra rb : Reg) (scope : BitVec 3) (s : State) :
    exec (.cas w32 rd ra rb scope) s = execCas w32 rd ra rb scope s := rfl
@[simp] theorem exec_amoAdd (w32 : Bool) (rd ra rb : Reg) (scope : BitVec 3) (s : State) :
    exec (.amoAdd w32 rd ra rb scope) s = execAmoAdd w32 rd ra rb scope s := rfl
@[simp] theorem exec_amoAnd (w32 : Bool) (rd ra rb : Reg) (scope : BitVec 3) (s : State) :
    exec (.amoAnd w32 rd ra rb scope) s = execAmoAnd w32 rd ra rb scope s := rfl
@[simp] theorem exec_amoOr (w32 : Bool) (rd ra rb : Reg) (scope : BitVec 3) (s : State) :
    exec (.amoOr w32 rd ra rb scope) s = execAmoOr w32 rd ra rb scope s := rfl
@[simp] theorem exec_amoXor (w32 : Bool) (rd ra rb : Reg) (scope : BitVec 3) (s : State) :
    exec (.amoXor w32 rd ra rb scope) s = execAmoXor w32 rd ra rb scope s := rfl
@[simp] theorem exec_amoMin (w32 : Bool) (rd ra rb : Reg) (scope : BitVec 3) (s : State) :
    exec (.amoMin w32 rd ra rb scope) s = execAmoMin w32 rd ra rb scope s := rfl
@[simp] theorem exec_amoMax (w32 : Bool) (rd ra rb : Reg) (scope : BitVec 3) (s : State) :
    exec (.amoMax w32 rd ra rb scope) s = execAmoMax w32 rd ra rb scope s := rfl
@[simp] theorem exec_amoMinn (w32 : Bool) (rd ra rb : Reg) (scope : BitVec 3) (s : State) :
    exec (.amoMinn w32 rd ra rb scope) s = execAmoMinn w32 rd ra rb scope s := rfl
@[simp] theorem exec_amoMaxn (w32 : Bool) (rd ra rb : Reg) (scope : BitVec 3) (s : State) :
    exec (.amoMaxn w32 rd ra rb scope) s = execAmoMaxn w32 rd ra rb scope s := rfl
@[simp] theorem exec_amoSwap (w32 : Bool) (rd ra rb : Reg) (scope : BitVec 3) (s : State) :
    exec (.amoSwap w32 rd ra rb scope) s = execAmoSwap w32 rd ra rb scope s := rfl
@[simp] theorem exec_binit (ra rb : Reg) (scope : BitVec 3) (s : State) :
    exec (.binit ra rb scope) s = execBinit ra rb scope s := rfl
@[simp] theorem exec_barv (rd ra : Reg) (s : State) :
    exec (.barv rd ra) s = execBarv rd ra s := rfl
@[simp] theorem exec_bexp (ra rb : Reg) (s : State) :
    exec (.bexp ra rb) s = execBexp ra rb s := rfl
@[simp] theorem exec_bwait (rd ra rb : Reg) (scope : BitVec 3) (s : State) :
    exec (.bwait rd ra rb scope) s = execBwait rd ra rb scope s := rfl
@[simp] theorem exec_qinit (ra rb : Reg) (s : State) :
    exec (.qinit ra rb) s = execQinit ra rb s := rfl
@[simp] theorem exec_qenq (ra rb : Reg) (s : State) :
    exec (.qenq ra rb) s = execQenq ra rb s := rfl
@[simp] theorem exec_qdeq (ra rb : Reg) (s : State) :
    exec (.qdeq ra rb) s = execQdeq ra rb s := rfl
@[simp] theorem exec_qtenq (rd ra rb : Reg) (s : State) :
    exec (.qtenq rd ra rb) s = execQtenq rd ra rb s := rfl
@[simp] theorem exec_qtdeq (rd ra rb : Reg) (s : State) :
    exec (.qtdeq rd ra rb) s = execQtdeq rd ra rb s := rfl
@[simp] theorem exec_qstat (rd ra : Reg) (s : State) :
    exec (.qstat rd ra) s = execQstat rd ra s := rfl
@[simp] theorem exec_qdrain (ra : Reg) (s : State) :
    exec (.qdrain ra) s = execQdrain ra s := rfl
@[simp] theorem exec_rwfill (rd : Reg) (h : BitVec 5) (cnt : BitVec 15) (s : State) :
    exec (.rwfill rd h cnt) s = execRwfill rd h cnt s := rfl
@[simp] theorem exec_rwfree (rd : Reg) (h : BitVec 5) (cnt : BitVec 15) (s : State) :
    exec (.rwfree rd h cnt) s = execRwfree rd h cnt s := rfl
@[simp] theorem exec_rpop (h : BitVec 5) (cnt : BitVec 15) (s : State) :
    exec (.rpop h cnt) s = execRpop h cnt s := rfl
@[simp] theorem exec_rpush (h : BitVec 5) (cnt : BitVec 15) (s : State) :
    exec (.rpush h cnt) s = execRpush h cnt s := rfl
@[simp] theorem exec_rset (h : BitVec 5) (ra : Reg) (s : State) :
    exec (.rset h ra) s = execRset h ra s := rfl
@[simp] theorem exec_rget (h : BitVec 5) (ra : Reg) (s : State) :
    exec (.rget h ra) s = execRget h ra s := rfl
@[simp] theorem exec_issue (ra rb : Reg) (s : State) :
    exec (.issue ra rb) s = execIssue ra rb s := rfl
@[simp] theorem exec_cfgld (rd ra rb : Reg) (s : State) :
    exec (.cfgld rd ra rb) s = execCfgld rd ra rb s := rfl
@[simp] theorem exec_dcinv (ra rb : Reg) (s : State) :
    exec (.dcinv ra rb) s = execDcinv ra rb s := rfl
@[simp] theorem exec_dcdrain (ra rb : Reg) (s : State) :
    exec (.dcdrain ra rb) s = execDcdrain ra rb s := rfl
@[simp] theorem exec_icinv (ra rb : Reg) (s : State) :
    exec (.icinv ra rb) s = execIcinv ra rb s := rfl
@[simp] theorem exec_copy (h : CmdHdr) (src : BitVec 12) (rm : BitVec 2) (sat : Bool) (dst : BitVec 12) (o2 o1 o0 : BitVec 16) (s : State) :
    exec (.copy h src rm sat dst o2 o1 o0) s = execCopy h src rm sat dst o2 o1 o0 s := rfl
@[simp] theorem exec_copyr (h : CmdHdr) (ring : BitVec 5) (rm : BitVec 2) (sat : Bool) (src : BitVec 12) (o2 o1 o0 : BitVec 16) (s : State) :
    exec (.copyr h ring rm sat src o2 o1 o0) s = execCopyr h ring rm sat src o2 o1 o0 s := rfl
@[simp] theorem exec_copyx (h : CmdHdr) (ring : BitVec 5) (rm : BitVec 2) (sat : Bool) (dst : BitVec 12) (o2 o1 o0 : BitVec 16) (s : State) :
    exec (.copyx h ring rm sat dst o2 o1 o0) s = execCopyx h ring rm sat dst o2 o1 o0 s := rfl
@[simp] theorem exec_copyred (h : CmdHdr) (src : BitVec 12) (rm : BitVec 2) (sat : Bool) (dst : BitVec 12) (op : BitVec 2) (o1 o0 : BitVec 16) (s : State) :
    exec (.copyred h src rm sat dst op o1 o0) s = execCopyred h src rm sat dst op o1 o0 s := rfl
@[simp] theorem exec_gather (h : CmdHdr) (t : BitVec 12) (desig : BitVec 11) (rofs iofs : BitVec 15) (nm1 : BitVec 12) (n32 : Bool) (s : State) :
    exec (.gather h t desig rofs iofs nm1 n32) s = execGather h t desig rofs iofs nm1 n32 s := rfl
@[simp] theorem exec_scatter (h : CmdHdr) (t : BitVec 12) (desig : BitVec 11) (rofs iofs : BitVec 15) (nm1 : BitVec 12) (n32 : Bool) (s : State) :
    exec (.scatter h t desig rofs iofs nm1 n32) s = execScatter h t desig rofs iofs nm1 n32 s := rfl
@[simp] theorem exec_fill (h : CmdHdr) (t : BitVec 12) (scr : Bool) (desig : BitVec 11) (ofs : BitVec 15) (val : BitVec 32) (s : State) :
    exec (.fill h t scr desig ofs val) s = execFill h t scr desig ofs val s := rfl
@[simp] theorem exec_agload (h : CmdHdr) (nm1 : BitVec 8) (addr : BitVec 48) (s : State) :
    exec (.agload h nm1 addr) s = execAgload h nm1 addr s := rfl
@[simp] theorem exec_sbar (h : CmdHdr) (mask : BitVec 7) (s : State) :
    exec (.sbar h mask) s = execSbar h mask s := rfl
@[simp] theorem exec_carrive (h : CmdHdr) (s : State) :
    exec (.carrive h) s = execCarrive h s := rfl
@[simp] theorem exec_cexpect (h : CmdHdr) (bytes : BitVec 32) (s : State) :
    exec (.cexpect h bytes) s = execCexpect h bytes s := rfl
@[simp] theorem exec_cnop (h : CmdHdr) (s : State) :
    exec (.cnop h) s = execCnop h s := rfl
@[simp] theorem exec_qput (h : CmdHdr) (nm1 : BitVec 8) (ring : BitVec 5) (q : BitVec 48) (s : State) :
    exec (.qput h nm1 ring q) s = execQput h nm1 ring q s := rfl
@[simp] theorem exec_qget (h : CmdHdr) (nm1 : BitVec 8) (ring : BitVec 5) (q : BitVec 48) (s : State) :
    exec (.qget h nm1 ring q) s = execQget h nm1 ring q s := rfl
@[simp] theorem exec_depdec (h : CmdHdr) (die : BitVec 2) (amount : BitVec 8) (name : BitVec 32) (s : State) :
    exec (.depdec h die amount name) s = execDepdec h die amount name s := rfl
@[simp] theorem exec_mred (h : CmdHdr) (t : BitVec 12) (rm : BitVec 2) (sat : Bool) (op : BitVec 2) (desig : BitVec 11) (sofs : BitVec 15) (idx nm1 : BitVec 8) (tag : BitVec 12) (tmo : BitVec 5) (s : State) :
    exec (.mred h t rm sat op desig sofs idx nm1 tag tmo) s = execMred h t rm sat op desig sofs idx nm1 tag tmo s := rfl
@[simp] theorem exec_mredCombine (key : Nat) (tag : BitVec 12) (s : State) :
    exec (.mredCombine key tag) s = execMredCombine key tag s := rfl
@[simp] theorem exec_mredTimeout (key : Nat) (tag : BitVec 12) (s : State) :
    exec (.mredTimeout key tag) s = execMredTimeout key tag s := rfl
@[simp] theorem exec_matom (h : CmdHdr) (t : BitVec 12) (op : BitVec 4) (desig : BitVec 11) (sofs : BitVec 15) (ret : Bool) (rofs : BitVec 15) (ord : Bool) (s : State) :
    exec (.matom h t op desig sofs ret rofs ord) s = execMatom h t op desig sofs ret rofs ord s := rfl
@[simp] theorem exec_maxpy (h : CmdHdr) (t : BitVec 12) (rm : BitVec 2) (sat : Bool) (desig : BitVec 11) (xofs : BitVec 15) (a : BitVec 32) (s : State) :
    exec (.maxpy h t rm sat desig xofs a) s = execMaxpy h t rm sat desig xofs a s := rfl
@[simp] theorem exec_thresh (h : CmdHdr) (score : BitVec 32) (s : State) :
    exec (.thresh h score) s = execThresh h score s := rfl
@[simp] theorem exec_launch (h : CmdHdr) (addr : BitVec 48) (s : State) :
    exec (.launch h addr) s = execLaunch h addr s := rfl
@[simp] theorem exec_launchAccept (k : Nat) (s : State) :
    exec (.launchAccept k) s = execLaunchAccept k s := rfl
@[simp] theorem exec_mswitch (h : CmdHdr) (m : BitVec 2) (now : Bool) (s : State) :
    exec (.mswitch h m now) s = execMswitch h m now s := rfl
@[simp] theorem exec_pref (h : CmdHdr) (t : BitVec 12) (s : State) :
    exec (.pref h t) s = execPref h t s := rfl
@[simp] theorem exec_inval (h : CmdHdr) (t : BitVec 12) (s : State) :
    exec (.inval h t) s = execInval h t s := rfl
@[simp] theorem exec_flush (h : CmdHdr) (t : BitVec 12) (s : State) :
    exec (.flush h t) s = execFlush h t s := rfl
@[simp] theorem exec_vadd (n : NodeHdr) (s : State) :
    exec (.vadd n) s = execVadd n s := rfl
@[simp] theorem exec_vsub (n : NodeHdr) (s : State) :
    exec (.vsub n) s = execVsub n s := rfl
@[simp] theorem exec_vmul (n : NodeHdr) (s : State) :
    exec (.vmul n) s = execVmul n s := rfl
@[simp] theorem exec_vfma (n : NodeHdr) (s : State) :
    exec (.vfma n) s = execVfma n s := rfl
@[simp] theorem exec_vdiv (n : NodeHdr) (s : State) :
    exec (.vdiv n) s = execVdiv n s := rfl
@[simp] theorem exec_vsqrt (n : NodeHdr) (s : State) :
    exec (.vsqrt n) s = execVsqrt n s := rfl
@[simp] theorem exec_vmin (n : NodeHdr) (s : State) :
    exec (.vmin n) s = execVmin n s := rfl
@[simp] theorem exec_vmax (n : NodeHdr) (s : State) :
    exec (.vmax n) s = execVmax n s := rfl
@[simp] theorem exec_vabs (n : NodeHdr) (s : State) :
    exec (.vabs n) s = execVabs n s := rfl
@[simp] theorem exec_vneg (n : NodeHdr) (s : State) :
    exec (.vneg n) s = execVneg n s := rfl
@[simp] theorem exec_vand (n : NodeHdr) (s : State) :
    exec (.vand n) s = execVand n s := rfl
@[simp] theorem exec_vor (n : NodeHdr) (s : State) :
    exec (.vor n) s = execVor n s := rfl
@[simp] theorem exec_vxor (n : NodeHdr) (s : State) :
    exec (.vxor n) s = execVxor n s := rfl
@[simp] theorem exec_vshl (n : NodeHdr) (s : State) :
    exec (.vshl n) s = execVshl n s := rfl
@[simp] theorem exec_vshr (n : NodeHdr) (s : State) :
    exec (.vshr n) s = execVshr n s := rfl
@[simp] theorem exec_vclamp (n : NodeHdr) (s : State) :
    exec (.vclamp n) s = execVclamp n s := rfl
@[simp] theorem exec_vcmp (n : NodeHdr) (cc : BitVec 3) (any : Bool) (s : State) :
    exec (.vcmp n cc any) s = execVcmp n cc any s := rfl
@[simp] theorem exec_sel (n : NodeHdr) (s : State) :
    exec (.sel n) s = execSel n s := rfl
@[simp] theorem exec_cvtNode (n : NodeHdr) (sfmt : Fmt) (stid dtid : BitVec 12) (s : State) :
    exec (.cvtNode n sfmt stid dtid) s = execCvtNode n sfmt stid dtid s := rfl
@[simp] theorem exec_vperm (n : NodeHdr) (s : State) :
    exec (.vperm n) s = execVperm n s := rfl
@[simp] theorem exec_vrec (n : NodeHdr) (s : State) :
    exec (.vrec n) s = execVrec n s := rfl
@[simp] theorem exec_vrsq (n : NodeHdr) (s : State) :
    exec (.vrsq n) s = execVrsq n s := rfl
@[simp] theorem exec_vexp (n : NodeHdr) (s : State) :
    exec (.vexp n) s = execVexp n s := rfl
@[simp] theorem exec_vlog (n : NodeHdr) (s : State) :
    exec (.vlog n) s = execVlog n s := rfl
@[simp] theorem exec_vtanh (n : NodeHdr) (s : State) :
    exec (.vtanh n) s = execVtanh n s := rfl
@[simp] theorem exec_vsigm (n : NodeHdr) (s : State) :
    exec (.vsigm n) s = execVsigm n s := rfl
@[simp] theorem exec_vred (n : NodeHdr) (op lvl : BitVec 3) (s : State) :
    exec (.vred n op lvl) s = execVred n op lvl s := rfl
@[simp] theorem exec_vscan (n : NodeHdr) (op lvl : BitVec 3) (s : State) :
    exec (.vscan n op lvl) s = execVscan n op lvl s := rfl
@[simp] theorem exec_vbcast (n : NodeHdr) (elem : BitVec 5) (s : State) :
    exec (.vbcast n elem) s = execVbcast n elem s := rfl
@[simp] theorem exec_mma (n : NodeHdr) (m : MatHdr) (km1 : BitVec 16) (cin : Bool) (s : State) :
    exec (.mma n m km1 cin) s = execMma n m km1 cin s := rfl
@[simp] theorem exec_mpoly (n : NodeHdr) (m : MatHdr) (deg : BitVec 3) (s : State) :
    exec (.mpoly n m deg) s = execMpoly n m deg s := rfl
@[simp] theorem exec_miter (n : NodeHdr) (m : MatHdr) (cap : BitVec 16) (tol lim : BitVec 32) (tdiv : Bool) (s : State) :
    exec (.miter n m cap tol lim tdiv) s = execMiter n m cap tol lim tdiv s := rfl
@[simp] theorem exec_msort (n : NodeHdr) (m : MatHdr) (s : State) :
    exec (.msort n m) s = execMsort n m s := rfl
@[simp] theorem exec_mtrn (n : NodeHdr) (m : MatHdr) (s : State) :
    exec (.mtrn n m) s = execMtrn n m s := rfl
@[simp] theorem exec_cseq (n : NodeHdr) (cnt : BitVec 32) (s : State) :
    exec (.cseq n cnt) s = execCseq n cnt s := rfl
@[simp] theorem exec_cpipe (n : NodeHdr) (cnt : BitVec 32) (dm1 : BitVec 4) (s : State) :
    exec (.cpipe n cnt dm1) s = execCpipe n cnt dm1 s := rfl
@[simp] theorem exec_cstrm (n : NodeHdr) (cnt : BitVec 32) (s : State) :
    exec (.cstrm n cnt) s = execCstrm n cnt s := rfl
@[simp] theorem exec_steer (n : NodeHdr) (s : State) :
    exec (.steer n) s = execSteer n s := rfl
@[simp] theorem exec_prime (n : NodeHdr) (nm1 : BitVec 8) (s : State) :
    exec (.prime n nm1) s = execPrime n nm1 s := rfl
@[simp] theorem exec_source (n : NodeHdr) (nbeat : BitVec 32) (endc : BitVec 4) (s : State) :
    exec (.source n nbeat endc) s = execSource n nbeat endc s := rfl
@[simp] theorem exec_count (n : NodeHdr) (cnt base step : BitVec 32) (endc : BitVec 4) (s : State) :
    exec (.count n cnt base step endc) s = execCount n cnt base step endc s := rfl
@[simp] theorem exec_sink (n : NodeHdr) (ndone : BitVec 16) (s : State) :
    exec (.sink n ndone) s = execSink n ndone s := rfl
@[simp] theorem exec_selectToken (s : State) :
    exec (.selectToken) s = execSelectToken s := rfl
@[simp] theorem exec_mantleSwitch (s : State) :
    exec (.mantleSwitch) s = execMantleSwitch s := rfl
@[simp] theorem exec_load (n : NodeHdr) (scope : BitVec 3) (s : State) :
    exec (.load n scope) s = execLoad n scope s := rfl
@[simp] theorem exec_store (n : NodeHdr) (scope : BitVec 3) (s : State) :
    exec (.store n scope) s = execStore n scope s := rfl
@[simp] theorem exec_ldfe (n : NodeHdr) (scope : BitVec 3) (s : State) :
    exec (.ldfe n scope) s = execLdfe n scope s := rfl
@[simp] theorem exec_stfe (n : NodeHdr) (scope : BitVec 3) (s : State) :
    exec (.stfe n scope) s = execStfe n scope s := rfl
@[simp] theorem exec_ojoin (n : NodeHdr) (scope : BitVec 3) (s : State) :
    exec (.ojoin n scope) s = execOjoin n scope s := rfl
@[simp] theorem exec_atom (n : NodeHdr) (scope : BitVec 3) (op : BitVec 4) (s : State) :
    exec (.atom n scope op) s = execAtom n scope op s := rfl
@[simp] theorem exec_rdring (n : NodeHdr) (scope : BitVec 3) (s : State) :
    exec (.rdring n scope) s = execRdring n scope s := rfl
@[simp] theorem exec_wrring (n : NodeHdr) (scope : BitVec 3) (close : BitVec 4) (s : State) :
    exec (.wrring n scope close) s = execWrring n scope close s := rfl
@[simp] theorem exec_fscan (n : NodeHdr) (ptrofs crdofs : BitVec 15) (cnt : BitVec 32) (s : State) :
    exec (.fscan n ptrofs crdofs cnt) s = execFscan n ptrofs crdofs cnt s := rfl
@[simp] theorem exec_isect (n : NodeHdr) (s : State) :
    exec (.isect n) s = execIsect n s := rfl
@[simp] theorem exec_union (n : NodeHdr) (op : BitVec 3) (s : State) :
    exec (.union n op) s = execUnion n op s := rfl
@[simp] theorem exec_repeatNode (n : NodeHdr) (lvl : BitVec 3) (s : State) :
    exec (.repeatNode n lvl) s = execRepeatNode n lvl s := rfl
@[simp] theorem exec_sred (n : NodeHdr) (op lvl : BitVec 3) (s : State) :
    exec (.sred n op lvl) s = execSred n op lvl s := rfl
@[simp] theorem exec_sjoin (n : NodeHdr) (op lvl rlvl : BitVec 3) (s : State) :
    exec (.sjoin n op lvl rlvl) s = execSjoin n op lvl rlvl s := rfl
@[simp] theorem exec_sacc (n : NodeHdr) (accofs : BitVec 15) (wm1 : BitVec 13) (lvl : BitVec 3) (s : State) :
    exec (.sacc n accofs wm1 lvl) s = execSacc n accofs wm1 lvl s := rfl
@[simp] theorem exec_split (n : NodeHdr) (s : State) :
    exec (.split n) s = execSplit n s := rfl
@[simp] theorem exec_merge (n : NodeHdr) (s : State) :
    exec (.merge n) s = execMerge n s := rfl
@[simp] theorem exec_rmerge (n : NodeHdr) (s : State) :
    exec (.rmerge n) s = execRmerge n s := rfl
@[simp] theorem exec_gath (n : NodeHdr) (scope : BitVec 3) (tid : BitVec 12) (icrd : Bool) (s : State) :
    exec (.gath n scope tid icrd) s = execGath n scope tid icrd s := rfl
@[simp] theorem exec_scat (n : NodeHdr) (scope : BitVec 3) (tv tc tp : BitVec 12) (lvl : BitVec 3) (s : State) :
    exec (.scat n scope tv tc tp lvl) s = execScat n scope tv tc tp lvl s := rfl
@[simp] theorem exec_agen (n : NodeHdr) (scope : BitVec 3) (start : BitVec 8) (s : State) :
    exec (.agen n scope start) s = execAgen n scope start s := rfl
@[simp] theorem exec_qport (n : NodeHdr) (s : State) :
    exec (.qport n) s = execQport n s := rfl
@[simp] theorem exec_pqadc (n : NodeHdr) (tabofs : BitVec 15) (mm1 : BitVec 6) (iszw : BitVec 8) (s : State) :
    exec (.pqadc n tabofs mm1 iszw) s = execPqadc n tabofs mm1 iszw s := rfl
@[simp] theorem exec_bound (n : NodeHdr) (recen : Bool) (recofs : BitVec 15) (s : State) :
    exec (.bound n recen recofs) s = execBound n recen recofs s := rfl
@[simp] theorem exec_topk (n : NodeHdr) (km1 : BitVec 8) (seg : Bool) (lvl : BitVec 3) (qen : Bool) (q : BitVec 42) (recen : Bool) (recofs : BitVec 15) (s : State) :
    exec (.topk n km1 seg lvl qen q recen recofs) s = execTopk n km1 seg lvl qen q recen recofs s := rfl
@[simp] theorem exec_seepm (n : NodeHdr) (qen : Bool) (q : BitVec 42) (s : State) :
    exec (.seepm n qen q) s = execSeepm n qen q s := rfl
@[simp] theorem exec_tomb (n : NodeHdr) (scope : BitVec 3) (tid : BitVec 12) (s : State) :
    exec (.tomb n scope tid) s = execTomb n scope tid s := rfl
@[simp] theorem exec_vset (n : NodeHdr) (scope : BitVec 3) (tvis ttomb : BitVec 12) (expdel ten : Bool) (s : State) :
    exec (.vset n scope tvis ttomb expdel ten) s = execVset n scope tvis ttomb expdel ten s := rfl
@[simp] theorem exec_kipack (n : NodeHdr) (base : BitVec 32) (s : State) :
    exec (.kipack n base) s = execKipack n base s := rfl
@[simp] theorem exec_fcomp (n : NodeHdr) (eps : BitVec 32) (s : State) :
    exec (.fcomp n eps) s = execFcomp n eps s := rfl
@[simp] theorem exec_walkStart (die : BitVec 2) (s : State) :
    exec (.walkStart die) s = execWalkStart die s := rfl
@[simp] theorem exec_walkComplete (die : BitVec 2) (k : Nat) (s : State) :
    exec (.walkComplete die k) s = execWalkComplete die k s := rfl
@[simp] theorem exec_lineFill (line : Nat) (s : State) :
    exec (.lineFill line) s = execLineFill line s := rfl
@[simp] theorem exec_retryTimer (k : Nat) (s : State) :
    exec (.retryTimer k) s = execRetryTimer k s := rfl
@[simp] theorem exec_qportSubmit (fn : BitVec 7) (size : Nat) (record : BitVec 1024) (s : State) :
    exec (.qportSubmit fn size record) s = execQportSubmit fn size record s := rfl
@[simp] theorem exec_distribute (s : State) :
    exec (.distribute) s = execDistribute s := rfl
@[simp] theorem exec_placementAttempt (die : BitVec 2) (s : State) :
    exec (.placementAttempt die) s = execPlacementAttempt die s := rfl
@[simp] theorem exec_fenStart (s : State) :
    exec (.fenStart) s = execFenStart s := rfl
@[simp] theorem exec_aging (die : BitVec 2) (k : Nat) (s : State) :
    exec (.aging die k) s = execAging die k s := rfl
@[simp] theorem exec_taskComplete (s : State) :
    exec (.taskComplete) s = execTaskComplete s := rfl
@[simp] theorem exec_balancerWindow (die : BitVec 2) (s : State) :
    exec (.balancerWindow die) s = execBalancerWindow die s := rfl
@[simp] theorem exec_cloneNode (slot : BitVec 8) (s : State) :
    exec (.cloneNode slot) s = execCloneNode slot s := rfl
@[simp] theorem exec_rateRefill (die : BitVec 2) (part : BitVec 4) (s : State) :
    exec (.rateRefill die part) s = execRateRefill die part s := rfl
@[simp] theorem exec_sliceEnd (part : BitVec 4) (s : State) :
    exec (.sliceEnd part) s = execSliceEnd part s := rfl
@[simp] theorem exec_freezeComplete (part : BitVec 4) (s : State) :
    exec (.freezeComplete part) s = execFreezeComplete part s := rfl
@[simp] theorem exec_contextSwitch (part : BitVec 4) (s : State) :
    exec (.contextSwitch part) s = execContextSwitch part s := rfl
@[simp] theorem exec_restoreComplete (part : BitVec 4) (s : State) :
    exec (.restoreComplete part) s = execRestoreComplete part s := rfl
@[simp] theorem exec_externalResponse (k : Nat) (data : List (BitVec 8)) (s : State) :
    exec (.externalResponse k data) s = execExternalResponse k data s := rfl
@[simp] theorem exec_migPreCopy (fn : BitVec 7) (s : State) :
    exec (.migPreCopy fn) s = execMigPreCopy fn s := rfl
@[simp] theorem exec_migStop (fn : BitVec 7) (s : State) :
    exec (.migStop fn) s = execMigStop fn s := rfl
@[simp] theorem exec_migRun (fn : BitVec 7) (s : State) :
    exec (.migRun fn) s = execMigRun fn s := rfl
@[simp] theorem exec_migResume (fn : BitVec 7) (s : State) :
    exec (.migResume fn) s = execMigResume fn s := rfl
@[simp] theorem exec_sleeveGo (fn : BitVec 7) (s : State) :
    exec (.sleeveGo fn) s = execSleeveGo fn s := rfl
@[simp] theorem exec_faultVerdict (fn : BitVec 7) (seq : BitVec 64) (s : State) :
    exec (.faultVerdict fn seq) s = execFaultVerdict fn seq s := rfl
@[simp] theorem exec_twWrite (fn : BitVec 7) (asid : BitVec 16) (tnum : BitVec 12) (s : State) :
    exec (.twWrite fn asid tnum) s = execTwWrite fn asid tnum s := rfl
@[simp] theorem exec_twRead (fn : BitVec 7) (asid : BitVec 16) (tnum : BitVec 12) (s : State) :
    exec (.twRead fn asid tnum) s = execTwRead fn asid tnum s := rfl
@[simp] theorem exec_twRemove (fn : BitVec 7) (asid : BitVec 16) (tnum : BitVec 12) (s : State) :
    exec (.twRemove fn asid tnum) s = execTwRemove fn asid tnum s := rfl
@[simp] theorem exec_invVa (fn : BitVec 7) (asid : BitVec 16) (s : State) :
    exec (.invVa fn asid) s = execInvVa fn asid s := rfl
@[simp] theorem exec_invAsid (fn : BitVec 7) (asid : BitVec 16) (s : State) :
    exec (.invAsid fn asid) s = execInvAsid fn asid s := rfl
@[simp] theorem exec_invIpa (fn : BitVec 7) (part : BitVec 16) (s : State) :
    exec (.invIpa fn part) s = execInvIpa fn part s := rfl
@[simp] theorem exec_invPart (fn : BitVec 7) (part : BitVec 16) (s : State) :
    exec (.invPart fn part) s = execInvPart fn part s := rfl
@[simp] theorem exec_invAll (fn : BitVec 7) (s : State) :
    exec (.invAll fn) s = execInvAll fn s := rfl
@[simp] theorem exec_invComplete (fn : BitVec 7) (s : State) :
    exec (.invComplete fn) s = execInvComplete fn s := rfl
@[simp] theorem exec_registerWrite (fn : BitVec 7) (ofs : BitVec 21) (val : BitVec 64) (s : State) :
    exec (.registerWrite fn ofs val) s = execRegisterWrite fn ofs val s := rfl
@[simp] theorem exec_hostMemAccess (ofs : Nat) (op : ExtOp) (s : State) :
    exec (.hostMemAccess ofs op) s = execHostMemAccess ofs op s := rfl
@[simp] theorem exec_peerAccess (srcMod : BitVec 6) (srcPart : BitVec 4) (die : BitVec 2) (ofs : Nat) (op : ExtOp) (s : State) :
    exec (.peerAccess srcMod srcPart die ofs op) s = execPeerAccess srcMod srcPart die ofs op s := rfl
@[simp] theorem exec_portDown (port : BitVec 4) (s : State) :
    exec (.portDown port) s = execPortDown port s := rfl
@[simp] theorem exec_portDownTimeout (port : BitVec 4) (s : State) :
    exec (.portDownTimeout port) s = execPortDownTimeout port s := rfl
@[simp] theorem exec_spdmRequest (req : SpdmReq) (s : State) :
    exec (.spdmRequest req) s = execSpdmRequest req s := rfl
@[simp] theorem exec_bringUp (s : State) :
    exec (.bringUp) s = execBringUp s := rfl
@[simp] theorem exec_powerWindow (watts : Nat) (s : State) :
    exec (.powerWindow watts) s = execPowerWindow watts s := rfl
@[simp] theorem exec_thermalThrottle (tj : BitVec 8) (s : State) :
    exec (.thermalThrottle tj) s = execThermalThrottle tj s := rfl
@[simp] theorem exec_thermalTrip (tj : BitVec 8) (s : State) :
    exec (.thermalTrip tj) s = execThermalTrip tj s := rfl
@[simp] theorem exec_groupLaunchInstance (srcMod : BitVec 6) (asid : BitVec 16) (record : BitVec 1024) (s : State) :
    exec (.groupLaunchInstance srcMod asid record) s = execGroupLaunchInstance srcMod asid record s := rfl
@[simp] theorem exec_abandonedInstanceEnd (key : Nat) (tag : BitVec 12) (s : State) :
    exec (.abandonedInstanceEnd key tag) s = execAbandonedInstanceEnd key tag s := rfl
@[simp] theorem exec_cxlLinkTrained (s : State) :
    exec (.cxlLinkTrained) s = execCxlLinkTrained s := rfl

end Sys2Proof.Machine
end

