-- ==== Sys2Proof/Laws/Core.lean ====
section
/-! SUPPORT. What the shared operations of a control core's instructions do: registers of the block, the update of one
core, register instructions. -/
namespace Sys2Proof.Machine

/-- A write of a register is seen in that register alone, and never in g0. -/
theorem get_put (c : Core) (rd r : Reg) (v : Word) :
    (c.put rd v).get r = if r = rd ∧ rd ≠ 0#6 then v else c.get r := by
  unfold Core.put Core.get
  by_cases h : rd = 0#6
  · simp [h]
  · by_cases hr : r = rd
    · subst hr; simp [h]
    · have : rd.toNat ≠ r.toNat := fun e => hr (BitVec.eq_of_toNat_eq e.symm)
      simp [h, hr, this]

/-- g0 reads zero (R6, R14). -/
@[simp] theorem get_zero (c : Core) : c.get 0#6 = 0#64 := rfl

@[simp] theorem put_idx (c : Core) (r : Reg) (v : Word) : (c.put r v).idx = c.idx := by unfold Core.put; split <;> rfl
@[simp] theorem put_stat (c : Core) (r : Reg) (v : Word) : (c.put r v).stat = c.stat := by unfold Core.put; split <;> rfl
@[simp] theorem put_effs (c : Core) (r : Reg) (v : Word) : (c.put r v).effs = c.effs := by unfold Core.put; split <;> rfl
@[simp] theorem put_pc (c : Core) (r : Reg) (v : Word) : (c.put r v).pc = c.pc := by unfold Core.put; split <;> rfl
@[simp] theorem put_regs (c : Core) (r : Reg) (v : Word) : (c.put r v).regs = c.regs := by unfold Core.put; split <;> rfl

/-- A write of a register leaves all of a core but the block's registers. -/
theorem put_rest (c : Core) (r : Reg) (v : Word) : { c.put r v with loc := c.loc, late := c.late } = c := by
  unfold Core.put; split <;> rfl

/-- The core whose turn it is belongs to a fen of the state. -/
theorem coreHere_fens {s : State} {f : Nat} {x : Fen} (h : s.coreHere = some (f, x)) : s.fens[f]? = some x := by
  unfold State.coreHere at h
  split at h
  · rw [Option.map_eq_some_iff] at h
    obtain ⟨y, hy, e⟩ := h
    cases e; exact hy
  · cases h

/-- An instruction of the core whose turn it is goes on as its meaning says. -/
theorem onCore_next {s : State} {f : Nat} {x : Fen} (h : s.coreHere = some (f, x)) (k : Nat → Fen → State) :
    onCore s k = .next (k f x) := by simp [onCore, h]

/-- An update of one fen changes that fen alone. -/
theorem updFen_only {s : State} {f : Nat} {x : Fen} (h : s.fens[f]? = some x) (g : Fen → Fen) :
    FenOnly s (s.updFen f g) f (g x) where
  fen := by simp [State.updFen, h]
  others := fun k hk => by simp [State.updFen, getElem?_updNth_ne _ _ hk]
  rest := rfl

/-- An update of one core changes that core alone. -/
theorem updCore_only {s : State} {f : Nat} {x : Fen} (h : s.fens[f]? = some x) (g : Core → Core) :
    CoreOnly s (s.updCore f g) f x { x with core := g x.core } :=
  { updFen_only h (fun x => { x with core := g x.core }) with own := rfl }

/-- A register instruction with status: its step. -/
theorem regOpSt_step {i : Instr} {rd : Reg} {v : Core → Word × BitVec 32} (h : ∀ s, exec i s = regOpSt s rd v) :
    RegStep i rd (fun c => (v c).1) (fun c => (v c).2) := by
  intro s f x hc
  refine ⟨_, _, (h s).trans (onCore_next hc _), updCore_only (coreHere_fens hc) _, ?_, fun r => get_put _ _ _ _, ?_, ?_⟩
  · unfold SameRest Core.adv Core.orStat Core.put; split <;> rfl
  · simp [Core.adv, Core.orStat]
  · simp [Core.adv, Core.orStat]

/-- A register instruction without status: its step. -/
theorem regOp_step {i : Instr} {rd : Reg} {v : Core → Word} (h : ∀ s, exec i s = regOp s rd v) : RegStep0 i rd v := by
  intro s f x hc
  refine ⟨_, _, (h s).trans (onCore_next hc _), updCore_only (coreHere_fens hc) _, ?_, fun r => get_put _ _ _ _, ?_, ?_⟩
  · unfold SameRest Core.adv Core.put; split <;> rfl
  · simp [Core.adv]
  · simp [Core.adv]

/-- An update of the core that is a write of a register, status bits and the next index is a register step. -/
theorem regStepAt_of {i : Instr} {s : State} {f : Nat} {x : Fen} {rd : Reg} {v : Word} {st : BitVec 32}
    (hc : s.coreHere = some (f, x)) (g : Core → Core) (h : exec i s = .next (s.updCore f g))
    (hg : g x.core = ((x.core.put rd v).orStat st).adv) : RegStepAt i s f x rd v st := by
  refine ⟨_, _, h, updCore_only (coreHere_fens hc) _, ?_, fun r => ?_, ?_, ?_⟩
  · rw [hg]; unfold SameRest Core.adv Core.orStat Core.put; split <;> rfl
  · rw [hg]; exact get_put _ _ _ _
  · rw [hg]; simp [Core.adv, Core.orStat]
  · rw [hg]; simp [Core.adv, Core.orStat]

/-- The same without status bits. -/
theorem regStepAt_of0 {i : Instr} {s : State} {f : Nat} {x : Fen} {rd : Reg} {v : Word}
    (hc : s.coreHere = some (f, x)) (g : Core → Core) (h : exec i s = .next (s.updCore f g))
    (hg : g x.core = (x.core.put rd v).adv) : RegStepAt i s f x rd v 0#32 :=
  regStepAt_of hc g h (by rw [hg]; simp [Core.adv, Core.orStat])

/-- An update of the core alone is a core step. -/
theorem coreStep_of {i : Instr} {s : State} {f : Nat} {x : Fen} {c : Core} (hc : s.coreHere = some (f, x))
    (g : Core → Core) (h : exec i s = .next (s.updCore f g)) (hg : g x.core = c) : CoreStep i s f x c :=
  ⟨_, h, hg ▸ updCore_only (coreHere_fens hc) _⟩

/-- The 48 bits that a program counter keeps of a control register. -/
theorem pcBits_eq (w : Word) : pcBits w = pcOf w := by
  apply BitVec.eq_of_toNat_eq
  have : (0xFFFF_FFFF_FFFF#64).toNat = 2 ^ 48 - 1 := rfl
  simp only [pcBits, pcOf, BitVec.toNat_and, this, Nat.and_two_pow_sub_one_eq_mod, BitVec.toNat_ofNat]
  omega

/-- With a handler set, an abort with a trap is the trap entry of R19. -/
theorem abortTrap_trapped {s : State} {f : Nat} {x : Fen} (hx : s.fens[f]? = some x) (hv : x.core.trapvec ≠ 0#64)
    (cause : Nat) (val : Word) : Trapped s (s.abortTrap f cause val) f x cause val := by
  have h : s.abortTrap f cause val = (s.unowed f x.core.pc.toNat).updCore f (fun c => { c.fresh with
      trapcause := BitVec.ofNat 64 cause, trapblk := x.core.pc, trapval := val,
      trapidx := BitVec.ofNat 64 x.core.idx, pc := pcOf c.trapvec }) := by
    have hd : s.dropRetried f = s.unowed f x.core.pc.toNat := by simp [State.dropRetried, State.unowed, hx]
    have hf : (s.unowed f x.core.pc.toNat).fens[f]? = some x := hx
    simp only [State.abortTrap, hx, State.takeTrap, hd, State.enterTrap, hf]
    rw [if_neg (show ¬ x.core.trapvec = 0#64 from hv)]
    simp [State.dropBlock, State.updCore, State.updFen, Core.fresh, pcBits_eq]
  rw [h]
  refine ⟨_, updCore_only (s := s.unowed f x.core.pc.toNat) hx _, ?_⟩
  and_intros <;> rfl

/-- An instruction that aborts its block with a trap takes it. -/
theorem traps_of {i : Instr} {s : State} {f : Nat} {x : Fen} (hc : s.coreHere = some (f, x))
    (hv : x.core.trapvec ≠ 0#64) {cause : Nat} {val : Word} (h : exec i s = .next (s.abortTrap f cause val)) :
    Traps i s f x cause val := ⟨_, h, abortTrap_trapped (coreHere_fens hc) hv _ _⟩

end Sys2Proof.Machine
end

