-- ==== Sys2Proof/Laws/Memory.lean ====
section
/-! SUPPORT. Memory: a read after a write, and that every write keeps the canonical form. -/
namespace Sys2Proof.Machine

theorem cellsAbove_mono {lo lo' : Nat} {c : List Host.Cell} (h : cellsAbove lo c = true) (hl : lo' ≤ lo) :
    cellsAbove lo' c = true := by
  cases c with
  | nil => rfl
  | cons p r =>
    obtain ⟨k, b⟩ := p
    simp only [cellsAbove, Bool.and_eq_true, decide_eq_true_eq] at h ⊢
    exact ⟨⟨by omega, h.1.2⟩, h.2⟩

/-- Below the bound of a canonical list nothing is listed. -/
theorem cellGet_below {lo a : Nat} {c : List Host.Cell} (h : cellsAbove lo c = true) (ha : a < lo) : cellGet c a = 0 := by
  induction c generalizing lo with
  | nil => rfl
  | cons p r ih =>
    obtain ⟨k, b⟩ := p
    simp only [cellsAbove, Bool.and_eq_true, decide_eq_true_eq] at h
    have hk : k ≠ a := by omega
    simp only [cellGet, hk, if_false]
    exact ih h.2 (by omega)

/-- A write of one byte keeps the canonical form. -/
theorem cellsAbove_cellPut {lo a : Nat} {b : Byte} {c : List Host.Cell} (h : cellsAbove lo c = true) (ha : lo ≤ a) :
    cellsAbove lo (cellPut c a b) = true := by
  induction c generalizing lo with
  | nil =>
    unfold cellPut
    split
    · rfl
    · rename_i hb; simp only [cellsAbove, Bool.and_eq_true, decide_eq_true_eq]; exact ⟨⟨ha, by simpa using hb⟩, trivial⟩
  | cons p r ih =>
    obtain ⟨k, d⟩ := p
    have h' := h
    simp only [cellsAbove, Bool.and_eq_true, decide_eq_true_eq] at h
    unfold cellPut
    by_cases h1 : a < k
    · by_cases hb : b = 0
      · simpa [h1, hb] using h'
      · simp only [h1, if_true, hb, if_false, cellsAbove, Bool.and_eq_true, decide_eq_true_eq]
        exact ⟨⟨ha, by simpa using hb⟩, ⟨⟨by omega, h.1.2⟩, h.2⟩⟩
    · by_cases h2 : a = k
      · subst h2
        by_cases hb : b = 0
        · simp only [h1, if_false, hb, if_true]
          exact cellsAbove_mono h.2 (by omega)
        · simp only [h1, if_false, hb, if_true, cellsAbove, Bool.and_eq_true, decide_eq_true_eq]
          exact ⟨⟨ha, by simpa using hb⟩, h.2⟩
      · simp only [h1, h2, if_false, cellsAbove, Bool.and_eq_true, decide_eq_true_eq]
        exact ⟨h.1, ih h.2 (by omega)⟩

/-- A read after a write of one byte. -/
theorem cellGet_cellPut {lo a k : Nat} {b : Byte} {c : List Host.Cell} (h : cellsAbove lo c = true) :
    cellGet (cellPut c a b) k = if k = a then b else cellGet c k := by
  induction c generalizing lo with
  | nil =>
    unfold cellPut
    split
    · rename_i hb; subst hb; simp [cellGet]
    · by_cases hk : k = a
      · subst hk; simp [cellGet]
      · have : a ≠ k := fun e => hk e.symm
        simp [cellGet, hk, this]
  | cons p r ih =>
    obtain ⟨j, d⟩ := p
    simp only [cellsAbove, Bool.and_eq_true, decide_eq_true_eq] at h
    unfold cellPut
    by_cases h1 : a < j
    · by_cases hb : b = 0
      · subst hb
        simp only [h1, if_true]
        by_cases hk : k = a
        · subst hk
          have hj : j ≠ k := by omega
          simp only [cellGet, hj, if_false, if_true]
          exact cellGet_below h.2 (by omega)
        · simp [hk]
      · simp only [h1, if_true, hb, if_false]
        by_cases hk : k = a
        · subst hk; simp [cellGet]
        · have : a ≠ k := fun e => hk e.symm
          simp [cellGet, hk, this]
    · by_cases h2 : a = j
      · subst h2
        by_cases hb : b = 0
        · subst hb
          simp only [h1, if_false, if_true]
          by_cases hk : k = a
          · subst hk; simp only [if_true]; exact cellGet_below h.2 (by omega)
          · have : a ≠ k := fun e => hk e.symm
            simp [cellGet, hk, this]
        · simp only [h1, if_false, if_true, hb]
          by_cases hk : k = a
          · subst hk; simp [cellGet]
          · have : a ≠ k := fun e => hk e.symm
            simp [cellGet, hk, this]
      · simp only [h1, h2, if_false]
        by_cases hj : j = k
        · subst hj
          have : j ≠ a := fun e => h2 e.symm
          simp [cellGet, this]
        · simp only [cellGet, hj, if_false]; exact ih h.2

theorem cellsAbove_cellsPut {a : Nat} {c : List Host.Cell} (bs : List Byte) (h : cellsAbove 0 c = true) :
    cellsAbove 0 (cellsPut c a bs) = true := by
  induction bs generalizing c a with
  | nil => exact h
  | cons b r ih => exact ih (cellsAbove_cellPut h (Nat.zero_le a))

theorem cellGet_cellsPut {a k : Nat} {c : List Host.Cell} (bs : List Byte) (h : cellsAbove 0 c = true) :
    cellGet (cellsPut c a bs) k = if a ≤ k ∧ k < a + bs.length then (bs[k - a]?).getD 0 else cellGet c k := by
  induction bs generalizing c a with
  | nil =>
    have h3 : ¬(a ≤ k ∧ k < a + ([] : List Byte).length) := by simp only [List.length_nil]; omega
    simp only [cellsPut, h3, if_false]
  | cons b r ih =>
    simp only [cellsPut, ih (cellsAbove_cellPut h (Nat.zero_le a)), cellGet_cellPut h, List.length_cons]
    by_cases h1 : k = a
    · subst h1
      have h3 : ¬(k + 1 ≤ k ∧ k < k + 1 + r.length) := by omega
      have h4 : k ≤ k ∧ k < k + (r.length + 1) := by omega
      simp only [h3, h4, if_false, if_true, and_self]; simp
    · by_cases h2 : a < k
      · have e : k - a = (k - (a + 1)) + 1 := by omega
        have hl : (a + 1 ≤ k ∧ k < a + 1 + r.length) ↔ (a ≤ k ∧ k < a + (r.length + 1)) := by omega
        simp only [hl, h1, if_false, e, List.getElem?_cons_succ]
      · have h3 : ¬(a + 1 ≤ k ∧ k < a + 1 + r.length) := by omega
        have h4 : ¬(a ≤ k ∧ k < a + (r.length + 1)) := by omega
        simp only [h3, h4, h1, if_false]

/-! ## Sets of marks -/

theorem rising_mono {lo lo' : Nat} {l : List Nat} (h : rising lo l = true) (hl : lo' ≤ lo) : rising lo' l = true := by
  cases l with
  | nil => rfl
  | cons a r => simp [rising] at h ⊢; exact ⟨by omega, h.2⟩

theorem rising_filter {lo : Nat} {l : List Nat} (p : Nat → Bool) (h : rising lo l = true) : rising lo (l.filter p) = true := by
  induction l generalizing lo with
  | nil => rfl
  | cons a r ih =>
    simp [rising] at h
    by_cases hp : p a = true
    · simp [rising, hp, h.1, ih h.2]
    · simp only [List.filter_cons, hp]; exact rising_mono (ih h.2) (by omega)

theorem rising_setAdd {lo n : Nat} {l : List Nat} (h : rising lo l = true) (hn : lo ≤ n) : rising lo (setAdd l n) = true := by
  induction l generalizing lo with
  | nil => simp [setAdd, rising, hn]
  | cons a r ih =>
    simp [rising] at h
    unfold setAdd
    by_cases h1 : n < a
    · have h3 : n + 1 ≤ a := by omega
      simp [rising, h1, hn, h.2, h3]
    · by_cases h2 : n = a
      · simp [h2, rising, h.1, h.2]
      · simp [h1, h2, rising, h.1]; exact ih h.2 (by omega)

theorem rising_setDel {lo n : Nat} {l : List Nat} (h : rising lo l = true) : rising lo (setDel l n) = true := by
  induction l generalizing lo with
  | nil => rfl
  | cons a r ih =>
    simp [rising] at h
    unfold setDel
    by_cases h2 : n = a
    · simp only [h2, if_true]; exact rising_mono h.2 (by omega)
    · simp [h2, rising, h.1]; exact ih h.2

/-- A run of marks set or cleared keeps the form. -/
theorem rising_setRange {l : List Nat} (a n : Nat) (on : Bool) (h : rising 0 l = true) : rising 0 (setRange l a n on) = true := by
  unfold setRange
  induction n generalizing l a with
  | zero => exact h
  | succ n ih =>
    rw [upto, List.foldl_cons]
    exact ih (a + 1) (by cases on <;> simp [rising_setAdd h, rising_setDel h])

/-- Marks added one by one keep the form. -/
theorem rising_foldl_setAdd (ks : List Nat) {l : List Nat} (h : rising 0 l = true) : rising 0 (ks.foldl setAdd l) = true := by
  induction ks generalizing l with
  | nil => exact h
  | cons k r ih => exact ih (rising_setAdd h (Nat.zero_le k))

/-- The canonical form, part by part. -/
theorem Memory.wf_iff {m : Memory} :
    m.wf = true ↔ cellsAbove 0 m.cells = true ∧ rising 0 m.full = true ∧ rising 0 m.poison = true ∧ rising 0 m.fixed = true ∧
      rising 0 m.emtMark = true ∧ rising 0 m.netMark = true ∧ rising 0 m.transit = true := by
  simp [Memory.wf, and_assoc]

theorem Memory.wf_cells {m : Memory} (h : m.wf = true) : cellsAbove 0 m.cells = true := (Memory.wf_iff.1 h).1

/-- A write of bytes keeps the canonical form. -/
theorem Memory.wf_putN {m : Memory} (h : m.wf = true) (a : Nat) (bs : List Byte) : (m.putN a bs).wf = true :=
  have ⟨h1, h2, h3, h4, h5, h6, h7⟩ := Memory.wf_iff.1 h
  Memory.wf_iff.2 ⟨cellsAbove_cellsPut bs h1, h2, rising_filter _ h3, rising_filter _ h4, rising_filter _ h5, rising_filter _ h6, h7⟩

/-- Marking granules keeps the canonical form. -/
theorem Memory.wf_mark {m : Memory} (h : m.wf = true) (g n : Nat) (on : Bool) : (m.mark g n on).wf = true :=
  have ⟨h1, h2, r⟩ := Memory.wf_iff.1 h
  Memory.wf_iff.2 ⟨h1, rising_setRange g n on h2, r⟩

/-- Marking bytes uncorrectable keeps the canonical form. -/
theorem Memory.wf_poison {m : Memory} (h : m.wf = true) (a n : Nat) (on : Bool) :
    Memory.wf { m with poison := setRange m.poison a n on } = true :=
  have ⟨h1, h2, h3, r⟩ := Memory.wf_iff.1 h
  Memory.wf_iff.2 ⟨h1, h2, rising_setRange a n on h3, r⟩

/-- Marking bytes due for correction keeps the canonical form. -/
theorem Memory.wf_fixed {m : Memory} (h : m.wf = true) (a n : Nat) (on : Bool) :
    Memory.wf { m with fixed := setRange m.fixed a n on } = true :=
  have ⟨h1, h2, h3, h4, r⟩ := Memory.wf_iff.1 h
  Memory.wf_iff.2 ⟨h1, h2, h3, rising_setRange a n on h4, r⟩

/-- Corrected bytes leaving their set keep the canonical form. -/
theorem Memory.wf_unfixed {m : Memory} (h : m.wf = true) (p : Nat → Bool) :
    Memory.wf { m with fixed := m.fixed.filter p } = true :=
  have ⟨h1, h2, h3, h4, r⟩ := Memory.wf_iff.1 h
  Memory.wf_iff.2 ⟨h1, h2, h3, rising_filter p h4, r⟩

/-- The marks of what the end-to-end check found bad keep the canonical form. -/
theorem Memory.wf_netMark {m : Memory} (h : m.wf = true) (ks : List Nat) :
    Memory.wf { m with poison := ks.foldl setAdd m.poison, netMark := ks.foldl setAdd m.netMark } = true :=
  have ⟨h1, h2, h3, h4, h5, h6, h7⟩ := Memory.wf_iff.1 h
  Memory.wf_iff.2 ⟨h1, h2, rising_foldl_setAdd ks h3, h4, h5, rising_foldl_setAdd ks h6, h7⟩

/-- The marks of where an error lies keep the canonical form. -/
theorem Memory.wf_where {m : Memory} (h : m.wf = true) (a n : Nat) (on : Bool) :
    Memory.wf { m with emtMark := setRange m.emtMark a n on, netMark := setRange m.netMark a n false } = true :=
  have ⟨h1, h2, h3, h4, h5, h6, h7⟩ := Memory.wf_iff.1 h
  Memory.wf_iff.2 ⟨h1, h2, h3, h4, rising_setRange a n on h5, rising_setRange a n false h6, h7⟩

/-- A transfer that is to fail keeps the canonical form. -/
theorem Memory.wf_transitAdd {m : Memory} (h : m.wf = true) (u : Nat) : Memory.wf { m with transit := setAdd m.transit u } = true :=
  have ⟨h1, h2, h3, h4, h5, h6, h7⟩ := Memory.wf_iff.1 h
  Memory.wf_iff.2 ⟨h1, h2, h3, h4, h5, h6, rising_setAdd h7 (Nat.zero_le u)⟩

/-- A failed transfer leaving the list keeps the canonical form. -/
theorem Memory.wf_transitDrop {m : Memory} (h : m.wf = true) (p : Nat → Bool) : Memory.wf { m with transit := m.transit.filter p } = true :=
  have ⟨h1, h2, h3, h4, h5, h6, h7⟩ := Memory.wf_iff.1 h
  Memory.wf_iff.2 ⟨h1, h2, h3, h4, h5, h6, rising_filter p h7⟩

/-- One byte replaced keeps the canonical form. -/
theorem Memory.wf_cellPut {m : Memory} (h : m.wf = true) (a : Nat) (b : Byte) :
    Memory.wf { m with cells := cellPut m.cells a b } = true :=
  have ⟨h1, r⟩ := Memory.wf_iff.1 h
  Memory.wf_iff.2 ⟨cellsAbove_cellPut h1 (Nat.zero_le a), r⟩

/-- A read after a write gives the bytes written, and every other byte as before. -/
theorem Memory.get_putN {m : Memory} (h : m.wf = true) (a k : Nat) (bs : List Byte) :
    (m.putN a bs).get k = if a ≤ k ∧ k < a + bs.length then (bs[k - a]?).getD 0 else m.get k :=
  cellGet_cellsPut bs (Memory.wf_cells h)

@[simp] theorem Memory.get_mark (m : Memory) (g n k : Nat) (on : Bool) : (m.mark g n on).get k = m.get k := rfl

@[simp] theorem Memory.length_getN (m : Memory) (a n : Nat) : (m.getN a n).length = n := by simp [Memory.getN]

/-- The module after reset has its memory in canonical form. -/
theorem reset_memOk : State.reset.memOk := rfl

/-- A list of marks after one more. -/
theorem mem_setAdd {l : List Nat} {n k : Nat} : k ∈ setAdd l n ↔ k = n ∨ k ∈ l := by
  induction l with
  | nil => simp [setAdd]
  | cons a r ih =>
    unfold setAdd
    by_cases h1 : n < a
    · simp [h1]
    · by_cases h2 : n = a
      · subst h2; simp
      · simp only [h1, h2, if_false, List.mem_cons, ih]
        constructor
        · rintro (h | h | h) <;> simp [h]
        · rintro (h | h | h) <;> simp [h]

/-! ## What a block sees -/

/-- The fold of a block's stores over a byte is the latest of them. -/
theorem foldl_byteAt (effs : List (Nat × Eff)) (key : Nat) (b : Byte) :
    effs.foldl (fun b e => (e.2.byteAt key).getD b) b = seenOver effs key b := by
  unfold seenOver
  induction effs generalizing b with
  | nil => rfl
  | cons e r ih =>
    simp only [List.foldl_cons, ih, List.filterMap_cons]
    cases h : e.2.byteAt key with
    | none => simp
    | some v =>
      simp only [Option.getD_some]
      cases h2 : (r.filterMap (fun e => e.2.byteAt key)) with
      | nil => simp
      | cons a q => simp [List.getLast?_cons]

/-- A load's bytes are what the block sees (R132). -/
theorem overlay_eq (effs : List (Nat × Eff)) (key : Nat) (bs : List Byte) :
    overlay effs key bs = bs.zipIdx.map (fun p => seenOver effs (key + p.2) p.1) := by
  unfold overlay; simp only [foldl_byteAt]

theorem zipIdx_upto (effs : List (Nat × Eff)) (key k n : Nat) (g : Nat → Byte) :
    (((upto (key + k) n).map g).zipIdx k).map (fun p => seenOver effs (key + p.2) p.1) =
      (upto (key + k) n).map (fun j => seenOver effs j (g j)) := by
  induction n generalizing k with
  | zero => rfl
  | succ n ih => simp only [upto, List.map_cons, List.zipIdx_cons, List.cons.injEq, true_and]; exact ih (k + 1)

/-- A load of unmarked memory gives the number the block sees. -/
theorem overlay_getN (s : State) (c : Core) (key n : Nat) :
    leNat (overlay c.effs key (s.mem.getN key n)) = s.seenN c key n := by
  rw [overlay_eq]; unfold State.seenN Memory.getN
  exact congrArg leNat (zipIdx_upto c.effs key 0 n s.mem.get)

theorem readZ_clean {s : State} (h : s.Clean) (a n : Nat) : s.mem.readZ a n = s.mem.getN a n := by
  simp [Memory.readZ, Memory.getN, h.1]

theorem meetMarks_clean {s : State} (h : s.Clean) (rq : Req) (ph : Phys) (va n : Nat) :
    s.meetMarks rq ph va n = (0, s) := by
  simp [State.meetMarks, Memory.poisoned, Memory.corrected, h.1, h.2]

/-- The parts of a spread address's key. -/
theorem keySpread_parts {a : Nat} (h : a < 2 ^ 42) :
    keySpread a / 2 ^ 40 = a / 2 ^ 12 % 4 ∧ keySpread a % 2 ^ 40 = a / 2 ^ 14 * 4096 + a % 4096 := by
  have ho : a / 2 ^ 14 * 4096 + a % 4096 < 2 ^ 40 := by omega
  unfold keySpread keyHbm
  rw [Nat.add_comm, Nat.add_mul_div_right _ _ (by decide), Nat.add_mul_mod_self_right, Nat.div_eq_of_lt ho, Nat.mod_eq_of_lt ho]
  exact ⟨Nat.zero_add _, rfl⟩

/-- HBM-spread addresses have keys of their own. -/
theorem keySpread_inj {a b : Nat} (ha : a < 2 ^ 42) (hb : b < 2 ^ 42) (h : keySpread a = keySpread b) : a = b := by
  have ⟨h1, h2⟩ := keySpread_parts ha
  have ⟨h3, h4⟩ := keySpread_parts hb
  rw [h] at h1 h2
  omega

/-- A spread write keeps the canonical form. -/
theorem Memory.wf_putSpread {m : Memory} (h : m.wf = true) (a : Nat) (bs : List Byte) : (m.putSpread a bs).wf = true := by
  induction bs generalizing m a with
  | nil => exact h
  | cons b r ih => exact ih (Memory.wf_putN h _ _) _

/-- A spread write leaves the bytes below it. -/
theorem Memory.get_putSpread_below {m : Memory} (h : m.wf = true) {a k : Nat} (bs : List Byte) (hk : k < a) (ha : a + bs.length ≤ 2 ^ 42) :
    (m.putSpread a bs).get (keySpread k) = m.get (keySpread k) := by
  induction bs generalizing m a with
  | nil => rfl
  | cons b r ih =>
    have ha' : a + 1 + r.length ≤ 2 ^ 42 := by rw [List.length_cons] at ha; omega
    rw [Memory.putSpread, ih (Memory.wf_putN h _ _) (by omega) ha', Memory.get_putN h]
    have hne : keySpread k ≠ keySpread a := fun h => absurd (keySpread_inj (by omega) (by omega) h) (by omega)
    rw [if_neg (by simp only [List.length_singleton]; omega)]

/-- A spread read after a spread write gives the bytes written. -/
theorem Memory.getSpread_putSpread {m : Memory} (h : m.wf = true) {a : Nat} (bs : List Byte) (ha : a + bs.length ≤ 2 ^ 42) :
    (m.putSpread a bs).getSpread a bs.length = bs := by
  induction bs generalizing m a with
  | nil => rfl
  | cons b r ih =>
    have ha' : a + 1 + r.length ≤ 2 ^ 42 := by rw [List.length_cons] at ha; omega
    rw [Memory.putSpread, List.length_cons, Memory.getSpread, ih (Memory.wf_putN h _ _) ha',
      Memory.get_putSpread_below (Memory.wf_putN h _ _) r (Nat.lt_succ_self a) ha', Memory.get_putN h]
    simp

/-- CRC-32C has 32 bits. -/
theorem crc32Bits_lt (n : Nat) {c : Nat} (h : c < 2 ^ 32) : crc32Bits n c < 2 ^ 32 := by
  induction n generalizing c with
  | zero => exact h
  | succ n ih =>
    rw [crc32Bits]
    refine ih ?_
    split
    · exact Nat.xor_lt_two_pow (by omega) (by decide)
    · omega

theorem crc32c_lt (bs : List Byte) : crc32c bs < 2 ^ 32 := by
  have go : ∀ (l : List Byte) (c : Nat), c < 2 ^ 32 → l.foldl (fun c b => crc32Bits 8 (c ^^^ b.toNat)) c < 2 ^ 32 := by
    intro l
    induction l with
    | nil => exact fun _ h => h
    | cons b r ih => exact fun c h => ih _ (crc32Bits_lt 8 (Nat.xor_lt_two_pow h (Nat.lt_trans b.isLt (by decide))))
  exact Nat.xor_lt_two_pow (go bs _ (by decide)) (by decide)

end Sys2Proof.Machine
end

