-- ==== Sys2Proof/Laws/State.lean ====
section
/-! SUPPORT. What each update of the state does to each field of the state. -/
namespace Sys2Proof.Machine

@[simp] theorem updFen_fens (s : State) (f : Nat) (g : Fen → Fen) : (s.updFen f g).fens = updNth s.fens f g := rfl
@[simp] theorem updFen_mem (s : State) (f : Nat) (g : Fen → Fen) : (s.updFen f g).mem = s.mem := rfl
@[simp] theorem updFen_xl (s : State) (f : Nat) (g : Fen → Fen) : (s.updFen f g).xl = s.xl := rfl
@[simp] theorem updFen_emt (s : State) (f : Nat) (g : Fen → Fen) : (s.updFen f g).emt = s.emt := rfl
@[simp] theorem updFen_net (s : State) (f : Nat) (g : Fen → Fen) : (s.updFen f g).net = s.net := rfl
@[simp] theorem updFen_barq (s : State) (f : Nat) (g : Fen → Fen) : (s.updFen f g).barq = s.barq := rfl
@[simp] theorem updFen_reds (s : State) (f : Nat) (g : Fen → Fen) : (s.updFen f g).reds = s.reds := rfl
@[simp] theorem updFen_dev (s : State) (f : Nat) (g : Fen → Fen) : (s.updFen f g).dev = s.dev := rfl
@[simp] theorem updFen_hts (s : State) (f : Nat) (g : Fen → Fen) : (s.updFen f g).hts = s.hts := rfl
@[simp] theorem updFen_slices (s : State) (f : Nat) (g : Fen → Fen) : (s.updFen f g).slices = s.slices := rfl
@[simp] theorem updFen_frz (s : State) (f : Nat) (g : Fen → Fen) : (s.updFen f g).frz = s.frz := rfl
@[simp] theorem updFen_migs (s : State) (f : Nat) (g : Fen → Fen) : (s.updFen f g).migs = s.migs := rfl
@[simp] theorem updFen_boot (s : State) (f : Nat) (g : Fen → Fen) : (s.updFen f g).boot = s.boot := rfl
@[simp] theorem updFen_seq (s : State) (f : Nat) (g : Fen → Fen) : (s.updFen f g).seq = s.seq := rfl
@[simp] theorem updFen_cycle (s : State) (f : Nat) (g : Fen → Fen) : (s.updFen f g).cycle = s.cycle := rfl
@[simp] theorem updFen_sched (s : State) (f : Nat) (g : Fen → Fen) : (s.updFen f g).sched = s.sched := rfl
@[simp] theorem updFen_here (s : State) (f : Nat) (g : Fen → Fen) : (s.updFen f g).here = s.here := rfl
@[simp] theorem updFen_free (s : State) (f : Nat) (g : Fen → Fen) : (s.updFen f g).free = s.free := rfl

@[simp] theorem updCore_fens (s : State) (f : Nat) (g : Core → Core) :
    (s.updCore f g).fens = updNth s.fens f (fun x => { x with core := g x.core }) := rfl
@[simp] theorem updCore_mem (s : State) (f : Nat) (g : Core → Core) : (s.updCore f g).mem = s.mem := rfl
@[simp] theorem updCore_xl (s : State) (f : Nat) (g : Core → Core) : (s.updCore f g).xl = s.xl := rfl
@[simp] theorem updCore_emt (s : State) (f : Nat) (g : Core → Core) : (s.updCore f g).emt = s.emt := rfl
@[simp] theorem updCore_net (s : State) (f : Nat) (g : Core → Core) : (s.updCore f g).net = s.net := rfl
@[simp] theorem updCore_barq (s : State) (f : Nat) (g : Core → Core) : (s.updCore f g).barq = s.barq := rfl
@[simp] theorem updCore_reds (s : State) (f : Nat) (g : Core → Core) : (s.updCore f g).reds = s.reds := rfl
@[simp] theorem updCore_dev (s : State) (f : Nat) (g : Core → Core) : (s.updCore f g).dev = s.dev := rfl
@[simp] theorem updCore_hts (s : State) (f : Nat) (g : Core → Core) : (s.updCore f g).hts = s.hts := rfl
@[simp] theorem updCore_slices (s : State) (f : Nat) (g : Core → Core) : (s.updCore f g).slices = s.slices := rfl
@[simp] theorem updCore_frz (s : State) (f : Nat) (g : Core → Core) : (s.updCore f g).frz = s.frz := rfl
@[simp] theorem updCore_migs (s : State) (f : Nat) (g : Core → Core) : (s.updCore f g).migs = s.migs := rfl
@[simp] theorem updCore_boot (s : State) (f : Nat) (g : Core → Core) : (s.updCore f g).boot = s.boot := rfl
@[simp] theorem updCore_seq (s : State) (f : Nat) (g : Core → Core) : (s.updCore f g).seq = s.seq := rfl
@[simp] theorem updCore_cycle (s : State) (f : Nat) (g : Core → Core) : (s.updCore f g).cycle = s.cycle := rfl
@[simp] theorem updCore_sched (s : State) (f : Nat) (g : Core → Core) : (s.updCore f g).sched = s.sched := rfl
@[simp] theorem updCore_here (s : State) (f : Nat) (g : Core → Core) : (s.updCore f g).here = s.here := rfl
@[simp] theorem updCore_free (s : State) (f : Nat) (g : Core → Core) : (s.updCore f g).free = s.free := rfl

@[simp] theorem updMem_fens (s : State) (g : Memory → Memory) : (s.updMem g).fens = s.fens := rfl
@[simp] theorem updMem_mem (s : State) (g : Memory → Memory) : (s.updMem g).mem = g s.mem := rfl
@[simp] theorem updMem_xl (s : State) (g : Memory → Memory) : (s.updMem g).xl = s.xl := rfl
@[simp] theorem updMem_emt (s : State) (g : Memory → Memory) : (s.updMem g).emt = s.emt := rfl
@[simp] theorem updMem_net (s : State) (g : Memory → Memory) : (s.updMem g).net = s.net := rfl
@[simp] theorem updMem_barq (s : State) (g : Memory → Memory) : (s.updMem g).barq = s.barq := rfl
@[simp] theorem updMem_reds (s : State) (g : Memory → Memory) : (s.updMem g).reds = s.reds := rfl
@[simp] theorem updMem_dev (s : State) (g : Memory → Memory) : (s.updMem g).dev = s.dev := rfl
@[simp] theorem updMem_hts (s : State) (g : Memory → Memory) : (s.updMem g).hts = s.hts := rfl
@[simp] theorem updMem_slices (s : State) (g : Memory → Memory) : (s.updMem g).slices = s.slices := rfl
@[simp] theorem updMem_frz (s : State) (g : Memory → Memory) : (s.updMem g).frz = s.frz := rfl
@[simp] theorem updMem_migs (s : State) (g : Memory → Memory) : (s.updMem g).migs = s.migs := rfl
@[simp] theorem updMem_boot (s : State) (g : Memory → Memory) : (s.updMem g).boot = s.boot := rfl
@[simp] theorem updMem_seq (s : State) (g : Memory → Memory) : (s.updMem g).seq = s.seq := rfl
@[simp] theorem updMem_cycle (s : State) (g : Memory → Memory) : (s.updMem g).cycle = s.cycle := rfl
@[simp] theorem updMem_sched (s : State) (g : Memory → Memory) : (s.updMem g).sched = s.sched := rfl
@[simp] theorem updMem_here (s : State) (g : Memory → Memory) : (s.updMem g).here = s.here := rfl
@[simp] theorem updMem_free (s : State) (g : Memory → Memory) : (s.updMem g).free = s.free := rfl

@[simp] theorem orStatus_fens (s : State) (f : Nat) (w : BitVec 32) :
    (s.orStatus f w).fens = updNth s.fens f (fun x => { x with status := x.status ||| w.truncate 16 }) := rfl
@[simp] theorem orStatus_mem (s : State) (f : Nat) (w : BitVec 32) : (s.orStatus f w).mem = s.mem := rfl
@[simp] theorem orStatus_xl (s : State) (f : Nat) (w : BitVec 32) : (s.orStatus f w).xl = s.xl := rfl
@[simp] theorem orStatus_emt (s : State) (f : Nat) (w : BitVec 32) : (s.orStatus f w).emt = s.emt := rfl
@[simp] theorem orStatus_net (s : State) (f : Nat) (w : BitVec 32) : (s.orStatus f w).net = s.net := rfl
@[simp] theorem orStatus_barq (s : State) (f : Nat) (w : BitVec 32) : (s.orStatus f w).barq = s.barq := rfl
@[simp] theorem orStatus_reds (s : State) (f : Nat) (w : BitVec 32) : (s.orStatus f w).reds = s.reds := rfl
@[simp] theorem orStatus_dev (s : State) (f : Nat) (w : BitVec 32) : (s.orStatus f w).dev = s.dev := rfl
@[simp] theorem orStatus_hts (s : State) (f : Nat) (w : BitVec 32) : (s.orStatus f w).hts = s.hts := rfl
@[simp] theorem orStatus_slices (s : State) (f : Nat) (w : BitVec 32) : (s.orStatus f w).slices = s.slices := rfl
@[simp] theorem orStatus_frz (s : State) (f : Nat) (w : BitVec 32) : (s.orStatus f w).frz = s.frz := rfl
@[simp] theorem orStatus_migs (s : State) (f : Nat) (w : BitVec 32) : (s.orStatus f w).migs = s.migs := rfl
@[simp] theorem orStatus_boot (s : State) (f : Nat) (w : BitVec 32) : (s.orStatus f w).boot = s.boot := rfl
@[simp] theorem orStatus_seq (s : State) (f : Nat) (w : BitVec 32) : (s.orStatus f w).seq = s.seq := rfl
@[simp] theorem orStatus_cycle (s : State) (f : Nat) (w : BitVec 32) : (s.orStatus f w).cycle = s.cycle := rfl
@[simp] theorem orStatus_sched (s : State) (f : Nat) (w : BitVec 32) : (s.orStatus f w).sched = s.sched := rfl
@[simp] theorem orStatus_here (s : State) (f : Nat) (w : BitVec 32) : (s.orStatus f w).here = s.here := rfl
@[simp] theorem orStatus_free (s : State) (f : Nat) (w : BitVec 32) : (s.orStatus f w).free = s.free := rfl

@[simp] theorem updPage_fens (s : State) (f : Nat) (g : FnPage → FnPage) : (s.updPage f g).fens = s.fens := rfl
@[simp] theorem updPage_mem (s : State) (f : Nat) (g : FnPage → FnPage) : (s.updPage f g).mem = s.mem := rfl
@[simp] theorem updPage_xl (s : State) (f : Nat) (g : FnPage → FnPage) : (s.updPage f g).xl = s.xl := rfl
@[simp] theorem updPage_emt (s : State) (f : Nat) (g : FnPage → FnPage) : (s.updPage f g).emt = s.emt := rfl
@[simp] theorem updPage_net (s : State) (f : Nat) (g : FnPage → FnPage) : (s.updPage f g).net = s.net := rfl
@[simp] theorem updPage_barq (s : State) (f : Nat) (g : FnPage → FnPage) : (s.updPage f g).barq = s.barq := rfl
@[simp] theorem updPage_reds (s : State) (f : Nat) (g : FnPage → FnPage) : (s.updPage f g).reds = s.reds := rfl
@[simp] theorem updPage_dev (s : State) (f : Nat) (g : FnPage → FnPage) :
    (s.updPage f g).dev = { s.dev with pages := tabSet s.dev.pages f (g (s.page f)) } := rfl
@[simp] theorem updPage_hts (s : State) (f : Nat) (g : FnPage → FnPage) : (s.updPage f g).hts = s.hts := rfl
@[simp] theorem updPage_slices (s : State) (f : Nat) (g : FnPage → FnPage) : (s.updPage f g).slices = s.slices := rfl
@[simp] theorem updPage_frz (s : State) (f : Nat) (g : FnPage → FnPage) : (s.updPage f g).frz = s.frz := rfl
@[simp] theorem updPage_migs (s : State) (f : Nat) (g : FnPage → FnPage) : (s.updPage f g).migs = s.migs := rfl
@[simp] theorem updPage_boot (s : State) (f : Nat) (g : FnPage → FnPage) : (s.updPage f g).boot = s.boot := rfl
@[simp] theorem updPage_seq (s : State) (f : Nat) (g : FnPage → FnPage) : (s.updPage f g).seq = s.seq := rfl
@[simp] theorem updPage_cycle (s : State) (f : Nat) (g : FnPage → FnPage) : (s.updPage f g).cycle = s.cycle := rfl
@[simp] theorem updPage_sched (s : State) (f : Nat) (g : FnPage → FnPage) : (s.updPage f g).sched = s.sched := rfl
@[simp] theorem updPage_here (s : State) (f : Nat) (g : FnPage → FnPage) : (s.updPage f g).here = s.here := rfl
@[simp] theorem updPage_free (s : State) (f : Nat) (g : FnPage → FnPage) : (s.updPage f g).free = s.free := rfl

@[simp] theorem updDev_fens (s : State) (g : Device → Device) : (s.updDev g).fens = s.fens := rfl
@[simp] theorem updDev_mem (s : State) (g : Device → Device) : (s.updDev g).mem = s.mem := rfl
@[simp] theorem updDev_xl (s : State) (g : Device → Device) : (s.updDev g).xl = s.xl := rfl
@[simp] theorem updDev_emt (s : State) (g : Device → Device) : (s.updDev g).emt = s.emt := rfl
@[simp] theorem updDev_net (s : State) (g : Device → Device) : (s.updDev g).net = s.net := rfl
@[simp] theorem updDev_barq (s : State) (g : Device → Device) : (s.updDev g).barq = s.barq := rfl
@[simp] theorem updDev_reds (s : State) (g : Device → Device) : (s.updDev g).reds = s.reds := rfl
@[simp] theorem updDev_dev (s : State) (g : Device → Device) : (s.updDev g).dev = g s.dev := rfl
@[simp] theorem updDev_hts (s : State) (g : Device → Device) : (s.updDev g).hts = s.hts := rfl
@[simp] theorem updDev_slices (s : State) (g : Device → Device) : (s.updDev g).slices = s.slices := rfl
@[simp] theorem updDev_frz (s : State) (g : Device → Device) : (s.updDev g).frz = s.frz := rfl
@[simp] theorem updDev_migs (s : State) (g : Device → Device) : (s.updDev g).migs = s.migs := rfl
@[simp] theorem updDev_boot (s : State) (g : Device → Device) : (s.updDev g).boot = s.boot := rfl
@[simp] theorem updDev_seq (s : State) (g : Device → Device) : (s.updDev g).seq = s.seq := rfl
@[simp] theorem updDev_cycle (s : State) (g : Device → Device) : (s.updDev g).cycle = s.cycle := rfl
@[simp] theorem updDev_sched (s : State) (g : Device → Device) : (s.updDev g).sched = s.sched := rfl
@[simp] theorem updDev_here (s : State) (g : Device → Device) : (s.updDev g).here = s.here := rfl
@[simp] theorem updDev_free (s : State) (g : Device → Device) : (s.updDev g).free = s.free := rfl

@[simp] theorem updHts_fens (s : State) (g : Sched → Sched) : (s.updHts g).fens = s.fens := rfl
@[simp] theorem updHts_mem (s : State) (g : Sched → Sched) : (s.updHts g).mem = s.mem := rfl
@[simp] theorem updHts_xl (s : State) (g : Sched → Sched) : (s.updHts g).xl = s.xl := rfl
@[simp] theorem updHts_emt (s : State) (g : Sched → Sched) : (s.updHts g).emt = s.emt := rfl
@[simp] theorem updHts_net (s : State) (g : Sched → Sched) : (s.updHts g).net = s.net := rfl
@[simp] theorem updHts_barq (s : State) (g : Sched → Sched) : (s.updHts g).barq = s.barq := rfl
@[simp] theorem updHts_reds (s : State) (g : Sched → Sched) : (s.updHts g).reds = s.reds := rfl
@[simp] theorem updHts_dev (s : State) (g : Sched → Sched) : (s.updHts g).dev = s.dev := rfl
@[simp] theorem updHts_hts (s : State) (g : Sched → Sched) : (s.updHts g).hts = g s.hts := rfl
@[simp] theorem updHts_slices (s : State) (g : Sched → Sched) : (s.updHts g).slices = s.slices := rfl
@[simp] theorem updHts_frz (s : State) (g : Sched → Sched) : (s.updHts g).frz = s.frz := rfl
@[simp] theorem updHts_migs (s : State) (g : Sched → Sched) : (s.updHts g).migs = s.migs := rfl
@[simp] theorem updHts_boot (s : State) (g : Sched → Sched) : (s.updHts g).boot = s.boot := rfl
@[simp] theorem updHts_seq (s : State) (g : Sched → Sched) : (s.updHts g).seq = s.seq := rfl
@[simp] theorem updHts_cycle (s : State) (g : Sched → Sched) : (s.updHts g).cycle = s.cycle := rfl
@[simp] theorem updHts_sched (s : State) (g : Sched → Sched) : (s.updHts g).sched = s.sched := rfl
@[simp] theorem updHts_here (s : State) (g : Sched → Sched) : (s.updHts g).here = s.here := rfl
@[simp] theorem updHts_free (s : State) (g : Sched → Sched) : (s.updHts g).free = s.free := rfl

@[simp] theorem updEmt_fens (s : State) (g : Emt → Emt) : (s.updEmt g).fens = s.fens := rfl
@[simp] theorem updEmt_mem (s : State) (g : Emt → Emt) : (s.updEmt g).mem = s.mem := rfl
@[simp] theorem updEmt_xl (s : State) (g : Emt → Emt) : (s.updEmt g).xl = s.xl := rfl
@[simp] theorem updEmt_emt (s : State) (g : Emt → Emt) : (s.updEmt g).emt = g s.emt := rfl
@[simp] theorem updEmt_net (s : State) (g : Emt → Emt) : (s.updEmt g).net = s.net := rfl
@[simp] theorem updEmt_barq (s : State) (g : Emt → Emt) : (s.updEmt g).barq = s.barq := rfl
@[simp] theorem updEmt_reds (s : State) (g : Emt → Emt) : (s.updEmt g).reds = s.reds := rfl
@[simp] theorem updEmt_dev (s : State) (g : Emt → Emt) : (s.updEmt g).dev = s.dev := rfl
@[simp] theorem updEmt_hts (s : State) (g : Emt → Emt) : (s.updEmt g).hts = s.hts := rfl
@[simp] theorem updEmt_slices (s : State) (g : Emt → Emt) : (s.updEmt g).slices = s.slices := rfl
@[simp] theorem updEmt_frz (s : State) (g : Emt → Emt) : (s.updEmt g).frz = s.frz := rfl
@[simp] theorem updEmt_migs (s : State) (g : Emt → Emt) : (s.updEmt g).migs = s.migs := rfl
@[simp] theorem updEmt_boot (s : State) (g : Emt → Emt) : (s.updEmt g).boot = s.boot := rfl
@[simp] theorem updEmt_seq (s : State) (g : Emt → Emt) : (s.updEmt g).seq = s.seq := rfl
@[simp] theorem updEmt_cycle (s : State) (g : Emt → Emt) : (s.updEmt g).cycle = s.cycle := rfl
@[simp] theorem updEmt_sched (s : State) (g : Emt → Emt) : (s.updEmt g).sched = s.sched := rfl
@[simp] theorem updEmt_here (s : State) (g : Emt → Emt) : (s.updEmt g).here = s.here := rfl
@[simp] theorem updEmt_free (s : State) (g : Emt → Emt) : (s.updEmt g).free = s.free := rfl

@[simp] theorem updLaunch_fens (s : State) (key : Nat) (g : Launch → Launch) : (s.updLaunch key g).fens = s.fens := rfl
@[simp] theorem updLaunch_mem (s : State) (key : Nat) (g : Launch → Launch) : (s.updLaunch key g).mem = s.mem := rfl
@[simp] theorem updLaunch_xl (s : State) (key : Nat) (g : Launch → Launch) : (s.updLaunch key g).xl = s.xl := rfl
@[simp] theorem updLaunch_emt (s : State) (key : Nat) (g : Launch → Launch) : (s.updLaunch key g).emt = s.emt := rfl
@[simp] theorem updLaunch_net (s : State) (key : Nat) (g : Launch → Launch) : (s.updLaunch key g).net = s.net := rfl
@[simp] theorem updLaunch_barq (s : State) (key : Nat) (g : Launch → Launch) : (s.updLaunch key g).barq = s.barq := rfl
@[simp] theorem updLaunch_reds (s : State) (key : Nat) (g : Launch → Launch) : (s.updLaunch key g).reds = s.reds := rfl
@[simp] theorem updLaunch_dev (s : State) (key : Nat) (g : Launch → Launch) : (s.updLaunch key g).dev = s.dev := rfl
@[simp] theorem updLaunch_hts (s : State) (key : Nat) (g : Launch → Launch) :
    (s.updLaunch key g).hts = { s.hts with launches := s.hts.launches.map (fun l => if l.key == key then g l else l) } := rfl
@[simp] theorem updLaunch_slices (s : State) (key : Nat) (g : Launch → Launch) : (s.updLaunch key g).slices = s.slices := rfl
@[simp] theorem updLaunch_frz (s : State) (key : Nat) (g : Launch → Launch) : (s.updLaunch key g).frz = s.frz := rfl
@[simp] theorem updLaunch_migs (s : State) (key : Nat) (g : Launch → Launch) : (s.updLaunch key g).migs = s.migs := rfl
@[simp] theorem updLaunch_boot (s : State) (key : Nat) (g : Launch → Launch) : (s.updLaunch key g).boot = s.boot := rfl
@[simp] theorem updLaunch_seq (s : State) (key : Nat) (g : Launch → Launch) : (s.updLaunch key g).seq = s.seq := rfl
@[simp] theorem updLaunch_cycle (s : State) (key : Nat) (g : Launch → Launch) : (s.updLaunch key g).cycle = s.cycle := rfl
@[simp] theorem updLaunch_sched (s : State) (key : Nat) (g : Launch → Launch) : (s.updLaunch key g).sched = s.sched := rfl
@[simp] theorem updLaunch_here (s : State) (key : Nat) (g : Launch → Launch) : (s.updLaunch key g).here = s.here := rfl
@[simp] theorem updLaunch_free (s : State) (key : Nat) (g : Launch → Launch) : (s.updLaunch key g).free = s.free := rfl

@[simp] theorem setMig_fens (s : State) (fn : Nat) (m : Mig) : (s.setMig fn m).fens = s.fens := rfl
@[simp] theorem setMig_mem (s : State) (fn : Nat) (m : Mig) : (s.setMig fn m).mem = s.mem := rfl
@[simp] theorem setMig_xl (s : State) (fn : Nat) (m : Mig) : (s.setMig fn m).xl = s.xl := rfl
@[simp] theorem setMig_emt (s : State) (fn : Nat) (m : Mig) : (s.setMig fn m).emt = s.emt := rfl
@[simp] theorem setMig_net (s : State) (fn : Nat) (m : Mig) : (s.setMig fn m).net = s.net := rfl
@[simp] theorem setMig_barq (s : State) (fn : Nat) (m : Mig) : (s.setMig fn m).barq = s.barq := rfl
@[simp] theorem setMig_reds (s : State) (fn : Nat) (m : Mig) : (s.setMig fn m).reds = s.reds := rfl
@[simp] theorem setMig_dev (s : State) (fn : Nat) (m : Mig) : (s.setMig fn m).dev = s.dev := rfl
@[simp] theorem setMig_hts (s : State) (fn : Nat) (m : Mig) : (s.setMig fn m).hts = s.hts := rfl
@[simp] theorem setMig_slices (s : State) (fn : Nat) (m : Mig) : (s.setMig fn m).slices = s.slices := rfl
@[simp] theorem setMig_frz (s : State) (fn : Nat) (m : Mig) : (s.setMig fn m).frz = s.frz := rfl
@[simp] theorem setMig_migs (s : State) (fn : Nat) (m : Mig) : (s.setMig fn m).migs = tabSet s.migs fn m := rfl
@[simp] theorem setMig_boot (s : State) (fn : Nat) (m : Mig) : (s.setMig fn m).boot = s.boot := rfl
@[simp] theorem setMig_seq (s : State) (fn : Nat) (m : Mig) : (s.setMig fn m).seq = s.seq := rfl
@[simp] theorem setMig_cycle (s : State) (fn : Nat) (m : Mig) : (s.setMig fn m).cycle = s.cycle := rfl
@[simp] theorem setMig_sched (s : State) (fn : Nat) (m : Mig) : (s.setMig fn m).sched = s.sched := rfl
@[simp] theorem setMig_here (s : State) (fn : Nat) (m : Mig) : (s.setMig fn m).here = s.here := rfl
@[simp] theorem setMig_free (s : State) (fn : Nat) (m : Mig) : (s.setMig fn m).free = s.free := rfl

@[simp] theorem setSlice_fens (s : State) (z : Slice) : (s.setSlice z).fens = s.fens := rfl
@[simp] theorem setSlice_mem (s : State) (z : Slice) : (s.setSlice z).mem = s.mem := rfl
@[simp] theorem setSlice_xl (s : State) (z : Slice) : (s.setSlice z).xl = s.xl := rfl
@[simp] theorem setSlice_emt (s : State) (z : Slice) : (s.setSlice z).emt = s.emt := rfl
@[simp] theorem setSlice_net (s : State) (z : Slice) : (s.setSlice z).net = s.net := rfl
@[simp] theorem setSlice_barq (s : State) (z : Slice) : (s.setSlice z).barq = s.barq := rfl
@[simp] theorem setSlice_reds (s : State) (z : Slice) : (s.setSlice z).reds = s.reds := rfl
@[simp] theorem setSlice_dev (s : State) (z : Slice) : (s.setSlice z).dev = s.dev := rfl
@[simp] theorem setSlice_hts (s : State) (z : Slice) : (s.setSlice z).hts = s.hts := rfl
@[simp] theorem setSlice_slices (s : State) (z : Slice) :
    (s.setSlice z).slices = z :: s.slices.filter (fun y => y.part != z.part) := rfl
@[simp] theorem setSlice_frz (s : State) (z : Slice) : (s.setSlice z).frz = s.frz := rfl
@[simp] theorem setSlice_migs (s : State) (z : Slice) : (s.setSlice z).migs = s.migs := rfl
@[simp] theorem setSlice_boot (s : State) (z : Slice) : (s.setSlice z).boot = s.boot := rfl
@[simp] theorem setSlice_seq (s : State) (z : Slice) : (s.setSlice z).seq = s.seq := rfl
@[simp] theorem setSlice_cycle (s : State) (z : Slice) : (s.setSlice z).cycle = s.cycle := rfl
@[simp] theorem setSlice_sched (s : State) (z : Slice) : (s.setSlice z).sched = s.sched := rfl
@[simp] theorem setSlice_here (s : State) (z : Slice) : (s.setSlice z).here = s.here := rfl
@[simp] theorem setSlice_free (s : State) (z : Slice) : (s.setSlice z).free = s.free := rfl

@[simp] theorem updFrz_fens (s : State) (p c : Nat) (g : Frz → Frz) : (s.updFrz p c g).fens = s.fens := rfl
@[simp] theorem updFrz_mem (s : State) (p c : Nat) (g : Frz → Frz) : (s.updFrz p c g).mem = s.mem := rfl
@[simp] theorem updFrz_xl (s : State) (p c : Nat) (g : Frz → Frz) : (s.updFrz p c g).xl = s.xl := rfl
@[simp] theorem updFrz_emt (s : State) (p c : Nat) (g : Frz → Frz) : (s.updFrz p c g).emt = s.emt := rfl
@[simp] theorem updFrz_net (s : State) (p c : Nat) (g : Frz → Frz) : (s.updFrz p c g).net = s.net := rfl
@[simp] theorem updFrz_barq (s : State) (p c : Nat) (g : Frz → Frz) : (s.updFrz p c g).barq = s.barq := rfl
@[simp] theorem updFrz_reds (s : State) (p c : Nat) (g : Frz → Frz) : (s.updFrz p c g).reds = s.reds := rfl
@[simp] theorem updFrz_dev (s : State) (p c : Nat) (g : Frz → Frz) : (s.updFrz p c g).dev = s.dev := rfl
@[simp] theorem updFrz_hts (s : State) (p c : Nat) (g : Frz → Frz) : (s.updFrz p c g).hts = s.hts := rfl
@[simp] theorem updFrz_slices (s : State) (p c : Nat) (g : Frz → Frz) : (s.updFrz p c g).slices = s.slices := rfl
@[simp] theorem updFrz_frz (s : State) (p c : Nat) (g : Frz → Frz) :
    (s.updFrz p c g).frz = s.frz.map (fun z => if z.part == p && z.ctx == c then g z else z) := rfl
@[simp] theorem updFrz_migs (s : State) (p c : Nat) (g : Frz → Frz) : (s.updFrz p c g).migs = s.migs := rfl
@[simp] theorem updFrz_boot (s : State) (p c : Nat) (g : Frz → Frz) : (s.updFrz p c g).boot = s.boot := rfl
@[simp] theorem updFrz_seq (s : State) (p c : Nat) (g : Frz → Frz) : (s.updFrz p c g).seq = s.seq := rfl
@[simp] theorem updFrz_cycle (s : State) (p c : Nat) (g : Frz → Frz) : (s.updFrz p c g).cycle = s.cycle := rfl
@[simp] theorem updFrz_sched (s : State) (p c : Nat) (g : Frz → Frz) : (s.updFrz p c g).sched = s.sched := rfl
@[simp] theorem updFrz_here (s : State) (p c : Nat) (g : Frz → Frz) : (s.updFrz p c g).here = s.here := rfl
@[simp] theorem updFrz_free (s : State) (p c : Nat) (g : Frz → Frz) : (s.updFrz p c g).free = s.free := rfl

@[simp] theorem updNode_fens (s : State) (f k : Nat) (g : Node → Node) :
    (s.updNode f k g).fens = updNth s.fens f (fun x => x.updMantle (fun m => { m with nodes := updNth m.nodes k g })) := rfl
@[simp] theorem updNode_mem (s : State) (f k : Nat) (g : Node → Node) : (s.updNode f k g).mem = s.mem := rfl
@[simp] theorem updNode_xl (s : State) (f k : Nat) (g : Node → Node) : (s.updNode f k g).xl = s.xl := rfl
@[simp] theorem updNode_emt (s : State) (f k : Nat) (g : Node → Node) : (s.updNode f k g).emt = s.emt := rfl
@[simp] theorem updNode_net (s : State) (f k : Nat) (g : Node → Node) : (s.updNode f k g).net = s.net := rfl
@[simp] theorem updNode_barq (s : State) (f k : Nat) (g : Node → Node) : (s.updNode f k g).barq = s.barq := rfl
@[simp] theorem updNode_reds (s : State) (f k : Nat) (g : Node → Node) : (s.updNode f k g).reds = s.reds := rfl
@[simp] theorem updNode_dev (s : State) (f k : Nat) (g : Node → Node) : (s.updNode f k g).dev = s.dev := rfl
@[simp] theorem updNode_hts (s : State) (f k : Nat) (g : Node → Node) : (s.updNode f k g).hts = s.hts := rfl
@[simp] theorem updNode_slices (s : State) (f k : Nat) (g : Node → Node) : (s.updNode f k g).slices = s.slices := rfl
@[simp] theorem updNode_frz (s : State) (f k : Nat) (g : Node → Node) : (s.updNode f k g).frz = s.frz := rfl
@[simp] theorem updNode_migs (s : State) (f k : Nat) (g : Node → Node) : (s.updNode f k g).migs = s.migs := rfl
@[simp] theorem updNode_boot (s : State) (f k : Nat) (g : Node → Node) : (s.updNode f k g).boot = s.boot := rfl
@[simp] theorem updNode_seq (s : State) (f k : Nat) (g : Node → Node) : (s.updNode f k g).seq = s.seq := rfl
@[simp] theorem updNode_cycle (s : State) (f k : Nat) (g : Node → Node) : (s.updNode f k g).cycle = s.cycle := rfl
@[simp] theorem updNode_sched (s : State) (f k : Nat) (g : Node → Node) : (s.updNode f k g).sched = s.sched := rfl
@[simp] theorem updNode_here (s : State) (f k : Nat) (g : Node → Node) : (s.updNode f k g).here = s.here := rfl
@[simp] theorem updNode_free (s : State) (f k : Nat) (g : Node → Node) : (s.updNode f k g).free = s.free := rfl

@[simp] theorem updCmd_fens (s : State) (f p k : Nat) (g : Cmd → Cmd) :
    (s.updCmd f p k g).fens = updNth s.fens f (fun x => { x with ports := updNth x.ports p (fun q => { q with cmds := updNth q.cmds k g }) }) := rfl
@[simp] theorem updCmd_mem (s : State) (f p k : Nat) (g : Cmd → Cmd) : (s.updCmd f p k g).mem = s.mem := rfl
@[simp] theorem updCmd_xl (s : State) (f p k : Nat) (g : Cmd → Cmd) : (s.updCmd f p k g).xl = s.xl := rfl
@[simp] theorem updCmd_emt (s : State) (f p k : Nat) (g : Cmd → Cmd) : (s.updCmd f p k g).emt = s.emt := rfl
@[simp] theorem updCmd_net (s : State) (f p k : Nat) (g : Cmd → Cmd) : (s.updCmd f p k g).net = s.net := rfl
@[simp] theorem updCmd_barq (s : State) (f p k : Nat) (g : Cmd → Cmd) : (s.updCmd f p k g).barq = s.barq := rfl
@[simp] theorem updCmd_reds (s : State) (f p k : Nat) (g : Cmd → Cmd) : (s.updCmd f p k g).reds = s.reds := rfl
@[simp] theorem updCmd_dev (s : State) (f p k : Nat) (g : Cmd → Cmd) : (s.updCmd f p k g).dev = s.dev := rfl
@[simp] theorem updCmd_hts (s : State) (f p k : Nat) (g : Cmd → Cmd) : (s.updCmd f p k g).hts = s.hts := rfl
@[simp] theorem updCmd_slices (s : State) (f p k : Nat) (g : Cmd → Cmd) : (s.updCmd f p k g).slices = s.slices := rfl
@[simp] theorem updCmd_frz (s : State) (f p k : Nat) (g : Cmd → Cmd) : (s.updCmd f p k g).frz = s.frz := rfl
@[simp] theorem updCmd_migs (s : State) (f p k : Nat) (g : Cmd → Cmd) : (s.updCmd f p k g).migs = s.migs := rfl
@[simp] theorem updCmd_boot (s : State) (f p k : Nat) (g : Cmd → Cmd) : (s.updCmd f p k g).boot = s.boot := rfl
@[simp] theorem updCmd_seq (s : State) (f p k : Nat) (g : Cmd → Cmd) : (s.updCmd f p k g).seq = s.seq := rfl
@[simp] theorem updCmd_cycle (s : State) (f p k : Nat) (g : Cmd → Cmd) : (s.updCmd f p k g).cycle = s.cycle := rfl
@[simp] theorem updCmd_sched (s : State) (f p k : Nat) (g : Cmd → Cmd) : (s.updCmd f p k g).sched = s.sched := rfl
@[simp] theorem updCmd_here (s : State) (f p k : Nat) (g : Cmd → Cmd) : (s.updCmd f p k g).here = s.here := rfl
@[simp] theorem updCmd_free (s : State) (f p k : Nat) (g : Cmd → Cmd) : (s.updCmd f p k g).free = s.free := rfl

@[simp] theorem settle_fens (s : State) (f : Nat) : (s.settle f).fens = updNth s.fens f (fun x => x.settle 64) := rfl
@[simp] theorem settle_mem (s : State) (f : Nat) : (s.settle f).mem = s.mem := rfl
@[simp] theorem settle_xl (s : State) (f : Nat) : (s.settle f).xl = s.xl := rfl
@[simp] theorem settle_emt (s : State) (f : Nat) : (s.settle f).emt = s.emt := rfl
@[simp] theorem settle_net (s : State) (f : Nat) : (s.settle f).net = s.net := rfl
@[simp] theorem settle_barq (s : State) (f : Nat) : (s.settle f).barq = s.barq := rfl
@[simp] theorem settle_reds (s : State) (f : Nat) : (s.settle f).reds = s.reds := rfl
@[simp] theorem settle_dev (s : State) (f : Nat) : (s.settle f).dev = s.dev := rfl
@[simp] theorem settle_hts (s : State) (f : Nat) : (s.settle f).hts = s.hts := rfl
@[simp] theorem settle_slices (s : State) (f : Nat) : (s.settle f).slices = s.slices := rfl
@[simp] theorem settle_frz (s : State) (f : Nat) : (s.settle f).frz = s.frz := rfl
@[simp] theorem settle_migs (s : State) (f : Nat) : (s.settle f).migs = s.migs := rfl
@[simp] theorem settle_boot (s : State) (f : Nat) : (s.settle f).boot = s.boot := rfl
@[simp] theorem settle_seq (s : State) (f : Nat) : (s.settle f).seq = s.seq := rfl
@[simp] theorem settle_cycle (s : State) (f : Nat) : (s.settle f).cycle = s.cycle := rfl
@[simp] theorem settle_sched (s : State) (f : Nat) : (s.settle f).sched = s.sched := rfl
@[simp] theorem settle_here (s : State) (f : Nat) : (s.settle f).here = s.here := rfl
@[simp] theorem settle_free (s : State) (f : Nat) : (s.settle f).free = s.free := rfl

end Sys2Proof.Machine
end

