-- ==== Sys2Proof/Tests/Build.lean ====
section
/-! SUPPORT. Small states for the tests and for the witnesses of the statements' hypotheses. -/
namespace Sys2Proof.Tests
open Sys2Proof.Machine

/-- A core in the midst of a block of these words, with these values in the block's registers. -/
def coreOf (regs : List (Reg × Word)) (words : List (BitVec 32) := []) : Core :=
  regs.foldl (fun c p => c.put p.1 p.2) { Core.blank with phase := .run, words := words, trapvec := 0x1000#64, locVec := 0x1000#64 }

/-- A running fen of two rows and two columns at row 1, column 1 of die 0, with two memory-port tiles. -/
def fenOf (c : Core) : Fen := { Fen.blank 0 1 1 2 2 with state := 2, mpts := [⟨0, 0, 1⟩, ⟨0, 1, 0⟩], core := c }

/-- A released module with one fen, whose core has its turn. -/
def coreSt (c : Core) : State :=
  { State.reset with fens := [fenOf c], here := .core 0, boot := { State.reset.boot with rel := true } }

/-- Whether an outcome goes on to a state that passes a test. -/
def after (o : Out) (p : State → Bool) : Bool := match o with | .next t => p t | _ => false

/-- The register of the core of fen 0 as the block sees it, after an instruction. -/
def regAfter (i : Instr) (s : State) (r : Reg) : Option Word :=
  match exec i s with
  | .next t => (t.fens[0]?).map (fun x => x.core.get r)
  | _ => none

/-- The core of fen 0 after an instruction. -/
def coreAfter (o : Out) : Option Core := match o with | .next t => (t.fens[0]?).map Fen.core | _ => none

/-- The cause that a core shows. -/
def causeAfter (o : Out) : Option Nat := (coreAfter o).map (fun c => c.trapcause.toNat)

/-- Memory with bytes stored at a key. -/
def State.withBytes (s : State) (key : Nat) (bs : List Byte) : State := s.updMem (fun m => m.putN key bs)

/-- A tensor entry of rank 2, 3 by 5 elements of FP32 at an address, row stride 8, named by ASID 0 and number 7. -/
def tensorAt (base : Nat) : BitVec 512 :=
  BitVec.ofNat 512 (base + 3 * 2 ^ 64 + 5 * 2 ^ 96 + 1 * 2 ^ 224 + 8 * 2 ^ 256 + 2 * 2 ^ 426 + 1 * 2 ^ 432 + 2 ^ 463 + 7 * 2 ^ 484)

/-- The module with one tensor entry. -/
def tensorSt (c : Core) (e : BitVec 512) : State := { coreSt c with dev := { State.reset.dev with tensors := [e] } }

/-- A translation that the micro-TLB of a tile holds for a 4 KiB page of ASID 0. -/
def tlbAt (h : Tile) (va : Nat) (typ : MemType) (base : Nat) : Tlb :=
  ⟨.micro h, 0, 0, va, 4096, va, typ, base, 0, true, true, true, true, true, true, true, 0⟩

/-- The module with these translations held, and these lines present in their EMTs. -/
def mapSt (c : Core) (l : List Tlb) (lines : List Nat := []) : State :=
  { coreSt c with xl := { State.reset.xl with tlbs := l }, emt := { State.reset.emt with lines := lines.map (fun k => ⟨k, 0, false⟩) } }

/-- The scratch address of an offset in a tile of the fen, by its row and column in the fen. -/
def scr (r c o : Nat) : Word := BitVec.ofNat 64 (0xFFFF * 2 ^ 48 + (16 * r + c) * 2 ^ 20 + o)

/-- A ring of n slots of 16·z bytes at an offset of the anchor's scratch. -/
def ringAt (n z base head tail cons prod : Nat) : Ring :=
  BitVec.ofNat 256 (head + tail * 2 ^ 16 + (n - 1) * 2 ^ 32 + (z - 1) * 2 ^ 40 + base * 2 ^ 64 + prod * 2 ^ 136 + cons * 2 ^ 138 + 2 ^ 191)

/-- A fen whose current mantle is the given one. -/
def fenMan (c : Core) (m : Mantle) : Fen := { fenOf c with mantles := [some m, none, none, none] }

/-- The module with that fen, its core's turn. -/
def manSt (c : Core) (m : Mantle) : State := { coreSt c with fens := [fenMan c m] }

/-- A command as it stands at its port. -/
def cmdOf (i : Instr) (t0 t1 : BitVec 512 := 0) : Cmd := Cmd.fresh i 0 0 (t0, t1) 0 0

/-- The fen that holds the command at a port. -/
def cmdFen (key : PortKey) (c : Cmd) (m : Mantle := Mantle.blank) : Fen := { fenMan (coreOf []) m with ports := [⟨key, [c]⟩] }

/-- A module in which the command has its turn; one page is mapped at 0x4000, its first 32 lines are present. -/
def cmdSt (key : PortKey) (c : Cmd) (m : Mantle := Mantle.blank) (typ : MemType := .spread) : State :=
  { mapSt (coreOf []) [tlbAt ⟨0, 0, 1⟩ 0x4000 typ 0] (List.range 32) with fens := [cmdFen key c m], here := .port 0 0 0 }

/-- Where the command stands. -/
def cmdAtOf (key : PortKey) (c : Cmd) (m : Mantle := Mantle.blank) : CmdAt := ⟨0, 0, 0, cmdFen key c m, key, c⟩

/-- An AG, a GS and the QP slot of the first memory-port tile. -/
abbrev agPort : PortKey := .slot ⟨0, 0, 1⟩ 16 0
abbrev gsPort : PortKey := .slot ⟨0, 0, 1⟩ 20 0
abbrev qpPort : PortKey := .slot ⟨0, 0, 1⟩ 22 0

/-- The command after an instruction. -/
def cmdAfter (o : Out) : Option Cmd := match o with | .next t => t.cmdAt 0 0 0 | _ => none

/-- The plainest command header. -/
def hdr0 : CmdHdr := ⟨false, false, 0#3, 0#7, .none⟩

/-- An operation answers this and leaves this state. -/
def okIs {α : Type} [DecidableEq α] (r : Res α) (a : α) (s : State) : Bool :=
  match r with | .ok b t => decide (b = a) && decide (t = s) | _ => false

theorem ok_of {α : Type} [DecidableEq α] {r : Res α} {a : α} {s : State} (h : okIs r a s = true) : r = .ok a s := by
  cases r with
  | ok b t => simp [okIs] at h; rw [h.1, h.2]
  | wait t => simp [okIs] at h
  | fault x t => simp [okIs] at h

/-- A read there answers at once: every line is present and free, no write is under way, no rate is set and nothing waits for one. -/
def readableNow (s : State) (rq : Req) (ph : Phys) (n : Nat) : Bool :=
  (!ph.typ.inEmt || (upto (ph.key / 128) ((ph.key + n) / 128 + 1)).all (fun l =>
    decide (ph.key + n ≤ l * 128) || okIs (s.needLine rq l) () s)) &&
  !s.behind rq ph.key n && s.net.held.isEmpty && match rq.fen.bind (fun f => s.fens[f]?) with | none => true | some x => decide (s.rate x.part = 0)

theorem readable_of {s : State} {rq : Req} {ph : Phys} {n : Nat} (h : readableNow s rq ph n = true) : Readable s rq ph n := by
  simp only [readableNow, Bool.and_eq_true, Bool.or_eq_true, Bool.not_eq_true'] at h
  refine ⟨fun ht l h1 h2 => ?_, h.1.1.2, fun q w => ?_⟩
  · rcases h.1.1.1 with h0 | h0
    · rw [ht] at h0; cases h0
    · have := List.all_eq_true.mp h0 l (mem_upto.mpr ⟨h1, by omega⟩)
      rcases Bool.or_eq_true _ _ |>.mp this with h3 | h3
      · have := of_decide_eq_true h3; omega
      · exact ok_of h3
  · have h2 := h.2
    have h3 : s.net.held = [] := by simpa using h.1.2
    have h4 : { s.net with held := [] } = s.net := by rw [← h3]
    unfold State.charge
    cases hx : rq.fen.bind (fun f => s.fens[f]?) with
    | none => rfl
    | some x =>
      rw [hx] at h2
      simp only [decide_eq_true_eq] at h2
      simp [State.letIn, State.mayEnter, State.takeFlits, h2, h3, h4]

/-- A write there goes through at once. -/
def freelyNow (s : State) (rq : Req) (ph : Phys) (n : Nat) : Bool :=
  readableNow s rq ph n && okIs (s.snooped rq ph n) () s && !s.reserved rq ph.key n

theorem freely_of {s : State} {rq : Req} {ph : Phys} {n : Nat} (h : freelyNow s rq ph n = true) : Freely s rq ph n := by
  simp only [freelyNow, Bool.and_eq_true, Bool.not_eq_true'] at h
  exact ⟨readable_of h.1.1, ok_of h.1.2, h.2⟩

/-- The conditions of `State.Reaches`. -/
def reachesB (s : State) (x : Fen) (rq : Req) (acc : Acc) (va n : Nat) (ph : Phys) : Bool :=
  freelyNow s rq ph n && decide (va < 2 ^ 48) && okIs (s.xlateFor x rq acc va) ph s && !ph.typ.leaves

theorem reaches_of {s : State} {x : Fen} {rq : Req} {acc : Acc} {va n : Nat} {ph : Phys} (h : reachesB s x rq acc va n ph = true) :
    s.Reaches x rq acc va n ph := by
  simp only [reachesB, Bool.and_eq_true, Bool.not_eq_true', decide_eq_true_eq] at h
  exact ⟨freely_of h.1.1.1, h.1.1.2, ok_of h.1.2, h.2⟩

/-- A launch record of one fen task on one tile: ENTRY 0x4000, IMG0 0x8000, further fields as given. -/
def recOf (more : Nat := 0) : Rec :=
  BitVec.ofNat 1024 (2 + 1 * 8 + 2 ^ 32 + 0x4000 * 2 ^ 512 + 2 ^ 561 + 2 ^ 565 + 0x8000 * 2 ^ 768 + more)

/-- Partition 0 owns the compute tile at row 1, column 1 of die 0, and the memory-port tile above it. -/
def ownTile (s : State) : State := { s with dev := { s.dev with owners := [(ownerOfs ⟨0, 1, 1⟩ 0, 16), (ownerOfs ⟨0, 0, 1⟩ 0, 16)] } }

end Sys2Proof.Tests
end

