-- ==== Sys2Proof/Tests/Commands.lean ====
section
/-! SUPPORT. Small tests of the stream commands, each on one step; expected values are worked by hand from the rules. -/
namespace Sys2Proof.Tests
set_option Elab.async false
open Sys2Proof.Machine

/-- A dense tensor of rank 1: n elements of a format at an address. -/
def row (n : Nat) (f : Fmt) (base : Nat) : BitVec 512 :=
  BitVec.ofNat 512 (base + n * 2 ^ 64 + 1 * 2 ^ 224 + 1 * 2 ^ 426 + f.code * 2 ^ 432 + 2 ^ 463)

/-- R199, R201, R304: the elements of a granule are read and converted, FP32 1.5 to BF16, and then land as one access. -/
theorem test_copy_element :
    let i : Instr := .copy hdr0 0#12 0#2 false 1#12 0#16 0#16 0#16
    let c := cmdOf i (row 2 .f32 0x4000) (row 2 .bf16 0x4100)
    let s := State.withBytes (cmdSt agPort c) (keySpread 0) [0x00#8, 0x00#8, 0xC0#8, 0x3F#8]
    let u := cmdSt agPort { c with data := [0xC0#8, 0x3F#8, 0#8, 0x80#8, 0x3F#8, 0#8] }
    (cmdAfter (exec i s)).map (fun c => (c.data, c.pos)) = some ([0xC0#8, 0x3F#8, 0#8], 0) ∧
    after (exec i u) (fun t => t.mem.getN (keySpread 0x100) 5 == [0xC0#8, 0x3F#8, 0x80#8, 0x3F#8, 0#8]) = true ∧
    (cmdAfter (exec i u)).map (fun c => (c.pos, c.bytes, c.done)) = some (2, 4, false) := by decide +kernel

/-- R202, R22: a copyr lands its elements in the tail slot; the granule is full only when its last byte has landed. -/
theorem test_copyr_lands :
    let i : Instr := .copyr hdr0 0#5 0#2 false 0#12 0#16 0#16 0#16
    let m := { Mantle.blank with rings := [ringAt 2 1 256 0 1 2 0] }
    let c := { cmdOf i (row 4 .i32 0) (row 4 .i32 0x4000) with stage := 1, pos := 3 }
    let s := State.withBytes (cmdSt agPort c m) (keySpread 12) [5#8]
    let k := keyScratch ⟨0, 1, 1⟩ (256 + 16 + 12)
    after (exec i s) (fun t => t.mem.getN k 4 == toLE 4 5 && t.mem.isFull (k / 16)) = true ∧
    after (exec i (cmdSt agPort { c with pos := 2 } m)) (fun t => !t.mem.isFull (k / 16)) = true := by decide +kernel

/-- R202: a copyx reads the head slot and advances HEAD. -/
theorem test_copyx_pops :
    let i : Instr := .copyx hdr0 0#5 0#2 false 0#12 0#16 0#16 0#16
    let m := { Mantle.blank with rings := [ringAt 2 1 256 3 0 2 0] }
    let c := { cmdOf i (row 2 .i16 0) (row 2 .i16 0x4000) with stage := 1 }
    let k := keyScratch ⟨0, 1, 1⟩ (256 + 16)
    let s := (State.withBytes (cmdSt agPort c m) k [1#8, 2#8, 3#8, 4#8]).updMem (fun y => y.mark (k / 16) 1 true)
    (cmdAfter (exec i s)).map (fun c => c.data) = some [1#8, 2#8, 0#8, 3#8, 4#8, 0#8] ∧
    after (exec i s) (fun t => (t.fens[0]?).any (fun x => Ring.head (x.ringOf 0 0) == 0) && !t.mem.isFull (k / 16)) = true := by decide +kernel

/-- R204: copyred adds integers at the target with wrapping. -/
theorem test_copyred_adds :
    let i : Instr := .copyred hdr0 0#12 0#2 false 1#12 0#2 0#16 0#16
    let c := { cmdOf i (row 1 .i32 0x4000) (row 1 .i32 0x4010) with data := toLE 4 3 }
    let s := State.withBytes (cmdSt agPort c) (keySpread 16) (toLE 4 0xFFFFFFFE)
    after (exec i s) (fun t => t.mem.getN (keySpread 16) 4 == toLE 4 1) = true := by decide +kernel

/-- R205: an index beyond the tensor's rows lands a row of zeros, with TRUNCATED when the tensor is not padded. -/
theorem test_gather_beyond :
    let i : Instr := .gather hdr0 0#12 0#11 4#15 0#15 0#12 false
    let c := { cmdOf i (row 2 .i32 0x4000) with stage := 1, sub := 2 }
    (cmdAfter (exec i (cmdSt gsPort c))).map (fun c => (c.pos, c.bytes, c.osw)) = some (1, 16, 0x1000#32) ∧
    after (exec i (cmdSt gsPort c)) (fun t => t.mem.isFull (keyScratch ⟨0, 1, 1⟩ 64 / 16)) = true := by decide +kernel

/-- R205: a scatter reads the index, and drops one beyond the tensor. -/
theorem test_scatter_index :
    let i : Instr := .scatter hdr0 0#12 0#11 4#15 0#15 0#12 true
    let s := State.withBytes (cmdSt gsPort (cmdOf i (row 2 .i32 0x4000))) (keyScratch ⟨0, 1, 1⟩ 0) [2#8]
    (cmdAfter (exec i s)).map (fun c => (c.pos, c.osw)) = some (1, 0x1000#32) := by decide +kernel

/-- R206, R291: a fill of scratch writes one granule a turn, zeros behind the last element to the granule's end. -/
theorem test_fill_scratch :
    let i : Instr := .fill hdr0 0#12 true 0#11 4#15 0x12345678#32
    after (exec i (cmdSt agPort (cmdOf i (row 3 .i32 0))))
      (fun t => t.mem.getN (keyScratch ⟨0, 1, 1⟩ 72) 8 == [0x78#8, 0x56#8, 0x34#8, 0x12#8, 0#8, 0#8, 0#8, 0#8]) = true ∧
    (cmdAfter (exec i (cmdSt agPort (cmdOf i (row 3 .i32 0))))).map (fun c => (c.pos, c.bytes)) = some (4, 16) := by decide +kernel

/-- R207: the words of an agload reach the slot's store at once after the last. -/
theorem test_agload_stores :
    let i : Instr := .agload hdr0 0#8 0x4000#48
    let c := { cmdOf i with stage := 1, pos := 1, data := toLE 8 77 }
    after (exec i (cmdSt agPort c)) (fun t => (t.fens[0]?).any (fun x => (x.store ⟨0, 0, 1⟩ 16)[0]? == some 77#64)) = true := by
  decide +kernel

/-- R195, R29: a completion adds its arrival and takes its bytes from TXPEND; the phase ends when both are done. -/
theorem test_completion_flips :
    let h : CmdHdr := { hdr0 with ct := .scratch true 0#11 2#14 }
    let c := { cmdOf (.cnop h) with begun := true, done := true, bytes := 32, osw := 0x40#32 }
    let k := keyScratch ⟨0, 1, 1⟩ 64
    let b : Bar := { phase := false, arr := 1, tx := 32, init := true, scope := 0, exparr := 4, cur := 0, last := 0, phases := 0 }
    let s := State.withBytes (cmdSt .fc c) k (b.toBytes (List.replicate 32 0#8))
    after (exec .cmdComplete s) (fun t => (t.bar k).phase && (t.bar k).arr == 4 && (t.bar k).tx == 0 && (t.bar k).last == 0x40#32 &&
      (t.fens[0]?).any (fun x => x.status == 0x40#16 && (x.ports[0]?).any (fun q => q.cmds.isEmpty))) = true := by decide +kernel

/-- R209: carrive and cexpect complete at acceptance; a cnop behind nothing completes. -/
theorem test_barrier_commands :
    let h : CmdHdr := { hdr0 with ct := .scratch true 0#11 2#14 }
    (cmdAfter (exec (.carrive h) (cmdSt agPort (cmdOf (.carrive h))))).map Cmd.done = some true ∧
    (cmdAfter (exec (.cexpect h 5#32) (cmdSt agPort (cmdOf (.cexpect h 5#32))))).map Cmd.done = some true ∧
    (cmdAfter (exec (.cnop h) (cmdSt agPort (cmdOf (.cnop h))))).map Cmd.done = some true ∧
    (cmdAfter (exec (.sbar h 1#7) (cmdSt agPort (cmdOf (.sbar h 1#7))))).map Cmd.done = some true := by decide +kernel

/-- R210: a qput with the queue full and BLK 0 ends with TRUNCATED. -/
theorem test_qput_full :
    let i : Instr := .qput hdr0 0#8 0#5 0x4000#48
    let m := { Mantle.blank with rings := [ringAt 2 1 256 0 1 2 0] }
    let c := { cmdOf i with stage := 1 }
    let q := Qcb.seal (BitVec.ofNat 512 (0x4100 + 2 * 2 ^ 96 + 2 * 2 ^ 128 + 2 ^ 160))
    let s := (State.withBytes (cmdSt qpPort c m) (keySpread 0) (toLE 64 q.toNat)).updMem
      (fun y => y.mark (keyScratch ⟨0, 1, 1⟩ 256 / 16) 1 true)
    (cmdAfter (exec i s)).map (fun c => (c.done, c.osw)) = some (true, 0x1000#32) := by decide +kernel

/-- R214: a decrement of no held launch is rejected with ABORTED; R217: a switch to a mantle waits for the phase end. -/
theorem test_fc_commands :
    let i : Instr := .depdec hdr0 0#2 1#8 5#32
    (cmdAfter (exec i (cmdSt .fc (cmdOf i)))).map (fun c => (c.done, c.osw)) = some (true, 0x200#32) ∧
    after (exec (.mswitch hdr0 1#2 false) (cmdSt .fc (cmdOf (.mswitch hdr0 1#2 false))))
      (fun t => (t.fens[0]?).any (fun x => x.pendSw == some 1 && x.cur == 0)) = true ∧
    (cmdAfter (exec (.launch hdr0 0x4000#48) (cmdSt .fc (cmdOf (.launch hdr0 0x4000#48))))).map (fun c => c.data.length) = some 64 := by
  decide +kernel

/-- R212: matom adds to the Mere and returns the old value; R213: maxpy, its 3 in hand, makes 2·3 + 1 = 7. -/
theorem test_mere_updates :
    let i : Instr := .matom hdr0 0#12 0#4 0#11 0#15 true 2#15 false
    let s := State.withBytes (State.withBytes (cmdSt gsPort (cmdOf i (row 1 .i32 0x4000)) Mantle.blank .mere) (keyMere 0) (toLE 4 40))
      (keyScratch ⟨0, 1, 1⟩ 0) (toLE 4 2)
    let j : Instr := .maxpy hdr0 0#12 0#2 false 0#11 0#15 0x40000000#32
    let c := { cmdOf j (row 1 .f32 0x4000) with data := toLE 4 0x40400000 ++ [0#8] }
    let u := State.withBytes (cmdSt gsPort c Mantle.blank .mere) (keyMere 0) (toLE 4 0x3F800000)
    after (exec i s) (fun t => t.mem.getN (keyMere 0) 4 == toLE 4 42 && t.mem.getN (keyScratch ⟨0, 1, 1⟩ 32) 4 == toLE 4 40) = true ∧
    after (exec j u) (fun t => t.mem.getN (keyMere 0) 4 == toLE 4 0x40E00000) = true := by decide +kernel

/-- R211: an mred announces its contribution and waits. -/
theorem test_mred_announces :
    let i : Instr := .mred hdr0 0#12 0#2 false 0#2 0#11 0#15 0#8 1#8 7#12 0#5
    let s := cmdSt gsPort (cmdOf i (row 1 .i32 0x4000)) Mantle.blank .mere
    (cmdAfter (exec i s)).map (fun c => (c.asleep, c.done)) = some (true, false) ∧
    after (exec i s) (fun t => t.reds.map (fun r => (r.key, r.tag, r.anns.length)) == [(keyMere 0, 7, 1)]) = true := by decide +kernel

/-- R218: pref, inval and flush pass over a page that does not translate. -/
theorem test_line_commands :
    [Instr.pref hdr0 0#12, .inval hdr0 0#12, .flush hdr0 0#12].all (fun i =>
      (cmdAfter (exec i (cmdSt agPort (cmdOf i (row 1 .i32 0x9000))))).map (fun c => (c.pos, c.done)) == some (1, false)) = true := by
  decide +kernel

end Sys2Proof.Tests
end

