-- ==== Sys2Proof/Tests/Nodes.lean ====
section
/-! SUPPORT. Small states in which a node has its turn, and small tests of node instructions: one turn each, operands and
results written out by hand from the rule. -/
namespace Sys2Proof.Tests
set_option Elab.async false
open Sys2Proof.Machine

/-- Numbers of w bits, lane 0 first. -/
def pk (w : Nat) (l : List Nat) : Nat := (l.zipIdx.map (fun p => p.1 * 2 ^ (w * p.2))).sum

/-- A DATA beat of lanes. -/
def lanes (w : Nat) (l : List Nat) : Beat := dataBeat (BitVec.ofNat 256 (pk w l))

/-- Circuits into inputs 0, 1 and 2. -/
abbrev c0 : Ref := .circuit 0#2 0#3
abbrev c1 : Ref := .circuit 1#2 0#3
abbrev c2 : Ref := .circuit 2#2 0#3
/-- Reed lanes. -/
abbrev r0 : Ref := .reed 0#2 0#4
abbrev r1 : Ref := .reed 1#2 0#4
abbrev r2 : Ref := .reed 2#2 0#4

/-- A node header. -/
def nh (f : Fmt) (ins outs : List Ref) (var : BitVec 4 := 0#4) (guard : Guard := .off) : NodeHdr :=
  ⟨var, f, 0#8, (ins[0]?).getD .none, (ins[1]?).getD .none, (ins[2]?).getD .none, (ins[3]?).getD .none,
    (outs[0]?).getD .none, (outs[1]?).getD .none, guard, 0#2, false, false⟩

/-- A node in the anchor tile, with beats at its inputs. -/
def nd (i : Instr) (inq : List (List Beat)) (mem : NodeMem := NodeMem.blank) (tens : List (BitVec 512) := [])
    (coef : List (BitVec 32) := []) (slot : Nat := 1) : Node :=
  { Node.fresh ⟨0, 1, 1⟩ slot i 1 tens coef with inq := inq ++ List.replicate (5 - inq.length) [], mem := mem }

/-- A fen whose mantle has that node only. -/
def nodeFen (n : Node) (m : Mantle := Mantle.blank) : Fen := fenMan (coreOf []) { m with nodes := [n] }

/-- A module in which the node has its turn; a 4 KiB page is mapped at 0x4000. -/
def nodeSt (n : Node) (m : Mantle := Mantle.blank) (typ : MemType := .spread) : State :=
  { mapSt (coreOf []) [tlbAt ⟨0, 0, 1⟩ 0x4000 typ 0] (List.range 32) with fens := [nodeFen n m], here := .node 0 0 }

/-- Where that node stands. -/
def nodeAtOf (n : Node) (m : Mantle := Mantle.blank) : NodeAt := ⟨0, 0, nodeFen n m, { m with nodes := [n] }, n⟩

/-- The node after an outcome. -/
def nodeAfter (o : Out) : Option Node := match o with
  | .next t => (t.fens[0]?).bind (fun x => x.mantle.bind (fun m => m.nodes[0]?))
  | _ => none

/-- The beats in output buffer p after an outcome. -/
def outAfter (o : Out) (p : Nat := 0) : Option (List Beat) := (nodeAfter o).map (fun n => (n.outq[p]?).getD [])

/-- The beats that a node's turn puts on output 0. -/
def turn (i : Instr) (inq : List (List Beat)) (mem : NodeMem := NodeMem.blank) : Option (List Beat) :=
  outAfter (exec i (nodeSt (nd i inq mem)))

/-- The lanes an instruction of one to three operands makes of these lanes, with FMT of w bits. -/
def lanesOf (w : Nat) (i : Instr) (ops : List (List Nat)) (k : Nat) : Option (List Nat) :=
  match turn i (ops.map (fun l => [lanes w l])) with
  | some [b] => some ((List.range k).map (lane w b.data))
  | _ => none

def n1 (f : Fmt) : NodeHdr := nh f [c0] [c0]
def n2 (f : Fmt) : NodeHdr := nh f [c0, c1] [c0]
def n3 (f : Fmt) : NodeHdr := nh f [c0, c1, c2] [c0]

/-- R228: integer lanes wrap, divide toward zero, a zero divisor gives all ones. -/
theorem test_integer_lanes :
    lanesOf 32 (.vadd (n2 .i32)) [[5, 0x7FFFFFFF], [7, 1]] 2 = some [12, 0x80000000] ∧
    lanesOf 32 (.vsub (n2 .i32)) [[5, 7], [7, 5]] 2 = some [0xFFFFFFFE, 2] ∧
    lanesOf 32 (.vmul (n2 .i32)) [[0x10001], [0x10001]] 1 = some [0x20001] ∧
    lanesOf 32 (.vfma (n3 .i32)) [[2, 3], [3, 0xFFFFFFFF], [4, 1]] 2 = some [10, 0xFFFFFFFE] ∧
    lanesOf 32 (.vdiv (n2 .i32)) [[0xFFFFFFF9, 7], [2, 0]] 2 = some [0xFFFFFFFD, 0xFFFFFFFF] ∧
    lanesOf 32 (.vmin (n2 .i32)) [[0xFFFFFFFF], [3]] 1 = some [0xFFFFFFFF] ∧
    lanesOf 32 (.vmax (n2 .i32)) [[0xFFFFFFFF], [3]] 1 = some [3] ∧
    lanesOf 32 (.vabs (n1 .i32)) [[0xFFFFFFFB]] 1 = some [5] ∧
    lanesOf 32 (.vneg (n1 .i32)) [[5]] 1 = some [0xFFFFFFFB] ∧
    lanesOf 32 (.vclamp (n3 .i32)) [[9, 0xFFFFFFF0], [0, 0xFFFFFFFE], [5, 5]] 2 = some [5, 0xFFFFFFFE] := by decide +kernel

/-- R228: the bit operations; shift counts are taken modulo the width. -/
theorem test_bit_lanes :
    lanesOf 32 (.vand (n2 .i32)) [[0xF0F0], [0xFF00]] 1 = some [0xF000] ∧
    lanesOf 32 (.vor (n2 .i32)) [[0xF0F0], [0xFF00]] 1 = some [0xFFF0] ∧
    lanesOf 32 (.vxor (n2 .i32)) [[0xF0F0], [0xFF00]] 1 = some [0x0FF0] ∧
    lanesOf 32 (.vshl (n2 .i32)) [[1, 0x80000001], [33, 1]] 2 = some [2, 2] ∧
    lanesOf 32 (.vshr (n2 .i32)) [[0xFFFFFFFC], [1]] 1 = some [0xFFFFFFFE] := by decide +kernel

/-- R228, R233: floating lanes: 2·3, 1 - 3, 3/2, the root of 4, and the functions at points where they are exact. -/
theorem test_float_lanes :
    lanesOf 32 (.vmul (n2 .f32)) [[0x40000000], [0x40400000]] 1 = some [0x40C00000] ∧
    lanesOf 32 (.vsub (n2 .f32)) [[0x3F800000], [0x40400000]] 1 = some [0xC0000000] ∧
    lanesOf 32 (.vdiv (n2 .f32)) [[0x40400000], [0x40000000]] 1 = some [0x3FC00000] ∧
    lanesOf 32 (.vsqrt (n1 .f32)) [[0x40800000]] 1 = some [0x40000000] ∧
    lanesOf 32 (.vrec (n1 .f32)) [[0x40000000]] 1 = some [0x3F000000] ∧
    lanesOf 32 (.vrsq (n1 .f32)) [[0x40800000]] 1 = some [0x3F000000] ∧
    lanesOf 32 (.vexp (n1 .f32)) [[0]] 1 = some [0x3F800000] ∧
    lanesOf 32 (.vlog (n1 .f32)) [[0x3F800000]] 1 = some [0] ∧
    lanesOf 32 (.vtanh (n1 .f32)) [[0]] 1 = some [0] ∧
    lanesOf 32 (.vsigm (n1 .f32)) [[0]] 1 = some [0x3F000000] := by decide +kernel

/-- R229, R230, R232, R235: a comparison's mask and its ANY token; selection by token and by lane; a permutation of bytes, an
index byte with bit 7 giving zero; a broadcast. -/
theorem test_vector_shapes :
    let cmp : Instr := .vcmp (nh .i32 [c0, c1] [c0, r0]) 2#3 true
    let o := exec cmp (nodeSt (nd cmp [[lanes 32 [1, 5]], [lanes 32 [2, 5]]]))
    (outAfter o).map (fun l => l.map (fun b => b.data.toNat)) = some [0xFFFFFFFF] ∧ outAfter o 1 = some [reedTok true] ∧
    turn (.sel (nh .i32 [c0, c1, r2] [c0])) [[lanes 32 [1]], [lanes 32 [2]], [reedTok false]] = some [lanes 32 [2]] ∧
    turn (.sel (nh .i32 [c0, c1, c2] [c0])) [[lanes 32 [1, 3]], [lanes 32 [2, 4]], [lanes 32 [0, 8]]] = some [lanes 32 [2, 3]] ∧
    turn (.vperm (nh .i8 [c0, c1] [c0])) [[lanes 8 [5, 6]], [lanes 8 ([1, 0x80] ++ List.replicate 30 31)]] = some [lanes 8 [6, 0]] ∧
    turn (.vbcast (nh .i32 [c0] [c0]) 1#5) [[lanes 32 [5, 6]]] = some [lanes 32 (List.replicate 8 6)] := by decide +kernel

/-- R231, R234, R235: 3.0 and -2.0 as integers; a running sum per lane, and the sum of a beat; the prefix sums. -/
theorem test_convert_reduce_scan :
    let r : Instr := .vred (nh .i32 [c0] [c0] 1#4) 0#3 0#3
    turn (.cvtNode (nh .i32 [c0] [c0]) .f32 0#12 0#12) [[lanes 32 [0x40400000, 0xC0000000]]] = some [lanes 32 [3, 0xFFFFFFFE]] ∧
    (nodeAfter (exec r (nodeSt (nd r [[lanes 32 [1, 2]]] { NodeMem.blank with b0 := true, vals := List.replicate 8 5#64 })))).map
      (fun n => n.mem.vals.take 3) = some [6#64, 7#64, 5#64] ∧
    (redLanes .i32 0 0 (lanes 32 [1, 2, 3]).data).1.toNat = 6 ∧
    turn (.vscan (nh .i32 [c0] [c0]) 0#3 0#3) [[lanes 32 [1, 2, 3]]] = some [lanes 32 [1, 3, 6, 6, 6, 6, 6, 6]] := by decide +kernel

/-- R244 to R247: CSEQ begins, issues its first go token, and takes a done token; STEER routes a false beat to OUT1. -/
theorem test_control_nodes :
    let i : Instr := .cseq (nh .n8 [.none, r1] [r0, r1]) 2#32
    let m := { NodeMem.blank with b0 := true, begun := true }
    (nodeAfter (exec i (nodeSt (nd i [])))).map (fun n => n.mem.b0) = some true ∧
    turn i [] m = some [reedTok true] ∧
    (nodeAfter (exec i (nodeSt (nd i [[], [reedTok true]] { m with n0 := 1 })))).map (fun n => n.mem.n1) = some 1 ∧
    (let c : Instr := .cpipe (nh .n8 [] [r0]) 2#32 1#4
     turn c [] m = some [reedTok true]) ∧
    (let c : Instr := .cstrm (nh .n8 [] [r0]) 2#32
     turn c [] { m with n0 := 1 } = some [reedTok true]) ∧
    (let c : Instr := .steer (nh .n8 [c0, r1] [c0, c1])
     outAfter (exec c (nodeSt (nd c [[lanes 32 [7]], [reedTok false]]))) 1 = some [lanes 32 [7]]) := by decide +kernel

/-- R248, R249: PRIME emits its constant; SOURCE its END beat; COUNT its numbers; SINK counts a DONE beat. -/
theorem test_stream_nodes :
    let m := { NodeMem.blank with b0 := true, begun := true }
    let p : Instr := .prime (nh .n8 [c0, .const 0#8] [c0]) 0#8
    outAfter (exec p (nodeSt (nd p [] { m with n0 := 1 }) { Mantle.blank with consts := [9#256] })) = some [lanes 32 [9]] ∧
    turn (.source (nh .n8 [c0] [c0]) 1#32 8#4) [] { m with n0 := 1 } = some [ctlBeat 9] ∧
    turn (.count (nh .i32 [] [c0]) 3#32 5#32 0xFFFFFFFE#32 8#4) [] m = some [lanes 32 [5, 3, 1]] ∧
    (let k : Instr := .sink (nh .n8 [c0] []) 2#16
     (nodeAfter (exec k (nodeSt (nd k [[ctlBeat 9]])))).map (fun n => n.mem.n0) = some 1) := by decide +kernel

/-- An element that a memory node has in its window. -/
def el (va : Word) (data : List Byte := []) (elem : Nat := 0) (fin : Bool := false) (note : Word := 0) : WinEl :=
  ⟨va, 0, 1, elem, fin, data, [], false, none, note, none, none⟩

/-- A memory node with two elements of one address in its window, at a state with bytes at the page and in scratch. -/
def elemSt (i : Instr) (va : Word) (data : List Byte := []) (mem : List Nat := []) (scrv : List Nat := []) (full : Bool := false) : State :=
  let m := { NodeMem.blank with win := [el va data, el va data 1 true], n3 := 1 }
  let s := State.withBytes (State.withBytes (nodeSt (nd i [] m)) (keySpread 0) (mem.map (BitVec.ofNat 8)))
    (keyScratch ⟨0, 1, 1⟩ 0x40) (scrv.map (BitVec.ofNat 8))
  s.updMem (fun y => y.mark (keyScratch ⟨0, 1, 1⟩ 0x40 / 16) 1 full)

/-- The elements that wait for a whole output beat. -/
def packedAfter (o : Out) : Option (List Nat) := (nodeAfter o).map (fun n => n.mem.pack0.map BitVec.toNat)

/-- R252 to R254: load reads its element; store writes it; atom adds and passes the old value on. -/
theorem test_memory_nodes :
    let l : Instr := .load (nh .i32 [c0] [c0]) 0#3
    let t : Instr := .store (nh .i32 [c0, c1] []) 0#3
    let a : Instr := .atom (nh .i32 [c0, c1] [c0]) 0#3 0#4
    packedAfter (exec l (elemSt l 0x4000#64 [] [1, 2, 3, 4])) = some [0x04030201] ∧
    after (exec t (elemSt t 0x4000#64 [8#8, 7#8, 6#8, 5#8])) (fun s => s.mem.getN (keySpread 0) 4 == [8#8, 7#8, 6#8, 5#8]) = true ∧
    packedAfter (exec a (elemSt a 0x4000#64 (toLE 4 3) [2])) = some [2] ∧
    after (exec a (elemSt a 0x4000#64 (toLE 4 3) [2])) (fun s => s.mem.getN (keySpread 0) 4 == [5#8, 0#8, 0#8, 0#8]) = true := by decide +kernel

/-- R253: ldfe waits for full, then reads and, in VAR 1, clears the bit; stfe writes an empty granule and sets it full. -/
theorem test_tagged_nodes :
    let l : Instr := .ldfe (nh .i32 [c0] [c0] 1#4) 0#3
    let t : Instr := .stfe (nh .i32 [c0, c1] []) 0#3
    let va := scr 0 0 0x40
    let g := keyScratch ⟨0, 1, 1⟩ 0x40 / 16
    packedAfter (exec l (elemSt l va [] [] [7] false)) = some [] ∧
    packedAfter (exec l (elemSt l va [] [] [7] true)) = some [7] ∧
    after (exec l (elemSt l va [] [] [7] true)) (fun s => s.mem.isFull g) = false ∧
    after (exec t (elemSt t va (toLE 4 9))) (fun s => s.mem.isFull g && s.mem.getN (16 * g) 1 == [9#8]) = true := by decide +kernel

/-- R255, R256: ojoin joins two tokens; rdring moves the beat of a filled slot; wrring fills a slot with a beat. -/
theorem test_order_and_rings :
    let j : Instr := .ojoin (nh .n8 [r0, r1] [r0]) 0#3
    let r : Instr := .rdring (nh .n8 [.ring 0#5] [c0]) 0#3
    let w : Instr := .wrring (nh .n8 [c0] [.ring 0#5]) 0#3 0#4
    let k := keyScratch ⟨0, 1, 1⟩ 256
    let m := fun (h t : Nat) => { Mantle.blank with rings := [ringAt 2 2 256 h t 2 2] }
    turn j [[reedTok true], [reedTok true]] = some [reedTok true] ∧
    outAfter (exec r ((State.withBytes (nodeSt (nd r []) (m 0 1)) k [5#8]).updMem (fun y => y.mark (k / 16) 2 true))) = some [lanes 8 [5]] ∧
    after (exec w (nodeSt (nd w [[lanes 8 [6]]]) (m 0 0))) (fun s => s.mem.getN k 1 == [6#8] && s.mem.isFull (k / 16) && s.mem.isFull (k / 16 + 1) &&
      (s.fens[0]?).any (fun x => Ring.tail (x.ring 0) == 1)) = true := by decide +kernel

/-! ## Tiles -/

/-- A matrix node that writes no record and tells no barrier object. -/
def mat0 : MatHdr := ⟨false, false, 0#6, false, 0#15⟩

/-- An entry of a format, SCALE 0. -/
def tfmt (f : Fmt) : BitVec 512 := row 1 f 0

/-- Rings of tiles in the anchor's scratch: filled ones of 1 KiB at 0x1000, 0x2000 and, the last, 0x3000, empty ones of 4 KiB at
0x10000 and 0x20000. -/
def tileMan : Mantle :=
  { Mantle.blank with rings := [ringAt 1 64 0x1000 0 1 0 0, ringAt 1 64 0x2000 0 1 0 0, ringAt 1 256 0x10000 0 0 0 0,
      ringAt 1 256 0x20000 0 0 0 0, ringAt 1 64 0x3000 0 1 0 0] }

/-- A node over those rings, with bytes in scratch. -/
def tileSt (n : Node) (l : List (Nat × Nat)) : State :=
  let g := fun (o k : Nat) => (List.range k).map (fun i => keyScratch ⟨0, 1, 1⟩ o / 16 + i)
  let s := (nodeSt n tileMan).updMem (fun y => { y with full := g 0x1000 64 ++ g 0x2000 64 ++ g 0x3000 64 })
  l.foldl (fun s p => State.withBytes s (keyScratch ⟨0, 1, 1⟩ p.1) [BitVec.ofNat 8 p.2]) s

set_option maxRecDepth 100000 in
/-- R239: element (0, 1) of a tile goes to (1, 0). -/
theorem test_mtrn :
    let i : Instr := .mtrn (nh .n8 [.ring 0#5] [.ring 2#5]) mat0
    after (exec i (tileSt (nd i [] NodeMem.blank [tfmt .i8, 0, 0, tfmt .i8, 0]) [(0x1001, 7)]))
      (fun s => s.mem.get (keyScratch ⟨0, 1, 1⟩ (0x10000 + 32)) == 7#8) = true := by decide +kernel

set_option maxRecDepth 100000 in
/-- R237: a(0, 1) = 7 and b(1, 2) = 3 give d(0, 2) = 21. -/
theorem test_mma :
    let i : Instr := .mma (nh .n8 [.ring 0#5, .ring 1#5] [.ring 2#5]) mat0 0#16 false
    after (exec i (tileSt (nd i [] NodeMem.blank [tfmt .i8, tfmt .i8, 0, tfmt .i32, 0]) [(0x1001, 7), (0x2000 + 34, 3)]))
      (fun s => s.mem.get (keyScratch ⟨0, 1, 1⟩ (0x10000 + 8)) == 21#8) = true := by decide +kernel

/-- R240, R241: 2.0 · I has 2.0 and 0; MITER's NISQ begins from the identity; a row's sum of squared differences. -/
theorem test_tile_functions :
    let i : Instr := .miter (nh .n8 [.ring 0#5] [.ring 2#5] 2#4) mat0 0#16 0 0 false
    ((scaledI 0x40000000).take 2).map (fun v => (encodeF .f32 v).1) = [0x40000000, 0] ∧
    (nodeAfter (exec i (tileSt (nd i [] NodeMem.blank [tfmt .i8, 0, 0, tfmt .f32, 0]) []))).map
      (fun n => (n.mem.b0, n.mem.acc0.take 2)) = some (true, [0x3F800000#64, 0#64]) ∧
    (residRow 0 (vals32 0 [0x40400000, 0x3F800000]) (vals32 0 [0x3F800000, 0x3F800000]) 0).1 = 0x40800000 := by decide +kernel

/-- R243: a partial group leaves sorted, best first, with pad pairs, before the control beat that closes it. -/
theorem test_msort :
    turn (.msort (nh .ki [c0] [c0]) mat0) [[ctlBeat 9]] { NodeMem.blank with vals := [0x2_3F800000#64, 0x1_40000000#64] } =
      some [lanes 64 [0x1_40000000, 0x2_3F800000, 0xFFFFFFFF_7FC00000, 0xFFFFFFFF_7FC00000], ctlBeat 9] := by decide +kernel

/-! ## Entries -/

/-- The elements that wait on output 0 after a turn with these items in hand. -/
def entOf (i : Instr) (left0 left1 : List Word := []) (mem : NodeMem := NodeMem.blank) (tens : List (BitVec 512) := [])
    (bytes : List Nat := []) (typ : MemType := .spread) : Option (List Nat) :=
  let n := nd i [] { mem with left0 := left0, left1 := left1 } tens
  let s := State.withBytes (nodeSt n Mantle.blank typ) (if typ = .mere then keyMere 0 else keySpread 0) (bytes.map (BitVec.ofNat 8))
  packedAfter (exec i s)

/-- R262 to R266: entry 1 of the dense fibre of reference 3, four wide; entries of one coordinate meet; repeat, sred and
sjoin. -/
theorem test_entry_nodes :
    let m := NodeMem.blank
    let h := nh .i32 [c0, c1] [c0, c1]
    entOf (.fscan (nh .i32 [c0] [c0] 2#4) 0#15 0#15 4#32) [3#64] [] { m with b0 := true, b1 := true, n0 := 1, n1 := 4, n3 := 3 } =
      some [0x1_0000000D] ∧
    entOf (.isect h) [0x2_00000005#64] [0x2_00000006#64] = some [0x2_00000005] ∧
    entOf (.isect h) [0x1_00000005#64] [0x2_00000006#64] = some [] ∧
    entOf (.union h 0#3) [0x2_00000005#64] [0x2_00000006#64] = some [0x2_0000000B] ∧
    entOf (.union h 0#3) [0x3_00000005#64] [0x2_00000006#64] = some [0x2_00000006] ∧
    entOf (.repeatNode h 0#3) [] [0x3_00000009#64] { m with b1 := true, vals := [7#64] } = some [0x3_00000007] ∧
    entOf (.sjoin h 0#3 0#3 0#3) [0x2_00000005#64] [0x2_00000006#64] = some [0x2_0000001E] ∧
    (let i : Instr := .sred h 0#3 0#3
     (nodeAfter (exec i (nodeSt (nd i [] { m with b0 := true, vals := [5#64], left0 := [0x3_00000004#64] })))).map
       (fun n => n.mem.vals) = some [9#64]) := by decide +kernel

/-- R267: sacc adds 5 at coordinate 1 of its array and marks it used. -/
theorem test_sacc :
    let i : Instr := .sacc (nh .i32 [c0] [c0]) 4#15 3#13 0#3
    let k := keyScratch ⟨0, 1, 1⟩ 64
    after (exec i (nodeSt (nd i [] { NodeMem.blank with begun := true, left0 := [0x1_00000005#64] })))
      (fun s => s.mem.getN k 17 == (List.replicate 4 0#8 ++ [5#8] ++ List.replicate 11 0#8 ++ [2#8])) = true := by decide +kernel

/-- R269, R270: split sends its second beat to OUT1, tagged 1; merge takes the beat of the lower tag. -/
theorem test_split_merge :
    let sp : Instr := .split (nh .n8 [c0] [c0, c1])
    let mg : Instr := .merge (nh .n8 [c0, c1] [c0])
    outAfter (exec sp (nodeSt (nd sp [[lanes 8 [9]]] { NodeMem.blank with n0 := 1 }))) 1 = some [{ lanes 8 [9] with tag := some 1#16 }] ∧
    turn mg [[{ lanes 8 [9] with tag := some 6#16 }], [{ lanes 8 [8] with tag := some 5#16 }]] { NodeMem.blank with n0 := 5 } =
      some [lanes 8 [8]] := by decide +kernel

/-- R271, R272: rmerge takes the better pair; gath reads the element a reference names; scat writes a value at a coordinate. -/
theorem test_merge_gather_scatter :
    let m := NodeMem.blank
    let sc : Instr := .scat (nh .i32 [c0] [] 1#4) 0#3 0#12 0#12 0#12 0#3
    entOf (.rmerge (nh .ki [c0, c1] [c0])) [0x1_3F800000#64] [0x2_40000000#64] = some [0x2_40000000] ∧
    entOf (.gath (nh .i32 [c0] [c0]) 0#3 0#12 false) [] [] { m with win := [el 0x4004#64 [] 0 true 0x7_00000001#64] } [row 4 .i32 0x4000] [1, 0, 0, 0, 9] = some [0x7_00000009] ∧
    after (exec sc (nodeSt (nd sc [] { m with left0 := [0x2_00000005#64] } [row 4 .i32 0x4000])))
      (fun s => s.mem.getN (keySpread 8) 1 == [5#8]) = true := by decide +kernel

/-! ## Retrieval -/

/-- R275, R276: agen starts at its START word, and a HALT word ends it; pqadc gives an item of zero tables the score 0. -/
theorem test_agen_pqadc :
    let m := NodeMem.blank
    let ag : Instr := .agen (nh .n8 [] [c0]) 0#3 7#8
    let s := nodeSt (nd ag [] { m with b0 := true, n0 := 3 })
    let t : State := { s with fens := s.fens.map (fun x => { x with progs := [(⟨0, 1, 1⟩, 1, List.replicate 4 0xF000000000000000#64)] }) }
    (nodeAfter (exec ag (nodeSt (nd ag [])))).map (fun n => (n.mem.b0, n.mem.n0)) = some (true, 7) ∧
    (nodeAfter (exec ag t)).map (fun n => n.mem.b0) = some false ∧
    (let pq : Instr := .pqadc (nh .n8 [c0] [c0]) 0#15 0#6 2#8
     let u := (nodeSt (nd pq [] { m with left0 := [0x55#64, 0#64] })).updMem (fun y => y.mark (keyScratch ⟨0, 1, 1⟩ 0 / 16) 1 true)
     packedAfter (exec pq u) = some [0x55_00000000]) := by decide +kernel

/-- R274, R277, R278: 1.0 lies below a key of 2.0; a pair above the least of a full list is admitted and goes in front; a pair
below the threshold is not. The nodes read their threshold free, so their turns are no closed terms. -/
theorem test_thresholds :
    belowKey 0x3F800000 0x1_40000000#64 = true ∧ belowKey 0x40000000 0x1_3F800000#64 = false ∧
    topAdmits 2 [0x1_3F800000#64, 0x2_3F000000#64] kiFloor 0x9_40000000#64 = true ∧
    topAdmits 2 [] 0x1_40000000#64 0x9_3F800000#64 = false ∧
    topInsert 2 [0x1_3F800000#64, 0x2_3F000000#64] 0x9_40000000#64 = [0x9_40000000#64, 0x1_3F800000#64] := by decide +kernel

/-- R281: qport sends the key its register holds over its threshold output. -/
theorem test_qport :
    let i : Instr := .qport (nh .n8 [] [.none, .seep 0#2 0#3])
    (nodeAfter (exec i (nodeSt { nd i [] with thr := 0x1_40000000#64 }))).map (fun n => n.sent) = some 0x40000000#32 := by decide +kernel

/-- R282 to R285: tomb drops identifier 1, whose bit is set; vset emits a new identifier and sets its bit in a Mere; kipack
numbers scores from its base; fcomp drops a zero. -/
theorem test_filter_nodes :
    let m := NodeMem.blank
    let vs : Instr := .vset (nh .ki [c0] [c0]) 0#3 0#12 0#12 false false
    let st := nodeSt (nd vs [] { m with left0 := [0x3_3F800000#64] } [row 4 .n8 0x4000]) Mantle.blank .mere
    entOf (.tomb (nh .ki [c0] [c0]) 0#3 0#12) [0x1_3F800000#64] [] m [row 4 .n8 0x4000] [2] = some [] ∧
    entOf (.tomb (nh .ki [c0] [c0]) 0#3 0#12) [0x2_3F800000#64] [] m [row 4 .n8 0x4000] [2] = some [0x2_3F800000] ∧
    packedAfter (exec vs st) = some [0x3_3F800000] ∧ after (exec vs st) (fun s => s.mem.getN (keyMere 0) 1 == [8#8]) = true ∧
    entOf vs [0x3_3F800000#64] [] m [row 4 .n8 0x4000] [8] .mere = some [] ∧
    entOf (.kipack (nh .f32 [c0] [c0] 1#4) 10#32) [0x3F800000#64] [] { m with n0 := 2 } = some [0xC_3F800000] ∧
    entOf (.fcomp (nh .f32 [c0] [c0]) 0#32) [0x1_80000000#64] = some [] ∧
    entOf (.fcomp (nh .f32 [c0] [c0]) 0#32) [0x1_3F800000#64] = some [0x1_3F800000] := by decide +kernel

end Sys2Proof.Tests
end

