-- ==== Sys2Proof/Tests/Scalar.lean ====
section
/-! SUPPORT. Small tests of the scalar instructions, each on one step; expected values are the spec's or worked by hand from
its rules. -/
namespace Sys2Proof.Tests
set_option Elab.async false
open Sys2Proof.Machine

/-! ## INT, MULDIV, immediates (R137 to R140, R51) -/

/-- The values that two operands give through each instruction of a list. -/
def results (a b : Word) (l : List (Reg → Reg → Reg → Instr)) : List (Option Word) :=
  l.map (fun i => regAfter (i 1#6 2#6 3#6) (coreSt (coreOf [(2#6, a), (3#6, b)])) 1#6)

theorem test_int_wraps :
    results 0xFFFFFFFFFFFFFFFF#64 2#64 [.add, .sub, .and, .or, .xor, .andn, .slt, .sltn, .seq, .min, .max, .minn, .maxn] =
      [1#64, 0xFFFFFFFFFFFFFFFD#64, 2#64, 0xFFFFFFFFFFFFFFFF#64, 0xFFFFFFFFFFFFFFFD#64, 0xFFFFFFFFFFFFFFFD#64, 1#64, 0#64, 0#64,
       0xFFFFFFFFFFFFFFFF#64, 2#64, 2#64, 0xFFFFFFFFFFFFFFFF#64].map some := by decide +kernel

/-- A shift takes the low six bits of its count: 65 shifts by 1. -/
theorem test_shift_counts :
    results 0x8000000000000003#64 65#64 [.sll, .srl, .sra, .ror] =
      [6#64, 0x4000000000000001#64, 0xC000000000000001#64, 0xC000000000000001#64].map some := by decide +kernel

theorem test_counts_of_zero_and_one :
    results 0#64 0#64 [fun d a _ => .clz d a, fun d a _ => .ctz d a, fun d a _ => .popc d a] = [64#64, 64#64, 0#64].map some ∧
    results 0x10#64 0#64 [fun d a _ => .clz d a, fun d a _ => .ctz d a, fun d a _ => .popc d a] = [59#64, 4#64, 1#64].map some := by
  decide +kernel

/-- R51: division by zero, and -2^63 by -1. -/
theorem test_division_corners :
    results 7#64 0#64 [.div, .divn, .rem, .remn] =
      [0xFFFFFFFFFFFFFFFF#64, 0xFFFFFFFFFFFFFFFF#64, 7#64, 7#64].map some ∧
    results 0x8000000000000000#64 0xFFFFFFFFFFFFFFFF#64 [.div, .rem, .mulh, .mulhn, .mul] =
      [0x8000000000000000#64, 0#64, 0#64, 0x7FFFFFFFFFFFFFFF#64, 0x8000000000000000#64].map some ∧
    results (-7#64) 2#64 [.div, .rem] = [(-3#64), (-1#64)].map some := by decide +kernel

theorem test_immediates :
    results 5#64 0#64 [fun d a _ => .addi d a 0x3FFF#14, fun d a _ => .andi d a 0x3FFF#14, fun d a _ => .ori d a 0x2000#14,
      fun d a _ => .xori d a 1#14, fun d a _ => .slti d a 0x3FFF#14, fun d a _ => .sltni d a 0x3FFF#14,
      fun d a _ => .slli d a 63#6, fun d a _ => .srli d a 1#6, fun d a _ => .srai d a 1#6, fun d _ _ => .lui d 0x80000#20,
      fun d _ _ => .lba d 0xFFFFF#20] =
    [4#64, 5#64, 0x2005#64, 4#64, 0#64, 1#64, 0x8000000000000000#64, 2#64, 2#64, 0xFFFFFFFF80000000#64,
     0xFFFFFFFFFFFFFFC0#64].map some := by decide +kernel

/-- R14: a write of g0 is discarded and the block goes on. -/
theorem test_g0_discards :
    regAfter (.addi 0#6 2#6 1#14) (coreSt (coreOf [(2#6, 4#64)])) 0#6 = some 0#64 ∧
    (coreAfter (exec (.addi 0#6 2#6 1#14) (coreSt (coreOf [(2#6, 4#64)])))).map Core.idx = some 1 := by decide +kernel

/-! ## FP (R146 to R149) -/

/-- 1 + 2⁻²⁴ in FP32 rounds to 1 to nearest even and to 1 + 2⁻²³ upward; FP64 1/3; the square root of 2 to nearest. -/
theorem test_fp_rounds :
    results 0x3F800000#64 0x33800000#64 [fun d a b => .fadd d a b true false 0#2, fun d a b => .fsub d a b true false 1#2,
      fun d a b => .fmul d a b true false 0#2] = [0x3F800000#64, 0x3F7FFFFF#64, 0x33800000#64].map some ∧
    results 0x3FF0000000000000#64 0x4008000000000000#64 [fun d a b => .fdiv d a b false false 0#2] = [some 0x3FD5555555555555#64] ∧
    results 0x40000000#64 0#64 [fun d a _ => .fsqrt d a true false 0#2] = [some 0x3FB504F3#64] := by decide +kernel

/-- R55, R146: comparisons with NaN give 0; minimum takes -0 before +0. -/
theorem test_fp_compares :
    results 0x7FC00000#64 0x3F800000#64 [fun d a b => .feq d a b true, fun d a b => .flt d a b true, fun d a b => .fle d a b true] =
      [some 0#64, some 0#64, some 0#64] ∧
    results 0x80000000#64 0#64 [fun d a b => .fmin d a b true, fun d a b => .fmax d a b true, fun d a b => .feq d a b true] =
      [some 0x80000000#64, some 0#64, some 1#64] := by decide +kernel

/-- fma takes its addend from rd, with one rounding: 2·3 + 1 = 7. -/
theorem test_fma :
    regAfter (.fma 1#6 2#6 3#6 true false 0#2) (coreSt (coreOf [(1#6, 0x3F800000#64), (2#6, 0x40000000#64), (3#6, 0x40400000#64)])) 1#6 =
      some 0x40E00000#64 := by decide +kernel

/-- R63: -2.5 toward zero as i32, and 300 saturated to n8. -/
theorem test_cvt :
    results 0xC0200000#64 0#64 [fun d a _ => .cvt d a false 1#2 false .i32 .f32] = [some (-2#64)] ∧
    results 0x43960000#64 0#64 [fun d a _ => .cvt d a false 0#2 true .n8 .f32] = [some 255#64] := by decide +kernel

/-! ## TENS (R141 to R145) -/

/-- The worked use of R143: element (2, 4) of a 3 by 5 tensor with a row stride of 8 elements of 4 bytes. -/
theorem test_tensor_reads :
    let s := tensorSt (coreOf [(2#6, 7#64), (3#6, 1#64), (4#6, 2#64), (5#6, 4#64)]) (tensorAt 0x1000)
    regAfter (.tbase 1#6 2#6) s 1#6 = some 0x1000#64 ∧ regAfter (.tdim 1#6 2#6 3#6) s 1#6 = some 5#64 ∧
    regAfter (.tstr 1#6 2#6 3#6) s 1#6 = some 8#64 ∧ regAfter (.taddr 1#6 2#6 4#6) s 1#6 = some 0x1088#64 := by decide +kernel

theorem test_tensor_misses :
    let s := tensorSt (coreOf [(2#6, 8#64)]) (tensorAt 0x1000)
    regAfter (.tbase 1#6 2#6) s 1#6 = some 0xFFFFFFFFFFFFFFFF#64 ∧ regAfter (.tinfo 1#6 2#6) s 1#6 = some 0#64 := by decide +kernel

/-- R141: tile (1, 1) of the fen at offset 0x7FFFF, and the traps of a designator outside the fen and of an offset. -/
theorem test_mksa :
    regAfter (.mksa 1#6 2#6 3#6) (coreSt (coreOf [(2#6, 0x11#64), (3#6, 0x7FFFF#64)])) 1#6 = some (scr 1 1 0x7FFFF) ∧
    causeAfter (exec (.mksa 1#6 2#6 3#6) (coreSt (coreOf [(2#6, 0x20#64)]))) = some 10 ∧
    causeAfter (exec (.mksa 1#6 2#6 3#6) (coreSt (coreOf [(3#6, 0x80000#64)]))) = some 10 := by decide +kernel

/-! ## Control registers, control transfer, traps -/

/-- R16: csr.fenstat of a running fen; a csrw of ones clears STATUS at commit only. -/
theorem test_csr :
    regAfter (.csrr 1#6 0#12) (coreSt (coreOf [])) 1#6 = some 0x0200000000000000#64 ∧
    regAfter (.csrx 1#6 2#6 0x10#12) (coreSt (coreOf [(2#6, 7#64)])) 1#6 = some 0#64 ∧
    (coreAfter (exec (.csrw 0x10#12 2#6) (coreSt (coreOf [(2#6, 7#64)])))).map (fun c => (c.locRm, c.rm)) = some (3#2, 0#2) ∧
    causeAfter (exec (.csrw 0x12#12 2#6) (coreSt (coreOf []))) = some 2 := by decide +kernel

/-- R157, R158: a branch back by two fetch blocks; a call's link; jr reads its target before it writes. -/
theorem test_branches :
    let c := { coreOf [(2#6, 0x240#64)] [0#32] with pc := 0x200#64 }
    (coreAfter (exec (.br .gtz 2#6 0x1FFFE#17) (coreSt c))).map (fun c => (c.exit, c.idx)) = some (some 0x180#64, 1) ∧
    (coreAfter (exec (.br .lez 2#6 0x1FFFE#17) (coreSt { c with words := [0#32, 0#32] }))).map (fun c => (c.exit, c.idx)) = some (none, 1) ∧
    regAfter (.call .nez 2#6 1#17) (coreSt c) 63#6 = some 0x240#64 ∧
    (coreAfter (exec (.jr 2#6 2#6) (coreSt { c with pc := 0x1000#64 }))).map (fun c => (c.exit, c.get 2#6)) =
      some (some 0x240#64, 0x1040#64) := by decide +kernel

/-- R186, R187, R19: trap 5, and tret to the block that trapped; without a handler the task ends. -/
theorem test_traps :
    (coreAfter (exec (.trap 5#10) (coreSt { coreOf [] with pc := 0x200#64 }))).map
      (fun c => (c.trapcause, c.trapval, c.trapblk, c.pc)) = some (9#64, 5#64, 0x200#64, 0x1000#64) ∧
    (coreAfter (exec .tret (coreSt { coreOf [] with trapblk := 0x200#64 }))).map Core.exit = some (some 0x200#64) ∧
    after (exec (.trap 5#10) (coreSt { coreOf [] with trapvec := 0#64 }))
      (fun t => (t.fens[0]?).any (fun x => x.state == 7 && x.status == 0x0200#16)) = true := by decide +kernel

theorem test_halt_wfe_sev :
    (coreAfter (exec .halt (coreSt (coreOf [] [0#32])))).map (fun c => (c.halting, c.idx)) = some (true, 1) ∧
    (coreAfter (exec .wfe (coreSt (coreOf [])))).map (fun c => (c.wfe, c.idx)) = some (some 0, 0) ∧
    (coreAfter (exec .wfe (coreSt { coreOf [] with flag := true }))).map Core.idx = some 1 ∧
    (coreAfter (exec .sev (coreSt (coreOf [])))).map (fun c => c.effs.length) = some 1 := by decide +kernel

/-! ## Loads, stores, ordering -/

/-- R151: sizes and extensions; R132: a load sees the block's own store. -/
theorem test_scratch_loads :
    let s := State.withBytes (coreSt (coreOf [(2#6, scr 0 1 16)])) (keyScratch ⟨0, 1, 2⟩ 16) [0x80#8, 0xFF#8, 1#8]
    regAfter (.ld 1#6 2#6 .i8 .none 0#9) s 1#6 = some 0xFFFFFFFFFFFFFF80#64 ∧ regAfter (.ld 1#6 2#6 .n8 .none 1#9) s 1#6 = some 0xFF#64 ∧
    regAfter (.ld 1#6 2#6 .i16 .none 0#9) s 1#6 = some 0xFFFFFFFFFFFFFF80#64 ∧ regAfter (.ld 1#6 2#6 .n32 .none 0#9) s 1#6 = some 0x1FF80#64 := by
  decide +kernel

theorem test_store_then_load :
    let s := coreSt (coreOf [(2#6, scr 0 1 16), (3#6, 0xABCD#64)])
    after (exec (.st 3#6 2#6 .n16 .none 1#9) s)
      (fun t => regAfter (.ld 1#6 2#6 .n32 .none 0#9) t 1#6 == some 0xABCD0000#64 && decide (t.mem = s.mem)) = true := by decide +kernel

/-- R22, R155: a keep of an empty granule waits; the same granule full is read. -/
theorem test_keep_waits :
    let s := coreSt (coreOf [(2#6, scr 0 1 16)])
    after (exec (.ld 1#6 2#6 .n8 .keep 0#9) s) (fun t => decide (t = s)) = true ∧
    regAfter (.ld 1#6 2#6 .n8 .keep 0#9) (s.updMem (fun m => m.mark (keyScratch ⟨0, 1, 2⟩ 16 / 16) 1 true)) 1#6 = some 0#64 ∧
    after (exec (.st 1#6 2#6 .n8 .set 0#9) (s.updMem (fun m => m.mark (keyScratch ⟨0, 1, 2⟩ 16 / 16) 1 true)))
      (fun t => decide (t.fens = s.fens)) = true := by decide +kernel

/-- R150: a misaligned address, a non-canonical one, a tile outside the fen, a full/empty access to global memory. -/
theorem test_address_traps :
    causeAfter (exec (.ld 1#6 2#6 .n16 .none 0#9) (coreSt (coreOf [(2#6, 1#64)]))) = some 4 ∧
    causeAfter (exec (.ld 1#6 2#6 .n16 .none 0#9) (coreSt (coreOf [(2#6, 0x1000000000001#64)]))) = some 10 ∧
    causeAfter (exec (.st 1#6 2#6 .n16 .none 0#9) (coreSt (coreOf [(2#6, scr 2 0 0)]))) = some 10 ∧
    causeAfter (exec (.ld 1#6 2#6 .n16 .keep 0#9) (coreSt (coreOf []))) = some 10 := by decide +kernel

/-- R152, R169: a load fills the data cache; lda at fen scope empties it. -/
theorem test_cached_load :
    let s := State.withBytes (mapSt (coreOf [(2#6, 0x4008#64)]) [tlbAt ⟨0, 0, 1⟩ 0x4000 .spread 0] [0]) (keySpread 8) [7#8]
    regAfter (.ld 1#6 2#6 .d64 .none 0#9) s 1#6 = some 7#64 ∧
    (coreAfter (exec (.ld 1#6 2#6 .d64 .none 0#9) s)).map (fun c => c.dcache.map (fun l => l.1)) = some [0x4000] ∧
    (coreAfter (exec (.lda false 1#6 2#6 1#3) s)).map (fun c => (c.get 1#6, c.dcache)) = some (7#64, []) := by decide +kernel

/-- R165, R168: a scope beyond csr.scopecap is reduced and reported. -/
theorem test_scope_clamped :
    (coreAfter (exec (.fence 5#3) { coreSt (coreOf []) with dev := { State.reset.dev with funcs := [(0, 0x20#128)] } })).map Core.stat =
      some 0x400#32 ∧
    (coreAfter (exec (.stl true 2#6 3#6 1#3) (coreSt (coreOf [(2#6, scr 0 0 4)])))).map (fun c => c.effs.length) = some 1 := by decide +kernel

/-! ## Non-revocable operations -/

/-- The state in which the core performs its granted operation. -/
def grantedSt (c : Core) (p : Prep) : State := coreSt { c with phase := .granted, prep := some p }

/-- R170: each read-modify-write of 10 and -3 (32 bits) at a scratch word; the old value returns. -/
theorem test_atomics :
    let p : Prep := ⟨scr 0 0 8, (-3#64), 10#64, scratchPhys ⟨0, 1, 1⟩ 8, 0, [], [], 0⟩
    let s := State.withBytes (grantedSt (coreOf []) p) (keyScratch ⟨0, 1, 1⟩ 8) [10#8]
    [Instr.cas true 1#6 2#6 3#6 0#3, .amoAdd true 1#6 2#6 3#6 0#3, .amoAnd true 1#6 2#6 3#6 0#3, .amoOr true 1#6 2#6 3#6 0#3,
     .amoXor true 1#6 2#6 3#6 0#3, .amoMin true 1#6 2#6 3#6 0#3, .amoMax true 1#6 2#6 3#6 0#3, .amoMinn true 1#6 2#6 3#6 0#3,
     .amoMaxn true 1#6 2#6 3#6 0#3, .amoSwap true 1#6 2#6 3#6 0#3].map (fun i =>
       match exec i s with
       | .next t => (leNat (t.mem.getN (keyScratch ⟨0, 1, 1⟩ 8) 4), (regAfter i s 1#6).map BitVec.toNat)
       | _ => (0, none)) =
    [0xFFFFFFFD, 7, 8, 0xFFFFFFFF, 0xFFFFFFF7, 0xFFFFFFFD, 10, 10, 0xFFFFFFFD, 0xFFFFFFFD].map (fun v => (v, some 10)) := by decide +kernel

/-- R30: an arrival that completes a phase flips PHASE and reloads ARRPEND from EXPARR; barv returns the old PHASE. -/
theorem test_barrier_flips :
    let k := keyScratch ⟨0, 1, 1⟩ 32
    let p : Prep := ⟨scr 0 0 32, 0#64, 0#64, scratchPhys ⟨0, 1, 1⟩ 32, 0, [], [], 0⟩
    let b : Bar := { phase := false, arr := 1, tx := 0, init := true, scope := 0, exparr := 2, cur := 0, last := 0, phases := 0 }
    let s := State.withBytes (grantedSt (coreOf []) p) k (b.toBytes (List.replicate 32 0#8))
    after (exec (.barv 1#6 2#6) s) (fun t => (t.bar k).phase && (t.bar k).arr == 2 && (t.bar k).phases == 1) = true ∧
    regAfter (.barv 1#6 2#6) s 1#6 = some 0#64 ∧
    after (exec (.bexp 2#6 3#6) s) (fun t => !(t.bar k).phase && (t.bar k).arr == 1) = true := by decide +kernel

/-- R174: bwait for a phase that has not ended waits; for the other it reads LASTSTAT. -/
theorem test_bwait :
    let k := keyScratch ⟨0, 1, 1⟩ 32
    let b : Bar := { phase := true, arr := 2, tx := 0, init := true, scope := 0, exparr := 2, cur := 0, last := 0x40#32, phases := 1 }
    let s := State.withBytes (coreSt (coreOf [(2#6, scr 0 0 32), (3#6, 1#64)])) k (b.toBytes (List.replicate 32 0#8))
    after (exec (.bwait 1#6 2#6 3#6 0#3) s) (fun t => decide (t = s)) = true ∧ regAfter (.bwait 1#6 2#6 4#6 0#3) s 1#6 = some 0x40#64 ∧
    causeAfter (exec (.binit 2#6 4#6 0#3) s) = some 2 := by decide +kernel

/-- A queue of two elements of 8 bytes at a key of HBM. -/
def qcbOf (head tail : Nat) : Qcb :=
  Qcb.seal (BitVec.ofNat 512 (0x5000 + head * 2 ^ 64 + tail * 2 ^ 96 + 2 * 2 ^ 128 + 1 * 2 ^ 160 + 2 ^ 176 + 2 * 2 ^ 192))

/-- R176: an enqueue moves the element and advances TAIL; a dequeue of an empty queue answers code 1. -/
theorem test_queue_moves :
    let p : Prep := ⟨0x4000#64, scr 0 0 8, 0#64, ⟨.spread, keySpread 0, 0, 0, 0, 0⟩, 1, [scratchPhys ⟨0, 1, 1⟩ 8], [], 0⟩
    let s := { grantedSt (coreOf []) p with xl := { State.reset.xl with tlbs := [tlbAt ⟨0, 0, 1⟩ 0x5000 .spread 4096] } }
    let s := State.withBytes (State.withBytes s (keySpread 0) (toLE 64 (qcbOf 0 0).toNat)) (keyScratch ⟨0, 1, 1⟩ 8) [9#8]
    after (exec (.qtenq 1#6 2#6 3#6) s) (fun t => Qcb.tail (t.qcb (keySpread 0)) == 1 && Qcb.free (t.qcb (keySpread 0)) == 1 &&
      t.mem.getN (keySpread 4096) 2 == [9#8, 0#8]) = true ∧
    regAfter (.qtdeq 1#6 2#6 3#6) s 1#6 = some 1#64 := by decide +kernel

/-- R161: an atomic is prepared first, and nothing is written. -/
theorem test_claim_prepares :
    let s := coreSt (coreOf [(2#6, scr 0 0 8), (3#6, 5#64)])
    after (exec (.amoAdd false 1#6 2#6 3#6 0#3) s) (fun t => decide (t.mem = s.mem) &&
      (t.fens[0]?).any (fun x => x.core.prep.any (fun p => p.b == 5#64) && x.core.idx == 1)) = true := by decide +kernel

/-- The writable bits of a ring descriptor, from the table of R24: V; CONS, PROD, POPN; TID; TILE; BASE; SZM1, CNTM1; TAIL;
HEAD. -/
theorem test_ring_written :
    Ring.rw = 0x0000000000000000_8000000000000FFF_0FFF07FF0007FFF0_000FFFFF01FF01FF#256 := by decide

end Sys2Proof.Tests
end

