-- ==== Sys2Proof/Tests/Witness3.lean ====
section
/-! SUPPORT. Witnesses for the statements about nodes, clause by clause: concrete states that meet the hypotheses. -/
namespace Sys2Proof.Tests
set_option Elab.async false
open Sys2Proof.Machine

/-! ## The conditions of a node's turn, as tests on a state -/

/-- The conditions of `State.Turn` besides the place. -/
def turnB (s : State) (a : NodeAt) : Bool := s.mayFire a && a.rings.all (fun h => !Ring.flt (a.ring h) && a.x.ringOk (a.ring h)) && a.n.mem.owe.isEmpty

theorem turn_of {s : State} {a : NodeAt} (hh : s.nodeHere = some a) (h : turnB s a = true) : s.Turn a := by
  simp only [turnB, Bool.and_eq_true, List.all_eq_true, Bool.not_eq_true', List.isEmpty_iff] at h
  exact ⟨hh, h.1.1, h.1.2, h.2⟩

/-- No input named offers a streamed beat that is not DATA. -/
def dataB (s : State) (a : NodeAt) (ins : List Nat) : Bool :=
  ins.all (fun j => match s.offer a j with | .streamed b => b.typ == 0 | _ => true)

theorem data_of {s : State} {a : NodeAt} {ins : List Nat} (h : dataB s a ins = true) :
    ∀ j ∈ ins, ∀ b, s.offer a j = .streamed b → b.typ = 0 := by
  intro j hj b hb
  have := List.all_eq_true.1 h j hj
  rw [hb] at this
  simpa using this

/-- The conditions of `State.Offers`. -/
def offersB (s : State) (a : NodeAt) (ins : List Nat) (bs : List Beat) : Bool :=
  turnB s a && decide (ins.map (fun j => (s.offer a j).beat?) = bs.map some) && dataB s a ins && s.roomAll a

theorem offers_of {s : State} {a : NodeAt} {ins : List Nat} {bs : List Beat} (hh : s.nodeHere = some a)
    (h : offersB s a ins bs = true) : s.Offers a ins bs := by
  simp only [offersB, Bool.and_eq_true, decide_eq_true_eq] at h
  exact ⟨turn_of hh h.1.1.1, h.1.1.2, data_of h.1.2, h.2⟩

/-- The guard lets the node go. -/
def goesB (a : NodeAt) : Bool := match a.guardTok with | none => true | some (.streamed g) => g.val | _ => false

theorem goes_of {a : NodeAt} (h : goesB a = true) : a.goes := by
  unfold goesB at h
  split at h
  · exact .inl ‹_›
  · exact .inr ⟨_, ‹_›, h⟩
  · cases h

theorem ready_of {s : State} {a : NodeAt} {ins : List Nat} {bs : List Beat} (hh : s.nodeHere = some a)
    (h : (offersB s a ins bs && goesB a) = true) : s.Ready a ins bs := by
  rw [Bool.and_eq_true] at h
  exact ⟨offers_of hh h.1, goes_of h.2⟩

theorem control_of {s : State} {a : NodeAt} {b : Beat} (hh : s.nodeHere = some a)
    (h : (turnB s a && decide (s.offer a 0 = .streamed b) && b.typ != 0 && s.roomAll a) = true) : s.Control a b := by
  simp only [Bool.and_eq_true, decide_eq_true_eq, bne_iff_ne] at h
  exact ⟨turn_of hh h.1.1.1, h.1.1.2, h.1.2, h.2⟩

/-- A reference to a ring. -/
def isRing (r : Ref) : Bool := match r with | .ring _ => true | _ => false

theorem no_ring (l : List Ref) (h : l.all (fun r => !isRing r) = true) (j : Nat) (k : BitVec 5) : (l[j]?).getD .none ≠ .ring k := by
  intro e
  cases hj : l[j]? with
  | none => rw [hj] at e; cases e
  | some r =>
    rw [hj] at e
    have := List.all_eq_true.1 h r (List.mem_of_getElem? hj)
    simp only [Option.getD_some] at e
    rw [e] at this
    cases this

/-- No output of the node is a ring. -/
def wiresB (a : NodeAt) : Bool := a.hdr.outs.all (fun r => !isRing r) && a.n.outq.length == 2

theorem wires_of {a : NodeAt} (h : wiresB a = true) : a.onWires := by
  simp only [wiresB, Bool.and_eq_true, beq_iff_eq] at h
  exact ⟨fun q k => no_ring _ h.1 (q % 2) k, h.2⟩

/-- Input j carries a tile that is ready, its ring's descriptor being d. -/
def tileB (s : State) (a : NodeAt) (j : Nat) (d : Ring) : Bool :=
  match a.inp j with
  | .ring h => decide (a.ring h = d) && decide (1024 * landSize (Tensor.fmt (a.tensor j)) ≤ Ring.bytes d) && !Ring.flt d && s.ringFilled a.x d 1
  | _ => false

/-- The conditions of `State.MatReady`. -/
def matB (s : State) (a : NodeAt) (ins : List (Nat × Ring)) : Bool :=
  turnB s a && !a.n.mem.b0 && !a.n.mem.b1 && !a.n.mem.b2 && (!a.n.mem.bad && !a.n.mem.parity) && ins.all (fun p => tileB s a p.1 p.2) && goesB a &&
    s.roomAll a && s.mem.poison.isEmpty && (s.mem.fixed.isEmpty && s.mem.transit.isEmpty) && s.mem.wf && decide a.rings.Nodup

theorem mat_of {s : State} {a : NodeAt} (ins : List (Nat × Ring)) (hh : s.nodeHere = some a) (h : matB s a ins = true) :
    s.MatReady a (ins.map (fun p => p.1)) := by
  simp only [matB, Bool.and_eq_true, Bool.not_eq_true', List.isEmpty_iff, decide_eq_true_eq] at h
  obtain ⟨⟨⟨⟨⟨⟨⟨⟨⟨⟨⟨ht, h0⟩, h1⟩, h2⟩, hb⟩, hi⟩, hg⟩, hr⟩, hp⟩, hf⟩, hm⟩, ho⟩ := h
  refine ⟨turn_of hh ht, ho, ⟨h0, h1, h2, hb⟩, ?_, goes_of hg, hr, ⟨hp, hf⟩, hm⟩
  intro j hj
  obtain ⟨p, hp, rfl⟩ := List.mem_map.1 hj
  have := List.all_eq_true.1 hi p hp
  unfold tileB at this
  split at this
  · simp only [Bool.and_eq_true, decide_eq_true_eq, Bool.not_eq_true'] at this
    rw [← this.1.1.1] at this
    exact ⟨_, ‹_›, this.1.1.2, this.1.2, this.2⟩
  · cases this

theorem items_of {s : State} {a : NodeAt} {w : Nat} (hh : s.nodeHere = some a)
    (h : (turnB s a && s.roomAll a && decide (a.n.mem.pack0.length < 256 / w ∧ a.n.mem.pack1.length < 256 / w)) = true) :
    s.Items a w := by
  simp only [Bool.and_eq_true, decide_eq_true_eq] at h
  exact ⟨turn_of hh h.1.1, h.1.2, h.2⟩

/-- The conditions of `State.HeadAt`. -/
def headB (s : State) (a : NodeAt) (e : WinEl) (r : List WinEl) : Bool :=
  turnB s a && decide (a.n.mem.win = e :: r) && wiresB a && s.xl.retried.isEmpty && s.mem.poison.isEmpty && (s.mem.fixed.isEmpty && s.mem.transit.isEmpty) &&
    s.mem.wf && !a.n.mem.bad && !e.bad

theorem head_of {s : State} {a : NodeAt} {e : WinEl} {r : List WinEl} (hh : s.nodeHere = some a) (h : headB s a e r = true) :
    s.HeadAt a e r := by
  simp only [headB, Bool.and_eq_true, Bool.not_eq_true', List.isEmpty_iff, decide_eq_true_eq] at h
  obtain ⟨⟨⟨⟨⟨⟨⟨⟨ht, hl⟩, hw⟩, hr⟩, hp⟩, hf⟩, hm⟩, hb⟩, he⟩ := h
  exact ⟨turn_of hh ht, hl, wires_of hw, ⟨hr, ⟨hp, hf⟩, hm⟩, hb, he⟩

theorem elem_of {s : State} {a : NodeAt} {e : WinEl} {r : List WinEl} (hh : s.nodeHere = some a)
    (h : (headB s a e r && (e.got.isNone && e.home.isNone)) = true) : s.ElemAt a e r := by
  simp only [Bool.and_eq_true, Option.isNone_iff_eq_none] at h
  exact ⟨head_of hh h.1, h.2⟩

/-- The conditions of `State.Finds` at a place of global memory, and of scratch. -/
def findsB (s : State) (a : NodeAt) (rq : Req) (acc : Acc) (va n : Nat) (g : Nat) (ph : Phys) : Bool :=
  decide (a.x.space a.n.tile va = .global g) && reachesB s a.x rq acc g n ph
def findsScrB (s : State) (a : NodeAt) (rq : Req) (va n : Nat) (t : Tile) (o : Nat) : Bool :=
  decide (a.x.space a.n.tile va = .scratch t o) && freelyNow s rq (scratchPhys t o) n

theorem finds_of {s : State} {a : NodeAt} {rq : Req} {acc : Acc} {va n g : Nat} {ph : Phys} (h : findsB s a rq acc va n g ph = true) :
    s.Finds a rq acc va n ph.key := by
  simp only [findsB, Bool.and_eq_true, decide_eq_true_eq] at h
  exact .inr ⟨g, ph, h.1, reaches_of h.2, rfl⟩

theorem finds_scr {s : State} {a : NodeAt} {rq : Req} {acc : Acc} {va n : Nat} {t : Tile} {o : Nat} (h : findsScrB s a rq va n t o = true) :
    s.Finds a rq acc va n (keyScratch t o) := by
  simp only [findsScrB, Bool.and_eq_true, decide_eq_true_eq] at h
  exact .inl ⟨t, o, h.1, freely_of h.2, rfl⟩

theorem global_of {s : State} {a : NodeAt} {e : WinEl} {acc : Acc} {size n g : Nat} {ph : Phys}
    (h : (decide (e.addr.toNat % size = 0) && findsB s a (a.elReq e) acc (e.addr.toNat + e.off) n g ph) = true) :
    s.Locates a e acc size n ph.key := by
  rw [Bool.and_eq_true, decide_eq_true_eq] at h
  exact ⟨h.1, finds_of h.2⟩

theorem scratch_of {s : State} {a : NodeAt} {e : WinEl} {acc : Acc} {size n : Nat} {t : Tile} {o : Nat}
    (h : (decide (e.addr.toNat % size = 0) && findsScrB s a (a.elReq e) (e.addr.toNat + e.off) n t o) = true) :
    s.Locates a e acc size n (keyScratch t o) := by
  rw [Bool.and_eq_true, decide_eq_true_eq] at h
  exact ⟨h.1, finds_scr h.2⟩

/-- Where the address 0x4000 lies. -/
def ph0 (typ : MemType := .spread) : Phys := ⟨typ, if typ = .mere then keyMere 0 else keySpread 0, 0x4000, 0, 0, 0⟩

/-- A node is ready for a DATA firing, offers a control beat, or has its turn, at the small state of its own. -/
abbrev Rdy (n : Node) (ins : List Nat) (bs : List Beat) : Prop := (nodeSt n).Ready (nodeAtOf n) ins bs
abbrev Ctl (n : Node) (b : Beat) : Prop := (nodeSt n).Control (nodeAtOf n) b
abbrev Trn (n : Node) : Prop := (nodeSt n).Turn (nodeAtOf n)
abbrev Its (n : Node) (w : Nat) : Prop := (nodeSt n).Items (nodeAtOf n) w
/-- What input j of that node offers, and what stands there. -/
abbrev off (n : Node) (j : Nat) : Offer := (nodeSt n).offer (nodeAtOf n) j
abbrev itm (n : Node) (j : Nat) : Item := (nodeSt n).item (nodeAtOf n) j

theorem rdy_of {n : Node} {ins : List Nat} {bs : List Beat} (h : (offersB (nodeSt n) (nodeAtOf n) ins bs && goesB (nodeAtOf n)) = true) :
    Rdy n ins bs := ready_of rfl h
theorem ctl_of {n : Node} {b : Beat} (h : (turnB (nodeSt n) (nodeAtOf n) && decide (off n 0 = .streamed b) && b.typ != 0 &&
    (nodeSt n).roomAll (nodeAtOf n)) = true) : Ctl n b := control_of rfl h
theorem trn_of {n : Node} (h : turnB (nodeSt n) (nodeAtOf n) = true) : Trn n := turn_of rfl h
theorem its_of {n : Node} {w : Nat} (h : (turnB (nodeSt n) (nodeAtOf n) && (nodeSt n).roomAll (nodeAtOf n) &&
    decide (n.mem.pack0.length < 256 / w ∧ n.mem.pack1.length < 256 / w)) = true) : Its n w := items_of rfl h

/-- A DATA beat of ones, a stop of level 0, a DONE beat. -/
def dB : Beat := lanes 32 [1, 1]
def sB : Beat := ctlBeat 1
def eB : Beat := ctlBeat 9
/-- A node's memory at the start of a phase. -/
def m0 : NodeMem := NodeMem.blank

/-! ## Element-wise nodes and firings -/

/-- ElementNodes: every node of the table, ready on beats of zeros. -/
theorem witness_ElementNodes : ∀ r ∈ elementTable (n3 .f32),
    Rdy (nd r.1 [[lanes 32 []], [lanes 32 []], [lanes 32 []]]) (List.range r.2.1) (List.replicate r.2.1 (lanes 32 [])) := by
  intro r hr
  apply rdy_of
  revert r hr
  decide +kernel

/-- NodeFiring: an operand missing; a guard's token missing; no room; a false guard; beats of two types; agreed control beats. -/
theorem witness_NodeFiring :
    let i : Instr := .vadd (n2 .f32)
    let g : Instr := .vadd (nh .f32 [c0, c1] [c0] 0#4 (.reed 3#2 0#4))
    let full := { nd i [[dB], [dB]] with outq := [List.replicate 4 dB, []] }
    Trn (nd i [[dB]]) ∧ off (nd i [[dB]]) 1 = .empty ∧
    Trn (nd g [[dB], [dB]]) ∧ (nodeAtOf (nd g [[dB], [dB]])).guardTok = some .empty ∧
    (nodeSt full).roomAll (nodeAtOf full) = false ∧ (nodeAtOf full).goes ∧ Trn full ∧
    (nodeSt (nd g [[dB], [dB], [], [], [reedTok false]])).Offers (nodeAtOf (nd g [[dB], [dB], [], [], [reedTok false]])) [0, 1] [dB, dB] ∧
    (nodeAtOf (nd g [[dB], [dB], [], [], [reedTok false]])).off ∧
    off (nd i [[sB], [dB]]) 0 = .streamed sB ∧ off (nd i [[sB], [dB]]) 1 = .streamed dB ∧ sB.typ ≠ dB.typ ∧
    Trn (nd i [[sB], [sB]]) ∧ off (nd i [[sB], [sB]]) 1 = .streamed sB :=
  ⟨trn_of (by decide +kernel), by decide +kernel, trn_of (by decide +kernel), by decide +kernel, by decide +kernel,
   goes_of (by decide +kernel), trn_of (by decide +kernel), offers_of rfl (by decide +kernel), ⟨reedTok false, by decide +kernel, rfl⟩,
   by decide +kernel, by decide +kernel, by decide +kernel, trn_of (by decide +kernel), by decide +kernel⟩

/-- FiringEffects: a node on wires that owes nothing; a fen; a trap of a running core's fen and of a halted core's. -/
theorem witness_FiringEffects :
    let n := nd (.vadd (n2 .f32)) [[dB], [dB]]
    (nodeSt n).nodeHere = some (nodeAtOf n) ∧ n.mem.owe = [] ∧ n.st ≠ .trapped ∧ n.outq.length = 2 ∧ [0, 1].Nodup ∧
    (∀ j h, (nodeAtOf n).inp j ≠ .ring h) ∧ (∀ q h, (nodeAtOf n).outp q ≠ .ring h) ∧
    n.opc < 256 ∧ n.slot < 256 ∧ (nodeAtOf n).named.desig < 2 ^ 11 ∧ (nodeFen n).core.phase ≠ .halted ∧ (nodeFen n).live = true ∧
    (nodeFen n).term = none ∧ ({ coreOf [] with phase := .halted } : Core).phase = .halted :=
  ⟨rfl, by decide +kernel, by decide +kernel, by decide +kernel, by decide +kernel, no_ring _ (by decide +kernel),
   (wires_of (by decide +kernel)).1, by decide +kernel, by decide +kernel, by decide +kernel, by decide +kernel, by decide +kernel,
   by decide +kernel, rfl⟩

/-! ## Vectors -/

/-- VectorShapes: each node ready for its data, and for its control beats. -/
theorem witness_VectorShapes :
    let h : NodeHdr := nh .i32 [c0, c1, c2] [c0]
    let v : NodeHdr := nh .i32 [c0] [c0] 1#4
    let w : NodeHdr := nh .i32 [c0] [c0] 2#4
    let run := { m0 with b0 := true, vals := List.replicate 8 1#64 }
    Rdy (nd (.vcmp (nh .i32 [c0, c1] [c0, r0]) 2#3 true) [[dB], [dB]]) [0, 1] [dB, dB] ∧
    Rdy (nd (.sel (nh .i32 [c0, c1, r2] [c0])) [[dB], [dB], [reedTok true]]) [0, 1] [dB, dB] ∧
    (nodeAtOf (nd (.sel (nh .i32 [c0, c1, r2] [c0])) [[dB], [dB], [reedTok true]])).tokenIn 2 = true ∧
    Rdy (nd (.sel h) [[dB], [dB], [dB]]) [0, 1, 2] [dB, dB, dB] ∧ (nodeAtOf (nd (.sel h) [[dB], [dB], [dB]])).tokenIn 2 = false ∧
    Rdy (nd (.cvtNode h .f32 0#12 0#12) [[dB]]) [0] [dB] ∧ Ctl (nd (.cvtNode h .f32 0#12 0#12) [[sB]] { m0 with pack0 := [1#64] }) sB ∧
    Rdy (nd (.vperm (nh .i8 [c0, c1] [c0])) [[dB], [dB]]) [0, 1] [dB, dB] ∧
    Rdy (nd (.vred h 0#3 0#3) [[dB]]) [0] [dB] ∧ Rdy (nd (.vred v 0#3 0#3) [[dB]] run) [0] [dB] ∧ run.vals.length = 256 / 32 ∧
    Ctl (nd (.vred h 0#3 0#3) [[sB]]) sB ∧ Ctl (nd (.vred v 0#3 1#3) [[sB]]) sB ∧ ¬endsSegment 1 sB ∧
    Ctl (nd (.vred v 0#3 0#3) [[sB]] run) sB ∧ Ctl (nd (.vred w 0#3 0#3) [[eB]] run) eB ∧ endsSegment 0 sB ∧ endsSegment 7 eB ∧
    Rdy (nd (.vscan v 0#3 0#3) [[dB]] run) [0] [dB] ∧ Ctl (nd (.vscan v 0#3 0#3) [[sB]] run) sB ∧
    Rdy (nd (.vbcast h 7#5) [[dB]]) [0] [dB] ∧ (7#5).toNat < 256 / 32 :=
  ⟨rdy_of (by decide +kernel), rdy_of (by decide +kernel), by decide +kernel, rdy_of (by decide +kernel), by decide +kernel,
   rdy_of (by decide +kernel), ctl_of (by decide +kernel), rdy_of (by decide +kernel), rdy_of (by decide +kernel),
   rdy_of (by decide +kernel), by decide +kernel, ctl_of (by decide +kernel), ctl_of (by decide +kernel), by decide +kernel,
   ctl_of (by decide +kernel), ctl_of (by decide +kernel), by decide +kernel, by decide +kernel, rdy_of (by decide +kernel),
   ctl_of (by decide +kernel), rdy_of (by decide +kernel), by decide +kernel⟩

/-! ## Tiles -/

/-- Where a node over the rings of tiles stands, and its being ready there. -/
abbrev tAt (n : Node) : NodeAt := nodeAtOf n tileMan
abbrev Mat (n : Node) (ins : List Nat) : Prop := (tileSt n []).MatReady (tAt n) ins

/-- The filled rings. -/
def q0 : Ring := ringAt 1 64 0x1000 0 1 0 0
def q1 : Ring := ringAt 1 64 0x2000 0 1 0 0
def q4 : Ring := ringAt 1 64 0x3000 0 1 0 0

theorem mat_here {n : Node} (ins : List (Nat × Ring)) (h : matB (tileSt n []) (tAt n) ins = true) :
    Mat n (ins.map (fun p => p.1)) := mat_of ins rfl h

theorem tile_to {a : NodeAt} {p z : Nat} {h : BitVec 5}
    (hb : (decide (a.outp p = .ring h ∧ 1024 * z ≤ Ring.bytes (a.ring h)) && a.hdr.ins.all (fun r => r != .ring h)) = true) :
    a.tileTo p z h := by
  simp only [Bool.and_eq_true, decide_eq_true_eq] at hb
  refine ⟨hb.1.1, hb.1.2, fun j e => ?_⟩
  unfold NodeAt.inp at e
  cases hj : a.hdr.ins[j]? with
  | none => rw [hj] at e; cases e
  | some r =>
    rw [hj] at e
    have := List.all_eq_true.1 hb.2 r (List.mem_of_getElem? hj)
    simp only [Option.getD_some] at e
    rw [e] at this
    simp at this

set_option maxRecDepth 100000

/-- An MMA over two rings, at its first firing and at its last, and one that reads C. -/
def mma0 : Node := nd (.mma (nh .n8 [.ring 0#5, .ring 1#5] [.ring 2#5]) mat0 1#16 false) [] m0 [tfmt .i8, tfmt .i8, tfmt .i8, tfmt .i32, 0]
def mma1 : Node := { mma0 with mem := { m0 with n0 := 1, acc0 := List.replicate 1024 0#64 } }
def mma2 : Node := nd (.mma (nh .n8 [.ring 0#5, .ring 1#5, .ring 4#5] [.ring 2#5]) mat0 0#16 true) [] m0 [tfmt .i8, tfmt .i8, tfmt .i8, tfmt .i32, 0]

/-- MmaFirings: the first firing of an output, with and without C. -/
theorem witness_MmaFirings :
    (mmaFormats (Tensor.fmt (tfmt .i8)) (Tensor.fmt (tfmt .i8))).isSome = true ∧
    (mmaFormats (Tensor.fmt (tfmt .bf16)) (Tensor.fmt (tfmt .bf16))).isSome = true ∧
    Mat mma0 [0, 1] ∧ mma0.mem.n0 ≠ (1#16).toNat ∧ Mat mma2 [0, 1, 2] :=
  ⟨by decide +kernel, by decide +kernel, mat_here [(0, q0), (1, q1)] (by decide +kernel), by decide +kernel,
   mat_here [(0, q0), (1, q1), (2, q4)] (by decide +kernel)⟩

/-- MmaFirings: the last firing, with its ring. -/
theorem witness_MmaFirings_last :
    Mat mma1 [0, 1] ∧ mma1.mem.n0 = (1#16).toNat ∧ mma1.mem.acc0.length = 1024 ∧
    (tAt mma1).tileTo 0 (landSize (Tensor.fmt ((tAt mma1).tensor 3))) 2#5 :=
  ⟨mat_here [(0, q0), (1, q1)] (by decide +kernel), by decide +kernel, by decide +kernel, tile_to (by decide +kernel)⟩

/-- A tile of zeros. -/
def z1024 : List Word := List.replicate 1024 0#64

theorem inloop_of {s : State} {a : NodeAt} (hh : s.nodeHere = some a)
    (h : (turnB s a && decide a.rings.Nodup && a.n.mem.b0 && !a.n.mem.b1 && !a.n.mem.b2 && (!a.n.mem.bad && !a.n.mem.parity) && s.mem.wf) = true) : s.InLoop a := by
  simp only [Bool.and_eq_true, Bool.not_eq_true', decide_eq_true_eq] at h
  obtain ⟨⟨⟨⟨⟨⟨ht, ho⟩, h0⟩, h1⟩, h2⟩, hb⟩, hm⟩ := h
  exact ⟨turn_of hh ht, ho, ⟨h0, h1, h2, hb⟩, hm⟩

abbrev InL (n : Node) : Prop := (tileSt n []).InLoop (tAt n)

/-- An MPOLY in the midst of a firing: m coefficients left, k steps of the product done. -/
def mpo (m k : Nat) : Node :=
  nd (.mpoly (nh .n8 [.ring 0#5] [.ring 2#5]) mat0 2#3) [] { m0 with b0 := true, n0 := m, n2 := k, acc0 := z1024, acc1 := z1024, temp := [z1024] }
    [tfmt .i8, 0, 0, tfmt .f32, 0]

/-- FiringEffects: a node whose rings pass their checks, none named twice. -/
theorem witness_FiringEffects_rings :
    (tileSt mma0 []).Turn (tAt mma0) ∧ (tAt mma0).rings.Nodup ∧ 0 < Ring.n q0 :=
  ⟨turn_of rfl (by decide +kernel), by decide +kernel, by decide +kernel⟩

/-- TileFunctions: MTRN and MPOLY with tile and ring; MPOLY's first and last step and its end; MITER's beginning in two variants. -/
theorem witness_TileFunctions :
    let tens := [tfmt .i8, 0, tfmt .i8, tfmt .f32, 0]
    let h : NodeHdr := nh .n8 [.ring 0#5] [.ring 2#5]
    let h2 : NodeHdr := nh .n8 [.ring 0#5, .none, .ring 1#5] [.ring 2#5] 1#4
    let tr := nd (.mtrn h mat0) [] m0 [tfmt .i8, 0, 0, tfmt .i8, 0]
    let po := nd (.mpoly h mat0 2#3) [] m0 tens
    Mat tr [0] ∧ (tAt tr).tileTo 0 (landSize (Tensor.fmt (tfmt .i8))) 2#5 ∧ Mat po [0] ∧
    InL (mpo 2 0) ∧ InL (mpo 2 31) ∧ InL (mpo 0 0) ∧ z1024.length = 1024 ∧
    (tAt (mpo 0 0)).tileTo 0 (landSize (Tensor.fmt (tfmt .f32))) 2#5 ∧
    Mat (nd (.miter h mat0 5#16 0 0 false) [] m0 tens) [0] ∧ Mat (nd (.miter h2 mat0 5#16 0 0 false) [] m0 tens) [0, 2] :=
  ⟨mat_here [(0, q0)] (by decide +kernel), tile_to (by decide +kernel), mat_here [(0, q0)] (by decide +kernel),
   inloop_of rfl (by decide +kernel), inloop_of rfl (by decide +kernel), inloop_of rfl (by decide +kernel), by decide +kernel,
   tile_to (by decide +kernel), mat_here [(0, q0)] (by decide +kernel), mat_here [(0, q0), (2, q1)] (by decide +kernel)⟩

/-- A MITER in the midst of a firing: k steps of its iteration done, the residual in FP32. -/
def mit (var : BitVec 4) (k res : Nat) (cap : BitVec 16 := 5#16) (tol lim : BitVec 32 := 0) : Node :=
  nd (.miter (nh .n8 [.ring 0#5, .none, .ring 1#5] [.ring 2#5, .ring 3#5] var) mat0 cap tol lim false) []
    { m0 with b0 := true, n1 := res, n2 := k, acc0 := z1024, acc1 := z1024, temp := [z1024, z1024, z1024] }
    [tfmt .i8, 0, tfmt .i8, tfmt .f32, tfmt .f32] []

/-- TileFunctions: a step of each piece of an iteration, and its end. -/
theorem witness_TileFunctions_steps :
    (∀ p ∈ [(0, 0), (0, 31), (0, 64), (0, 96), (1, 32), (2, 64), (0, 128), (2, 192)], InL (mit (BitVec.ofNat 4 p.1) p.2 0)) ∧
    (loopOps 0)[0 / 32]? = some (.prod 2 0 0 true) ∧ (loopOps 0)[64 / 32]? = some (.comb 3 3 0) ∧
    (loopOps 0)[96 / 32]? = some (.resid 3) ∧ (loopOps 1)[32 / 32]? = some (.less 2 2) ∧ (loopOps 2)[64 / 32]? = some (.times 2 2) ∧
    (loopOps 0)[128 / 32]? = none ∧ (loopOps 2)[192 / 32]? = none ∧ (mit 0#4 0 0).mem.temp.length = 3 ∧
    ∀ t ∈ [0, 1, 2, 3, 4], ((mit 0#4 0 0).mem.tile t).length = 1024 := by
  refine ⟨fun p hp => inloop_of rfl ?_, by decide +kernel⟩
  revert p hp
  decide +kernel

/-- The square a residual is compared with. -/
def sqv (v : BitVec 32) : Val := floatVal .f32 (mulF .f32 0 v.toNat v.toNat).1

/-- TileFunctions: an iteration that goes on or is at its cap, one that meets its tolerance, one that diverges; the rings of one and
of two outputs. -/
theorem witness_TileFunctions_ends :
    let one := floatVal .f32 0x3F800000
    let z := landSize (Tensor.fmt (tfmt .f32))
    one.isNan = false ∧ (sqv 0x7F800000#32).lt one = false ∧ one.lt (sqv 0) = false ∧ one.eqv (sqv 0) = false ∧
    (0 + 1 == (5#16).toNat) = false ∧ (0 + 1 == (1#16).toNat) = true ∧ (floatVal .f32 0).eqv (sqv 0) = true ∧ (sqv 0).lt one = true ∧
    (tAt (mit 0#4 128 0)).tileTo 0 z 2#5 ∧ (tAt (mit 2#4 192 0)).tileTo 0 z 2#5 ∧ (tAt (mit 2#4 192 0)).tileTo 1 z 3#5 ∧
    (2#5 : BitVec 5) ≠ 3#5 ∧ (tAt (mit 2#4 192 0)).hasOut 1 = true :=
  ⟨by decide +kernel, by decide +kernel, by decide +kernel, by decide +kernel, by decide, by decide, by decide +kernel,
   by decide +kernel, tile_to (by decide +kernel), tile_to (by decide +kernel), tile_to (by decide +kernel), by decide +kernel⟩

/-- SortGroups: a beat that does not complete a group, one that does, a control beat. -/
theorem witness_SortGroups :
    let i : Instr := .msort (nh .ki [c0] [c0]) mat0
    let g := { m0 with vals := List.replicate 60 1#64 }
    Rdy (nd i [[dB]]) [0] [dB] ∧ ([] ++ (List.range 4).map (fun k => BitVec.ofNat 64 (lane 64 dB.data k))).length < 64 ∧
    Rdy (nd i [[dB]] g) [0] [dB] ∧ 64 ≤ (g.vals ++ (List.range 4).map (fun k => BitVec.ofNat 64 (lane 64 dB.data k))).length ∧
    Ctl (nd i [[sB]] g) sB ∧ g.b0 = false ∧ g.b1 = false :=
  ⟨rdy_of (by decide +kernel), by decide +kernel, rdy_of (by decide +kernel), by decide +kernel, ctl_of (by decide +kernel),
   rfl, rfl⟩

/-! ## Controllers and streams -/

/-- An offer of no beat from a buffer. -/
def stillB (o : Offer) : Bool := match o with | .streamed _ => false | _ => true

theorem still_of {o : Offer} (h : stillB o = true) : ∀ b, o ≠ .streamed b := by
  intro b e
  rw [e] at h
  cases h

theorem quiet_of {s : State} {a : NodeAt} {l : List Nat} (h : l.all (fun j => stillB (s.offer a j)) = true) :
    ∀ j ∈ l, ∀ b, s.offer a j ≠ .streamed b := fun j hj => still_of (List.all_eq_true.1 h j hj)

/-- The three controllers, with the inputs they have. -/
def ctlrs (ins : List Ref) : List Instr :=
  [.cseq (nh .n8 ins [r0, r1]) 2#32, .cpipe (nh .n8 ins [r0, r1]) 2#32 1#4, .cstrm (nh .n8 ins [r0, r1]) 2#32]

/-- A controller at its beginning by itself and by a token; with an iteration to issue; at its end by count and by an exit
token; with a done token on each input, in place and out of place; with an exit token, in place and out of place. -/
theorem witness_ControllerTurns :
    let T : List Ref → List (List Beat) → NodeMem → Prop := fun ins q m => ∀ i ∈ ctlrs ins, Trn (nd i q m) ∧ (nodeAtOf (nd i q m)).onWires
    let run := { m0 with b0 := true, begun := true }
    let tk := [reedTok true]
    T [] [] m0 ∧ (∀ i ∈ ctlrs [], ∀ j ∈ [1, 2, 3], ∀ b, off (nd i [] m0) j ≠ .streamed b) ∧
    T [r0] [tk] m0 ∧ (∀ i ∈ ctlrs [r0], off (nd i [tk] m0) 0 = .streamed (reedTok true)) ∧
    T [.none, r1] [] run ∧ T [.none, r1] [] { run with n0 := 2, n1 := 2 } ∧ T [.none, r1, .none, r2] [] { run with b1 := true, n0 := 1, n1 := 1, vals := [0#64] } ∧
    T [.none, r1] [[], tk] { run with n0 := 1 } ∧ T [.none, r1] [[], tk] run ∧
    (∀ i ∈ ctlrs [.none, r1], off (nd i [[], tk] run) 1 = .streamed (reedTok true) ∧ ∀ c, off (nd i [[], tk] run) 3 ≠ .streamed c) ∧
    T [.none, .none, r1] [[], [], tk] { run with n0 := 1 } ∧
    (∀ i ∈ ctlrs [.none, .none, r1], off (nd i [[], [], tk] run) 2 = .streamed (reedTok true)) ∧
    T [.none, .none, .none, r1] [[], [], [], tk] run ∧ T [.none, .none, .none, r1] [[], [], [], tk] { run with n0 := 1 } ∧
    T [.none, .none, .none, r1] [[], [], [], tk] { run with n0 := 1, b1 := true } ∧
    T [.none, .none, .none, r1] [[], [], [], [reedTok false]] { run with n0 := 2 } ∧
    (∀ i ∈ ctlrs [.none, .none, .none, r1], off (nd i [[], [], [], tk] run) 3 = .streamed (reedTok true)) := by
  have t : ∀ (ins : List Ref) (q : List (List Beat)) (m : NodeMem),
      ((ctlrs ins).all (fun i => turnB (nodeSt (nd i q m)) (nodeAtOf (nd i q m)) && wiresB (nodeAtOf (nd i q m)))) = true →
      ∀ i ∈ ctlrs ins, Trn (nd i q m) ∧ (nodeAtOf (nd i q m)).onWires := by
    intro ins q m h i hi
    have := List.all_eq_true.1 h i hi
    rw [Bool.and_eq_true] at this
    exact ⟨turn_of rfl this.1, wires_of this.2⟩
  refine ⟨t _ _ _ (by decide +kernel), ?_, t _ _ _ (by decide +kernel), by decide +kernel, t _ _ _ (by decide +kernel),
    t _ _ _ (by decide +kernel), t _ _ _ (by decide +kernel), t _ _ _ (by decide +kernel), t _ _ _ (by decide +kernel), ?_,
    t _ _ _ (by decide +kernel), by decide +kernel, t _ _ _ (by decide +kernel), t _ _ _ (by decide +kernel),
    t _ _ _ (by decide +kernel), t _ _ _ (by decide +kernel), by decide +kernel⟩
  · intro i hi
    apply quiet_of
    revert i hi
    decide +kernel
  · intro i hi
    refine ⟨?_, still_of ?_⟩ <;> (revert i hi; decide +kernel)

/-- StreamNodes: each clause's node at the state its hypotheses ask for. -/
theorem witness_StreamNodes :
    let st : Instr := .steer (nh .n8 [c0, r1] [c0, c1] 1#4)
    let pr : Instr := .prime (nh .n8 [c0, .const 0#8] [c0]) 0#8
    let so : Instr := .source (nh .n8 [c0] [c0]) 2#32 8#4
    let co : Instr := .count (nh .i32 [] [c0]) 3#32 5#32 1#32 8#4
    let si : Instr := .sink (nh .n8 [c0] []) 2#16
    let run := { m0 with b0 := true, begun := true }
    Rdy (nd st [[dB], [reedTok false]]) [0] [dB] ∧ off (nd st [[dB], [reedTok false]]) 1 = .streamed (reedTok false) ∧
    Ctl (nd st [[sB]]) sB ∧ Trn (nd st [[dB]] run) ∧ off (nd st [[dB]] run) 0 = .streamed dB ∧ Ctl (nd st [[eB]] run) eB ∧
    (∀ c, off (nd st [[dB]] run) 1 ≠ .streamed c) ∧
    Trn (nd pr []) ∧ Trn (nd pr [] { run with n0 := 1 }) ∧ (nodeAtOf (nd pr [])).inp 1 = .const 0#8 ∧
    Rdy (nd pr [[dB]] { m0 with begun := true }) [0] [dB] ∧ Ctl (nd pr [[sB]] { m0 with begun := true }) sB ∧
    ((nodeSt (nd pr [] { m0 with begun := true })).activation (nodeAtOf (nd pr [] { m0 with begun := true })) 2).isNone = true ∧
    Trn (nd so []) ∧ Rdy (nd so [[dB]] run) [0] [dB] ∧ Trn (nd so [[dB]] { run with n0 := 2 }) ∧
    Trn (nd co []) ∧ Trn (nd co [] run) ∧ Trn (nd co [] { run with n0 := 3 }) ∧ (nodeAtOf (nd co [] run)).goes ∧
    Rdy (nd si [[dB]]) [0] [dB] ∧ Ctl (nd si [[eB]]) eB ∧ Trn (nd si [] { m0 with n0 := 2 }) ∧
    (nodeAtOf (nd si [])).ending = false ∧ (nodeSt (nd si [])).roomAll (nodeAtOf (nd si [])) = true ∧
    (nodeFen (nd si [])).mantle = some (nodeAtOf (nd si [])).m :=
  ⟨rdy_of (by decide +kernel), by decide +kernel, ctl_of (by decide +kernel), trn_of (by decide +kernel), by decide +kernel,
   ctl_of (by decide +kernel), still_of (by decide +kernel), trn_of (by decide +kernel), trn_of (by decide +kernel),
   by decide +kernel, rdy_of (by decide +kernel), ctl_of (by decide +kernel), by decide +kernel, trn_of (by decide +kernel),
   rdy_of (by decide +kernel), trn_of (by decide +kernel), trn_of (by decide +kernel), trn_of (by decide +kernel),
   trn_of (by decide +kernel), goes_of (by decide +kernel), rdy_of (by decide +kernel), ctl_of (by decide +kernel),
   trn_of (by decide +kernel), by decide +kernel, by decide +kernel, by decide +kernel⟩

/-- StreamNodes: a ring of primed beats. -/
theorem witness_StreamNodes_ring :
    let n := nd (.prime (nh .n8 [c0, .ring 0#5] [c0]) 0#8) [] { m0 with b0 := true, begun := true, n0 := 1 }
    (tileSt n []).Turn (tAt n) ∧ (tileSt n []).roomAll (tAt n) = true ∧ (tileSt n []).offer (tAt n) 1 = .ring (dataBeat 0) :=
  ⟨turn_of rfl (by decide +kernel), by decide +kernel, by decide +kernel⟩

/-- The first fen of a module of one fen. -/
theorem first_of {s : State} {p : Fen → Bool} {x : Fen} (h0 : s.fens[0]? = some x) (h : p x = true) : s.firstFen p 0 x :=
  ⟨h0, h, fun g y hg => absurd hg (by omega)⟩

/-- PhaseSteps: a token of each lane, alone and with its partner; a switch that must wait, one to a mantle, one to the exit. -/
theorem witness_PhaseSteps :
    let x := fenMan (coreOf []) Mantle.blank
    let st : Fen → State := fun x => { coreSt (coreOf []) with fens := [x] }
    let P := fun (s : State) (x : Fen) => x.live && x.term.isNone && !s.fenFrozen x && !x.selq.isEmpty
    let S := fun (s : State) (x : Fen) => s.switchable 0 x && !s.fenFrozen x
    let wire : Wire := ⟨.node ⟨0, 1, 1⟩ 2 0, 1, .node ⟨0, 1, 1⟩ 1 0, 2, false⟩
    let busy := { Mantle.blank with nodes := [nd (.vadd (n2 .f32)) [[dB]], nd (.vadd (n2 .f32)) [] (slot := 2)], wires := [wire] }
    (∀ l ∈ [13, 14, 15], (st { x with selq := [(l, true)] }).firstFen (P (st { x with selq := [(l, true)] })) 0 { x with selq := [(l, true)] }) ∧
    (st { x with selq := [(15, true)], sel14 := [false] }).firstFen (P (st { x with selq := [(15, true)], sel14 := [false] })) 0
      { x with selq := [(15, true)], sel14 := [false] } ∧
    (∀ c ∈ [none, some 1], (st { x with choice := some c }).firstFen (S (st { x with choice := some c })) 0 { x with choice := some c }) ∧
    x.mantle = some Mantle.blank ∧ Mantle.blank.dropDisc.2.drained = true ∧ busy.dropDisc.2.drained = false := by
  refine ⟨fun l hl => first_of rfl ?_, first_of rfl (by decide +kernel), fun c hc => first_of rfl ?_, by decide +kernel,
    by decide +kernel, by decide +kernel⟩
  · revert l hl; decide +kernel
  · revert c hc; decide +kernel

end Sys2Proof.Tests
end

