-- ==== Sys2Proof/Tests/Witness4.lean ====
section
/-! SUPPORT. Witnesses for the statements about nodes that access memory and nodes that work item by item. -/
namespace Sys2Proof.Tests
set_option Elab.async false
open Sys2Proof.Machine

/-! ## Memory nodes -/

/-- A node whose oldest element is e, others behind it, at the small state of its page's type. -/
abbrev Elm (n : Node) (e : WinEl) (r : List WinEl) : Prop := (nodeSt n).ElemAt (nodeAtOf n) e r

theorem elm_of {n : Node} {e : WinEl} {r : List WinEl} (h : (headB (nodeSt n) (nodeAtOf n) e r && (e.got.isNone && e.home.isNone)) = true) : Elm n e r :=
  elem_of rfl h

/-- The two elements at 0x4000 that a window holds, in scratch the same at 0x40. -/
def g0 : WinEl := el 0x4000#64 (toLE 4 1)
def g1 : WinEl := el 0x4000#64 (toLE 4 2) 1 true
def s0 : WinEl := el (scr 0 0 0x40) (toLE 4 1)
def s1 : WinEl := el (scr 0 0 0x40) (toLE 4 2) 1 true
def mE : NodeMem := { m0 with win := [g0, g1], n3 := 1, vals := [1#64, 2#64] }
def mS : NodeMem := { mE with win := [s0, s1] }
/-- The order inputs that are connected have a token. -/
def orderedB (n : Node) : Bool := (nodeAtOf n).orders.all (fun j => off n j != .empty)

/-- MemoryNodes: load at a start, with an order token, under a false guard, at an element in global memory and in scratch, at both
granules of a beat of 32 bytes, at bad addresses, at an element whose data is held. -/
theorem witness_MemoryNodes_load :
    let h : NodeHdr := nh .i32 [c0, .none, .none, r1] [c0, r0]
    let g : NodeHdr := nh .i32 [c0] [c0, r0] 0#4 (.reed 3#2 0#4)
    let v : NodeHdr := nh .i32 [c0] [c0] 1#4
    let a := nd (.load h 0#3) [[dB], [], [], [reedTok true]]
    let f := nd (.load g 0#3) [[dB], [], [], [], [reedTok false]]
    let e := nd (.load h 0#3) [] mE
    let s := nd (.load h 0#3) [] mS
    let hi := { g0 with off := 16 }
    let w := nd (.load v 0#3) [] { mE with win := [g0, hi] }
    let w2 := nd (.load v 0#3) [] { mE with win := [hi] }
    let got := { g0 with got := some ([1#8, 2#8, 3#8, 4#8], 0) }
    Rdy a [0] [dB] ∧ orderedB a = true ∧ (nodeSt f).Offers (nodeAtOf f) [0] [dB] ∧ (nodeAtOf f).off ∧ orderedB f = true ∧
    Elm e g0 [g1] ∧ (nodeSt e).Locates (nodeAtOf e) g0 .read 4 4 (keySpread 0) ∧
    Elm s s0 [s1] ∧ (nodeSt s).Locates (nodeAtOf s) s0 .read 4 4 (keyScratch ⟨0, 1, 1⟩ 0x40) ∧
    Elm w g0 [hi] ∧ (nodeSt w).Locates (nodeAtOf w) g0 .read 32 16 (keySpread 0) ∧
    Elm w2 hi [] ∧ (nodeSt w2).Locates (nodeAtOf w2) hi .read 32 16 (keySpread 16) ∧ 0x4001 % 4 ≠ 0 ∧
    Elm { e with mem := { mE with win := [el 0x4001#64] } } (el 0x4001#64) [] ∧
    (nodeAtOf e).place (el 0x1000000000000#64) = .none ∧ (nodeAtOf e).place (el (scr 0 2 0)) = .badTile ∧
    (nodeSt { e with mem := { mE with win := [got] } }).HeadAt (nodeAtOf { e with mem := { mE with win := [got] } }) got [] :=
  ⟨rdy_of (by decide +kernel), by decide +kernel, offers_of rfl (by decide +kernel), ⟨reedTok false, by decide +kernel, rfl⟩,
   by decide +kernel, elm_of (by decide +kernel), global_of (g := 0x4000) (ph := ph0) (by decide +kernel), elm_of (by decide +kernel),
   scratch_of (by decide +kernel), elm_of (by decide +kernel), global_of (g := 0x4000) (ph := ph0) (by decide +kernel),
   elm_of (by decide +kernel), global_of (g := 0x4010) (ph := { ph0 with key := keySpread 16, ipa := 0x4010 }) (by decide +kernel),
   by decide, elm_of (by decide +kernel), by decide +kernel, by decide +kernel, head_of rfl (by decide +kernel)⟩

/-- MemoryNodes: an element whose read has come from within the module and from outside it, and one whose read is under way. -/
theorem witness_MemoryNodes_issued :
    let n := fun (e : WinEl) => nd (.load (nh .i32 [c0] [c0]) 0#3) [] { m0 with win := [e, g1], n3 := 1 }
    let here := { g0 with got := some ([1#8, 2#8, 3#8, 4#8], 0), home := some ph0 }
    let far := { g0 with got := some ([1#8, 2#8, 3#8, 4#8], 0), home := some (ph0 .host) }
    let sent := { g0 with home := some ph0 }
    (∀ e ∈ [here, far, sent], (nodeSt (n e)).HeadAt (nodeAtOf (n e)) e [g1]) ∧ ph0.typ.leaves = false ∧ (ph0 .host).typ.leaves = true ∧
    sent.got = none ∧ sent.addr.toNat % 4 = 0 ∧ (nodeAtOf (n sent)).place sent ≠ .none ∧ (nodeAtOf (n sent)).place sent ≠ .badTile ∧
    Readable (nodeSt (n sent)) ((nodeAtOf (n sent)).elReq sent) ph0 4 := by
  refine ⟨fun e he => head_of rfl ?_, rfl, rfl, rfl, by decide, by decide +kernel, by decide +kernel, readable_of (by decide +kernel)⟩
  revert e he
  decide +kernel

/-- An operation waits and leaves this state. -/
def waitIs {α : Type} (r : Res α) (s : State) : Bool := match r with | .wait t => decide (t = s) | _ => false

theorem wait_of {α : Type} {r : Res α} {s : State} (h : waitIs r s = true) : r = .wait s := by
  cases r with
  | ok b t => simp [waitIs] at h
  | wait t => simp [waitIs] at h; rw [h]
  | fault x t => simp [waitIs] at h

/-- MemoryNodes: an oldest element whose translation is under way, and one behind it that is found at once. -/
theorem witness_MemoryNodes_ahead :
    let e := el 0x9000#64
    let n := nd (.load (nh .i32 [c0] [c0]) 0#3) [] { m0 with win := [e, g1], n3 := 1 }
    let a := nodeAtOf n
    let s := match (nodeSt n).xlateFor a.x (a.elReq e) .read 0x9000 with | .wait t => t | _ => nodeSt n
    s.ElemAt a e [g1] ∧ g1.got = none ∧ g1.home = none ∧ g1.bad = false ∧ e.addr.toNat % 4 = 0 ∧ a.place e = .global 0x9000 ∧
    s.xlateFor a.x (a.elReq e) .read 0x9000 = .wait s ∧ g1.addr.toNat + g1.off + 4 ≤ e.addr.toNat + e.off ∧
    s.Locates a g1 .read 4 4 (keySpread 0) :=
  ⟨elem_of rfl (by decide +kernel), rfl, rfl, rfl, by decide, by decide +kernel, wait_of (by decide +kernel), by decide,
   global_of (g := 0x4000) (ph := ph0) (by decide +kernel)⟩

/-- MemoryNodes: store takes data, takes addresses, also under a false guard, stores an element and a granule of a beat. -/
theorem witness_MemoryNodes_store :
    let h : NodeHdr := nh .i32 [c0, c1] [.none, r0]
    let g : NodeHdr := nh .i32 [c0, c1] [.none, r0] 0#4 (.reed 3#2 0#4)
    let v : NodeHdr := nh .i32 [c0, c1] [] 1#4
    let a := nd (.store h 0#3) [[dB], [dB]]
    let b := nd (.store h 0#3) [[dB]] { m0 with left1 := List.replicate 8 1#64 }
    let f := nd (.store g 0#3) [[dB], [], [], [], [reedTok false]] { m0 with left1 := List.replicate 8 1#64 }
    let c := nd (.store v 0#3) [[dB], [dB]] { m0 with left1 := List.replicate 12 1#64 }
    let d := nd (.store v 0#3) [[dB]] { m0 with left1 := List.replicate 16 1#64 }
    let e := nd (.store h 0#3) [] mE
    let k := { g0 with data := List.replicate 16 1#8 }
    let w := nd (.store v 0#3) [] { mE with win := [k] }
    (nodeSt a).Offers (nodeAtOf a) [0, 1] [dB, dB] ∧ Rdy b [0] [dB] ∧ orderedB b = true ∧
    (nodeSt f).Offers (nodeAtOf f) [0] [dB] ∧ (nodeAtOf f).off ∧
    (nodeSt c).Offers (nodeAtOf c) [0, 1] [dB, dB] ∧ Rdy d [0] [dB] ∧ orderedB d = true ∧
    Elm e g0 [g1] ∧ g0.data.length = 4 ∧ (nodeSt e).Locates (nodeAtOf e) g0 .write 4 4 (keySpread 0) ∧
    Elm w k [] ∧ k.data.length = 16 ∧ (nodeSt w).Locates (nodeAtOf w) k .write 32 16 (keySpread 0) ∧
    4 ≤ (List.replicate 8 1#64).length :=
  ⟨offers_of rfl (by decide +kernel), rdy_of (by decide +kernel), by decide +kernel, offers_of rfl (by decide +kernel),
   ⟨reedTok false, by decide +kernel, rfl⟩,
   offers_of rfl (by decide +kernel), rdy_of (by decide +kernel), by decide +kernel, elm_of (by decide +kernel), rfl,
   global_of (g := 0x4000) (ph := ph0) (by decide +kernel), elm_of (by decide +kernel), rfl,
   global_of (g := 0x4000) (ph := ph0) (by decide +kernel), by decide⟩

/-- MemoryNodes: atom with two and with three operands, and at an element. -/
theorem witness_MemoryNodes_atom :
    let h : NodeHdr := nh .i32 [c0, c1, c2] [c0]
    let e := nd (.atom h 0#3 0#4) [] mE
    Rdy (nd (.atom h 0#3 0#4) [[dB], [dB]]) [0, 1] [dB, dB] ∧ Rdy (nd (.atom h 0#3 7#4) [[dB], [dB], [dB]]) [0, 1, 2] [dB, dB, dB] ∧
    Elm e g0 [g1] ∧ (nodeSt e).Locates (nodeAtOf e) g0 .rmw 4 4 (keySpread 0) ∧ e.clone = false :=
  ⟨rdy_of (by decide +kernel), rdy_of (by decide +kernel), elm_of (by decide +kernel),
   global_of (g := 0x4000) (ph := ph0) (by decide +kernel), rfl⟩

/-- TaggedAndRingNodes: ldfe and stfe at a start, at a granule that is full and one that is empty, at an address in global
memory; a node that must not begin another firing. -/
theorem witness_TaggedAndRingNodes :
    let h : NodeHdr := nh .i32 [c0, c1] [c0, r0]
    let l := nd (.ldfe h 0#3) [] mS
    let t := nd (.stfe h 0#3) [] mS
    let k := keyScratch ⟨0, 1, 1⟩ 0x40
    let full : State → State := fun s => { s with mem := { s.mem with full := [k / 16] } }
    Rdy (nd (.ldfe h 0#3) [[dB]]) [0] [dB] ∧ Rdy (nd (.stfe h 0#3) [[dB]] { m0 with left1 := List.replicate 4 1#64 }) [0] [dB] ∧
    Elm l s0 [s1] ∧ (full (nodeSt l)).ElemAt (nodeAtOf l) s0 [s1] ∧
    (∀ n ∈ [l, t], (nodeAtOf n).place s0 = .scratch ⟨0, 1, 1⟩ 0x40) ∧
    (∀ acc ∈ [Acc.read, .write], (nodeSt l).Locates (nodeAtOf l) s0 acc 4 4 k ∧ (full (nodeSt l)).Locates (nodeAtOf l) s0 acc 4 4 k ∧
      (nodeSt t).Locates (nodeAtOf t) s0 acc 4 4 k ∧ (full (nodeSt t)).Locates (nodeAtOf t) s0 acc 4 4 k) ∧
    (nodeSt l).mem.isFull (k / 16) = false ∧
    (full (nodeSt l)).mem.isFull (k / 16) = true ∧ Elm t s0 [s1] ∧ (full (nodeSt t)).ElemAt (nodeAtOf t) s0 [s1] ∧ s0.data.length = 4 ∧
    Elm (nd (.ldfe h 0#3) [] mE) g0 [g1] ∧ Elm (nd (.stfe h 0#3) [] mE) g0 [g1] ∧
    (nodeAtOf l).place g0 = .global 0x4000 ∧ (nodeSt { l with held := true }).mayBegin (nodeAtOf { l with held := true }) = false ∧
    Elm { l with held := true } s0 [s1] :=
  ⟨rdy_of (by decide +kernel), rdy_of (by decide +kernel), elm_of (by decide +kernel), elem_of rfl (by decide +kernel),
   by decide +kernel, fun _ _ => ⟨scratch_of (by decide +kernel), scratch_of (by decide +kernel), scratch_of (by decide +kernel),
     scratch_of (by decide +kernel)⟩, by decide +kernel, by decide +kernel, elm_of (by decide +kernel),
   elem_of rfl (by decide +kernel), rfl, elm_of (by decide +kernel), elm_of (by decide +kernel), by decide +kernel, by decide +kernel,
   elm_of (by decide +kernel)⟩

/-- TaggedAndRingNodes: ojoin with both tokens and with one missing; rdring and wrring at a beat; wrring at a DONE beat with an
empty and with a begun slot. -/
theorem witness_TaggedAndRingNodes_rings :
    let j : Instr := .ojoin (nh .n8 [r0, r1] [r0]) 0#3
    let r : Instr := .rdring (nh .n8 [.ring 0#5] [c0]) 0#3
    let w : Instr := .wrring (nh .n8 [c0] [.ring 0#5, r0]) 0#3 0#4
    let m : Mantle := { Mantle.blank with rings := [ringAt 2 4 256 0 0 2 2] }
    let n := nd w [[eB]]
    let u := nd w [[eB]] { m0 with opos := [1, 0] }
    let a := nodeAtOf n m
    let jg : Instr := .ojoin (nh .n8 [r0, r1] [r0] 0#4 (.reed 3#2 0#4)) 0#3
    let f := nd jg [[reedTok true], [reedTok true], [], [], [reedTok false]]
    Trn f ∧ (nodeAtOf f).off ∧ (nodeAtOf (nd jg [])).guardTok = some .empty ∧ [0, 1, 2].filter (nodeAtOf f).hasIn = [0, 1] ∧
    Trn (nd j [[reedTok true], [reedTok true]]) ∧ Trn (nd j [[reedTok true]]) ∧ off (nd j [[reedTok true]]) 1 = .empty ∧
    (tileSt (nd r []) []).Ready (tAt (nd r [])) [0] [lanes 8 []] ∧ (nodeSt (nd w [[dB]]) m).Ready (nodeAtOf (nd w [[dB]]) m) [0] [dB] ∧
    (nodeSt n m).Turn a ∧ (nodeSt n m).memOk ∧ (nodeSt n m).offer a 0 = .streamed eB ∧ (nodeSt n m).outRoom a n 1 = true ∧
    a.outp 0 = .ring 0#5 ∧ (∀ h, a.outp 1 ≠ .ring h) ∧ n.outq.length = 2 ∧ (n.mem.opos[0]?).getD 0 = 0 ∧
    (nodeSt u m).Turn (nodeAtOf u m) ∧ (u.mem.opos[0]?).getD 0 ≠ 0 ∧ endsSegment 0 eB :=
  ⟨trn_of (by decide +kernel), ⟨reedTok false, by decide +kernel, rfl⟩, by decide +kernel, by decide +kernel,
   trn_of (by decide +kernel), trn_of (by decide +kernel), by decide +kernel, ready_of rfl (by decide +kernel),
   ready_of rfl (by decide +kernel), turn_of rfl (by decide +kernel), by decide +kernel, by decide +kernel, by decide +kernel,
   by decide +kernel, (fun h e => by cases e), by decide +kernel, by decide +kernel, turn_of rfl (by decide +kernel),
   by decide +kernel, by decide +kernel⟩

/-! ## Items -/

/-- Items in hand on inputs 0 and 1. -/
def mI (l0 l1 : List Word) (m : NodeMem := m0) : NodeMem := { m with left0 := l0, left1 := l1 }
/-- Entries: coordinate 2 with value 5, coordinate 3 with value 6, coordinate 1 with value 7. -/
def e2 : Word := 0x2_00000005#64
def e3 : Word := 0x3_00000006#64
def e1 : Word := 0x1_00000007#64
/-- Both nodes' items: the turns of nodes that work item by item, with what stands at their inputs. -/
abbrev Itm (n : Node) (i0 i1 : Item) : Prop := Its n 64 ∧ itm n 0 = i0 ∧ itm n 1 = i1

theorem itm_of {n : Node} {i0 i1 : Item} (h : (turnB (nodeSt n) (nodeAtOf n) && (nodeSt n).roomAll (nodeAtOf n) &&
    decide (n.mem.pack0.length < 256 / 64 ∧ n.mem.pack1.length < 256 / 64)) = true) (h0 : itm n 0 = i0) (h1 : itm n 1 = i1) : Itm n i0 i1 :=
  ⟨its_of h, h0, h1⟩

theorem noBound {i : Item} (h : (match i with | .ctl d => d.typ != 10 | _ => true) = true) : ∀ d, i = .ctl d → d.typ ≠ 10 := by
  intro d e
  rw [e] at h
  simpa using h

/-- StreamCombinators: fscan opens dense and compressed fibres, within its count and beyond it, emits, ends, and passes a stop;
what the arrays' granules must show. -/
theorem witness_StreamCombinators_fscan :
    let d : Instr := .fscan (nh .i32 [c0] [c0] 2#4) 0#15 8#15 4#32
    let c : Instr := .fscan (nh .i32 [c0] [c0]) 0#15 8#15 4#32
    let go := { m0 with b0 := true, b1 := true, n1 := 2 }
    let s := nodeSt (nd c [] (mI [3#64] []))
    let t := nodeSt (nd c [] (mI [3#64] [] go))
    let ready : State → State := fun s => { s with mem := { s.mem with full :=
      [keyScratch ⟨0, 1, 1⟩ 0 / 16, keyScratch ⟨0, 1, 1⟩ 16 / 16, keyScratch ⟨0, 1, 1⟩ 128 / 16] } }
    Itm (nd d [] (mI [3#64] [])) (.ent 3) .empty ∧ (ready s).Items (nodeAtOf (nd c [] (mI [3#64] []))) 64 ∧
    (3#64).toNat < (4#32).toNat ∧ (4#32).toNat ≤ 5 ∧ (∀ k ∈ [3, 4], (ready s).nodeFeWaits (.scratch ⟨0, 1, 1⟩ (4 * k)) true = false) ∧
    Itm (nd d [] (mI [3#64] [] go)) (.ent 3) .empty ∧ (ready t).Items (nodeAtOf (nd c [] (mI [3#64] [] go))) 64 ∧
    (ready t).nodeFeWaits (.scratch ⟨0, 1, 1⟩ 128) true = false ∧ (ready t).Clean ∧
    Itm (nd d [] (mI [3#64] [] { m0 with b1 := true })) (.ent 3) .empty ∧ Itm (nd d [[sB]]) (.ctl sB) .empty ∧ 1 ≤ sB.typ ∧ sB.typ ≤ 8 :=
  ⟨itm_of (by decide +kernel) (by decide +kernel) (by decide +kernel), items_of rfl (by decide +kernel), by decide +kernel,
   by decide +kernel, by decide +kernel, itm_of (by decide +kernel) (by decide +kernel) (by decide +kernel),
   items_of rfl (by decide +kernel), by decide +kernel, ⟨rfl, rfl, rfl⟩, itm_of (by decide +kernel) (by decide +kernel) (by decide +kernel),
   itm_of (by decide +kernel) (by decide +kernel) (by decide +kernel), by decide +kernel, by decide +kernel⟩

/-- The two-input nodes of entries. -/
def pairs : List Instr :=
  let h := nh .i32 [c0, c1] [c0, c1]
  [.isect h, .union h 0#3, .repeatNode h 0#3, .sjoin h 0#3 0#3 1#3, .rmerge (nh .ki [c0, c1] [c0])]

/-- StreamCombinators and SparseNodes: each two-input node at two entries of one coordinate, of two coordinates either way, at
an entry beside a stop, at stops that agree and at stops that do not. -/
theorem witness_StreamCombinators_pairs : ∀ i ∈ pairs,
    (∀ p ∈ [(e2, e2), (e2, e3), (e3, e2)], Itm (nd i [] (mI [p.1] [p.2])) (.ent p.1.toNat) (.ent p.2.toNat)) ∧
    Itm (nd i [[], [sB]] (mI [e2] [])) (.ent e2.toNat) (.ctl sB) ∧ Itm (nd i [[sB]] (mI [] [e2])) (.ctl sB) (.ent e2.toNat) ∧
    Itm (nd i [[sB], [sB]]) (.ctl sB) (.ctl sB) ∧ Itm (nd i [[sB], [eB]]) (.ctl sB) (.ctl eB) ∧ Itm (nd i [[eB], [eB]]) (.ctl eB) (.ctl eB) := by
  have t : ∀ (q : List (List Beat)) (m : NodeMem) (x y : Item), (pairs.all (fun i =>
      turnB (nodeSt (nd i q m)) (nodeAtOf (nd i q m)) && (nodeSt (nd i q m)).roomAll (nodeAtOf (nd i q m)) &&
      decide (m.pack0.length < 256 / 64 ∧ m.pack1.length < 256 / 64) && decide (itm (nd i q m) 0 = x) && decide (itm (nd i q m) 1 = y))) = true →
      ∀ i ∈ pairs, Itm (nd i q m) x y := by
    intro q m x y h i hi
    have := List.all_eq_true.1 h i hi
    simp only [Bool.and_eq_true, decide_eq_true_eq] at this
    exact ⟨items_of rfl (by simp only [Bool.and_eq_true, decide_eq_true_eq]; exact this.1.1), this.1.2, this.2⟩
  intro i hi
  refine ⟨?_, t _ _ _ _ (by decide +kernel) i hi, t _ _ _ _ (by decide +kernel) i hi, t _ _ _ _ (by decide +kernel) i hi,
    t _ _ _ _ (by decide +kernel) i hi, t _ _ _ _ (by decide +kernel) i hi⟩
  intro p hp
  simp only [List.mem_cons, List.not_mem_nil, or_false] at hp
  rcases hp with rfl | rfl | rfl
  · exact t _ _ _ _ (by decide +kernel) i hi
  · exact t _ _ _ _ (by decide +kernel) i hi
  · exact t _ _ _ _ (by decide +kernel) i hi

/-- StreamCombinators: what stands at an input is no BOUND beat; stops below, at and above a level; sred at an entry and at
stops, with a value held. -/
theorem witness_StreamCombinators_levels :
    let i : Instr := .sred (nh .i32 [c0] [c0]) 0#3 1#3
    let run := { m0 with b0 := true, vals := [5#64] }
    (∀ d, itm (nd i [[sB]]) 0 = .ctl d → d.typ ≠ 10) ∧ Itm (nd i [] (mI [e2] [] run)) (.ent e2.toNat) .empty ∧
    (∀ k ∈ [1, 2, 3], Itm (nd i [[ctlBeat k]] run) (.ctl (ctlBeat k)) .empty) ∧
    (ctlBeat 1).typ - 1 < (1#3).toNat ∧ (ctlBeat 2).typ - 1 = (1#3).toNat ∧ (1#3).toNat < (ctlBeat 3).typ - 1 := by
  refine ⟨noBound (by decide +kernel), itm_of (by decide +kernel) (by decide +kernel) (by decide +kernel), fun k hk => ?_, by decide +kernel,
    by decide +kernel, by decide +kernel⟩
  simp only [List.mem_cons, List.not_mem_nil, or_false] at hk
  rcases hk with rfl | rfl | rfl <;> exact itm_of (by decide +kernel) (by decide +kernel) (by decide +kernel)

/-- SparseNodes: sjoin's reuse of one entry; sacc at its first turn, at an entry within and beyond its width, at a stop. -/
theorem witness_SparseNodes_sacc :
    let h := nh .i32 [c0, c1] [c0]
    let j : Instr := .sjoin { h with var := 1#4 } 0#3 0#3 1#3
    let c : Instr := .sacc (nh .i32 [c0] [c0]) 4#15 3#13 0#3
    let run := { m0 with begun := true }
    let n := nd c [] (mI [e2] [] run)
    Itm (nd j [] (mI [e2] [e3])) (.ent e2.toNat) (.ent e3.toNat) ∧
    Itm (nd j [] (mI [] [e3] { m0 with b1 := true, vals := [5#64] })) .empty (.ent e3.toNat) ∧
    Itm (nd j [[], [ctlBeat 2]]) .empty (.ctl (ctlBeat 2)) ∧ (1#3).toNat ≤ (ctlBeat 2).typ - 1 ∧
    Its (nd c []) 64 ∧ (nodeSt (nd c [])).memOk ∧ (nodeSt (nd c [])).Clean ∧ 16 * (4#15).toNat + (4 * 4 + (4 + 7) / 8) ≤ 0x80000 ∧
    Itm n (.ent e2.toNat) .empty ∧ (nodeSt n).reserved ((nodeAtOf n).req 0) (keyScratch ⟨0, 1, 1⟩ 64) 17 = false ∧
    crdOf e2.toNat < 4 ∧ 4 ≤ crdOf 0x4_00000000 ∧ Itm (nd c [[sB]] run) (.ctl sB) .empty ∧ (0#3).toNat ≤ sB.typ - 1 :=
  ⟨itm_of (by decide +kernel) (by decide +kernel) (by decide +kernel), itm_of (by decide +kernel) (by decide +kernel) (by decide +kernel),
   itm_of (by decide +kernel) (by decide +kernel) (by decide +kernel), by decide +kernel, its_of (by decide +kernel), by decide +kernel,
   ⟨rfl, rfl, rfl⟩, by decide +kernel, itm_of (by decide +kernel) (by decide +kernel) (by decide +kernel), by decide +kernel, by decide +kernel,
   by decide +kernel, itm_of (by decide +kernel) (by decide +kernel) (by decide +kernel), by decide +kernel⟩

/-- SparseNodes: split at a beat and at a stop; merge at two tagged beats, at one that comes next, at one without a tag. -/
theorem witness_SparseNodes_order :
    let sp : Instr := .split (nh .n8 [c0] [c0, c1])
    let mg : Instr := .merge (nh .n8 [c0, c1] [c0])
    let tg := fun (k : Nat) => { dB with tag := some (BitVec.ofNat 16 k) }
    Itm (nd sp [[dB]]) (.load dB) .empty ∧ Rdy (nd sp [[dB]]) [0] [dB] ∧ [0, 1, 2].filter (nodeAtOf (nd sp [[dB]])).hasIn = [0] ∧
    (∀ p ∈ [0, 1], (nodeSt (nd sp [[dB]])).outRoom (nodeAtOf (nd sp [[dB]])) (nd sp [[dB]]) p = true) ∧ Ctl (nd sp [[sB]]) sB ∧
    Itm (nd sp [[sB]]) (.ctl sB) .empty ∧ (nodeAtOf (nd mg [[tg 6], [tg 5]])).goes ∧
    Itm (nd mg [[tg 6], [tg 5]]) (.load (tg 6)) (.load (tg 5)) ∧ Itm (nd mg [[tg 6]] { m0 with n0 := 6 }) (.load (tg 6)) .empty ∧
    (tg 6).tag = some (BitVec.ofNat 16 6) ∧ Itm (nd mg [[dB]]) (.load dB) .empty ∧ dB.tag = none ∧
    Itm (nd mg [[sB], [sB]]) (.ctl sB) (.ctl sB) :=
  ⟨itm_of (by decide +kernel) (by decide +kernel) (by decide +kernel), rdy_of (by decide +kernel), by decide +kernel, by decide +kernel,
   ctl_of (by decide +kernel),
   itm_of (by decide +kernel) (by decide +kernel) (by decide +kernel), goes_of (by decide +kernel), itm_of (by decide +kernel) (by decide +kernel) (by decide +kernel),
   itm_of (by decide +kernel) (by decide +kernel) (by decide +kernel), rfl,
   itm_of (by decide +kernel) (by decide +kernel) (by decide +kernel), rfl,
   itm_of (by decide +kernel) (by decide +kernel) (by decide +kernel)⟩

/-- SparseNodes: the split and the merge of a clone, the merge at the input whose turn it is. -/
theorem witness_SparseNodes_clone :
    let sp := { nd (.split (nh .n8 [c0] [c0, c1])) [[dB]] with clone := true }
    let mg : Nat → List (List Beat) → Node := fun k q => { nd (.merge (nh .n8 [c0, c1] [c0])) q { m0 with n0 := k } with clone := true }
    Itm sp (.load dB) .empty ∧ Rdy sp [0] [dB] ∧ [0, 1, 2].filter (nodeAtOf sp).hasIn = [0] ∧
    (∀ p ∈ [0, 1], (nodeSt sp).outRoom (nodeAtOf sp) sp p = true) ∧
    Itm (mg 0 [[dB]]) (.load dB) .empty ∧ Itm (mg 1 [[], [dB]]) .empty (.load dB) ∧ (nodeAtOf (mg 0 [[dB]])).goes ∧
    (nodeAtOf (mg 1 [[], [dB]])).goes :=
  ⟨itm_of (by decide +kernel) (by decide +kernel) (by decide +kernel), rdy_of (by decide +kernel), by decide +kernel, by decide +kernel,
   itm_of (by decide +kernel) (by decide +kernel) (by decide +kernel), itm_of (by decide +kernel) (by decide +kernel) (by decide +kernel),
   goes_of (by decide +kernel), goes_of (by decide +kernel)⟩

/-- SparseNodes: gath's element whose read has come from within the module and from outside it. -/
theorem witness_SparseNodes_issued :
    let e := el 0x4004#64 [] 0 true 1#64
    let n := fun (e : WinEl) => nd (.gath (nh .i32 [c0] [c0]) 0#3 0#12 false) [] { m0 with win := [e], n3 := 1 } [row 4 .i32 0x4000]
    let here := { e with got := some ([1#8, 2#8, 3#8, 4#8], 0), home := some { ph0 with key := keySpread 4 } }
    let far := { e with got := some ([1#8, 2#8, 3#8, 4#8], 0), home := some (ph0 .host) }
    ∀ e ∈ [here, far], (nodeSt (n e)).HeadAt (nodeAtOf (n e)) e [] ∧ Its (n e) 64 := by
  intro e n here far d hd
  refine ⟨head_of rfl ?_, its_of ?_⟩ <;> (revert d hd; decide +kernel)

/-- SparseNodes: gath at a beat, at a reference within its tensor and beyond it; scat at its beginning, at an entry's
coordinate and value, at a stop, and in two dimensions. -/
theorem witness_SparseNodes_tensors :
    let u := row 4 .i32 0x4000
    let g : Instr := .gath (nh .i32 [c0] [c0]) 0#3 0#12 false
    let z : Instr := .scat (nh .i32 [c0] []) 0#3 0#12 0#12 0#12 0#3
    let w : Instr := .scat (nh .i32 [c0] [] 1#4) 0#3 0#12 0#12 0#12 0#3
    let e := el 0x4004#64 [] 0 true 1#64
    let n := nd g [] { m0 with win := [e], n3 := 1 } [u]
    let got := { e with got := some ([0#8], 0) }
    let k := nd g [] { m0 with win := [got], n3 := 1 } [u]
    let far := el 0x1000000000000#64 [] 0 true 1#64
    let b := nd g [] { m0 with win := [far], n3 := 1 } [u]
    let sb : State := { nodeSt b with dev := { (nodeSt b).dev with ctxs := [(0, BitVec.ofNat 128 (2 ^ 47 + 2 ^ 46 + 1))] } }
    let ten := [u, row 4 .n32 0x4100, row 4 .n32 0x4200]
    let a := nodeAtOf (nd z [] (mI [e2] [] { m0 with begun := true }) ten)
    let s := nodeSt (nd z [] (mI [e2] [] { m0 with begun := true }) ten)
    Itm (nd g [[dB]] m0 [u]) (.load dB) .empty ∧ (nodeAtOf (nd g [[dB]] m0 [u])).goes ∧ 1 < Tensor.dim u 0 ∧
    Tensor.dim u 0 ≤ 4 ∧ Tensor.addr u [1] = 0x4004 ∧ Elm n e [] ∧ (nodeSt n).Locates (nodeAtOf n) e .read 4 4 (keySpread 4) ∧
    (nodeSt k).HeadAt (nodeAtOf k) got [] ∧ sb.ElemAt (nodeAtOf b) far [] ∧ (nodeAtOf b).place far = .none ∧ far.addr.toNat % 4 = 0 ∧
    (match (sb.meetFault (nodeAtOf b).x.asid ((nodeAtOf b).elReq far) ⟨far.addr.toNat, .read, 0, 0⟩ : Res (List Byte × BitVec 32)) with
      | .wait t => !t.mayBegin (nodeAtOf b) | _ => false) = true ∧ (nodeSt n).xl.retried = [] ∧
    Its (nd z [] m0 ten) 64 ∧ Itm (nd z [] (mI [e2] [] { m0 with begun := true }) ten) (.ent e2.toNat) .empty ∧
    Tensor.inside (a.tensor 0) [0] = true ∧ s.Finds a (a.req 0) .write (Tensor.addr (a.tensor 0) [0]) 4 (keySpread 0) ∧
    s.Finds a (a.req 0) .write (Tensor.addr (a.tensor 1) [0]) 4 (keySpread 0x100) ∧
    s.Finds a (a.req 0) .write (Tensor.addr (a.tensor 2) [0]) 4 (keySpread 0x200) ∧
    s.Finds a (a.req 0) .write (Tensor.addr (a.tensor 2) [1]) 4 (keySpread 0x204) ∧
    Itm (nd z [[sB]] { m0 with begun := true } ten) (.ctl sB) .empty ∧ Itm (nd w [] (mI [e2] []) ten) (.ent e2.toNat) .empty ∧
    Tensor.inside u [crdOf e2.toNat, 0] = true ∧ Tensor.inside u [4, 0] = false :=
  ⟨itm_of (by decide +kernel) (by decide +kernel) (by decide +kernel), goes_of (by decide +kernel),
   by decide +kernel, by decide +kernel, by decide +kernel, elm_of (by decide +kernel),
   global_of (g := 0x4004) (ph := { ph0 with key := keySpread 4, ipa := 0x4004 }) (by decide +kernel), head_of rfl (by decide +kernel),
   elem_of rfl (by decide +kernel), by decide +kernel, by decide, by decide +kernel, rfl, its_of (by decide +kernel),
   itm_of (by decide +kernel) (by decide +kernel) (by decide +kernel), by decide +kernel,
   finds_of (g := 0x4000) (ph := ph0) (by decide +kernel),
   finds_of (g := 0x4100) (ph := { ph0 with key := keySpread 0x100, ipa := 0x4100 }) (by decide +kernel),
   finds_of (g := 0x4200) (ph := { ph0 with key := keySpread 0x200, ipa := 0x4200 }) (by decide +kernel),
   finds_of (g := 0x4204) (ph := { ph0 with key := keySpread 0x204, ipa := 0x4204 }) (by decide +kernel),
   itm_of (by decide +kernel) (by decide +kernel) (by decide +kernel), itm_of (by decide +kernel) (by decide +kernel) (by decide +kernel),
   by decide +kernel, by decide +kernel⟩

/-! ## Retrieval -/

/-- A node with its threshold register as the keys at its hops leave it. -/
def raised (a : NodeAt) : Node := a.seeps.foldl (fun n j => n.raise (keyPair ((a.n.hops[j]?).getD 0))) a.n

/-- A register that has held one value since the phase start is read as that value. -/
theorem readThr_of {s : State} {a : NodeAt} (h : (raised a).past = []) :
    s.readThr a = ((raised a).thr, ({ s with free := s.free + 1 } : State).updNode a.f a.k
      (fun n => a.seeps.foldl (fun n j => n.raise (keyPair ((a.n.hops[j]?).getD 0))) n)) := by
  unfold State.readThr
  simp only [raised] at h ⊢
  rw [h]
  simp [Nat.mod_one]

/-- A node whose program store holds one word, with tensors 7 and 8 of ASID 0 in the window. -/
def agFen (n : Node) (w : Word) : Fen := { nodeFen n with progs := [(n.tile, n.slot, [w])] }
def agSt (n : Node) (w : Word) : State :=
  { nodeSt n with
    fens := [agFen n w]
    dev := { (nodeSt n).dev with tensors := [row 4 .i32 0x4000 ||| BitVec.ofNat 512 (7 * 2 ^ 484), row 8 .n64 0x4000 ||| BitVec.ofNat 512 (8 * 2 ^ 484)] } }
def agAt (n : Node) (w : Word) : NodeAt := { nodeAtOf n with x := agFen n w }
/-- A WALK and a BLOCKS word of tensor tk, and HALT. -/
def wWalk (tk : Nat) : Word := BitVec.ofNat 64 (2 ^ 60 + tk * 2 ^ 48 + 9 * 2 ^ 40)
def wBlocks : Word := BitVec.ofNat 64 (2 ^ 61 + 8 * 2 ^ 48 + 0 * 2 ^ 32 + 1 * 2 ^ 16 + 9 * 2 ^ 8)
def agI : Instr := .agen (nh .n8 [] [c0]) 0#3 0#8

/-- RankingNodes: agen at its start, at HALT, beyond its store, at a WALK of a good and of a missing entry, within a tensor and
at its end. -/
theorem witness_RankingNodes_walk :
    let run := { m0 with b0 := true, begun := true }
    let n := nd agI [] run
    let k := nd agI [] { run with n3 := 1 } [row 4 .i32 0x4000]
    let e := nd agI [] { run with n3 := 1, n1 := 4 } [row 4 .i32 0x4000]
    Its (nd agI []) 64 ∧ (agSt n 0xF000000000000000#64).Items (agAt n 0xF000000000000000#64) 64 ∧
    (agSt n (wWalk 7)).Items (agAt n (wWalk 7)) 64 ∧ ((agFen n (wWalk 7)).store n.tile n.slot)[0]? = some (wWalk 7) ∧
    ((agFen n (wWalk 7)).store n.tile n.slot)[1]? = none ∧ Tensor.fmt (row 4 .i32 0x4000) ≠ .cf8 ∧
    ((agSt n (wWalk 7)).goodTensor 0 7).isSome = true ∧ (agSt n (wWalk 9)).goodTensor 0 9 = none ∧
    (agSt k (wWalk 7)).Items (agAt k (wWalk 7)) 32 ∧ 0 < Tensor.count (row 4 .i32 0x4000) ∧ Tensor.count (row 4 .i32 0x4000) ≤ 4 ∧
    (agSt k (wWalk 7)).Finds (agAt k (wWalk 7)) ((agAt k (wWalk 7)).req 0) .read (Tensor.addr (row 4 .i32 0x4000) (Tensor.indexOf (row 4 .i32 0x4000) 0)) 4 (keySpread 0) ∧
    (agSt e (wWalk 7)).Items (agAt e (wWalk 7)) 32 ∧ (agSt k (wWalk 7)).xl.retried = [] ∧ (agSt k (wWalk 7)).Clean :=
  ⟨its_of (by decide +kernel), items_of rfl (by decide +kernel), items_of rfl (by decide +kernel), by decide +kernel,
   by decide +kernel, by decide +kernel, by decide +kernel, by decide +kernel, items_of rfl (by decide +kernel), by decide +kernel,
   by decide +kernel, finds_of (g := 0x4000) (ph := ph0) (by decide +kernel), items_of rfl (by decide +kernel), rfl, ⟨rfl, rfl, rfl⟩⟩

/-- RankingNodes: agen at a block's header that is good, at one that is not, within a payload and at its end. -/
theorem witness_RankingNodes_blocks :
    let u := row 8 .n64 0x4000
    let good : List Word := [0x3F800000#64, 0x4_00000002#64, 0x4000#64, 0#64]
    let run := { m0 with b0 := true, begun := true, n3 := 1, vals := good }
    let n := nd agI [] run [u]
    let b := nd agI [] { run with vals := [0x3F800000#64, 0x3_00000002#64, 0x4000#64, 0#64] } [u]
    let p := nd agI [] { run with n3 := 2, n1 := 4 } [u]
    let e := nd agI [] { run with n3 := 2, n1 := 8 } [u]
    let canon : Nat → Prop := fun v => v % 4 = 0 ∧ (v / 2 ^ 48 = 0 ∨ (v / 2 ^ 48 = 0xFFFF ∧ v / 2 ^ 31 % 2 ^ 17 = 0 ∧ v / 2 ^ 19 % 2 = 0))
    canon 0xFFFC ∧ canon 0xFFFF00000007FFFC ∧ ¬canon 0xFFFF000000080000 ∧ ¬canon 0xFFFF000080000000 ∧ ¬canon 0xFFFE000000000000 ∧
    ((agFen n wBlocks).store n.tile n.slot)[0]? = some wBlocks ∧ (agSt n wBlocks).Items (agAt n wBlocks) 32 ∧
    4 * 0 + 3 < Tensor.dim u 0 ∧ 4 ≤ good.length ∧ (agSt b wBlocks).Items (agAt b wBlocks) 32 ∧ ¬(0x3_00000002 / 2 ^ 32 % 4 = 0) ∧
    (0x4_00000002 / 2 ^ 32 % 4 = 0 ∧ 4 ≤ 0x4_00000002 / 2 ^ 32 ∧ 0x4_00000002 / 2 ^ 32 ≤ 256) ∧
    (agSt p wBlocks).Items (agAt p wBlocks) 32 ∧ 4 < 0x4_00000002 % 2 ^ 32 * (0x4_00000002 / 2 ^ 32) ∧
    (agSt p wBlocks).Finds (agAt p wBlocks) ((agAt p wBlocks).req 0) .read ((0x4000 + 4) % 2 ^ 64) 4 (keySpread 4) ∧
    (agSt e wBlocks).Items (agAt e wBlocks) 32 ∧ 0x4_00000002 % 2 ^ 32 * (0x4_00000002 / 2 ^ 32) ≤ 8 :=
  ⟨by decide, by decide, by decide, by decide, by decide, by decide +kernel, items_of rfl (by decide +kernel), by decide +kernel,
   by decide +kernel, items_of rfl (by decide +kernel), by decide +kernel, by decide +kernel, items_of rfl (by decide +kernel), by decide +kernel,
   finds_of (g := 0x4004) (ph := { ph0 with key := keySpread 4, ipa := 0x4004 }) (by decide +kernel),
   items_of rfl (by decide +kernel), by decide +kernel⟩

/-- RankingNodes: qport has its turn; pqadc at an item, at a beat of codes, at a stop and at BOUND beats, good and wrong. -/
theorem witness_RankingNodes_scores :
    let q : Instr := .qport (nh .n8 [] [.none, .seep 0#2 0#3])
    let p : Instr := .pqadc (nh .n8 [c0] [c0]) 0#15 0#6 2#8
    let blk := fun (z : Nat) => (⟨10, BitVec.ofNat 256 (z * 2 ^ 96 + 3 * 2 ^ 64), none, false⟩ : Beat)
    let n := nd p [] (mI [0x55#64, 0#64] [])
    let s : State := { nodeSt n with mem := { (nodeSt n).mem with full := [keyScratch ⟨0, 1, 1⟩ 0 / 16] } }
    Trn (nd q []) ∧ s.Items (nodeAtOf n) 64 ∧ (2#8).toNat ≤ 2 ∧ s.nodeFeWaits (.scratch ⟨0, 1, 1⟩ 0) true = false ∧
    codeAt n.mem.left0 0 = 0 ∧ s.Clean ∧ 16 * (0#15).toNat + 512 * ((0#6).toNat + 1) ≤ 0x80000 ∧
    Its (nd p [[dB]]) 64 ∧ off (nd p [[dB]]) 0 = .streamed dB ∧ (nodeAtOf (nd p [[dB]])).goes ∧
    (∀ b ∈ [sB, blk 8, blk 9], Its (nd p [[b]]) 64 ∧ off (nd p [[b]]) 0 = .streamed b ∧ b.typ ≠ 0) ∧
    (blk 8).data.toNat / 2 ^ 96 % 2 ^ 32 = 4 * (2#8).toNat ∧ (blk 9).data.toNat / 2 ^ 96 % 2 ^ 32 ≠ 4 * (2#8).toNat := by
  refine ⟨trn_of (by decide +kernel), items_of rfl (by decide +kernel), by decide +kernel, by decide +kernel, by decide +kernel, ⟨rfl, rfl, rfl⟩,
    by decide +kernel, its_of (by decide +kernel), by decide +kernel, goes_of (by decide +kernel), fun b hb => ?_, by decide +kernel,
    by decide +kernel⟩
  simp only [List.mem_cons, List.not_mem_nil, or_false] at hb
  rcases hb with rfl | rfl | rfl <;> exact ⟨its_of (by decide +kernel), by decide +kernel, by decide +kernel⟩

/-- RankingNodes: bound at a block it drops and at one it passes, at a stop and at data; the threshold it reads is the key it
holds, whatever is free. -/
theorem witness_RankingNodes_bound :
    let i : Instr := .bound (nh .ki [c0] [c0]) false 0#15
    let blk : Beat := ⟨10, 0x3F800000#256, none, false⟩
    let hi := { nd i [[blk]] with thr := 0x1_40000000#64 }
    (∀ b ∈ [blk, sB, dB], Its (nd i [[b]]) 64 ∧ off (nd i [[b]]) 0 = .streamed b) ∧
    ((nodeSt (nd i [[blk]])).readSend (nodeAtOf (nd i [[blk]])) 1).1 = kiFloor ∧ ((nodeSt hi).readSend (nodeAtOf hi) 1).1 = 0x1_40000000#64 ∧
    (floatVal .f32 0x3F800000).lt (floatVal .f32 (0x1_40000000 % 2 ^ 32)) = true ∧
    (floatVal .f32 0x3F800000).lt (floatVal .f32 (kiFloor.toNat % 2 ^ 32)) = false ∧ (nodeAtOf (nd i [[dB]])).guardTok = none := by
  refine ⟨fun b hb => ?_, ?_, ?_, by decide +kernel, by decide +kernel, by decide +kernel⟩
  · simp only [List.mem_cons, List.not_mem_nil, or_false] at hb
    rcases hb with rfl | rfl | rfl <;> exact ⟨its_of (by decide +kernel), by decide +kernel⟩
  · unfold State.readSend; rw [readThr_of (by decide +kernel)]; decide +kernel
  · unfold State.readSend; rw [readThr_of (by decide +kernel)]; decide +kernel

/-- RankingNodes: topk at a pair it admits and at one it does not, at a DONE beat and at a stop that ends a segment. -/
theorem witness_RankingNodes_topk :
    let i : Instr := .topk (nh .ki [c0] [c0]) 1#8 true 0#3 false 0#42 false 0#15
    let l : List Word := [0x1_3F800000#64, 0x2_3F000000#64]
    let n := nd i [] (mI [0x9_40000000#64] [] { m0 with vals := l })
    let thr := ((nodeSt n).readSend (nodeAtOf n) 1).1
    Itm n (.ent 0x9_40000000) .empty ∧ l.length ≤ 2 ∧ thr = kiFloor ∧ kiNan 0x9_40000000#64 = false ∧
    kiAbove 0x9_40000000#64 kiFloor = true ∧ l.getLast? = some 0x2_3F000000#64 ∧ kiAbove 0x9_40000000#64 0x2_3F000000#64 = true ∧
    kiAbove 0x9_3E000000#64 0x2_3F000000#64 = false ∧ (∀ b ∈ [eB, sB], Itm (nd i [[b]] { m0 with vals := l }) (.ctl b) .empty) ∧
    endsSegment 0 sB := by
  refine ⟨itm_of (by decide +kernel) (by decide +kernel) (by decide +kernel), by decide +kernel, ?_, by decide +kernel, by decide +kernel,
    by decide +kernel, by decide +kernel, by decide +kernel, fun b hb => ?_, by decide +kernel⟩
  · unfold State.readSend; rw [readThr_of (by decide +kernel)]; decide +kernel
  · simp only [List.mem_cons, List.not_mem_nil, or_false] at hb
    rcases hb with rfl | rfl <;> exact itm_of (by decide +kernel) (by decide +kernel) (by decide +kernel)

/-- RankingNodes: a seepm that sends nothing, and one that writes the queue's threshold. -/
theorem witness_RankingNodes_seepm :
    let n := { nd (.seepm (nh .n8 [.seep 0#2 0#3] []) true 0x100#42) [] with thr := 0x1_40000000#64 }
    let q := Qcb.seal (BitVec.ofNat 512 (0x4100 + 2 * 2 ^ 128 + 2 ^ 160))
    let s := State.withBytes (nodeSt n) (keySpread 0) (toLE 64 q.toNat)
    let a := nodeAtOf n
    let r := s.readSend a 0
    s.Turn a ∧ Trn (nd (.seepm (nh .n8 [.seep 0#2 0#3] []) false 0#42) []) ∧ kiAbove (raised a).thr kiFloor = true ∧
    (match r.2.xlateQcb a.x (a.req 0) .rmw (64 * (0x100#42).toNat) with | .ok ph t => decide (ph = ph0) && decide (t = r.2) | _ => false) = true ∧
    (match r.2.threshWrite ph0 (64 * (0x100#42).toNat) a.x.asid a.x.part (a.x.carrierOf a.n.tile) (raised a).thr with
      | some s1 => s1.xl.retried.isEmpty | none => false) = true ∧
    r.2.reserved (a.req 0) ph0.key 64 = false ∧ okIs (r.2.present (a.req 0) ph0 64) () r.2 = true ∧
    okIs (r.2.unsnooped (a.req 0) ph0 []) () r.2 = true ∧ okIs (r.2.charge (a.req 0) ph0 16) () r.2 = true := by
  refine ⟨turn_of rfl (by decide +kernel), trn_of (by decide +kernel), by decide +kernel, ?_, ?_, ?_, ?_, ?_, ?_⟩ <;>
    (dsimp only; unfold State.readSend; rw [readThr_of (by decide +kernel)]; decide +kernel)

/-! ## Filters -/

/-- FilterNodes: tomb at an identifier within its bitmap and beyond it, and at a stop. -/
theorem witness_FilterNodes_tomb :
    let i : Instr := .tomb (nh .ki [c0] [c0]) 0#3 0#12
    let u := row 4 .n8 0x4000
    let n := nd i [] (mI [0x9_3F800000#64] []) [u]
    Itm n (.ent 0x9_3F800000) .empty ∧ 9 / 8 < Tensor.dim u 0 ∧ Tensor.dim u 0 ≤ 32 / 8 ∧
    (nodeSt n).Finds (nodeAtOf n) ((nodeAtOf n).req 0) .read (Tensor.addr u [9 / 8]) 1 (keySpread 1) ∧ Itm (nd i [[sB]] m0 [u]) (.ctl sB) .empty ∧
    (nodeSt n).xl.retried = [] ∧ (nodeSt n).Clean ∧ (nodeSt n).memOk :=
  ⟨itm_of (by decide +kernel) (by decide +kernel) (by decide +kernel), by decide +kernel, by decide +kernel,
   finds_of (g := 0x4001) (ph := { ph0 with key := keySpread 1, ipa := 0x4001 }) (by decide +kernel),
   itm_of (by decide +kernel) (by decide +kernel) (by decide +kernel), rfl, ⟨rfl, rfl, rfl⟩, by decide +kernel⟩

/-- FilterNodes: vset at an identifier beyond its bitmap, at one that the tombstones name, and at one whose visited bit it
tests in a Mere. -/
theorem witness_FilterNodes_vset :
    let i : Instr := .vset (nh .ki [c0] [c0]) 0#3 0#12 0#12 false true
    let j : Instr := .vset (nh .ki [c0] [c0]) 0#3 0#12 0#12 false false
    let u := row 4 .n8 0x4000
    let n := nd i [] (mI [0x3_3F800000#64] []) [u, u]
    let s := State.withBytes (nodeSt n) (keySpread 0) [8#8]
    let k := nd j [] (mI [0x3_3F800000#64] []) [u, u]
    Itm n (.ent 0x3_3F800000) .empty ∧ s.Items (nodeAtOf n) 64 ∧ s.item (nodeAtOf n) 0 = .ent 0x3_3F800000 ∧
    s.Finds (nodeAtOf n) ((nodeAtOf n).req 0) .read (Tensor.addr u [3 / 8]) 1 (keySpread 0) ∧ leNat (s.mem.getN (keySpread 0) 1) / 2 ^ 3 % 2 = 1 ∧
    (nodeSt k Mantle.blank .mere).Items (nodeAtOf k) 64 ∧ (nodeAtOf k).x.space k.tile (Tensor.addr u [3 / 8]) = .global 0x4000 ∧
    (nodeSt k Mantle.blank .mere).Reaches (nodeAtOf k).x ((nodeAtOf k).req 0) .rmw 0x4000 1 (ph0 .mere) ∧ (ph0 .mere).typ = .mere :=
  ⟨itm_of (by decide +kernel) (by decide +kernel) (by decide +kernel), items_of rfl (by decide +kernel), by decide +kernel,
   finds_of (g := 0x4000) (ph := ph0) (by decide +kernel), by decide +kernel, items_of rfl (by decide +kernel), by decide +kernel,
   reaches_of (by decide +kernel), rfl⟩

/-- FilterNodes: kipack with and without its own identifiers, at two stops that agree and that do not; fcomp at an entry and at
a stop. -/
theorem witness_FilterNodes_pairs :
    let k : Instr := .kipack (nh .f32 [c0] [c0] 1#4) 10#32
    let p : Instr := .kipack (nh .f32 [c0, c1] [c0]) 0#32
    let f : Instr := .fcomp (nh .f32 [c0] [c0]) 0#32
    Itm (nd k [] (mI [0x3F800000#64] [])) (.ent 0x3F800000) .empty ∧
    Itm (nd p [] (mI [0x3F800000#64] [7#64])) (.ent 0x3F800000) (.ent 7) ∧ Itm (nd p [[sB], [sB]]) (.ctl sB) (.ctl sB) ∧
    Itm (nd p [[sB], [eB]]) (.ctl sB) (.ctl eB) ∧ Itm (nd f [] (mI [e2] [])) (.ent e2.toNat) .empty ∧ Itm (nd f [[sB]]) (.ctl sB) .empty :=
  ⟨itm_of (by decide +kernel) (by decide +kernel) (by decide +kernel), itm_of (by decide +kernel) (by decide +kernel) (by decide +kernel),
   itm_of (by decide +kernel) (by decide +kernel) (by decide +kernel), itm_of (by decide +kernel) (by decide +kernel) (by decide +kernel),
   itm_of (by decide +kernel) (by decide +kernel) (by decide +kernel), itm_of (by decide +kernel) (by decide +kernel) (by decide +kernel)⟩

end Sys2Proof.Tests
end

