-- ==== Sys2Proof/Tests/Witness5.lean ====
section
/-! SUPPORT. Witnesses for the statements about events, steps and encodings, clause by clause. -/
namespace Sys2Proof.Tests
set_option Elab.async false
open Sys2Proof.Machine

/-- The module of the tests with its device tables, its schedulers or its translation units changed. -/
def st0 : State := coreSt (coreOf [])
def withDev (g : Device → Device) (s : State := st0) : State := { s with dev := g s.dev }
def withHts (g : Sched → Sched) (s : State := st0) : State := { s with hts := g s.hts }
def withXl (g : Xlate → Xlate) (s : State := st0) : State := { s with xl := g s.xl }

/-! ## Translation -/

/-- A module with tables for ASID 0 of partition 0: 1 GiB of addresses from 0 up, mapped to HBM-spread memory by the leaf
entries given. -/
def walkSt (l1 l2 : Nat) (ws : List Walk) : State :=
  let s := withDev (fun d => { d with ctxs := [(0, BitVec.ofNat 128 (2 ^ 47 + 0x12 * 2 ^ 88))], roots := [(0, 0x10000)] })
  let put := fun (s : State) (a v : Nat) => State.withBytes s (keySpread a) (toLE 8 v)
  withXl (fun x => { x with walks := ws }) (put (put (put (put s 0x10000 0x11001) 0x11000 l2) 0x12000 0x13001) 0x13000 l1)

/-- A requester, and a walk for two of them. -/
def rqOf (e : Nat) (fen : Option Nat := some 0) : Req := ⟨fen, 0, ⟨0, 1, 1⟩, 0, 0, e, 0⟩
def askOf (e : Nat) (acc : Acc := .read) : Ask := ⟨{ rqOf e with slot := e }, 0x4000, acc⟩
def walkOf (acc : Acc) (running stale : Bool) : Walk := ⟨0, 0, 0, 0x4000, acc, ⟨0, 0, 1⟩, [askOf 5 acc, askOf 3 acc], running, stale⟩

/-- TranslationEvents: all walkers busy; a queued walk of the partition whose turn it is. -/
theorem witness_TranslationEvents_start :
    let s := withXl (fun x => { x with walks := [walkOf .read false false] })
    128 ≤ (List.replicate 128 (walkOf .read true false)).countP (fun w => w.die == 0 && w.running) ∧
    s.xl.walks.countP (fun w => w.die == 0 && w.running) < 128 ∧ s.xl.walks[0]? = some (walkOf .read false false) ∧
    (walkOf .read false false).part = ((s.xl.turn[0]?).getD 0 + 0) % 16 ∧ (walkOf .read false false).die = 0 := by decide +kernel

/-- TranslationEvents: a walk that is stale, one that returns a translation, one that fails for every request, one that lacks a
permission for one request of two; the request of the lowest element among those that fail. -/
theorem witness_TranslationEvents_walk :
    let w := walkOf .read true false
    let v := { w with reqs := [askOf 5, askOf 3 .write] }
    let tlb := fun (l1 l2 : Nat) (w : Walk) => match (walkSt l1 l2 [w]).walk w with | .ok (t, _) => some t | .error _ => none
    let lacks := fun (l1 : Nat) (a : Acc) => match tlb l1 0x7D w with | some t => t.lacks a | none => some 9
    (walkSt 0x75 0x7D [w]).memOk ∧ ([w].zipIdx.filter (fun p => p.1.die == 0 && p.1.running))[0]? = some (w, 0) ∧
    (walkOf .read true true).stale = true ∧ w.stale = false ∧ (∀ q ∈ w.reqs, lacks 0x75 q.acc = none) ∧
    ([] : List Tlb).countP (fun e => e.holder == .die w.die) < 8192 ∧ (walkSt 0x75 0x7D [w]).xl.tlbs = [] ∧
    (match (walkSt 0x74 0x7D [w]).walk w with | .error e => e | .ok _ => (0, 0)) = (1, 1) ∧
    w.reqs = [askOf 5] ++ askOf 3 :: [] ∧ w.reqs.Pairwise (fun p q => p.req.same q.req = false) ∧
    (tlb 0x35 0x7D v).isSome = true ∧ v.reqs.filter (fun q => (lacks 0x35 q.acc).isSome) = [] ++ askOf 3 .write :: [] ∧
    lacks 0x35 .write = some 1 ∧ (askOf 3).req.elem < (askOf 5).req.elem := by
  decide +kernel

/-- TranslationEvents: stage-2 tables of two levels, with a leaf and with an entry that is not valid. -/
theorem witness_TranslationEvents_tables :
    let tbl : Nat → Nat := fun l => if l = 1 then 0x10000 else 0x11000
    (∀ l ∈ [1, 2], tbl l + 4096 ≤ 512 * 10 ^ 9) ∧ (walkSt 0x75 0x7D []).mem.poison = [] ∧ (walkSt 0x75 0x7D []).mem.fixed = [] ∧
    (walkSt 0x75 0x7D []).mem.transit = [] ∧ pointsTo ((walkSt 0x75 0x7D []).entry2 (tbl 1) 1 0x4000) (tbl 2) ∧ leafOk ((walkSt 0x75 0x7D []).entry2 (tbl 2) 2 0x4000) 2 ∧
    fld ((walkSt 0x75 0x7C []).entry2 (tbl 2) 2 0x4000) 0 0 = 0 := by
  unfold pointsTo leafOk
  decide +kernel

/-- TranslationEvents: a fill in flight at an EMT with room, a line present whose page no entry grants read only, a line absent; a
timer that has run out, one that has not, one whose source stands frozen. -/
theorem witness_TranslationEvents_lines :
    let s : State := { st0 with emt := { st0.emt with fills := [(rqOf 0, 5)], lines := [⟨6, 0, false⟩], timers := [⟨rqOf 0, 5, 10, 1, false⟩] }, cycle := 10 }
    let z : State := { s with frz := [⟨0, 0, .stalling, 0, 0, 0, none, [], [], []⟩] }
    (rqOf 0, 5) ∈ s.emt.fills ∧ (s.emt.held (emtOf 5)).length < 32768 ∧ (∀ p ∈ s.emt.fills, p.2 ≠ 6) ∧
    (⟨6, 0, false⟩ : Line) ∈ s.emt.lines ∧ s.xl.tlbs = [] ∧ (∀ p ∈ s.emt.fills, p.2 ≠ 7) ∧
    (∀ l ∈ s.emt.lines, l.line ≠ 7) ∧ s.emt.timers[0]? = some ⟨rqOf 0, 5, 10, 1, false⟩ ∧ 10 ≤ s.cycle ∧ s.fenFrozen (fenOf (coreOf [])) = false ∧
    ({ s with cycle := 9 } : State).cycle < 10 ∧ z.fenFrozen (fenOf (coreOf [])) = true ∧ z.fens[0]? = some (fenOf (coreOf [])) := by
  decide +kernel

/-- TranslationEvents: a line present, of a page that a translation holds and whose leaf entry grants read only; its EMTs have
room for a replica. -/
theorem witness_TranslationEvents_replica :
    let s : State := State.withBytes { mapSt (coreOf []) [tlbAt ⟨0, 0, 1⟩ 0x4000 .spread 0x4000] with
      emt := { st0.emt with lines := [⟨keySpread 0x4000 / 128, 0, false⟩] } } (keySpread 0) [2#8]
    let u := tlbAt ⟨0, 0, 1⟩ 0x4000 .spread 0x4000
    s.emt.fills = [] ∧ (⟨keySpread 0x4000 / 128, 0, false⟩ : Line) ∈ s.emt.lines ∧ u ∈ s.xl.tlbs ∧ u.typ.inEmt = true ∧
    fld (leNat (s.mem.getN (keySpread u.leaf) 8)) 1 1 = 1 ∧ 0 < (u.size + 4095) / 4096 ∧
    u.typ.key u.mod (u.base + 4096 * 0) / 4096 = keySpread 0x4000 / 128 * 128 / 4096 ∧ (∀ n ∈ List.range 128, (s.emt.held n).length < 32768) := by
  decide +kernel

/-! ## Launches -/

/-- A launch of a record, ready to be divided. -/
def lnch (d : Rec) (key : Nat := 0) : Launch :=
  { key := key, asid := 0, fn := 0, part := 0, ctx := 0, desc := d, src := 0, dep := 0, distributed := false, left := 0, remote := 0, anyTerm := false, last := none }

/-- Partition 0 owns a tile; context 0 of ASID 0 is valid; function 0 is enabled for it. -/
def ownSt : State := withDev (fun d => { d with ctxs := [(0, BitVec.ofNat 128 (2 ^ 47))], funcs := [(0, 1#128)] }) (ownTile st0)

/-- LaunchEvents: the queue port busy, with a bad submission, with a good one; and busy for want of room in the table of its die. -/
theorem witness_LaunchEvents_port :
    let full := withHts (fun h => { h with launches := List.replicate 4096 (lnch (recOf (2 ^ 560 + 2 ^ 880))) }) ownSt
    ({ ownSt with boot := { ownSt.boot with rel := false } } : State).boot.rel = false ∧ ownSt.boot.rel = true ∧ ¬2 ≤ (ownSt.mig 0).state ∧
    ownSt.hts.subs = [] ∧ ownSt.occcap 0 = 0 ∧ 127 ≠ 128 ∧ fld (ownSt.func 0) 0 0 = 1 ∧ (ownSt.asidCtx (fld (ownSt.func 0) 87 72)).isSome = true ∧
    ownSt.memOk ∧ ownSt.recordOk recOf 0 0 = true ∧ ownSt.launchRoom recOf 0 = true ∧
    full.recordOk (recOf (2 ^ 560)) 0 0 = true ∧ full.launchRoom (recOf (2 ^ 560)) 0 = false := by decide +kernel

/-- LaunchEvents: a die instance that waits and has room, its partition with and without a current context; a record refused; a
record taken, a waiting launch divided; nothing to do; an instance from another module. -/
theorem witness_LaunchEvents_distribute :
    let i : DieInst := ⟨0, 0, [(0, none)], 0, 0, none⟩
    let u : Submission := ⟨0, 0, 0, 0, recOf⟩
    let s := { withHts (fun h => { h with waiting := [i], launches := [{ lnch recOf with distributed := true, left := 1 }] }) ownSt with
      slices := [⟨0, 0, 0, false⟩] }
    let r := withHts (fun h => { h with subs := [{ u with desc := 0 }] }) ownSt
    let g := withHts (fun h => { h with subs := [u] }) ownSt
    let l := { withHts (fun h => { h with launches := [lnch recOf] }) ownSt with slices := [⟨0, 0, 0, false⟩] }
    s.htsUsed 0 < 4096 ∧ s.hts.waiting[0]? = some i ∧ (s.launchOf i.key).isSome = true ∧ s.curCtx 0 ≠ none ∧ ownSt.curCtx 0 = none ∧
    r.recordOk 0 0 0 = false ∧ g.recordOk recOf 0 0 = true ∧ g.launchRoom recOf 0 = true ∧
    g.hts.waiting = [] ∧ l.hts.launches[0]? = some (lnch recOf) ∧ Rec.named recOf = false ∧ l.assign (lnch recOf) = [(0, 0)] ∧
    Rec.dieOf recOf 0 = none ∧ Rec.quadInst recOf 0 = none ∧ l.hasRect 0 0 none (Rec.height recOf) (Rec.width recOf) = true ∧
    l.htsUsed 0 < 4096 ∧ l.curCtx 0 ≠ none ∧ ownSt.hts.launches = [] ∧ ownSt.hts.subs = [] ∧ (ownSt.asidCtx 0).isSome = true ∧
    ownSt.recordOk recOf 0 0 = true ∧ st0.asidCtx 0 = none ∧ Rec.named (recOf (2 ^ 560)) = true ∧ ownSt.recordOk (recOf (2 ^ 560)) 0 0 = true ∧
    (1#6 : BitVec 6).toNat ≠ ownSt.dev.midx := by decide +kernel

/-- LaunchEvents: a window that has ended, its bucket filled already and not, and one that has not ended. -/
theorem witness_LaunchEvents_buckets :
    let s : State := { st0 with cycle := 1024 }
    let full := withDev (fun d => { d with refilled := [((0, 0), 1024)] }) s
    s.cycle % 1024 = 0 ∧ tabGet s.dev.refilled (0, 0) 0 ≠ s.cycle ∧ tabGet full.dev.refilled (0, 0) 0 = full.cycle ∧
    ({ st0 with cycle := 1025 } : State).cycle % 1024 ≠ 0 := by decide +kernel

/-- PlacementEvents: an entry whose needs are known, its partition's turn, a place for its task; and no place once a fen holds
the tile. -/
theorem witness_PlacementEvents_attempt :
    let i : DieInst := ⟨0, 0, [(0, none)], 0, 0, some []⟩
    let s : State := { withHts (fun h => { h with launches := [lnch recOf], insts := [i] }) ownSt with
      fens := [], slices := [⟨0, 0, 0, false⟩] }
    let full : State := { s with fens := [fenOf (coreOf [])] }
    (∀ q ∈ List.range 16, (s.sliceOf q).any (fun z => !z.stopped) = true ∨ ∀ c ∈ List.range 32, s.runnable q c = false) ∧
    s.headInst 0 0 = some (0, i) ∧ (∀ q ∈ List.range 16, q ≠ 0 → s.headInst 0 q = none) ∧ s.hts.rounds = [] ∧ s.hts.stuck = [] ∧
    s.launchOf 0 = some (lnch recOf) ∧ s.owns 0 ⟨0, 1, 1⟩ = true ∧ s.tileFree ⟨0, 1, 1⟩ = true ∧ Rec.height recOf = 1 ∧ Rec.width recOf = 1 ∧
    full.headInst 0 0 = some (0, i) ∧ full.tileFree ⟨0, 1, 1⟩ = false ∧ s.owns 0 ⟨0, 1, 2⟩ = false := by decide +kernel

/-- PlacementEvents: a start before its first turn, at an image that is absent, at its end; an entry that has waited long, and
one that has not. -/
theorem witness_PlacementEvents_start :
    let x := fun (k : Nat) => { fenOf (coreOf []) with state := 1, loading := k }
    let s := fun (k : Nat) => ({ withHts (fun h => { h with launches := [lnch recOf] }) ownSt with fens := [x k] } : State)
    let i : DieInst := ⟨0, 0, [(0, none)], 6, 0, some []⟩
    let a : State := { withHts (fun h => { h with launches := [lnch recOf], insts := [i] }) ownSt with cycle := 1200000 }
    (∀ k ∈ [0, 2, 5], (s k).fens[0]? = some (x k) ∧ (x k).state = 1 ∧ (s k).fenFrozen (x k) = false ∧ (s k).launchOf (x k).launch = some (lnch recOf)) ∧
    (s 0).memOk ∧ (s 0).mem.full.Nodup ∧ Rec.img recOf 1 = 0 ∧ Rec.img recOf 0 ≠ 0 ∧
    ((a.hts.insts.zipIdx.filter (fun q => q.1.die == 0 && !q.1.tasks.isEmpty))[0]? = some (i, 0)) ∧ a.launchOf 0 = some (lnch recOf) ∧
    ¬7 ≤ i.prio ∧ ¬a.cycle < i.since + 1200000 ∧ a.frozen 0 0 = false ∧ ({ a with cycle := 1199999 } : State).cycle < i.since + 1200000 := by
  decide +kernel

/-! ## Placement, completion, balancing -/

/-- An image with one empty tile section, for a fen of two rows and two columns; its CRC is that of R108. -/
def imgBytes : List Byte :=
  toLE 60 (0x4D4C + 2 ^ 16 + 2 * 2 ^ 48 + 2 * 2 ^ 56 + 1 * 2 ^ 400 + 1120 * 2 ^ 448) ++ toLE 4 3546044470 ++ List.replicate 1056 0#8

theorem loaded_of {r : ImgStep} (h : (match r with | .loaded _ => true | _ => false) = true) : ∃ m, r = .loaded m := by
  cases r with
  | loaded m => exact ⟨m, rfl⟩
  | more _ _ _ => cases h
  | wait _ => cases h
  | refused _ _ => cases h

set_option maxRecDepth 100000 in
/-- PlacementEvents: a start that has an image's bytes in hand. -/
theorem witness_PlacementEvents_image :
    let x := { fenOf { coreOf [] with img := imgBytes } with state := 1, loading := 1 }
    let s : State := { withHts (fun h => { h with launches := [lnch recOf] }) ownSt with fens := [x] }
    Rec.img recOf 0 ≠ 0 ∧ ∃ m, s.imgStep x (fcReq 0 x) (Rec.img recOf 0) x.core.img = .loaded m :=
  ⟨by decide +kernel, loaded_of (by decide +kernel)⟩

/-- PlacementEvents: a task that has finished, at each stage of its completion: its accesses answered or not, its launch with
more tasks, with this last one, with and without a completion word and a successor. -/
theorem witness_PlacementEvents_complete :
    let x := fun (k : Nat) => { fenOf { coreOf [] with phase := .halted } with drain := k }
    let l := fun (d : Rec) (n : Nat) => { lnch d with distributed := true, left := n }
    let s := fun (k : Nat) (d : Rec) (n : Nat) => ({ withHts (fun h => { h with launches := [l d n] }) (mapSt (coreOf []) [tlbAt ⟨0, 0, 1⟩ 0x4000 .spread 0] (List.range 32)) with
      fens := [x k] } : State)
    (∀ k ∈ [0, 1, 2, 3], (x k).live = true ∧ (x k).finished = true ∧ (s k recOf 1).fenFrozen (x k) = false ∧ (x k).state ≠ 1 ∧
      (s k recOf 1).launchOf (x k).launch = some (l recOf 1)) ∧ (s 0 recOf 1).memOk ∧ (s 1 recOf 1).xl.ext = [] ∧ 2 ≤ (l recOf 2).left ∧
    (l recOf 1).src = (s 1 recOf 1).dev.midx ∧ Rec.complw recOf = 0 ∧ Rec.succen recOf = false ∧
    (∀ m ∈ (s 1 recOf 1).hts.launches, m.key = 0) ∧
    (∀ m ∈ (s 3 recOf 1).hts.launches, ¬(m.distributed = true ∧ m.left = 0)) := by decide +kernel

/-- PlacementEvents: a completion word that is mapped, a successor with no holder, an access that awaits its answer and a write on
its way. -/
theorem witness_PlacementEvents_store :
    let d := recOf (0x4000 * 2 ^ 640 + 2 ^ 703)
    let x := { fenOf { coreOf [] with phase := .halted } with drain := 2 }
    let l := { lnch d with distributed := true, left := 0 }
    let s : State := { withHts (fun h => { h with launches := [l] })
      (mapSt (coreOf []) [tlbAt ⟨0, 0, 1⟩ 0x4000 .spread 0] (List.range 32)) with fens := [x] }
    let e : Ext := ⟨rqOf 0, 0, .read, 0, 0, 0, none, none, false⟩
    let q : Packet := ⟨0, rqOf 0, some 0, false, .west 0 0, .west 0 0, 1, 0, .ack⟩
    Rec.complw d = 0x4000 ∧ s.Reaches x (fcReq 0 x) .write (Rec.complw d) 8 ph0 ∧ ¬(∀ u ∈ [e], u.req.fen = some 0 → u.resp.isSome = true) ∧
    ({ s with net := { s.net with packets := [q] } } : State).sending 0 = true ∧ s.sending 0 = false ∧ x.finished = true ∧
    Rec.succen d = true ∧ Rec.succen (recOf (0x4000 * 2 ^ 640)) = false ∧ l.anyTerm = false ∧ l.src = s.dev.midx ∧
    s.hts.launches.filter (fun m => m.key != l.key) = [] ∧ s.hts.credits = [] ∧ s.htsUsed (Rec.succdie d) < 4096 :=
  ⟨by decide +kernel, reaches_of (by decide +kernel), by decide +kernel⟩

/-- PlacementEvents: a window of the balancer, a bottleneck and a node that is none. -/
theorem witness_PlacementEvents_balancer :
    let h : NodeHdr := { n2 .f32 with clone := true }
    let a : Node := nd (.vadd h) []
    let b : Node := { nd (.vadd h) [] (slot := 2) with stalled := 2048 }
    let w : Wire := ⟨.node ⟨0, 1, 1⟩ 2 0, 1, .node ⟨0, 1, 1⟩ 1 0, 2, false⟩
    let m := { Mantle.blank with nodes := [a, b], wires := [w] }
    let x := fenMan (coreOf []) m
    let s : State := { st0 with fens := [x], cycle := 4096 }
    let since : Nat → Nat → Nat := fun now then' => (now + 2 ^ 32 - then') % 2 ^ 32
    s.cycle % 4096 = 0 ∧ x.live = true ∧ s.fenFrozen x = false ∧ x.mantles[0]? = some (some m) ∧ m.nodes[0]? = some a ∧
    w ∈ m.wires ∧ w.kind = 1 ∧ w.dst = .node a.tile a.slot 0 ∧ m.source 64 w = some b ∧ 2048 ≤ since b.stalled b.seen.1 ∧
    since a.stalled a.seen.1 < 256 ∧ since a.starved a.seen.2 < 256 ∧ m.nodes[1]? = some b ∧ ¬since b.stalled b.seen.1 < 256 ∧
    s.cloneIn x 1 = none ∧ ({ s with cycle := 4095 } : State).cycle % 4096 ≠ 0 := by
  decide +kernel

/-- A fen whose only node the balancer may clone, and the module in which the partition owns every lane of its die. -/
def clonable (i : Instr) (opc : Nat) (mem : NodeMem) (inq : List (List Beat)) : Node :=
  { nd i inq mem with wins := 8, opc := opc }
def cloneFen (n : Node) : Fen :=
  { fenMan (coreOf []) { Mantle.blank with nodes := [n], wires := [⟨.node ⟨0, 1, 1⟩ 2 0, 1, .node ⟨0, 1, 1⟩ 1 0, 2, false⟩, ⟨.node ⟨0, 1, 1⟩ 1 0, 1, .node ⟨0, 1, 1⟩ 3 0, 2, false⟩] } with
    height := 1, width := 1 }
def cloneSt (x : Fen) : State :=
  let all := (allTiles.filter (fun t => t.die == 0)).flatMap (fun t => (ownerOfs t 0, 16) :: (List.range 32).map (fun k => (ownerOfs t (k + 1), 16)))
  { withDev (fun d => { d with owners := all }) with fens := [x] }

/-- PlacementEvents: a node that the balancer may clone, with its firing over and in progress; an atom node. -/
theorem witness_PlacementEvents_clone :
    let h : NodeHdr := { n2 .f32 with clone := true, guard := .off }
    let g : NodeHdr := { h with in1 := .const 0, out0 := .none }
    let a := clonable (.vadd h) 1 NodeMem.blank [[⟨0, 5, none, false⟩]]
    let b := clonable (.vadd h) 1 { NodeMem.blank with owe := [(0, ⟨0, 0, none, false⟩)] } []
    let c := clonable (.atom g 0 0) 0x45 NodeMem.blank []
    (∀ n ∈ [a, b, c], ((cloneSt (cloneFen n)).cloneIn (cloneFen n) 1).isSome = true ∧
      (cloneFen n).mantle.isSome = true) ∧ a.mem.owe = [] ∧ a.mem.win = [] ∧ b.mem.owe ≠ [] ∧
    (cloneSt (cloneFen a)).cloneIn (cloneFen a) 2 = none := by decide +kernel

/-! ## Slices, freezes, migration -/

/-- A module whose partition 0 has a slice, with a task of context c placed, or ready. -/
def slcSt (placed : List Nat) (ready : Bool) : State :=
  { withHts (fun h => { h with launches := [{ lnch recOf with ctx := 1 }], insts := if ready then [⟨0, 0, [(0, none)], 0, 0, none⟩] else [] }) ownSt with
    fens := placed.map (fun c => { fenOf (coreOf []) with ctx := c }), slices := [⟨0, 0, 0, false⟩], cycle := 120000 * 20 }

/-- SliceEvents: a slice that goes on; one whose context is alone, runnable and not; one with a next context, its own placed and
not; a clock that stands, with a runnable context and without. -/
theorem witness_SliceEvents_end :
    let z : Slice := ⟨0, 0, 0, false⟩
    let stop := fun (s : State) => ({ s with slices := [⟨0, 0, 0, true⟩] } : State)
    (slcSt [] false).sliceOf 0 = some z ∧ ¬z.since + 120000 * fld ((slcSt [] false).part 0) 63 48 ≤ ({ slcSt [] false with cycle := 5 } : State).cycle ∧
    z.since + 120000 * fld ((slcSt [] false).part 0) 63 48 ≤ (slcSt [] false).cycle ∧ (slcSt [] false).frzOf 0 0 = none ∧
    (∀ j ∈ List.range 32, 1 ≤ j → (slcSt [0] false).runnable 0 ((0 + j) % 32) = false) ∧ (slcSt [0] false).runnable 0 0 = true ∧
    (slcSt [] false).runnable 0 0 = false ∧ (slcSt [] true).runnable 0 1 = true ∧ (slcSt [] true).ctxPlaced 0 0 = false ∧
    (slcSt [0] true).runnable 0 1 = true ∧ (slcSt [0] true).ctxPlaced 0 0 = true ∧ (slcSt [0] true).frzOf 0 1 = none ∧
    (stop (slcSt [0] false)).runnable 0 0 = true ∧ 0 < fld ((slcSt [0] false).part 0) 63 48 ∧ (stop (slcSt [0] false)).frzOf 0 0 = none ∧
    (stop (slcSt [0] false)).sliceOf 0 = some ⟨0, 0, 0, true⟩ ∧ (∀ c ∈ List.range 64, (stop (slcSt [] false)).runnable 0 c = false) := by
  decide +kernel

/-- SliceEvents: a freeze that waits for nothing, and one that waits for a block, for a walk, for a fill, for a response. -/
theorem witness_SliceEvents_freeze :
    let z : Frz := ⟨0, 0, .stalling, 0, 0, 0, some 1, [], [], []⟩
    let s : State := { slcSt [0] true with frz := [z] }
    let x := { fenOf { coreOf [] with phase := .granted } with ctx := 0 }
    let q : Packet := ⟨0, rqOf 0, some 0, true, .west 0 0, .west 0 0, 1, 0, .ack⟩
    s.memOk ∧ s.frz.find? (fun y => y.part == 0 && y.st == .stalling) = some z ∧
    (∀ y ∈ s.fens, ¬(y.core.phase = .granted ∨ y.core.phase = .commit)) ∧ s.xl.walks = [] ∧ s.emt.fills = [] ∧ s.net.packets = [] ∧
    (∃ y ∈ ({ s with fens := [x] } : State).fens, y.live = true ∧ y.part = 0 ∧ y.ctx = z.ctx ∧ y.core.phase = .granted) ∧
    (walkOf .read true false).running = true ∧ (askOf 5) ∈ (walkOf .read true false).reqs ∧ (askOf 5).req.fen = some 0 ∧ (rqOf 0).fen = some 0 ∧
    q.resp = true ∧ q.src.fen = some 0 ∧ (s.fens[0]?).map (fun y => (y.part, y.ctx)) = some (0, z.ctx) := by decide +kernel

/-- SliceEvents: a freeze of a block in its commit that awaits an answer from outside the module; one whose save area the host holds a
line of, and one of which it holds none. -/
theorem witness_SliceEvents_outside :
    let z : Frz := ⟨0, 0, .stalling, 0, 0, 0, some 1, [], [], []⟩
    let x := { fenOf { coreOf [] with phase := .commit } with ctx := 0 }
    let e : Ext := ⟨coreReq 0 x, 0, .write, 0x4000, keyHost 0, 8, none, none, false⟩
    let s : State := withXl (fun u => { u with ext := [e] }) { slcSt [0] true with frz := [z], fens := [x] }
    let held : State := { s with emt := { s.emt with hostHas := [(keySpread (s.saveArea 0 0) + 4095) / 128] } }
    s.frz.find? (fun y => y.part == 0 && y.st == .stalling) = some z ∧ e.req.fen = some 0 ∧ e.req.srck = 0 ∧ x.core.phase = .commit ∧
    s.emt.hostHas.find? (fun l => s.inSave 0 z.ctx l) = none ∧
    held.emt.hostHas.find? (fun l => held.inSave 0 z.ctx l) = some ((keySpread (s.saveArea 0 0) + 4095) / 128) ∧
    s.xl.walks = [] ∧ s.emt.fills = [] ∧ s.net.packets = [] := by decide +kernel

/-- SliceEvents: an answer that comes beside another operation answered before it, on another place, on the last byte of its place and
on none. -/
theorem witness_SliceEvents_answer :
    let e : Ext := ⟨rqOf 0, 0, .rmw, 0, 100, 8, none, none, false⟩
    let d : Nat → Ext := fun k => ⟨rqOf 1, 0, .rmw, 0, k, 8, none, some [], false⟩
    e.resp = none ∧ ¬(108 < e.key + e.len) ∧ (d 107).key < e.key + e.len ∧ e.key < (d 107).key + (d 107).len ∧ (d 107).acc = .rmw ∧ (d 107).resp ≠ none ∧
    (withXl (fun x => { x with ext := [e, d 107] }) st0).xl.ext[0]? = some e := by decide +kernel

/-- A module that switches from context 0, which is saved, to context 1 of function 1. -/
def swSt : State :=
  withDev (fun d => { d with funcs := [(1, BitVec.ofNat 128 (1 + 1 * 2 ^ 11 + 0x20 * 2 ^ 88))] })
    { slcSt [] true with frz := [⟨0, 0, .saved, 0, 0, 4096, some 1, [], [], []⟩] }

/-- SliceEvents: a switch to a context that was never saved, to one whose image is good, and to one whose image is not. -/
theorem witness_SliceEvents_switch :
    let z : Frz := ⟨0, 0, .saved, 0, 0, 4096, some 1, [], [], []⟩
    let y : Frz := ⟨0, 1, .saved, 0, 0, 28, none, [], [], []⟩
    let bytes : List Byte := toLE 24 (0x5346 + 2 ^ 16)
    let s : State := { swSt with frz := [z, y] }
    let good := State.withBytes s (keySpread 0x20000) (bytes ++ toLE 4 (crc32c (bytes ++ List.replicate 4 0)))
    swSt.memOk ∧ swSt.frz.find? (fun u => u.part == 0 && u.st == .saved && u.next.isSome) = some z ∧ swSt.runnable 0 1 = true ∧
    swSt.frzOf 0 1 = none ∧ s.frzOf 0 1 = some y ∧ s.restoreOk 0 y = false ∧ s.ctxFns 0 1 = [1] ∧ s.runnable 0 1 = true ∧
    (∀ j ∈ List.range 32, 1 ≤ j → s.runnable 0 ((1 + j) % 32) = false) ∧ good.restoreOk 0 y = true := by decide +kernel

/-- A save image whose CRC is that of its bytes. -/
def sealed (h r : List Byte) : List Byte := h ++ (toLE 4 (crc32c (h ++ List.replicate 4 0 ++ r)) ++ r)

theorem sealed_crc {h r : List Byte} (hl : h.length = 24) :
    crc32c ((sealed h r).take 24 ++ List.replicate 4 0 ++ (sealed h r).drop 28) = imgAt (sealed h r) 24 4 := by
  have hd : (sealed h r).drop 24 = toLE 4 (crc32c (h ++ List.replicate 4 0 ++ r)) ++ r := List.drop_left' hl
  have h28 : (sealed h r).drop 28 = r := by
    rw [show 28 = 24 + 4 from rfl, ← List.drop_drop, hd]
    exact List.drop_left' (length_toLE 4 _)
  have hc : crc32c (h ++ List.replicate 4 0 ++ r) < 256 ^ 4 := crc32c_lt _
  rw [imgAt, hd, List.take_left' (length_toLE 4 _), leNat_toLE, Nat.mod_eq_of_lt hc, h28, sealed, List.take_left' hl]

/-- An image of one compute tile, with a core in it. -/
def zeros (n : Nat) : List Byte := List.replicate n 0
def tileHead : List Byte := toLE 24 (0x5346 + 2 ^ 16 + 2 ^ 40 + 2 ^ 48)
def tileRest : List Byte := zeros 4068 ++ (toLE 8 (1 * 2 ^ 8 + 1 * 2 ^ 16 + 1 * 2 ^ 32) ++ zeros 573432)
def tileImage : List Byte := sealed tileHead tileRest

theorem length_tileImage : tileImage.length = 577536 := by
  simp only [tileImage, sealed, tileRest, tileHead, zeros, List.length_append, length_toLE, List.length_replicate]

/-- An image good in its bytes and its tiles passes the checks of a restore. -/
theorem restoreOk_of {s : State} {p : Nat} {z : Frz} {img : List Byte} (h : s.mem.getSpread (s.saveArea p z.ctx) z.size = img)
    (h1 : imgAt img 0 2 = 0x5346 ∧ imgAt img 2 2 = 1) (h2 : crc32c (img.take 24 ++ List.replicate 4 0 ++ img.drop 28) = imgAt img 24 4)
    (h3 : (imageTiles img).all (s.owns p) = true) (h4 : (s.ctxMpts p z.ctx).all (s.owns p) = true) : s.restoreOk p z = true := by
  rw [State.restoreOk, h]
  simp only [h1.1, h1.2, h2, h3, h4, beq_self_eq_true, Bool.and_self]

/-- The module of a switch with a restore from that image. -/
def imgFrz : Frz := ⟨0, 1, .saved, 0, 0, 577536, none, [], [], []⟩
def imgBase : State :=
  { withDev (fun d => { d with owners := (ownerOfs ⟨0, 1, 0⟩ 0, 16) :: d.owners }) swSt with
    frz := swSt.frz ++ [imgFrz], fens := [{ fenOf (coreOf []) with ctx := 1 }] }
def imgSt : State := imgBase.updMem (fun m => m.putSpread 0x20000 tileImage)

theorem updMem_mem (s : State) (g : Memory → Memory) : (s.updMem g).mem = g s.mem := rfl

theorem imgSt_image : imgSt.mem.getSpread (imgSt.saveArea 0 imgFrz.ctx) imgFrz.size = tileImage := by
  have hs : imgSt.saveArea 0 imgFrz.ctx = 0x20000 := by decide +kernel
  have hn : imgFrz.size = tileImage.length := length_tileImage.symm
  rw [hs, hn, imgSt, updMem_mem]
  exact Memory.getSpread_putSpread (m := imgBase.mem) (by decide +kernel) tileImage (by rw [length_tileImage]; decide)

/-- SliceEvents: a restore that gives a tile its bytes and a core its registers. -/
theorem witness_SliceEvents_image :
    let img := imgSt.mem.getSpread (imgSt.saveArea 0 imgFrz.ctx) imgFrz.size
    imgSt.memOk ∧ imgSt.frz.find? (fun u => u.part == 0 && u.st == .saved && u.next.isSome) = some ⟨0, 0, .saved, 0, 0, 4096, some 1, [], [], []⟩ ∧
    imgSt.runnable 0 1 = true ∧ imgSt.frzOf 0 1 = some imgFrz ∧ imgSt.restoreOk 0 imgFrz = true ∧ imageTiles img = [⟨0, 1, 1⟩] ∧
    4096 + 573440 * (0 + 1) ≤ img.length ∧ imgSt.ctxFens 0 1 = [(0, { fenOf (coreOf []) with ctx := 1 })] ∧
    imgAt img 6 2 = 1 ∧ imgAt img 4099 1 = 0 ∧ imgAt img 4100 1 ≠ 0 := by
  have htiles : imageTiles tileImage = [⟨0, 1, 1⟩] := by decide +kernel
  have hok : imgSt.restoreOk 0 imgFrz = true := restoreOk_of imgSt_image (by decide +kernel) (sealed_crc (length_toLE 24 _))
    (by rw [htiles]; decide +kernel) (by decide +kernel)
  simp only [imgSt_image]
  rw [htiles, length_tileImage]
  have hm : imgSt.memOk := by
    rw [State.memOk, imgSt, updMem_mem]
    exact Memory.wf_putSpread (m := imgBase.mem) (by decide +kernel) _ _
  exact ⟨hm, by decide +kernel, by decide +kernel, by decide +kernel, hok,
    rfl, by decide, by decide +kernel, by decide +kernel, by decide +kernel, by decide +kernel⟩

/-- SliceEvents: a restore that ends, its flits and a task that waited; one that awaits an answer; an answer that comes, and one
that has come. -/
theorem witness_SliceEvents_restore :
    let z : Frz := ⟨0, 0, .restoring, 0, 0, 0, none, [⟨0, 0, .west 0 0, 1⟩], [], []⟩
    let s : State := { slcSt [0] true with frz := [z] }
    let e : Ext := ⟨rqOf 0, 0, .read, 0, 0, 0, none, none, false⟩
    s.frz.find? (fun y => y.part == 0 && y.st == .restoring) = some z ∧ s.xl.ext = [] ∧ s.xl.pending = [] ∧ s.migs = [] ∧
    e.resp = none ∧ e.req.fen = some 0 ∧ (withXl (fun x => { x with ext := [e] }) s).xl.ext[0]? = some e ∧ ({ e with resp := some [] } : Ext).resp ≠ none := by
  decide +kernel

/-- A record of the migration stream as the statement writes it, with a CRC. -/
def recBytes (a : Nat) (b : List Byte) (crc : Nat) : List Byte := toLE 2 1 ++ toLE 2 0 ++ toLE 4 4096 ++ toLE 8 a ++ b ++ toLE 4 crc

/-- SliceEvents: migration states 0 to 4 of a function with no tasks and with one, its page mapped, its sleeve empty and full; a stop
of a context that is saved already. -/
theorem witness_SliceEvents_migration :
    let blank : Mig := ⟨0, false, 0, 0, 0, 0, [], [], [], [], 0, 0, false, false, []⟩
    let at' := fun (m : Mig) => ({ walkSt 0x75 0x7D [] with migs := [(1, m)] } : State)
    let s := at' blank
    let big : List Byte := List.replicate 4096 0
    s.boot.rel = true ∧ (1#7 : BitVec 7) ≠ 0#7 ∧ s.memOk ∧ (s.mig 1).state = 0 ∧ s.fnPart 1 = 0 ∧ s.frzOf 0 0 = none ∧
    (at' { blank with state := 1 }).mig 1 = { blank with state := 1 } ∧ ((at' blank).migs.map (fun q => q.1)).Nodup ∧
    (∀ x ∈ ({ s with fens := [] } : State).fens, ¬(x.live = true ∧ x.part = 0 ∧ x.ctx = 0)) ∧
    (∃ x ∈ s.fens, x.live = true ∧ x.part = 0 ∧ x.ctx = 0) ∧ s.hasTasks 1 = false ∧ s.hasTasks 0 = true ∧
    ({ s with slices := [⟨0, 0, 0, false⟩] } : State).sliceOf 0 = some ⟨0, 0, 0, false⟩ ∧ 4096 ≤ big.length ∧
    s.pageKey 0 0x5000 = some (keySpread 0x5000) ∧ s.mem.poison = [] ∧ s.mem.fixed = [] ∧ s.mem.transit = [] ∧
    (∀ q ∈ (at' blank).migs, q.1 ≠ 1 → q.2.state ≠ 2) ∧
    ({ s with frz := [⟨0, 0, .saved, 0, 0, 4096, none, [], [], []⟩] } : State).frzOf 0 0 = some ⟨0, 0, .saved, 0, 0, 4096, none, [], [], []⟩ := by
  decide +kernel

/-- SliceEvents: a destination that has a whole page record in hand, with a good CRC and with another. -/
theorem witness_SliceEvents_records (a : Nat) :
    let b : List Byte := List.replicate 4096 0
    let h := toLE 2 1 ++ toLE 2 0 ++ toLE 4 4096 ++ toLE 8 a ++ b
    let crc := (crc32c h + 1) % 2 ^ 32
    b.length = 4096 ∧ crc < 2 ^ 32 ∧ crc ≠ crc32c h ∧ recBytes a b crc ++ List.replicate 12 0 = h ++ toLE 4 crc ++ List.replicate 12 0 ∧
    12 ≤ (List.replicate 12 (0#8 : Byte)).length ∧ ([] : List Byte).length < 16 := by
  intro b h crc
  refine ⟨List.length_replicate, Nat.mod_lt _ (by decide), ?_, rfl, by decide, by decide⟩
  show (crc32c h + 1) % 2 ^ 32 ≠ crc32c h
  omega

/-! ## Host registers -/

/-- HostRegisterEvents: the fabric not yet released; a verdict for no fault, for one of a frozen context, and for one whose fen
runs. -/
theorem witness_HostRegisterEvents_verdict :
    let x : XFault := ⟨0x4000, .read, 1, 1⟩
    let p : Pending := ⟨7, 0, 0, x, rqOf 0, true, none, []⟩
    let s := withXl (fun x => { x with pending := [p] })
    let z : State := { s with frz := [⟨0, 0, .stalling, 0, 0, 0, none, [], [], []⟩] }
    let first : State → Option Pending := fun s => s.xl.pending.find? (fun p => p.seq == 7 && p.fn == 0 && p.repl && p.verdict.isNone)
    State.reset.boot.rel = false ∧ s.boot.rel = true ∧ s.memOk ∧ first st0 = none ∧ first s = some p ∧ first z = some p ∧
    z.frozen (s.fnPart 0) (s.fnCtx 0) = true ∧ p.req.fen.isSome = true ∧ s.frozen (s.fnPart 0) (s.fnCtx 0) = false ∧ p.req.srck ≠ 3 ∧
    s.fens[0]? = some (fenOf (coreOf [])) ∧ (fenOf (coreOf [])).live = true ∧ (fenOf (coreOf [])).term = none ∧
    (withDev (fun d => { d with pages := [(0, { st0.page 0 with term := true })] }) s).page 0 = { st0.page 0 with term := true } := by
  decide +kernel

/-- HostRegisterEvents: an ASID that is the function's own and one that is not; a tensor table with room. -/
theorem witness_HostRegisterEvents_window :
    (ownSt.asidCtx 0).isSome = true ∧ ownSt.asidFn 0 = 0 ∧ st0.asidCtx 0 = none ∧ ownSt.dev.tensors.length < 16384 ∧
    (withDev (fun d => { d with tensors := [row 4 .i32 0x4000] }) ownSt).dev.tensors.find? (fun e => fld e.toNat 511 484 == 0) = some (row 4 .i32 0x4000) := by
  decide +kernel

/-- HostRegisterEvents: an operation on the tensor window while none runs, while the same one runs, and while another runs. -/
theorem witness_HostRegisterEvents_busy :
    let q := { st0.page 0 with twBusy := true, twOp := 2, twAsid := 1, twTnum := 7 }
    (st0.page 0).twBusy = false ∧ q.twBusy = true ∧ q.twOp = 2 ∧ q.twAsid = (1#16).toNat ∧ q.twTnum = (7#12).toNat ∧ q.twOp ≠ 1 ∧
    (withDev (fun d => { d with pages := [(0, q)] }) ownSt).page 0 = q := by decide +kernel

/-- HostRegisterEvents: a tensor table that is full, without an entry of the number written. -/
theorem witness_HostRegisterEvents_full (e : BitVec 512) (h : fld e.toNat 511 484 ≠ 0) :
    (List.replicate 16384 e).find? (fun e => fld e.toNat 511 484 == 0) = none ∧ 16384 ≤ (List.replicate 16384 e).length := by
  refine ⟨List.find?_eq_none.2 fun x hx => ?_, Nat.le_of_eq List.length_replicate.symm⟩
  rw [(List.mem_replicate.1 hx).2]
  simpa using h

/-- HostRegisterEvents: an invalidation that may start, one that may not, one in progress; its completion, held up by a block, by
a request in the network, by an answer awaited, and not; a walk in progress that it concerns. -/
theorem witness_HostRegisterEvents_invalidate :
    let busy := withDev (fun d => { d with pages := [(0, { st0.page 0 with invBusy := true, invKind := 2 })] }) ownSt
    let pr := fenOf { coreOf [] with effs := [(0, .store ph0 0x4000 [1#8])], phase := .granted }
    let q : Packet := ⟨0, rqOf 0, some 0, false, .west 0 0, .west 0 0, 1, 0, .ack⟩
    let e : Ext := ⟨rqOf 0, 0, .read, 0, 0, 0, none, none, false⟩
    (ownSt.page 0).invBusy = false ∧ (ownSt.asidCtx 0).isSome = true ∧ ownSt.asidFn 0 = 0 ∧ (busy.page 0).invBusy = true ∧
    (busy.page 0).invKind = 2 ∧ (busy.page 0).invId = 0 ∧
    (∀ x ∈ busy.fens, x.core.held = [] ∧ x.ports.all (fun p => p.cmds.isEmpty) = true ∧ x.mantles.all Option.isNone = true) ∧ busy.xl.ext = [] ∧ busy.reds = [] ∧ busy.net.packets = [] ∧
    pr.core.held = [(ph0, 0x4000, 1)] ∧ ph0.typ ≠ .scratch ∧ pr.core.phase = .granted ∧ q.resp = false ∧ q.src.fen = some 0 ∧ (busy.fens[0]?).map Fen.asid = some 0 ∧
    e.resp = none ∧ e.asid = 0 ∧ (walkOf .read true false).running = true ∧ (walkOf .read true false).asid = 0 := by decide +kernel

/-- HostRegisterEvents: stores held back of a block that has not passed its point of no return: one whose place a kind 1 invalidation
names by its last byte, one beyond it, one of scratch; reads on the way that go by a translation that is removed. -/
theorem witness_HostRegisterEvents_drops :
    let c : Phys → Nat → Core := fun ph va => { coreOf [] with effs := [(0, .store ph va [1#8, 2#8])] }
    let meets : Nat → Nat → Prop := fun a n => a < 0x4000 + 4096 * 1 ∧ 0x4000 < a + n
    let h : Ahead := ⟨1, 0x4008, some ph0, none⟩
    let e := { el 0x4000#64 with home := some ph0 }
    (c ph0 0x4FFF).held = [(ph0, 0x4FFF, 2)] ∧ meets 0x4FFF 2 ∧ ¬meets 0x5000 2 ∧ ¬meets 0x3FFE 2 ∧ meets 0x3FFF 2 ∧ ph0.typ ≠ .scratch ∧
    (scratchPhys ⟨0, 1, 1⟩ 0).typ = .scratch ∧ (c ph0 0).phase = .run ∧ h.got = none ∧ h.home = some ph0 ∧ e.got = none ∧ e.home = some ph0 ∧
    meets h.va 16 := by decide +kernel

/-- HostRegisterEvents: a read of the host, with the fabric released and not; BOOTSTAT. -/
theorem witness_HostRegisterEvents_read :
    let s : State := { st0 with sched := [.hostRead 0 0x98] }
    s.boot.off = false ∧ s.sched = .hostRead 0 0x98 :: [] ∧ s.boot.rel = true ∧ State.reset.boot.rel = false ∧ 0x98 % 8 = 0 ∧ 0x5100 % 8 = 0 ∧
    (withDev (fun d => { d with pages := [(0, { st0.page 0 with term := true })] }) st0).barRead 0 0x98 = 1 ∧ st0.barRead 0 0x98 = 0 := by
  decide +kernel

/-- HostRegisterEvents: a fault record held for want of room, and HEAD's write that makes room; a busy function, an idle one;
a context entry that would clash; owner bytes that a running fen uses. -/
theorem witness_HostRegisterEvents_writes :
    let r : RingRegs := ⟨0x10000, 4, 16, 0⟩
    let s := withDev (fun d => { d with pages := [(0, { st0.page 0 with fr := r, heldRec := [1#256] })] })
    let c := withDev (fun d => { d with ctxs := [(0, BitVec.ofNat 128 (2 ^ 47 + 5 * 2 ^ 64)), (1, BitVec.ofNat 128 (5 * 2 ^ 64))] })
    (s.page 0).heldRec = [1#256] ∧ ¬({ r with head := 4 } : RingRegs).NoRoom ∧ st0.fnBusy 0 = true ∧ st0.fnBusy 1 = false ∧ st0.anyBusy = true ∧
    ({ st0 with fens := [] } : State).anyBusy = false ∧ fld (tabGet c.dev.ctxs 0 0#128).toNat 79 64 = fld (tabGet c.dev.ctxs 1 0#128).toNat 79 64 ∧
    (withDev (fun d => { d with hdmLock := true })).dev.hdmLock = true ∧ st0.dev.hdmLock = false ∧ (ownedAt 0x588).isSome = true ∧
    st0.fens.any (fun x => (ownedAt (128 * 11)).any (fun o => x.live && x.uses o.1 o.2)) = true := by
  unfold RingRegs.NoRoom
  decide +kernel

/-! ## The module -/

/-- ModuleEvents: an access of the host within the range and beyond it, before release; a claim that reserves its bytes; a line
present; an import entry that names a peer, and none. -/
theorem witness_ModuleEvents_access :
    let s := withDev (fun d => { d with hdmSize := 1 })
    let q := withDev (fun d => { d with imports := [(3, BitVec.ofNat 128 (1 + 12 + 5 * 2 ^ 54 + 2 * 2 ^ 58 + 1 * 2 ^ 64))] })
    let e := (tabGet q.dev.imports 3 0#128).toNat
    State.reset.boot.rel = false ∧ s.memOk ∧ s.boot.rel = true ∧ 0x1000 + 8 ≤ s.dev.hdmSize * 2 ^ 30 ∧ s.dev.hdmBase * 2 ^ 30 + 0x1000 + 8 ≤ 512 * 10 ^ 9 ∧ s.xl.ext = [] ∧ ¬0x1000 + 8 ≤ st0.dev.hdmSize * 2 ^ 30 ∧
    s.mem.fixed = [] ∧ (∀ x ∈ s.fens, x.core.phase ≠ .granted) ∧
    fld e 0 0 = 1 ∧ fld e 63 58 = (2#6).toNat ∧ fld e 57 54 = (5#4).toNat ∧ fld e 2 2 = 1 ∧ fld e 3 3 = 1 ∧ 0x100 + 8 ≤ fld e 87 64 * 2 ^ 21 ∧
    ((∀ u ∈ q.xl.ext, u.acc = .rmw → u.resp = none) ∧ q.frz = [] ∧ (⟨0, 0, .stalling, 0, 0, 0, none, [], [], []⟩ : Frz).part = fld e 53 50) ∧
    (∀ k ∈ List.range 3, fld (tabGet q.dev.imports k 0#128).toNat 0 0 = 0) ∧ (∀ k ∈ List.range 64, fld (tabGet st0.dev.imports k 0#128).toNat 0 0 = 0) := by
  decide +kernel

/-- ModuleEvents: a peer's access while a freeze of the entry's partition is not complete and while it is; an operation of a peer on
a place that nothing holds; the first byte beyond the entry. -/
theorem witness_ModuleEvents_peer :
    let q := withDev (fun d => { d with imports := [(3, BitVec.ofNat 128 (1 + 12 + 5 * 2 ^ 54 + 2 * 2 ^ 58 + 1 * 2 ^ 64))] })
    let e := (tabGet q.dev.imports 3 0#128).toNat
    let z : FrzSt → Frz := fun t => ⟨fld e 53 50, 0, t, 0, 0, 0, none, [], [], []⟩
    fld e 53 50 = 0 ∧ (z .stalling).st ≠ .saved ∧ (z .saved).st = .saved ∧ q.frz = [] ∧ q.foreignHeld 0x100 8 = false ∧ q.Clean ∧
    fld e 127 88 * 4096 + 0x100 + 8 ≤ 512 * 10 ^ 9 ∧ 2 ^ 21 - 8 + 8 ≤ fld e 87 64 * 2 ^ 21 ∧ ¬2 ^ 21 - 7 + 8 ≤ fld e 87 64 * 2 ^ 21 ∧
    q.boot.rel = true ∧ q.memOk := by
  unfold State.Clean
  decide +kernel

/-- ModuleEvents: the responder before and from step 5 on, within a session and outside one. -/
theorem witness_ModuleEvents_spdm :
    let b := State.reset.boot
    b.step < 5 ∧ 5 ≤ ({ b with step := 5 } : Boot).step ∧ b.session = false ∧ ({ b with session := true } : Boot).session = true ∧
    ¬(1 = 0 ∨ 6 < 1) ∧ 6 < 7 := by decide +kernel

/-- ModuleEvents: a port that is up, one that is down and has been for long, with an access that awaits its answer; the steps of
bring-up; an image that is refused. -/
theorem witness_ModuleEvents_boot :
    let d : State := { st0 with boot := { st0.boot with down := [(3, 0)] }, cycle := 2 ^ 24 }
    let e : Ext := ⟨rqOf 0, 0, .read, 0, 0, 0, some 3, none, false⟩
    let img : Firmware := ⟨List.replicate 256 0, [], 0, 0⟩
    let b := State.reset.boot
    d.boot.down.find? (fun p => p.1 == 3) = some (3, 0) ∧ 0 + 2 ^ 24 ≤ d.cycle ∧ [e].filter (fun e => e.port == some 3 && e.resp.isNone) = [e] ∧
    st0.boot.down = [] ∧ b.step < 5 ∧ 5 ≤ ({ b with step := 5 } : Boot).step ∧ b.rel = false ∧ b.held = false ∧ b.step = 0 ∧ b.firmware = [] ∧
    leNat (img.header.take 4) ≠ 0x46574C50 ∧ ({ b with firmware := [img] } : Boot).accepts img = false ∧
    (match ({ b with train := [false] } : Boot).train with | [] => true | r :: _ => r) = false := by decide +kernel

/-! ## Steps and encodings -/

/-- A state whose schedule names an agent. -/
def schedSt (a : Agent) (s : State) : State := { s with sched := [a] }

/-- StepRunsDecoded: a core's word, its granted word, a fetch, a commit, a command, a finished command, a node, an event; and a
schedule that is empty. -/
theorem witness_StepRunsDecoded :
    let run := coreOf [] [0x00304200#32]
    let gr := { coreOf [] [0x80518768#32] with phase := .granted, nrix := 0 }
    let c := cmdOf (.cnop hdr0)
    (schedSt (.core 0) (coreSt run)).sched = .core 0 :: [] ∧ st0.boot.off = false ∧ st0.boot.rel = true ∧ run.phase = .run ∧ run.wfe = none ∧
    run.words[run.idx]? = some 0x00304200#32 ∧ decodeTableWord 32 0x00304200 = some (.add 3#6 1#6 2#6) ∧ gr.phase = .granted ∧ gr.before = [] ∧
    gr.words[gr.nrix]? = some 0x80518768#32 ∧ decodeTableWord 32 0x80518768 = some (.amoAdd false 5#6 6#6 7#6 3#3) ∧
    ({ coreOf [] with phase := .fetch } : Core).traps = [] ∧ (coreOf []).words.length ≤ (coreOf []).idx ∧ (coreOf []).prep = none ∧
    (cmdSt agPort c).cmdAt 0 0 0 = some c ∧ c.done = false ∧ (nodeFen (nd (.vadd (n2 .f32)) [])).mantle.isSome = true ∧ (coreSt run).sched = [] := by
  decide +kernel

/-- WordsRoundTrip and RecordsRoundTrip: instructions of each width that meet the checks. -/
theorem witness_RoundTrips :
    (Instr.add 3#6 1#6 2#6).wf = true ∧ (Instr.add 3#6 1#6 2#6).width = 32 ∧ (Instr.cnop hdr0).wf = true ∧ (Instr.cnop hdr0).width = 128 ∧
    (Instr.vadd { n2 .f32 with slot := 1#8 }).wf = true ∧ (Instr.vadd (n2 .f32)).width = 256 := by decide +kernel

/-- MemoryStaysCanonical: a step that goes on from a canonical memory. -/
theorem witness_MemoryStaysCanonical :
    let s := schedSt (.core 0) (coreSt (coreOf [] [0x00304200#32]))
    s.memOk ∧ after (step s) (fun _ => true) = true := by decide +kernel

end Sys2Proof.Tests
end

