-- ==== Sys2Proof/Tests/Slice0.lean ====
section
/-! SUPPORT. The smoke test of the checks on terms, and tests of the events. -/
namespace Sys2Proof.Tests
set_option Elab.async false
open Sys2Proof.Machine

/-! ## Terms that are no well-formed instruction, one for each check -/

/-- fpRmOk, cvtOk, the qualifiers of ld and st, condOk, scopeOk and countOk refuse. -/
theorem test_ill_formed_scalars :
    [.fadd 1#6 2#6 3#6 true true 1#2, .fsqrt 1#6 2#6 true true 1#2, .cvt 1#6 2#6 false 0#2 false .cf8 .f32,
     .cvt 1#6 2#6 false 0#2 false .f32 .ki, .cvt 1#6 2#6 true 2#2 false .f32 .f64, .cvt 1#6 2#6 false 1#2 false .i8 .i16,
     .ld 1#6 2#6 .i8 .set 0#9, .st 1#6 2#6 .i8 .keep 0#9, .st 1#6 2#6 .i8 .clear 0#9, .br .always 1#6 0#17,
     .call .always 1#6 0#17, .fence 6#3, .binit 1#6 2#6 7#3, .bwait 1#6 2#6 3#6 6#3, .lda false 1#6 2#6 6#3,
     .stl true 1#6 2#6 6#3, .cas true 1#6 2#6 3#6 7#3, .amoSwap true 1#6 2#6 3#6 7#3, .rwfill 1#6 2#5 0#15,
     .rpush 2#5 0#15].all (fun i : Instr => !i.wf) = true := by decide +kernel

/-- The checks of commands refuse: the scope, OP 3, fields that must be 0, alignment, RET 0 with ROFS. -/
theorem test_ill_formed_commands :
    (let h : CmdHdr := ⟨false, false, 0#3, 0#7, .none⟩
     [.cnop { h with scope := 6#3 }, .copyred h 0#12 0#2 false 0#12 3#2 0#16 0#16, .fill h 0#12 false 1#11 0#15 0#32,
      .fill h 0#12 false 0#11 1#15 0#32, .agload h 0#8 32#48, .qput h 0#8 0#5 32#48, .qget h 0#8 0#5 1#48,
      .mred h 0#12 0#2 false 3#2 0#11 0#15 0#8 0#8 0#12 0#5, .matom h 0#12 7#4 0#11 0#15 false 0#15 false,
      .matom h 0#12 0#4 0#11 0#15 false 1#15 false, .launch h 64#48].all (fun i : Instr => !i.wf)) = true := by decide +kernel

/-- The checks of records refuse: the slot, VAR, FMT, a missing reference, RM where it is reserved, a guard slot beyond 12,
CLONE with a guard. -/
theorem test_ill_formed_records :
    (let n : NodeHdr := ⟨0#4, .f32, 2#8, .circuit 0#2 0#3, .circuit 0#2 1#3, .none, .none, .circuit 1#2 0#3, .none, .off, 0#2, false, false⟩
     (Instr.vadd n).wf &&
     [.vadd { n with slot := 5#8 }, .vadd { n with var := 1#4 }, .vadd { n with fmt := .ki }, .vadd { n with in1 := .none },
      .vmin { n with rm := 1#2 }, .vmax { n with sat := true }, .vadd { n with guard := .near false 13#4 },
      .vadd { n with clone := true, guard := .reed 0#2 0#4 }, .sink { n with slot := 11#8 } 0#16].all (fun i : Instr => !i.wf)) = true := by
  decide +kernel

/-! ## Translation -/

/-- R318: the walk that starts is of the partition whose turn it is, and the turn passes on. -/
theorem test_walkStart :
    let s := withXl (fun x => { x with walks := [walkOf .read false false] })
    after (exec (.walkStart 0) s) (fun t => t.xl.walks == [walkOf .read true false] && (t.xl.turn[0]?).getD 9 == 1) = true := by
  decide +kernel

/-- R314: a walk of two levels ends in the translation of its leaf. -/
theorem test_walkComplete :
    after (exec (.walkComplete 0 0) (walkSt 0x75 0x7D [walkOf .read true false]))
      (fun t => t.xl.walks.isEmpty && t.xl.tlbs.map (fun e => (e.asid, e.part)) == [(0, 0)] && t.xl.pending.isEmpty) = true := by
  decide +kernel

/-- R308: a fill that ends leaves its line present. -/
theorem test_lineFill :
    after (exec (.lineFill 5) { st0 with emt := { st0.emt with fills := [(rqOf 0, 5)] } })
      (fun t => t.emt.fills.isEmpty && t.emt.lines.any (fun l => l.line == 5)) = true := by decide +kernel

/-- R310: a timer that has run out acts; one that has not does nothing. -/
theorem test_retryTimer :
    let s : State := { st0 with emt := { st0.emt with timers := [⟨rqOf 0, 5, 10, 1, false⟩] } }
    after (exec (.retryTimer 0) { s with cycle := 10 }) (fun t => t != { s with cycle := 10 }) = true ∧
    after (exec (.retryTimer 0) { s with cycle := 9 }) (fun t => t == { s with cycle := 9 }) = true := by decide +kernel

/-! ## Launches, placement, completion -/

/-- R379: the queue port takes a record of a size of 128 bytes, and refuses one of another size. -/
theorem test_qportSubmit :
    after (exec (.qportSubmit 0 128 recOf) ownSt) (fun t => t.hts.subs.map (fun u => u.desc) == [recOf]) = true ∧
    after (exec (.qportSubmit 0 64 recOf) ownSt) (fun t => t.hts.subs.isEmpty) = true := by decide +kernel

/-- R331, R335: a good record becomes a launch, which is then divided into one instance. -/
theorem test_distribute :
    let s := withHts (fun h => { h with subs := [⟨0, 0, 0, 0, recOf⟩] }) ownSt
    after (exec .distribute s) (fun t => t.hts.launches.map (fun l => l.desc) == [recOf] && t.hts.subs.isEmpty &&
      after (exec .distribute t) (fun u => u.hts.insts.length == 1)) = true := by decide +kernel

/-- R338: the task at the head goes to a free tile of its partition. -/
theorem test_placementAttempt :
    let i : DieInst := ⟨0, 0, [(0, none)], 0, 0, some []⟩
    let s : State := { withHts (fun h => { h with launches := [lnch recOf], insts := [i] }) ownSt with fens := [], slices := [⟨0, 0, 0, false⟩] }
    after (exec (.placementAttempt 0) s) (fun t => t.fens.map (fun x => (x.die, x.row0, x.col0, x.state)) == [(0, 1, 1, 1)]) = true := by
  decide +kernel

/-- R337: an entry that has waited 1,000,000 ns rises by one priority. -/
theorem test_aging :
    let i : DieInst := ⟨0, 0, [(0, none)], 6, 0, some []⟩
    let s : State := { withHts (fun h => { h with launches := [lnch recOf], insts := [i] }) ownSt with cycle := 1200000 }
    after (exec (.aging 0 0) s) (fun t => t.hts.insts.map (fun i => i.prio) == [7]) = true := by decide +kernel

/-- R342: a task's last step leaves its fen. -/
theorem test_taskComplete :
    let x := { fenOf { coreOf [] with phase := .halted } with drain := 3 }
    let s : State := { withHts (fun h => { h with launches := [{ lnch recOf with distributed := true, left := 1 }] }) st0 with fens := [x] }
    after (exec .taskComplete s) (fun t => t != s) = true := by decide +kernel

/-- R344: the balancer reads the counters at every 4096th cycle; a node that no stalled node feeds is no bottleneck. -/
theorem test_balancerWindow :
    let m := { Mantle.blank with nodes := [{ nd (.vadd (n2 .f32)) [] with stalled := 7, wins := 1 }] }
    let s : State := { st0 with fens := [fenMan (coreOf []) m], cycle := 4096 }
    after (exec (.balancerWindow 0) s) (fun t => t.fens.all (fun x => (x.mantle.map (fun m => m.nodes.map (fun n => (n.seen, n.wins)))) == some [((7, 0), 0)])) = true := by
  decide +kernel

/-- R378: only a window's end refills the buckets. -/
theorem test_rateRefill : after (exec (.rateRefill 0 0) { st0 with cycle := 1025 }) (fun t => t == { st0 with cycle := 1025 }) = true := by decide +kernel

/-! ## Slices, migration -/

/-- R382: a slice whose context is alone begins again; with another context that has work it ends in a freeze. -/
theorem test_sliceEnd :
    after (exec (.sliceEnd 0) (slcSt [0] false)) (fun t => t.frz.isEmpty && t.slices.map (fun z => z.since) == [2400000]) = true ∧
    after (exec (.sliceEnd 0) (slcSt [0] true)) (fun t => t.frz.map (fun z => (z.ctx, z.st, z.next)) == [(0, .stalling, some 1)]) = true := by
  decide +kernel

/-- R388: with the next context fresh, the switch gives it the slice. -/
theorem test_contextSwitch :
    let z : Frz := ⟨0, 0, .saved, 0, 0, 4096, some 1, [], [], []⟩
    let s : State := withDev (fun d => { d with funcs := [(1, BitVec.ofNat 128 (1 + 2 ^ 11))] }) { slcSt [] true with frz := [z] }
    after (exec (.contextSwitch 0) s) (fun t => t.slices.map (fun z => z.cur) == [1]) = true := by decide +kernel

/-- R388: a restored context runs once nothing of it is in flight. -/
theorem test_restoreComplete :
    let s : State := { slcSt [0] true with frz := [⟨0, 0, .restoring, 0, 0, 0, none, [], [], []⟩] }
    after (exec (.restoreComplete 0) s) (fun t => t.frz.isEmpty) = true := by decide +kernel

/-- R383: an access outside the module takes its answer. -/
theorem test_externalResponse :
    let e : Ext := ⟨rqOf 0, 0, .read, 0, 0, 0, none, none, false⟩
    after (exec (.externalResponse 0 [7#8]) (withXl (fun x => { x with ext := [e] }) (slcSt [0] true))) (fun t => t.xl.ext.map (fun e => e.resp) == [some [7#8]]) = true := by
  decide +kernel

/-! ## Host -/

/-- R406: a verdict is given to the first fault of that SEQ that has none. -/
theorem test_faultVerdict :
    let p : Pending := ⟨7, 0, 0, ⟨0x4000, .read, 1, 1⟩, rqOf 0, true, none, []⟩
    after (exec (.faultVerdict 0 7) (withXl (fun x => { x with pending := [p] }))) (fun t => t.xl.pending.all (fun p => p.verdict.isSome)) = true := by
  decide +kernel

/-- R405: the tensor window writes an entry, reads it back and removes it. -/
theorem test_tensorWindow :
    let r := fun (n : BitVec 12) (s : State) => (exec (.twRead 0 0 n) s)
    after (exec (.twWrite 0 0 5#12) ownSt) (fun t => t.dev.tensors.length == 1 && after (r 5#12 t) (fun _ => true) &&
      after (exec (.twRemove 0 0 5#12) t) (fun u => u.dev.tensors.isEmpty)) = true := by decide +kernel

/-- R407: an invalidation by ASID removes the translations of that ASID when it completes. -/
theorem test_invAsid :
    let s := withXl (fun x => { x with tlbs := [tlbAt ⟨0, 0, 1⟩ 0x4000 .spread 0] }) { ownSt with fens := [] }
    after (exec (.invAsid 0 0) s) (fun t => (t.page 0).invBusy &&
      after (exec (.invComplete 0) t) (fun u => u.xl.tlbs.isEmpty && !(u.page 0).invBusy)) = true := by decide +kernel

/-- R407: only a function's own ASID is invalidated. -/
theorem test_invVa_foreign : after (exec (.invVa 3 0) ownSt) (fun t => !(t.page 3).invBusy) = true := by decide +kernel

/-! ## The module -/

/-- R411: a port goes down. -/
theorem test_portDown :
    after (exec (.portDown 3) { st0 with cycle := 9 }) (fun t => t.boot.down == [(3, 9)]) = true := by decide +kernel

/-- R412: the first step of bring-up does not release the fabric. -/
theorem test_bringUp :
    after (exec .bringUp State.reset) (fun t => !t.boot.rel) = true := by decide +kernel

/-- R411: a port that is down for 2^24 cycles completes its accesses, with an error record of kind 9. -/
theorem test_portDownTimeout :
    let e : Ext := ⟨rqOf 0, 0, .read, 0, 0, 0, some 3, none, false⟩
    let d : State := withXl (fun x => { x with ext := [e] }) { st0 with boot := { st0.boot with down := [(3, 0)] } }
    after (exec (.portDownTimeout 3) { d with cycle := 2 ^ 24 }) (fun t => t.xl.ext.all (fun e => e.resp.isSome)) = true ∧
    after (exec (.portDownTimeout 3) { d with cycle := 2 ^ 24 - 1 }) (fun t => t.xl.ext.all (fun e => e.resp.isNone)) = true := by
  decide +kernel

/-- R408: the host writes within the HDM range, and its write beyond the range faults. -/
theorem test_hostMemAccess :
    let s := withDev (fun d => { d with hdmSize := 1 })
    after (exec (.hostMemAccess 0x1000 (.write [0xAB#8])) s) (fun t => t.mem != s.mem) = true ∧
    (match exec (.hostMemAccess (2 ^ 30) (.write [0xAB#8])) s with | .fault _ => true | _ => false) = true := by decide +kernel

/-- R410: a peer that no import entry admits has no effect. -/
theorem test_peerAccess : after (exec (.peerAccess 5 0 0 0x100 (.write [1#8])) st0) (fun t => t.mem == st0.mem) = true := by
  decide +kernel

/-- R414: no answer before configuration space answers; a key is taken within a session and not outside one. -/
theorem test_spdmRequest :
    let b (open' : Bool) : State := { st0 with boot := { st0.boot with step := 5, session := open' } }
    after (exec (.spdmRequest .getDigests) State.reset) (fun t => t == State.reset) = true ∧
    after (exec (.spdmRequest (.keySet 1 [7])) (b true)) (fun t => t.boot.ideKeys == [(1, [7])]) = true ∧
    after (exec (.spdmRequest (.keySet 1 [7])) (b false)) (fun t => t.boot.ideKeys.isEmpty) = true := by decide +kernel

/-- R421: an average above WATTS is held back; so is 105 °C. -/
theorem test_power :
    after (exec (.powerWindow 2000) st0) (fun t => t.dev.throttle) = true ∧
    after (exec (.powerWindow 0) st0) (fun t => !t.dev.throttle) = true := by decide +kernel

/-- R421: at 115 °C the fabric loses its power, at 114 °C it does not. -/
theorem test_thermalTrip :
    after (exec (.thermalTrip 115) st0) (fun t => t.boot.off) = true ∧ after (exec (.thermalTrip 114) st0) (fun t => !t.boot.off) = true := by
  decide +kernel

/-- R411: an instance of another module's launch, under an ASID with a valid context here and under one without. -/
theorem test_groupLaunchInstance :
    after (exec (.groupLaunchInstance 5 0 recOf) ownSt) (fun t => t.hts.launches.length == 1) = true ∧
    after (exec (.groupLaunchInstance 5 9 recOf) ownSt) (fun t => t.hts.launches.isEmpty) = true := by decide +kernel

/-- R391: a function with a task does not resume, one without does. -/
theorem test_migResume :
    let m : State := { st0 with migs := [] }
    after (exec (.migResume 1) m) (fun t => (t.mig 1).state == 4) = true ∧ after (exec (.migResume 0) m) (fun t => (t.mig 0).state == 0) = true := by
  decide +kernel

/-- R391: RUNNING goes to PRE_COPY and back. -/
theorem test_migPreCopy :
    after (exec (.migPreCopy 1) st0) (fun t => (t.mig 1).state == 1 && after (exec (.migRun 1) t) (fun u => (u.mig 1).state == 0)) = true := by
  decide +kernel

/-- R341: a start whose image is absent does not run its task. -/
theorem test_fenStart :
    let x := { fenOf (coreOf []) with state := 1, loading := 0 }
    let s : State := { withHts (fun h => { h with launches := [lnch recOf] }) ownSt with fens := [x] }
    after (exec .fenStart s) (fun t => t.fens.all (fun y => y.state != 2)) = true := by decide +kernel

/-- R403: an offset of no register changes no memory and no fen. -/
theorem test_registerWrite_none : after (exec (.registerWrite 0 0x1FFFF8 1) st0) (fun t => t.mem == st0.mem && t.fens == st0.fens) = true := by
  decide +kernel

end Sys2Proof.Tests
end

