-- ==== Sys2Proof/Tests/Witness1.lean ====
section
/-! SUPPORT. Witnesses: states and operands that meet the hypotheses of the statements about scalar instructions, clause by
clause, at boundary values. -/
namespace Sys2Proof.Tests
set_option Elab.async false
open Sys2Proof.Machine

/-- A core has its turn: the hypothesis of the statements about integer, immediate and floating-point instructions. -/
theorem witness_core_turn : (coreSt (coreOf [])).coreHere = some (0, fenOf (coreOf [])) := by decide +kernel

/-- ImmediateResults: shifts by an immediate at both ends of the major opcodes and of bits [13:6]. -/
theorem witness_ImmediateResults_words : ∀ w ∈ [0x30000040, 0x33FFFFFF, 0x38003FC0, 0x3BFFFFFF],
    w < 2 ^ 32 ∧ 0x0C ≤ w / 2 ^ 26 ∧ w / 2 ^ 26 ≤ 0x0E ∧ w / 2 ^ 6 % 2 ^ 8 ≠ 0 := by decide

/-- TensorAddresses: a number of 4,096, one that does not resolve, one that does; each range of j; the largest rb that taddr
takes and the first it traps on; each clause of mksa at its bounds. -/
theorem witness_TensorAddresses :
    let c := coreOf [(1#6, 4096#64), (2#6, 7#64), (3#6, 6#64), (4#6, 0x7FF#64), (5#6, 0x80000#64), (6#6, 0x7FFFF#64), (7#6, 0x800#64),
      (8#6, 0x11#64), (9#6, 0x20#64)]
    let s := tensorSt c (tensorAt 0x1000)
    let e := tensorAt 0x1000
    s.coreHere = some (0, fenOf c) ∧ c.trapvec ≠ 0#64 ∧ 4096 ≤ (c.get 1#6).toNat ∧ s.goodTensor 0 (c.get 3#6).toNat = none ∧
    s.tensor 0 (c.get 3#6).toNat = none ∧ s.tensor 0 (c.get 2#6).toNat = some e ∧ s.goodTensor 0 (c.get 2#6).toNat = some e ∧
    Tensor.rank e = 2 ∧ (62#6).toNat + Tensor.rank e = 64 ∧ 64 < (63#6).toNat + Tensor.rank e ∧
    (c.get 4#6).toNat < 2 ^ 11 ∧ (c.get 4#6).toNat / 2 ^ 10 % 2 = 1 ∧ (c.get 6#6).toNat = 2 ^ 19 - 1 ∧ (c.get 5#6).toNat = 2 ^ 19 ∧
    (c.get 7#6).toNat = 2 ^ 11 ∧ ((c.get 8#6).toNat / 2 ^ 4 % 16 < (fenOf c).height ∧ (c.get 8#6).toNat % 8 < (fenOf c).width) ∧
    ¬(c.get 9#6).toNat / 2 ^ 4 % 16 < (fenOf c).height := by decide +kernel

/-- CsrResults: numbers at both ends of each assigned range, one beyond each, csr.cycle, an unfrozen fen. -/
theorem witness_CsrResults :
    let c := coreOf []
    (coreSt c).coreHere = some (0, fenOf c) ∧ (coreSt c).fenFrozen (fenOf c) = false ∧ c.trapvec ≠ 0#64 ∧
    (0x11#12).toNat ≤ 0x11 ∧ ¬(0x12#12).toNat ≤ 0x11 ∧ ¬0x18 ≤ (0x17#12).toNat ∧ 0x18 ≤ (0x18#12).toNat ∧
    (0x1C#12).toNat ≤ 0x1C ∧ ¬(0x1D#12).toNat ≤ 0x1C ∧ 0x1D#12 ≠ 0x020#12 := by decide +kernel

/-- ControlTransfers: each condition met and not met at 0 and at its neighbours. -/
theorem witness_ControlTransfers :
    let c := coreOf [(1#6, 1#64), (2#6, 0xFFFFFFFFFFFFFFFF#64)]
    (coreSt c).coreHere = some (0, fenOf c) ∧ (c.get 0#6).toInt = 0 ∧ 0 < (c.get 1#6).toInt ∧ (c.get 2#6).toInt < 0 := by
  decide +kernel

/-- TrapEntry: a core with a handler, and a running fen's core without one. -/
theorem witness_TrapEntry :
    let c := coreOf []
    let d := { coreOf [] with trapvec := 0#64 }
    (coreSt c).coreHere = some (0, fenOf c) ∧ c.trapvec ≠ 0#64 ∧
    (coreSt d).coreHere = some (0, fenOf d) ∧ d.trapvec = 0#64 ∧ (fenOf d).live = true ∧ (fenOf d).term = none ∧ d.phase = .run := by
  decide +kernel

/-- FenceAndEvents: the flag set and clear; a wait in its last cycle. -/
theorem witness_FenceAndEvents :
    let c := { coreOf [] with flag := true }
    let d := { coreOf [] with wfe := some 0 }
    (coreSt c).coreHere = some (0, fenOf c) ∧ c.flag = true ∧ ({ coreSt d with cycle := 65535 } : State).coreHere = some (0, fenOf d) ∧
    d.flag = false ∧ 65535 < d.wfe.getD 65535 + 65536 := by decide +kernel

/-- ScratchAccesses: the last 8 bytes of a tile's scratch, its granule full, empty, and held by no one; lda and stl there. -/
theorem witness_ScratchAccesses :
    let c := coreOf [(2#6, scr 1 1 0x7FFF8)]
    let s := coreSt c
    let k := keyScratch ⟨0, 2, 2⟩ 0x7FFF8
    let s1 := s.updMem (fun m => m.mark (k / 16) 1 true)
    s.coreHere = some (0, fenOf c) ∧ s.mem.poison = [] ∧ s.mem.fixed = [] ∧
    (fenOf c).space (fenOf c).anchor (ldAddr c 2#6 .d64 0#9).toNat = .scratch ⟨0, 2, 2⟩ 0x7FFF8 ∧
    (ldAddr c 2#6 .d64 0#9).toNat % widthOf .d64 = 0 ∧ s1.coreHere = some (0, fenOf c) ∧ s1.granFull c (k / 16) = true ∧
    s1.granHeld 0 (k / 16) = false ∧ s.granFull c (k / 16) = false ∧ s.granHeld 0 (k / 16) = false ∧
    (fenOf c).space (fenOf c).anchor (c.get 2#6).toNat = .scratch ⟨0, 2, 2⟩ 0x7FFF8 ∧ (c.get 2#6).toNat % 8 = 0 ∧
    okIs (s.charge (coreReq 0 (fenOf c)) (scratchPhys ⟨0, 2, 2⟩ 0x7FFF8) 0) () s = true := by decide +kernel

/-- The access of a core at an address that its carrier maps. -/
theorem witness_GlobalAccesses_mapped :
    let c := coreOf []
    let e := fun typ => tlbAt ⟨0, 0, 1⟩ 0x4000 typ 0
    ∀ typ ∈ [MemType.mere, .spread, .host], ∀ acc ∈ [Acc.read, .write],
      (mapSt c [e typ]).tlbFind (.micro ((fenOf c).carrierOf (fenOf c).anchor)) 0 0 0x4FF8 = some (e typ) ∧ Tlb.lacks (e typ) acc = none ∧
      (e typ).within 0x4FF8 = true ∧ (e typ).dirty = true ∧ (mapSt c [e typ]).xl.pending = [] := by decide +kernel

/-- GlobalAccesses: pages of a type that no EMT homes, of a type that one homes with the line cached and not, of host memory;
the last 8 bytes of the page. -/
theorem witness_GlobalAccesses :
    let c := coreOf [(2#6, 0x4FF8#64)]
    let d : Core := { c with dcache := [⟨0x4FC0, keySpread 0xFC0, List.replicate 64 1#8⟩] }
    let e := fun typ => tlbAt ⟨0, 0, 1⟩ 0x4000 typ 0
    let s := fun (c : Core) (typ : MemType) => mapSt c [e typ] [31]
    (s c .mere).coreHere = some (0, fenOf c) ∧ (s c .mere).mem.poison = [] ∧ (s c .mere).mem.fixed = [] ∧
    (ldAddr c 2#6 .d64 0#9).toNat = 0x4FF8 ∧ (e .mere).typ.inEmt = false ∧ (e .mere).typ.leaves = false ∧
    (e .spread).typ.inEmt = true ∧ d.dcache.find? (fun l => l.va == 0x4FF8 / 64 * 64 && l.key == keySpread 0xFC0) = some ⟨0x4FC0, keySpread 0xFC0, List.replicate 64 1#8⟩ ∧
    c.dcache.find? (fun l => l.va == 0x4FF8 / 64 * 64 && l.key == keySpread 0xFC0) = none ∧ (e .host).typ.leaves = true ∧
    min (0#3).toNat ((s c .mere).scopeCap (fenOf c)) = 0 ∧ 1 ≤ min (1#3).toNat ((s c .mere).scopeCap (fenOf c)) := by decide +kernel

theorem witness_GlobalAccesses_readable :
    let c := coreOf [(2#6, 0x4FF8#64)]
    let e := tlbAt ⟨0, 0, 1⟩ 0x4000 .spread 0
    let s := mapSt c [e] [31]
    let ph := Tlb.target e (s.asidFn (fenOf c).asid) 0x4FF8
    s.Maps 0 (fenOf c) .read 0x4FF8 e ∧ Readable s (coreReq 0 (fenOf c)) ph 8 ∧ s.behind (coreReq 0 (fenOf c)) (ph.key - 0x38) 64 = false := by
  exact ⟨⟨by rfl, rfl, rfl, rfl, fun p hp => by cases hp⟩, readable_of (by decide +kernel), by rfl⟩

/-- GlobalAccesses: a read of host memory whose answer has come. -/
theorem witness_GlobalAccesses_outside :
    let c := coreOf [(2#6, 0x4FF8#64)]
    let x := fenOf c
    let e := tlbAt ⟨0, 0, 1⟩ 0x4000 .host 0
    let s := mapSt c [e]
    let ph := Tlb.target e (s.asidFn x.asid) 0x4FF8
    let s := { s with xl := { s.xl with ext := [⟨coreReq 0 x, 0, .read, 0x4FF8, ph.key, 8, none, some (List.replicate 8 3#8), false⟩] } }
    s.behind (coreReq 0 x) ph.key 8 = false ∧ ∃ s1, s.outside (coreReq 0 x) .read ph 0x4FF8 8 = .ok (List.replicate 8 3#8, false) s1 := ⟨by rfl, _, by rfl⟩

/-- AddressTraps: each cause at the bounds of its range. -/
theorem witness_AddressTraps :
    let c := coreOf [(1#6, 0x1000000000000#64), (2#6, 0xFFFEFFFFFFFFFFFF#64), (3#6, 1#64), (4#6, scr 0 2 0), (5#6, 0xFFFF000080000000#64)]
    (coreSt c).coreHere = some (0, fenOf c) ∧ c.trapvec ≠ 0#64 ∧ c.phase = .run ∧ (c.get 1#6).toNat / 2 ^ 48 = 1 ∧
    (c.get 2#6).toNat / 2 ^ 48 = 0xFFFE ∧ (ldAddr c 3#6 .n16 0#9).toNat % 2 ≠ 0 ∧
    ¬((c.get 4#6).toNat / 2 ^ 20 % 2 ^ 11 % 8 < (fenOf c).width) ∧ (c.get 5#6).toNat / 2 ^ 31 % 2 ^ 17 ≠ 0 ∧
    (c.get 0#6).toNat / 2 ^ 48 = 0 := by decide +kernel

/-- A granted atomic at the last word of a tile's scratch. -/
theorem witness_AtomicResults :
    let p : Prep := ⟨scr 0 0 0x7FFFC, 1#64, 0#64, scratchPhys ⟨0, 1, 1⟩ 0x7FFFC, 0, [], [], 0⟩
    let c := { coreOf [] with phase := .granted, prep := some p }
    let s := coreSt c
    s.Granted 0 (fenOf c) p ∧ s.memOk ∧ s.Clean ∧ p.ph.typ.leaves = false ∧ Freely s (coreReq 0 (fenOf c)) p.ph 4 :=
  ⟨⟨by rfl, rfl, rfl⟩, rfl, ⟨rfl, rfl, rfl⟩, rfl, freely_of (by decide +kernel)⟩

/-- AtomicResults: a granted atomic on host memory whose answer has come. -/
theorem witness_AtomicResults_outside :
    let p : Prep := ⟨0x4FF8#64, 1#64, 0#64, ⟨.host, keyHost 0xFF8, 0, 0, 0, 0⟩, 1, [], [], 0⟩
    let c := { coreOf [] with phase := .granted, prep := some p }
    let x := fenOf c
    let s0 := coreSt c
    let s := { s0 with xl := { s0.xl with ext := [⟨coreReq 0 x, 0, .rmw, 0x4FF8, p.ph.key, 8, none, some (List.replicate 8 3#8), false⟩] } }
    s.Granted 0 x p ∧ p.ph.typ.leaves = true ∧ s.reserved (coreReq 0 x) p.ph.key 8 = false ∧ s.behind (coreReq 0 x) p.ph.key 8 = false ∧
    ∃ s1, s.outside (coreReq 0 x) .rmw p.ph p.a.toNat 8 = .ok (List.replicate 8 3#8, false) s1 :=
  ⟨⟨by rfl, rfl, rfl⟩, rfl, by decide +kernel, by decide +kernel, ⟨_, by rfl⟩⟩

/-- AtomicClaims: an atomic reached in its block; the block's claim with its location free; the same while another fen's
granted claim holds it. -/
theorem witness_AtomicClaims :
    let c := coreOf [(2#6, scr 0 0 8)]
    let p : Prep := ⟨scr 0 0 8, 0#64, 0#64, scratchPhys ⟨0, 1, 1⟩ 8, 0, [], [], 0⟩
    let d := { coreOf [] [0x80108328#32] with phase := .claim, idx := 1, prep := some p, nrv := true }
    let g := { coreOf [] with phase := .granted, prep := some p }
    let s := { coreSt d with fens := [fenOf d, fenOf g] }
    let q : Packet := ⟨0, coreReq 0 (fenOf d), some 0, false, .tile ⟨0, 1, 1⟩, .west 0 1, 2, 0, .write ⟨.spread, keySpread 64, 0, 0, 0, 0⟩ 64 [1]⟩
    (coreSt c).coreHere = some (0, fenOf c) ∧ c.phase = .run ∧
    (fenOf c).space (fenOf c).anchor (c.get 2#6).toNat = .scratch ⟨0, 1, 1⟩ 8 ∧ (c.get 2#6).toNat % 8 = 0 ∧
    (coreSt d).coreHere = some (0, fenOf d) ∧ d.phase = .claim ∧ d.words.length ≤ d.idx ∧ (coreSt d).fenFrozen (fenOf d) = false ∧
    d.asleep = false ∧ d.prep = some p ∧ d.words[d.nrix]? = some 0x80108328#32 ∧
    (fenOf d).roomFor d.cmds = true ∧ p.ph.typ = .scratch ∧ (coreSt d).reserved (coreReq 0 (fenOf d)) p.ph.key 64 = false ∧
    (coreSt d).drained 0 = true ∧ ({ coreSt d with net := { State.reset.net with packets := [q] } } : State).drained 0 = false ∧
    s.coreHere = some (0, fenOf d) ∧ s.reserved (coreReq 0 (fenOf d)) p.ph.key 64 = true := by decide +kernel

theorem witness_AtomicClaims_word : decodeScalar 0x80108328 = .ok (.amoAdd false 1#6 2#6 3#6 1#3) := by rfl

/-- BarrierResults: counts of 1, 65,535, 0 and 65,536 for binit; a live object for barv and bexp; each parity of a phase for
bwait; a parity of 2. -/
theorem witness_BarrierResults :
    let k := keyScratch ⟨0, 1, 1⟩ 32
    let c := coreOf [(2#6, scr 0 0 32), (3#6, 1#64), (4#6, 0xFFFF#64), (5#6, 0x10000#64), (6#6, 2#64)]
    let b : Bar := { phase := true, arr := 1, tx := 0, init := true, scope := 0, exparr := 1, cur := 0, last := 0, phases := 0 }
    let s := State.withBytes (coreSt c) k (b.toBytes (List.replicate 32 0#8))
    s.coreHere = some (0, fenOf c) ∧ s.memOk ∧ (fenOf c).space (fenOf c).anchor (c.get 2#6).toNat = .scratch ⟨0, 1, 1⟩ 32 ∧
    (c.get 2#6).toNat % 32 = 0 ∧ (c.get 3#6).toNat = 1 ∧ (c.get 4#6).toNat = 2 ^ 16 - 1 ∧ (c.get 0#6).toNat = 0 ∧
    (c.get 5#6).toNat = 2 ^ 16 ∧ (s.bar k).init = true ∧ (s.bar k).live = true ∧ (s.bar k).phase = true ∧ c.get 0#6 = 0#64 ∧
    c.get 3#6 = 1#64 ∧ 2 ≤ (c.get 6#6).toNat ∧ c.trapvec ≠ 0#64 := by decide +kernel

theorem witness_BarrierResults_granted :
    let p : Prep := ⟨scr 0 0 32, 0#64, 0#64, scratchPhys ⟨0, 1, 1⟩ 32, 0, [], [], 0⟩
    let c := { coreOf [] with phase := .granted, prep := some p }
    let b : Bar := { phase := false, arr := 1, tx := 0, init := true, scope := 0, exparr := 1, cur := 0, last := 0, phases := 0 }
    let s := State.withBytes (coreSt c) p.ph.key (b.toBytes (List.replicate 32 0#8))
    s.Granted 0 (fenOf c) p ∧ (s.bar p.ph.key).live = true ∧ s.barq = none ∧
    ({ s with barq := some [] } : State).Granted 0 (fenOf c) p ∧ (({ s with barq := some [] } : State).bar p.ph.key).live = true :=
  ⟨⟨by rfl, rfl, rfl⟩, by decide +kernel, rfl, ⟨by rfl, rfl, rfl⟩, by decide +kernel⟩

/-- BarrierResults: in a collecting cycle in which another core's arrival and this core's own stand. -/
theorem witness_BarrierResults_cycle :
    let p : Prep := ⟨scr 0 0 32, 0#64, 0#64, scratchPhys ⟨0, 1, 1⟩ 32, 0, [], [], 0⟩
    let c := { coreOf [] with phase := .granted, prep := some p }
    let b : Bar := { phase := false, arr := 1, tx := 0, init := true, scope := 0, exparr := 1, cur := 0, last := 0, phases := 0 }
    let s := State.withBytes (coreSt c) p.ph.key (b.toBytes (List.replicate 32 0#8))
    let up : Nat → BarUp := fun g => ⟨p.ph, 0, 0, true, 0, some (g, 0)⟩
    ∀ g ∈ [0, 1],
      let v : State := { s with barq := some [up g] }
      v.Granted 0 (fenOf c) p ∧ (v.bar p.ph.key).live = true ∧
      ((∀ u ∈ [up 1], ∀ q, u.core = some q → q.1 ≠ 0) ∧ ∃ u ∈ [up 0], ∃ q, u.core = some q ∧ q.1 = 0) := by
  intro p c b s up g hg
  refine ⟨⟨by rfl, rfl, rfl⟩, by revert hg g; decide +kernel, ?_, up 0, by simp, (0, 0), rfl, rfl⟩
  intro u hu q hq; simp [up] at hu; subst hu; cases hq; decide

/-- A queue of two elements of 8 bytes. -/
def qcb2 (head tail free : Nat) : Qcb :=
  Qcb.seal (BitVec.ofNat 512 (0x5000 + head * 2 ^ 64 + tail * 2 ^ 96 + 2 * 2 ^ 128 + 1 * 2 ^ 160 + 2 ^ 176 + free * 2 ^ 192))

/-- A granted claim on that queue. -/
def queueSt (q : Qcb) (c : Core) : State :=
  State.withBytes { coreSt c with xl := { State.reset.xl with tlbs := [tlbAt ⟨0, 0, 1⟩ 0x5000 .spread 4096] } } (keySpread 0) (toLE 64 q.toNat)

/-- The claim. -/
def queueClaim : Prep := ⟨0x4000#64, scr 0 0 8, 0#64, ⟨.spread, keySpread 0, 0, 0, 0, 0⟩, 1, [scratchPhys ⟨0, 1, 1⟩ 8], [], 0⟩

/-- QueueResults: a queue with one element of two, a full one and an empty one. -/
theorem witness_QueueResults :
    let p := queueClaim
    let c := { coreOf [] with phase := .granted, prep := some p }
    let q := fun s : State => s.qcb p.ph.key
    let s := fun z => queueSt z c
    let occ := fun z : Qcb => Qcb.count z
    (s (qcb2 3 0 1)).memOk ∧ Qcb.cap (q (s (qcb2 3 0 1))) = 2 ∧ Qcb.free (q (s (qcb2 3 0 1))) = 1 ∧ occ (q (s (qcb2 3 0 1))) = 1 ∧
    occ (q (s (qcb2 2 0 0))) = 2 ∧ Qcb.free (q (s (qcb2 2 0 0))) = 0 ∧ occ (q (s (qcb2 1 1 2))) = 0 := by decide +kernel

theorem witness_QueueResults_granted (q : Qcb) :
    let p := queueClaim
    let c := { coreOf [] with phase := .granted, prep := some p }
    (queueSt q c).Granted 0 (fenOf c) p := ⟨by rfl, rfl, rfl⟩

/-- QueueResults: claims of qenq and of qdeq, the queue full, of one element and empty, with BLK 0 and 1. -/
theorem witness_QueueResults_claim :
    let c : Instr → Core := fun i => { coreOf [] [BitVec.ofNat 32 (encodeScalar i)] with phase := .claim, idx := 1, prep := some queueClaim, nrv := true }
    let p := queueClaim
    let q : Nat → Nat → Qcb := fun tail blk => Qcb.seal (BitVec.ofNat 512 (0x5000 + tail * 2 ^ 96 + 2 * 2 ^ 128 + 1 * 2 ^ 160 +
      blk * 2 ^ 176 + 2 ^ 177 + (2 - tail) * 2 ^ 192))
    ∀ i ∈ ([.qenq 10#6 11#6, .qdeq 10#6 11#6] : List Instr), ∀ blk ∈ [0, 1], ∀ tail ∈ [0, 1, 2],
      let x := fenOf (c i)
      let s := { queueSt (q tail blk) (c i) with emt := { State.reset.emt with lines := [⟨0, 0, false⟩] } }
      let z := s.qcb p.ph.key
      s.coreHere = some (0, x) ∧ s.memOk ∧ Qcb.cap z = 2 ∧ Qcb.count z = tail ∧ Qcb.head z = 0 ∧ Qcb.tail z = tail ∧ x.anchor.quad < 16 ∧
      s.fenFrozen x = false ∧ (c i).asleep = false ∧ ((c i).words[(c i).nrix]?).any (fun w => match decodeScalar w.toNat with | .ok j => decide (j = i) | _ => false) = true ∧
      x.roomFor (c i).cmds = true ∧ s.reserved (coreReq 0 x) p.ph.key 64 = false ∧ s.drained 0 = true ∧
      okIs (s.writable (coreReq 0 x) p.ph 64) () s = true ∧ readableNow s (coreReq 0 x) p.ph 64 = true ∧ s.qcbFrozen z = false ∧
      Qcb.flt z = false ∧ s.qcbValid z x.asid x.part (x.carrier x.anchor) p.ph.key = true ∧ Qcb.mdie z = true ∧
      Qcb.esz8 z = p.esz ∧ Qcb.blk z = decide (blk = 1) := by decide +kernel

/-- QueueResults, QueueElements: the host holds no line of the control block, of either slot or of the element. -/
theorem witness_QueueResults_ours :
    let p := queueClaim
    let c := { coreOf [] with phase := .granted, prep := some p }
    let s := queueSt (qcb2 3 0 1) c
    ∀ k ∈ [0, 1], s.unsnooped (coreReq 0 (fenOf c)) p.ph
      (s.slotPhys (s.qcb p.ph.key) 0 0 ((fenOf c).carrier (fenOf c).anchor) k ++ p.elem ++
        s.slotLeaves (s.qcb p.ph.key) 0 0 ((fenOf c).carrier (fenOf c).anchor) k) = .ok () s := by
  intro p c s k hk; exact ok_of (by revert hk k; decide +kernel)

/-- QueueElements: one element between scratch and the slot, away from the control block. -/
theorem witness_QueueElements :
    let p := queueClaim
    let c := { coreOf [] with phase := .granted, prep := some p }
    let s := queueSt (qcb2 3 0 1) c
    let slot := s.slotPhys (s.qcb p.ph.key) 0 0 ((fenOf c).carrier (fenOf c).anchor) 0
    slot.length = p.elem.length ∧ (∀ a ∈ slot, a.key + 8 ≤ p.ph.key ∨ p.ph.key + 64 ≤ a.key) ∧
    (∀ a ∈ p.elem, a.key + 8 ≤ p.ph.key ∨ p.ph.key + 64 ≤ a.key) ∧
    slot.Pairwise (fun a b => a.key + 8 ≤ b.key ∨ b.key + 8 ≤ a.key) ∧ slot.map Phys.key = [keySpread 4096] := by decide +kernel

/-- QueueControl: a mapped, aligned control block for qstat; a misaligned address; a home die below 4. -/
theorem witness_QueueControl :
    let c := coreOf [(2#6, 0x4FC0#64), (3#6, 32#64)]
    let e := tlbAt ⟨0, 0, 1⟩ 0x4000 .mere 0
    let s := mapSt c [e]
    s.memOk ∧ (fenOf c).asid < 2 ^ 16 ∧ homeDie (keySpread 0) < 4 ∧ s.coreHere = some (0, fenOf c) ∧ (c.get 2#6).toNat < 2 ^ 48 ∧
    (c.get 2#6).toNat % 64 = 0 ∧ e.typ.holdsQcb = true ∧ (c.get 3#6).toNat / 2 ^ 48 = 0 ∧ (c.get 3#6).toNat % 64 ≠ 0 ∧
    c.trapvec ≠ 0#64 ∧ c.phase = .run := by decide +kernel

theorem witness_QueueControl_mapped :
    let c := coreOf [(2#6, 0x4FC0#64)]
    let e := tlbAt ⟨0, 0, 1⟩ 0x4000 .mere 0
    let s := mapSt c [e]
    let s := State.withBytes s (keyMere 0xFC0) (toLE 64 (qcb2 3 0 1).toNat)
    let ph := Tlb.target e (s.asidFn (fenOf c).asid) 0x4FC0
    s.Maps 0 (fenOf c) .rmw 0x4FC0 e ∧ Readable s (coreReq 0 (fenOf c)) ph 64 ∧ 1 ≤ Qcb.cap (s.qcb ph.key) :=
  ⟨⟨by rfl, rfl, rfl, rfl, fun p hp => by cases hp⟩, readable_of (by decide +kernel), by decide +kernel⟩

/-- A mantle with one ring. -/
def ringMan (d : Ring) : Mantle := { Mantle.blank with rings := [d] }

/-- RingResults: two slots of four filled and a third not; free slots and none; a fault; a count beyond n; a ring that nodes
or engines own. -/
theorem witness_RingResults :
    let c := coreOf []
    let s := fun d : Ring => manSt c (ringMan d)
    let full := fun (d : Ring) => (s d).updMem (fun m => m.mark (keyScratch ⟨0, 1, 1⟩ 256 / 16) 4 true)
    let y := fun d : Ring => fenMan c (ringMan d)
    let d := ringAt 4 2 256 0 2 0 0
    (full d).coreHere = some (0, y d) ∧ (State.ringView (full d) 0 c).fens[0]? = some (y d) ∧ (y d).ring (0#5).toNat = d ∧ Ring.flt d = false ∧
    (y d).ringOk d = true ∧ (2#15).toNat ≤ Ring.n d ∧ (y d).ringTile d = some ⟨0, 1, 1⟩ ∧ Ring.cons d = 0 ∧ Ring.prod d = 0 ∧
    (State.ringView (full d) 0 c).ringFilled (y d) d 2 = true ∧ (State.ringView (full d) 0 c).ringFilled (y d) d 3 = false ∧
    (State.ringView (full d) 0 c).ringFree (y d) d 2 = true ∧ (State.ringView (full d) 0 c).ringFree (y d) d 3 = false ∧
    Ring.occ d + 2 = Ring.n d ∧ Ring.n d < Ring.occ d + 3 ∧ Ring.n d < (5#15).toNat ∧ Ring.flt (Ring.fault d) = true ∧
    Ring.cons (ringAt 4 2 256 0 2 1 0) ≠ 0 ∧ (y (ringAt 4 2 256 0 2 1 0)).ringOk (ringAt 4 2 256 0 2 1 0) = true ∧
    Ring.prod (ringAt 4 2 256 0 2 0 2) ≠ 0 ∧ (y (ringAt 4 2 256 0 2 0 2)).ringOk (ringAt 4 2 256 0 2 0 2) = true ∧ c.trapvec ≠ 0#64 := by
  decide +kernel

/-- IssueAndConfig: an aligned descriptor in scratch, invalid and valid; a command and a launch command; each mantle number;
addresses below and beyond 2^48. -/
theorem witness_IssueAndConfig :
    let c := coreOf [(2#6, scr 0 0 32), (3#6, 0x26#64 <<< 56), (4#6, 0x41#64 <<< 56), (5#6, 0xFFFFFFFFFFC0#64), (6#6, 3#64), (7#6, 4#64),
      (8#6, 0x1000000000000#64)]
    let d := { c with nrv := true, nrix := 0 }
    let q : Packet := ⟨0, coreReq 0 (fenOf c), some 0, false, .tile ⟨0, 1, 1⟩, .west 0 1, 2, 0, .write ⟨.spread, keySpread 64, 0, 0, 0, 0⟩ 0x5040 [1]⟩
    let sent : State := { coreSt c with net := { State.reset.net with packets := [q] } }
    (coreSt c).coreHere = some (0, fenOf c) ∧ (fenOf c).space (fenOf c).anchor (c.get 2#6).toNat = .scratch ⟨0, 1, 1⟩ 32 ∧
    (c.get 2#6).toNat % 32 = 0 ∧ (coreSt c).mem.poison = [] ∧ (coreSt c).mem.fixed = [] ∧
    Ring.v (BitVec.ofNat 256 ((coreSt c).seenN c (keyScratch ⟨0, 1, 1⟩ 32) 32)) = false ∧ (fenOf c).ringFields (ringAt 4 2 256 0 2 0 0) = true ∧
    (c.get 3#6).toNat / 2 ^ 56 ≠ 0x41 ∧ c.phase = .run ∧ (coreSt d).coreHere = some (0, fenOf d) ∧ (d.get 4#6).toNat / 2 ^ 56 = 0x41 ∧
    d.nrv = true ∧ d.nrix = d.idx ∧ (c.get 5#6).toNat < 2 ^ 48 ∧ (c.get 5#6).toNat % 64 = 0 ∧ 3 < (c.get 7#6).toNat ∧
    (c.get 6#6).toNat ≤ 3 ∧ (c.get 0#6).toNat = (fenOf c).cur ∧ (c.get 6#6).toNat ≠ (fenOf c).cur ∧ 2 ^ 48 ≤ (c.get 8#6).toNat ∧
    okIs ((coreSt c).charge (coreReq 0 (fenOf c)) (scratchPhys ⟨0, 1, 1⟩ 32) 0) () (coreSt c) = true ∧
    sent.coreHere = some (0, fenOf c) ∧ q ∈ sent.net.packets ∧ q.src.fen = some 0 ∧ q.src.srck = 0 ∧
    c.trapvec ≠ 0#64 := by decide +kernel

theorem witness_IssueAndConfig_granted :
    let p : Prep := ⟨0, 0, 0, noPhys, 0, [], [], 0⟩
    let c := { coreOf [] with phase := .granted, prep := some p }
    (coreSt c).Granted 0 (fenOf c) p := ⟨by rfl, rfl, rfl⟩

end Sys2Proof.Tests
end

