-- ==== Sys2Proof/Tests/Witness2.lean ====
section
/-! SUPPORT. Witnesses for the statements about blocks, core events and stream commands, clause by clause. -/
namespace Sys2Proof.Tests
set_option Elab.async false
open Sys2Proof.Machine

/-! ## Blocks -/

/-- A core about to fetch the block at 0x4000, its page mapped, the block's bytes as given. -/
def fetchSt (bs : List Byte) : State :=
  State.withBytes (mapSt { coreOf [] with phase := .fetch, pc := 0x4000#64 } [tlbAt ⟨0, 0, 1⟩ 0x4000 .spread 0] (List.range 32)) (keySpread 0) bs

/-- What the first fetch block of that block reads as, with the state after. -/
def firstLine (bs : List Byte) : Option (List Byte × BitVec 32 × State) :=
  match (fetchSt bs).fetchLines 0 (fenOf { coreOf [] with phase := .fetch, pc := 0x4000#64 }) 0x4000 blockBytes 1 with
  | .ok r s => some (r.1, r.2, s)
  | _ => none

/-- FetchBlock: a block of one fetch block that is good; a bad header; an illegal word; an atomic outside NRIX. -/
theorem witness_FetchBlock :
    let c := { coreOf [] with phase := .fetch, pc := 0x4000#64 }
    let hd := fun (n nrv : Nat) => toLE 4 (0x3F * 2 ^ 26 + (n - 1) * 2 ^ 19 + nrv * 2 ^ 18)
    let good := hd 1 0 ++ toLE 4 0x00304200
    (fetchSt good).coreHere = some (0, fenOf c) ∧ c.phase = .fetch ∧ (fetchSt good).fenFrozen (fenOf c) = false ∧
    (fetchSt good).coreStopped 0 (fenOf c) = false ∧ c.pc.toNat + 64 ≤ 2 ^ 48 ∧
    (firstLine good).any (fun r => r.1.length == 64 && r.1.take 8 == good && r.2.1 == 0 && (r.2.2.fens[0]?).any (fun x => x.core.trapvec != 0)) = true ∧
    (firstLine (toLE 4 0)).any (fun r => r.1.length == 64 && leNat (r.1.take 4) / 2 ^ 26 != 0x3F) = true ∧
    (firstLine (hd 1 0 ++ toLE 4 0xFFFFFFFF)).any (fun r => r.1.length == 64) = true ∧
    (match decodeScalar 0xFFFFFFFF with | .error _ => true | _ => false) = true ∧
    (match decodeScalar 0x80108328 with | .ok i => isNonRevocable i | _ => false) = true ∧
    (match decodeScalar 0x00304200 with | .ok i => !isNonRevocable i && !isIssue i | _ => false) = true := by decide +kernel

/-- FetchBlock: a block of two fetch blocks. -/
theorem witness_FetchBlock_two :
    let bs := toLE 4 (0x3F * 2 ^ 26 + 15 * 2 ^ 19) ++ (List.replicate 16 (toLE 4 0x00304200)).flatten
    (match firstLine bs with
    | some r => (match r.2.2.fens[0]? with
        | some x => (match r.2.2.fetchLines 0 x 0x4040 (fun _ => 4 * 17 - 64) 1 with | .ok q _ => decide (q.1.length = 64) | _ => false)
        | none => false)
    | none => false) = true := by decide +kernel

/-- Commits: a block that ends without effects, by falling through, by an exit, by a halt, by an exit to a misaligned and to a
non-canonical address; and one that holds each kind of store. -/
theorem witness_Commits :
    let c := { coreOf [] [0#32] with idx := 1, pc := 0x200#64 }
    let st := fun c => coreSt c
    (st c).coreHere = some (0, fenOf c) ∧ c.phase = .run ∧ c.words.length ≤ c.idx ∧ c.prep = none ∧ c.effs = [] ∧
    (st c).fenFrozen (fenOf c) = false ∧ (fenOf c).term = none ∧ c.halting = false ∧ c.exit.getD 0x240#64 = 0x240#64 ∧
    ({ c with exit := some 0xFFFFFFFFFFC0#64 } : Core).exit.getD 0 = 0xFFFFFFFFFFC0#64 ∧ (0xFFFFFFFFFFC0#64).toNat % 64 = 0 ∧
    (0xFFFFFFFFFFC0#64).toNat < 2 ^ 48 ∧ ({ c with exit := some 1#64 } : Core).exit.isSome = true ∧ (1#64).toNat % 64 ≠ 0 ∧
    ¬(0x1000000000000#64).toNat < 2 ^ 48 ∧ c.locVec ≠ 0#64 ∧ (∀ u ∈ c.traps, u.1 ≠ 8) ∧ c.pc.toNat < 2 ^ 47 ∧
    (st c).memOk ∧ (∀ y ∈ (st c).fens, y.core.phase ≠ .granted) ∧ c.exit = none ∧ (st c).mem.full.Pairwise (· < ·) := by
  decide +kernel

/-- Commits: what the effects of a block that stores a byte and wakes the quad leave, each performed in its turn; a block whose
write-throughs are done. -/
theorem witness_Commits_performed :
    let c := { coreOf [] [0#32] with idx := 1, pc := 0x200#64, effs := [(0, .store (scratchPhys ⟨0, 1, 1⟩ 8) 8 [7#8]), (0, .sev)] }
    let s := coreSt c
    let y := { fenOf c with core := { c with phase := .commit, regs := c.loc, late0 := c.late0 && !c.releases && c.prep.isNone } }
    let r := (s.updCore 0 (fun _ => y.core)).performAll 0 y (commitOrder c.effs)
    s.coreHere = some (0, fenOf c) ∧ c.phase = .run ∧ c.words.length ≤ c.idx ∧ c.prep = none ∧ s.fenFrozen (fenOf c) = false ∧
    (fenOf c).roomFor c.cmds = true ∧ s.drained 0 = true ∧ r.1 = [] ∧ (r.2.fens[0]?).any (fun z => !r.2.accepting 0 z) = true ∧
    (fenOf c).term = none ∧ c.halting = false ∧ c.exit = none ∧ r.2.mem.get (keyScratch ⟨0, 1, 1⟩ 8) = 7#8 ∧
    s.accepting 0 (fenOf c) = false ∧ c.releases = false ∧ s.behind (coreReq 0 (fenOf c)) (keyScratch ⟨0, 1, 1⟩ 8) 1 = false ∧
    s.reserved (coreReq 0 (fenOf c)) (keyScratch ⟨0, 1, 1⟩ 8) 1 = false := by decide +kernel

theorem witness_Commits_charged :
    let c := { coreOf [] [0#32] with idx := 1, pc := 0x200#64 }
    ∀ w, (coreSt c).charge (coreReq 0 (fenOf c)) (scratchPhys ⟨0, 1, 1⟩ 8) w = .ok () (coreSt c) := by
  intro c; exact (readable_of (ph := scratchPhys ⟨0, 1, 1⟩ 8) (n := 1) (by decide +kernel)).enters _

/-- CoreEvents: a passed trap before a fetch; a wait in its 65,536th cycle; a claim held with BLK 0; a wake of quad 0 that a wake of
another quad precedes, a claim held for its queue, one in another quad, and a core without a claim. -/
theorem witness_CoreEvents :
    let c := { coreOf [] with phase := .fetch, traps := [(8, 7#64)] }
    let d := { coreOf [] with wfe := some 0 }
    let e := { coreOf [] with retry := true, asleep := true }
    let p : Prep := ⟨0x4000#64, scr 0 0 8, 0#64, ⟨.spread, keySpread 0, 0, 0, 0, 0⟩, 1, [], [], 0⟩
    let g := { coreOf [] with phase := .claim, asleep := true, prep := some p }
    let s := { coreSt g with hts := { State.reset.hts with wakes := [(1, 0), (0, p.ph.key)] }, fens := [fenOf g, { fenOf g with col0 := 5 }, fenOf e] }
    (coreSt c).coreHere = some (0, fenOf c) ∧ c.trapvec ≠ 0#64 ∧ (coreSt c).fenFrozen (fenOf c) = false ∧ d.phase = .run ∧
    0 + 65536 ≤ ({ coreSt d with cycle := 65536 } : State).cycle ∧ e.retry = true ∧ s.coreHere = some (0, fenOf g) ∧
    s.hts.wakes[1]? = some ((0#4).toNat, p.ph.key) ∧ (∀ u ∈ s.hts.wakes.take 1, u.1 ≠ (0#4).toNat) ∧
    (fenOf g).anchor.quad = (0#4).toNat ∧ g.asleep = true ∧ g.retry = false ∧ ({ fenOf g with col0 := 5 } : Fen).anchor.quad ≠ (0#4).toNat ∧
    e.phase ≠ .claim := by
  decide +kernel

/-! ## Commands -/

/-- A command that may act has its turn. -/
theorem runs_of (key : PortKey) (c : Cmd) (m : Mantle) (typ : MemType) (h : (cmdSt key c m typ).mayRun (cmdAtOf key c m) = true)
    (hb : c.bytes ≤ 4096) : (cmdSt key c m typ).Runs (cmdAtOf key c m) := ⟨rfl, h, hb, rfl⟩

/-- OrderCommands: each command that acts at once or waits for its port; an earlier command, an acquire behind another and a
later place at the fen controller; a finished command with and without an object, live or not; a copyr's last report. -/
theorem witness_OrderCommands :
    let h : CmdHdr := { hdr0 with ct := .scratch true 0#11 2#14 }
    let run := fun i => (cmdSt agPort (cmdOf i)).mayRun (cmdAtOf agPort (cmdOf i))
    run (.carrive h) = true ∧ run (.cexpect h 1#32) = true ∧ run (.cnop h) = true ∧ run (.sbar h 1#7) = true := by decide +kernel

theorem witness_OrderCommands_waits :
    let b := cmdOf (.fill { hdr0 with rel := true } 0#12 false 0#11 0#15 0#32)
    let c := { cmdOf (.fill { hdr0 with acq := true } 0#12 false 0#11 0#15 0#32) with num := 1 }
    let x : Fen := { fenMan (coreOf []) Mantle.blank with ports := [⟨.fc, [cmdOf (.cnop hdr0), { cmdOf (.cnop hdr0) with num := 2 }]⟩, ⟨agPort, [b, c]⟩] }
    isCommand c.ins = true ∧ c.done = false ∧ atOnce c.ins = false ∧ agPort ≠ .fc ∧ (x.cmdsAt agPort).take 1 = [b] ∧ b.done = false ∧
    (cmdHdr b.ins).rel = true ∧ ({ cmdSt agPort b with fens := [x] } : State).mustFollow x ⟨0, 0, 1⟩ { b with ins := .fill hdr0 0#12 true 0#11 0#15 0#32 } { c with ins := .fill hdr0 0#12 true 0#11 0#15 0#32 } = true ∧ (cmdHdr c.ins).acq = true ∧ (x.cmdsAt .fc).length = 2 := by decide +kernel

theorem witness_OrderCommands_frozen :
    let s : State := { cmdSt agPort (cmdOf (.cnop hdr0)) with frz := [⟨0, 0, .stalling, 0, 0, 0, none, [], [], []⟩] }
    s.fenFrozen (cmdFen agPort (cmdOf (.cnop hdr0))) = true := by decide +kernel

theorem witness_OrderCommands_complete :
    let h : CmdHdr := { hdr0 with ct := .scratch true 0#11 2#14 }
    let c := { cmdOf (.cnop h) with done := true, bytes := 4096 }
    let s := cmdSt .fc c
    let b : Bar := { phase := false, arr := 1, tx := 4096, init := true, scope := 0, exparr := 4, cur := 0, last := 0, phases := 0 }
    let k := keyScratch ⟨0, 1, 1⟩ 64
    let m := { Mantle.blank with rings := [ringAt 2 1 256 0 1 2 0] }
    s.fenFrozen (cmdFen .fc c) = false ∧ c.done = true ∧ c.bytes ≤ 4096 ∧ s.memOk ∧ s.xl.retried = [] ∧ s.barq = none ∧
    (cmdFen .fc c).desig (cmdFen .fc c).anchor (0#11).toNat = some ⟨0, 1, 1⟩ ∧ s.reserved ((cmdAtOf .fc c).req 0) k 32 = false ∧
    (s.bar k).live = false ∧ ((State.withBytes s k (b.toBytes (List.replicate 32 0#8))).bar k).live = true ∧
    (cmdFen agPort c m).ringOf 0 0 = ringAt 2 1 256 0 1 2 0 ∧ Ring.flt (ringAt 2 1 256 0 1 2 0) = false ∧
    (cmdFen agPort c m).ringOk (ringAt 2 1 256 0 1 2 0) = true := by decide +kernel

/-- CopyResults: a first element to read, one to write, a window that leaves a padded source, and the end. -/
theorem witness_CopyResults :
    let i : Instr := .copy hdr0 0#12 0#2 false 1#12 0#16 0#16 0#16
    let c := cmdOf i (row 2 .f32 0x4000) (row 2 .bf16 0x4100)
    let ph : Phys := Tlb.target (tlbAt ⟨0, 0, 1⟩ 0x4000 .spread 0) 0 0x4000
    (cmdSt agPort c).Runs (cmdAtOf agPort c) ∧ (cmdSt agPort c).memOk ∧ (cmdSt agPort c).Clean ∧
    (cmdSt agPort c).Reaches (cmdFen agPort c) ((cmdAtOf agPort c).req 0) .read 0x4000 4 ph :=
  ⟨runs_of _ _ _ _ (by decide +kernel) (by decide), rfl, ⟨rfl, rfl, rfl⟩, reaches_of (by decide +kernel)⟩

theorem witness_CopyResults_write :
    let i : Instr := .copy hdr0 0#12 0#2 false 1#12 0#16 0#16 0#16
    let c := { cmdOf i (row 2 .f32 0x4000) (row 2 .bf16 0x4100) with data := [1#8, 2#8, 0#8], pos := 1 }
    let ph : Phys := Tlb.target (tlbAt ⟨0, 0, 1⟩ 0x4000 .spread 0) 0 0x4102
    let dst : Nat → Nat := fun m => Tensor.addr c.ten1 (Tensor.indexOf c.ten1 m)
    c.pos < Tensor.count c.ten1 ∧ c.data.length = 1 * (2 + 1) ∧ max 1 (runLen dst 2 (Tensor.count c.ten1) c.pos 16) = 1 ∧
    (c.data[0 * (2 + 1) + 2]?).getD 0 = 0 ∧ dst c.pos = 0x4102 ∧
    (cmdSt agPort c).Reaches (cmdFen agPort c) ((cmdAtOf agPort c).req 1) .write 0x4102 2 ph :=
  ⟨by decide +kernel, rfl, by decide +kernel, rfl, by decide +kernel, reaches_of (by decide +kernel)⟩

/-- CopyResults: the data of a read issued ahead; a read that touches the element in hand. -/
theorem witness_CopyResults_window :
    let c := { cmdOf (.copy hdr0 0#12 0#2 false 1#12 0#16 0#16 0#16) (row 2 .i16 0x4000) (row 2 .i16 0x4002) with
      data := [1#8, 2#8, 0#8], early := [⟨1, 0x4002, none, some ([3#8, 4#8], 0)⟩] }
    let j := windowIx c.ten1 [0, 0, 0] (Tensor.indexOf c.ten1 1)
    let d := { c with data := [], early := [⟨0, 0x4000, some (Tlb.target (tlbAt ⟨0, 0, 1⟩ 0x4000 .spread 0) 0 0x4000), some ([3#8, 4#8], 0)⟩] }
    let e := { d with early := [⟨0, 0x4000, some (Tlb.target (tlbAt ⟨0, 0, 1⟩ 0x4000 .host 0) 0 0x4000), some ([3#8, 4#8], 0)⟩] }
    let dst : Nat → Nat := fun m => Tensor.addr c.ten1 (Tensor.indexOf c.ten1 m)
    c.data.length = 1 * (2 + 1) ∧ 1 < max 1 (runLen dst 2 (Tensor.count c.ten1) c.pos 16) ∧ Tensor.inside c.ten0 j = true ∧
    Tensor.addr c.ten0 j < dst 0 + 2 ∧ dst 0 < Tensor.addr c.ten0 j + 2 ∧ d.heldRead 0 0x4000 = some ([3#8, 4#8], 0) ∧
    (d.issuedRead 0 0x4000).map (fun g => g.home.map (fun q => q.typ.leaves)) = some (some false) ∧
    (e.issuedRead 0 0x4000).map (fun g => (g.got, g.home.map (fun q => q.typ.leaves))) = some (some ([3#8, 4#8], 0), some true) := by decide +kernel

theorem witness_CopyResults_ends :
    let c := cmdOf (.copy hdr0 0#12 0#2 false 1#12 0#16 0#16 1#16) (row 2 .f32 0x4000) (row 2 .bf16 0x4100)
    Tensor.inside c.ten0 (windowIx c.ten1 [1, 0, 0] (Tensor.indexOf c.ten1 0)) = false ∧ 0 < Tensor.count c.ten1 ∧
    Tensor.count c.ten1 ≤ 2 := by decide +kernel

/-- CopyToRing: a free tail slot and a full ring; a plain element; a CF8 token; the fill; a faulted ring. -/
theorem witness_CopyToRing :
    let i : Instr := .copyr hdr0 0#5 0#2 false 0#12 0#16 0#16 0#16
    let m := { Mantle.blank with rings := [ringAt 2 1 256 0 1 2 0] }
    let f := { Mantle.blank with rings := [ringAt 2 1 256 0 2 2 0] }
    let c := cmdOf i (row 4 .i32 0) (row 4 .i32 0x4000)
    let t := { cmdOf i (row 32 .e4m3 0) (row 32 .cf8 0x4000) with stage := 1, raw := List.replicate 50 0#8 }
    (cmdSt agPort c m).mayRun (cmdAtOf agPort c m) = true ∧ (cmdSt agPort c m).ringFree (cmdFen agPort c m) (ringAt 2 1 256 0 1 2 0) 1 = true ∧
    (cmdSt agPort c f).ringFree (cmdFen agPort c f) (ringAt 2 1 256 0 2 2 0) 1 = false ∧ c.pos < Tensor.count c.ten0 ∧
    Tensor.fmt c.ten1 ≠ .cf8 ∧ Tensor.inside c.ten1 (windowIx c.ten0 [0, 0, 0] (Tensor.indexOf c.ten0 3)) = true ∧
    Tensor.count c.ten0 * 4 ≤ Ring.bytes (ringAt 2 1 256 0 1 2 0) ∧ t.stage ≠ 0 ∧ Tensor.fmt t.ten1 = .cf8 ∧ t.sub ≠ lostSync ∧
    Tensor.inside t.ten1 (windowIx t.ten0 [0, 0, 0] (Tensor.indexOf t.ten0 0)) = true ∧
    tokenNeeds t.raw (tokenPlace t t.ten1 (windowIx t.ten0 [0, 0, 0] (Tensor.indexOf t.ten0 0))).2 ≤ t.raw.length ∧
    Ring.flt (Ring.fault (ringAt 2 1 256 0 1 2 0)) = true := by decide +kernel

theorem witness_CopyToRing_reaches :
    let m := { Mantle.blank with rings := [ringAt 2 1 256 0 1 2 0] }
    let c := { cmdOf (.copyr hdr0 0#5 0#2 false 0#12 0#16 0#16 0#16) (row 4 .i32 0) (row 4 .i32 0x4000) with stage := 1, pos := 3 }
    let ph : Phys := Tlb.target (tlbAt ⟨0, 0, 1⟩ 0x4000 .spread 0) 0 0x400C
    (cmdSt agPort c m).Reaches (cmdFen agPort c m) ((cmdAtOf agPort c m).req 3) .read 0x400C 4 ph :=
  reaches_of (by decide +kernel)

/-- CopyFromRingAndReduce: a filled head slot; the last element of the slot; a copyred's read and its combination; the ends. -/
theorem witness_CopyFromRingAndReduce :
    let i : Instr := .copyx hdr0 0#5 0#2 false 0#12 0#16 0#16 0#16
    let d := ringAt 2 1 256 3 0 2 0
    let m := { Mantle.blank with rings := [d] }
    let c := cmdOf i (row 2 .i16 0) (row 2 .i16 0x4000)
    let s := (cmdSt agPort c m).updMem (fun y => y.mark (keyScratch ⟨0, 1, 1⟩ 272 / 16) 1 true)
    let e := { c with stage := 2, pos := 1, data := [3#8, 4#8, 0#8] }
    let long := { cmdOf i (row 9 .i16 0) (row 9 .i16 0x4000) with stage := 1 }
    (cmdSt agPort c m).mayRun (cmdAtOf agPort c m) = true ∧ s.ringFilled (cmdFen agPort c m) d 1 = true ∧ Ring.flt d = false ∧
    (cmdFen agPort c m).ringOk d = true ∧ min (Tensor.count c.ten0 - 0) (16 / 2) = 2 ∧
    long.data.length / 3 + min (Tensor.count long.ten0 - long.data.length / 3) (16 / 2) < Tensor.count long.ten0 ∧
    e.pos < Tensor.count e.ten0 ∧ (e.data[2]?).getD 0 = 0 ∧
    max 1 (runLen (fun m => Tensor.addr e.ten1 (windowIx e.ten0 [0, 0, 0] (Tensor.indexOf e.ten0 m))) 2 (Tensor.count e.ten0) e.pos 16) = 1 ∧
    Tensor.addr e.ten1 (windowIx e.ten0 [0, 0, 0] (Tensor.indexOf e.ten0 1)) = 0x4002 := by decide +kernel

theorem witness_CopyFromRingAndReduce_rmw :
    let c := { cmdOf (.copyred hdr0 0#12 0#2 false 1#12 0#2 0#16 0#16) (row 1 .i32 0x4000) (row 1 .i32 0x4010) with data := toLE 4 3 }
    let ph : Phys := Tlb.target (tlbAt ⟨0, 0, 1⟩ 0x4000 .spread 0) 0 0x4010
    (cmdSt agPort c).Runs (cmdAtOf agPort c) ∧ c.data ≠ [] ∧ c.bad = false ∧ c.pos < Tensor.count c.ten1 ∧
    (cmdSt agPort c).Reaches (cmdFen agPort c) ((cmdAtOf agPort c).req 0) .rmw 0x4010 4 ph :=
  ⟨runs_of _ _ _ _ (by decide +kernel) (by decide), by decide, rfl, by decide +kernel, reaches_of (by decide +kernel)⟩

/-- GatherScatterFill: an index, the last row within the tensor and the first beyond it, a row complete, each end; both fills. -/
theorem witness_GatherScatterFill :
    let g : Instr := .gather hdr0 0#12 0#11 4#15 0#15 0#12 false
    let c := cmdOf g (row 2 .i32 0x4000)
    let e := { c with stage := 1, sub := 1 }
    let b := { c with stage := 1, sub := 2 }
    let w := { c with stage := 1, sub := 1, data := [1#8, 2#8, 3#8, 4#8, 0#8] }
    (cmdSt gsPort c).mayRun (cmdAtOf gsPort c) = true ∧ (cmdFen gsPort c).desig (cmdFen gsPort c).anchor (0#11).toNat = some ⟨0, 1, 1⟩ ∧
    c.pos ≤ (0#12).toNat ∧ ¬1 ≤ (0#12).toNat ∧ e.sub < Tensor.size e.ten0 (Tensor.rank e.ten0 - 1) ∧
    Tensor.size b.ten0 (Tensor.rank b.ten0 - 1) ≤ b.sub ∧ e.data.length / 5 < 1 ∧ w.data.length = 1 * (4 + 1) ∧
    (w.data[4]?).getD 0 = 0 ∧ b.data = [] ∧ (1 * 4 + 15) / 16 * 16 = 16 ∧ Tensor.addr e.ten0 (Tensor.indexOf e.ten0 1) = 0x4004 := by
  decide +kernel

theorem witness_GatherScatterFill_reads :
    let c := { cmdOf (.gather hdr0 0#12 0#11 4#15 0#15 0#12 false) (row 2 .i32 0x4000) with stage := 1, sub := 1 }
    let ph : Phys := Tlb.target (tlbAt ⟨0, 0, 1⟩ 0x4000 .spread 0) 0 0x4004
    (cmdSt gsPort c).Runs (cmdAtOf gsPort c) ∧ (cmdSt gsPort c).memOk ∧ (cmdSt gsPort c).Clean ∧
    (cmdSt gsPort c).Reaches (cmdFen gsPort c) ((cmdAtOf gsPort c).req 0) .read 0x4004 4 ph :=
  ⟨runs_of _ _ _ _ (by decide +kernel) (by decide), rfl, ⟨rfl, rfl, rfl⟩, reaches_of (by decide +kernel)⟩

/-- GatherScatterFill: a CF8 row of two granules, its token read for the first and for the second; the first granule whole. -/
theorem witness_GatherScatterFill_token :
    let pitched : BitVec 512 := BitVec.ofNat 512 (0x4000 + 32 * 2 ^ 64 + 2 ^ 96 + 2 ^ 224 + 2 ^ 256 + 25 * 2 ^ 448 + 2 * 2 ^ 426 + Fmt.cf8.code * 2 ^ 432 + 2 ^ 463)
    let c := { cmdOf (.gather hdr0 0#12 0#11 4#15 0#15 0#12 false) pitched with stage := 1, raw := List.replicate 50 0#8 }
    let e := { c with stage := 17 }
    let w := { c with data := List.replicate 32 0#8 }
    Tensor.count c.ten0 / Tensor.size c.ten0 (Tensor.rank c.ten0 - 1) = 32 ∧ (e.stage - 1) / 1 + e.data.length / 2 = 16 ∧
    w.data.length / 2 = 16 ∧ (w.stage - 1) + 16 < (32 + 15) / 16 * 16 ∧ ¬(e.stage - 1) + 16 < (32 + 15) / 16 * 16 ∧
    Tensor.blen c.ten0 = 25 ∧ Tensor.fmt c.ten0 = .cf8 ∧ c.sub ≠ lostSync ∧ c.bad = false ∧ c.stage - 1 < 32 ∧ c.sub < 1 ∧
    tokenNeeds c.raw (tokenPlace c c.ten0 (Tensor.indexOf c.ten0 0)).2 ≤ c.raw.length := by decide +kernel

theorem witness_GatherScatterFill_scatter :
    let i : Instr := .scatter hdr0 0#12 0#11 4#15 0#15 0#12 true
    let c := { cmdOf i (row 2 .i32 0x4000) with stage := 1, sub := 1, data := [1#8, 2#8, 3#8, 4#8, 0#8] }
    let ph : Phys := Tlb.target (tlbAt ⟨0, 0, 1⟩ 0x4000 .spread 0) 0 0x4004
    (cmdSt gsPort c).Runs (cmdAtOf gsPort c) ∧ c.data.length / 5 = 1 ∧ (c.data[4]?).getD 0 = 0 ∧
    Tensor.count c.ten0 / Tensor.size c.ten0 (Tensor.rank c.ten0 - 1) = 1 ∧ ({ c with data := [] } : Cmd).data.length / 5 < 1 ∧
    1 ≤ ({ c with stage := 2 } : Cmd).stage - 1 ∧
    Tensor.addr c.ten0 (Tensor.indexOf c.ten0 1) = 0x4004 ∧
    (cmdSt gsPort c).Reaches (cmdFen gsPort c) ((cmdAtOf gsPort c).req 0) .write 0x4004 4 ph :=
  ⟨runs_of _ _ _ _ (by decide +kernel) (by decide), rfl, rfl, by decide +kernel, by decide, by decide, by decide +kernel,
   reaches_of (by decide +kernel)⟩

theorem witness_GatherScatterFill_fill :
    let c := { cmdOf (.fill hdr0 0#12 false 0#11 0#15 1#32) (row 2 .i32 0x4000) with pos := 1 }
    let d := cmdOf (.fill hdr0 0#12 true 0#11 0#15 1#32) (row 2 .i32 0x4000)
    let ph : Phys := Tlb.target (tlbAt ⟨0, 0, 1⟩ 0x4000 .spread 0) 0 0x4004
    (cmdSt agPort c).Runs (cmdAtOf agPort c) ∧ (cmdSt agPort d).Runs (cmdAtOf agPort d) ∧ c.pos < Tensor.count c.ten0 ∧
    ¬2 < Tensor.count c.ten0 ∧ (cmdSt agPort c).Reaches (cmdFen agPort c) ((cmdAtOf agPort c).req 1) .write 0x4004 4 ph :=
  ⟨runs_of _ _ _ _ (by decide +kernel) (by decide), runs_of _ _ _ _ (by decide +kernel) (by decide), by decide +kernel, by decide +kernel,
   reaches_of (by decide +kernel)⟩

/-- StoreAndLineCommands: a word to read and the store; a threshold node at the port; lines that translate, one that does not,
and the end. -/
theorem witness_StoreAndLineCommands :
    let c := cmdOf (.agload hdr0 0#8 0x4000#48)
    let e := { c with stage := 1, pos := 1, data := toLE 8 77 }
    let n := Node.fresh ⟨0, 1, 1⟩ 5 (.bound ⟨0#4, .f64, 5#8, .circuit 0#2 0#3, .seep 0#2 0#3, .none, .none, .circuit 1#2 0#3, .none, .off, 0#2, false, false⟩ false 0#15) 0x71 [] []
    let m := { Mantle.blank with nodes := [n] }
    let t := cmdOf (.thresh hdr0 0x3F800000#32)
    let k : PortKey := .slot ⟨0, 1, 1⟩ 5 1
    let p := cmdOf (.pref hdr0 0#12) (row 1 .i32 0x4000)
    let ph : Phys := Tlb.target (tlbAt ⟨0, 0, 1⟩ 0x4000 .spread 0) 0 0x4000
    (cmdSt agPort c).mayRun (cmdAtOf agPort c) = true ∧ ((cmdFen agPort c).nodeAt ⟨0, 0, 1⟩ 16).any (fun m => m.mem.b0) = false ∧
    c.pos ≤ (0#8).toNat ∧ e.stage ≠ 0 ∧ (0#8).toNat < e.pos ∧ (cmdSt k t m).mayRun (cmdAtOf k t m) = true ∧ t.man = (cmdFen k t m).cur ∧
    ({ t with man := 1 } : Cmd).man ≠ (cmdFen k t m).cur ∧ (cmdFen k t m).nodeOn ⟨0, 1, 1⟩ 5 = some n ∧
    (cmdSt agPort p).mayRun (cmdAtOf agPort p) = true ∧ p.pos < Tensor.count p.ten0 ∧ Tensor.count p.ten0 ≤ 1 ∧
    (cmdSt agPort p).lookup 0 0 ⟨0, 0, 1⟩ .read 0x4000 = some ph ∧ (cmdSt agPort p).lookup 0 0 ⟨0, 0, 1⟩ .read 0x9000 = none ∧
    ph.typ ≠ .mere ∧ ph.typ.inEmt = true := by decide +kernel

theorem witness_StoreAndLineCommands_present :
    let p := cmdOf (.pref hdr0 0#12) (row 1 .i32 0x4000)
    let c := cmdOf (.agload hdr0 0#8 0x4000#48)
    let ph : Phys := Tlb.target (tlbAt ⟨0, 0, 1⟩ 0x4000 .spread 0) 0 0x4000
    (cmdSt agPort p).present ((cmdAtOf agPort p).req 0) ph 1 = .ok () (cmdSt agPort p) ∧
    (cmdSt agPort c).Reaches (cmdFen agPort c) ((cmdAtOf agPort c).req 0) .read 0x4000 8 ph :=
  ⟨by rfl, reaches_of (by decide +kernel)⟩

/-- The module of the queue commands: a ring of two slots of 16 bytes, a queue of two elements of 8 bytes at 0x4000. -/
def qcmdSt (c : Cmd) (d : Ring) (q : Nat) : State :=
  (State.withBytes (cmdSt qpPort c { Mantle.blank with rings := [d] }) (keySpread 0)
    (toLE 64 (Qcb.seal (BitVec.ofNat 512 (0x4100 + 2 * 2 ^ 128 + 2 ^ 160 + 2 ^ 177 + q))).toNat)).updMem
      (fun y => y.mark (keyScratch ⟨0, 1, 1⟩ 256 / 16) 1 true)

/-- The state of a judged claim is the state itself. -/
def judgedSame (r : QAns × State) (s : State) : Bool := decide (r.1 = .granted) && decide (r.2 = s)

/-- QueueCommands: a put with room and into a full queue; a get with an element and from an empty queue; the last element. -/
theorem witness_QueueCommands :
    let d := ringAt 2 1 256 0 1 2 0
    let g := ringAt 2 1 256 1 1 0 2
    let c := { cmdOf (.qput hdr0 0#8 0#5 0x4000#48) with stage := 1 }
    let e := { cmdOf (.qget hdr0 0#8 0#5 0x4000#48) with stage := 1 }
    let ph : Phys := Tlb.target (tlbAt ⟨0, 0, 1⟩ 0x4000 .spread 0) 0 0x4000
    let x := cmdFen qpPort c { Mantle.blank with rings := [d] }
    let y := cmdFen qpPort e { Mantle.blank with rings := [g] }
    let one := 1 * 2 ^ 96 + 1 * 2 ^ 192
    let full := 2 * 2 ^ 96
    let empty := 2 * 2 ^ 192
    let z := fun q => (qcmdSt c d q).qcb ph.key
    let judged := fun (s : State) => decide (s.qcbFrozen (s.qcb ph.key) = false ∧ Qcb.flt (s.qcb ph.key) = false ∧ homeDie ph.key = 0 ∧
      s.qcbValid (s.qcb ph.key) 0 0 ⟨0, 0, 1⟩ ph.key = true)
    let slot := keyScratch ⟨0, 1, 1⟩ (Ring.base g + Ring.tail g % Ring.n g * Ring.bytes g)
    judged (qcmdSt c d one) = true ∧ judged (qcmdSt c d full) = true ∧ judged (qcmdSt e g one) = true ∧ judged (qcmdSt e g empty) = true ∧
    okIs ((qcmdSt c d one).unsnooped ((cmdAtOf qpPort c).req 0) ph ((qcmdSt c d one).slotPhys (z one) 0 0 ⟨0, 0, 1⟩ 1 ++
      (qcmdSt c d one).slotLeaves (z one) 0 0 ⟨0, 0, 1⟩ 1)) () (qcmdSt c d one) = true ∧
    Qcb.count (z one) = 1 ∧ Qcb.count (z full) = 2 ∧ Qcb.count (z empty) = 0 ∧ ph.key + 64 ≤ slot ∧
    (qcmdSt c d one).mayRun (cmdAtOf qpPort c { Mantle.blank with rings := [d] }) = true ∧
    judgedSame ((qcmdSt c d one).qJudge ph 0x4000 0 0 ⟨0, 0, 1⟩) (qcmdSt c d one) = true ∧
    judgedSame ((qcmdSt c d full).qJudge ph 0x4000 0 0 ⟨0, 0, 1⟩) (qcmdSt c d full) = true ∧
    judgedSame ((qcmdSt e g one).qJudge ph 0x4000 0 0 ⟨0, 0, 1⟩) (qcmdSt e g one) = true ∧
    judgedSame ((qcmdSt e g empty).qJudge ph 0x4000 0 0 ⟨0, 0, 1⟩) (qcmdSt e g empty) = true ∧
    (qcmdSt c d one).ringFilled x d 1 = true ∧ (qcmdSt e g one).ringFree y g 1 = true ∧
    (qcmdSt e g one).tailHeld (cmdAtOf qpPort e { Mantle.blank with rings := [g] }) 0#5 = false ∧ Qcb.cap (z one) = 2 ∧
    Qcb.free (z one) = 1 ∧ 8 * Qcb.esz8 (z one) ≤ Ring.bytes d ∧ Qcb.blk (z full) = false ∧ Ring.flt d = false ∧ x.ringOk d = true ∧
    y.ringOk g = true ∧ (0#8).toNat < 1 := by decide +kernel

theorem witness_QueueCommands_there :
    let c := cmdOf (.qput hdr0 0#8 0#5 0x4000#48)
    let m := { Mantle.blank with rings := [ringAt 2 1 256 0 1 2 0] }
    let s := cmdSt qpPort c m
    let ph : Phys := Tlb.target (tlbAt ⟨0, 0, 1⟩ 0x4000 .spread 0) 0 0x4000
    s.xlateQcb (cmdFen qpPort c m) ((cmdAtOf qpPort c m).req 0) .rmw 0x4000 = .ok ph s ∧
    s.reserved ((cmdAtOf qpPort c m).req 0) ph.key 64 = false ∧ s.present ((cmdAtOf qpPort c m).req 0) ph 64 = .ok () s ∧
    s.snooped ((cmdAtOf qpPort c m).req 0) ph 64 = .ok () s ∧ ∀ n, s.charge ((cmdAtOf qpPort c m).req 0) ph n = .ok () s :=
  ⟨by rfl, by decide +kernel, by rfl, by rfl, (readable_of (ph := Tlb.target (tlbAt ⟨0, 0, 1⟩ 0x4000 .spread 0) 0 0x4000) (n := 64) (by decide +kernel)).enters _⟩

/-- An announced contribution of 4 bytes, and an instance that holds contributions. -/
def annOf (num nm1 : Nat) : Ann :=
  ⟨0, num, num, nm1, 0, 0, false, Fmt.i32.code, 4, 0, keyScratch ⟨0, 1, 1⟩ 0, [Tlb.target (tlbAt ⟨0, 0, 1⟩ 0x4000 .mere 0) 0 0x4000]⟩

/-- The instance. -/
def redOf (l : List Ann) (gone : Bool := false) (room : Bool := false) (at' : Nat := 0) (acc : List Byte := []) : RedInst :=
  ⟨keyMere 0, 7, l, 0, 0, gone, room, at', acc, 0⟩

/-- An mred. -/
def mredOf : Cmd := cmdOf (.mred hdr0 0#12 0#2 false 0#2 0#11 0#15 0#8 0#8 7#12 0#5) (row 1 .i32 0x4000)

/-- A module with one mred and an instance, at a cycle. -/
def redSt (r : RedInst) (cycle : Nat := 0) : State := { cmdSt gsPort mredOf Mantle.blank .mere with reds := [r], cycle := cycle }

/-- Reductions: no instance; one that the contribution agrees with, in the last cycle before its timeout and in the first and the
last of the window after it; one it disagrees with; an abandoned one; an instance not yet complete and one complete. -/
theorem witness_Reductions :
    let s := cmdSt gsPort mredOf Mantle.blank .mere
    let ann := annOf 0 0
    s.mayRun (cmdAtOf gsPort mredOf) = true ∧ s.redFind (keyMere 0) 7 = none ∧
    s.reds.countP (fun r => bankOf r.key == bankOf (keyMere 0)) < 64 ∧
    (redSt (redOf [ann])).redFind (keyMere 0) 7 = some (0, redOf [ann]) ∧ (redOf [ann]).anns.all (fun b => b.agrees (annOf 1 0)) = true ∧
    ({ ann with op := 1 } : Ann).agrees ann = false ∧ (redOf [] true).abandoned = true ∧
    (redSt (redOf [ann]) 1023).cycle < (redOf [ann]).since + 2 ^ ((redOf [ann]).tmo + 10) ∧
    (∀ k ∈ [1024, 2047], (redOf [ann]).since + 2 ^ ((redOf [ann]).tmo + 10) ≤ (redSt (redOf [ann]) k).cycle ∧ k < 1024 + 1024) ∧
    [annOf 0 1].length ≠ (annOf 0 1).nm1 + 1 ∧ (redOf [ann]).ordered = [ann] ∧ (redOf [annOf 1 1, annOf 0 1]).ordered = [annOf 0 1, annOf 1 1] ∧
    mredOf.done = false ∧ (redSt (redOf [ann])).memOk := by decide +kernel

/-- Reductions: the bank's turns on two contributions: no room and room; the first contribution's read, the second's, the write;
the contributor's fen frozen. -/
theorem witness_Reductions_turns :
    let one := { mredOf with asleep := true, stage := 2 }
    let two := { one with num := 1 }
    let x : Fen := { cmdFen gsPort one with ports := [⟨gsPort, [one, two]⟩] }
    let l := [annOf 0 1, annOf 1 1]
    let st := fun (r : RedInst) => ({ redSt r with fens := [x] } : State)
    let ph : Phys := Tlb.target (tlbAt ⟨0, 0, 1⟩ 0x4000 .mere 0) 0 0x4000
    let full : RedInst := { redOf [{ annOf 0 0 with size := 2 ^ 18 }] false true with key := keyMere 0, tag := 8 }
    let held := fun (s : State) => ((s.reds.filter (fun u => u.room && bankOf u.key == bankOf (keyMere 0))).map (fun u => ((u.anns.head?).map Ann.size).getD 0)).sum
    let cold : State := { st (redOf l false true) with frz := [⟨0, 0, .stalling, 0, 0, 0, none, [], [], []⟩] }
    (st (redOf l)).redFind (keyMere 0) 7 = some (0, redOf l) ∧ held (st (redOf l)) + 4 ≤ 2 ^ 18 ∧
    held { st (redOf l) with reds := [redOf l, full] } = 2 ^ 18 ∧
    (st (redOf l)).findCmd 0 0 = some (x, gsPort, one) ∧ (st (redOf l)).findCmd 0 1 = some (x, gsPort, two) ∧ one.done = false ∧
    (redOf l false true).at' / 4 = 0 ∧ (redOf l false true 4 [1, 2, 3, 4]).at' / 4 = 1 ∧ (redOf l false true 4 [1, 2, 3, 4]).acc.length = 4 ∧
    l.length ≤ (redOf l false true 8 [1, 2, 3, 4]).at' / 4 ∧ (annOf 0 1).key = [ph] ∧ 4 ≤ 4096 - ph.key % 4096 ∧
    (st (redOf l false true 8 [1, 2, 3, 4])).reserved ⟨none, 2, ⟨0, 0, 0⟩, 0, 0, 0, 0⟩ ph.key 4096 = false ∧
    (st (redOf l false true)).fenFrozen x = false ∧ cold.fenFrozen x = true := by decide +kernel

theorem witness_Reductions_pages :
    let c := cmdOf (.mred hdr0 0#12 0#2 false 0#2 0#11 0#15 0#8 0#8 7#12 0#5) (row 1 .i32 0x4000)
    let s := cmdSt gsPort c Mantle.blank .mere
    let s0 := s.updCmd 0 0 0 (fun c => { c with begun := true })
    s0.merePages (cmdAtOf gsPort c) (pageStarts (Tensor.base c.ten0) (Tensor.bytes c.ten0)) =
      .ok [Tlb.target (tlbAt ⟨0, 0, 1⟩ 0x4000 .mere 0) 0 0x4000] s0 := ok_of (by decide +kernel)

/-- MereUpdates: an element and the end of a matom, an element of maxpy. -/
theorem witness_MereUpdates :
    let c := cmdOf (.matom hdr0 0#12 0#4 0#11 0#15 true 2#15 false) (row 1 .i32 0x4000)
    let ph : Phys := Tlb.target (tlbAt ⟨0, 0, 1⟩ 0x4000 .mere 0) 0 0x4000
    let s := cmdSt gsPort c Mantle.blank .mere
    s.Runs (cmdAtOf gsPort c) ∧ ph.typ = .mere ∧ c.pos < Tensor.count c.ten0 ∧ Tensor.count c.ten0 ≤ 1 ∧
    s.Reaches (cmdFen gsPort c) ((cmdAtOf gsPort c).req 0) .rmw 0x4000 4 ph :=
  ⟨runs_of _ _ _ _ (by decide +kernel) (by decide), rfl, by decide +kernel, by decide +kernel, reaches_of (by decide +kernel)⟩

theorem witness_MereUpdates_maxpy :
    let c := cmdOf (.maxpy hdr0 0#12 0#2 false 0#11 0#15 0x40000000#32) (row 33 .f32 0x4000)
    let ph : Phys := Tlb.target (tlbAt ⟨0, 0, 1⟩ 0x4000 .mere 0) 0 0x4000
    let s := cmdSt gsPort c Mantle.blank .mere
    let e := { c with data := List.replicate 160 0#8 }
    s.Runs (cmdAtOf gsPort c) ∧ min (Tensor.count c.ten0 - c.pos) ((128 - Tensor.base c.ten0 % 128) / 4) = 32 ∧
    c.data.length / 5 < 32 ∧ e.data.length / 5 = 32 ∧ (∀ i, i < 32 → (e.data[5 * i + 4]?).getD 0 = 0) ∧
    s.Reaches (cmdFen gsPort c) ((cmdAtOf gsPort c).req 0) .rmw 0x4000 128 ph :=
  ⟨runs_of _ _ _ _ (by decide +kernel) (by decide), by decide +kernel, by decide, by decide +kernel, by decide +kernel, reaches_of (by decide +kernel)⟩

/-- LaunchCommands: a held launch whose counter the decrement reaches and exceeds, none held; a record to read, read and
refused; the three cases of a switch. -/
theorem witness_LaunchCommands :
    let i : Instr := .depdec hdr0 0#2 2#8 5#32
    let c := cmdOf i
    let l : Launch := { key := 0, asid := 0, fn := 0, part := 0, ctx := 0, desc := 0, src := 0, dep := 2, distributed := false, left := 0, remote := 0, anyTerm := false, last := none }
    let j : Instr := .launch hdr0 0x4000#48
    let k : Instr := .mswitch hdr0 1#2 true
    (cmdSt .fc c).mayRun (cmdAtOf .fc c) = true ∧ (cmdSt .fc c).holder 0 0 5 = none ∧ ¬l.dep < (2#8).toNat ∧ l.dep < (3#8).toNat ∧
    (cmdSt .fc (cmdOf j)).mayRun (cmdAtOf .fc (cmdOf j)) = true ∧ (cmdOf j).data.length < 128 ∧
    (cmdSt .fc (cmdOf j)).recordOk (BitVec.ofNat 1024 (leNat (List.replicate 128 0xFF#8))) 0 0 = false ∧
    (cmdSt .fc (cmdOf k)).mayRun (cmdAtOf .fc (cmdOf k)) = true ∧ (cmdFen .fc (cmdOf k)).choice = none ∧
    (cmdFen .fc (cmdOf k)).cur ≠ (1#2).toNat ∧ (cmdFen .fc (cmdOf k)).exited = false ∧ (cmdOf k).stage ≠ 1 := by decide +kernel

theorem witness_LaunchCommands_reads :
    let c := cmdOf (.launch hdr0 0x4000#48)
    let ph : Phys := Tlb.target (tlbAt ⟨0, 0, 1⟩ 0x4000 .spread 0) 0 0x4000
    (cmdSt .fc c).Reaches (cmdFen .fc c) ((cmdAtOf .fc c).req 0) .read 0x4000 64 ph :=
  reaches_of (by decide +kernel)

/-- LaunchCommands: a good record in hand, its scheduler with room, and OCCCAP reached; a held launch; a phase ended by an exit. -/
theorem witness_LaunchCommands_accept :
    let d := recOf (2 ^ 560 + 3 * 2 ^ 624 + 5 * 2 ^ 880)
    let c := { cmdOf (.launch hdr0 0x4000#48) with data := toLE 128 d.toNat, asleep := true, stage := 1 }
    let l : Launch := { key := 0, asid := 0, fn := 0, part := 0, ctx := 0, desc := d, src := 0, dep := 3, distributed := false, left := 0, remote := 0, anyTerm := false, last := none }
    let s := ownTile (cmdSt .fc c)
    let busy := { s with dev := { s.dev with ctxs := [(0, BitVec.ofNat 128 (2 ^ 47 + 1))] }, hts := { s.hts with launches := [{ l with desc := 0 }] } }
    let held := { s with hts := { s.hts with launches := [l] } }
    s.fens[0]? = some (cmdFen .fc c) ∧ (cmdFen .fc c).cmdsAt .fc = [c] ∧ BitVec.ofNat 1024 (leNat c.data) = d ∧ 128 ≤ c.data.length ∧
    s.recordOk d 0 0 = true ∧ s.launchRoom d 0 = true ∧ s.occOk 0 = true ∧ busy.occOk 0 = false ∧ busy.recordOk d 0 0 = true ∧
    held.holder 0 0 5 = some (0, l) ∧ ({ cmdFen .fc c with exited := true } : Fen).exited = true := by decide +kernel

end Sys2Proof.Tests
end

