-- ==== Sys2Proof/Tests/Words.lean ====
section
/-! SUPPORT. The decoding of every constructor that has an encoding, shown by a word written out from the spec's encoding
tables (R76 to R105, the OPND tables of R200 to R218, the PARAM tables of R229 to R285), the spec's own worked words, and
words that are no instruction. -/
namespace Sys2Proof.Tests
set_option Elab.async false

/-- R85: format A words of INT, from the table of R137. -/
theorem test_words_int :
    decodeTableWord 32 0x03D85200 = some (.add 61#6 33#6 18#6) ∧
    decodeTableWord 32 0x03D85201 = some (.sub 61#6 33#6 18#6) ∧
    decodeTableWord 32 0x03D85202 = some (.and 61#6 33#6 18#6) ∧
    decodeTableWord 32 0x03D85203 = some (.or 61#6 33#6 18#6) ∧
    decodeTableWord 32 0x03D85204 = some (.xor 61#6 33#6 18#6) ∧
    decodeTableWord 32 0x03D85205 = some (.andn 61#6 33#6 18#6) ∧
    decodeTableWord 32 0x03D85206 = some (.sll 61#6 33#6 18#6) ∧
    decodeTableWord 32 0x03D85207 = some (.srl 61#6 33#6 18#6) ∧
    decodeTableWord 32 0x03D85208 = some (.sra 61#6 33#6 18#6) ∧
    decodeTableWord 32 0x03D85209 = some (.ror 61#6 33#6 18#6) ∧
    decodeTableWord 32 0x03D8520A = some (.slt 61#6 33#6 18#6) ∧
    decodeTableWord 32 0x03D8520B = some (.sltn 61#6 33#6 18#6) ∧
    decodeTableWord 32 0x03D8520C = some (.seq 61#6 33#6 18#6) ∧
    decodeTableWord 32 0x03D8520D = some (.min 61#6 33#6 18#6) ∧
    decodeTableWord 32 0x03D8520E = some (.max 61#6 33#6 18#6) ∧
    decodeTableWord 32 0x03D8520F = some (.minn 61#6 33#6 18#6) ∧
    decodeTableWord 32 0x03D85210 = some (.maxn 61#6 33#6 18#6) ∧
    decodeTableWord 32 0x03D84011 = some (.clz 61#6 33#6) ∧
    decodeTableWord 32 0x03D84012 = some (.ctz 61#6 33#6) ∧
    decodeTableWord 32 0x03D84013 = some (.popc 61#6 33#6) := by decide +kernel

/-- R85: format A words of MULDIV and TENS. -/
theorem test_words_muldiv_tens :
    decodeTableWord 32 0x07D85200 = some (.mul 61#6 33#6 18#6) ∧
    decodeTableWord 32 0x07D85201 = some (.mulh 61#6 33#6 18#6) ∧
    decodeTableWord 32 0x07D85202 = some (.mulhn 61#6 33#6 18#6) ∧
    decodeTableWord 32 0x07D85203 = some (.div 61#6 33#6 18#6) ∧
    decodeTableWord 32 0x07D85204 = some (.divn 61#6 33#6 18#6) ∧
    decodeTableWord 32 0x07D85205 = some (.rem 61#6 33#6 18#6) ∧
    decodeTableWord 32 0x07D85206 = some (.remn 61#6 33#6 18#6) ∧
    decodeTableWord 32 0x0BD85200 = some (.mksa 61#6 33#6 18#6) ∧
    decodeTableWord 32 0x0BD85201 = some (.taddr 61#6 33#6 18#6) ∧
    decodeTableWord 32 0x0BD85203 = some (.tdim 61#6 33#6 18#6) ∧
    decodeTableWord 32 0x0BD85204 = some (.tstr 61#6 33#6 18#6) ∧
    decodeTableWord 32 0x0BD84002 = some (.tbase 61#6 33#6) ∧
    decodeTableWord 32 0x0BD84005 = some (.tinfo 61#6 33#6) := by decide +kernel

/-- R86, R87: FP and CVT words. -/
theorem test_words_fp :
    decodeTableWord 32 0x0FD8520A = some (.fadd 61#6 33#6 18#6 true false 2#2) ∧
    decodeTableWord 32 0x0FD8521A = some (.fsub 61#6 33#6 18#6 true false 2#2) ∧
    decodeTableWord 32 0x0FD8522A = some (.fmul 61#6 33#6 18#6 true false 2#2) ∧
    decodeTableWord 32 0x0FD8523A = some (.fdiv 61#6 33#6 18#6 true false 2#2) ∧
    decodeTableWord 32 0x0FD8527A = some (.fma 61#6 33#6 18#6 true false 2#2) ∧
    decodeTableWord 32 0x0FD84044 = some (.fsqrt 61#6 33#6 false true 0#2) ∧
    decodeTableWord 32 0x0FD85258 = some (.fmin 61#6 33#6 18#6 true) ∧
    decodeTableWord 32 0x0FD85268 = some (.fmax 61#6 33#6 18#6 true) ∧
    decodeTableWord 32 0x0FD85288 = some (.feq 61#6 33#6 18#6 true) ∧
    decodeTableWord 32 0x0FD85298 = some (.flt 61#6 33#6 18#6 true) ∧
    decodeTableWord 32 0x0FD852A8 = some (.fle 61#6 33#6 18#6 true) ∧
    decodeTableWord 32 0x13D85CC0 = some (.cvt 61#6 33#6 false 3#2 true .n16 .f64) := by decide +kernel

/-- R88, R91: immediate, LUI, LBA and CSR words. -/
theorem test_words_imm_csr :
    decodeTableWord 32 0x23D86001 = some (.addi 61#6 33#6 0x2001#14) ∧
    decodeTableWord 32 0x27D86001 = some (.andi 61#6 33#6 0x2001#14) ∧
    decodeTableWord 32 0x2BD86001 = some (.ori 61#6 33#6 0x2001#14) ∧
    decodeTableWord 32 0x2FD86001 = some (.xori 61#6 33#6 0x2001#14) ∧
    decodeTableWord 32 0x3FD86001 = some (.slti 61#6 33#6 0x2001#14) ∧
    decodeTableWord 32 0x43D86001 = some (.sltni 61#6 33#6 0x2001#14) ∧
    decodeTableWord 32 0x33D84021 = some (.slli 61#6 33#6 33#6) ∧
    decodeTableWord 32 0x37D84021 = some (.srli 61#6 33#6 33#6) ∧
    decodeTableWord 32 0x3BD84021 = some (.srai 61#6 33#6 33#6) ∧
    decodeTableWord 32 0x47D80001 = some (.lui 61#6 0x80001#20) ∧
    decodeTableWord 32 0x4BD80001 = some (.lba 61#6 0x80001#20) ∧
    decodeTableWord 32 0x17D00801 = some (.csrr 61#6 0x801#12) ∧
    decodeTableWord 32 0x14085801 = some (.csrw 0x801#12 33#6) ∧
    decodeTableWord 32 0x17D86801 = some (.csrx 61#6 33#6 0x801#12) := by decide +kernel

/-- R89 to R91: LD, ST, control transfer and CTL words. -/
theorem test_words_mem_ctl :
    decodeTableWord 32 0x53D86501 = some (.ld 61#6 33#6 .i32 .clear 0x101#9) ∧
    decodeTableWord 32 0x53D84B01 = some (.ld 61#6 33#6 .n8 .keep 0x101#9) ∧
    decodeTableWord 32 0x57D87301 = some (.st 61#6 33#6 .d64 .set 0x101#9) ∧
    decodeTableWord 32 0x62C30001 = some (.br .gtz 33#6 0x10001#17) ∧
    decodeTableWord 32 0x65C30001 = some (.call .ltz 33#6 0x10001#17) ∧
    decodeTableWord 32 0x6BD84000 = some (.jr 61#6 33#6) ∧
    decodeTableWord 32 0x6C000000 = some (.halt) ∧
    decodeTableWord 32 0x6C000601 = some (.trap 0x201#10) ∧
    decodeTableWord 32 0x6C000800 = some (.tret) ∧
    decodeTableWord 32 0x6C000C00 = some (.wfe) ∧
    decodeTableWord 32 0x6C001000 = some (.sev) := by decide +kernel

/-- R92: SYNCD, SYNCW and BAR words. -/
theorem test_words_sync :
    decodeTableWord 32 0x800000A0 = some (.fence 5#3) ∧
    decodeTableWord 32 0x87D840A1 = some (.lda true 61#6 33#6 5#3) ∧
    decodeTableWord 32 0x80085282 = some (.stl false 33#6 18#6 4#3) ∧
    decodeTableWord 32 0x87D85263 = some (.cas true 61#6 33#6 18#6 3#3) ∧
    decodeTableWord 32 0x87D85268 = some (.amoAdd true 61#6 33#6 18#6 3#3) ∧
    decodeTableWord 32 0x87D85269 = some (.amoAnd true 61#6 33#6 18#6 3#3) ∧
    decodeTableWord 32 0x87D8526A = some (.amoOr true 61#6 33#6 18#6 3#3) ∧
    decodeTableWord 32 0x87D8526B = some (.amoXor true 61#6 33#6 18#6 3#3) ∧
    decodeTableWord 32 0x87D8526C = some (.amoMin true 61#6 33#6 18#6 3#3) ∧
    decodeTableWord 32 0x87D8526D = some (.amoMax true 61#6 33#6 18#6 3#3) ∧
    decodeTableWord 32 0x87D8526E = some (.amoMinn true 61#6 33#6 18#6 3#3) ∧
    decodeTableWord 32 0x87D8526F = some (.amoMaxn true 61#6 33#6 18#6 3#3) ∧
    decodeTableWord 32 0x87D85270 = some (.amoSwap true 61#6 33#6 18#6 3#3) ∧
    decodeTableWord 32 0x880852A0 = some (.binit 33#6 18#6 5#3) ∧
    decodeTableWord 32 0x8BD84001 = some (.barv 61#6 33#6) ∧
    decodeTableWord 32 0x88085202 = some (.bexp 33#6 18#6) ∧
    decodeTableWord 32 0x8BD85243 = some (.bwait 61#6 33#6 18#6 2#3) := by decide +kernel

/-- R93: QUEUE, RING, RDESC, ISSUE, CFG and CMO words. -/
theorem test_words_queue_ring_cfg :
    decodeTableWord 32 0x8C085200 = some (.qinit 33#6 18#6) ∧
    decodeTableWord 32 0x8C085201 = some (.qenq 33#6 18#6) ∧
    decodeTableWord 32 0x8C085202 = some (.qdeq 33#6 18#6) ∧
    decodeTableWord 32 0x8FD85203 = some (.qtenq 61#6 33#6 18#6) ∧
    decodeTableWord 32 0x8FD85204 = some (.qtdeq 61#6 33#6 18#6) ∧
    decodeTableWord 32 0x8FD84005 = some (.qstat 61#6 33#6) ∧
    decodeTableWord 32 0x8C084006 = some (.qdrain 33#6) ∧
    decodeTableWord 32 0x93D8C001 = some (.rwfill 61#6 17#5 0x4001#15) ∧
    decodeTableWord 32 0x97D8C001 = some (.rwfree 61#6 17#5 0x4001#15) ∧
    decodeTableWord 32 0x9808C001 = some (.rpop 17#5 0x4001#15) ∧
    decodeTableWord 32 0x9C08C001 = some (.rpush 17#5 0x4001#15) ∧
    decodeTableWord 32 0xA0084011 = some (.rset 17#5 33#6) ∧
    decodeTableWord 32 0xA0084091 = some (.rget 17#5 33#6) ∧
    decodeTableWord 32 0xA4085200 = some (.issue 33#6 18#6) ∧
    decodeTableWord 32 0xABD85200 = some (.cfgld 61#6 33#6 18#6) ∧
    decodeTableWord 32 0xAC085200 = some (.dcinv 33#6 18#6) ∧
    decodeTableWord 32 0xAC085201 = some (.dcdrain 33#6 18#6) ∧
    decodeTableWord 32 0xAC085202 = some (.icinv 33#6 18#6) := by decide +kernel

/-- R94, R96, R200, R205 to R207: words of the copy, row and fill commands. -/
theorem test_words_copies :
    decodeTableWord 128 0x109CD80170082001A901800140022004 =
      some (.copy ⟨true, false, 3#3, 77#7, .scratch true 0x402#11 0x2001#14⟩ 0x801#12 2#2 true 0x901#12 0x8001#16 0x4002#16 0x2004#16) ∧
    decodeTableWord 128 0x119CD01170082001A901800140022004 =
      some (.copyr ⟨true, false, 3#3, 77#7, .scratch true 0x402#11 0x2001#14⟩ 17#5 2#2 true 0x901#12 0x8001#16 0x4002#16 0x2004#16) ∧
    decodeTableWord 128 0x129CD01170082001A901800140022004 =
      some (.copyx ⟨true, false, 3#3, 77#7, .scratch true 0x402#11 0x2001#14⟩ 17#5 2#2 true 0x901#12 0x8001#16 0x4002#16 0x2004#16) ∧
    decodeTableWord 128 0x139CD80170082001A901800040022004 =
      some (.copyred ⟨true, false, 3#3, 77#7, .scratch true 0x402#11 0x2001#14⟩ 0x801#12 2#2 true 0x901#12 2#2 0x4002#16 0x2004#16) ∧
    decodeTableWord 128 0x149CD80170082001100A000A00380580 =
      some (.gather ⟨true, false, 3#3, 77#7, .scratch true 0x402#11 0x2001#14⟩ 0x801#12 0x402#11 0x4001#15 0x2003#15 0x805#12 true) ∧
    decodeTableWord 128 0x159CD80170082001100A000A00380500 =
      some (.scatter ⟨true, false, 3#3, 77#7, .scratch true 0x402#11 0x2001#14⟩ 0x801#12 0x402#11 0x4001#15 0x2003#15 0x805#12 false) ∧
    decodeTableWord 128 0x169CD801700820011805000480000001 =
      some (.fill ⟨true, false, 3#3, 77#7, .scratch true 0x402#11 0x2001#14⟩ 0x801#12 true 0x402#11 0x4001#15 0x80000001#32) ∧
    decodeTableWord 128 0x179CD000800000210810800000000040 =
      some (.agload ⟨true, false, 3#3, 77#7, .table false 33#6⟩ 0x81#8 0x800000000040#48) := by decide +kernel

/-- R94, R98, R208 to R218: words of the other commands. -/
theorem test_words_commands :
    decodeTableWord 128 0x201CD000700820010000000000000041 =
      some (.sbar ⟨false, false, 3#3, 77#7, .scratch true 0x402#11 0x2001#14⟩ 0x41#7) ∧
    decodeTableWord 128 0x211CD000700820010000000000000000 =
      some (.carrive ⟨false, false, 3#3, 77#7, .scratch true 0x402#11 0x2001#14⟩) ∧
    decodeTableWord 128 0x221CD000700820010000000040000001 =
      some (.cexpect ⟨false, false, 3#3, 77#7, .scratch true 0x402#11 0x2001#14⟩ 0x40000001#32) ∧
    decodeTableWord 128 0x265CD000000000000000000000000000 = some (.cnop ⟨false, true, 3#3, 77#7, .none⟩) ∧
    decodeTableWord 128 0x239CD000700820011031800000000040 =
      some (.qput ⟨true, false, 3#3, 77#7, .scratch true 0x402#11 0x2001#14⟩ 0x81#8 17#5 0x800000000040#48) ∧
    decodeTableWord 128 0x249CD000700820011031800000000040 =
      some (.qget ⟨true, false, 3#3, 77#7, .scratch true 0x402#11 0x2001#14⟩ 0x81#8 17#5 0x800000000040#48) ∧
    decodeTableWord 128 0x259CD000700820010000028180000001 =
      some (.depdec ⟨true, false, 3#3, 77#7, .scratch true 0x402#11 0x2001#14⟩ 2#2 0x81#8 0x80000001#32) ∧
    decodeTableWord 128 0x309CD80170082001B402800283050071 =
      some (.mred ⟨true, false, 3#3, 77#7, .scratch true 0x402#11 0x2001#14⟩ 0x801#12 2#2 true 2#2 0x402#11 0x4001#15 0x41#8 0x82#8 0x803#12 17#5) ∧
    decodeTableWord 128 0x319CD801700820010B00A000D001C000 =
      some (.matom ⟨true, false, 3#3, 77#7, .scratch true 0x402#11 0x2001#14⟩ 0x801#12 5#4 0x402#11 0x4001#15 true 0x2003#15 true) ∧
    decodeTableWord 128 0x329CD80170082001B00A000880000001 =
      some (.maxpy ⟨true, false, 3#3, 77#7, .scratch true 0x402#11 0x2001#14⟩ 0x801#12 2#2 true 0x402#11 0x4001#15 0x80000001#32) ∧
    decodeTableWord 128 0x409CD000700820010000000080000001 =
      some (.thresh ⟨true, false, 3#3, 77#7, .scratch true 0x402#11 0x2001#14⟩ 0x80000001#32) ∧
    decodeTableWord 128 0x41DCD000700820010000800000000080 =
      some (.launch ⟨true, true, 3#3, 77#7, .scratch true 0x402#11 0x2001#14⟩ 0x800000000080#48) ∧
    decodeTableWord 128 0x429CD000700820010000000000000102 =
      some (.mswitch ⟨true, false, 3#3, 77#7, .scratch true 0x402#11 0x2001#14⟩ 2#2 true) ∧
    decodeTableWord 128 0x509CD801700820010000000000000000 =
      some (.pref ⟨true, false, 3#3, 77#7, .scratch true 0x402#11 0x2001#14⟩ 0x801#12) ∧
    decodeTableWord 128 0x519CD801700820010000000000000000 =
      some (.inval ⟨true, false, 3#3, 77#7, .scratch true 0x402#11 0x2001#14⟩ 0x801#12) ∧
    decodeTableWord 128 0x529CD801700820010000000000000000 =
      some (.flush ⟨true, false, 3#3, 77#7, .scratch true 0x402#11 0x2001#14⟩ 0x801#12) := by decide +kernel

/-- R101 to R105, R227: records of the element-wise nodes. -/
theorem test_words_elements :
    decodeTableWord 256 0x0109023A040F0000002D0000D2A0000000000000000000000000000000000000 =
      some (.vadd ⟨0#4, .i16, 2#8, .circuit 3#2 2#3, .near 7#8 true, .none, .none, .circuit 1#2 5#3, .none, .near true 2#4, 2#2, true, false⟩) ∧
    decodeTableWord 256 0x0209023A040F0000002D0000B9A0000000000000000000000000000000000000 =
      some (.vsub ⟨0#4, .i16, 2#8, .circuit 3#2 2#3, .near 7#8 true, .none, .none, .circuit 1#2 5#3, .none, .reed 3#2 9#4, 2#2, true, false⟩) ∧
    decodeTableWord 256 0x0309023A040F0000002D0000D2A0000000000000000000000000000000000000 =
      some (.vmul ⟨0#4, .i16, 2#8, .circuit 3#2 2#3, .near 7#8 true, .none, .none, .circuit 1#2 5#3, .none, .near true 2#4, 2#2, true, false⟩) ∧
    decodeTableWord 256 0x0409023A040F8810002D0000B9A0000000000000000000000000000000000000 =
      some (.vfma ⟨0#4, .i16, 2#8, .circuit 3#2 2#3, .near 7#8 true, .const 129#8, .none, .circuit 1#2 5#3, .none, .reed 3#2 9#4, 2#2, true, false⟩) ∧
    decodeTableWord 256 0x0509023A040F0000002D0000D280000000000000000000000000000000000000 =
      some (.vdiv ⟨0#4, .i16, 2#8, .circuit 3#2 2#3, .near 7#8 true, .none, .none, .circuit 1#2 5#3, .none, .near true 2#4, 2#2, false, false⟩) ∧
    decodeTableWord 256 0x0600023A00000000002D0000B980000000000000000000000000000000000000 =
      some (.vsqrt ⟨0#4, .f64, 2#8, .circuit 3#2 2#3, .none, .none, .none, .circuit 1#2 5#3, .none, .reed 3#2 9#4, 2#2, false, false⟩) ∧
    decodeTableWord 256 0x0709023A040F0000002D0000D200000000000000000000000000000000000000 =
      some (.vmin ⟨0#4, .i16, 2#8, .circuit 3#2 2#3, .near 7#8 true, .none, .none, .circuit 1#2 5#3, .none, .near true 2#4, 0#2, false, false⟩) ∧
    decodeTableWord 256 0x0809023A040F0000002D0000B900000000000000000000000000000000000000 =
      some (.vmax ⟨0#4, .i16, 2#8, .circuit 3#2 2#3, .near 7#8 true, .none, .none, .circuit 1#2 5#3, .none, .reed 3#2 9#4, 0#2, false, false⟩) ∧
    decodeTableWord 256 0x0909023A00000000002D0000D220000000000000000000000000000000000000 =
      some (.vabs ⟨0#4, .i16, 2#8, .circuit 3#2 2#3, .none, .none, .none, .circuit 1#2 5#3, .none, .near true 2#4, 0#2, true, false⟩) ∧
    decodeTableWord 256 0x0A09023A00000000002D0000B920000000000000000000000000000000000000 =
      some (.vneg ⟨0#4, .i16, 2#8, .circuit 3#2 2#3, .none, .none, .none, .circuit 1#2 5#3, .none, .reed 3#2 9#4, 0#2, true, false⟩) ∧
    decodeTableWord 256 0x0B09023A040F0000002D0000D200000000000000000000000000000000000000 =
      some (.vand ⟨0#4, .i16, 2#8, .circuit 3#2 2#3, .near 7#8 true, .none, .none, .circuit 1#2 5#3, .none, .near true 2#4, 0#2, false, false⟩) ∧
    decodeTableWord 256 0x0C09023A040F0000002D0000B900000000000000000000000000000000000000 =
      some (.vor ⟨0#4, .i16, 2#8, .circuit 3#2 2#3, .near 7#8 true, .none, .none, .circuit 1#2 5#3, .none, .reed 3#2 9#4, 0#2, false, false⟩) ∧
    decodeTableWord 256 0x0D09023A040F0000002D0000D200000000000000000000000000000000000000 =
      some (.vxor ⟨0#4, .i16, 2#8, .circuit 3#2 2#3, .near 7#8 true, .none, .none, .circuit 1#2 5#3, .none, .near true 2#4, 0#2, false, false⟩) ∧
    decodeTableWord 256 0x0E09023A040F0000002D0000B900000000000000000000000000000000000000 =
      some (.vshl ⟨0#4, .i16, 2#8, .circuit 3#2 2#3, .near 7#8 true, .none, .none, .circuit 1#2 5#3, .none, .reed 3#2 9#4, 0#2, false, false⟩) ∧
    decodeTableWord 256 0x0F09023A040F0000002D0000D200000000000000000000000000000000000000 =
      some (.vshr ⟨0#4, .i16, 2#8, .circuit 3#2 2#3, .near 7#8 true, .none, .none, .circuit 1#2 5#3, .none, .near true 2#4, 0#2, false, false⟩) ∧
    decodeTableWord 256 0x1009023A040F8810002D0000B900000000000000000000000000000000000000 =
      some (.vclamp ⟨0#4, .i16, 2#8, .circuit 3#2 2#3, .near 7#8 true, .const 129#8, .none, .circuit 1#2 5#3, .none, .reed 3#2 9#4, 0#2, false, false⟩) ∧
    decodeTableWord 256 0x0209023A040F0000002D00000050000000000000000000000000000000000000 =
      some (.vsub ⟨0#4, .i16, 2#8, .circuit 3#2 2#3, .near 7#8 true, .none, .none, .circuit 1#2 5#3, .none, .off, 1#2, false, true⟩) := by decide +kernel

/-- R229 to R235: records of the other vector nodes. -/
theorem test_words_vector :
    decodeTableWord 256 0x1103033A040F0000002D0B09000B000000000000000000000000000000000000 =
      some (.vcmp ⟨0#4, .f16, 3#8, .circuit 3#2 2#3, .near 7#8 true, .none, .none, .circuit 1#2 5#3, .reed 2#2 9#4, .off, 0#2, false, false⟩ 5#3 true) ∧
    decodeTableWord 256 0x120F043A040FB090002D00000000000000000000000000000000000000000000 =
      some (.sel ⟨0#4, .ki, 4#8, .circuit 3#2 2#3, .near 7#8 true, .reed 2#2 9#4, .none, .circuit 1#2 5#3, .none, .off, 0#2, false, false⟩) ∧
    decodeTableWord 256 0x1304013A00000000002D000000E3801902000000000000000000000000000000 =
      some (.cvtNode ⟨0#4, .e4m3, 1#8, .circuit 3#2 2#3, .none, .none, .none, .circuit 1#2 5#3, .none, .off, 3#2, true, false⟩ .f16 0x801#12 0x902#12) ∧
    decodeTableWord 256 0x1400013A040F0000002D00000000000000000000000000000000000000000000 =
      some (.vperm ⟨0#4, .f64, 1#8, .circuit 3#2 2#3, .near 7#8 true, .none, .none, .circuit 1#2 5#3, .none, .off, 0#2, false, false⟩) ∧
    decodeTableWord 256 0x1802013A00000000002D00000040000000000000000000000000000000000000 =
      some (.vrec ⟨0#4, .bf16, 1#8, .circuit 3#2 2#3, .none, .none, .none, .circuit 1#2 5#3, .none, .off, 1#2, false, false⟩) ∧
    decodeTableWord 256 0x1902013A00000000002D00000040000000000000000000000000000000000000 =
      some (.vrsq ⟨0#4, .bf16, 1#8, .circuit 3#2 2#3, .none, .none, .none, .circuit 1#2 5#3, .none, .off, 1#2, false, false⟩) ∧
    decodeTableWord 256 0x1A02013A00000000002D00000040000000000000000000000000000000000000 =
      some (.vexp ⟨0#4, .bf16, 1#8, .circuit 3#2 2#3, .none, .none, .none, .circuit 1#2 5#3, .none, .off, 1#2, false, false⟩) ∧
    decodeTableWord 256 0x1B02013A00000000002D00000040000000000000000000000000000000000000 =
      some (.vlog ⟨0#4, .bf16, 1#8, .circuit 3#2 2#3, .none, .none, .none, .circuit 1#2 5#3, .none, .off, 1#2, false, false⟩) ∧
    decodeTableWord 256 0x1C02013A00000000002D00000040000000000000000000000000000000000000 =
      some (.vtanh ⟨0#4, .bf16, 1#8, .circuit 3#2 2#3, .none, .none, .none, .circuit 1#2 5#3, .none, .off, 1#2, false, false⟩) ∧
    decodeTableWord 256 0x1D02013A00000000002D00000040000000000000000000000000000000000000 =
      some (.vsigm ⟨0#4, .bf16, 1#8, .circuit 3#2 2#3, .none, .none, .none, .circuit 1#2 5#3, .none, .off, 1#2, false, false⟩) ∧
    decodeTableWord 256 0x202A013A00000000002D0000004B800000000000000000000000000000000000 =
      some (.vred ⟨2#4, .i32, 1#8, .circuit 3#2 2#3, .none, .none, .none, .circuit 1#2 5#3, .none, .off, 1#2, false, false⟩ 5#3 6#3) ∧
    decodeTableWord 256 0x211A013A00000000002D00000005800000000000000000000000000000000000 =
      some (.vscan ⟨1#4, .i32, 1#8, .circuit 3#2 2#3, .none, .none, .none, .circuit 1#2 5#3, .none, .off, 0#2, false, false⟩ 2#3 6#3) ∧
    decodeTableWord 256 0x220A013A00000000002D00000003800000000000000000000000000000000000 =
      some (.vbcast ⟨0#4, .i32, 1#8, .circuit 3#2 2#3, .none, .none, .none, .circuit 1#2 5#3, .none, .off, 0#2, false, false⟩ 7#5) := by decide +kernel

/-- R236 to R243: records of the matrix nodes. -/
theorem test_words_matrix :
    decodeTableWord 256 0x281000611612613000614000006A1C0018001800000000000000000000000000 =
      some (.mma ⟨1#4, .f64, 0#8, .ring 17#5, .ring 18#5, .ring 19#5, .none, .ring 20#5, .none, .off, 1#2, true, false⟩ ⟨true, false, 33#6, true, 0x4001#15⟩ 0x8001#16 true) ∧
    decodeTableWord 256 0x290000611881000000612000000A1C001A000000000000000000000000000000 =
      some (.mpoly ⟨0#4, .f64, 0#8, .ring 17#5, .const 129#8, .none, .none, .ring 18#5, .none, .off, 0#2, false, false⟩ ⟨true, false, 33#6, true, 0x4001#15⟩ 5#3) ∧
    decodeTableWord 256 0x2A2000611881000000612613000A1C00180013A8000014280000180000000000 =
      some (.miter ⟨2#4, .f64, 0#8, .ring 17#5, .const 129#8, .none, .none, .ring 18#5, .ring 19#5, .off, 0#2, false, false⟩ ⟨true, false, 33#6, true, 0x4001#15⟩ 0x8001#16 0x3A800001#32 0x42800001#32 true) ∧
    decodeTableWord 256 0x2B1F003A00000000002D0000000A1C0010000000000000000000000000000000 =
      some (.msort ⟨1#4, .ki, 0#8, .circuit 3#2 2#3, .none, .none, .none, .circuit 1#2 5#3, .none, .off, 0#2, false, false⟩ ⟨true, false, 33#6, true, 0x4001#15⟩) ∧
    decodeTableWord 256 0x2C0000611000000000612000000A1C0010000000000000000000000000000000 =
      some (.mtrn ⟨0#4, .f64, 0#8, .ring 17#5, .none, .none, .none, .ring 18#5, .none, .off, 0#2, false, false⟩ ⟨true, false, 33#6, true, 0x4001#15⟩) := by decide +kernel

/-- R244 to R249: records of the controllers. -/
theorem test_words_controllers :
    decodeTableWord 256 0x30000B000B09000A88A01B8F0008000000100000000000000000000000000000 =
      some (.cseq ⟨0#4, .f64, 11#8, .none, .reed 2#2 9#4, .none, .reed 1#2 8#4, .reed 0#2 1#4, .reed 3#2 15#4, .off, 0#2, false, false⟩ 0x80000001#32) ∧
    decodeTableWord 256 0x31000C000B09000A88A010000000000000090000000000000000000000000000 =
      some (.cpipe ⟨0#4, .f64, 12#8, .none, .reed 2#2 9#4, .none, .reed 1#2 8#4, .reed 0#2 1#4, .none, .off, 0#2, false, false⟩ 0#32 9#4) ∧
    decodeTableWord 256 0x32000BB09A88000000A010000008000000100000000000000000000000000000 =
      some (.cstrm ⟨0#4, .f64, 11#8, .reed 2#2 9#4, .reed 1#2 8#4, .none, .none, .reed 0#2 1#4, .none, .off, 0#2, false, false⟩ 0x80000001#32) ∧
    decodeTableWord 256 0x33100B3A0B090000002D02100000000000000000000000000000000000000000 =
      some (.steer ⟨1#4, .f64, 11#8, .circuit 3#2 2#3, .reed 2#2 9#4, .none, .none, .circuit 1#2 5#3, .circuit 0#2 1#3, .off, 0#2, false, false⟩) ∧
    decodeTableWord 256 0x34000B3A0881B090002D00000008100000000000000000000000000000000000 =
      some (.prime ⟨0#4, .f64, 11#8, .circuit 3#2 2#3, .const 129#8, .reed 2#2 9#4, .none, .circuit 1#2 5#3, .none, .off, 0#2, false, false⟩ 0x81#8) ∧
    decodeTableWord 256 0x35000B611B090000002D00000008000000190000000000000000000000000000 =
      some (.source ⟨0#4, .f64, 11#8, .ring 17#5, .reed 2#2 9#4, .none, .none, .circuit 1#2 5#3, .none, .off, 0#2, false, false⟩ 0x80000001#32 9#4) ∧
    decodeTableWord 256 0x36000B3A00000000000000000008001000000000000000000000000000000000 =
      some (.sink ⟨0#4, .f64, 11#8, .circuit 3#2 2#3, .none, .none, .none, .none, .none, .off, 0#2, false, false⟩ 0x8001#16) ∧
    decodeTableWord 256 0x370B0BB090000000002D00000008000000180000002800000048000000000000 =
      some (.count ⟨0#4, .i64, 11#8, .reed 2#2 9#4, .none, .none, .none, .circuit 1#2 5#3, .none, .off, 0#2, false, false⟩ 0x80000001#32 0x80000002#32 0x80000004#32 8#4) := by decide +kernel

/-- R250 to R256: records of the memory nodes. -/
theorem test_words_memory_nodes :
    decodeTableWord 256 0x401F093A0000000B092D0A88000A000000000000000000000000000000000000 =
      some (.load ⟨1#4, .ki, 9#8, .circuit 3#2 2#3, .none, .none, .reed 2#2 9#4, .circuit 1#2 5#3, .reed 1#2 8#4, .off, 0#2, false, false⟩ 5#3) ∧
    decodeTableWord 256 0x41080A3A040F000B09000A88000A000000000000000000000000000000000000 =
      some (.store ⟨0#4, .n8, 10#8, .circuit 3#2 2#3, .near 7#8 true, .none, .reed 2#2 9#4, .none, .reed 1#2 8#4, .off, 0#2, false, false⟩ 5#3) ∧
    decodeTableWord 256 0x4218093A0000000B092D0A88000A000000000000000000000000000000000000 =
      some (.ldfe ⟨1#4, .n8, 9#8, .circuit 3#2 2#3, .none, .none, .reed 2#2 9#4, .circuit 1#2 5#3, .reed 1#2 8#4, .off, 0#2, false, false⟩ 5#3) ∧
    decodeTableWord 256 0x4308093A040F000B09000A88000A000000000000000000000000000000000000 =
      some (.stfe ⟨0#4, .n8, 9#8, .circuit 3#2 2#3, .near 7#8 true, .none, .reed 2#2 9#4, .none, .reed 1#2 8#4, .off, 0#2, false, false⟩ 5#3) ∧
    decodeTableWord 256 0x440009B09A03A04000A88000000A000000000000000000000000000000000000 =
      some (.ojoin ⟨0#4, .f64, 9#8, .reed 2#2 9#4, .reed 0#2 3#4, .reed 0#2 4#4, .none, .reed 1#2 8#4, .none, .off, 0#2, false, false⟩ 5#3) ∧
    decodeTableWord 256 0x450B093A040F230B092D0A880008E00000000000000000000000000000000000 =
      some (.atom ⟨0#4, .i64, 9#8, .circuit 3#2 2#3, .near 7#8 true, .circuit 0#2 3#3, .reed 2#2 9#4, .circuit 1#2 5#3, .reed 1#2 8#4, .off, 0#2, false, false⟩ 4#3 7#4) ∧
    decodeTableWord 256 0x4600096110000000002D0000000A000000000000000000000000000000000000 =
      some (.rdring ⟨0#4, .f64, 9#8, .ring 17#5, .none, .none, .none, .circuit 1#2 5#3, .none, .off, 0#2, false, false⟩ 5#3) ∧
    decodeTableWord 256 0x4700093A0000000000611A88000A800000000000000000000000000000000000 =
      some (.wrring ⟨0#4, .f64, 9#8, .circuit 3#2 2#3, .none, .none, .none, .ring 17#5, .reed 1#2 8#4, .off, 0#2, false, false⟩ 5#3 8#4) := by decide +kernel

/-- R261 to R272: records of the sparse nodes. -/
theorem test_words_sparse :
    decodeTableWord 256 0x605D053A00000000002D00000008002800E00000004000000000000000000000 =
      some (.fscan ⟨5#4, .n32, 5#8, .circuit 3#2 2#3, .none, .none, .none, .circuit 1#2 5#3, .none, .off, 0#2, false, false⟩ 0x4001#15 0x2003#15 0x80000001#32) ∧
    decodeTableWord 256 0x6101063A040F0000002D02100000000000000000000000000000000000000000 =
      some (.isect ⟨0#4, .f32, 6#8, .circuit 3#2 2#3, .near 7#8 true, .none, .none, .circuit 1#2 5#3, .circuit 0#2 1#3, .off, 0#2, false, false⟩) ∧
    decodeTableWord 256 0x6201073A040F0000002D00000066000000000000000000000000000000000000 =
      some (.union ⟨0#4, .f32, 7#8, .circuit 3#2 2#3, .near 7#8 true, .none, .none, .circuit 1#2 5#3, .none, .off, 1#2, true, false⟩ 3#3) ∧
    decodeTableWord 256 0x6301083A040F0000002D0000000A000000000000000000000000000000000000 =
      some (.repeatNode ⟨0#4, .f32, 8#8, .circuit 3#2 2#3, .near 7#8 true, .none, .none, .circuit 1#2 5#3, .none, .off, 0#2, false, false⟩ 5#3) ∧
    decodeTableWord 256 0x6401053A00000000002D00000005400000000000000000000000000000000000 =
      some (.sred ⟨0#4, .f32, 5#8, .circuit 3#2 2#3, .none, .none, .none, .circuit 1#2 5#3, .none, .off, 0#2, false, false⟩ 2#3 5#3) ∧
    decodeTableWord 256 0x6511053A040F0000002D0000000D580000000000000000000000000000000000 =
      some (.sjoin ⟨1#4, .f32, 5#8, .circuit 3#2 2#3, .near 7#8 true, .none, .none, .circuit 1#2 5#3, .none, .off, 0#2, false, false⟩ 6#3 5#3 3#3) ∧
    decodeTableWord 256 0x6601053A00000000002D00000008002803A00000000000000000000000000000 =
      some (.sacc ⟨0#4, .f32, 5#8, .circuit 3#2 2#3, .none, .none, .none, .circuit 1#2 5#3, .none, .off, 0#2, false, false⟩ 0x4001#15 0x803#13 5#3) ∧
    decodeTableWord 256 0x6700053A00000000002D02100000000000000000000000000000000000000000 =
      some (.split ⟨0#4, .f64, 5#8, .circuit 3#2 2#3, .none, .none, .none, .circuit 1#2 5#3, .circuit 0#2 1#3, .off, 0#2, false, false⟩) ∧
    decodeTableWord 256 0x6800053A040F0000002D00000000000000000000000000000000000000000000 =
      some (.merge ⟨0#4, .f64, 5#8, .circuit 3#2 2#3, .near 7#8 true, .none, .none, .circuit 1#2 5#3, .none, .off, 0#2, false, false⟩) ∧
    decodeTableWord 256 0x691F053A040F0000002D00000000000000000000000000000000000000000000 =
      some (.rmerge ⟨1#4, .ki, 5#8, .circuit 3#2 2#3, .near 7#8 true, .none, .none, .circuit 1#2 5#3, .none, .off, 0#2, false, false⟩) ∧
    decodeTableWord 256 0x6A01143A00000000002D0B09000B003000000000000000000000000000000000 =
      some (.gath ⟨0#4, .f32, 20#8, .circuit 3#2 2#3, .none, .none, .none, .circuit 1#2 5#3, .reed 2#2 9#4, .off, 0#2, false, false⟩ 5#3 0x801#12 true) ∧
    decodeTableWord 256 0x6B01153A0000000000000B09000B003205409800000000000000000000000000 =
      some (.scat ⟨0#4, .f32, 21#8, .circuit 3#2 2#3, .none, .none, .none, .none, .reed 2#2 9#4, .off, 0#2, false, false⟩ 5#3 0x801#12 0x902#12 0xA04#12 6#3) := by decide +kernel

/-- R273 to R285: records of the retrieval nodes. -/
theorem test_words_retrieval :
    decodeTableWord 256 0x6C0013B09D300000002D0000000B020000000000000000000000000000000000 =
      some (.agen ⟨0#4, .f64, 19#8, .reed 2#2 9#4, .seep 2#2 3#3, .none, .none, .circuit 1#2 5#3, .none, .off, 0#2, false, false⟩ 5#3 0x81#8) ∧
    decodeTableWord 256 0x6D0016000000000000000D300000000000000000000000000000000000000000 =
      some (.qport ⟨0#4, .f64, 22#8, .none, .none, .none, .none, .none, .seep 2#2 3#3, .off, 0#2, false, false⟩) ∧
    decodeTableWord 256 0x7000053A00000000002D00000008003090800000000000000000000000000000 =
      some (.pqadc ⟨0#4, .f64, 5#8, .circuit 3#2 2#3, .none, .none, .none, .circuit 1#2 5#3, .none, .off, 0#2, false, false⟩ 0x4001#15 33#6 0x21#8) ∧
    decodeTableWord 256 0x7100053A0D300000002D0CC0000C001000000000000000000000000000000000 =
      some (.bound ⟨0#4, .f64, 5#8, .circuit 3#2 2#3, .seep 2#2 3#3, .none, .none, .circuit 1#2 5#3, .seep 1#2 4#3, .off, 0#2, false, false⟩ true 0x4001#15) ∧
    decodeTableWord 256 0x720F053A0D300000002D0CC0000815C000000000380020000000000000000000 =
      some (.topk ⟨0#4, .ki, 5#8, .circuit 3#2 2#3, .seep 2#2 3#3, .none, .none, .circuit 1#2 5#3, .seep 1#2 4#3, .off, 0#2, false, false⟩ 0x81#8 false 5#3 true 0x20000000001#42 true 0x4001#15) ∧
    decodeTableWord 256 0x730005D30C10D90C20CC0000000C000000000200000000000000000000000000 =
      some (.seepm ⟨0#4, .f64, 5#8, .seep 2#2 3#3, .seep 0#2 1#3, .seep 3#2 1#3, .seep 0#2 2#3, .seep 1#2 4#3, .none, .off, 0#2, false, false⟩ true 0x20000000001#42) ∧
    decodeTableWord 256 0x740F053A00000000002D0000000B002000000000000000000000000000000000 =
      some (.tomb ⟨0#4, .ki, 5#8, .circuit 3#2 2#3, .none, .none, .none, .circuit 1#2 5#3, .none, .off, 0#2, false, false⟩ 5#3 0x801#12) ∧
    decodeTableWord 256 0x750D053A00000000002D0000000B003205800000000000000000000000000000 =
      some (.vset ⟨0#4, .n32, 5#8, .circuit 3#2 2#3, .none, .none, .none, .circuit 1#2 5#3, .none, .off, 0#2, false, false⟩ 5#3 0x801#12 0x902#12 true true) ∧
    decodeTableWord 256 0x7613053A00000000002D00000008000000100000000000000000000000000000 =
      some (.kipack ⟨1#4, .f16, 5#8, .circuit 3#2 2#3, .none, .none, .none, .circuit 1#2 5#3, .none, .off, 0#2, false, false⟩ 0x80000001#32) ∧
    decodeTableWord 256 0x7711053A00000000002D00000003F80000100000000000000000000000000000 =
      some (.fcomp ⟨1#4, .f32, 5#8, .circuit 3#2 2#3, .none, .none, .none, .circuit 1#2 5#3, .none, .off, 0#2, false, false⟩ 0x3F800001#32) := by decide +kernel

/-! ## The spec's worked words -/

/-- The words of the scalar worked examples of chapters 3 to 6. -/
theorem test_worked_scalars :
    decodeTableWord 32 0x00304200 = some (.add 3#6 1#6 2#6) ∧
    decodeTableWord 32 0x5050B002 = some (.ld 5#6 2#6 .d64 .none 2#9) ∧
    decodeTableWord 32 0x6109FFFE = some (.br .nez 4#6 0x1FFFE#17) ∧
    decodeTableWord 32 0x0C60C409 = some (.fadd 6#6 3#6 4#6 true false 1#2) ∧
    decodeTableWord 32 0x103248A1 = some (.cvt 3#6 9#6 false 1#2 false .i32 .f32) ∧
    decodeTableWord 32 0x80000060 = some (.fence 3#3) ∧
    decodeTableWord 32 0x80518768 = some (.amoAdd false 5#6 6#6 7#6 3#3) ∧
    decodeTableWord 32 0x88424001 = some (.barv 4#6 9#6) ∧
    decodeTableWord 32 0x8C028B01 = some (.qenq 10#6 11#6) ∧
    decodeTableWord 32 0x8C328C04 = some (.qtdeq 3#6 10#6 12#6) ∧
    decodeTableWord 32 0x90818002 = some (.rwfill 8#6 3#5 2#15) ∧
    decodeTableWord 32 0x98018002 = some (.rpop 3#5 2#15) ∧
    decodeTableWord 32 0x6C000405 = some (.trap 5#10) ∧
    decodeTableWord 32 0x14200006 = some (.csrr 2#6 6#12) := by decide +kernel

/-- The worked command of R218 with and without its completion target, the worked VADD record of R105 and the worked MITER
record of R242. -/
theorem test_worked_records :
    decodeTableWord 128 0x11080003700000080009000000020001 =
      some (.copyr ⟨false, false, 1#3, 0#7, .scratch true 0x400#11 8#14⟩ 3#5 0#2 false 9#12 0#16 2#16 1#16) ∧
    decodeTableWord 256 (0x0101023A060300000028000000000000 * 2 ^ 128) =
      some (.vadd ⟨0#4, .f32, 2#8, .circuit 3#2 2#3, .ring 3#5, .none, .none, .circuit 1#2 0#3, .none, .off, 0#2, false, false⟩) ∧
    decodeTableWord 256 0x2A0000604800000000605000000C0820000083A8000004280000000000000000 =
      some (.miter ⟨0#4, .f64, 0#8, .ring 4#5, .const 0#8, .none, .none, .ring 5#5, .none, .off, 0#2, false, false⟩
        ⟨true, true, 0#6, true, 0x200#15⟩ 8#16 0x3A800000#32 0x42800000#32 false) := by decide +kernel

/-! ## Words that are no instruction, rejected by name -/

/-- R84, R85, R86, R89 to R93: an unassigned major opcode, an unassigned fn, a field that must be 0, DYN with RM, an illegal
size, an illegal qualifier, an illegal condition, an illegal scope, a ring count of 0. -/
theorem test_rejected_scalars :
    [0xFC000000, 0x000000FF, 0x00000111, 0x0C000005, 0x50003800, 0x50000600, 0x54000400, 0x63800000, 0x800000C0, 0x90000000].all
      (fun w => decodeTableWord 32 w == none) = true := by decide +kernel

/-- R98, R94, R96: an unassigned opcode, an illegal scope, CKIND 3. -/
theorem test_rejected_commands :
    [0x53 * 2 ^ 120, 0x26 * 2 ^ 120 + 6 * 2 ^ 115, 0x26 * 2 ^ 120 + 3 * 2 ^ 94].all
      (fun w => decodeTableWord 128 w == none) = true := by decide +kernel

/-- R105, R101, R102, R103: an unassigned opcode, a wrong slot, reference kind 7, guard source 6. -/
theorem test_rejected_records :
    [0x23 * 2 ^ 248, 0x01 * 2 ^ 248 + 5 * 2 ^ 232, 0x01 * 2 ^ 248 + 2 * 2 ^ 232 + 0xE00 * 2 ^ 220,
     0x01 * 2 ^ 248 + 2 * 2 ^ 232 + 0xE0 * 2 ^ 152].all (fun w => decodeTableWord 256 w == none) = true := by decide +kernel

end Sys2Proof.Tests
end

section
/-! PROOF. Host registers (R3, R4, R372 to R377, R403 to R410): what each operation at BAR0 does, a lemma for each outcome, and the
statement on host registers assembled from them. -/
namespace Sys2Proof.Machine

/-- A choice by an equivalent condition. -/
theorem ite_of_iff {α : Type} {p q : Prop} [Decidable p] [Decidable q] {x y u v : α} (h : p ↔ q) (hx : x = u) (hy : y = v) :
    (if p then x else y) = if q then u else v := ite_congr (propext h) (fun _ => hx) (fun _ => hy)

/-! ## Release (R412) -/

theorem onBar_released {s : State} (h : s.boot.rel = true) (k : State) : onBar s k = .next k := by simp [onBar, h]

theorem onBar_unreleased {s : State} (h : s.boot.rel = false) (k : State) : onBar s k = .next s := by simp [onBar, h]

theorem onMigPage_unreleased {s : State} (h : s.boot.rel = false) (fn : BitVec 7) (k : Nat → Mig → State) :
    onMigPage fn s k = .next s := by simp [onMigPage, h]

/-! ## A function page alone changes -/

/-- From s to t the page of function f becomes y, and nothing else changes. -/
def PageOnly (s t : State) (f : Nat) (y : FnPage) : Prop :=
  t.page f = y ∧ (∀ g, g ≠ f → t.page g = s.page g) ∧ { t with dev := { t.dev with pages := s.dev.pages } } = s

/-- An instruction that changes the page of function f alone, to y. -/
def SetsPage (s : State) (f : Nat) (i : Instr) (y : FnPage) : Prop := ∃ t, exec i s = .next t ∧ PageOnly s t f y

theorem page_updPage (s : State) (f : Nat) (g : FnPage → FnPage) (h : Nat) :
    (s.updPage f g).page h = if h = f then g (s.page f) else s.page h := tabGet_tabSet ..

@[simp] theorem page_updPage_self (s : State) (f : Nat) (g : FnPage → FnPage) : (s.updPage f g).page f = g (s.page f) := by
  simp [page_updPage]

theorem PageOnly.refl (s : State) (f : Nat) : PageOnly s s f (s.page f) := ⟨rfl, fun _ _ => rfl, rfl⟩

theorem PageOnly.updPage {s t : State} {f : Nat} {y : FnPage} (h : PageOnly s t f y) (g : FnPage → FnPage) :
    PageOnly s (t.updPage f g) f (g y) := by
  obtain ⟨hy, hne, hs⟩ := h
  refine ⟨by rw [page_updPage_self, hy], fun k hk => ?_, hs⟩
  rw [page_updPage, if_neg hk, hne k hk]

theorem pageOnly_updPage (s : State) (f : Nat) (g : FnPage → FnPage) : PageOnly s (s.updPage f g) f (g (s.page f)) :=
  (PageOnly.refl s f).updPage g

theorem pageOnly_barErr (s : State) (f : Nat) : PageOnly s (s.barErr f) f { s.page f with err := true } := pageOnly_updPage s f _

/-! ## Verdicts (R321, R385, R406) -/

/-- The pending fault that a verdict of function f for a SEQ names. -/
def State.namedFault (s : State) (f sq : Nat) : Option Pending :=
  s.xl.pending.find? (fun p => p.seq == sq && p.fn == f && p.repl && p.verdict.isNone)

/-- A request that waits under the fault record of a SEQ. -/
def Pending.under (sq : Nat) (p : Pending) : Bool := p.seq == sq && p.repl

theorem frseq_unnamed {s : State} {f sq : Nat} (h : s.namedFault f sq = none) : s.frseq f sq = s.barErr f := by
  rw [State.namedFault] at h
  rw [State.frseq, h]

theorem frseq_frozen {s : State} {f sq : Nat} {p : Pending} (h : s.namedFault f sq = some p)
    (hz : s.frozen (s.fnPart f) (s.fnCtx f) = true) :
    s.frseq f sq = { s with xl := { s.xl with
      pending := s.xl.pending.map (fun r => if r.under sq then { r with verdict := some (s.page f).term } else r) } } := by
  rw [State.namedFault] at h
  simp only [State.frseq, h, hz, if_true]
  rfl

theorem frseq_given {s : State} {f sq : Nat} {p : Pending} (h : s.namedFault f sq = some p)
    (hz : ¬s.frozen (s.fnPart f) (s.fnCtx f) = true) : s.frseq f sq = s.giveVerdict sq (s.page f).term := by
  rw [State.namedFault] at h
  simp only [State.frseq, h, hz]
  rfl

/-- The attempts of the partitions whose requests come from no fen are taken up again. -/
def State.unstuck (s : State) (ps : List Pending) : State :=
  ps.foldl (fun s p => s.unstick p.req.tile.die (s.fnPart (s.asidFn p.asid))) s

/-- A terminating verdict ends the task of one request's fen. -/
def State.endTask (s : State) (p : Pending) : State :=
  match p.req.fen with
  | some f => if p.req.srck = 3 then s else s.terminate f 4 0
  | none => s

/-- Attempts taken up again change the schedulers alone. -/
theorem unstuck_eq (s : State) (ps : List Pending) : ∃ hts, s.unstuck ps = { s with hts := hts } := by
  induction ps generalizing s with
  | nil => exact ⟨s.hts, rfl⟩
  | cons q r ih => exact ih (s.unstick _ _)

/-- The requests that a verdict serves. -/
def State.servedBy (s : State) (sq : Nat) : List Pending := s.xl.pending.filter (Pending.under sq)

/-- The requests of a list translate again, and owe XLATE_RETRIED. -/
def State.resumed (s : State) (sq : Nat) (ps : List Pending) : State :=
  { s with xl := { s.xl with pending := s.xl.pending.filter (fun r => !r.under sq)
                             retried := s.xl.retried ++ ps.map (fun r => r.req) } }

/-- The faults that a terminating verdict serves are marked with it. -/
def State.markTerm (s : State) (sq : Nat) : State :=
  { s with xl := { s.xl with pending := s.xl.pending.map (fun p => if p.under sq then { p with verdict := some true } else p) } }

theorem giveVerdict_false (s : State) (sq : Nat) : s.giveVerdict sq false =
    (s.unstuck ((s.servedBy sq).filter (fun p => p.req.fen.isNone))).resumed sq (s.servedBy sq) := rfl

theorem giveVerdict_true (s : State) (sq : Nat) : s.giveVerdict sq true =
    (s.servedBy sq).foldl State.endTask ((s.unstuck ((s.servedBy sq).filter (fun p => p.req.fen.isNone))).markTerm sq) := rfl

/-- Resume changes the requests served, and the schedulers. -/
theorem giveVerdict_resume (s : State) (sq : Nat) : ∃ hts, s.giveVerdict sq false = { s.resumed sq (s.servedBy sq) with hts := hts } := by
  obtain ⟨hts, h⟩ := unstuck_eq s ((s.servedBy sq).filter (fun p => p.req.fen.isNone))
  exact ⟨hts, by rw [giveVerdict_false, h]; rfl⟩

/-- Terminate: the tasks of the requests' fens end, one after the other. -/
theorem giveVerdict_terminate (s : State) (sq : Nat) : ∃ t : State, t.fens = s.fens ∧
    s.giveVerdict sq true = (s.servedBy sq).foldl State.endTask t := by
  obtain ⟨hts, h⟩ := unstuck_eq s ((s.servedBy sq).filter (fun p => p.req.fen.isNone))
  exact ⟨_, by rw [h]; rfl, giveVerdict_true s sq⟩

/-- A fen whose task ends by a verdict. -/
def Fen.ended (x : Fen) : Fen :=
  { x with term := some (4, 0), state := 7, status := x.status ||| 0x0200#16, core := x.core.stop,
           ports := x.ports.map (fun p => { p with cmds := p.cmds.map Cmd.abort }) }

@[simp] theorem message_fens (s : State) (fn v : Nat) : (s.message fn v).fens = s.fens := rfl
@[simp] theorem ringWrite_fens (s : State) (r : RingRegs) (w : BitVec 256) : (s.ringWrite r w).fens = s.fens := by
  rw [State.ringWrite, updMem_fens]

theorem putError_fens (s : State) (fn : Nat) (w : BitVec 256) : (s.putError fn w).fens = s.fens := by
  unfold State.putError
  dsimp only
  split
  · rw [updPage_fens]
  · rw [message_fens, updPage_fens, ringWrite_fens]

@[simp] theorem errorRecord_fens (s : State) (fn asid addr detail : Nat) (t : Tile) (slot kind : Nat) :
    (s.errorRecord fn asid addr detail t slot kind).fens = s.fens := by
  unfold State.errorRecord
  exact putError_fens ..

theorem terminate_fens_of_running {s : State} {g : Nat} {x : Fen} (hx : s.fens[g]? = some x) (hl : x.live = true)
    (ht : x.term = none) : (s.terminate g 4 0).fens = updNth s.fens g Fen.ended := by
  simp only [State.terminate, hx, hl, ht, Option.isSome_none, Bool.not_true, Bool.or_self, Bool.false_eq_true, if_false,
    errorRecord_fens]
  rfl

theorem terminate_of_ended {s : State} {g : Nat} {x : Fen} (c d : Nat) (hx : s.fens[g]? = some x) (ht : x.term.isSome = true) :
    s.terminate g c d = s := by simp [State.terminate, hx, ht]

theorem getElem?_terminate_ne (s : State) {f g : Nat} (c d : Nat) (h : g ≠ f) : (s.terminate f c d).fens[g]? = s.fens[g]? := by
  unfold State.terminate
  split
  · rfl
  · split
    · rfl
    · exact (congrArg (·[g]?) (errorRecord_fens ..)).trans (getElem?_updNth_ne _ _ h)

/-- A request whose verdict ends the task of fen g. -/
def Pending.ends (g : Nat) (p : Pending) : Prop := p.req.fen = some g ∧ p.req.srck ≠ 3

theorem endTask_of_ends {s : State} {g : Nat} {p : Pending} (h : p.ends g) : s.endTask p = s.terminate g 4 0 := by
  obtain ⟨hf, hk⟩ := h
  simp [State.endTask, hf, hk]

theorem getElem?_endTask_of_not_ends (s : State) {g : Nat} {p : Pending} (h : ¬p.ends g) : (s.endTask p).fens[g]? = s.fens[g]? := by
  unfold State.endTask
  split
  · rename_i f hf
    split
    · rfl
    · rename_i hk
      exact getElem?_terminate_ne s 4 0 (fun e => h ⟨e ▸ hf, hk⟩)
  · rfl

/-- A task that has ended stays as it is under every further verdict. -/
theorem getElem?_foldl_endTask_of_ended {g : Nat} {y : Fen} (hy : y.term.isSome = true) (ps : List Pending) {s : State}
    (h : s.fens[g]? = some y) : (ps.foldl State.endTask s).fens[g]? = some y := by
  induction ps generalizing s with
  | nil => exact h
  | cons p r ih =>
    refine ih ?_
    by_cases hp : p.ends g
    · rw [endTask_of_ends hp, terminate_of_ended 4 0 h hy, h]
    · rw [getElem?_endTask_of_not_ends s hp, h]

/-- A running task that some verdict ends is ended once. -/
theorem getElem?_foldl_endTask_of_running {g : Nat} {x : Fen} (hl : x.live = true) (ht : x.term = none) {ps : List Pending}
    (hr : ∃ r ∈ ps, r.ends g) {s : State} (h : s.fens[g]? = some x) :
    (ps.foldl State.endTask s).fens[g]? = some x.ended := by
  induction ps generalizing s with
  | nil => simp at hr
  | cons p r ih =>
    by_cases hp : p.ends g
    · refine getElem?_foldl_endTask_of_ended rfl r ?_
      rw [endTask_of_ends hp, terminate_fens_of_running h hl ht, getElem?_updNth_self, h, Option.map_some]
    · have hr' : ∃ q ∈ r, q.ends g := by simpa [hp] using hr
      exact ih hr' (by rw [getElem?_endTask_of_not_ends s hp, h])

theorem stop_phase {c : Core} (h1 : c.phase ≠ .granted) (h2 : c.phase ≠ .commit) : c.stop.phase = .halted := by
  simp [Core.stop, Core.bound, h1, h2]

/-! ## The tensor window (R405) -/

/-- An operation may be performed: none is in progress, or this one. -/
def FnPage.twFree (q : FnPage) (op a k : Nat) : Prop := q.twBusy = false ∨ (q.twOp = op ∧ q.twAsid = a ∧ q.twTnum = k)

/-- TWCTL after an operation. -/
def FnPage.twAfter (q : FnPage) (op a k : Nat) (bad : Bool) : FnPage :=
  { q with twOp := op, twAsid := a, twTnum := k, twBusy := false, twFail := bad }

/-- The tensor table's entry of a pair. -/
def tensorOf (l : List (BitVec 512)) (n : Nat) : Option (BitVec 512) := l.find? (fun e => fld e.toNat 511 484 == n)

theorem tensorDo_free {s : State} {f op a k : Nat} (h : (s.page f).twFree op a k) : s.tensorDo f op a k = s.tensorOp f op a k := by
  have hb : ((s.page f).twBusy && !((s.page f).twOp == op && (s.page f).twAsid == a && (s.page f).twTnum == k)) = false := by
    rcases h with h | ⟨h1, h2, h3⟩
    · simp [h]
    · simp [h1, h2, h3]
  rw [State.tensorDo]
  exact if_neg (by rw [hb]; exact Bool.false_ne_true)

theorem tensorDo_busy {s : State} {f op a k : Nat} (h : ¬(s.page f).twFree op a k) : s.tensorDo f op a k = s.tensorBusy f := by
  have hb : ((s.page f).twBusy && !((s.page f).twOp == op && (s.page f).twAsid == a && (s.page f).twTnum == k)) = true := by
    obtain ⟨hbusy, hother⟩ := not_or.1 h
    rw [Bool.and_eq_true, Bool.not_eq_true', Bool.eq_false_iff]
    refine ⟨Bool.not_eq_false _ ▸ hbusy, fun e => hother ?_⟩
    simpa only [Bool.and_eq_true, beq_iff_eq, and_assoc] using e
  rw [State.tensorDo]
  exact if_pos hb

theorem pageOnly_tensorBusy (s : State) (f : Nat) : PageOnly s (s.tensorBusy f) f { s.page f with err := true, twFail := true } :=
  (pageOnly_barErr s f).updPage _

/-- An operation is refused: the ASID is not the function's, or a write finds no entry of its pair and none free. -/
def State.tensorDenied (s : State) (f op a k : Nat) : Bool :=
  (s.asidCtx a).isNone || s.asidFn a != f ||
    (op == 1 && (tensorOf s.dev.tensors (a * 4096 + k)).isNone && decide (16384 ≤ s.dev.tensors.length))

/-- The state with an operation named in TWCTL, and BUSY 0. -/
def State.tensorNamed (s : State) (f op a k : Nat) : State :=
  s.updPage f (fun p => { p with twOp := op, twAsid := a, twTnum := k, twBusy := false })

/-- The state in which an operation that is not refused acts: TWCTL names it, and FAIL is 0. -/
def State.tensorBegun (s : State) (f op a k : Nat) : State := (s.tensorNamed f op a k).updPage f (fun p => { p with twFail := false })

/-- What an operation that is not refused does. -/
def State.tensorAct (s : State) (f op pair : Nat) (held : Option (BitVec 512)) : State :=
  if op = 1 then
    let e := BitVec.ofNat 512 ((s.page f).twData.toNat % 2 ^ 484 + pair * 2 ^ 484)
    s.updDev (fun d => { d with tensors := putTensor d.tensors e })
  else if op = 2 then s.updPage f (fun p => { p with twData := held.getD 0 })
  else s.updDev (fun d => { d with tensors := d.tensors.filter (fun e => tensorPair e != pair) })

theorem tensorOp_eq (s : State) {f op a k : Nat} (hop : op ≠ 0) : s.tensorOp f op a k =
    if s.tensorDenied f op a k then ((s.tensorNamed f op a k).barErr f).updPage f (fun p => { p with twFail := true })
    else (s.tensorBegun f op a k).tensorAct f op (a * 4096 + k) (tensorOf s.dev.tensors (a * 4096 + k)) := if_neg hop

/-- The entry that a write stores. -/
def FnPage.twEntry (q : FnPage) (pair : Nat) : BitVec 512 := BitVec.ofNat 512 (q.twData.toNat % 2 ^ 484 + pair * 2 ^ 484)

theorem tensorAct_write (s : State) (f pair : Nat) (held : Option (BitVec 512)) : s.tensorAct f 1 pair held =
    s.updDev (fun d => { d with tensors := putTensor d.tensors ((s.page f).twEntry pair) }) := rfl

theorem tensorAct_read (s : State) (f pair : Nat) (held : Option (BitVec 512)) : s.tensorAct f 2 pair held =
    s.updPage f (fun p => { p with twData := held.getD 0 }) := rfl

theorem tensorAct_remove (s : State) (f pair : Nat) (held : Option (BitVec 512)) : s.tensorAct f 3 pair held =
    s.updDev (fun d => { d with tensors := d.tensors.filter (fun e => tensorPair e != pair) }) := rfl

theorem tensorDenied_iff (s : State) (f op a k : Nat) : s.tensorDenied f op a k = true ↔
    ¬(s.asidCtx a ≠ none ∧ s.asidFn a = f) ∨
      (op = 1 ∧ tensorOf s.dev.tensors (a * 4096 + k) = none ∧ 16384 ≤ s.dev.tensors.length) := by
  rw [State.tensorDenied, Bool.or_eq_true, Bool.or_eq_true, Bool.and_eq_true, Bool.and_eq_true, and_assoc, Option.isNone_iff_eq_none,
    Option.isNone_iff_eq_none, bne_iff_ne, beq_iff_eq, decide_eq_true_eq, Classical.not_and_iff_not_or_not, Classical.not_not]

theorem pageOnly_tensorOp_denied {s : State} {f op a k : Nat} (hop : op ≠ 0) (h : s.tensorDenied f op a k = true) :
    PageOnly s (s.tensorOp f op a k) f { (s.page f).twAfter op a k true with err := true } := by
  rw [tensorOp_eq s hop, if_pos h]
  exact ((pageOnly_updPage s f _).updPage _).updPage _

/-- The page of an operation that is not refused, before the operation acts. -/
theorem pageOnly_tensorBegun (s : State) (f op a k : Nat) : PageOnly s (s.tensorBegun f op a k) f ((s.page f).twAfter op a k false) :=
  (pageOnly_updPage s f _).updPage _

theorem tensorDo_allowed {s : State} {f op a k : Nat} (hop : op ≠ 0) (hf : (s.page f).twFree op a k) (h : ¬s.tensorDenied f op a k = true) :
    s.tensorDo f op a k = (s.tensorBegun f op a k).tensorAct f op (a * 4096 + k) (tensorOf s.dev.tensors (a * 4096 + k)) := by
  rw [tensorDo_free hf, tensorOp_eq s hop, if_neg h]

/-- Only a write is refused for want of room. -/
theorem not_tensorDenied {s : State} {f op a k : Nat} (hm : s.asidCtx a ≠ none ∧ s.asidFn a = f)
    (hn : op = 1 → ¬(tensorOf s.dev.tensors (a * 4096 + k) = none ∧ 16384 ≤ s.dev.tensors.length)) :
    ¬s.tensorDenied f op a k = true := by
  rw [tensorDenied_iff]
  rintro (h | ⟨h1, h⟩)
  · exact h hm
  · exact hn h1 h

theorem tensorOf_cons (d : BitVec 512) (l : List (BitVec 512)) (n : Nat) :
    tensorOf (d :: l) n = if fld d.toNat 511 484 = n then some d else tensorOf l n := by
  by_cases h : fld d.toNat 511 484 = n
  · rw [if_pos h]; exact List.find?_cons_of_pos (beq_iff_eq.2 h)
  · rw [if_neg h]; exact List.find?_cons_of_neg (by simpa using h)

theorem tensorOf_putTensor (l : List (BitVec 512)) (e : BitVec 512) (n : Nat) :
    tensorOf (putTensor l e) n = if n = fld e.toNat 511 484 then some e else tensorOf l n := by
  induction l with
  | nil => simp only [putTensor, tensorOf_cons, eq_comm]
  | cons d r ih =>
    rw [putTensor]
    by_cases h : fld d.toNat 511 484 = fld e.toNat 511 484
    · rw [if_pos h, tensorOf_cons, tensorOf_cons, h]
      grind
    · rw [if_neg h, tensorOf_cons, tensorOf_cons, ih]
      split <;> simp_all

theorem tensorOf_filter (l : List (BitVec 512)) (m n : Nat) :
    tensorOf (l.filter (fun e => tensorPair e != m)) n = if n = m then none else tensorOf l n := by
  induction l with
  | nil => simp [tensorOf]
  | cons d r ih =>
    by_cases h : fld d.toNat 511 484 = m
    · rw [List.filter_cons_of_neg (by simp [tensorPair, h]), ih, tensorOf_cons, h]
      grind
    · rw [List.filter_cons_of_pos (by simpa [tensorPair] using h), tensorOf_cons, tensorOf_cons, ih]
      split <;> simp_all

/-- The pair that an entry written at the window names. -/
theorem tensorPair_twEntry (q : FnPage) {a k : Nat} (ha : a < 2 ^ 16) (hk : k < 4096) :
    fld (q.twEntry (a * 4096 + k)).toNat 511 484 = a * 4096 + k := by
  rw [FnPage.twEntry, BitVec.toNat_ofNat, fld]
  omega

/-! ## Invalidations: what they reach (R316, R407) -/

/-- Accesses under an ASID of a partition are under what an invalidation names. -/
def Inval.Names (v : Inval) (asid part : Nat) : Prop :=
  if v.kind ≤ 2 then asid = v.id else if v.kind ≤ 4 then part = v.id else True

theorem concerns_iff (v : Inval) (asid part : Nat) : v.concerns asid part = true ↔ v.Names asid part := by
  unfold Inval.concerns Inval.Names
  split
  · exact beq_iff_eq
  · split
    · exact beq_iff_eq
    · exact iff_true_intro rfl

/-- n bytes from a up meet the pages of an invalidation. -/
def Inval.overlaps (v : Inval) (a n : Nat) : Bool := decide (a < v.from' + 4096 * v.pages ∧ v.from' < a + n)

theorem meets_eq (v : Inval) (a n : Nat) : v.meets a n = v.overlaps a n := (Bool.decide_and ..).symm

theorem takes_eq (v : Inval) (t : Tlb) : v.takes t =
    if v.kind = 1 then t.asid == v.id && v.overlaps t.va t.size else if v.kind = 2 then t.asid == v.id
    else if v.kind = 3 then t.part == v.id && v.overlaps t.ipa t.size else if v.kind = 4 then t.part == v.id else true := by
  simp only [Inval.takes, meets_eq]

theorem takesWalk_eq (v : Inval) (c : WalkCache) : v.takesWalk c =
    if v.kind ≤ 2 then false else if v.kind = 3 then c.part == v.id && v.overlaps (c.ipa * 4096) 4096
    else if v.kind = 4 then c.part == v.id else true := by
  simp only [Inval.takesWalk, meets_eq]

/-- A held translation of a fen's access, n bytes at va, goes with an invalidation. -/
def Inval.Goes (v : Inval) (x : Fen) (ph : Phys) (va n : Nat) : Prop :=
  v.Names x.asid x.part ∧ ph.typ ≠ .scratch ∧ (v.kind = 1 → v.overlaps va n = true) ∧ (v.kind = 3 → v.overlaps ph.ipa n = true)

theorem takesHeld_iff (v : Inval) (x : Fen) (ph : Phys) (va n : Nat) :
    v.takesHeld x.asid x.part ph va n = true ↔ v.Goes x ph va n := by
  have hk : (if v.kind = 1 then v.overlaps va n else if v.kind = 3 then v.overlaps ph.ipa n else true) = true ↔
      (v.kind = 1 → v.overlaps va n = true) ∧ (v.kind = 3 → v.overlaps ph.ipa n = true) := by
    by_cases h1 : v.kind = 1
    · simp [h1]
    · by_cases h3 : v.kind = 3 <;> simp [h1, h3]
  rw [Inval.takesHeld, meets_eq, meets_eq, Bool.and_eq_true, Bool.and_eq_true, bne_iff_ne, concerns_iff, hk, Inval.Goes]
  exact ⟨fun ⟨⟨a, b⟩, c⟩ => ⟨b, a, c⟩, fun ⟨b, a, c⟩ => ⟨⟨a, b⟩, c⟩⟩

theorem holdsHit_iff (v : Inval) (x : Fen) : x.holdsHit v = true ↔ ∃ h ∈ x.core.held, v.Goes x h.1 h.2.1 h.2.2 := by
  simp only [Fen.holdsHit, List.any_eq_true, takesHeld_iff]

theorem bound_iff (c : Core) : c.bound = true ↔ c.phase = .granted ∨ c.phase = .commit := by simp [Core.bound]

theorem takesSent_iff (v : Inval) (x : Fen) (home : Option Phys) (va : Nat) :
    v.takesSent x home va = true ↔ ∃ ph, home = some ph ∧ v.Goes x ph va 16 := by
  simp only [Inval.takesSent, Option.any_eq_true, takesHeld_iff]

/-- Some read issued ahead by the fen's engines or nodes, under a translation that goes, has not come back. -/
def Fen.Sent (x : Fen) (v : Inval) : Prop :=
  (∃ p ∈ x.ports, ∃ c ∈ p.cmds, ∃ h ∈ c.early, h.got = none ∧ ∃ ph, h.home = some ph ∧ v.Goes x ph h.va 16) ∨
  (∃ m, some m ∈ x.mantles ∧ ∃ n ∈ m.nodes, ∃ e ∈ n.mem.win, e.got = none ∧
    ∃ ph, e.home = some ph ∧ v.Goes x ph (e.addr.toNat + e.off) 16)

theorem sentHit_iff (v : Inval) (x : Fen) : x.sentHit v = true ↔ x.Sent v := by
  simp only [Fen.sentHit, Fen.Sent, Bool.or_eq_true, List.any_eq_true, Option.any_eq_true, Bool.and_eq_true, Option.isNone_iff_eq_none,
    takesSent_iff]
  refine or_congr Iff.rfl ⟨fun ⟨o, ho, m, hm, h⟩ => ⟨m, hm ▸ ho, h⟩, fun ⟨m, hm, h⟩ => ⟨_, hm, m, rfl, h⟩⟩

/-! ## The start of an invalidation -/

/-- A fen whose block is discarded where it holds such a translation and is not past its point of no return. -/
def Fen.invDrop (x : Fen) (v : Inval) : Fen := if x.live && x.holdsHit v && !x.core.bound then { x with core := x.core.fresh } else x

theorem getElem?_invDrop (s : State) (v : Inval) (j : Nat) : (s.invDrop v).fens[j]? = (s.fens[j]?).map (fun x => x.invDrop v) :=
  List.getElem?_map

theorem fenInvDrop_of_drops {x : Fen} {v : Inval} (hl : x.live = true) (hh : x.holdsHit v = true) (hb : x.core.bound = false) :
    x.invDrop v = { x with core := x.core.fresh } := if_pos (by simp [hl, hh, hb])

theorem fenInvDrop_of_keeps {x : Fen} {v : Inval} (h : ¬(x.live = true ∧ x.holdsHit v = true ∧ x.core.bound = false)) :
    x.invDrop v = x := if_neg (by simpa using h)

theorem concerns_fenInvDrop (v : Inval) (x : Fen) : v.concerns (x.invDrop v).asid (x.invDrop v).part = v.concerns x.asid x.part := by
  unfold Fen.invDrop
  split <;> rfl

/-- The fen holds up no completion of an invalidation. -/
def Fen.clear (x : Fen) (v : Inval) : Bool := !(x.core.bound && x.holdsHit v) && !x.sentHit v

/-- A block that is discarded held nothing up. -/
theorem clear_fenInvDrop (v : Inval) (x : Fen) : (x.invDrop v).clear v = x.clear v := by
  by_cases h : x.live = true ∧ x.holdsHit v = true ∧ x.core.bound = false
  · obtain ⟨hl, hh, hb⟩ := h
    have hf : x.core.fresh.bound = false := rfl
    rw [fenInvDrop_of_drops hl hh hb, Fen.clear, Fen.clear, hb, hf]
    rfl
  · rw [fenInvDrop_of_keeps h]

/-- The function may start an invalidation of a kind: of an ASID of its own, or as the physical function. -/
def State.invMay (s : State) (f kind id : Nat) : Prop := if kind ≤ 2 then s.asidCtx id ≠ none ∧ s.asidFn id = f else f = 0

/-- What an invalidation that starts covers. -/
def FnPage.inval (q : FnPage) (kind id : Nat) : Inval := ⟨kind, if kind = 3 ∨ kind = 4 then id % 16 else id, q.invAddr, q.invLen⟩

theorem names_inval (q : FnPage) (kind id asid part : Nat) : (q.inval kind id).Names asid part ↔
    if kind ≤ 2 then asid = id else if kind ≤ 4 then part = id % 16 else True := by
  have hk : (q.inval kind id).kind = kind := rfl
  have hid : (q.inval kind id).id = if kind = 3 ∨ kind = 4 then id % 16 else id := rfl
  rw [Inval.Names, hk, hid]
  by_cases h2 : kind ≤ 2
  · rw [if_pos h2, if_pos h2, if_neg (by omega)]
  · rw [if_neg h2, if_neg h2]
    by_cases h4 : kind ≤ 4
    · rw [if_pos h4, if_pos h4, if_pos (by omega)]
    · rw [if_neg h4, if_neg h4]

/-- The page once an invalidation has started. -/
def FnPage.invBegun (q : FnPage) (kind id : Nat) : FnPage :=
  { q with invKind := kind, invId := id, invBusy := true, invFrom := q.invAddr, invPages := q.invLen }

/-- Walks that an invalidation concerns lose their result. -/
def State.staleWalks (s : State) (v : Inval) : State :=
  { s with xl := { s.xl with
    walks := s.xl.walks.map (fun w : Walk => if w.running && v.concerns w.asid w.part then { w with stale := true } else w) } }

theorem invStart_eq (s : State) (f : Nat) {kind id : Nat} (h1 : 1 ≤ kind) (h5 : kind ≤ 5) [Decidable (s.invMay f kind id)] :
    s.invStart f kind id = if (s.page f).invBusy = true ∨ ¬s.invMay f kind id then s.barErr f
      else ((s.updPage f (fun p => p.invBegun kind id)).staleWalks ((s.page f).inval kind id)).invDrop ((s.page f).inval kind id) := by
  have hok : (if kind = 1 ∨ kind = 2 then (s.asidCtx id).isSome && s.asidFn id == f else decide (3 ≤ kind ∧ kind ≤ 5) && f == 0) = true ↔
      s.invMay f kind id := by
    unfold State.invMay
    by_cases h : kind ≤ 2
    · rw [if_pos (by omega), if_pos h]
      simp [Option.isSome_iff_ne_none]
    · rw [if_neg (by omega), if_neg h]
      simp [h5, show 3 ≤ kind by omega]
  refine ite_of_iff ?_ rfl rfl
  rw [Bool.or_eq_true, Bool.not_eq_true', Bool.eq_false_iff, Ne, hok]

theorem invStart_refused {s : State} {f kind id : Nat} (h1 : 1 ≤ kind) (h5 : kind ≤ 5)
    (h : (s.page f).invBusy = true ∨ ¬s.invMay f kind id) : s.invStart f kind id = s.barErr f := by
  classical rw [invStart_eq s f h1 h5, if_pos h]

theorem invStart_started {s : State} {f kind id : Nat} (h1 : 1 ≤ kind) (h5 : kind ≤ 5) (hb : (s.page f).invBusy = false)
    (hm : s.invMay f kind id) : s.invStart f kind id =
      ((s.updPage f (fun p => p.invBegun kind id)).staleWalks ((s.page f).inval kind id)).invDrop ((s.page f).inval kind id) := by
  classical rw [invStart_eq s f h1 h5, if_neg (by simp [hb, hm])]

/-- A block that a starting invalidation discards. -/
theorem drops_iff (v : Inval) (x : Fen) : (x.live = true ∧ x.holdsHit v = true ∧ x.core.bound = false) ↔
    x.live = true ∧ v.Names x.asid x.part ∧ (∃ h ∈ x.core.held, h.1.typ ≠ .scratch ∧ (v.kind = 1 → v.overlaps h.2.1 h.2.2 = true) ∧
      (v.kind = 3 → v.overlaps h.1.ipa h.2.2 = true)) ∧ x.core.phase ≠ .granted ∧ x.core.phase ≠ .commit := by
  have hh : x.holdsHit v = true ↔ v.Names x.asid x.part ∧ ∃ h ∈ x.core.held, h.1.typ ≠ .scratch ∧
      (v.kind = 1 → v.overlaps h.2.1 h.2.2 = true) ∧ (v.kind = 3 → v.overlaps h.1.ipa h.2.2 = true) := by
    rw [holdsHit_iff]
    exact ⟨fun ⟨h, hm, hn, hg⟩ => ⟨hn, h, hm, hg⟩, fun ⟨hn, h, hm, hg⟩ => ⟨h, hm, hn, hg⟩⟩
  rw [hh, Bool.eq_false_iff, Ne, bound_iff, not_or, and_assoc]

theorem getElem?_staleWalks {s : State} {v : Inval} {j : Nat} {w : Walk} (h : s.xl.walks[j]? = some w) :
    ∃ u, (s.staleWalks v).xl.walks[j]? = some u ∧ { u with stale := w.stale } = w ∧
      (u.stale = true ↔ w.stale = true ∨ (w.running = true ∧ v.Names w.asid w.part)) := by
  refine ⟨if w.running && v.concerns w.asid w.part then { w with stale := true } else w, ?_, ?_, ?_⟩
  · simp only [State.staleWalks, List.getElem?_map, h, Option.map_some]
  · split <;> rfl
  · rw [← concerns_iff]
    split <;> rename_i hc
    · simpa using Or.inr hc
    · simpa using fun h1 h2 => absurd (by simp [h1, h2]) hc

/-! ## The completion of an invalidation -/

/-- Every access under a translation that goes has been performed. -/
def State.InvDone (s : State) (v : Inval) : Prop :=
  (∀ x ∈ s.fens, ¬((∃ h ∈ x.core.held, v.Goes x h.1 h.2.1 h.2.2) ∧ (x.core.phase = .granted ∨ x.core.phase = .commit)) ∧
    ¬x.Sent v) ∧
  (∀ e ∈ s.xl.ext, e.resp = none → ¬v.Names e.asid (s.fnPart (s.asidFn e.asid))) ∧
  (∀ r ∈ s.reds, ∀ a ∈ r.anns, ∀ x, s.fens[a.fen]? = some x → ¬v.Names x.asid x.part) ∧
  (∀ k ∈ s.net.packets, k.resp = false → ∀ g x, k.src.fen = some g → s.fens[g]? = some x → ¬v.Names x.asid x.part)

theorem fenNamed_iff (s : State) (v : Inval) (g : Nat) :
    (s.fens[g]?).any (fun x => v.concerns x.asid x.part) = true ↔ ∃ x, s.fens[g]? = some x ∧ v.Names x.asid x.part := by
  simp only [Option.any_eq_true, concerns_iff]

theorem invDone_iff (s : State) (v : Inval) : s.invDone v = true ↔ s.InvDone v := by
  unfold State.invDone State.InvDone
  simp only [Bool.and_eq_true, and_assoc, List.all_eq_true]
  refine and_congr (forall₂_congr fun x _ => ?_) (and_congr (forall₂_congr fun e _ => ?_)
    (and_congr (forall₂_congr fun r _ => forall₂_congr fun a _ => ?_) (forall₂_congr fun k _ => ?_)))
  · rw [← holdsHit_iff, ← bound_iff, ← sentHit_iff, Bool.not_eq_true', Bool.not_eq_true', ← Bool.not_eq_true, ← Bool.not_eq_true,
      Bool.and_eq_true, and_comm (a := x.core.bound = true)]
  · rw [← concerns_iff]
    cases e.resp <;> simp
  · rw [Bool.not_eq_true', ← Bool.not_eq_true, fenNamed_iff]
    simp only [not_exists, not_and]
  · have hk : (k.src.fen).any (fun g => (s.fens[g]?).any (fun x => v.concerns x.asid x.part)) = true ↔
        ∃ g x, k.src.fen = some g ∧ s.fens[g]? = some x ∧ v.Names x.asid x.part := by
      simp only [Option.any_eq_true, concerns_iff, exists_and_left]
    cases k.resp
    · rw [Bool.false_or, Bool.not_eq_true', ← Bool.not_eq_true, hk]
      simp only [not_exists, not_and, forall_const]
    · simp

theorem invDone_invDrop (s : State) (v : Inval) : (s.invDrop v).invDone v = s.invDone v := by
  have hfens : (s.invDrop v).fens = s.fens.map (fun x => x.invDrop v) := rfl
  have hall : (s.invDrop v).fens.all (fun x => x.clear v) = s.fens.all (fun x => x.clear v) := by
    rw [hfens, List.all_map]
    exact congrArg s.fens.all (funext (clear_fenInvDrop v))
  have hfen : ∀ g : Nat, ((s.invDrop v).fens[g]?).any (fun x => v.concerns x.asid x.part) =
      (s.fens[g]?).any (fun x => v.concerns x.asid x.part) := by
    intro g
    rw [getElem?_invDrop, Option.any_map]
    exact congrArg (Option.any · _) (funext (concerns_fenInvDrop v))
  simp only [Fen.clear] at hall
  unfold State.invDone
  rw [hall]
  simp only [hfen]
  rfl

/-- What INV_COMPLETE covers: the invalidation in progress. -/
def FnPage.invNow (q : FnPage) : Inval := ⟨q.invKind, if q.invKind = 3 ∨ q.invKind = 4 then q.invId % 16 else q.invId, q.invFrom, q.invPages⟩

/-- The state once an invalidation is complete. -/
def State.invEnd (s : State) (f : Nat) (v : Inval) : State :=
  let s1 := s.invDrop v
  ({ s1 with fens := s1.fens.map (fun x : Fen => x.unsend v)
             xl := { s1.xl with tlbs := s1.xl.tlbs.filter (fun t => !v.takes t)
                                wcache := s1.xl.wcache.filter (fun c => !v.takesWalk c) },
             emt := { s1.emt with replicas := [] } }.updPage f (fun p => { p with invBusy := false })).message f 2

theorem exec_invComplete_eq (fn : BitVec 7) (s : State) : exec (.invComplete fn) s =
    if !(s.page fn.toNat).invBusy || !(s.invDrop (s.page fn.toNat).invNow).invDone (s.page fn.toNat).invNow then .next s
    else .next (s.invEnd fn.toNat (s.page fn.toNat).invNow) := rfl

theorem exec_invComplete_waits {s : State} {fn : BitVec 7} (h : (s.page fn.toNat).invBusy = false ∨ ¬s.InvDone (s.page fn.toNat).invNow) :
    exec (.invComplete fn) s = .next s := by
  rw [exec_invComplete_eq, invDone_invDrop, if_pos]
  rw [Bool.or_eq_true, Bool.not_eq_true', Bool.not_eq_true', Bool.eq_false_iff (b := s.invDone _), Ne, invDone_iff]
  exact h

theorem exec_invComplete_ends {s : State} {fn : BitVec 7} (hb : (s.page fn.toNat).invBusy = true) (hd : s.InvDone (s.page fn.toNat).invNow) :
    exec (.invComplete fn) s = .next (s.invEnd fn.toNat (s.page fn.toNat).invNow) := by
  rw [exec_invComplete_eq, invDone_invDrop, if_neg]
  simp [hb, (invDone_iff ..).2 hd]

/-! ## Writes of registers: the pages (R404 to R407) -/

/-- A write of a function page, at the 8-byte unit of the offset. -/
theorem exec_registerWrite_page {s : State} (hr : s.boot.rel = true) (fn : BitVec 7) {ofs : BitVec 21} (val : BitVec 64)
    (ho : ofs.toNat < 0x2000) :
    exec (.registerWrite fn ofs val) s = .next (s.pageWrite fn.toNat (ofs.toNat / 8 * 8) val.toNat) := by
  have h : ofs.toNat / 8 * 8 < 0x2000 := by omega
  exact (onBar_released hr _).trans (congrArg _ (if_pos h))

/-- A write behind the pages is the physical function's. -/
theorem exec_registerWrite_phys {s : State} (hr : s.boot.rel = true) {ofs : BitVec 21} (val : BitVec 64) (ho : 0x2000 ≤ ofs.toNat) :
    exec (.registerWrite 0#7 ofs val) s = .next (s.physWrite (ofs.toNat / 8 * 8) val.toNat) := by
  have h : ¬ofs.toNat / 8 * 8 < 0x2000 := by omega
  exact (onBar_released hr _).trans (congrArg _ ((if_neg h).trans (if_pos rfl)))

theorem exec_registerWrite_beyond {s : State} (hr : s.boot.rel = true) {fn : BitVec 7} {ofs : BitVec 21} (val : BitVec 64)
    (ho : 0x2000 ≤ ofs.toNat) (hf : fn ≠ 0#7) : exec (.registerWrite fn ofs val) s = .next s := by
  have h : ¬ofs.toNat / 8 * 8 < 0x2000 := by omega
  exact (onBar_released hr _).trans (congrArg _ ((if_neg h).trans (if_neg hf)))

/-- A write of an aligned register of a function page. -/
theorem exec_registerWrite_at {s : State} (hr : s.boot.rel = true) (fn : BitVec 7) {ofs : BitVec 21} (val : BitVec 64) {o : Nat}
    (ho : ofs.toNat = o) (hlt : o < 0x2000) (h8 : o % 8 = 0) :
    exec (.registerWrite fn ofs val) s = .next (s.pageWrite fn.toNat o val.toNat) := by
  rw [exec_registerWrite_page hr fn val (by omega), show ofs.toNat / 8 * 8 = o by omega]

/-- A register write that changes the page alone. -/
theorem setsPage_registerWrite {s : State} (hr : s.boot.rel = true) {fn : BitVec 7} {ofs : BitVec 21} {val : BitVec 64} {o : Nat}
    {y : FnPage} (ho : ofs.toNat = o) (hlt : o < 0x2000) (h8 : o % 8 = 0) (h : PageOnly s (s.pageWrite fn.toNat o val.toNat) fn.toNat y) :
    SetsPage s fn.toNat (.registerWrite fn ofs val) y := ⟨_, exec_registerWrite_at hr fn val ho hlt h8, h⟩

section
variable (s : State) (f v : Nat)

/-- A write of the base or of HEAD of the fault ring, and the records that it makes room for. -/
theorem pageWrite_frHead : s.pageWrite f 0x90 v =
    let t := s.updPage f (fun p => { p with fr := p.fr.write 2 v })
    t.drainHeld f (t.page f).heldRec.length := by simp [State.pageWrite]

theorem pageWrite_frBase : s.pageWrite f 0x80 v =
    let t := s.updPage f (fun p => { p with fr := p.fr.write 0 v })
    t.drainHeld f (t.page f).heldRec.length := by simp [State.pageWrite]

theorem pageWrite_term : s.pageWrite f 0x98 v = s.updPage f (fun p => { p with term := bit v 0 }) := by simp [State.pageWrite]

theorem pageWrite_erBase : s.pageWrite f 0xC0 v = s.updPage f (fun p => { p with er := p.er.write 0 v }) := by simp [State.pageWrite]

theorem pageWrite_erHead : s.pageWrite f 0xD0 v = s.updPage f (fun p => { p with er := p.er.write 2 v }) := by simp [State.pageWrite]

theorem pageWrite_twctl : s.pageWrite f 0x100 v = s.tensorStart f (fld v 63 62) (v % 65536) (fld v 43 32) := by simp [State.pageWrite]

theorem pageWrite_invAddr : s.pageWrite f 0x188 v = s.updPage f (fun p => { p with invAddr := fld v 47 12 * 4096 }) := by
  simp [State.pageWrite]

theorem pageWrite_invLen : s.pageWrite f 0x190 v = s.updPage f (fun p => { p with invLen := v % 2 ^ 32 }) := by simp [State.pageWrite]

theorem pageWrite_err : s.pageWrite f 0x1C0 v = s.updPage f (fun p => { p with err := p.err && !bit v 0 }) := by simp [State.pageWrite]

/-- A write of one of the eight words of TWDATA. -/
theorem pageWrite_twData {k : Nat} (hk : k < 8) : s.pageWrite f (0x140 + 8 * k) v =
    s.updPage f (fun p => { p with twData := BitVec.ofNat 512 (setFld p.twData.toNat (8 * (8 * k) + 63) (8 * (8 * k)) v) }) := by
  have h1 : ¬(0x140 + 8 * k = 0x80 ∨ 0x140 + 8 * k = 0x90) := by omega
  have h2 : ¬0x140 + 8 * k = 0x98 := by omega
  have h3 : ¬0x140 + 8 * k = 0xA0 := by omega
  have h4 : ¬(0xC0 ≤ 0x140 + 8 * k ∧ 0x140 + 8 * k < 0xD8) := by omega
  have h5 : ¬0x140 + 8 * k = 0x100 := by omega
  have h6 : 0x140 ≤ 0x140 + 8 * k ∧ 0x140 + 8 * k < 0x180 := by omega
  rw [State.pageWrite, if_neg h1, if_neg h2, if_neg h3, if_neg h4, if_neg h5, if_pos h6, Nat.add_sub_cancel_left]

/-- An offset below the registers of the page, or beyond them, names nothing. -/
theorem pageWrite_nothing {o : Nat} (h : o < 0x80 ∨ 0x1C8 ≤ o) : s.pageWrite f o v = s := by
  unfold State.pageWrite
  repeat rw [if_neg (by omega)]

end

/-- With no record held nothing is drained. -/
theorem drainHeld_length_of_empty {s : State} {f : Nat} (h : (s.page f).heldRec = []) : s.drainHeld f (s.page f).heldRec.length = s := by
  rw [h]; rfl

theorem isFull_iff (r : RingRegs) : r.isFull = true ↔ r.NoRoom := by simp [RingRegs.isFull, RingRegs.NoRoom]

/-- A fault record written to a ring with room (R320, R406). -/
theorem putFault_room {s : State} {f : Nat} (w : BitVec 256) (h : ¬(s.page f).fr.NoRoom) : s.putFault f w =
    ((s.ringWrite (s.page f).fr w).updPage f (fun p => { p with fr := p.fr.push })).message f 0 :=
  if_neg (fun e => h ((isFull_iff _).1 e))

/-- One record held leaves for a ring with room. -/
theorem drainHeld_one {s : State} {f : Nat} {w : BitVec 256} (hw : (s.page f).heldRec = [w]) (h : ¬(s.page f).fr.NoRoom) :
    s.drainHeld f (s.page f).heldRec.length = (s.updPage f (fun p => { p with heldRec := [] })).putFault f w := by
  rw [hw]
  simp only [List.length_singleton, State.drainHeld, hw]
  rw [if_neg (fun e => h ((isFull_iff _).1 e))]

/-- Bits of a number with one field replaced. -/
theorem testBit_setFld (w v : Nat) {hi lo : Nat} (h : lo ≤ hi) (j : Nat) :
    (setFld w hi lo v).testBit j = if lo ≤ j ∧ j ≤ hi then v.testBit (j - lo) else w.testBit j := by
  have hlow : w % 2 ^ lo < 2 ^ lo := Nat.mod_lt _ (Nat.two_pow_pos _)
  have hmid : v % 2 ^ (hi + 1 - lo) * 2 ^ lo + w % 2 ^ lo < 2 ^ (hi + 1) := by
    have hv : v % 2 ^ (hi + 1 - lo) + 1 ≤ 2 ^ (hi + 1 - lo) := Nat.mod_lt _ (Nat.two_pow_pos _)
    calc _ < (v % 2 ^ (hi + 1 - lo) + 1) * 2 ^ lo := by rw [Nat.add_mul, Nat.one_mul]; omega
      _ ≤ 2 ^ (hi + 1 - lo) * 2 ^ lo := Nat.mul_le_mul_right _ hv
      _ = 2 ^ (hi + 1) := by rw [← Nat.pow_add, Nat.sub_add_cancel (by omega)]
  rw [setFld, Nat.add_assoc, Nat.mul_comm (w / _), Nat.testBit_two_pow_mul_add _ hmid, Nat.mul_comm (v % _),
    Nat.testBit_two_pow_mul_add _ hlow, Nat.testBit_mod_two_pow, Nat.testBit_mod_two_pow, Nat.testBit_div_two_pow]
  by_cases h1 : j < lo
  · simp [h1, show j < hi + 1 by omega, show ¬lo ≤ j by omega]
  · by_cases h2 : j < hi + 1
    · simp [h1, h2, show j - lo < hi + 1 - lo by omega, show lo ≤ j by omega, show j ≤ hi by omega]
    · simp [h2, show ¬j ≤ hi by omega, show j - (hi + 1) + (hi + 1) = j by omega]

/-! ## Reads (R3, R4, R403) -/

theorem halfOf_low (w : Nat) : halfOf w false = w % 2 ^ 64 := by simp [halfOf, fld]

theorem halfOf_high (w : Nat) : halfOf w true = w / 2 ^ 64 % 2 ^ 64 := rfl

theorem barRead_page (s : State) {f o : Nat} (h : o < 0x2000) : s.barRead f o = (s.page f).read o := if_pos h

theorem barRead_phys (s : State) {o : Nat} (h : 0x2000 ≤ o) : s.barRead 0 o = s.physRead o :=
  (if_neg (Nat.not_lt.2 h)).trans (if_pos rfl)

theorem barRead_beyond (s : State) {f o : Nat} (h : 0x2000 ≤ o) (hf : f ≠ 0) : s.barRead f o = 0 :=
  (if_neg (Nat.not_lt.2 h)).trans (if_neg hf)

theorem pageRead_nothing (p : FnPage) {o : Nat} (h : o < 0x80 ∨ o = 0xA0 ∨ 0x1C8 ≤ o) : p.read o = 0 := by
  unfold FnPage.read
  repeat rw [if_neg (by omega)]

theorem physRead_func (s : State) {o : Nat} (h : 0x2000 ≤ o ∧ o < 0x2800) :
    s.physRead o = halfOf (s.func ((o - 0x2000) / 16)) (o % 16 == 8) := if_pos h

theorem physRead_part (s : State) {p : Nat} (h : p < 16) : s.physRead (0x5000 + 8 * p) = s.part p := by
  unfold State.physRead
  rw [if_neg (by omega), if_neg (by omega), if_pos (by omega), show (0x5000 + 8 * p - 0x5000) / 8 = p by omega]

/-- MIGCTL is write-only (R390). -/
theorem physRead_migctl (s : State) {f : Nat} (h1 : 1 ≤ f) (h : f < 128) : s.physRead (0x100000 + 0x2000 * f) = 0 := by
  unfold State.physRead
  rw [if_neg (by omega), if_neg (by omega), if_neg (by omega), if_neg (by omega), if_neg (by omega), if_neg (by omega), if_pos (by omega),
    show (0x100000 + 0x2000 * f - 0x100000) % 0x2000 = 0 by omega]
  rfl

/-- What names nothing, and what is write-only in a page, reads zero. -/
theorem barRead_nothing (s : State) {f o : Nat} (h : o < 0x80 ∨ o = 0xA0 ∨ (0x1C8 ≤ o ∧ o < 0x2000) ∨ (0x2000 ≤ o ∧ f ≠ 0)) :
    s.barRead f o = 0 := by
  rcases h with h | h | ⟨h, h'⟩ | ⟨h, hf⟩
  · rw [barRead_page s (by omega), pageRead_nothing _ (.inl h)]
  · rw [barRead_page s (by omega), pageRead_nothing _ (.inr (.inl h))]
  · rw [barRead_page s h', pageRead_nothing _ (.inr (.inr h))]
  · exact barRead_beyond s h hf

theorem barRead_func_low (s : State) {g : Nat} (hg : g < 128) : s.barRead 0 (0x2000 + 16 * g) = s.func g % 2 ^ 64 := by
  have h8 : ((0x2000 + 16 * g) % 16 == 8) = false := by rw [show (0x2000 + 16 * g) % 16 = 0 by omega]; rfl
  rw [barRead_phys s (by omega), physRead_func s (by omega), h8, halfOf_low, show (0x2000 + 16 * g - 0x2000) / 16 = g by omega]

theorem barRead_func_high (s : State) {g : Nat} (hg : g < 128) : s.barRead 0 (0x2008 + 16 * g) = s.func g / 2 ^ 64 % 2 ^ 64 := by
  have h8 : ((0x2008 + 16 * g) % 16 == 8) = true := by rw [show (0x2008 + 16 * g) % 16 = 8 by omega]; rfl
  rw [barRead_phys s (by omega), physRead_func s (by omega), h8, halfOf_high, show (0x2008 + 16 * g - 0x2000) / 16 = g by omega]

/-- The host's read of an aligned register. -/
theorem step_hostRead {s : State} {f o : Nat} {q : List Agent} (hoff : s.boot.off = false) (hs : s.sched = .hostRead f o :: q)
    (hf : f < 128) : step s = .next (State.hostReads { s with sched := q, here := .hostRead f o } f o) := by
  rw [step, hoff, hs]
  exact congrArg Host.Outcome.next (if_pos hf)

theorem hostReads_answered {s : State} {f o : Nat} (h8 : o % 8 = 0) (h : s.boot.rel = true ∨ (f = 0 ∧ o = 0x5100)) :
    s.hostReads f o = s.answer (.value (BitVec.ofNat 64 (s.barRead f o))) := by
  rw [State.hostReads, show o / 8 * 8 = o by omega]
  exact if_pos (by simpa using h)

theorem hostReads_unsupported {s : State} {f o : Nat} (h8 : o % 8 = 0) (hr : s.boot.rel = false) (h : f ≠ 0 ∨ o ≠ 0x5100) :
    s.hostReads f o = s.answer .unsupported := by
  rw [State.hostReads, show o / 8 * 8 = o by omega]
  refine if_neg ?_
  rw [hr, Bool.false_or, Bool.and_eq_true, beq_iff_eq, beq_iff_eq]
  rintro ⟨hf, ho⟩
  exact h.elim (· hf) (· ho)

/-! ## Fields of the physical function's entries -/

theorem fld_lt (w hi lo : Nat) : fld w hi lo < 2 ^ (hi + 1 - lo) := Nat.mod_lt _ (Nat.two_pow_pos _)

theorem testBit_fld (w hi lo j : Nat) : (fld w hi lo).testBit j = (decide (j < hi + 1 - lo) && w.testBit (j + lo)) := by
  rw [fld, Nat.testBit_mod_two_pow, Nat.testBit_div_two_pow]

/-- A write of the low half of an entry shows in its fields below bit 64. -/
theorem fld_half_low (w v : Nat) {hi lo : Nat} (h : hi < 64) : fld (half w false v) hi lo = fld v hi lo := by
  refine Nat.eq_of_testBit_eq fun j => ?_
  rw [testBit_fld, testBit_fld]
  by_cases hj : j < hi + 1 - lo
  · rw [half, if_neg Bool.false_ne_true, testBit_setFld _ _ (Nat.zero_le _), if_pos (by omega), Nat.sub_zero]
  · simp [hj]

/-- A write of the low half of an entry leaves its fields from bit 64 up. -/
theorem fld_half_high (w v : Nat) {hi lo : Nat} (h : 64 ≤ lo) : fld (half w false v) hi lo = fld w hi lo := by
  refine Nat.eq_of_testBit_eq fun j => ?_
  rw [testBit_fld, testBit_fld, half, if_neg Bool.false_ne_true, testBit_setFld _ _ (Nat.zero_le _), if_neg (by omega)]

theorem fld_zero (w : Nat) : fld w 0 0 = w % 2 := by simp [fld]

/-- A field below bit k is one of the bits below k. -/
theorem fld_cat_low {a b k hi lo : Nat} (hb : b < 2 ^ k) (h : hi < k) : fld (a * 2 ^ k + b) hi lo = fld b hi lo := by
  refine Nat.eq_of_testBit_eq fun j => ?_
  rw [testBit_fld, testBit_fld, Nat.mul_comm, Nat.testBit_two_pow_mul_add _ hb]
  by_cases hj : j < hi + 1 - lo
  · rw [if_pos (by omega)]
  · simp [hj]

/-- A field kept in its place. -/
theorem fld_cat_kept {w b k hi lo top : Nat} (hb : b < 2 ^ k) (hk : k ≤ lo) (ht : hi ≤ top) :
    fld (fld w top k * 2 ^ k + b) hi lo = fld w hi lo := by
  refine Nat.eq_of_testBit_eq fun j => ?_
  rw [testBit_fld, testBit_fld, Nat.mul_comm, Nat.testBit_two_pow_mul_add _ hb, if_neg (by omega), testBit_fld,
    show j + lo - k + k = j + lo by omega]
  by_cases hj : j < hi + 1 - lo
  · simp [show j + lo - k < top + 1 - k by omega]
  · simp [hj]

/-- Fields kept in their places fit below the bit above them. -/
theorem cat_lt {a b k n : Nat} (ha : a < 2 ^ (n - k)) (hb : b < 2 ^ k) (hk : k ≤ n) : a * 2 ^ k + b < 2 ^ n := by
  calc a * 2 ^ k + b < (a + 1) * 2 ^ k := by rw [Nat.add_mul, Nat.one_mul]; omega
    _ ≤ 2 ^ (n - k) * 2 ^ k := Nat.mul_le_mul_right _ ha
    _ = 2 ^ n := by rw [← Nat.pow_add, Nat.sub_add_cancel hk]

/-- SCOPECAP as it is kept: codes 6 and 7 read back as 5. -/
def capEntry (w : Nat) : Nat := if 6 ≤ fld w 6 4 then 5 else fld w 6 4

/-- A function entry as it is kept (R372). -/
def funcEntry (w : Nat) : Nat := fld w 127 72 * 2 ^ 72 + fld w 15 7 * 2 ^ 7 + capEntry w * 2 ^ 4 + w % 2

theorem funcEntry_lt (w : Nat) : funcEntry w < 2 ^ 128 := by
  have h1 := fld_lt w 127 72
  have h2 := fld_lt w 15 7
  have h3 : capEntry w < 6 := by unfold capEntry; split <;> omega
  unfold funcEntry
  omega

theorem funcEntry_fields (w : Nat) : fld (funcEntry w) 0 0 = w % 2 ∧ fld (funcEntry w) 6 4 = capEntry w ∧
    (∀ hi lo, 7 ≤ lo → hi ≤ 15 → fld (funcEntry w) hi lo = fld w hi lo) ∧ fld (funcEntry w) 3 1 = 0 := by
  have hc : capEntry w < 2 ^ 3 := by unfold capEntry; split <;> omega
  have h4 : w % 2 < 2 ^ 4 := by omega
  have h7 : capEntry w * 2 ^ 4 + w % 2 < 2 ^ 7 := cat_lt hc h4 (by decide)
  have h72 : fld w 15 7 * 2 ^ 7 + (capEntry w * 2 ^ 4 + w % 2) < 2 ^ 72 :=
    Nat.lt_trans (cat_lt (n := 16) (fld_lt w 15 7) h7 (by decide)) (by decide)
  rw [funcEntry, Nat.add_assoc, Nat.add_assoc]
  refine ⟨?_, ?_, fun hi lo hlo hhi => ?_, ?_⟩
  · rw [fld_cat_low h72 (by decide), fld_cat_low h7 (by decide), fld_cat_low h4 (by decide), fld_zero, Nat.mod_mod]
  · rw [fld_cat_low h72 (by decide), fld_cat_low h7 (by decide), fld]
    omega
  · rw [fld_cat_low h72 (by omega), fld_cat_kept h7 hlo hhi]
  · rw [fld_cat_low h72 (by decide), fld_cat_low h7 (by decide), fld_cat_low h4 (by decide), fld]
    omega

/-- An ASID context as it is kept (R373). -/
def ctxEntry (w : Nat) : Nat := fld w 127 88 * 2 ^ 88 + fld w 79 57 * 2 ^ 57 + fld w 47 46 * 2 ^ 46 + w % 2 ^ 32

theorem ctxEntry_fields (w : Nat) : ctxEntry w < 2 ^ 128 ∧ (∀ hi lo, 57 ≤ lo → hi ≤ 79 → fld (ctxEntry w) hi lo = fld w hi lo) ∧
    (∀ hi lo, 46 ≤ lo → hi ≤ 47 → fld (ctxEntry w) hi lo = fld w hi lo) ∧ fld (ctxEntry w) 31 0 = fld w 31 0 := by
  have h46 : w % 2 ^ 32 < 2 ^ 46 := by omega
  have h57 : fld w 47 46 * 2 ^ 46 + w % 2 ^ 32 < 2 ^ 57 :=
    Nat.lt_trans (cat_lt (n := 48) (fld_lt w 47 46) h46 (by decide)) (by decide)
  have h88 : fld w 79 57 * 2 ^ 57 + (fld w 47 46 * 2 ^ 46 + w % 2 ^ 32) < 2 ^ 88 :=
    Nat.lt_trans (cat_lt (n := 80) (fld_lt w 79 57) h57 (by decide)) (by decide)
  rw [ctxEntry, Nat.add_assoc, Nat.add_assoc]
  refine ⟨cat_lt (fld_lt w 127 88) h88 (by decide), fun hi lo hlo hhi => ?_, fun hi lo hlo hhi => ?_, ?_⟩
  · rw [fld_cat_low h88 (by omega), fld_cat_kept h57 hlo hhi]
  · rw [fld_cat_low h88 (by omega), fld_cat_low h57 (by omega), fld_cat_kept h46 hlo hhi]
  · rw [fld_cat_low h88 (by decide), fld_cat_low h57 (by decide), fld_cat_low h46 (by decide)]
    simp [fld]

/-- A partition entry as it is kept (R377). -/
def partEntry (v : Nat) : Nat :=
  min 1000 (max 1 (fld v 63 48)) * 2 ^ 48 + max 9 (fld v 39 32) * 2 ^ 32 + fld v 31 16 * 2 ^ 16 + max 1 (fld v 15 8) * 256 + v % 2

theorem partEntry_fields (v : Nat) : partEntry v < 2 ^ 64 ∧ fld (partEntry v) 63 48 = min 1000 (max 1 (fld v 63 48)) ∧
    fld (partEntry v) 39 32 = max 9 (fld v 39 32) ∧ fld (partEntry v) 31 16 = fld v 31 16 ∧
    fld (partEntry v) 15 8 = max 1 (fld v 15 8) ∧ fld (partEntry v) 0 0 = v % 2 := by
  have h1 := fld_lt v 39 32
  have h2 := fld_lt v 31 16
  have h3 := fld_lt v 15 8
  unfold partEntry
  generalize fld v 63 48 = a, fld v 39 32 = b, fld v 31 16 = c, fld v 15 8 = d at *
  unfold fld
  omega

/-- An import entry as it is kept (R410). -/
def importEntry (w : Nat) : Nat := fld w 127 50 * 2 ^ 50 + fld w 3 2 * 2 ^ 2 + w % 2

theorem importEntry_fields (w : Nat) : importEntry w < 2 ^ 128 ∧
    (∀ hi lo, 50 ≤ lo → hi ≤ 127 → fld (importEntry w) hi lo = fld w hi lo) ∧ fld (importEntry w) 3 2 = fld w 3 2 ∧
    fld (importEntry w) 0 0 = w % 2 := by
  have h2 : w % 2 < 2 ^ 2 := by omega
  have h50 : fld w 3 2 * 2 ^ 2 + w % 2 < 2 ^ 50 :=
    Nat.lt_trans (cat_lt (n := 4) (fld_lt w 3 2) h2 (by decide)) (by decide)
  rw [importEntry, Nat.add_assoc]
  refine ⟨cat_lt (fld_lt w 127 50) h50 (by decide), fun hi lo hlo hhi => ?_, ?_, ?_⟩
  · rw [fld_cat_kept h50 hlo hhi]
  · rw [fld_cat_low h50 (by decide), fld_cat_kept h2 (by decide) (by decide)]
  · rw [fld_cat_low h50 (by decide), fld_cat_low h2 (by decide), fld_zero, Nat.mod_mod]

/-! ## Writes of the physical function's entries (R372, R373, R375, R377, R403, R409, R410) -/

/-- A write of the physical function that leaves memory and the fens, and ends in a state of which p holds. -/
def PhysGives (s : State) (ofs : BitVec 21) (val : BitVec 64) (p : State → Prop) : Prop :=
  ∃ t, exec (.registerWrite 0#7 ofs val) s = .next t ∧ t.mem = s.mem ∧ t.fens = s.fens ∧ p t

/-- A write of an aligned register of the physical function. -/
theorem exec_registerWrite_physAt {s : State} (hr : s.boot.rel = true) {ofs : BitVec 21} (val : BitVec 64) {o : Nat}
    (ho : ofs.toNat = o) (hge : 0x2000 ≤ o) (h8 : o % 8 = 0) :
    exec (.registerWrite 0#7 ofs val) s = .next (s.physWrite o val.toNat) := by
  rw [exec_registerWrite_phys hr val (by omega), show ofs.toNat / 8 * 8 = o by omega]

/-- A write that changes the device tables alone. -/
theorem physGives_updDev {s : State} (hr : s.boot.rel = true) {ofs : BitVec 21} {val : BitVec 64} {o : Nat} {g : Device → Device}
    {p : State → Prop} (ho : ofs.toNat = o) (hge : 0x2000 ≤ o) (h8 : o % 8 = 0) (hw : s.physWrite o val.toNat = s.updDev g)
    (hp : p (s.updDev g)) : PhysGives s ofs val p :=
  ⟨s.updDev g, by rw [exec_registerWrite_physAt hr val ho hge h8, hw], rfl, rfl, hp⟩

section
variable (s : State) (v : Nat)

theorem physWrite_func {g : Nat} (hg : g < 128) : s.physWrite (0x2000 + 16 * g) v = s.funcWrite g false v := by
  unfold State.physWrite
  rw [if_pos (by omega), show (0x2000 + 16 * g - 0x2000) / 16 = g by omega, show (0x2000 + 16 * g) % 16 = 0 by omega]
  rfl

theorem physWrite_ctx {k : Nat} (hk : k < 512) : s.physWrite (0x3000 + 16 * k) v = s.ctxWrite k false v := by
  unfold State.physWrite
  rw [if_neg (by omega), if_pos (by omega), show (0x3000 + 16 * k - 0x3000) / 16 = k by omega, show (0x3000 + 16 * k) % 16 = 0 by omega]
  rfl

theorem physWrite_part {p : Nat} (hp : p < 16) : s.physWrite (0x5000 + 8 * p) v = s.partWrite p v := by
  unfold State.physWrite
  rw [if_neg (by omega), if_neg (by omega), if_pos (by omega), show (0x5000 + 8 * p - 0x5000) / 8 = p by omega]

theorem physWrite_mgmt {o : Nat} (h : 0x5100 ≤ o ∧ o < 0x5200) : s.physWrite o v = s.mgmtWrite o v := by
  unfold State.physWrite
  rw [if_neg (by omega), if_neg (by omega), if_neg (by omega), if_pos h]

theorem physWrite_import {k : Nat} (hk : k < 64) : s.physWrite (0x6000 + 16 * k) v = s.importWrite k false v := by
  unfold State.physWrite
  rw [if_neg (by omega), if_neg (by omega), if_neg (by omega), if_neg (by omega), if_pos (by omega),
    show (0x6000 + 16 * k - 0x6000) / 16 = k by omega, show (0x6000 + 16 * k) % 16 = 0 by omega]
  rfl

theorem physWrite_owner {o : Nat} (h : 0x8000 ≤ o ∧ o < 0x28000) : s.physWrite o v =
    (upto 0 8).foldl (fun s k => s.ownerWrite (o - 0x8000 + k) (v / 256 ^ k)) s := by
  unfold State.physWrite
  rw [if_neg (by omega), if_neg (by omega), if_neg (by omega), if_neg (by omega), if_neg (by omega), if_pos h]

end

/-- The entry of a function after a write of its low half. -/
theorem funcWrite_idle {s : State} {g : Nat} (v : Nat) (h : s.fnBusy g = false) : s.funcWrite g false v =
    s.updDev (fun d => { d with funcs := tabSet d.funcs g (BitVec.ofNat 128 (funcEntry (half (s.func g) false v))) }) :=
  if_neg (by simp [h])

/-- PART, CTX and SAVE of a busy function do not change. -/
theorem funcWrite_busy {s : State} {g v : Nat} (h : s.fnBusy g = true) (hv : fld v 15 7 ≠ fld (s.func g) 15 7) :
    s.funcWrite g false v = s := by
  obtain ⟨-, -, hkept, -⟩ := funcEntry_fields (half (s.func g) false v)
  have hne : (fld (funcEntry (half (s.func g) false v)) 15 7 == fld (s.func g) 15 7) = false := by
    rw [hkept 15 7 (by decide) (by decide), fld_half_low _ _ (by decide)]
    exact beq_false_of_ne hv
  exact if_pos (by rw [h, Bool.true_and, Bool.not_eq_true', Bool.and_eq_false_iff]; exact Or.inr hne)

theorem func_updDev_funcs (s : State) (g n h : Nat) (hn : n < 2 ^ 128) :
    (s.updDev (fun d => { d with funcs := tabSet d.funcs g (BitVec.ofNat 128 n) })).func h = if h = g then n else s.func h := by
  rw [State.func, updDev_dev, tabGet_tabSet]
  split
  · exact Nat.mod_eq_of_lt hn
  · rfl

theorem physGives_func {s : State} (hr : s.boot.rel = true) {ofs : BitVec 21} (val : BitVec 64) {g : Nat} (hg : g < 128)
    (ho : ofs.toNat = 0x2000 + 16 * g) (hb : s.fnBusy g = false) : PhysGives s ofs val (fun t =>
      fld (t.func g) 0 0 = val.toNat % 2 ∧ fld (t.func g) 6 4 = (if 6 ≤ fld val.toNat 6 4 then 5 else fld val.toNat 6 4) ∧
      t.fnPart g = fld val.toNat 10 7 ∧ t.fnCtx g = fld val.toNat 15 11 ∧ fld (t.func g) 3 1 = 0 ∧ ∀ h, h ≠ g → t.func h = s.func h) := by
  refine physGives_updDev hr ho (by omega) (by omega) ((physWrite_func s _ hg).trans (funcWrite_idle _ hb)) ?_
  have hlow := @fld_half_low (s.func g) val.toNat
  obtain ⟨h0, h64, hkept, h31⟩ := funcEntry_fields (half (s.func g) false val.toNat)
  have hcap : capEntry (half (s.func g) false val.toNat) = if 6 ≤ fld val.toNat 6 4 then 5 else fld val.toNat 6 4 := by
    rw [capEntry, hlow (by decide)]
  simp only [State.fnPart, State.fnCtx, func_updDev_funcs _ _ _ _ (funcEntry_lt _), if_true]
  refine ⟨?_, h64.trans hcap, ?_, ?_, h31, fun h hne => if_neg hne⟩
  · rw [h0, ← fld_zero, hlow (by decide), fld_zero]
  · rw [hkept 10 7 (by decide) (by decide), hlow (by decide)]
  · rw [hkept 15 11 (by decide) (by decide), hlow (by decide)]

theorem part_updDev_parts (s : State) (p n r : Nat) (hn : n < 2 ^ 64) :
    (s.updDev (fun d => { d with parts := tabSet d.parts p (BitVec.ofNat 64 n) })).part r = if r = p then n else s.part r := by
  rw [State.part, updDev_dev, tabGet_tabSet]
  split
  · exact Nat.mod_eq_of_lt hn
  · rfl

theorem physGives_part {s : State} (hr : s.boot.rel = true) {ofs : BitVec 21} (val : BitVec 64) {p : Nat} (hp : p < 16)
    (ho : ofs.toNat = 0x5000 + 8 * p) : PhysGives s ofs val (fun t =>
      fld (t.part p) 63 48 = min 1000 (max 1 (fld val.toNat 63 48)) ∧
      fld (t.part p) 39 32 = max 9 (fld val.toNat 39 32) ∧ fld (t.part p) 31 16 = fld val.toNat 31 16 ∧
      fld (t.part p) 15 8 = max 1 (fld val.toNat 15 8) ∧ fld (t.part p) 0 0 = val.toNat % 2 ∧ ∀ r, r ≠ p → t.part r = s.part r) := by
  have hw : s.partWrite p val.toNat =
      s.updDev (fun d => { d with parts := tabSet d.parts p (BitVec.ofNat 64 (partEntry val.toNat)) }) := rfl
  obtain ⟨hlt, h1, h2, h3, h4, h5⟩ := partEntry_fields val.toNat
  refine physGives_updDev hr ho (by omega) (by omega) ((physWrite_part s _ hp).trans hw) ?_
  simp only [part_updDev_parts _ _ _ _ hlt, if_true]
  exact ⟨h1, h2, h3, h4, h5, fun r hne => if_neg hne⟩

/-- The fields of a context that a write of its low half leaves, or sets (R373). -/
theorem ctxEntry_half (w v : Nat) : fld (ctxEntry (half w false v)) 63 57 = fld v 63 57 ∧ fld (ctxEntry (half w false v)) 47 46 = fld v 47 46 ∧
    fld (ctxEntry (half w false v)) 31 0 = fld v 31 0 ∧ fld (ctxEntry (half w false v)) 79 64 = fld w 79 64 ∧
    fld (ctxEntry (half w false v)) 47 47 = fld v 47 47 := by
  obtain ⟨-, hhigh, hmid, hlow⟩ := ctxEntry_fields (half w false v)
  refine ⟨?_, ?_, ?_, ?_, ?_⟩
  · rw [hhigh 63 57 (by decide) (by decide), fld_half_low _ _ (by decide)]
  · rw [hmid 47 46 (by decide) (by decide), fld_half_low _ _ (by decide)]
  · rw [hlow, fld_half_low _ _ (by decide)]
  · rw [hhigh 79 64 (by decide) (by decide), fld_half_high _ _ (by decide)]
  · rw [hmid 47 47 (by decide) (by decide), fld_half_low _ _ (by decide)]

/-- The context of a slot after a write of its low half. -/
def State.ctxNew (s : State) (k v : Nat) : Nat := ctxEntry (half (tabGet s.dev.ctxs k 0#128).toNat false v)

/-- A write of a context's low half would make a second valid context of its ASID. -/
def State.ctxClash (s : State) (k v : Nat) : Prop :=
  fld v 47 47 = 1 ∧ ∃ c ∈ s.dev.ctxs, c.1 ≠ k ∧ fld c.2.toNat 47 47 = 1 ∧
    fld c.2.toNat 79 64 = fld (tabGet s.dev.ctxs k 0#128).toNat 79 64

theorem ctxWrite_eq (s : State) (k v : Nat) [Decidable (s.ctxClash k v)] : s.ctxWrite k false v =
    if s.ctxClash k v then s else s.updDev (fun d => { d with ctxs := tabSet d.ctxs k (BitVec.ofNat 128 (s.ctxNew k v)) }) := by
  have hiff : (bit (s.ctxNew k v) 47 && s.dev.ctxs.any (fun c => c.1 != k && bit c.2.toNat 47 &&
      fld c.2.toNat 79 64 == fld (s.ctxNew k v) 79 64)) = true ↔ s.ctxClash k v := by
    obtain ⟨-, -, -, hasid, hvalid⟩ := ctxEntry_half (tabGet s.dev.ctxs k 0#128).toNat v
    simp only [bit, State.ctxNew, hasid, hvalid, State.ctxClash, Bool.and_eq_true, beq_iff_eq, List.any_eq_true, bne_iff_ne, and_assoc]
  exact ite_of_iff hiff rfl rfl

theorem ctxWrite_clash {s : State} {k v : Nat} (h : s.ctxClash k v) : s.ctxWrite k false v = s := by
  classical rw [ctxWrite_eq, if_pos h]

theorem physGives_ctx {s : State} (hr : s.boot.rel = true) {ofs : BitVec 21} (val : BitVec 64) {k : Nat} (hk : k < 512)
    (ho : ofs.toNat = 0x3000 + 16 * k) (hc : ¬s.ctxClash k val.toNat) : PhysGives s ofs val (fun t =>
      let e := (tabGet t.dev.ctxs k 0#128).toNat
      fld e 63 57 = fld val.toNat 63 57 ∧ fld e 47 46 = fld val.toNat 47 46 ∧ fld e 31 0 = fld val.toNat 31 0 ∧
      fld e 79 64 = fld (tabGet s.dev.ctxs k 0#128).toNat 79 64 ∧
      ∀ j, j ≠ k → tabGet t.dev.ctxs j 0#128 = tabGet s.dev.ctxs j 0#128) := by
  have hw : s.ctxWrite k false val.toNat = s.updDev (fun d => { d with
      ctxs := tabSet d.ctxs k (BitVec.ofNat 128 (s.ctxNew k val.toNat)) }) := by
    classical rw [ctxWrite_eq, if_neg hc]
  obtain ⟨h1, h2, h3, h4, -⟩ := ctxEntry_half (tabGet s.dev.ctxs k 0#128).toNat val.toNat
  obtain ⟨hlt, -⟩ := ctxEntry_fields (half (tabGet s.dev.ctxs k 0#128).toNat false val.toNat)
  refine physGives_updDev hr ho (by omega) (by omega) ((physWrite_ctx s _ hk).trans hw) ?_
  simp only [updDev_dev, tabGet_tabSet, if_true, BitVec.toNat_ofNat, State.ctxNew, Nat.mod_eq_of_lt hlt]
  exact ⟨h1, h2, h3, h4, fun j hj => if_neg hj⟩

/-- The import entry after a write of its low half. -/
def State.importNew (s : State) (k v : Nat) : Nat := importEntry (half (tabGet s.dev.imports k 0#128).toNat false v)

theorem physGives_import {s : State} (hr : s.boot.rel = true) {ofs : BitVec 21} (val : BitVec 64) {k : Nat} (hk : k < 64)
    (ho : ofs.toNat = 0x6000 + 16 * k) : PhysGives s ofs val (fun t =>
      let e := (tabGet t.dev.imports k 0#128).toNat
      fld e 63 58 = fld val.toNat 63 58 ∧ fld e 57 54 = fld val.toNat 57 54 ∧ fld e 53 50 = fld val.toNat 53 50 ∧
      fld e 3 2 = fld val.toNat 3 2 ∧ fld e 0 0 = val.toNat % 2 ∧
      fld e 127 64 = fld (tabGet s.dev.imports k 0#128).toNat 127 64) := by
  have hw : s.importWrite k false val.toNat = s.updDev (fun d => { d with
      imports := tabSet d.imports k (BitVec.ofNat 128 (s.importNew k val.toNat)) }) := rfl
  have hlow := @fld_half_low (tabGet s.dev.imports k 0#128).toNat val.toNat
  obtain ⟨hlt, hkept, h32, h0⟩ := importEntry_fields (half (tabGet s.dev.imports k 0#128).toNat false val.toNat)
  refine physGives_updDev hr ho (by omega) (by omega) ((physWrite_import s _ hk).trans hw) ?_
  simp only [updDev_dev, tabGet_tabSet, if_true, BitVec.toNat_ofNat, State.importNew, Nat.mod_eq_of_lt hlt]
  refine ⟨?_, ?_, ?_, h32.trans (hlow (by decide)), ?_, ?_⟩
  · rw [hkept 63 58 (by decide) (by decide), hlow (by decide)]
  · rw [hkept 57 54 (by decide) (by decide), hlow (by decide)]
  · rw [hkept 53 50 (by decide) (by decide), hlow (by decide)]
  · rw [h0, ← fld_zero, hlow (by decide), fld_zero]
  · rw [hkept 127 64 (by decide) (by decide), fld_half_high _ _ (by decide)]

/-! ## Owner bytes (R375) -/

/-- An owner byte after a write of x: as before where it names nothing, or what it covers is in use. -/
def State.ownerAfter (s : State) (b x : Nat) : Nat :=
  match ownedAt b with
  | none => s.owner b
  | some (u, l) => if s.fens.any (fun y => y.live && y.uses u l) then s.owner b else x % 32

theorem ownerAfter_of_none {s : State} {b x : Nat} (h : ownedAt b = none) : s.ownerAfter b x = s.owner b := by
  rw [State.ownerAfter, h]

theorem ownerAfter_of_some {s : State} {b x : Nat} {p : Tile × Option Lane} (h : ownedAt b = some p) : s.ownerAfter b x =
    if s.fens.any (fun y => y.live && y.uses p.1 p.2) then s.owner b else x % 32 := by
  rw [State.ownerAfter, h]

theorem ownerWrite_frame (s : State) (o x : Nat) : (s.ownerWrite o x).mem = s.mem ∧ (s.ownerWrite o x).fens = s.fens := by
  unfold State.ownerWrite
  split
  · exact ⟨rfl, rfl⟩
  · split <;> exact ⟨rfl, rfl⟩

theorem owner_ownerWrite (s : State) (o x b : Nat) : (s.ownerWrite o x).owner b = if b = o then s.ownerAfter o x else s.owner b := by
  have hsame : s.owner b = if b = o then s.owner o else s.owner b := by split <;> simp_all
  cases h : ownedAt o with
  | none => simpa only [State.ownerWrite, State.ownerAfter, h] using hsame
  | some p =>
    simp only [State.ownerWrite, State.ownerAfter, h]
    split
    · exact hsame
    · exact tabGet_tabSet ..

/-- Owner bytes written one by one, from the a-th on. -/
theorem foldl_ownerWrite (base v n a : Nat) (s : State) :
    let t := (upto a n).foldl (fun s k => s.ownerWrite (base + k) (v / 256 ^ k)) s
    t.mem = s.mem ∧ t.fens = s.fens ∧
      ∀ b, t.owner b = if base + a ≤ b ∧ b < base + a + n then s.ownerAfter b (v / 256 ^ (b - base)) else s.owner b := by
  induction n generalizing a s with
  | zero => exact ⟨rfl, rfl, fun b => (if_neg (by omega)).symm⟩
  | succ n ih =>
    obtain ⟨hm, hf⟩ := ownerWrite_frame s (base + a) (v / 256 ^ a)
    obtain ⟨hm', hf', ho'⟩ := ih (a + 1) (s.ownerWrite (base + a) (v / 256 ^ a))
    refine ⟨hm'.trans hm, hf'.trans hf, fun b => (ho' b).trans ?_⟩
    by_cases hb : b = base + a
    · subst hb
      rw [if_neg (by omega), owner_ownerWrite, if_pos rfl, if_pos (by omega), Nat.add_sub_cancel_left]
    · have hown : (s.ownerWrite (base + a) (v / 256 ^ a)).owner b = s.owner b := by rw [owner_ownerWrite, if_neg hb]
      have hafter : ∀ x, (s.ownerWrite (base + a) (v / 256 ^ a)).ownerAfter b x = s.ownerAfter b x := fun x => by
        rw [State.ownerAfter, State.ownerAfter, hown, hf]
      rw [hown, hafter]
      exact ite_of_iff (by omega) rfl rfl

theorem physGives_owner {s : State} (hr : s.boot.rel = true) {ofs : BitVec 21} (val : BitVec 64)
    (h : 0x8000 ≤ ofs.toNat ∧ ofs.toNat < 0x28000) (h8 : ofs.toNat % 8 = 0) : PhysGives s ofs val (fun t => ∀ k, k < 8 →
      t.owner (ofs.toNat - 0x8000 + k) = s.ownerAfter (ofs.toNat - 0x8000 + k) (val.toNat / 256 ^ k)) := by
  obtain ⟨hm, hf, ho⟩ := foldl_ownerWrite (ofs.toNat - 0x8000) val.toNat 8 0 s
  refine ⟨_, exec_registerWrite_physAt hr val rfl (by omega) h8, ?_, ?_, fun k hk => ?_⟩
  · rw [physWrite_owner s _ h, hm]
  · rw [physWrite_owner s _ h, hf]
  · rw [physWrite_owner s _ h, ho, if_pos (by omega), Nat.add_sub_cancel_left]

/-! ## Management registers (R409) -/

section
variable (s : State) (v : Nat)

theorem physWrite_pwrcap : s.physWrite 0x5108 v = s.updDev (fun d => { d with pwrcap := min 1800 (max 1200 (v % 65536)) }) :=
  (physWrite_mgmt s v (by decide)).trans (if_pos rfl)

theorem physWrite_hdmcfg : s.physWrite 0x5118 v = if s.dev.hdmLock then s.barErr 0
    else s.updDev (fun d => { d with hdmSize := min 256 (fld v 24 16), hdmBase := v % 1024 }) :=
  (physWrite_mgmt s v (by decide)).trans ((if_neg (by decide)).trans (if_pos rfl))

theorem physWrite_group : s.physWrite 0x5120 v = if s.anyBusy then s
    else s.updDev (fun d => { d with gm1 := fld v 13 8, midx := v % 64 }) :=
  (physWrite_mgmt s v (by decide)).trans ((if_neg (by decide)).trans ((if_neg (by decide)).trans (if_pos rfl)))

end

theorem physGives_pwrcap {s : State} (hr : s.boot.rel = true) {ofs : BitVec 21} (val : BitVec 64) (ho : ofs.toNat = 0x5108) :
    PhysGives s ofs val (fun t => t.dev = { s.dev with pwrcap := min 1800 (max 1200 (val.toNat % 65536)) }) :=
  physGives_updDev hr ho (by decide) (by decide) (physWrite_pwrcap ..) rfl

/-- HDMCFG is refused while the host's decoder is committed (R408). -/
theorem physGives_hdmcfg_locked {s : State} (hr : s.boot.rel = true) {ofs : BitVec 21} (val : BitVec 64) (ho : ofs.toNat = 0x5118)
    (hl : s.dev.hdmLock = true) : PhysGives s ofs val (fun t => t.page 0 = { s.page 0 with err := true } ∧
      t.dev.hdmSize = s.dev.hdmSize ∧ t.dev.hdmBase = s.dev.hdmBase) := by
  have he := exec_registerWrite_physAt hr val ho (by decide) (by decide)
  rw [physWrite_hdmcfg, if_pos hl] at he
  exact ⟨_, he, rfl, rfl, (pageOnly_barErr s 0).1, rfl, rfl⟩

theorem physGives_hdmcfg {s : State} (hr : s.boot.rel = true) {ofs : BitVec 21} (val : BitVec 64) (ho : ofs.toNat = 0x5118)
    (hl : s.dev.hdmLock = false) : PhysGives s ofs val (fun t =>
      t.dev = { s.dev with hdmSize := min 256 (fld val.toNat 24 16), hdmBase := val.toNat % 1024 }) :=
  physGives_updDev hr ho (by decide) (by decide) ((physWrite_hdmcfg ..).trans (if_neg (by rw [hl]; exact Bool.false_ne_true))) rfl

theorem physGives_group {s : State} (hr : s.boot.rel = true) {ofs : BitVec 21} (val : BitVec 64) (ho : ofs.toNat = 0x5120)
    (hb : s.anyBusy = false) : PhysGives s ofs val (fun t =>
      t.dev = { s.dev with gm1 := fld val.toNat 13 8, midx := val.toNat % 64 }) :=
  physGives_updDev hr ho (by decide) (by decide) ((physWrite_group ..).trans (if_neg (by rw [hb]; exact Bool.false_ne_true))) rfl

/-! ## The statement's clauses: before release -/

theorem exec_unreleased {s : State} (hr : s.boot.rel = false) (fn : BitVec 7) (seq val : BitVec 64) (a : BitVec 16) (k : BitVec 12)
    (ofs : BitVec 21) :
    ∀ i ∈ [Instr.faultVerdict fn seq, .twWrite fn a k, .twRead fn a k, .twRemove fn a k, .invVa fn a, .invAsid fn a, .invIpa fn a,
      .invPart fn a, .invAll fn, .registerWrite fn ofs val, .migPreCopy fn, .migStop fn, .migRun fn, .migResume fn, .sleeveGo fn],
      exec i s = .next s := by
  have hbar := onBar_unreleased hr
  have hmig := onMigPage_unreleased hr fn
  simp only [List.forall_mem_cons, exec_faultVerdict, exec_twWrite, exec_twRead, exec_twRemove, exec_invVa, exec_invAsid, exec_invIpa,
    exec_invPart, exec_invAll, exec_registerWrite, exec_migPreCopy, exec_migStop, exec_migRun, exec_migResume, exec_sleeveGo]
  exact ⟨hbar _, hbar _, hbar _, hbar _, hbar _, hbar _, hbar _, hbar _, hbar _, hbar _,
    hmig _, hmig _, hmig _, hmig _, hmig _, List.forall_mem_nil _⟩

/-! ## The statement's clauses: verdicts -/

section
variable {s : State} (hr : s.boot.rel = true) (fn : BitVec 7) (seq : BitVec 64)
include hr

theorem exec_faultVerdict_released : exec (.faultVerdict fn seq) s = .next (s.frseq fn.toNat seq.toNat) := onBar_released hr _

theorem setsPage_verdict_unnamed (h : s.namedFault fn.toNat seq.toNat = none) :
    SetsPage s fn.toNat (.faultVerdict fn seq) { s.page fn.toNat with err := true } :=
  ⟨_, exec_faultVerdict_released hr fn seq, by rw [frseq_unnamed h]; exact pageOnly_barErr s _⟩

theorem exec_verdict_frozen {p : Pending} (h : s.namedFault fn.toNat seq.toNat = some p)
    (hz : s.frozen (s.fnPart fn.toNat) (s.fnCtx fn.toNat) = true) :
    exec (.faultVerdict fn seq) s = .next { s with xl := { s.xl with pending := s.xl.pending.map (fun r =>
      if r.under seq.toNat then { r with verdict := some (s.page fn.toNat).term } else r) } } := by
  rw [exec_faultVerdict_released hr, frseq_frozen h hz]

theorem exec_verdict_resume {p : Pending} (h : s.namedFault fn.toNat seq.toNat = some p)
    (hz : ¬s.frozen (s.fnPart fn.toNat) (s.fnCtx fn.toNat) = true) (ht : (s.page fn.toNat).term = false) :
    ∃ t, exec (.faultVerdict fn seq) s = .next t ∧
      t.xl = { s.xl with
        pending := s.xl.pending.filter (fun r => !r.under seq.toNat)
        retried := s.xl.retried ++ (s.servedBy seq.toNat).map (fun r => r.req) } ∧
      t.fens = s.fens ∧ t.mem = s.mem := by
  obtain ⟨hts, hg⟩ := giveVerdict_resume s seq.toNat
  refine ⟨s.giveVerdict seq.toNat false, by rw [exec_faultVerdict_released hr, frseq_given h hz, ht], ?_⟩
  rw [hg]
  exact ⟨rfl, rfl, rfl⟩

theorem exec_verdict_terminate {p r : Pending} {g : Nat} {x : Fen} (h : s.namedFault fn.toNat seq.toNat = some p)
    (hz : ¬s.frozen (s.fnPart fn.toNat) (s.fnCtx fn.toNat) = true) (ht : (s.page fn.toNat).term = true)
    (hr' : r ∈ s.xl.pending) (hn : r.under seq.toNat = true) (hg : r.ends g) (hx : s.fens[g]? = some x) (hl : x.live = true)
    (hterm : x.term = none) : ∃ t, exec (.faultVerdict fn seq) s = .next t ∧ t.fens[g]? = some x.ended := by
  obtain ⟨t, hf, hv⟩ := giveVerdict_terminate s seq.toNat
  refine ⟨_, by rw [exec_faultVerdict_released hr, frseq_given h hz, ht, hv], ?_⟩
  exact getElem?_foldl_endTask_of_running hl hterm ⟨r, List.mem_filter.2 ⟨hr', hn⟩, hg⟩ (hf ▸ hx)

end

/-! ## The statement's clauses: the tensor window -/

section
variable {s : State} (hr : s.boot.rel = true) (fn : BitVec 7) (a : BitVec 16) (k : BitVec 12)
include hr

theorem exec_twWrite_released : exec (.twWrite fn a k) s = .next (s.tensorDo fn.toNat 1 a.toNat k.toNat) := onBar_released hr _
theorem exec_twRead_released : exec (.twRead fn a k) s = .next (s.tensorDo fn.toNat 2 a.toNat k.toNat) := onBar_released hr _
theorem exec_twRemove_released : exec (.twRemove fn a k) s = .next (s.tensorDo fn.toNat 3 a.toNat k.toNat) := onBar_released hr _

/-- The three operations of the window, with their codes. -/
theorem exec_window_released : ∀ e ∈ [(Instr.twWrite fn a k, 1), (.twRead fn a k, 2), (.twRemove fn a k, 3)],
    e.2 ≠ 0 ∧ exec e.1 s = .next (s.tensorDo fn.toNat e.2 a.toNat k.toNat) := by
  simp only [List.forall_mem_cons]
  exact ⟨⟨by decide, exec_twWrite_released hr fn a k⟩, ⟨by decide, exec_twRead_released hr fn a k⟩,
    ⟨by decide, exec_twRemove_released hr fn a k⟩, List.forall_mem_nil _⟩

end

section
variable {s : State} {fn : BitVec 7} {a : BitVec 16} {k : BitVec 12}

theorem setsPage_window_busy {i : Instr} {op : Nat} (he : exec i s = .next (s.tensorDo fn.toNat op a.toNat k.toNat))
    (h : ¬(s.page fn.toNat).twFree op a.toNat k.toNat) :
    SetsPage s fn.toNat i { s.page fn.toNat with err := true, twFail := true } :=
  ⟨_, he, by rw [tensorDo_busy h]; exact pageOnly_tensorBusy s _⟩

theorem setsPage_window_denied {i : Instr} {op : Nat} (he : exec i s = .next (s.tensorDo fn.toNat op a.toNat k.toNat)) (hop : op ≠ 0)
    (hf : (s.page fn.toNat).twFree op a.toNat k.toNat) (h : s.tensorDenied fn.toNat op a.toNat k.toNat = true) :
    SetsPage s fn.toNat i { (s.page fn.toNat).twAfter op a.toNat k.toNat true with err := true } :=
  ⟨_, he, by rw [tensorDo_free hf]; exact pageOnly_tensorOp_denied hop h⟩

theorem exec_window_write (hr : s.boot.rel = true) (hf : (s.page fn.toNat).twFree 1 a.toNat k.toNat)
    (h : ¬s.tensorDenied fn.toNat 1 a.toNat k.toNat = true) :
    ∃ t, exec (.twWrite fn a k) s = .next t ∧ t.page fn.toNat = (s.page fn.toNat).twAfter 1 a.toNat k.toNat false ∧ t.mem = s.mem ∧
      ∀ n, tensorOf t.dev.tensors n = if n = a.toNat * 4096 + k.toNat
        then some ((s.page fn.toNat).twEntry (a.toNat * 4096 + k.toNat)) else tensorOf s.dev.tensors n := by
  have he := exec_twWrite_released hr fn a k
  rw [tensorDo_allowed (by decide) hf h, tensorAct_write] at he
  obtain ⟨hp, -, -⟩ := pageOnly_tensorBegun s fn.toNat 1 a.toNat k.toNat
  refine ⟨_, he, hp, rfl, fun n => ?_⟩
  rw [hp]
  exact (tensorOf_putTensor ..).trans (ite_of_iff (by rw [tensorPair_twEntry _ a.isLt k.isLt]) rfl rfl)

theorem setsPage_window_read (hr : s.boot.rel = true) (hf : (s.page fn.toNat).twFree 2 a.toNat k.toNat)
    (h : ¬s.tensorDenied fn.toNat 2 a.toNat k.toNat = true) : SetsPage s fn.toNat (.twRead fn a k)
      { (s.page fn.toNat).twAfter 2 a.toNat k.toNat false with
        twData := (tensorOf s.dev.tensors (a.toNat * 4096 + k.toNat)).getD 0 } := by
  have he := exec_twRead_released hr fn a k
  rw [tensorDo_allowed (by decide) hf h, tensorAct_read] at he
  exact ⟨_, he, (pageOnly_tensorBegun ..).updPage _⟩

/-- What a read of an absent entry answers. -/
theorem getD_eq_match (o : Option (BitVec 512)) : o.getD 0 = match o with | some e => e | none => 0 := by cases o <;> rfl

theorem exec_window_remove (hr : s.boot.rel = true) (hf : (s.page fn.toNat).twFree 3 a.toNat k.toNat)
    (h : ¬s.tensorDenied fn.toNat 3 a.toNat k.toNat = true) :
    ∃ t, exec (.twRemove fn a k) s = .next t ∧ t.page fn.toNat = (s.page fn.toNat).twAfter 3 a.toNat k.toNat false ∧ t.mem = s.mem ∧
      ∀ n, tensorOf t.dev.tensors n = if n = a.toNat * 4096 + k.toNat then none else tensorOf s.dev.tensors n := by
  have he := exec_twRemove_released hr fn a k
  rw [tensorDo_allowed (by decide) hf h, tensorAct_remove] at he
  obtain ⟨hp, -, -⟩ := pageOnly_tensorBegun s fn.toNat 3 a.toNat k.toNat
  exact ⟨_, he, hp, rfl, fun n => tensorOf_filter ..⟩

end

/-! ## The statement's clauses: invalidations -/

section
variable {s : State} (hr : s.boot.rel = true) (fn : BitVec 7) (a : BitVec 16)
include hr

/-- The five invalidations, with kind and ID. -/
theorem exec_invalidation_released : ∀ e ∈ [(Instr.invVa fn a, 1, a.toNat), (.invAsid fn a, 2, a.toNat), (.invIpa fn a, 3, a.toNat),
    (.invPart fn a, 4, a.toNat), (.invAll fn, 5, 0)],
    1 ≤ e.2.1 ∧ e.2.1 ≤ 5 ∧ exec e.1 s = .next (s.invStart fn.toNat e.2.1 e.2.2) := by
  have hbar := onBar_released hr
  simp only [List.forall_mem_cons, exec_invVa, exec_invAsid, exec_invIpa, exec_invPart, exec_invAll]
  exact ⟨⟨by decide, by decide, hbar _⟩, ⟨by decide, by decide, hbar _⟩, ⟨by decide, by decide, hbar _⟩,
    ⟨by decide, by decide, hbar _⟩, ⟨by decide, by decide, hbar _⟩, List.forall_mem_nil _⟩

end

theorem setsPage_invalidation_refused {s : State} {f kind id : Nat} {i : Instr} (h1 : 1 ≤ kind) (h5 : kind ≤ 5)
    (he : exec i s = .next (s.invStart f kind id)) (h : (s.page f).invBusy = true ∨ ¬s.invMay f kind id) :
    SetsPage s f i { s.page f with err := true } :=
  ⟨_, he, by rw [invStart_refused h1 h5 h]; exact pageOnly_barErr s f⟩

/-- What the start of an invalidation does to walks and blocks. -/
theorem exec_invalidation_started {s : State} {f kind id : Nat} {i : Instr} (h1 : 1 ≤ kind) (h5 : kind ≤ 5)
    (he : exec i s = .next (s.invStart f kind id)) (hb : (s.page f).invBusy = false) (hm : s.invMay f kind id) :
    ∃ t, exec i s = .next t ∧ t.page f = (s.page f).invBegun kind id ∧ t.xl.tlbs = s.xl.tlbs ∧ t.mem = s.mem ∧
      (∀ (j : Nat) (w : Walk), s.xl.walks[j]? = some w → ∃ u, t.xl.walks[j]? = some u ∧ { u with stale := w.stale } = w ∧
        (u.stale = true ↔ w.stale = true ∨ (w.running = true ∧ ((s.page f).inval kind id).Names w.asid w.part))) ∧
      ∀ (j : Nat) (x : Fen), s.fens[j]? = some x → t.fens[j]? = some (x.invDrop ((s.page f).inval kind id)) := by
  rw [invStart_started h1 h5 hb hm] at he
  have hpage : (s.updPage f (fun p => p.invBegun kind id)).page f = (s.page f).invBegun kind id := page_updPage_self ..
  refine ⟨_, he, hpage, rfl, rfl, fun j w hw => ?_, fun j x hx => ?_⟩
  · exact getElem?_staleWalks (s := s.updPage f (fun p => p.invBegun kind id)) hw
  · rw [getElem?_invDrop]
    exact congrArg (Option.map _) hx

/-! ## The statement's clauses: registers of the function page -/

theorem page_message (s : State) (fn v h : Nat) : (s.message fn v).page h = s.page h := rfl

theorem page_ringWrite (s : State) (r : RingRegs) (w : BitVec 256) (h : Nat) : (s.ringWrite r w).page h = s.page h := by
  rw [State.ringWrite, State.page, updMem_dev, State.page]

theorem putFault_stored {s u : State} {f : Nat} (w : BitVec 256) (hmem : s.memOk) (hu : u.mem = s.mem) (h : ¬(u.page f).fr.NoRoom) :
    (u.putFault f w).page f = { u.page f with fr := (u.page f).fr.push } ∧
    (u.putFault f w).dev.msix = u.dev.msix ++ [⟨f, 0⟩] ∧
    Stored s (u.putFault f w) (keyHost ((u.page f).fr.addr + 32 * ((u.page f).fr.tail % 2 ^ (u.page f).fr.log2n))) (toLE 32 w.toNat) := by
  rw [putFault_room w h]
  refine ⟨by rw [page_message, page_updPage_self, page_ringWrite], rfl, fun k => ?_⟩
  rw [← hu]
  exact Memory.get_putN (hu ▸ hmem) ..

theorem pageOnly_frBase {s : State} {f : Nat} (v : Nat) (h : (s.page f).heldRec = []) : PageOnly s (s.pageWrite f 0x80 v) f
    { s.page f with fr := (s.page f).fr.write 0 v } := by
  rw [pageWrite_frBase]
  dsimp only
  rw [drainHeld_length_of_empty (by rw [page_updPage_self, h])]
  exact pageOnly_updPage ..

theorem pageOnly_frHead {s : State} {f : Nat} (v : Nat) (h : (s.page f).heldRec = []) : PageOnly s (s.pageWrite f 0x90 v) f
    { s.page f with fr := (s.page f).fr.write 2 v } := by
  rw [pageWrite_frHead]
  dsimp only
  rw [drainHeld_length_of_empty (by rw [page_updPage_self, h])]
  exact pageOnly_updPage ..

/-- HEAD is written, and the record held leaves its place. -/
def State.frTaken (s : State) (f v : Nat) : State :=
  (s.updPage f (fun p => { p with fr := p.fr.write 2 v })).updPage f (fun p => { p with heldRec := [] })

theorem page_frTaken (s : State) (f v : Nat) : (s.frTaken f v).page f =
    { s.page f with fr := { (s.page f).fr with head := v % 2 ^ 32 }, heldRec := [] } := by
  rw [State.frTaken, page_updPage_self, page_updPage_self]
  rfl

/-- HEAD makes room for the one record held. -/
theorem pageWrite_frHead_makesRoom {s : State} {f v : Nat} {x : BitVec 256} (hx : (s.page f).heldRec = [x])
    (hroom : ¬({ (s.page f).fr with head := v % 2 ^ 32 } : RingRegs).NoRoom) :
    s.pageWrite f 0x90 v = (s.frTaken f v).putFault f x := by
  rw [pageWrite_frHead]
  exact drainHeld_one (by rw [page_updPage_self, hx]) (by rw [page_updPage_self]; exact hroom)

theorem exec_frHead_makesRoom {s : State} (hr : s.boot.rel = true) (hmem : s.memOk) (fn : BitVec 7) {ofs : BitVec 21} (val : BitVec 64)
    {x : BitVec 256} (ho : ofs.toNat = 0x90) (hx : (s.page fn.toNat).heldRec = [x])
    (hroom : ¬({ (s.page fn.toNat).fr with head := val.toNat % 2 ^ 32 } : RingRegs).NoRoom) :
    let q := s.page fn.toNat
    ∃ t, exec (.registerWrite fn ofs val) s = .next t ∧ (t.page fn.toNat).heldRec = [] ∧
      (t.page fn.toNat).fr.tail = (q.fr.tail + 1) % 2 ^ 32 ∧ t.dev.msix = s.dev.msix ++ [⟨fn.toNat, 0⟩] ∧
      Stored s t (keyHost (q.fr.addr + 32 * (q.fr.tail % 2 ^ q.fr.log2n))) (toLE 32 x.toNat) := by
  have hpg := page_frTaken s fn.toNat val.toNat
  obtain ⟨hpage, hmsix, hstored⟩ := putFault_stored (u := s.frTaken fn.toNat val.toNat) x hmem rfl (by rw [hpg]; exact hroom)
  rw [hpg] at hpage hstored
  refine ⟨_, by rw [exec_registerWrite_at hr fn val ho (by decide) (by decide), pageWrite_frHead_makesRoom hx hroom], ?_, ?_, hmsix, hstored⟩
  · rw [hpage]
  · rw [hpage]
    rfl

theorem pageOnly_tensorStart {s : State} {f : Nat} (op a k : Nat) (h : (s.page f).twBusy = false) : PageOnly s (s.tensorStart f op a k) f
    { s.page f with twOp := op, twAsid := a, twTnum := k, twBusy := op != 0 } := by
  rw [State.tensorStart, if_neg (by rw [h]; exact Bool.false_ne_true)]
  exact pageOnly_updPage ..

theorem pageOnly_tensorStart_busy {s : State} {f : Nat} (op a k : Nat) (h : (s.page f).twBusy = true) :
    PageOnly s (s.tensorStart f op a k) f { s.page f with err := true, twFail := true } := by
  rw [State.tensorStart, if_pos h]
  exact pageOnly_tensorBusy s f

theorem exec_twData {s : State} (hr : s.boot.rel = true) (fn : BitVec 7) {ofs : BitVec 21} (val : BitVec 64) {k : Nat} (hk : k < 8)
    (ho : ofs.toNat = 0x140 + 8 * k) : ∃ t, exec (.registerWrite fn ofs val) s = .next t ∧ ∀ j, j < 512 →
      (t.page fn.toNat).twData.getLsbD j = if 64 * k ≤ j ∧ j < 64 * k + 64 then val.getLsbD (j - 64 * k)
        else (s.page fn.toNat).twData.getLsbD j := by
  refine ⟨_, by rw [exec_registerWrite_at hr fn val ho (by omega) (by omega), pageWrite_twData s _ _ hk], fun j hj => ?_⟩
  rw [page_updPage_self, BitVec.getLsbD_ofNat, testBit_setFld _ _ (by omega), show 8 * (8 * k) = 64 * k by omega, BitVec.testBit_toNat,
    BitVec.testBit_toNat, decide_eq_true hj, Bool.true_and]
  exact ite_of_iff (by omega) rfl rfl

theorem exec_registerWrite_nothing {s : State} (hr : s.boot.rel = true) (fn : BitVec 7) {ofs : BitVec 21} (val : BitVec 64)
    (h : ofs.toNat < 0x80 ∨ (0x1C8 ≤ ofs.toNat ∧ ofs.toNat < 0x2000) ∨ (0x2000 ≤ ofs.toNat ∧ fn ≠ 0#7)) :
    exec (.registerWrite fn ofs val) s = .next s := by
  rcases h with h | ⟨h, h'⟩ | ⟨h, hf⟩
  · rw [exec_registerWrite_page hr fn val (by omega), pageWrite_nothing _ _ _ (by omega)]
  · rw [exec_registerWrite_page hr fn val h', pageWrite_nothing _ _ _ (by omega)]
  · exact exec_registerWrite_beyond hr val h hf

/-! ## The statement -/

/-- Which blocks a starting invalidation discards, in terms of the registers it starts from. -/
theorem drops_inval (q : FnPage) (kind id : Nat) (x : Fen) :
    (x.live = true ∧ x.holdsHit (q.inval kind id) = true ∧ x.core.bound = false) ↔
    x.live = true ∧ (if kind ≤ 2 then x.asid = id else if kind ≤ 4 then x.part = id % 16 else True) ∧
      (∃ h ∈ x.core.held, h.1.typ ≠ .scratch ∧
        (kind = 1 → h.2.1 < q.invAddr + 4096 * q.invLen ∧ q.invAddr < h.2.1 + h.2.2) ∧
        (kind = 3 → h.1.ipa < q.invAddr + 4096 * q.invLen ∧ q.invAddr < h.1.ipa + h.2.2)) ∧
      x.core.phase ≠ .granted ∧ x.core.phase ≠ .commit := by
  rw [drops_iff, names_inval]
  simp only [Inval.overlaps, decide_eq_true_eq]
  rfl

/-- Settles O53: each operation at the host registers, outcome by outcome, from the lemma on that outcome. -/
theorem hostRegisterEvents : Obligations.HostRegisterEvents := by
  unfold Obligations.HostRegisterEvents
  refine ⟨?_, ?_, ?_, ?_, ?_⟩
  · exact fun s fn seq val a k ofs hr => exec_unreleased hr fn seq val a k ofs
  · intro s fn hr hmem f q pageOnly sets
    refine ⟨?_, ?_, ?_, ?_, ?_⟩
    · intro seq named first held
      refine ⟨setsPage_verdict_unnamed hr fn seq, fun p => exec_verdict_frozen hr fn seq, fun p => exec_verdict_resume hr fn seq, ?_⟩
      intro p r g x hp hz ht hr' hn hg hk hx hl hterm
      obtain ⟨t, he, hy⟩ := exec_verdict_terminate hr fn seq hp hz ht hr' hn ⟨hg, hk⟩ hx hl hterm
      exact ⟨t, x.ended, he, hy, rfl, rfl, rfl, stop_phase⟩
    · intro a k pair look mine after free entry noRoom
      refine ⟨fun e he => ?_, fun hf hm hn => ?_, fun hf hm hn => ?_, fun hf hm => ?_, fun hf hm => ?_⟩
      · obtain ⟨hop, hx⟩ := exec_window_released hr fn a k e he
        exact ⟨setsPage_window_busy hx, fun hf hm => setsPage_window_denied hx hop hf ((tensorDenied_iff ..).2 (.inl hm))⟩
      · exact setsPage_window_denied (exec_twWrite_released hr fn a k) (by decide) hf ((tensorDenied_iff ..).2 (.inr ⟨rfl, hn⟩))
      · exact exec_window_write hr hf (not_tensorDenied hm fun _ => hn)
      · have hread := setsPage_window_read hr hf (not_tensorDenied hm fun h => absurd h (by decide))
        rw [getD_eq_match] at hread
        exact hread
      · exact exec_window_remove hr hf (not_tensorDenied hm fun h => absurd h (by decide))
    · intro a e he kind id may concerns
      obtain ⟨h1, h5, hx⟩ := exec_invalidation_released hr fn a e he
      refine ⟨setsPage_invalidation_refused h1 h5 hx, fun hb hm => ?_⟩
      obtain ⟨t, ht, hpage, htlbs, hmem', hwalks, hfens⟩ := exec_invalidation_started h1 h5 hx hb hm
      refine ⟨t, ht, hpage, htlbs, hmem', fun j w hw => ?_, fun j x hj => ⟨_, hfens j x hj, ?_⟩⟩
      · obtain ⟨u, hu, hsame, hstale⟩ := hwalks j w hw
        exact ⟨u, hu, hsame, by rw [hstale, names_inval]⟩
      · intro meets drops
        have hd := drops_inval q kind id x
        refine ⟨fun h => ?_, fun h => fenInvDrop_of_keeps (mt hd.1 h)⟩
        obtain ⟨hl, hh, hb⟩ := hd.2 h
        exact fenInvDrop_of_drops hl hh hb
    · intro kind id meets takes loses concerns goes uses sent done
      refine ⟨exec_invComplete_waits, fun hb hd => ⟨_, exec_invComplete_ends hb hd, ?_, ?_, ?_, rfl, rfl, rfl⟩⟩
      · rw [State.invEnd, page_message, page_updPage_self]
        rfl
      · exact congrArg (List.filter · s.xl.tlbs) (funext fun t => congrArg _ (takes_eq q.invNow t))
      · exact congrArg (List.filter · s.xl.wcache) (funext fun c => congrArg _ (takesWalk_eq q.invNow c))
    · intro ofs val v o w
      have hset := @setsPage_registerWrite s hr fn ofs val
      refine ⟨fun ho h => ?_, fun ho h => ?_, fun x ho hx hroom => exec_frHead_makesRoom hr hmem fn val ho hx hroom, fun ho => ?_,
        fun ho => ?_, fun ho => ?_, fun ho h => ?_, fun ho h => ?_, fun ho => ?_, fun ho => ?_, fun ho => ?_,
        fun k hk ho => exec_twData hr fn val hk ho, exec_registerWrite_nothing hr fn val⟩
      · exact hset ho (by decide) (by decide) (pageOnly_frBase _ h)
      · exact hset ho (by decide) (by decide) (pageOnly_frHead _ h)
      · exact hset ho (by decide) (by decide) (pageWrite_term s f v ▸ pageOnly_updPage ..)
      · exact hset ho (by decide) (by decide) (pageWrite_erBase s f v ▸ pageOnly_updPage ..)
      · exact hset ho (by decide) (by decide) (pageWrite_erHead s f v ▸ pageOnly_updPage ..)
      · exact hset ho (by decide) (by decide) (pageWrite_twctl s f v ▸ pageOnly_tensorStart _ _ _ h)
      · exact hset ho (by decide) (by decide) (pageWrite_twctl s f v ▸ pageOnly_tensorStart_busy _ _ _ h)
      · exact hset ho (by decide) (by decide) (pageWrite_invAddr s f v ▸ pageOnly_updPage ..)
      · exact hset ho (by decide) (by decide) (pageWrite_invLen s f v ▸ pageOnly_updPage ..)
      · exact hset ho (by decide) (by decide) (pageWrite_err s f v ▸ pageOnly_updPage ..)
  · intro s f o q hoff hs hf h8 told
    rw [step_hostRead hoff hs hf]
    exact ⟨fun h => congrArg _ (hostReads_answered h8 h), fun hr h => congrArg _ (hostReads_unsupported h8 hr h)⟩
  · intro s f o
    refine ⟨barRead_nothing s, fun h1 h => ?_, barRead_page s (by decide), barRead_page s (by decide), fun p hp => ?_,
      fun g hg => ⟨barRead_func_low s hg, barRead_func_high s hg⟩⟩
    · rw [barRead_phys s (by omega), physRead_migctl s h1 h]
    · rw [barRead_phys s (by omega), physRead_part s hp]
  · intro s ofs val hr v o w gives
    refine ⟨fun g hg ho => ⟨physGives_func hr val hg ho, fun hb hne => ?_⟩, fun p hp ho => physGives_part hr val hp ho,
      fun k hk ho => ⟨fun hc => ?_, physGives_ctx hr val hk ho⟩, physGives_pwrcap hr val, physGives_hdmcfg_locked hr val,
      physGives_hdmcfg hr val, physGives_group hr val, fun ho hb => ?_, fun k hk ho => physGives_import hr val hk ho, fun hlo hhi h8 => ?_⟩
    · rw [exec_registerWrite_physAt hr val ho (by omega) (by omega), physWrite_func s _ hg, funcWrite_busy hb hne]
    · rw [exec_registerWrite_physAt hr val ho (by omega) (by omega), physWrite_ctx s _ hk, ctxWrite_clash hc]
    · rw [exec_registerWrite_physAt hr val ho (by decide) (by decide), physWrite_group, if_pos hb]
    · obtain ⟨t, he, hm, hf, hown⟩ := physGives_owner hr val ⟨hlo, hhi⟩ h8
      refine ⟨t, he, hm, hf, ?_⟩
      intro k hk b
      rw [show t.owner b = s.ownerAfter b (v / 256 ^ k) from hown k hk]
      cases hb : ownedAt b with
      | none => exact ownerAfter_of_none hb
      | some p => exact ownerAfter_of_some hb

end Sys2Proof.Machine
end

section
/-! PROOF. The canonical form of memory (R22, R134, R150) through every step. Memory changes only by the operations of
Laws/Memory.lean, each of which keeps the form; here follow, in the order of the model's files, one rule for every function of the
model that changes the state, each from the rules of the functions it calls, up to the instructions, the moves and the step. -/
namespace Sys2Proof.Machine

/-! ## States and results whose memory is in canonical form -/

/-- `State.memOk` as a predicate that the rules below carry through the model's functions. -/
def State.Canon (s : State) : Prop := s.mem.wf = true

/-- The state that an access leaves. -/
@[reducible] def Res.after {α : Type} : Res α → State
  | .ok _ s => s
  | .wait s => s
  | .fault _ s => s

/-- An access that leaves memory in canonical form, whether it ends, waits or faults. -/
def Res.Canon {α : Type} (r : Res α) : Prop := r.after.Canon

/-- The memory that an outcome leaves is in canonical form; a fault and a refusal leave none. -/
@[reducible] def Out.memOk : Out → Bool
  | .next t => t.mem.wf
  | .fault _ => true
  | .refused _ => true

/-- See `Out.memOk`. -/
def Out.Canon (o : Out) : Prop := o.memOk = true

/-- The state that the preparation of an operation leaves: that of its trap, or of its access. -/
@[reducible] def preparedState {α : Type} : Except State (Res α) → State
  | .error s => s
  | .ok r => r.after

/-- A preparation that leaves memory in canonical form. -/
def PrepCanon {α : Type} (p : Except State (Res α)) : Prop := (preparedState p).Canon

/-- The memory after a turn of an image's reading is in canonical form; the last turn gives a mantle and no state. -/
@[reducible] def ImgStep.memOk : ImgStep → Bool
  | .more _ _ s => s.mem.wf
  | .wait s => s.mem.wf
  | .refused _ s => s.mem.wf
  | .loaded _ => true

/-- See `ImgStep.memOk`. -/
def ImgStep.Canon (r : ImgStep) : Prop := r.memOk = true

/-- A property of the value of an option that has one. -/
def OnSome {α : Type} (P : α → Prop) : Option α → Prop
  | none => True
  | some a => P a

/-- A property of the value of a computation that does not fail. -/
def OnOk {ε α : Type} (P : α → Prop) : Except ε α → Prop
  | .error _ => True
  | .ok a => P a

/-! ## What a branch of a match on a result gets

Each takes the branch's equation first, and then what is known of the result matched. -/

section
variable {α : Type} {a : α} {s : State}

theorem onSome_some {P : α → Prop} {o : Option α} (e : o = some a) (h : OnSome P o) : P a := by
  subst e
  exact h

theorem onOk_ok {ε : Type} {P : α → Prop} {o : Except ε α} (e : o = .ok a) (h : OnOk P o) : P a := by
  subst e
  exact h

theorem prepCanon_error {o : Except State (Res α)} (e : o = .error s) (h : PrepCanon o) : s.Canon := by
  subst e
  exact h

theorem prepCanon_ok {o : Except State (Res α)} {r : Res α} (e : o = .ok r) (h : PrepCanon o) : r.Canon := by
  subst e
  exact h

theorem Res.canon_ok {r : Res α} (e : r = .ok a s) (h : r.Canon) : s.Canon := by
  subst e
  exact h

theorem Res.canon_wait {r : Res α} (e : r = .wait s) (h : r.Canon) : s.Canon := by
  subst e
  exact h

theorem Res.canon_fault {r : Res α} {x : XFault} (e : r = .fault x s) (h : r.Canon) : s.Canon := by
  subst e
  exact h

theorem ImgStep.canon_more {r : ImgStep} {bs : List Byte} {st : BitVec 32} (e : r = .more bs st s) (h : r.Canon) : s.Canon := by
  subst e
  exact h

theorem ImgStep.canon_wait {r : ImgStep} (e : r = .wait s) (h : r.Canon) : s.Canon := by
  subst e
  exact h

theorem ImgStep.canon_refused {r : ImgStep} {f : Flaw} (e : r = .refused f s) (h : r.Canon) : s.Canon := by
  subst e
  exact h

theorem canon_of_pair_eq {p : α × State} (e : p = (a, s)) (h : p.2.Canon) : s.Canon := by
  subst e
  exact h

end

/-! ## How results and states are put together -/

theorem Res.canon_bind {α β : Type} {r : Res α} {k : α → State → Res β} (h : r.Canon)
    (hk : ∀ a s, s.Canon → (k a s).Canon) : (r.bind k).Canon := by
  cases r with
  | ok a s => exact hk a s h
  | wait s => exact h
  | fault x s => exact h

theorem canon_foldl {α : Type} {f : State → α → State} {l : List α} {s : State} (h : s.Canon)
    (hf : ∀ s a, s.Canon → (f s a).Canon) : (l.foldl f s).Canon := by
  induction l generalizing s with
  | nil => exact h
  | cons a r ih => exact ih (hf s a h)

theorem canon_getD {o : Option State} {s : State} (ho : OnSome State.Canon o) (h : s.Canon) : (o.getD s).Canon := by
  cases o with
  | none => exact h
  | some t => exact ho

section
variable {c : Prop} [Decidable c]

theorem canon_ite {s t : State} (hs : s.Canon) (ht : t.Canon) : (if c then s else t).Canon := by
  split
  · exact hs
  · exact ht

theorem canon_snd_ite {α : Type} {s t : α × State} (hs : s.2.Canon) (ht : t.2.Canon) : (if c then s else t).2.Canon := by
  split
  · exact hs
  · exact ht

theorem Res.canon_ite {α : Type} {s t : Res α} (hs : s.Canon) (ht : t.Canon) : (if c then s else t).Canon := by
  split
  · exact hs
  · exact ht

theorem Out.canon_ite {s t : Out} (hs : Out.Canon s) (ht : Out.Canon t) : Out.Canon (if c then s else t) := by
  split
  · exact hs
  · exact ht

end

theorem canon_updMem {s : State} {g : Memory → Memory} (h : s.Canon) (hg : ∀ m, m.wf = true → (g m).wf = true) :
    (s.updMem g).Canon := hg _ h

theorem Memory.wf_foldl {α : Type} {g : Memory → α → Memory} {l : List α} {m : Memory} (h : m.wf = true)
    (hg : ∀ m a, m.wf = true → (g m a).wf = true) : (l.foldl g m).wf = true := by
  induction l generalizing m with
  | nil => exact h
  | cons a r ih => exact ih (hg m a h)

theorem Memory.wf_restoreTile {m : Memory} {img : List Byte} {t : Tile} {n : Nat} (h : m.wf = true) :
    (m.restoreTile img t n).wf = true :=
  Memory.wf_foldl (Memory.wf_putN h _ _) fun _ _ h => Memory.wf_mark h _ _ _

theorem Memory.wf_marksBack {m : Memory} (h : m.wf = true) (ps fs : List Nat) :
    Memory.wf { m with poison := ps.foldl setAdd m.poison, fixed := fs.foldl setAdd m.fixed } = true :=
  have ⟨hbytes, hempty, hpoison, hfixed, r⟩ := Memory.wf_iff.1 h
  Memory.wf_iff.2 ⟨hbytes, hempty, rising_foldl_setAdd ps hpoison, rising_foldl_setAdd fs hfixed, r⟩

variable {s : State}

/-! ## State operations (Machine/Ops.lean) -/

theorem canon_updFen {f g} (h : s.Canon) : (s.updFen f g).Canon := h

theorem canon_updCore {f g} (h : s.Canon) : (s.updCore f g).Canon := canon_updFen h

theorem canon_orStatus {f w} (h : s.Canon) : (s.orStatus f w).Canon := canon_updFen h

theorem canon_updPage {f g} (h : s.Canon) : (s.updPage f g).Canon := h

theorem canon_updDev {g} (h : s.Canon) : (s.updDev g).Canon := h

theorem canon_message {fn vector} (h : s.Canon) : (s.message fn vector).Canon := canon_updDev h

theorem canon_ringWrite {r w} (h : s.Canon) : (s.ringWrite r w).Canon := canon_updMem h fun _ h => Memory.wf_putN h _ _

theorem canon_putError {fn w} (h : s.Canon) : (s.putError fn w).Canon :=
  canon_ite (canon_updPage h) (canon_message (canon_updPage (canon_ringWrite h)))

theorem canon_putFault {fn w} (h : s.Canon) : (s.putFault fn w).Canon :=
  canon_ite (canon_updPage h) (canon_message (canon_updPage (canon_ringWrite h)))

theorem canon_drainHeld {fn k} (h : s.Canon) : (s.drainHeld fn k).Canon := by
  induction k generalizing s fn with
  | zero => exact h
  | succ n ih =>
    unfold State.drainHeld
    dsimp only
    split
    · exact h
    · exact canon_ite h (ih (canon_putFault (canon_updPage h)))

theorem canon_errorRecord {fn asid addr detail t slot kind} (h : s.Canon) :
    (s.errorRecord fn asid addr detail t slot kind).Canon :=
  canon_putError h

theorem canon_onCore {k} (h : s.Canon) (hk : ∀ i x, (k i x).Canon) : (onCore s k).Canon := by
  unfold onCore
  split
  · exact hk _ _
  · exact h

theorem canon_regOp {rd v} (h : s.Canon) : (regOp s rd v).Canon := canon_onCore h fun _ _ => canon_updCore h

theorem canon_regOpSt {rd v} (h : s.Canon) : (regOpSt s rd v).Canon := canon_onCore h fun _ _ => canon_updCore h

theorem canon_dropBlock {f} (h : s.Canon) : (s.dropBlock f).Canon := canon_updCore h

theorem canon_forget {mine} (h : s.Canon) : (s.forget mine).Canon := h

theorem canon_terminate {f cause detail} (h : s.Canon) : (s.terminate f cause detail).Canon := by
  unfold State.terminate
  split
  · exact h
  · exact canon_ite h (canon_errorRecord (canon_forget (canon_updFen h)))

theorem canon_dropRetried {f} (h : s.Canon) : (s.dropRetried f).Canon := h

theorem canon_enterTrap {f cause val blk idx} (h : s.Canon) : (s.enterTrap f cause val blk idx).Canon := by
  unfold State.enterTrap
  split
  · exact h
  · exact canon_ite (canon_terminate h) (canon_updCore (canon_dropBlock h))

theorem canon_takeTrap {f cause val blk idx} (h : s.Canon) : (s.takeTrap f cause val blk idx).Canon :=
  canon_enterTrap (canon_dropRetried h)

theorem canon_abortTrap {f cause val} (h : s.Canon) : (s.abortTrap f cause val).Canon := by
  unfold State.abortTrap
  split
  · exact h
  · exact canon_takeTrap h

theorem canon_passTrap {f cause val reason} (h : s.Canon) : (s.passTrap f cause val reason).Canon := by
  unfold State.passTrap
  split
  · exact h
  · exact canon_ite (canon_ite (canon_terminate h) h) (canon_updCore h)

/-! ## Operands (Machine/Operands.lean) -/

theorem canon_tagSlots {x d i m full} (h : s.Canon) : (s.tagSlots x d i m full).Canon :=
  canon_foldl h fun _ _ h => canon_updMem h fun _ h => Memory.wf_mark h _ _ _

theorem canon_tick {n} (h : s.Canon) : (s.tick n).Canon := h

theorem canon_setRing {f m hd d} (h : s.Canon) : (s.setRing f m hd d).Canon := canon_updFen h

theorem canon_ringFault {f m hd t slot} (h : s.Canon) : (s.ringFault f m hd t slot).Canon := by
  unfold State.ringFault
  split
  · exact h
  · exact canon_errorRecord (canon_updFen (canon_setRing h))

theorem canon_ringCheck {f m hd t slot} (h : s.Canon) : (s.ringCheck f m hd t slot).2.Canon := by
  unfold State.ringCheck
  split
  · exact h
  · exact canon_snd_ite h (canon_snd_ite h (canon_passTrap (canon_ringFault h)))

theorem canon_ringAdvance {f m hd n pop} (h : s.Canon) : (s.ringAdvance f m hd n pop).Canon := by
  unfold State.ringAdvance
  split
  · exact h
  · exact canon_ite (canon_setRing (canon_tagSlots h)) (canon_setRing (canon_tagSlots h))

theorem canon_ringFill {f m hd} (h : s.Canon) : (s.ringFill f m hd).Canon := by
  unfold State.ringFill
  split
  · exact h
  · exact canon_setRing h

/-! ## The packet network (Machine/Net.lean) -/

theorem canon_takeFlits {die part n} (h : s.Canon) : (s.takeFlits die part n).Canon := canon_ite h (canon_updDev h)

theorem canon_letIn {rq die part n} (h : s.Canon) : (s.letIn rq die part n).Canon :=
  Res.canon_ite h (Res.canon_ite (canon_takeFlits h) h)

theorem canon_charge {rq ph w} (h : s.Canon) : (s.charge rq ph w).Canon := by
  unfold State.charge
  split
  · exact h
  · exact Res.canon_ite h (canon_letIn h)

/-! ## Translation and walks (Machine/Xlate.lean) -/

theorem canon_faultRecord {asid rq x} (h : s.Canon) : (s.faultRecord asid rq x).Canon := canon_putFault h

theorem canon_pend {asid rq x sq} (h : s.Canon) : (s.pend asid rq x sq).Canon := by
  unfold State.pend
  dsimp only
  split
  · exact canon_ite h (canon_dropBlock h)
  · exact h

theorem canon_withdraw {rq} (h : s.Canon) : (s.withdraw rq).Canon := h

theorem canon_heldFault {α : Type} {asid rq va} (h : s.Canon) : OnSome Res.Canon (s.heldFault (α := α) asid rq va) := by
  unfold State.heldFault
  cases findIx (fun p : Pending => p.asid == asid && p.stops rq va) s.xl.pending with
  | none => exact trivial
  | some k => exact Res.canon_ite h h

theorem canon_meetFault {α : Type} {asid rq x} (h : s.Canon) : (s.meetFault (α := α) asid rq x).Canon := by
  unfold State.meetFault
  split
  · exact (onSome_some ‹_› (canon_heldFault h) :)
  · exact Res.canon_ite (canon_withdraw (canon_pend (canon_faultRecord h))) (canon_faultRecord h)

theorem canon_addTlb {t} (h : s.Canon) : (s.addTlb t).Canon := h

theorem canon_tableKey {die part ipa} (h : s.Canon) : OnOk (fun p => p.2.Canon) (s.tableKey die part ipa) := by
  unfold State.tableKey
  split
  · split
    · exact trivial
    · exact h
  · split
    · exact trivial
    · split
      · exact trivial
      · split
        · exact trivial
        · dsimp only
          split
          · exact trivial
          · exact h

theorem canon_contEntry {key e} (h : s.Canon) : OnOk (fun p => p.2.Canon) (s.contEntry key e) := by
  unfold State.contEntry
  dsimp only
  split
  · exact trivial
  · exact h

theorem canon_walk1 {die part va k k2 k3} (h : s.Canon) : OnOk (fun p => p.2.Canon) (s.walk1 die part va k k2 k3) := by
  induction k generalizing s die part va k2 k3 with
  | zero =>
    unfold State.walk1
    exact trivial
  | succ n ih =>
    unfold State.walk1
    split
    · exact trivial
    · split
      · exact trivial
      · split
        · exact trivial
        · split
          · split
            · split
              · exact trivial
              · exact (onOk_ok ‹_› (canon_contEntry (onOk_ok ‹_› (canon_tableKey h) :)) :)
            · exact (onOk_ok ‹_› (canon_tableKey h) :)
          · exact ih (onOk_ok ‹_› (canon_tableKey h) :)

theorem canon_walk {w} (h : s.Canon) : OnOk (fun p => p.2.Canon) (s.walk w) := by
  unfold State.walk
  split
  · exact trivial
  · split
    · exact trivial
    · dsimp only
      split
      · exact trivial
      · split
        · exact trivial
        · split
          · exact trivial
          · exact (onOk_ok ‹_› (canon_walk1 h) :)

theorem canon_sendSnoop {rq line} (h : s.Canon) : (s.sendSnoop rq line).Canon := by
  refine canon_ite h ?_
  split <;> exact h

theorem canon_snooped {rq ph n} (h : s.Canon) : (s.snooped rq ph n).Canon := by
  refine Res.canon_ite h ?_
  split
  · exact h
  · exact canon_sendSnoop h

theorem canon_setDirty {t} (h : s.Canon) : (s.setDirty t).Canon := canon_ite h (Memory.wf_cellPut h _ _)

theorem canon_dirtied {rq acc t} (h : s.Canon) : (s.dirtied rq acc t).Canon := by
  unfold State.dirtied
  split
  · exact Res.canon_ite h (Res.canon_bind (canon_snooped h) fun _ _ h => canon_setDirty h)
  · exact Res.canon_ite h (Res.canon_bind (canon_snooped h) fun _ _ h => canon_setDirty h)
  · exact h

theorem canon_askWalk {asid part tl rq acc va} (h : s.Canon) : (s.askWalk asid part tl rq acc va).Canon := by
  unfold State.askWalk
  dsimp only
  split
  · exact canon_ite h h
  · exact h

theorem canon_useTlb {asid rq acc va t} (h : s.Canon) : (s.useTlb asid rq acc va t).Canon := by
  refine Res.canon_ite (canon_meetFault h) ?_
  split
  · exact canon_meetFault h
  · exact Res.canon_bind (canon_dirtied h) fun _ _ h => h

theorem canon_xlate {asid part tl rq acc va} (h : s.Canon) : (s.xlate asid part tl rq acc va).Canon := by
  unfold State.xlate
  split
  · exact (onSome_some ‹_› (canon_heldFault h) :)
  · split
    · exact canon_useTlb h
    · split
      · exact canon_useTlb (canon_addTlb h)
      · exact canon_askWalk h

theorem canon_updEmt {g} (h : s.Canon) : (s.updEmt g).Canon := h

theorem canon_evictLine {line} (h : s.Canon) : (s.evictLine line).Canon := by
  unfold State.evictLine
  split
  · exact h
  · exact canon_ite (canon_errorRecord h) h

theorem canon_needLine {rq line} (h : s.Canon) : (s.needLine rq line).Canon :=
  Res.canon_ite (Res.canon_ite (canon_ite (canon_updEmt h) h) (Res.canon_ite (canon_updEmt h) h)) (Res.canon_ite h
    (Res.canon_ite (canon_updEmt h) (Res.canon_ite h (Res.canon_ite (canon_updEmt h) (Res.canon_ite (canon_updEmt h) h)))))

theorem canon_needLines {rq line k} (h : s.Canon) : (s.needLines rq line k).Canon := by
  induction k generalizing s rq line with
  | zero => exact h
  | succ n ih =>
    unfold State.needLines
    exact Res.canon_bind (canon_needLine h) fun _ _ h => ih h

theorem canon_present {rq ph n} (h : s.Canon) : (s.present rq ph n).Canon := Res.canon_ite (canon_needLines h) h

theorem canon_writable {rq ph n} (h : s.Canon) : (s.writable rq ph n).Canon :=
  Res.canon_bind (canon_present h) fun _ _ h => canon_snooped h

theorem canon_outside {rq acc ph va n} (h : s.Canon) : (s.outside rq acc ph va n).Canon := by
  unfold State.outside
  split
  · exact Res.canon_ite (canon_meetFault h) (Res.canon_bind (canon_charge h) fun _ _ h => h)
  · split
    · exact h
    · exact Res.canon_ite h (Res.canon_ite (canon_meetFault h) h)

theorem canon_eatPoison {rq va l} (h : s.Canon) : (s.eatPoison rq va l).Canon := by
  induction l generalizing s rq va with
  | nil => exact h
  | cons b l ih =>
    unfold State.eatPoison
    split
    · exact h
    · split
      · exact h
      · exact canon_ite (ih h) (ih (canon_errorRecord (canon_updFen h)))

theorem canon_meetMarks {rq ph va n} (h : s.Canon) : (s.meetMarks rq ph va n).2.Canon := by
  have he := fun l => canon_eatPoison (rq := rq) (va := va) (l := l) h
  exact canon_snd_ite h (canon_ite (canon_updPage (canon_updMem (he _) fun _ h => Memory.wf_unfixed h _)) (he _))

theorem canon_carried {rq ph va r} (h : s.Canon) : (s.carried rq ph va r).2.Canon :=
  canon_snd_ite h (canon_eatPoison (canon_updMem h fun _ h => Memory.wf_transitDrop h _))

theorem canon_landLost {rq ph n} (h : s.Canon) : (s.landLost rq ph n).Canon :=
  canon_ite h (canon_updMem h fun _ h => Memory.wf_netMark (Memory.wf_transitDrop h _) _)

theorem canon_fromOutside {rq ph va n r} (h : s.Canon) : (s.fromOutside rq ph va n r).2.Canon :=
  canon_snd_ite (canon_eatPoison h) (canon_meetMarks h)

theorem canon_readAt {rq ph va n} (h : s.Canon) : (s.readAt rq ph va n).Canon :=
  Res.canon_ite h (Res.canon_ite (Res.canon_bind (canon_outside h) fun _ _ h => canon_fromOutside h) (Res.canon_bind
    (canon_present h) fun _ _ h => Res.canon_bind (canon_charge h) fun _ _ h => canon_carried (canon_meetMarks h)))

theorem canon_deliver {rq home va d} (h : s.Canon) : (s.deliver rq home va d).2.Canon := by
  unfold State.deliver
  split
  · exact h
  · exact canon_snd_ite h (canon_meetMarks h)

theorem canon_track {ph} (h : s.Canon) : (s.track ph).Canon := canon_ite h h

theorem canon_landWrite {ph bs} (h : s.Canon) : (s.landWrite ph bs).Canon :=
  canon_ite (canon_updEmt (canon_updMem (canon_track h) fun _ h => Memory.wf_putN h _ _)) (canon_updMem (canon_track h) fun _ h
    => Memory.wf_putN h _ _)

theorem canon_nearWrite {rq key n} (h : s.Canon) : (s.nearWrite rq key n).Canon := by
  unfold State.nearWrite
  split
  · exact h
  · exact canon_updFen h

theorem canon_writeAt {rq ph va bs limited} (h : s.Canon) : (s.writeAt rq ph va bs limited).Canon :=
  Res.canon_ite h (Res.canon_ite (Res.canon_bind (canon_outside h) fun _ _ h => Res.canon_ite h (canon_landWrite h))
    (Res.canon_bind (canon_writable h) fun _ _ h => Res.canon_bind (Res.canon_ite (canon_charge h) h) fun _ _ h =>
    canon_nearWrite (canon_landLost (canon_landWrite h))))

theorem canon_markPoison {ph n} (h : s.Canon) : (s.markPoison ph n).Canon := canon_updMem h fun _ h => Memory.wf_poison h _ _ _

theorem canon_rmwOut {rq ph va n r g} (h : s.Canon) : (s.rmwOut rq ph va n r g).2.Canon :=
  canon_snd_ite (canon_ite (canon_landWrite (canon_fromOutside h)) (canon_fromOutside h)) (canon_snd_ite (canon_meetMarks h)
    (canon_landWrite (canon_meetMarks h)))

theorem canon_rmwAt {rq ph va n g} (h : s.Canon) : (s.rmwAt rq ph va n g).Canon :=
  Res.canon_ite h (Res.canon_ite (Res.canon_bind (canon_outside h) fun _ _ h => canon_rmwOut h) (Res.canon_bind (canon_writable
    h) fun _ _ h => Res.canon_bind (canon_charge h) fun _ _ h => Res.canon_ite (canon_meetMarks h) (canon_nearWrite
    (canon_landWrite (canon_meetMarks h)))))

/-! ## Accesses of an agent (Machine/Access.lean) -/

theorem canon_xlateFor {x rq acc va} (h : s.Canon) : (s.xlateFor x rq acc va).Canon := canon_xlate h

theorem canon_askFor {x rq acc va} (h : s.Canon) : (s.askFor x rq acc va).Canon := canon_ite h (canon_askWalk h)

theorem canon_readVa {x rq va n k} (h : s.Canon) : (s.readVa x rq va n k).Canon := by
  induction k generalizing s x rq va n with
  | zero => exact h
  | succ n ih =>
    unfold State.readVa
    exact Res.canon_ite h (Res.canon_bind (canon_xlateFor h) fun _ _ h => Res.canon_bind (canon_readAt h) fun _ _ h =>
      Res.canon_bind (ih h) fun _ _ h => h)

theorem canon_readScratch {rq t o n} (h : s.Canon) : (s.readScratch rq t o n).2.2.Canon := canon_meetMarks h

theorem canon_writeScratch {t o bs full} (h : s.Canon) : (s.writeScratch t o bs full).Canon :=
  canon_ite (canon_updMem (canon_updMem h fun _ h => Memory.wf_putN h _ _) fun _ h => Memory.wf_mark h _ _ _) (canon_updMem h
    fun _ h => Memory.wf_putN h _ _)

theorem canon_flagTile {key} (h : s.Canon) : (s.flagTile key).Canon := canon_ite h h

theorem canon_barUpdate {ph tx osw arrive t slot core} (h : s.Canon) :
    OnSome State.Canon (s.barUpdate ph tx osw arrive t slot core) := by
  unfold State.barUpdate
  dsimp only
  split
  · exact trivial
  · split
    · exact h
    · exact canon_ite (canon_flagTile (canon_landWrite h)) (canon_landWrite h)

theorem canon_barCycle {ph ups} (h : s.Canon) : (s.barCycle ph ups).2.Canon :=
  canon_snd_ite h (canon_ite (canon_flagTile (canon_landWrite h)) (canon_landWrite h))

theorem canon_barCycles {k l} (h : s.Canon) : (s.barCycles k l).2.Canon := by
  induction k generalizing s l with
  | zero => exact h
  | succ k ih =>
    cases l with
    | nil => exact h
    | cons u l => exact ih (canon_barCycle h)

theorem canon_putQcb {ph q} (h : s.Canon) : (s.putQcb ph q).Canon := canon_landWrite h

theorem canon_qcbFault {ph va asid} (h : s.Canon) : (s.qcbFault ph va asid).Canon := canon_errorRecord (canon_putQcb h)

theorem canon_qJudge {ph va asid part tl} (h : s.Canon) : (s.qJudge ph va asid part tl).2.Canon :=
  canon_snd_ite h (canon_snd_ite h (canon_snd_ite h (canon_snd_ite (canon_qcbFault h) h)))

theorem canon_qWaiter {ph enq quad} (h : s.Canon) : (s.qWaiter ph enq quad).Canon := canon_putQcb h

theorem canon_wake {key mask} (h : s.Canon) : (s.wake key mask).Canon := h

theorem canon_writePieces {bs l} (h : s.Canon) : (s.writePieces bs l).Canon := by
  induction l generalizing s bs with
  | nil => exact h
  | cons b l ih =>
    unfold State.writePieces
    exact ih (canon_ite (canon_updMem (canon_landWrite h) fun _ h => Memory.wf_mark h _ _ _) (canon_landWrite h))

theorem canon_dirtySlot {q asid part tl j} (h : s.Canon) : (s.dirtySlot q asid part tl j).Canon := by
  refine canon_foldl h fun _ _ h => ?_
  split
  · exact canon_setDirty h
  · exact h

theorem canon_unsnooped {rq ph l} (h : s.Canon) : (s.unsnooped rq ph l).Canon := by
  induction l generalizing s rq ph with
  | nil =>
    unfold State.unsnooped
    exact canon_snooped h
  | cons b l ih =>
    unfold State.unsnooped
    exact Res.canon_ite h (Res.canon_bind (canon_snooped h) fun _ _ h => ih h)

theorem canon_qMove {ph asid part tl enq elem} (h : s.Canon) : (s.qMove ph asid part tl enq elem).Canon :=
  canon_ite (canon_wake (canon_putQcb (canon_writePieces (canon_dirtySlot h)))) (canon_wake (canon_putQcb (canon_writePieces
    h)))

theorem canon_threshWrite {ph va asid part tl p} (h : s.Canon) : OnSome State.Canon (s.threshWrite ph va asid part tl p) := by
  unfold State.threshWrite
  dsimp only
  split
  · exact trivial
  · split
    · exact h
    · split
      · exact h
      · split
        · exact canon_qcbFault h
        · exact canon_putQcb h

theorem canon_xlateQcb {x rq acc va} (h : s.Canon) : (s.xlateQcb x rq acc va).Canon :=
  Res.canon_bind (canon_xlateFor h) fun _ _ h => Res.canon_ite h (canon_meetFault h)

/-! ## Scalar instructions that compute (Machine/Alu.lean) -/

theorem canon_execMksa {rd ra rb} (h : s.Canon) : (execMksa rd ra rb s).Canon :=
  canon_onCore h fun _ _ => canon_ite (canon_abortTrap h) (canon_updCore h)

theorem canon_execTaddr {rd ra rb} (h : s.Canon) : (execTaddr rd ra rb s).Canon := by
  refine canon_onCore h fun _ _ => ?_
  split
  · exact canon_updCore h
  · exact canon_ite (canon_abortTrap h) (canon_updCore h)

theorem canon_tensOp {rd ra v} (h : s.Canon) : (tensOp s rd ra v).Canon := canon_onCore h fun _ _ => canon_updCore h

/-! ## Loads and stores (Machine/Mem.lean) -/

theorem canon_readGaps {rq ph va bs l} (h : s.Canon) : (s.readGaps rq ph va bs l).Canon := by
  induction l generalizing s rq ph va bs with
  | nil => exact h
  | cons b l ih =>
    unfold State.readGaps
    exact Res.canon_bind (canon_readAt h) fun _ _ h => Res.canon_bind (ih h) fun _ _ h => h

theorem canon_scratchGaps {rq t o bs l} (h : s.Canon) : (s.scratchGaps rq t o bs l).2.2.Canon := by
  induction l generalizing s rq t o bs with
  | nil => exact h
  | cons b l ih =>
    unfold State.scratchGaps
    exact ih (canon_readScratch h)

theorem canon_loadScratch {f x t o n} (h : s.Canon) : (s.loadScratch f x t o n).Canon :=
  Res.canon_bind (Res.canon_ite h (canon_charge h)) fun _ _ h => canon_scratchGaps h

theorem canon_cacheLine {f l} (h : s.Canon) : (s.cacheLine f l).Canon := canon_updCore h

theorem canon_loadGlobal {f x va w} (h : s.Canon) : (s.loadGlobal f x va w).Canon := by
  refine Res.canon_bind (canon_xlateFor h) fun _ _ h => ?_
  refine Res.canon_ite (Res.canon_bind (canon_readGaps h) fun _ _ h => h) ?_
  split
  · exact h
  · exact Res.canon_ite h (Res.canon_ite h (Res.canon_bind (canon_readGaps h) fun _ _ h => canon_ite h (canon_cacheLine h)))

theorem canon_loaded {f rd v st} (h : s.Canon) : (s.loaded f rd v st).Canon := canon_updCore h

theorem canon_execLd {rd base size fe imm} (h : s.Canon) : (execLd rd base size fe imm s).Canon := by
  refine canon_onCore h fun _ _ => ?_
  dsimp only
  split
  · exact canon_abortTrap h
  · refine canon_ite h ?_
    split
    · exact canon_loaded (canon_ite (canon_updCore (Res.canon_ok ‹_› (canon_loadScratch h))) (Res.canon_ok ‹_›
        (canon_loadScratch h)))
    · exact Res.canon_wait ‹_› (canon_loadScratch h)
    · exact Res.canon_fault ‹_› (canon_loadScratch h)
  · split
    · exact canon_loaded (Res.canon_ok ‹_› (canon_loadGlobal h))
    · exact Res.canon_wait ‹_› (canon_loadGlobal h)
    · exact canon_abortTrap (Res.canon_fault ‹_› (canon_loadGlobal h))
  · exact h

theorem canon_execSt {rd base size fe imm} (h : s.Canon) : (execSt rd base size fe imm s).Canon := by
  refine canon_onCore h fun _ _ => ?_
  dsimp only
  split
  · exact canon_abortTrap h
  · exact canon_ite (canon_ite h (canon_updCore h)) (canon_updCore h)
  · split
    · exact canon_updCore (Res.canon_ok ‹_› (canon_xlateFor h))
    · exact Res.canon_wait ‹_› (canon_xlateFor h)
    · exact canon_abortTrap (Res.canon_fault ‹_› (canon_xlateFor h))
  · exact h

/-! ## Ordering, atomics and barrier objects (Machine/Sync.lean) -/

theorem canon_execFence {scope} (h : s.Canon) : (execFence scope s).Canon :=
  canon_onCore h fun _ _ => canon_ite h (canon_updCore h)

theorem canon_loadHome {f x va w} (h : s.Canon) : (s.loadHome f x va w).Canon :=
  Res.canon_bind (canon_xlateFor h) fun _ _ h => Res.canon_bind (canon_readGaps h) fun _ _ h => h

theorem canon_execLda {w32 rd ra scope} (h : s.Canon) : (execLda w32 rd ra scope s).Canon := by
  refine canon_onCore h fun _ _ => ?_
  dsimp only
  split
  · exact canon_abortTrap h
  · split
    · exact canon_loaded (canon_updCore (Res.canon_ok ‹_› (canon_loadScratch h)))
    · exact Res.canon_wait ‹_› (canon_loadScratch h)
    · exact Res.canon_fault ‹_› (canon_loadScratch h)
  · split
    · exact canon_loaded (canon_updCore (Res.canon_ok ‹_› (Res.canon_ite (canon_loadHome h) (canon_loadGlobal h))))
    · exact Res.canon_wait ‹_› (Res.canon_ite (canon_loadHome h) (canon_loadGlobal h))
    · exact canon_abortTrap (Res.canon_fault ‹_› (Res.canon_ite (canon_loadHome h) (canon_loadGlobal h)))
  · exact h

theorem canon_execStl {w32 ra rb scope} (h : s.Canon) : (execStl w32 ra rb scope s).Canon := by
  refine canon_onCore h fun _ _ => ?_
  dsimp only
  split
  · exact canon_abortTrap h
  · exact canon_updCore h
  · split
    · exact canon_updCore (Res.canon_ok ‹_› (canon_xlateFor h))
    · exact Res.canon_wait ‹_› (canon_xlateFor h)
    · exact canon_abortTrap (Res.canon_fault ‹_› (canon_xlateFor h))
  · exact h

theorem canon_nrExec {prep perform} (h : s.Canon) (hk : ∀ i x, (prep i x).Canon) (hk2 : ∀ i x p, (perform i x p).Canon) :
    (nrExec s prep perform).Canon := by
  refine canon_onCore h fun _ _ => ?_
  refine canon_ite ?_ (hk _ _)
  split
  · exact hk2 _ _ _
  · exact h

theorem canon_prepared {f p} (h : s.Canon) : (s.prepared f p).Canon := canon_updCore h

theorem canon_prepAddr {f x ea n acc} (h : s.Canon) : PrepCanon (s.prepAddr f x ea n acc) := by
  unfold State.prepAddr
  split
  · exact canon_abortTrap h
  · exact h
  · exact canon_xlateFor h
  · exact h

theorem canon_amoExec {w32 rd ra rb scope op} (h : s.Canon) : (amoExec s w32 rd ra rb scope op).Canon := by
  refine canon_nrExec h (fun _ _ => ?_) fun _ _ _ => ?_
  · dsimp only
    split
    · exact prepCanon_error ‹_› (canon_prepAddr h)
    · exact (prepCanon_ok ‹_› (canon_prepAddr h) :)
    · exact canon_abortTrap (prepCanon_ok ‹_› (canon_prepAddr h) :)
    · exact canon_prepared (prepCanon_ok ‹_› (canon_prepAddr h) :)
  · dsimp only
    split
    · exact canon_updCore (Res.canon_ok ‹_› (canon_rmwAt h))
    · exact Res.canon_wait ‹_› (canon_rmwAt h)
    · exact Res.canon_fault ‹_› (canon_rmwAt h)

theorem canon_barAddr {f x ea acc} (h : s.Canon) : PrepCanon (s.barAddr f x ea acc) := by
  unfold State.barAddr
  split
  · split
    · exact (prepCanon_ok ‹_› (canon_prepAddr h) :)
    · exact canon_abortTrap (prepCanon_ok ‹_› (canon_prepAddr h) :)
  · exact canon_prepAddr h

theorem canon_execBinit {ra rb scope} (h : s.Canon) : (execBinit ra rb scope s).Canon := by
  refine canon_onCore h fun _ _ => ?_
  refine canon_ite (canon_abortTrap h) ?_
  split
  · exact prepCanon_error ‹_› (canon_barAddr h)
  · exact (prepCanon_ok ‹_› (canon_barAddr h) :)
  · exact canon_abortTrap (prepCanon_ok ‹_› (canon_barAddr h) :)
  · exact canon_updCore (prepCanon_ok ‹_› (canon_barAddr h) :)

theorem canon_execBarv {rd ra} (h : s.Canon) : (execBarv rd ra s).Canon := by
  refine canon_nrExec h (fun _ _ => ?_) fun _ _ _ => ?_
  · dsimp only
    split
    · exact prepCanon_error ‹_› (canon_barAddr h)
    · exact (prepCanon_ok ‹_› (canon_barAddr h) :)
    · exact canon_abortTrap (prepCanon_ok ‹_› (canon_barAddr h) :)
    · exact canon_prepared (prepCanon_ok ‹_› (canon_barAddr h) :)
  · dsimp only
    split
    · exact canon_ite h (canon_getD (canon_barUpdate h) (canon_updCore h))
    · exact canon_updCore (canon_getD (canon_barUpdate h) h)

theorem canon_barvDone {f phase clamp} (h : s.Canon) : (s.barvDone f phase clamp).Canon := canon_updCore h

theorem canon_barCycleTurn {on} (h : s.Canon) : (s.barCycleTurn on).Canon := by
  unfold State.barCycleTurn
  split
  · exact canon_ite h h
  · refine canon_ite h (canon_foldl (canon_barCycles h) fun _ _ h => ?_)
    split
    · exact canon_barvDone h
    · exact h

theorem canon_execBexp {ra rb} (h : s.Canon) : (execBexp ra rb s).Canon := by
  refine canon_nrExec h (fun _ _ => ?_) fun _ _ _ => ?_
  · refine canon_ite (canon_abortTrap h) ?_
    split
    · exact prepCanon_error ‹_› (canon_barAddr h)
    · exact (prepCanon_ok ‹_› (canon_barAddr h) :)
    · exact canon_abortTrap (prepCanon_ok ‹_› (canon_barAddr h) :)
    · exact canon_prepared (prepCanon_ok ‹_› (canon_barAddr h) :)
  · refine canon_updCore ?_
    unfold Option.getD
    split
    · exact (onSome_some ‹_› (canon_barUpdate h) :)
    · exact h

theorem canon_execBwait {rd ra rb scope} (h : s.Canon) : (execBwait rd ra rb scope s).Canon := by
  refine canon_onCore h fun _ _ => ?_
  refine canon_ite (canon_abortTrap h) ?_
  split
  · exact prepCanon_error ‹_› (canon_barAddr h)
  · exact (prepCanon_ok ‹_› (canon_barAddr h) :)
  · exact canon_abortTrap (prepCanon_ok ‹_› (canon_barAddr h) :)
  · exact canon_ite (canon_abortTrap (prepCanon_ok ‹_› (canon_barAddr h) :)) (canon_ite (prepCanon_ok ‹_› (canon_barAddr h) :)
      (canon_updCore (prepCanon_ok ‹_› (canon_barAddr h) :)))

/-! ## Queue instructions (Machine/Queue.lean) -/

theorem canon_qcbAddr {f x ea acc} (h : s.Canon) : PrepCanon (s.qcbAddr f x ea acc) := by
  unfold State.qcbAddr
  split
  · exact canon_abortTrap h
  · exact canon_xlateQcb h
  · exact canon_abortTrap h

theorem canon_elemPieces {f x ea acc k} (h : s.Canon) : PrepCanon (s.elemPieces f x ea acc k) := by
  induction k generalizing s f x ea acc with
  | zero => exact h
  | succ n ih =>
    unfold State.elemPieces
    split
    · exact prepCanon_error ‹_› (canon_prepAddr h)
    · exact (prepCanon_ok ‹_› (canon_prepAddr h) :)
    · exact (prepCanon_ok ‹_› (canon_prepAddr h) :)
    · split
      · exact prepCanon_error ‹_› (ih (prepCanon_ok ‹_› (canon_prepAddr h) :))
      · exact (prepCanon_ok ‹_› (ih (prepCanon_ok ‹_› (canon_prepAddr h) :)) :)
      · exact (prepCanon_ok ‹_› (ih (prepCanon_ok ‹_› (canon_prepAddr h) :)) :)
      · exact (prepCanon_ok ‹_› (ih (prepCanon_ok ‹_› (canon_prepAddr h) :)) :)

theorem canon_qPrep {f x ra rb enq} (h : s.Canon) : (s.qPrep f x ra rb enq).Canon := by
  unfold State.qPrep
  dsimp only
  split
  · exact prepCanon_error ‹_› (canon_qcbAddr h)
  · exact (prepCanon_ok ‹_› (canon_qcbAddr h) :)
  · exact canon_abortTrap (prepCanon_ok ‹_› (canon_qcbAddr h) :)
  · refine canon_ite (prepCanon_ok ‹_› (canon_qcbAddr h) :) ?_
    split
    · exact prepCanon_error ‹_› (canon_elemPieces (prepCanon_ok ‹_› (canon_qcbAddr h) :))
    · exact (prepCanon_ok ‹_› (canon_elemPieces (prepCanon_ok ‹_› (canon_qcbAddr h) :)) :)
    · exact canon_abortTrap (prepCanon_ok ‹_› (canon_elemPieces (prepCanon_ok ‹_› (canon_qcbAddr h) :)) :)
    · exact canon_prepared (canon_updCore (prepCanon_ok ‹_› (canon_elemPieces (prepCanon_ok ‹_› (canon_qcbAddr h) :)) :))

theorem canon_qPerform {f x p enq rd} (h : s.Canon) : (s.qPerform f x p enq rd).Canon := by
  refine canon_ite (canon_updCore h) ?_
  split
  · exact Res.canon_wait ‹_› (canon_unsnooped h)
  · exact Res.canon_fault ‹_› (canon_unsnooped h)
  · exact canon_updCore (canon_qMove (Res.canon_ok ‹_› (canon_unsnooped h)))

theorem canon_execQenq {ra rb} (h : s.Canon) : (execQenq ra rb s).Canon := by
  unfold execQenq
  exact canon_nrExec h (fun _ _ => canon_qPrep h) fun _ _ _ => canon_qPerform h

theorem canon_execQdeq {ra rb} (h : s.Canon) : (execQdeq ra rb s).Canon := by
  unfold execQdeq
  exact canon_nrExec h (fun _ _ => canon_qPrep h) fun _ _ _ => canon_qPerform h

theorem canon_execQtenq {rd ra rb} (h : s.Canon) : (execQtenq rd ra rb s).Canon := by
  unfold execQtenq
  exact canon_nrExec h (fun _ _ => canon_qPrep h) fun _ _ _ => canon_qPerform h

theorem canon_execQtdeq {rd ra rb} (h : s.Canon) : (execQtdeq rd ra rb s).Canon := by
  unfold execQtdeq
  exact canon_nrExec h (fun _ _ => canon_qPrep h) fun _ _ _ => canon_qPerform h

theorem canon_readTemplate {f x ea n} (h : s.Canon) : PrepCanon (s.readTemplate f x ea n) := by
  unfold State.readTemplate
  split
  · exact canon_abortTrap h
  · exact Res.canon_bind (canon_loadScratch h) fun _ _ h => h
  · exact Res.canon_bind (canon_loadHome h) fun _ _ h => canon_updCore h
  · exact h

theorem canon_execQinit {ra rb} (h : s.Canon) : (execQinit ra rb s).Canon := by
  refine canon_nrExec h (fun _ _ => ?_) fun _ _ _ => canon_updCore (canon_wake (canon_putQcb h))
  dsimp only
  split
  · exact prepCanon_error ‹_› (canon_qcbAddr h)
  · exact (prepCanon_ok ‹_› (canon_qcbAddr h) :)
  · exact canon_abortTrap (prepCanon_ok ‹_› (canon_qcbAddr h) :)
  · split
    · exact prepCanon_error ‹_› (canon_readTemplate (prepCanon_ok ‹_› (canon_qcbAddr h) :))
    · exact (prepCanon_ok ‹_› (canon_readTemplate (prepCanon_ok ‹_› (canon_qcbAddr h) :)) :)
    · exact canon_abortTrap (prepCanon_ok ‹_› (canon_readTemplate (prepCanon_ok ‹_› (canon_qcbAddr h) :)) :)
    · exact canon_ite (canon_abortTrap (prepCanon_ok ‹_› (canon_readTemplate (prepCanon_ok ‹_› (canon_qcbAddr h) :)) :))
        (canon_prepared (prepCanon_ok ‹_› (canon_readTemplate (prepCanon_ok ‹_› (canon_qcbAddr h) :)) :))

theorem canon_qstatOcc {q} (h : s.Canon) : (s.qstatOcc q).2.Canon := canon_snd_ite h h

theorem canon_execQstat {rd ra} (h : s.Canon) : (execQstat rd ra s).Canon := by
  refine canon_onCore h fun _ _ => ?_
  dsimp only
  split
  · exact prepCanon_error ‹_› (canon_qcbAddr h)
  · exact (prepCanon_ok ‹_› (canon_qcbAddr h) :)
  · exact canon_abortTrap (prepCanon_ok ‹_› (canon_qcbAddr h) :)
  · have ha : State.Canon _ := (prepCanon_ok ‹_› (canon_qcbAddr h) :)
    generalize hr : Res.bind _ _ = r
    have hr : r.Canon := hr ▸ Res.canon_bind (canon_present ha) fun _ _ h => canon_charge h
    cases r with
    | ok _ s => exact canon_ite hr (canon_updCore (canon_qstatOcc hr))
    | wait s => exact hr
    | fault _ s => exact hr

theorem canon_execQdrain {ra} (h : s.Canon) : (execQdrain ra s).Canon := by
  refine canon_nrExec h (fun _ _ => ?_) fun _ _ _ => canon_updCore (canon_wake (canon_putQcb h))
  dsimp only
  split
  · exact prepCanon_error ‹_› (canon_qcbAddr h)
  · exact (prepCanon_ok ‹_› (canon_qcbAddr h) :)
  · exact canon_abortTrap (prepCanon_ok ‹_› (canon_qcbAddr h) :)
  · exact canon_prepared (prepCanon_ok ‹_› (canon_qcbAddr h) :)

/-! ## Ring instructions (Machine/Ring.lean) -/

theorem canon_ringEff {f e} (h : s.Canon) : (s.ringEff f e).Canon := by
  unfold State.ringEff
  dsimp only
  split
  · exact canon_ringAdvance h
  · exact canon_ringAdvance h
  · exact canon_setRing h
  · exact h

theorem canon_ringView {f c} (h : s.Canon) : (s.ringView f c).Canon := canon_foldl h fun _ _ h => canon_ringEff h

theorem canon_ringInstr {hd cnt cons k} (h : s.Canon) (hk : ∀ i x s, s.Canon → ∀ d, (k i x s d).Canon) :
    (ringInstr s hd cnt cons k).Canon :=
  canon_onCore h fun _ _ => canon_ite (canon_abortTrap h) (canon_ite (canon_abortTrap (canon_ringFault h)) (canon_ite
    (canon_abortTrap h) (canon_ite (canon_abortTrap h) (hk _ _ _ (canon_ringView h) _))))

theorem canon_execRset {hd ra} (h : s.Canon) : (execRset hd ra s).Canon := by
  refine canon_onCore h fun _ _ => ?_
  dsimp only
  split
  · exact canon_abortTrap h
  · split
    · exact canon_ite (canon_abortTrap (Res.canon_ok ‹_› (canon_loadScratch h))) (canon_updCore (Res.canon_ok ‹_›
        (canon_loadScratch h)))
    · exact Res.canon_wait ‹_› (canon_loadScratch h)
    · exact Res.canon_fault ‹_› (canon_loadScratch h)
  · split
    · exact canon_ite (canon_abortTrap (Res.canon_ok ‹_› (canon_loadGlobal h))) (canon_updCore (Res.canon_ok ‹_›
        (canon_loadGlobal h)))
    · exact Res.canon_wait ‹_› (canon_loadGlobal h)
    · exact canon_abortTrap (Res.canon_fault ‹_› (canon_loadGlobal h))
  · exact h

theorem canon_execRget {hd ra} (h : s.Canon) : (execRget hd ra s).Canon := by
  refine canon_onCore h fun _ _ => ?_
  dsimp only
  split
  · exact canon_abortTrap h
  · exact canon_updCore h
  · split
    · exact canon_updCore (Res.canon_ok ‹_› (canon_xlateFor h))
    · exact Res.canon_wait ‹_› (canon_xlateFor h)
    · exact canon_abortTrap (Res.canon_fault ‹_› (canon_xlateFor h))
  · exact h

/-! ## Control registers, events and commands of the scalar stream (Machine/Sys.lean) -/

theorem canon_csrValue {x n} (h : s.Canon) : (s.csrValue x n).2.Canon := canon_snd_ite h h

theorem canon_execCsrr {rd csr} (h : s.Canon) : (execCsrr rd csr s).Canon :=
  canon_onCore h fun _ _ => canon_updCore (canon_csrValue h)

theorem canon_execCsrw {csr ra} (h : s.Canon) : (execCsrw csr ra s).Canon :=
  canon_onCore h fun _ _ => canon_ite (canon_abortTrap h) (canon_updCore h)

theorem canon_execCsrx {rd ra csr} (h : s.Canon) : (execCsrx rd ra csr s).Canon :=
  canon_onCore h fun _ _ => canon_ite (canon_abortTrap h) (canon_updCore (canon_csrValue h))

theorem canon_execTrap {code} (h : s.Canon) : (execTrap code s).Canon := canon_onCore h fun _ _ => canon_abortTrap h

theorem canon_execWfe (h : s.Canon) : (execWfe s).Canon :=
  canon_onCore h fun _ _ => canon_ite (canon_updCore h) (canon_updCore h)

theorem canon_cmo {ra rb k} (h : s.Canon) : (cmo ra rb s k).Canon :=
  canon_onCore h fun _ _ => canon_ite (canon_abortTrap h) (canon_updCore h)

theorem canon_execDcinv {ra rb} (h : s.Canon) : (execDcinv ra rb s).Canon := canon_cmo h

theorem canon_execDcdrain {ra rb} (h : s.Canon) : (execDcdrain ra rb s).Canon :=
  canon_onCore h fun _ _ => canon_ite (canon_abortTrap h) (canon_ite h (canon_updCore h))

theorem canon_execIcinv {ra rb} (h : s.Canon) : (execIcinv ra rb s).Canon := canon_cmo h

theorem canon_execIssue {ra rb} (h : s.Canon) : (execIssue ra rb s).Canon :=
  canon_onCore h fun _ _ => canon_ite (canon_updCore h) (canon_ite (canon_updCore h) (canon_ite (canon_abortTrap h)
    (canon_prepared (canon_updCore h))))

/-! ## Command ports (Machine/Port.lean) -/

theorem canon_acceptCmd {f w} (h : s.Canon) : (s.acceptCmd f w).Canon := by
  unfold State.acceptCmd
  split
  · exact h
  · split
    · exact canon_updFen h
    · split
      · exact canon_updFen h
      · dsimp only
        split <;> exact canon_updFen h

theorem canon_updCmd {f p k g} (h : s.Canon) : (s.updCmd f p k g).Canon := canon_updFen h

theorem canon_ctPhys {a} (h : s.Canon) : OnSome Res.Canon (s.ctPhys a) := by
  unfold State.ctPhys
  split
  · exact trivial
  · split
    · exact h
    · exact trivial
  · exact Res.canon_bind (Res.canon_ite (canon_meetFault h) (canon_xlateFor h)) fun _ _ h => Res.canon_ite h (canon_meetFault h)

theorem canon_faultEnd {t f rq} (h : t.Canon) : (s.faultEnd t f rq).Canon := canon_terminate h

theorem canon_notify {f ph tx osw arrive t slot} (h : s.Canon) : (s.notify f ph tx osw arrive t slot).Canon := by
  unfold State.notify
  unfold Option.getD
  split
  · exact (onSome_some ‹_› (canon_barUpdate h) :)
  · exact canon_orStatus h

theorem canon_dropCmd {f p k} (h : s.Canon) : (s.dropCmd f p k).Canon := canon_updFen h

theorem canon_takeRetry {rq} (h : s.Canon) : (s.takeRetry rq).2.Canon := h

theorem canon_tailOwed {a} (h : s.Canon) : (s.tailOwed a).2.Canon := by
  unfold State.tailOwed
  split
  · exact canon_snd_ite h (canon_snd_ite (canon_ringFill (canon_ringCheck h)) (canon_ringCheck h))
  · exact h

theorem canon_updNum {f num g} (h : s.Canon) : (s.updNum f num g).Canon := canon_updFen h

theorem canon_redDone {anns g} (h : s.Canon) : (s.redDone anns g).Canon := canon_foldl h fun _ _ h => canon_updNum h

theorem canon_redAbandon {k r cyc} (h : s.Canon) : (s.redAbandon k r cyc).Canon := canon_redDone h

theorem canon_redGiveUp {a} (h : s.Canon) : (s.redGiveUp a).Canon := by
  unfold State.redGiveUp
  split
  · refine canon_ite h ?_
    split
    · exact h
    · split
      · exact h
      · exact canon_ite h (canon_redAbandon h)
  · exact h

theorem canon_targetLost {t a} (h : t.Canon) : (s.targetLost t a).Canon :=
  canon_dropCmd (canon_redGiveUp (canon_orStatus (canon_faultEnd h)))

theorem canon_report {a} (h : s.Canon) : (s.report a).Canon := by
  unfold State.report
  dsimp only
  split
  · exact canon_updCmd h
  · exact canon_ite (onSome_some ‹_› (canon_ctPhys h) :) (canon_updCmd (canon_notify (onSome_some ‹_› (canon_ctPhys h) :)))
  · exact (onSome_some ‹_› (canon_ctPhys h) :)
  · exact canon_targetLost (onSome_some ‹_› (canon_ctPhys h) :)

theorem canon_execCmdComplete (h : s.Canon) : (execCmdComplete s).Canon := by
  unfold execCmdComplete
  split
  · exact h
  · refine Out.canon_ite h ?_
    refine Out.canon_ite (canon_report h) ?_
    dsimp only
    split
    · exact canon_dropCmd (canon_redGiveUp (canon_orStatus (canon_tailOwed (canon_takeRetry h))))
    · exact Out.canon_ite (onSome_some ‹_› (canon_ctPhys h) :) (canon_dropCmd (canon_redGiveUp (canon_updCore (canon_notify
        (canon_orStatus (canon_tailOwed (canon_takeRetry (onSome_some ‹_› (canon_ctPhys h) :))))))))
    · exact (onSome_some ‹_› (canon_ctPhys h) :)
    · exact canon_targetLost (onSome_some ‹_› (canon_ctPhys h) :)

theorem canon_runCmd {work} (h : s.Canon) (hk : ∀ a s, s.Canon → (work a s).Canon) : (runCmd s work).Canon := by
  unfold runCmd
  split
  · exact h
  · refine Out.canon_ite h ?_
    refine Out.canon_ite (canon_report h) ?_
    dsimp only
    split
    · exact canon_updCmd (canon_takeRetry (Res.canon_ok ‹_› (hk _ _ (canon_updCmd h))))
    · exact Res.canon_wait ‹_› (hk _ _ (canon_updCmd h))
    · exact canon_faultEnd (Res.canon_fault ‹_› (hk _ _ (canon_updCmd h)))

/-! ## Packets on their way (Machine/Route.lean) -/

theorem canon_arrive {p} (h : s.Canon) : OnSome State.Canon (s.arrive p).1 ∧ (s.arrive p).2.Canon := by
  unfold State.arrive
  split
  · exact ⟨h, h⟩
  · exact ⟨h, h⟩
  · split
    · exact ⟨trivial, h⟩
    · split
      · exact ⟨trivial, Res.canon_wait ‹_› (canon_writable h)⟩
      · exact ⟨trivial, Res.canon_fault ‹_› (canon_writable h)⟩
      · have h := Res.canon_ok ‹_› (canon_writable h)
        split
        · exact ⟨trivial, h⟩
        · exact ⟨canon_landWrite h, h⟩

theorem canon_routerTurn {a out} (h : s.Canon) : (s.routerTurn a out).Canon := by
  unfold State.routerTurn
  dsimp only
  split
  · exact h
  · refine canon_ite h (canon_ite h ?_)
    split
    next t _ e =>
      have ht : t.Canon := onSome_some (congrArg Prod.fst e) (canon_arrive (by exact h)).1
      exact ht
    next e => exact canon_of_pair_eq e (canon_arrive (by exact h)).2

theorem canon_sendWrite {f x ph va bs} (h : s.Canon) : (s.sendWrite f x ph va bs).Canon := by
  unfold State.sendWrite
  dsimp only
  split
  · exact h
  · exact Res.canon_bind (canon_letIn h) fun _ _ h => h

theorem canon_hostTakes {line on} (h : s.Canon) : (s.hostTakes line on).Canon :=
  canon_ite (canon_ite (canon_updEmt h) h) (canon_updEmt h)

/-! ## Block steps of a control core (Machine/Block.lean) -/

theorem canon_cacheBlock {f va bs} (h : s.Canon) : (s.cacheBlock f va bs).Canon := canon_updCore h

theorem canon_readBlock {f x va need} (h : s.Canon) : (s.readBlock f x va need).Canon :=
  Res.canon_bind (canon_xlateFor h) fun _ _ h => Res.canon_bind (canon_readAt h) fun _ _ h => canon_cacheBlock h

theorem canon_fetchLines {f x va need k} (h : s.Canon) : (s.fetchLines f x va need k).Canon := by
  induction k generalizing s f x va need with
  | zero => exact h
  | succ n ih =>
    unfold State.fetchLines
    refine Res.canon_bind ?_ fun _ _ h => Res.canon_bind (ih h) fun _ _ h => h
    split
    · exact Res.canon_ite h (canon_readBlock h)
    · exact canon_readBlock h

theorem canon_someIdx (h : s.Canon) : s.someIdx.2.Canon := h

theorem canon_trapAt {f cause val blk} (h : s.Canon) : (s.trapAt f cause val blk).Canon := canon_takeTrap (canon_someIdx h)

theorem canon_fetchPart {f x va n need k} (h : s.Canon) (hk : ∀ bs w s, s.Canon → (k bs w s).Canon) :
    (s.fetchPart f x va n need k).Canon := by
  refine canon_ite (canon_trapAt h) ?_
  split
  · exact Res.canon_wait ‹_› (canon_fetchLines h)
  · exact canon_trapAt (Res.canon_fault ‹_› (canon_fetchLines h))
  · exact hk _ _ _ (Res.canon_ok ‹_› (canon_fetchLines h))

theorem canon_execFetchBlock (h : s.Canon) : (execFetchBlock s).Canon := by
  refine canon_onCore h fun f x => canon_ite h (canon_fetchPart h fun b1 st1 s h => canon_ite (canon_takeTrap h) ?_)
  extract_lets more nrv nrix go
  have hgo : ∀ bs st s, State.Canon s → (go bs st s).Canon := by
    intro bs st s h
    unfold go
    dsimp only
    split
    · exact canon_takeTrap h
    · split
      · exact canon_takeTrap h
      · exact canon_updCore h
  clear_value go
  exact canon_ite (hgo _ _ _ h) (canon_fetchPart h fun _ _ _ h => hgo _ _ _ h)

theorem canon_sendEvent {x} (h : s.Canon) : (s.sendEvent x).Canon := h

theorem canon_perform {f x e} (h : s.Canon) : (s.perform f x e).Canon := by
  unfold State.perform
  dsimp only
  split
  · exact Res.canon_bind (Res.canon_ite (canon_sendWrite h) (canon_writeAt h)) fun _ _ h => canon_ite (canon_updCore h) h
  · exact Res.canon_ite h (canon_updMem (canon_landWrite h) fun _ h => Memory.wf_mark h _ _ _)
  · exact canon_updMem h fun _ h => Memory.wf_mark h _ _ _
  · exact Res.canon_ite h (canon_landWrite h)
  · exact canon_ringEff h
  · exact canon_ringEff h
  · exact canon_ringEff h
  · exact Res.canon_ite h (canon_acceptCmd h)
  · exact canon_updFen h
  · exact canon_updCore h
  · exact canon_sendEvent h
  · exact canon_updCore h

theorem canon_performAll {f x l} (h : s.Canon) : (s.performAll f x l).2.Canon := by
  induction l generalizing s f x with
  | nil => exact h
  | cons b l ih =>
    unfold State.performAll
    split
    · exact ih (Res.canon_ok ‹_› (canon_perform h))
    · exact Res.canon_wait ‹_› (canon_perform h)
    · exact ih (canon_passTrap (Res.canon_fault ‹_› (canon_perform h)))

theorem canon_claimQueue {f x p enq wait esz} (h : s.Canon) : (s.claimQueue f x p enq wait esz).Canon := by
  unfold State.claimQueue
  dsimp only
  split
  · exact Res.canon_wait ‹_› (canon_writable h)
  · exact Res.canon_fault ‹_› (canon_writable h)
  · have hw := Res.canon_ok ‹_› (canon_writable h)
    split
    · exact Res.canon_wait ‹_› (canon_charge hw)
    · exact Res.canon_fault ‹_› (canon_charge hw)
    · have hc := Res.canon_ok ‹_› (canon_charge hw)
      split
      · exact canon_qJudge hc
      · exact canon_takeTrap (canon_qJudge hc)
      · exact canon_ite (canon_dropBlock hc)
          (canon_ite (canon_updCore (canon_ite (canon_qWaiter hc) hc)) (canon_updCore hc))

theorem canon_claimAtomic {f x p w} (h : s.Canon) : (s.claimAtomic f x p w).Canon := by
  unfold State.claimAtomic
  dsimp only
  split
  · refine canon_updCore ?_
    refine Res.canon_ok ‹_› ?_
    exact Res.canon_ite (Res.canon_bind (canon_outside h) fun _ _ h => h) (canon_writable h)
  · refine Res.canon_wait ‹_› ?_
    exact Res.canon_ite (Res.canon_bind (canon_outside h) fun _ _ h => h) (canon_writable h)
  · refine canon_takeTrap ?_
    refine Res.canon_fault ‹_› ?_
    exact Res.canon_ite (Res.canon_bind (canon_outside h) fun _ _ h => h) (canon_writable h)

theorem canon_claimBar {f x p} (h : s.Canon) : (s.claimBar f x p).Canon := by
  unfold State.claimBar
  split
  · exact Res.canon_wait ‹_› (canon_charge h)
  · exact Res.canon_fault ‹_› (canon_charge h)
  · exact canon_ite (canon_updCore (Res.canon_ok ‹_› (canon_charge h))) (canon_takeTrap (Res.canon_ok ‹_› (canon_charge h)))

theorem canon_claim {f x p i} (h : s.Canon) : (s.claim f x p i).Canon := by
  unfold State.claim
  split
  · exact canon_updCore h
  · exact canon_claimBar h
  · exact canon_claimBar h
  · exact canon_claimQueue h
  · exact canon_claimQueue h
  · exact canon_claimQueue h
  · exact canon_claimQueue h
  · exact canon_claimQueue h
  · split
    · exact canon_updCore (Res.canon_ok ‹_› (Res.canon_bind (canon_writable h) fun _ _ h => canon_charge h))
    · exact Res.canon_wait ‹_› (Res.canon_bind (canon_writable h) fun _ _ h => canon_charge h)
    · exact Res.canon_fault ‹_› (Res.canon_bind (canon_writable h) fun _ _ h => canon_charge h)
  · exact canon_claimAtomic h
  · exact canon_claimAtomic h
  · exact canon_claimAtomic h
  · exact canon_claimAtomic h
  · exact canon_claimAtomic h
  · exact canon_claimAtomic h
  · exact canon_claimAtomic h
  · exact canon_claimAtomic h
  · exact canon_claimAtomic h
  · exact canon_claimAtomic h
  · exact h

theorem canon_execGrant (h : s.Canon) : (execGrant s).Canon := by
  refine canon_onCore h fun _ _ => ?_
  refine canon_ite (canon_updCore (canon_performAll h)) ?_
  refine canon_ite ?_ h
  split
  · split
    · exact canon_ite h (canon_claim h)
    · exact h
  · exact h

theorem canon_execClaimRetry (h : s.Canon) : (execClaimRetry s).Canon := canon_onCore h fun _ _ => canon_ite (canon_updCore h) h

theorem canon_execQueueWake {quad} (h : s.Canon) : (execQueueWake quad s).Canon := by
  unfold execQueueWake
  split <;> exact h

theorem canon_endCommit {f x} (h : s.Canon) : (s.endCommit f x).Canon := by
  refine canon_ite (canon_updCore (canon_updFen h)) ?_
  refine canon_ite ?_ (canon_ite (canon_ite (canon_takeTrap (canon_updFen h)) (canon_trapAt (canon_updFen h))) (canon_ite
    (canon_ite (canon_takeTrap (canon_updFen h)) (canon_trapAt (canon_updFen h))) (canon_updFen h)))
  dsimp only
  split
  · exact canon_terminate (canon_updCore (canon_updFen h))
  · exact canon_updCore (canon_updFen h)

theorem canon_execCommit (h : s.Canon) : (execCommit s).Canon := by
  refine canon_onCore h fun _ _ => ?_
  refine canon_ite h ?_
  refine canon_ite h ?_
  refine canon_ite h ?_
  refine canon_ite h ?_
  dsimp only
  split
  · exact canon_ite (canon_endCommit (canon_updCore (canon_performAll (canon_updCore h)))) (canon_updCore (canon_performAll
      (canon_updCore h)))
  · exact canon_updCore (canon_performAll (canon_updCore h))

theorem canon_execTakeNodeTrap (h : s.Canon) : (execTakeNodeTrap s).Canon := by
  refine canon_onCore h fun _ _ => ?_
  split
  · exact canon_ite h (canon_enterTrap (canon_someIdx (canon_updCore h)))
  · exact h

theorem canon_execWfeTimeout (h : s.Canon) : (execWfeTimeout s).Canon := by
  refine canon_onCore h fun _ _ => ?_
  split
  · exact canon_ite (canon_updCore h) h
  · exact h

/-! ## Bring-up, power and cooling (Machine/Boot.lean) -/

theorem canon_execBringUp (h : s.Canon) : (execBringUp s).Canon := h

theorem canon_execCxlLinkTrained (h : s.Canon) : (execCxlLinkTrained s).Canon := Out.canon_ite h h

theorem canon_execPowerWindow {watts} (h : s.Canon) : (execPowerWindow watts s).Canon := canon_updDev h

theorem canon_execThermalThrottle {tj} (h : s.Canon) : (execThermalThrottle tj s).Canon := canon_updDev h

theorem canon_execThermalTrip {tj} (h : s.Canon) : (execThermalTrip tj s).Canon := h

/-! ## Configuration images (Machine/Image.lean) -/

theorem canon_imgStep {x rq va img} (h : s.Canon) : (s.imgStep x rq va img).Canon := by
  unfold State.imgStep
  split
  · exact h
  · split
    · extract_lets a k r
      have hr : r.Canon := Res.canon_ite (canon_meetFault h) (Res.canon_bind (canon_xlateFor h) fun _ _ h => canon_readAt h)
      clear_value r
      cases r with
      | ok b s => exact hr
      | wait s => exact hr
      | fault y s => exact hr
    · split
      · exact h
      · exact rfl

theorem canon_execCfgld {rd ra rb} (h : s.Canon) : (execCfgld rd ra rb s).Canon := by
  refine canon_onCore h fun _ _ => canon_ite (canon_abortTrap h) (canon_ite (canon_abortTrap h) (canon_ite (canon_updCore h)
    (canon_ite (canon_updCore h) ?_)))
  split
  · exact canon_updCore (ImgStep.canon_more ‹_› (canon_imgStep h))
  · exact ImgStep.canon_wait ‹_› (canon_imgStep h)
  · exact canon_updCore (ImgStep.canon_refused ‹_› (canon_imgStep h))
  · exact canon_updCore (canon_updCore h)

/-! ## Commands that move data (Machine/Copy.lean) -/

theorem canon_engIssue {a k va n} (h : s.Canon) : (s.engIssue a k va n).Canon :=
  Res.canon_ite (canon_meetFault h) (Res.canon_bind (canon_xlateFor h) fun _ _ h => canon_readAt h)

theorem canon_engRead {a k va n} (h : s.Canon) : (s.engRead a k va n).Canon := by
  unfold State.engRead
  split
  · exact canon_engIssue h
  · split
    · exact canon_deliver h
    · exact canon_readAt h
    · exact canon_engIssue h

theorem canon_readAhead {a l l2} (h : s.Canon) : (s.readAhead a l l2).Canon := by
  induction l2 generalizing s a l with
  | nil => exact h
  | cons p l2 ih =>
    have hx : Res.Canon (match (a.c.issuedRead p.k p.va).bind Ahead.home with
        | some ph => Res.ok ph s
        | none => s.xlateFor a.x (a.req p.k) .read p.va) := by
      split
      · exact h
      · exact canon_xlateFor h
    unfold State.readAhead
    refine canon_ite (ih h) (canon_ite (ih (canon_askFor h)) (canon_ite (ih h) ?_))
    split
    · exact ih (Res.canon_wait ‹_› hx)
    · exact canon_faultEnd (Res.canon_fault ‹_› hx)
    · have hs := Res.canon_ok ‹_› hx
      refine canon_ite (ih (canon_updCmd hs)) ?_
      split
      · exact ih (Res.canon_wait ‹_› (canon_readAt (canon_updCmd hs)))
      · exact canon_faultEnd (Res.canon_fault ‹_› (canon_readAt (canon_updCmd hs)))
      · exact canon_updCmd (Res.canon_ok ‹_› (canon_readAt (canon_updCmd hs)))

theorem canon_windowed {a rd wr lo hi lim reads} {r : Res Cmd} (h : r.Canon) : (windowed a rd wr lo hi lim reads r).Canon := by
  cases r with
  | ok c s => exact h
  | wait s => exact canon_readAhead h
  | fault x s => exact h

theorem canon_tokensAhead {a t n step lim ix} {r : Res Cmd} (h : r.Canon) : (tokensAhead a t n step lim ix r).Canon := by
  cases r with
  | ok c s => exact h
  | wait s => exact Res.canon_ite h (canon_foldl h fun _ _ h => canon_askFor h)
  | fault x s => exact h

theorem canon_remark {ph z k l} (h : s.Canon) : (s.remark ph z k l).Canon := by
  induction k generalizing s ph z l with
  | zero => exact h
  | succ n ih =>
    unfold State.remark
    exact ih (canon_ite (canon_markPoison h) h)

theorem canon_engWriteRun {a k va z n data} (h : s.Canon) : (s.engWriteRun a k va z n data).Canon :=
  Res.canon_ite (canon_meetFault h) (Res.canon_bind (canon_xlateFor h) fun _ _ h => Res.canon_bind (canon_writeAt h) fun _ _ h
    => canon_remark h)

theorem canon_landScratch {t o bs bad} (h : s.Canon) : (s.landScratch t o bs bad).Canon :=
  canon_updMem (canon_ite (canon_markPoison (canon_updMem h fun _ h => Memory.wf_putN h _ _)) (canon_updMem h fun _ h =>
    Memory.wf_putN h _ _)) fun _ h => Memory.wf_mark h _ _ _

theorem canon_windowRead {a w t o n d rm sat} (h : s.Canon) : (s.windowRead a w t o n d rm sat).Canon :=
  Res.canon_ite h (Res.canon_bind (canon_engRead h) fun _ _ h => h)

theorem canon_ringGate {a hd k} (h : s.Canon) (hk : ∀ s, s.Canon → (k s).Canon) : (ringGate a s hd k).Canon :=
  Res.canon_ite (hk _ (canon_ringCheck h)) (canon_ringCheck h)

theorem canon_execCopy {n src rm sat dst o2 o1 o0} (h : s.Canon) : (execCopy n src rm sat dst o2 o1 o0 s).Canon := by
  unfold execCopy
  refine canon_runCmd h fun a s h => ?_
  dsimp only
  split
  · exact h
  · refine canon_windowed ?_
    split
    · exact Res.canon_bind (canon_windowRead h) fun _ _ h => h
    · exact Res.canon_bind (canon_engWriteRun h) fun _ _ h => h

theorem canon_token {a n t ix k} (h : s.Canon) (hk : ∀ c bs s, s.Canon → (k c bs s).Canon) : (s.token a n t ix k).Canon :=
  Res.canon_ite (hk _ _ _ h) (Res.canon_ite (Res.canon_bind (canon_engRead h) fun _ _ h => h) (hk _ _ _ h))

theorem canon_fillSlot {a hd c o bs bad} (h : s.Canon) : (s.fillSlot a hd c o bs bad).1.Canon := canon_landScratch h

theorem canon_execCopyr {a ring rm sat a2 o2 o1 o0} (h : s.Canon) : (execCopyr a ring rm sat a2 o2 o1 o0 s).Canon :=
  canon_runCmd h fun _ _ h => Res.canon_ite (canon_ringGate h fun _ h => h) (Res.canon_ite h (Res.canon_ite (Res.canon_ite
    (canon_windowed (Res.canon_bind (canon_windowRead h) fun _ _ h => canon_fillSlot h)) (Res.canon_ite (canon_fillSlot h)
    (canon_tokensAhead (canon_token h fun _ _ _ h => canon_fillSlot h)))) (canon_fillSlot h)))

theorem canon_scratchElems {rq t o z k} (h : s.Canon) : (s.scratchElems rq t o z k).2.2.Canon := by
  induction k generalizing s rq t o z with
  | zero => exact h
  | succ n ih =>
    unfold State.scratchElems
    exact ih (canon_readScratch h)

theorem canon_execCopyx {a ring rm sat a2 o2 o1 o0} (h : s.Canon) : (execCopyx a ring rm sat a2 o2 o1 o0 s).Canon :=
  canon_runCmd h fun _ _ h => Res.canon_ite (canon_ringGate h fun _ h => h) (Res.canon_ite (Res.canon_ite h (Res.canon_ite
    (canon_scratchElems h) (canon_ringGate (canon_scratchElems h) fun _ h => canon_ringAdvance h))) (Res.canon_ite h
    (Res.canon_bind (canon_engWriteRun h) fun _ _ h => h)))

theorem canon_execCopyred {a a2 rm sat a3 op o1 o0} (h : s.Canon) : (execCopyred a a2 rm sat a3 op o1 o0 s).Canon :=
  canon_runCmd h fun _ _ h => Res.canon_ite h (canon_windowed (Res.canon_ite (Res.canon_bind (canon_windowRead h) fun _ _ h =>
    h) (Res.canon_ite (canon_meetFault h) (Res.canon_bind (canon_xlateFor h) fun _ _ h => Res.canon_ite (canon_meetFault h)
    (Res.canon_bind (canon_rmwAt h) fun _ _ h => canon_ite (canon_markPoison h) h)))))

theorem canon_readIndex {a d io n32 k} (h : s.Canon) : (s.readIndex a d io n32 k).2.2.Canon := canon_readScratch h

theorem canon_landGranule {t o z data} (h : s.Canon) : (s.landGranule t o z data).Canon := canon_remark (canon_landScratch h)

theorem canon_execGather {a a2 desig rofs iofs nm1 n32} (h : s.Canon) : (execGather a a2 desig rofs iofs nm1 n32 s).Canon :=
  canon_runCmd h fun _ _ h => Res.canon_ite h (Res.canon_ite (canon_readIndex h) (Res.canon_ite (Res.canon_ite (canon_windowed
    (Res.canon_bind (canon_engRead h) fun _ _ h => h)) (canon_tokensAhead (canon_token h fun _ _ _ h => h))) (Res.canon_ite
    (canon_landGranule h) (canon_landGranule h))))

theorem canon_execScatter {n th desig rofs iofs nm1 n32} (h : s.Canon) :
    (execScatter n th desig rofs iofs nm1 n32 s).Canon := by
  unfold execScatter
  refine canon_runCmd h fun a s h => ?_
  dsimp only
  split
  · exact h
  · split
    · split
      · exact canon_readIndex h
      · exact canon_readIndex h
    · split
      · exact h
      · split
        · exact canon_scratchElems h
        · exact Res.canon_bind (canon_engWriteRun h) fun _ _ h => h

theorem canon_execFill {a a2 scr desig ofs val} (h : s.Canon) : (execFill a a2 scr desig ofs val s).Canon :=
  canon_runCmd h fun _ _ h => Res.canon_ite (Res.canon_ite h (canon_landScratch h)) (Res.canon_ite h (Res.canon_bind
    (canon_engWriteRun h) fun _ _ h => h))

theorem canon_execAgload {a nm1 addr} (h : s.Canon) : (execAgload a nm1 addr s).Canon :=
  canon_runCmd h fun _ _ h => Res.canon_ite h (Res.canon_ite (canon_windowed (Res.canon_bind (canon_engRead h) fun _ _ h => h))
    (canon_updFen h))

theorem canon_lineTurn {act} (h : s.Canon) (hk : ∀ a i ph s, s.Canon → (act a i ph s).Canon) : (lineTurn s act).Canon := by
  refine canon_runCmd h fun _ _ h => ?_
  refine Res.canon_ite h ?_
  dsimp only
  split
  · exact h
  · exact Res.canon_bind (hk _ _ _ _ h) fun _ _ h => h

theorem canon_execPref {a a2} (h : s.Canon) : (execPref a a2 s).Canon := canon_lineTurn h fun _ _ _ _ h => canon_present h

theorem canon_execInval {a a2} (h : s.Canon) : (execInval a a2 s).Canon :=
  canon_lineTurn h fun _ _ _ _ h => Res.canon_ite h (canon_updCore (canon_updEmt h))

theorem canon_execFlush {a a2} (h : s.Canon) : (execFlush a a2 s).Canon :=
  canon_lineTurn h fun _ _ _ _ h => Res.canon_ite h (canon_updEmt h)

/-! ## Launch records (Machine/Launch.lean) -/

theorem canon_acceptLaunch {r asid fn part ctx src} (h : s.Canon) : (s.acceptLaunch r asid fn part ctx src).Canon := h

theorem canon_depDecrement {die asid name by'} (h : s.Canon) : OnSome (fun t => t.2.Canon) (s.depDecrement die asid name by') :=
    by
  unfold State.depDecrement
  split
  · exact trivial
  · exact h

theorem canon_successor {die asid fn name} (h : s.Canon) : (s.successor die asid fn name).Canon := by
  unfold State.successor
  split
  · exact (onSome_some ‹_› (canon_depDecrement h) :)
  · split
    · exact h
    · exact canon_ite h (canon_errorRecord h)

/-! ## Commands on objects and Mere commands (Machine/Mere.lean) -/

theorem canon_meetPieces {rq l} (h : s.Canon) : (s.meetPieces rq l).2.Canon := by
  induction l generalizing s rq with
  | nil => exact h
  | cons b l ih =>
    unfold State.meetPieces
    exact ih (canon_meetMarks h)

theorem canon_qEngine {a ph tl enq elem} (h : s.Canon) : (s.qEngine a ph tl enq elem).2.Canon :=
  canon_foldl (canon_qMove (canon_meetPieces h)) fun _ _ h => canon_ite (canon_markPoison h) h

theorem canon_queueTurn {a hd nm1 q enq ready move} (h : s.Canon) (hk : ∀ d ph s, s.Canon → (move d ph s).Canon) :
    (queueTurn a s hd nm1 q enq ready move).Canon := by
  refine Res.canon_ite h ?_
  refine Res.canon_ite (Res.canon_bind (canon_xlateQcb h) fun _ _ h => Res.canon_ite h (Res.canon_bind (canon_present h) fun _ _
    h => Res.canon_bind (canon_unsnooped h) fun _ _ h => Res.canon_bind (canon_charge h) fun _ _ h => h)) ?_
  refine Res.canon_ite h ?_
  refine canon_ringGate h fun _ h => ?_
  refine Res.canon_ite h ?_
  refine Res.canon_bind (canon_xlateQcb h) fun _ _ h => ?_
  refine Res.canon_ite h ?_
  refine Res.canon_bind (canon_present h) fun _ _ h => ?_
  refine Res.canon_bind (canon_unsnooped h) fun _ _ h => ?_
  refine Res.canon_bind (canon_charge h) fun _ _ h => ?_
  dsimp only
  split
  · exact canon_qJudge h
  · exact canon_qJudge h
  · exact Res.canon_ite h (Res.canon_ite (Res.canon_ite (canon_qWaiter h) h) (Res.canon_bind (Res.canon_bind (Res.canon_ite
      (canon_unsnooped h) h) fun _ _ h => hk _ _ _ h) fun _ _ h => h))

theorem canon_execQput {a nm1 ring q} (h : s.Canon) : (execQput a nm1 ring q s).Canon :=
  canon_runCmd h fun _ _ h => canon_queueTurn h fun _ _ _ h => canon_updFen (canon_ringAdvance (canon_qEngine h))

theorem canon_execQget {a nm1 ring q} (h : s.Canon) : (execQget a nm1 ring q s).Canon :=
  canon_runCmd h fun _ _ h => canon_queueTurn h fun _ _ _ h => canon_ringFill (canon_landScratch (canon_qEngine h))

theorem canon_merePages {a l} (h : s.Canon) : (s.merePages a l).Canon := by
  induction l generalizing s a with
  | nil => exact h
  | cons b l ih =>
    unfold State.merePages
    exact Res.canon_ite (canon_meetFault h) (Res.canon_bind (canon_xlateFor h) fun _ _ h => Res.canon_ite (canon_meetFault h)
      (Res.canon_bind (ih h) fun _ _ h => h))

theorem canon_redTime {key tag} (h : s.Canon) : (s.redTime key tag).Canon := by
  unfold State.redTime
  split
  · exact h
  · exact canon_ite h (canon_ite h (canon_ite h (canon_redAbandon h)))

theorem canon_announce {a n key tag tmo} (h : s.Canon) : (s.announce a n key tag tmo).Canon := by
  unfold State.announce
  dsimp only
  split
  · exact Res.canon_ite (canon_redTime (canon_redTime h)) (Res.canon_ite (canon_redTime (canon_redTime h)) (canon_redAbandon
      (canon_redTime (canon_redTime h))))
  · exact Res.canon_ite (canon_redTime (canon_redTime h)) (canon_redTime (canon_redTime h))

theorem canon_execMred {a a2 rm sat op desig sofs idx nm1 tag tmo} (h : s.Canon) :
    (execMred a a2 rm sat op desig sofs idx nm1 tag tmo s).Canon :=
  canon_runCmd h fun _ _ h => Res.canon_ite h (Res.canon_bind (canon_merePages h) fun _ _ h => canon_announce h)

theorem canon_landPages {bs l} (h : s.Canon) : (s.landPages bs l).Canon := by
  induction l generalizing s bs with
  | nil => exact h
  | cons b l ih =>
    unfold State.landPages
    exact ih (canon_landWrite h)

theorem canon_redRead {i r a0 n x p c} (h : s.Canon) : (s.redRead i r a0 n x p c).Canon :=
  canon_ite (canon_redAbandon (canon_meetMarks h)) (canon_meetMarks h)

theorem canon_execMredCombine {key tag} (h : s.Canon) : (execMredCombine key tag s).Canon := by
  unfold execMredCombine
  split
  · exact h
  · split
    · exact h
    · refine Out.canon_ite h ?_
      refine Out.canon_ite (canon_redAbandon h) ?_
      refine Out.canon_ite (canon_ite h h) ?_
      split
      · exact canon_ite h (canon_redRead h)
      · exact Out.canon_ite h (canon_redDone (canon_landPages h))

theorem canon_execMredTimeout {key tag} (h : s.Canon) : (execMredTimeout key tag s).Canon := canon_redTime h

theorem canon_execAbandonedInstanceEnd {key tag} (h : s.Canon) : (execAbandonedInstanceEnd key tag s).Canon := canon_redTime h

theorem canon_mereAt {a k va} (h : s.Canon) : (s.mereAt a k va).Canon :=
  Res.canon_ite (canon_meetFault h) (Res.canon_bind (canon_xlateFor h) fun _ _ h => Res.canon_ite h (canon_meetFault h))

theorem canon_execMatom {a a2 op desig sofs ret rofs a3} (h : s.Canon) : (execMatom a a2 op desig sofs ret rofs a3 s).Canon :=
  canon_runCmd h fun _ _ h => Res.canon_ite (canon_ite (canon_updMem h fun _ h => Memory.wf_mark h _ _ _) h) (Res.canon_bind
    (canon_mereAt h) fun _ _ h => Res.canon_bind (canon_rmwAt h) fun _ _ h => canon_ite (canon_landScratch (canon_ite
    (canon_markPoison (canon_readScratch h)) (canon_readScratch h))) (canon_ite (canon_markPoison (canon_readScratch h))
    (canon_readScratch h)))

theorem canon_execMaxpy {a a2 rm sat desig xofs av} (h : s.Canon) : (execMaxpy a a2 rm sat desig xofs av s).Canon :=
  canon_runCmd h fun _ _ h => Res.canon_ite h (Res.canon_ite (canon_scratchElems h) (Res.canon_bind (canon_mereAt h) fun _ _ h
    => Res.canon_bind (canon_rmwAt h) fun _ _ h => canon_remark h))

/-! ## Phases of a fen (Machine/Fc.lean) -/

theorem canon_updHts {g} (h : s.Canon) : (s.updHts g).Canon := h

theorem canon_unstick {die part} (h : s.Canon) : (s.unstick die part).Canon := canon_updHts h

theorem canon_execDepdec {a die amount name} (h : s.Canon) : (execDepdec a die amount name s).Canon := by
  refine canon_runCmd h fun _ _ h => ?_
  split
  · exact h
  · exact (onSome_some ‹_› (canon_depDecrement h) :)

theorem canon_execThresh {a score} (h : s.Canon) : (execThresh a score s).Canon :=
  canon_runCmd h fun _ _ h => Res.canon_ite h (canon_updFen h)

theorem canon_execLaunch {a addr} (h : s.Canon) : (execLaunch a addr s).Canon :=
  canon_runCmd h fun _ _ h => Res.canon_ite h (Res.canon_ite (Res.canon_bind (canon_engRead h) fun _ _ h => h) (Res.canon_ite h
    h))

theorem canon_execLaunchAccept {k} (h : s.Canon) : (execLaunchAccept k s).Canon := by
  unfold execLaunchAccept
  split
  · exact h
  · split
    · exact h
    · exact Out.canon_ite h (Out.canon_ite (canon_updNum h) (Out.canon_ite h (canon_updNum (canon_acceptLaunch h))))

theorem canon_execMswitch {a m now} (h : s.Canon) : (execMswitch a m now s).Canon :=
  canon_runCmd h fun _ _ h => Res.canon_ite h (Res.canon_ite h (Res.canon_ite (canon_updFen h) (Res.canon_ite h (canon_updFen
    h))))

/-! ## The firing of nodes (Machine/Fire.lean) -/

theorem canon_updNode {f k g} (h : s.Canon) : (s.updNode f k g).Canon := canon_updFen h

theorem canon_settle {f} (h : s.Canon) : (s.settle f).Canon := canon_updFen h

theorem canon_ringUse {a hd} (h : s.Canon) : (s.ringUse a hd).2.Canon := canon_ringCheck h

theorem canon_ringFaults {t a} (h : s.Canon) : (s.ringFaults t a).Canon :=
  canon_foldl h fun _ _ h => canon_ite (canon_ringUse h) h

theorem canon_useSlot {a j hd} (h : s.Canon) : (s.useSlot a j hd).Canon :=
  canon_ite (canon_ringAdvance (canon_updNode h)) (canon_updNode h)

theorem canon_take {a j} (h : s.Canon) : (s.take a j).2.Canon := by
  unfold State.take
  split
  · exact canon_snd_ite (canon_ringUse h) (canon_snd_ite (canon_useSlot (canon_meetMarks h)) (canon_updNode (canon_meetMarks
      h)))
  · exact canon_updNode h
  · exact canon_updNode h
  · exact canon_updNode h
  · exact h

theorem canon_takeAll {a l} (h : s.Canon) : (s.takeAll a l).2.Canon := by
  induction l generalizing s a with
  | nil => exact h
  | cons b l ih =>
    unfold State.takeAll
    exact ih (canon_take h)

theorem canon_takeGuard {a} (h : s.Canon) : (s.takeGuard a).Canon := by
  unfold State.takeGuard
  split
  · exact h
  · exact canon_updNode h

theorem canon_intoSlot {t o bs bad} (h : s.Canon) : (s.intoSlot t o bs bad).Canon :=
  canon_ite (canon_markPoison (canon_writeScratch h)) (canon_writeScratch h)

theorem canon_closeSlot {a p hd b} (h : s.Canon) : (s.closeSlot a p hd b).Canon :=
  canon_ite (canon_ringFill (canon_ringCheck (canon_updNode (canon_intoSlot h)))) (canon_ringCheck (canon_updNode
    (canon_intoSlot h)))

theorem canon_put {a p b} (h : s.Canon) : (s.put a p b).Canon := by
  unfold State.put
  split
  · exact h
  · exact h
  · exact canon_ite h (canon_ite (canon_ringUse h) (canon_ite (canon_closeSlot (canon_intoSlot h)) (canon_updNode
      (canon_intoSlot h))))
  · exact canon_updNode h

theorem canon_drainOwe {a k} (h : s.Canon) : (s.drainOwe a k).Canon := by
  induction k generalizing s a with
  | zero => exact h
  | succ n ih =>
    unfold State.drainOwe
    split
    · exact h
    · split
      · exact h
      · exact canon_ite h (ih (canon_put (canon_updNode h)))

theorem canon_nodeSt {a st} (h : s.Canon) : (s.nodeSt a st).Canon := canon_updNode h

theorem canon_nodeStatus {a w} (h : s.Canon) : (s.nodeStatus a w).Canon := canon_updNode (canon_orStatus h)

theorem canon_nodeTrap {a reason} (h : s.Canon) : (s.nodeTrap a reason).Canon := canon_passTrap (canon_updNode h)

theorem canon_fire {a v st} (h : s.Canon) : (s.fire a v st).Canon :=
  canon_drainOwe (canon_nodeSt (canon_ite (canon_updNode (canon_ite (canon_takeGuard (canon_takeAll h)) (canon_takeAll h)))
    (canon_nodeStatus (canon_updNode (canon_ite (canon_takeGuard (canon_takeAll h)) (canon_takeAll h))))))

theorem canon_runNode {work} (h : s.Canon) (hk : ∀ a s, s.Canon → (work a s).Canon) : (runNode s work).Canon := by
  unfold runNode
  split
  · exact h
  · exact Out.canon_ite h (Out.canon_ite (canon_settle (canon_ringFaults h))
      (canon_settle (canon_ite (canon_drainOwe (canon_nodeSt h)) (hk _ _ h))))

theorem canon_dataTurn {ins toks data ctl a} (h : s.Canon) : (dataTurn ins toks data ctl a s).Canon := by
  unfold dataTurn
  split
  · exact canon_nodeSt h
  · exact canon_nodeTrap h
  · exact canon_ite (canon_nodeSt h) (canon_fire h)
  · dsimp only
    split
    · exact canon_nodeSt h
    · exact canon_ite (canon_nodeSt h) (canon_ite (canon_nodeSt h) (canon_ite (canon_fire h) (canon_fire h)))

theorem canon_sendKey {a p key} (h : s.Canon) : (s.sendKey a p key).Canon := by
  unfold State.sendKey
  split
  · exact h
  · exact canon_ite h (canon_updFen (canon_updNode h))

theorem canon_readThr {a} (h : s.Canon) : (s.readThr a).2.Canon := canon_updNode h

/-! ## Vector nodes (Machine/Vector.lean) -/

theorem canon_elementNode {n arity g} (h : s.Canon) : (elementNode n arity g s).Canon :=
  canon_runNode h fun _ _ h => canon_dataTurn h

theorem canon_execSel {n} (h : s.Canon) : (execSel n s).Canon :=
  canon_runNode h fun _ _ h => canon_ite (canon_dataTurn h) (canon_dataTurn h)

/-! ## Matrix nodes (Machine/Matrix.lean) -/

theorem canon_tileIn {a j} (h : s.Canon) : (s.tileIn a j).2.2.Canon := by
  unfold State.tileIn
  dsimp only
  split
  · exact canon_meetMarks h
  · exact h

theorem canon_useIn {a j} (h : s.Canon) : (s.useIn a j).Canon := by
  unfold State.useIn
  split
  · exact canon_ite (canon_useSlot (canon_ringUse h)) (canon_ringUse h)
  · exact h

theorem canon_popIn {a j} (h : s.Canon) : (s.popIn a j).Canon := by
  unfold State.popIn
  split
  · exact canon_ite (canon_ringAdvance (canon_ringUse h)) (canon_ringUse h)
  · exact h

theorem canon_parityMet {a} (h : s.Canon) : (s.parityMet a).Canon := canon_ite h (canon_updNode (canon_eatPoison h))

theorem canon_tileOut {a p z els bad} (h : s.Canon) : (s.tileOut a p z els bad).Canon := by
  unfold State.tileOut
  dsimp only
  split
  · exact canon_ite (canon_ringUse (canon_parityMet h)) (canon_closeSlot (canon_intoSlot (canon_ringUse (canon_parityMet h))))
  · exact h

theorem canon_matrixDone {a m resid count trap} (h : s.Canon) : (s.matrixDone a m resid count trap).Canon := by
  unfold State.matrixDone
  split
  · exact h
  · exact canon_updNode (canon_ite (canon_writeScratch h) h)

theorem canon_deliverBar {a m} (h : s.Canon) : (s.deliverBar a m).Canon := by
  unfold State.deliverBar
  extract_lets va rq r
  have hr : r.Canon := Res.canon_bind (Res.canon_ite (canon_meetFault h) (canon_xlateFor h)) fun _ _ h =>
    Res.canon_ite h (canon_meetFault h)
  clear_value r
  cases r with
  | ok ph s => exact canon_ite hr (canon_updNode (canon_notify hr))
  | wait s => exact hr
  | fault _ t => exact canon_faultEnd hr

theorem canon_matrixTurn {m ins uses work a} (h : s.Canon) (hk : ∀ a s, s.Canon → (work a s).Canon) :
    (matrixTurn m ins uses work a s).Canon :=
  canon_ite (canon_deliverBar h) (canon_ite (canon_nodeTrap (canon_updNode h)) (canon_ite (hk _ _ h) (canon_ite (canon_nodeSt h)
    (canon_ite (canon_nodeSt h) (canon_ite (canon_nodeSt (canon_foldl (canon_takeGuard h) fun _ _ h => canon_useIn h))
    (canon_nodeSt (hk _ _ (canon_takeGuard h))))))))

theorem canon_execMma {n m km1 cin} (h : s.Canon) : (execMma n m km1 cin s).Canon := by
  refine canon_runNode h fun a _ h => canon_matrixTurn h fun a s h => ?_
  extract_lets ta tb tc fa fb acc flip first old bad r
  have hc : tc.2.2.Canon := by
    unfold tc
    split
    · exact canon_tileIn (canon_tileIn (canon_tileIn h))
    · exact canon_tileIn (canon_tileIn h)
  have hs : State.Canon (if a.readsC cin then tc.2.2.popIn a 2 else tc.2.2) := canon_ite (canon_popIn hc) hc
  clear_value tc r
  exact canon_ite (canon_updNode (canon_nodeStatus (canon_useIn (canon_useIn hs))))
    (canon_matrixDone (canon_updNode (canon_tileOut (canon_nodeStatus (canon_nodeStatus (canon_useIn (canon_useIn hs)))))))

theorem canon_execMtrn {n m} (h : s.Canon) : (execMtrn n m s).Canon :=
  canon_runNode h fun _ _ h => canon_matrixTurn h fun _ _ h => canon_matrixDone (canon_tileOut (canon_nodeStatus (canon_useIn
    (canon_tileIn h))))

theorem canon_loopDone {a m n x y resid count trap} (h : s.Canon) : (s.loopDone a m n x y resid count trap).Canon := by
  refine canon_matrixDone ?_
  refine canon_updNode ?_
  split
  · exact canon_tileOut (canon_nodeStatus h)
  · exact canon_tileOut (canon_nodeStatus (canon_tileOut (canon_nodeStatus h)))

theorem canon_mpolyBegin {a deg} (h : s.Canon) : (s.mpolyBegin a deg).Canon :=
  canon_updNode (canon_nodeStatus (canon_useIn (canon_tileIn h)))

theorem canon_execMpoly {n m deg} (h : s.Canon) : (execMpoly n m deg s).Canon :=
  canon_runNode h fun _ _ h => canon_matrixTurn h fun _ _ h => canon_ite (canon_mpolyBegin h) (canon_ite (canon_loopDone h)
    (canon_updNode (canon_nodeStatus h)))

theorem canon_miterBegin {a var} (h : s.Canon) : (s.miterBegin a var).Canon := by
  refine canon_updNode (canon_nodeStatus (canon_useIn ?_))
  split
  · exact canon_useIn (canon_tileIn (canon_tileIn h))
  · exact canon_tileIn h

theorem canon_execMiter {n m cap tol lim tdiv} (h : s.Canon) : (execMiter n m cap tol lim tdiv s).Canon := by
  refine canon_runNode h fun _ _ h => ?_
  refine canon_matrixTurn h fun _ _ h => ?_
  refine canon_ite (canon_miterBegin h) ?_
  split
  · exact canon_updNode (canon_nodeStatus h)
  · exact canon_ite (canon_loopDone (canon_nodeStatus h)) (canon_updNode (canon_nodeStatus h))

theorem canon_execMsort {n m} (h : s.Canon) : (execMsort n m s).Canon := by
  unfold execMsort
  exact canon_runNode h fun _ _ h => canon_ite (canon_deliverBar h) (canon_ite (canon_matrixDone (canon_updNode h))
    (canon_dataTurn h))

/-! ## Controllers and stream nodes (Machine/Ctrl.lean) -/

theorem canon_updMemOf {a g} (h : s.Canon) : (s.updMemOf a g).Canon := canon_updNode h

theorem canon_activation {a j} (h : s.Canon) : OnSome State.Canon (s.activation a j) := by
  unfold State.activation
  split
  · exact trivial
  · split
    · split
      · exact canon_take h
      · exact trivial
    · split
      · exact trivial
      · exact canon_updMemOf h

theorem canon_exitToken {a v} (h : s.Canon) : (s.exitToken a v).Canon :=
  canon_ite (canon_nodeTrap h) (canon_ite (canon_updMemOf (canon_take h)) (canon_ite (canon_updMemOf (canon_updMemOf (canon_take
    h))) (canon_ite (canon_updMemOf (canon_updMemOf (canon_take h))) (canon_updMemOf (canon_take h)))))

theorem canon_doneToken {a j} (h : s.Canon) : OnSome State.Canon (s.doneToken a j) := by
  unfold State.doneToken
  dsimp only
  split
  · split
    · exact canon_updMemOf (canon_take h)
    · split
      · exact canon_nodeTrap h
      · exact trivial
  · split
    · exact canon_updMemOf (canon_take h)
    · split
      · exact canon_nodeTrap h
      · exact trivial

theorem canon_issueGo {a} (h : s.Canon) : (s.issueGo a).Canon := canon_updMemOf h

theorem canon_loopTurn {count limit a} (h : s.Canon) : (loopTurn count limit a s).Canon := by
  have go : ∀ t : State, t.Canon → ((t.nodeSt a .firing).drainOwe a 8).Canon := fun _ h => canon_drainOwe (canon_nodeSt h)
  unfold loopTurn
  dsimp only
  split
  · exact go _ (canon_exitToken h)
  · split
    · obtain ⟨d, -, hd⟩ := List.exists_of_findSome?_eq_some ‹_›
      split at hd
      · exact go _ (onSome_some hd (canon_doneToken h))
      · cases hd
    · refine canon_ite (go _ (canon_updMemOf h)) (canon_ite (canon_ite (go _ (canon_issueGo h)) (canon_nodeSt h)) ?_)
      refine canon_ite (canon_nodeSt h) ?_
      split
      · exact canon_nodeSt h
      · have h := onSome_some ‹_› (canon_activation h)
        split
        · exact canon_nodeSt (by assumption)
        · exact canon_ite (canon_nodeSt (canon_takeGuard h)) (go _ (canon_updMemOf (canon_takeGuard h)))

theorem canon_steerExited {a} (h : s.Canon) : (steerExited a s).Canon := by
  unfold steerExited
  extract_lets t
  have ht : t.Canon := by
    unfold t
    split
    · exact canon_take h
    · exact h
  clear_value t
  split
  · exact canon_ite (canon_updFen (canon_take ht)) (canon_ite (canon_nodeSt ht) (canon_fire ht))
  · exact canon_updFen (canon_take ht)
  · exact canon_nodeSt ht

theorem canon_execSteer {n} (h : s.Canon) : (execSteer n s).Canon :=
  canon_runNode h fun _ _ h => canon_ite (canon_steerExited h) (canon_dataTurn h)

theorem canon_primeBeat {a take b} (h : s.Canon) : (s.primeBeat a take b).Canon := by
  unfold State.primeBeat
  dsimp only
  split
  · exact canon_nodeSt h
  · exact canon_ite (canon_fire h) (canon_fire h)

theorem canon_execPrime {n nm1} (h : s.Canon) : (execPrime n nm1 s).Canon := by
  refine canon_runNode h fun _ _ h => ?_
  refine canon_ite ?_ ?_
  · refine canon_ite (canon_nodeSt h) ?_
    split
    · exact canon_primeBeat h
    · split
      · exact canon_primeBeat h
      · exact canon_nodeSt h
  · split
    · exact canon_updMemOf (onSome_some ‹_› (canon_activation h) :)
    · exact canon_dataTurn h

theorem canon_endStream {a more e} (h : s.Canon) : (s.endStream a more e).Canon := canon_ite (canon_nodeSt h) (canon_fire h)

theorem canon_execSource {n nbeat endc} (h : s.Canon) : (execSource n nbeat endc s).Canon := by
  refine canon_runNode h fun _ _ h => ?_
  refine canon_ite (canon_ite (canon_endStream h) (canon_dataTurn h)) ?_
  split
  · exact canon_updMemOf (onSome_some ‹_› (canon_activation h) :)
  · exact canon_nodeSt h

theorem canon_execCount {n cnt base step endc} (h : s.Canon) : (execCount n cnt base step endc s).Canon := by
  unfold execCount
  refine canon_runNode h fun _ _ h => ?_
  refine canon_ite ?_ ?_
  · refine canon_ite (canon_endStream h) ?_
    split
    · exact canon_nodeSt h
    · exact canon_ite (canon_nodeSt h) (canon_fire h)
  · split
    · exact canon_updMemOf (onSome_some ‹_› (canon_activation h) :)
    · exact canon_nodeSt h

theorem canon_sinkReport {a} (h : s.Canon) : (s.sinkReport a).Canon := canon_updFen (canon_updMemOf h)

theorem canon_execSink {n ndone} (h : s.Canon) : (execSink n ndone s).Canon :=
  canon_runNode h fun _ _ h => canon_ite (canon_sinkReport h) (canon_dataTurn h)

theorem canon_execSelectToken (h : s.Canon) : (execSelectToken s).Canon := by
  unfold execSelectToken
  split
  · exact h
  · split
    · exact h
    · exact canon_updFen h

theorem canon_execMantleSwitch (h : s.Canon) : (execMantleSwitch s).Canon := by
  unfold execMantleSwitch
  split
  · exact h
  · exact Out.canon_ite (canon_unstick (canon_updFen h)) (canon_updFen h)

/-! ## Slices, freeze, save and restore (Machine/Slice.lean) -/

theorem canon_setMig {fn m} (h : s.Canon) : (s.setMig fn m).Canon := h

theorem canon_migState {fn st} (h : s.Canon) : (s.migState fn st).Canon := canon_message (canon_setMig h)

theorem canon_migStopped {p c} (h : s.Canon) : (s.migStopped p c).Canon :=
  canon_foldl h fun _ _ h => canon_ite (canon_migState h) h

theorem canon_setSlice {z} (h : s.Canon) : (s.setSlice z).Canon := h

theorem canon_updFrz {p c g} (h : s.Canon) : (s.updFrz p c g).Canon := h

theorem canon_freeze {p c next} (h : s.Canon) : (s.freeze p c next).Canon :=
  canon_foldl h fun _ _ h => canon_ite h (canon_dropBlock h)

theorem canon_save {z} (h : s.Canon) : (s.save z).Canon := by
  unfold State.save
  dsimp only
  generalize s.saveImage _ _ _ = img
  generalize s.saveArea _ _ = k
  refine canon_updFrz ?_
  exact Memory.wf_putSpread h k img

theorem canon_execFreezeComplete {part} (h : s.Canon) : (execFreezeComplete part s).Canon := by
  unfold execFreezeComplete
  dsimp only
  split
  · exact h
  · refine Out.canon_ite h ?_
    split
    · exact canon_sendSnoop h
    · exact canon_migStopped (canon_save h)

theorem canon_restoreFens {p c img} (h : s.Canon) : (s.restoreFens p c img).Canon := by
  refine canon_foldl h fun _ _ h => ?_
  split
  · exact canon_updFen h
  · exact h

theorem canon_beginRestore {p z} (h : s.Canon) : (s.beginRestore p z).2.Canon :=
  canon_snd_ite
    (canon_updFrz (canon_restoreFens (canon_updMem h fun _ h =>
      Memory.wf_marksBack (Memory.wf_foldl h fun _ _ h => Memory.wf_restoreTile h) _ _)))
    (canon_foldl h fun _ _ h => canon_errorRecord h)

theorem canon_makeCurrent {p k k2} (h : s.Canon) : (s.makeCurrent p k k2).Canon := by
  induction k generalizing s p k2 with
  | zero => exact h
  | succ n ih =>
    unfold State.makeCurrent
    dsimp only
    split
    · exact canon_foldl (canon_setSlice h) fun _ _ h => canon_unstick h
    · refine canon_ite (canon_foldl (canon_setSlice h) fun _ _ h => canon_unstick h) ?_
      refine canon_ite (canon_beginRestore (canon_foldl (canon_setSlice h) fun _ _ h => canon_unstick h)) ?_
      split
      · exact canon_beginRestore (canon_foldl (canon_setSlice h) fun _ _ h => canon_unstick h)
      · exact ih (canon_beginRestore (canon_foldl (canon_setSlice h) fun _ _ h => canon_unstick h))

theorem canon_wakeSlice {p} (h : s.Canon) : (s.wakeSlice p).Canon := by
  unfold State.wakeSlice
  split
  · exact h
  · dsimp only
    split
    · exact h
    · exact canon_makeCurrent h

theorem canon_execSliceEnd {part} (h : s.Canon) : (execSliceEnd part s).Canon := by
  unfold execSliceEnd
  dsimp only
  split
  · exact canon_wakeSlice h
  · refine Out.canon_ite (canon_wakeSlice h) ?_
    split
    · exact Out.canon_ite (canon_makeCurrent (canon_wakeSlice h)) (canon_setSlice (canon_wakeSlice h))
    · exact Out.canon_ite (canon_freeze (canon_wakeSlice h)) (canon_makeCurrent (canon_wakeSlice h))

theorem canon_execContextSwitch {part} (h : s.Canon) : (execContextSwitch part s).Canon := by
  unfold execContextSwitch
  dsimp only
  split
  · exact h
  · split
    · exact h
    · split
      · exact canon_makeCurrent (canon_updFrz h)
      · exact canon_setSlice (canon_updFrz h)

theorem canon_giveVerdict {sq term} (h : s.Canon) : (s.giveVerdict sq term).Canon := by
  refine canon_ite (canon_foldl h fun _ _ h => canon_unstick h) ?_
  refine canon_foldl (canon_foldl h fun _ _ h => canon_unstick h) fun _ _ h => ?_
  split
  · exact canon_ite h (canon_terminate h)
  · exact h

theorem canon_execRestoreComplete {part} (h : s.Canon) : (execRestoreComplete part s).Canon := by
  unfold execRestoreComplete
  extract_lets p
  split
  · exact h
  · refine Out.canon_ite h ?_
    extract_lets d s1 s2 s3
    have h3 : s3.Canon := by
      refine canon_foldl (canon_foldl h fun _ _ h => canon_updCore h) fun _ _ h => ?_
      split
      · exact canon_giveVerdict h
      · exact h
    clear_value s3
    exact canon_ite (canon_freeze h3) h3

theorem canon_execExternalResponse {k data} (h : s.Canon) : (execExternalResponse k data s).Canon := by
  unfold execExternalResponse
  split
  · exact h
  · exact Out.canon_ite h h

/-! ## Launch, scheduling and placement (Machine/Sched.lean) -/

theorem canon_updLaunch {key g} (h : s.Canon) : (s.updLaunch key g).Canon := canon_updHts h

theorem canon_discard {fn asid why} (h : s.Canon) : (s.discard fn asid why).Canon := canon_errorRecord h

theorem canon_answer {a} (h : s.Canon) : (s.answer a).Canon := canon_updDev h

theorem canon_execQportSubmit {fn size rec} (h : s.Canon) : (execQportSubmit fn size rec s).Canon :=
  Out.canon_ite (canon_answer h) (Out.canon_ite (canon_answer (canon_discard h)) (Out.canon_ite (canon_answer h) (canon_answer
    (canon_updHts h))))

theorem canon_enterInst {part ctx i} (h : s.Canon) : (s.enterInst part ctx i).Canon :=
  canon_wakeSlice (canon_ite (canon_unstick (canon_updHts h)) (canon_updHts h))

theorem canon_sendInst {part ctx i} (h : s.Canon) : (s.sendInst part ctx i).Canon :=
  canon_ite (canon_enterInst h) (canon_updHts h)

theorem canon_distributeOne {l} (h : s.Canon) : (s.distributeOne l).Canon :=
  canon_foldl (canon_updLaunch h) fun _ _ h => canon_ite h (canon_sendInst h)

theorem canon_execDistribute (h : s.Canon) : (execDistribute s).Canon := by
  unfold execDistribute
  split
  · exact canon_enterInst (canon_updHts h)
  · split
    · exact Out.canon_ite (canon_discard (canon_updHts h)) (canon_acceptLaunch (canon_updHts h))
    · split
      · exact canon_distributeOne h
      · exact h

theorem canon_execGroupLaunchInstance {srcMod asid rec} (h : s.Canon) : (execGroupLaunchInstance srcMod asid rec s).Canon :=
  Out.canon_ite (canon_acceptLaunch h) h

theorem canon_launchDone {l} (h : s.Canon) : (s.launchDone l).Canon :=
  canon_ite (canon_successor (canon_updHts h)) (canon_updHts h)

theorem canon_tasksEnd {key n term} (h : s.Canon) : (s.tasksEnd key n term).Canon := canon_updLaunch h

theorem canon_remoteEnd {key n term} (h : s.Canon) : (s.remoteEnd key n term).Canon := by
  unfold State.remoteEnd
  split
  · exact h
  · refine canon_ite h ?_
    dsimp only
    split
    · exact canon_ite (canon_launchDone (canon_updLaunch (canon_tasksEnd h))) (canon_updLaunch (canon_tasksEnd h))
    · exact canon_updLaunch (canon_tasksEnd h)

theorem canon_remoteRefused {key n} (h : s.Canon) : (s.remoteRefused key n).Canon := by
  unfold State.remoteRefused
  split
  · exact h
  · exact canon_ite h (canon_remoteEnd (canon_foldl h fun _ _ h => canon_errorRecord h))

theorem canon_engineRead {die asid part va n} (h : s.Canon) : (s.engineRead die asid part va n).Canon :=
  Res.canon_ite (canon_meetFault h) (Res.canon_bind (canon_readVa h) fun _ _ h => h)

theorem canon_needSlots {die asid part va ix k} (h : s.Canon) : (s.needSlots die asid part va ix k).Canon := by
  induction k generalizing s die asid part va ix with
  | zero => exact h
  | succ n ih =>
    unfold State.needSlots
    exact Res.canon_bind (canon_engineRead h) fun _ _ h => Res.canon_bind (ih h) fun _ _ h => h

theorem canon_needSects {die asid part va k k2} (h : s.Canon) : (s.needSects die asid part va k k2).Canon := by
  induction k generalizing s die asid part va k2 with
  | zero => exact h
  | succ n ih =>
    unfold State.needSects
    exact Res.canon_bind (canon_engineRead h) fun _ _ h => Res.canon_ite h (Res.canon_bind (Res.canon_ite (Res.canon_bind
      (canon_needSlots h) fun _ _ h => h) h) fun _ _ h => Res.canon_bind (ih h) fun _ _ h => h)

theorem canon_needImage {die asid part va} (h : s.Canon) : (s.needImage die asid part va).Canon :=
  Res.canon_ite h (Res.canon_bind (canon_engineRead h) fun _ _ h => Res.canon_ite h (Res.canon_bind (canon_engineRead h) fun _ _
    h => Res.canon_bind (canon_needSects h) fun _ _ h => h))

theorem canon_needAll {die asid part l} (h : s.Canon) : (s.needAll die asid part l).Canon := by
  induction l generalizing s die asid part with
  | nil => exact h
  | cons b l ih =>
    unfold State.needAll
    exact Res.canon_bind (canon_needImage h) fun _ _ h => Res.canon_bind (ih h) fun _ _ h => h

theorem canon_endInst {k i cause} (h : s.Canon) : (s.endInst k i cause).Canon := by
  unfold State.endInst
  split
  · exact h
  · exact canon_tasksEnd (canon_foldl (canon_updHts h) fun _ _ h => canon_errorRecord h)

theorem canon_placeTask {k i l needs} (h : s.Canon) : (s.placeTask k i l needs).Canon := by
  unfold State.placeTask
  split
  · exact h
  · dsimp only
    split <;> exact canon_updHts h

theorem canon_attempt {die part} (h : s.Canon) : (s.attempt die part).Canon := by
  refine canon_ite h ?_
  split
  · exact h
  · split
    · exact h
    · split
      · exact canon_placeTask h
      · split
        · exact canon_placeTask (canon_updHts (Res.canon_ok ‹_› (canon_needAll h)))
        · exact canon_ite (canon_updHts (Res.canon_wait ‹_› (canon_needAll h))) (Res.canon_wait ‹_› (canon_needAll h))
        · exact canon_endInst (Res.canon_fault ‹_› (canon_needAll h))

theorem canon_execPlacementAttempt {die} (h : s.Canon) : (execPlacementAttempt die s).Canon := by
  have h := canon_foldl (f := State.wakeSlice) (l := upto 0 16) h fun _ _ h => canon_wakeSlice h
  unfold execPlacementAttempt
  dsimp only
  split
  · exact h
  · split
    · exact canon_attempt (canon_updHts h)
    · exact canon_attempt (canon_updHts h)

theorem canon_execAging {die k} (h : s.Canon) : (execAging die k s).Canon := by
  unfold execAging
  split
  · exact h
  · exact Out.canon_ite h (canon_unstick (canon_updHts h))

theorem canon_clearTiles {x} (h : s.Canon) : (s.clearTiles x).Canon := by
  refine canon_updHts (canon_foldl h fun _ _ h => canon_updMem h fun m h => Memory.wf_mark ?_ _ _ _)
  split
  · exact Memory.wf_putN h _ _
  · exact h

theorem canon_startTurn {f} (h : s.Canon) : (s.startTurn f).Canon := by
  unfold State.startTurn
  split
  · exact h
  · refine canon_ite h ?_
    split
    · exact h
    · refine canon_ite (canon_updFen (canon_clearTiles h)) (canon_ite (canon_ite (canon_updFen h) ?_) (canon_updFen h))
      split
      · exact canon_orStatus (canon_updCore (ImgStep.canon_more ‹_› (canon_imgStep h)))
      · exact ImgStep.canon_wait ‹_› (canon_imgStep h)
      · exact canon_terminate (ImgStep.canon_refused ‹_› (canon_imgStep h))
      · exact canon_updFen (canon_updFen h)

theorem canon_execFenStart (h : s.Canon) : (execFenStart s).Canon := canon_foldl h fun _ _ h => canon_startTurn h

theorem canon_lastOf {l} (h : s.Canon) : (s.lastOf l).2.Canon := by
  refine canon_snd_ite h ?_
  split
  · exact h
  · exact canon_snd_ite h (canon_updLaunch h)

theorem canon_countDown {f x l} (h : s.Canon) : (s.countDown f x l).Canon := by
  refine canon_ite h ?_
  dsimp only
  split
  · exact canon_updFen (canon_tasksEnd (canon_orStatus h))
  · exact canon_ite (canon_updFen (canon_lastOf (canon_tasksEnd (canon_orStatus h)))) (canon_updFen (canon_ite (canon_launchDone
      (canon_lastOf (canon_tasksEnd (canon_orStatus h)))) (canon_lastOf (canon_tasksEnd (canon_orStatus h)))))

theorem canon_storeDone {f x l} (h : s.Canon) : (s.storeDone f x l).Canon := by
  unfold State.storeDone
  dsimp only
  split
  · exact Res.canon_wait ‹_› (Res.canon_bind (canon_xlateFor h) fun _ _ h => canon_writeAt h)
  · exact canon_updFen (canon_launchDone (Res.canon_fault ‹_› (Res.canon_bind (canon_xlateFor h) fun _ _ h => canon_writeAt h)))
  · exact canon_updFen (canon_launchDone (Res.canon_ok ‹_› (Res.canon_bind (canon_xlateFor h) fun _ _ h => canon_writeAt h)))

theorem canon_freeFen {f x} (h : s.Canon) : (s.freeFen f x).Canon := canon_forget (canon_unstick (canon_updFen h))

theorem canon_finishTurn {f} (h : s.Canon) : (s.finishTurn f).Canon := by
  unfold State.finishTurn
  split
  · exact h
  · refine canon_ite h ?_
    refine canon_ite (canon_updFen h) ?_
    refine canon_ite (canon_freeFen h) ?_
    split
    · exact canon_updFen h
    · exact canon_ite (canon_countDown h) (canon_storeDone h)

theorem canon_finishLaunch {l} (h : s.Canon) : (s.finishLaunch l).Canon := by
  refine canon_ite (canon_launchDone (canon_lastOf h)) ?_
  split
  · exact Res.canon_wait ‹_› (Res.canon_bind (canon_xlateFor (canon_lastOf h)) fun _ _ h => canon_writeAt h)
  · exact canon_launchDone (Res.canon_fault ‹_› (Res.canon_bind (canon_xlateFor (canon_lastOf h)) fun _ _ h => canon_writeAt h))
  · exact canon_launchDone (Res.canon_ok ‹_› (Res.canon_bind (canon_xlateFor (canon_lastOf h)) fun _ _ h => canon_writeAt h))

theorem canon_execTaskComplete (h : s.Canon) : (execTaskComplete s).Canon :=
  canon_foldl (canon_foldl h fun _ _ h => canon_finishTurn h) fun _ _ h => canon_finishLaunch h

theorem canon_execBalancerWindow {die} (h : s.Canon) : (execBalancerWindow die s).Canon := Out.canon_ite h h

theorem canon_release {slot} (h : s.Canon) : (s.release slot).Canon := h

theorem canon_execCloneNode {slot} (h : s.Canon) : (execCloneNode slot s).Canon := by
  unfold execCloneNode
  split
  · exact canon_release h
  · split
    · exact h
    · exact Out.canon_ite (canon_updNode h) (canon_updHts (canon_updFen h))

theorem canon_execRateRefill {die part} (h : s.Canon) : (execRateRefill die part s).Canon := Out.canon_ite h (canon_updDev h)

/-! ## Migration (Machine/Mig.lean) -/

theorem canon_sleeveOut {f m} (h : s.Canon) : (s.sleeveOut f m).Canon := canon_setMig h

theorem canon_takeSched {f body} (h : s.Canon) : OnSome State.Canon (s.takeSched f body) := by
  unfold State.takeSched
  dsimp only
  split
  · exact trivial
  · exact canon_foldl (canon_updHts h) fun _ _ h => canon_ite (canon_updHts h) (canon_updHts h)

theorem canon_takeEnd {f m} (h : s.Canon) : (s.takeEnd f m).2.Canon :=
  canon_snd_ite h (canon_snd_ite h (Memory.wf_putSpread h _ _))

theorem canon_takeRecord {f m kind key body} (h : s.Canon) : (s.takeRecord f m kind key body).2.Canon := by
  refine canon_snd_ite ?_ ?_
  · split
    · exact canon_updMem h fun _ h => Memory.wf_putN h _ _
    · exact h
  · refine canon_snd_ite ?_ ?_
    · split
      · exact canon_updDev h
      · exact h
    · refine canon_snd_ite ?_ ?_
      · split
        · exact canon_updDev h
        · exact h
      · refine canon_snd_ite ?_ (canon_snd_ite (canon_updHts h) (canon_snd_ite h (canon_takeEnd h)))
        split
        · exact (onSome_some ‹_› (canon_takeSched h) :)
        · exact h

theorem canon_takeRecords {f k a} (h : s.Canon) : (s.takeRecords f k a).2.Canon := by
  induction k generalizing s f a with
  | zero => exact h
  | succ n ih =>
    unfold State.takeRecords
    exact canon_snd_ite h (canon_snd_ite h (canon_snd_ite h (canon_snd_ite h (ih (canon_takeRecord h)))))

theorem canon_sleeveIn {f m} (h : s.Canon) : (s.sleeveIn f m).Canon :=
  canon_ite (canon_setMig h) (canon_setMig (canon_takeRecords h))

theorem canon_onMigPage {fn k} (h : s.Canon) (hk : ∀ i m, (k i m).Canon) : (onMigPage fn s k).Canon := Out.canon_ite h (hk _ _)

theorem canon_migRefuse {f} (h : s.Canon) : (s.migRefuse f).Canon := canon_setMig h

theorem canon_migPre {f m} (h : s.Canon) : (s.migPre f m).Canon :=
  canon_ite (canon_migRefuse h) (canon_migState (canon_setMig h))

theorem canon_execMigPreCopy {fn} (h : s.Canon) : (execMigPreCopy fn s).Canon := canon_onMigPage h fun _ _ => canon_migPre h

theorem canon_migStop {f m} (h : s.Canon) : (s.migStop f m).Canon := by
  refine canon_ite (canon_migRefuse h) ?_
  dsimp only
  split
  · exact canon_ite (canon_migStopped (canon_migState (canon_ite (canon_setMig h) h))) (canon_migState (canon_ite (canon_setMig
      h) h))
  · exact canon_freeze (canon_migState (canon_ite (canon_setMig h) h))

theorem canon_execMigStop {fn} (h : s.Canon) : (execMigStop fn s).Canon := canon_onMigPage h fun _ _ => canon_migStop h

theorem canon_migRun {f m} (h : s.Canon) : (s.migRun f m).Canon :=
  canon_ite (canon_wakeSlice (canon_migState (canon_setMig h))) (canon_migRefuse h)

theorem canon_execMigRun {fn} (h : s.Canon) : (execMigRun fn s).Canon := canon_onMigPage h fun _ _ => canon_migRun h

theorem canon_migResume {f m} (h : s.Canon) : (s.migResume f m).Canon :=
  canon_ite (canon_migRefuse h) (canon_migState (canon_setMig h))

theorem canon_execMigResume {fn} (h : s.Canon) : (execMigResume fn s).Canon := canon_onMigPage h fun _ _ => canon_migResume h

theorem canon_sleeveGo {f m} (h : s.Canon) : (s.sleeveGo f m).Canon :=
  canon_ite (canon_sleeveOut h) (canon_ite (canon_sleeveIn h) (canon_migRefuse h))

theorem canon_execSleeveGo {fn} (h : s.Canon) : (execSleeveGo fn s).Canon := canon_onMigPage h fun _ _ => canon_sleeveGo h

/-! ## What the host reads (Machine/Regs.lean) -/

theorem canon_hostReads {f ofs} (h : s.Canon) : (s.hostReads f ofs).Canon := canon_ite (canon_answer h) (canon_answer h)

/-! ## The host and the peers (Machine/Host.lean) -/

theorem canon_onBar {k} (h : s.Canon) (h2 : k.Canon) : (onBar s k).Canon := canon_ite h2 h

theorem canon_barErr {f} (h : s.Canon) : (s.barErr f).Canon := canon_updPage h

theorem canon_frseq {f sq} (h : s.Canon) : (s.frseq f sq).Canon := by
  unfold State.frseq
  split
  · exact canon_barErr h
  · exact canon_ite h (canon_giveVerdict h)

theorem canon_execFaultVerdict {fn seq} (h : s.Canon) : (execFaultVerdict fn seq s).Canon := canon_onBar h (canon_frseq h)

theorem canon_tensorOp {f op asid tnum} (h : s.Canon) : (s.tensorOp f op asid tnum).Canon :=
  canon_ite (canon_updPage h) (canon_ite (canon_updPage (canon_barErr (canon_updPage h))) (canon_ite (canon_updDev
    (canon_updPage (canon_updPage h))) (canon_ite (canon_updPage (canon_updPage (canon_updPage h))) (canon_updDev (canon_updPage
    (canon_updPage h))))))

theorem canon_tensorBusy {f} (h : s.Canon) : (s.tensorBusy f).Canon := canon_updPage (canon_barErr h)

theorem canon_tensorStart {f op asid tnum} (h : s.Canon) : (s.tensorStart f op asid tnum).Canon :=
  canon_ite (canon_tensorBusy h) (canon_updPage h)

theorem canon_tensorDo {f op asid tnum} (h : s.Canon) : (s.tensorDo f op asid tnum).Canon :=
  canon_ite (canon_tensorBusy h) (canon_tensorOp h)

theorem canon_invDrop {v} (h : s.Canon) : (s.invDrop v).Canon := h

theorem canon_invStart {f kind id} (h : s.Canon) : (s.invStart f kind id).Canon := canon_ite (canon_barErr h) (canon_invDrop h)

theorem canon_execInvComplete {fn} (h : s.Canon) : (execInvComplete fn s).Canon := Out.canon_ite h (canon_message (canon_updPage h))

theorem canon_pageWrite {f ofs v} (h : s.Canon) : (s.pageWrite f ofs v).Canon :=
  canon_ite (canon_drainHeld (canon_updPage h)) (canon_ite (canon_updPage h) (canon_ite (canon_frseq h) (canon_ite
    (canon_updPage h) (canon_ite (canon_tensorStart h) (canon_ite (canon_updPage h) (canon_ite (canon_invStart h) (canon_ite
    (canon_updPage h) (canon_ite (canon_updPage h) (canon_ite (canon_updPage h) h)))))))))

theorem canon_funcWrite {g high v} (h : s.Canon) : (s.funcWrite g high v).Canon := canon_ite h (canon_updDev h)

theorem canon_ctxWrite {slot high v} (h : s.Canon) : (s.ctxWrite slot high v).Canon := canon_ite h (canon_updDev h)

theorem canon_partWrite {p v} (h : s.Canon) : (s.partWrite p v).Canon := canon_updDev h

theorem canon_mgmtWrite {ofs v} (h : s.Canon) : (s.mgmtWrite ofs v).Canon :=
  canon_ite (canon_updDev h) (canon_ite (canon_ite (canon_barErr h) (canon_updDev h)) (canon_ite (canon_ite h (canon_updDev h))
    (canon_ite (canon_ite h (canon_updDev h)) h)))

theorem canon_importWrite {k high v} (h : s.Canon) : (s.importWrite k high v).Canon := canon_updDev h

theorem canon_ownerWrite {o v} (h : s.Canon) : (s.ownerWrite o v).Canon := by
  unfold State.ownerWrite
  split
  · exact h
  · exact canon_ite h (canon_updDev h)

theorem canon_migWrite {f ofs v} (h : s.Canon) : (s.migWrite f ofs v).Canon :=
  canon_ite (canon_ite (canon_migRun h) (canon_ite (canon_migPre h) (canon_ite (canon_migStop h) (canon_ite (canon_migResume h)
    (canon_migRefuse h))))) (canon_ite (canon_setMig h) (canon_ite (canon_setMig h) (canon_ite (canon_setMig h) (canon_ite
    (canon_ite (canon_sleeveGo h) h) (canon_ite (canon_ite (canon_setMig h) (canon_migRefuse h)) (canon_ite (canon_ite
    (canon_setMig h) (canon_migRefuse h)) (canon_ite (canon_setMig h) h)))))))

theorem canon_physWrite {ofs v} (h : s.Canon) : (s.physWrite ofs v).Canon :=
  canon_ite (canon_funcWrite h) (canon_ite (canon_ctxWrite h) (canon_ite (canon_partWrite h) (canon_ite (canon_mgmtWrite h)
    (canon_ite (canon_importWrite h) (canon_ite (canon_foldl h fun _ _ h => canon_ownerWrite h) (canon_ite (canon_migWrite h)
    h))))))

theorem canon_execRegisterWrite {fn ofs val} (h : s.Canon) : (execRegisterWrite fn ofs val s).Canon := by
  unfold execRegisterWrite
  exact canon_onBar h (canon_ite (canon_pageWrite h) (canon_ite (canon_physWrite h) h))

theorem canon_foreignWrite {pa bs} (h : s.Canon) : (s.foreignWrite pa bs).Canon :=
  canon_updEmt (canon_updMem h fun _ h => Memory.wf_putSpread h _ _)

theorem canon_foreignRead {pa n} (h : s.Canon) : (s.foreignRead pa n).2.Canon :=
  canon_ite h (canon_updMem (canon_foldl h fun _ _ h => canon_updPage h) fun _ h => Memory.wf_unfixed h _)

theorem canon_foreign {pa op} (h : s.Canon) : (s.foreign pa op).Canon := by
  unfold State.foreign
  split
  · exact canon_answer (canon_foreignRead h)
  · exact canon_ite h (canon_foreignWrite h)
  · exact canon_ite h (canon_ite (canon_answer (canon_foreignRead h)) (canon_foreignWrite (canon_answer (canon_foreignRead h))))

theorem canon_execHostMemAccess {ofs op} (h : s.Canon) : (execHostMemAccess ofs op s).Canon :=
  Out.canon_ite h (Out.canon_ite rfl (canon_foreign h))

theorem canon_execPeerAccess {srcMod srcPart a ofs op} (h : s.Canon) : (execPeerAccess srcMod srcPart a ofs op s).Canon := by
  refine Out.canon_ite h ?_
  split
  · exact canon_answer h
  · exact Out.canon_ite (canon_answer h) (Out.canon_ite h (canon_foreign h))

theorem canon_execPortDown {port} (h : s.Canon) : (execPortDown port s).Canon := Out.canon_ite h h

theorem canon_execPortDownTimeout {port} (h : s.Canon) : (execPortDownTimeout port s).Canon := by
  unfold execPortDownTimeout
  dsimp only
  split
  · exact h
  · exact Out.canon_ite h (canon_foldl h fun _ _ h => canon_errorRecord h)

theorem canon_execSpdmRequest {req} (h : s.Canon) : (execSpdmRequest req s).Canon := Out.canon_ite h h

/-! ## Memory nodes (Machine/MemNode.lean) -/

theorem canon_nodeRetry {rq} (h : s.Canon) : (s.nodeRetry rq).2.Canon := h

theorem canon_nodeRead {a rq sp n} (h : s.Canon) : (s.nodeRead a rq sp n).Canon := by
  unfold State.nodeRead
  split
  · exact canon_readAt h
  · exact Res.canon_bind (canon_xlateFor h) fun _ _ h => canon_readAt h
  · exact h

theorem canon_nodeWrite {a rq sp bs bad} (h : s.Canon) : (s.nodeWrite a rq sp bs bad).Canon := by
  unfold State.nodeWrite
  split
  · exact Res.canon_ite h (Res.canon_bind (canon_charge h) fun _ _ h => canon_ite (canon_markPoison (canon_landWrite h))
      (canon_landWrite h))
  · exact Res.canon_bind (canon_xlateFor h) fun _ _ h => Res.canon_bind (canon_writeAt h) fun _ _ h => canon_ite
      (canon_markPoison h) h
  · exact h

theorem canon_nodeRmw {a rq sp n g} (h : s.Canon) : (s.nodeRmw a rq sp n g).Canon := by
  unfold State.nodeRmw
  split
  · exact canon_rmwAt h
  · exact Res.canon_bind (canon_xlateFor h) fun _ _ h => canon_rmwAt h
  · exact h

/-- The access of a node's elements keeps memory in canonical form. -/
def MemForm.Keeps (form : MemForm) : Prop := ∀ a e sp s, s.Canon → (form.act a e sp s).Canon

theorem canon_elRead {a e sp n} (h : s.Canon) : (s.elRead a e sp n).Canon := by
  unfold State.elRead
  split
  · exact canon_readAt h
  · exact canon_nodeRead h

theorem canon_elHome {a e} (h : s.Canon) : (s.elHome a e).Canon := by
  unfold State.elHome
  split
  · exact h
  · split
    · exact h
    · exact canon_xlateFor h
    · exact canon_meetFault h

theorem canon_elDone {a form e d} (h : s.Canon) : (s.elDone a form e d).Canon :=
  canon_drainOwe (canon_nodeSt (canon_updMemOf (canon_nodeStatus (canon_nodeRetry h))))

theorem canon_elHeld {a form e d} (h : s.Canon) : (s.elHeld a form e d).Canon := canon_elDone (canon_deliver h)

theorem canon_issueAhead {a form l l2} (hf : MemForm.Keeps form) (h : s.Canon) : (s.issueAhead a form l l2).2.Canon := by
  induction l2 generalizing s l with
  | nil => exact h
  | cons b l2 ih =>
    unfold State.issueAhead
    refine canon_snd_ite (ih h) (canon_snd_ite (ih h) ?_)
    split
    · exact ih (Res.canon_wait ‹_› (canon_elHome h))
    · exact canon_terminate (Res.canon_fault ‹_› (canon_elHome h))
    · have h := Res.canon_ok ‹_› (canon_elHome h)
      refine canon_snd_ite (ih (canon_updMemOf h)) ?_
      split
      · exact ih (Res.canon_wait ‹_› (hf _ _ _ _ (canon_updMemOf h)))
      · exact canon_terminate (Res.canon_fault ‹_› (hf _ _ _ _ (canon_updMemOf h)))
      · exact canon_updMemOf (Res.canon_ok ‹_› (hf _ _ _ _ (canon_updMemOf h)))

theorem canon_askAhead {a acc l} (h : s.Canon) : (s.askAhead a acc l).Canon := by
  refine canon_foldl h fun _ _ h => ?_
  split
  · exact canon_askFor h
  · exact h

theorem canon_memTurn {form acc start a} (hf : MemForm.Keeps form) (h : s.Canon) (hk : ∀ a s, s.Canon → (start a s).Canon) :
    (memTurn form acc start a s).Canon := by
  unfold memTurn
  split
  · exact hk _ _ h
  · split
    · exact canon_elHeld h
    · refine canon_ite (canon_nodeTrap h) (canon_ite (canon_nodeTrap h) ?_)
      split
      · exact canon_terminate (Res.canon_fault ‹_› (hf _ _ _ _ h))
      · exact canon_elDone (Res.canon_ok ‹_› (hf _ _ _ _ h))
      · have h := Res.canon_wait ‹_› (hf _ _ _ _ h)
        dsimp only
        generalize hq : ite (form.ahead = true) _ _ = q
        have hq : q.2.Canon := by
          subst hq
          exact canon_snd_ite (canon_issueAhead hf h) (canon_ite h (canon_askAhead h))
        exact canon_ite (canon_nodeSt hq) (canon_ite (canon_nodeSt (hk _ _ hq)) (canon_nodeSt hq))

theorem canon_memStart {ins w fill scope els a} (h : s.Canon) : (memStart ins w fill scope els a s).Canon := by
  unfold memStart
  dsimp only
  split
  · exact canon_nodeSt h
  · exact canon_ite h (canon_nodeTrap h)
  · exact canon_ite h (canon_ite (canon_nodeSt h) (canon_fire h))
  · exact canon_ite (canon_nodeSt h) (canon_ite (canon_nodeSt h) (canon_ite (canon_ite h (canon_fire h)) (canon_fire h)))

theorem canon_execLoad {n scope} (h : s.Canon) : (execLoad n scope s).Canon :=
  canon_runNode h fun _ _ h => canon_memTurn (fun _ _ _ _ h => canon_elRead h) h fun _ _ h => canon_memStart h

theorem canon_storeCtl {a b} (h : s.Canon) : (s.storeCtl a b).Canon := canon_ite h (canon_ite (canon_nodeSt h) (canon_fire h))

theorem canon_storeStart {beat w scope a} (h : s.Canon) : (storeStart beat w scope a s).Canon := by
  unfold storeStart
  dsimp only
  split
  · exact canon_nodeSt h
  · exact canon_nodeSt h
  · refine canon_ite ?_ ?_
    · split
      · exact canon_nodeSt h
      · exact canon_storeCtl h
      · exact canon_ite (canon_nodeTrap h) h
    · refine canon_ite ?_ (canon_ite (canon_nodeSt h) (canon_ite (canon_nodeSt h) (canon_ite (canon_ite h (canon_fire h))
        (canon_fire h))))
      split
      · exact canon_nodeSt h
      · exact canon_nodeSt h
      · exact canon_ite (canon_ite (canon_storeCtl h) (canon_ite (canon_nodeTrap h) h)) (canon_updMemOf (canon_nodeStatus
          (canon_take h)))

theorem canon_execStore {n scope} (h : s.Canon) : (execStore n scope s).Canon :=
  canon_runNode h fun _ _ h => canon_memTurn (fun _ _ _ _ h => Res.canon_bind (canon_nodeWrite h) fun _ _ h => h) h
    fun _ _ h => canon_storeStart h

theorem canon_execLdfe {n scope} (h : s.Canon) : (execLdfe n scope s).Canon := by
  unfold execLdfe
  refine canon_runNode h fun _ _ h => canon_memTurn (fun _ _ _ _ h => Res.canon_ite h ?_) h fun _ _ h => canon_memStart h
  exact Res.canon_bind (canon_nodeRead h) fun _ _ h => canon_ite (canon_updMem h fun _ h => Memory.wf_mark h _ _ _) h

theorem canon_execStfe {n scope} (h : s.Canon) : (execStfe n scope s).Canon := by
  refine canon_runNode h fun _ _ h => canon_memTurn (fun _ _ _ _ h => Res.canon_ite h ?_) h fun _ _ h => canon_storeStart h
  exact Res.canon_bind (canon_nodeWrite h) fun _ _ h => canon_updMem h fun _ h => Memory.wf_mark h _ _ _

theorem canon_execAtom {n scope op} (h : s.Canon) : (execAtom n scope op s).Canon := by
  unfold execAtom
  exact canon_runNode h fun _ _ h => canon_ite (canon_nodeTrap h)
    (canon_memTurn (fun _ _ _ _ h => canon_nodeRmw h) h fun _ _ h => canon_memStart h)

theorem canon_execOjoin {n scope} (h : s.Canon) : (execOjoin n scope s).Canon :=
  canon_runNode h fun _ _ h => canon_ite (canon_nodeSt h) (canon_ite (canon_nodeSt h) (canon_ite (canon_fire h) (canon_fire h)))

theorem canon_execWrring {n scope close} (h : s.Canon) : (execWrring n scope close s).Canon := by
  refine canon_runNode h fun a s h => ?_
  split
  · refine canon_ite (canon_nodeSt h) ?_
    extract_lets s1 used s2
    have h2 : s2.Canon := by
      unfold s2
      split
      · exact canon_ite (canon_closeSlot (canon_take h)) (canon_take h)
      · exact canon_take h
    clear_value s2
    exact canon_drainOwe (canon_nodeSt (canon_ite (canon_updMemOf h2) h2))
  · exact canon_dataTurn h

/-! ## Sparse nodes (Machine/Sparse.lean) -/

theorem canon_takeData {a j osw load} (h : s.Canon) : (s.takeData a j osw load).Canon := by
  unfold State.takeData
  dsimp only
  split
  · exact canon_nodeSt h
  · exact canon_ite (canon_fire h) (canon_fire h)

theorem canon_takeItems {a j b l} (h : s.Canon) : (s.takeItems a j b l).Canon := canon_takeData h

theorem canon_takeEntries {a j b} (h : s.Canon) : (s.takeEntries a j b).Canon := by
  unfold State.takeEntries
  exact canon_takeData h

theorem canon_work {a osw g} (h : s.Canon) : (s.work a osw g).Canon := canon_fire h

theorem canon_takeCtl {a js osw g} (h : s.Canon) : (s.takeCtl a js osw g).Canon := canon_fire h

theorem canon_itemNode {bound ins work} (h : s.Canon) (hk : ∀ a s, s.Canon → (work a s).Canon) :
    (itemNode bound ins work s).Canon :=
  canon_runNode h fun _ _ h => canon_ite (canon_nodeSt h) (canon_ite (canon_nodeTrap h) (hk _ _ h))

theorem canon_arrayRead {a o n} (h : s.Canon) : OnSome (fun t => t.2.2.Canon) (s.arrayRead a o n) := by
  unfold State.arrayRead
  split
  · exact trivial
  · exact canon_readScratch h

theorem canon_fscanEmit {dense crdofs cnt a} (h : s.Canon) : (fscanEmit dense crdofs cnt a s).Canon := by
  refine canon_ite (canon_work h) ?_
  refine canon_ite (canon_nodeTrap h) ?_
  split
  · exact canon_nodeSt h
  · exact canon_work (onSome_some ‹_› (canon_arrayRead h) :)

theorem canon_fscanOpen {dense ptrofs cnt r a} (h : s.Canon) : (fscanOpen dense ptrofs cnt r a s).Canon := by
  refine canon_ite (canon_work h) ?_
  refine canon_ite (canon_work h) ?_
  split
  · exact canon_nodeSt h
  · split
    · exact canon_nodeSt (onSome_some ‹_› (canon_arrayRead h) :)
    · exact canon_work (onSome_some ‹_› (canon_arrayRead (onSome_some ‹_› (canon_arrayRead h) :)) :)

theorem canon_execFscan {n ptrofs crdofs cnt} (h : s.Canon) : (execFscan n ptrofs crdofs cnt s).Canon := by
  refine canon_itemNode h fun _ _ h => ?_
  refine canon_ite (canon_nodeTrap h) ?_
  refine canon_ite (canon_fscanEmit h) ?_
  split
  · exact canon_nodeSt h
  · exact canon_ite (canon_takeEntries h) (canon_takeItems h)
  · exact canon_ite (canon_work h) (canon_fscanOpen h)
  · split <;> exact canon_takeCtl h

theorem canon_zipTurn {outs both one a} (h : s.Canon) : (zipTurn outs both one a s).Canon := by
  unfold zipTurn
  split
  · exact canon_takeEntries h
  · exact canon_takeEntries h
  · exact canon_nodeSt h
  · exact canon_nodeSt h
  · exact canon_ite (canon_work h) (canon_ite (canon_work h) (canon_work h))
  · exact canon_work h
  · exact canon_work h
  · exact canon_ite (canon_nodeTrap h) (canon_takeCtl h)

theorem canon_execIsect {n} (h : s.Canon) : (execIsect n s).Canon := canon_itemNode h fun _ _ h => canon_zipTurn h

theorem canon_execUnion {n op} (h : s.Canon) : (execUnion n op s).Canon := canon_itemNode h fun _ _ h => canon_zipTurn h

theorem canon_execRepeatNode {n lvl} (h : s.Canon) : (execRepeatNode n lvl s).Canon := by
  refine canon_itemNode h fun _ _ h => ?_
  split
  · exact canon_nodeSt h
  · exact canon_takeEntries h
  · refine canon_ite (canon_work h) ?_
    split
    · exact canon_nodeSt h
    · exact canon_takeEntries h
    · exact canon_work h
    · exact canon_ite (canon_nodeTrap h) (canon_takeCtl h)
  · split
    · refine canon_ite (canon_takeCtl h) ?_
      refine canon_ite (canon_takeCtl h) ?_
      split
      · exact canon_nodeSt h
      · exact canon_takeEntries h
      · exact canon_takeCtl h
      · exact canon_ite (canon_nodeTrap h) (canon_takeCtl h)
    · split
      · exact canon_nodeSt h
      · exact canon_takeEntries h
      · exact canon_nodeTrap h
      · exact canon_ite (canon_takeCtl h) (canon_takeCtl h)

theorem canon_execSred {n op lvl} (h : s.Canon) : (execSred n op lvl s).Canon := by
  refine canon_itemNode h fun _ _ h => ?_
  split
  · exact canon_nodeSt h
  · exact canon_takeEntries h
  · exact canon_work h
  · dsimp only
    split
    · exact canon_ite (canon_takeCtl h) (canon_ite (canon_takeCtl h) (canon_takeCtl h))
    · exact canon_takeCtl h

theorem canon_sjoinReset {a} (h : s.Canon) : (sjoinReset a s).Canon := by
  unfold sjoinReset
  split
  · exact canon_nodeSt h
  · exact canon_takeEntries h
  · exact canon_work h
  · exact canon_ite (canon_work h) (canon_takeCtl h)

theorem canon_sjoinDone {t a} (h : s.Canon) : (sjoinDone t a s).Canon := by
  unfold sjoinDone
  split
  · exact canon_nodeSt h
  · exact canon_takeEntries h
  · exact canon_work h
  · exact canon_ite (canon_takeCtl h) (canon_takeCtl h)

theorem canon_sjoinAligned {n op rlvl a} (h : s.Canon) : (sjoinAligned n op rlvl a s).Canon := by
  unfold sjoinAligned
  split
  · exact canon_nodeSt h
  · exact canon_takeEntries h
  · split
    · exact canon_nodeSt h
    · exact canon_takeEntries h
    · exact canon_work h
    · exact canon_ite (canon_work h) (canon_work h)
  · split
    · exact canon_sjoinDone h
    · refine canon_ite (canon_takeCtl h) ?_
      split
      · exact canon_nodeSt h
      · exact canon_takeEntries h
      · exact canon_work h
      · exact canon_ite (canon_takeCtl h) (canon_nodeTrap h)

theorem canon_sjoinReuse {n op lvl rlvl a} (h : s.Canon) : (sjoinReuse n op lvl rlvl a s).Canon := by
  unfold sjoinReuse
  dsimp only
  split
  · exact canon_nodeSt h
  · exact canon_takeEntries h
  · refine canon_ite (canon_work h) ?_
    refine canon_ite (canon_work h) ?_
    split
    · exact canon_nodeSt h
    · exact canon_takeEntries h
    · exact canon_work h
    · exact canon_work h
  · split
    · exact canon_sjoinDone h
    · refine canon_ite (canon_takeCtl h) ?_
      refine canon_ite (canon_takeCtl h) ?_
      split
      · exact canon_nodeSt h
      · exact canon_takeEntries h
      · exact canon_takeCtl h
      · exact canon_takeCtl h

theorem canon_execSjoin {n op lvl rlvl} (h : s.Canon) : (execSjoin n op lvl rlvl s).Canon :=
  canon_itemNode h fun _ _ h => canon_ite (canon_sjoinReset h) (canon_ite (canon_sjoinAligned h) (canon_sjoinReuse h))

theorem canon_saccClear {a o w} (h : s.Canon) : (s.saccClear a o w).Canon := canon_landWrite h

theorem canon_saccAdd {a n o w j v} (h : s.Canon) : (s.saccAdd a n o w j v).2.Canon :=
  canon_landWrite (canon_landWrite (canon_readScratch (canon_readScratch h)))

theorem canon_execSacc {n accofs wm1 lvl} (h : s.Canon) : (execSacc n accofs wm1 lvl s).Canon := by
  refine canon_itemNode h fun _ _ h => ?_
  refine canon_ite (canon_updMemOf (canon_saccClear h)) ?_
  refine canon_ite (canon_nodeTrap h) ?_
  dsimp only
  split
  · exact canon_nodeSt h
  · exact canon_takeEntries h
  · exact canon_ite (canon_nodeSt h) (canon_ite (canon_work h) (canon_work (canon_saccAdd h)))
  · split
    · exact canon_ite (canon_takeCtl h) (canon_saccClear (canon_takeCtl h))
    · exact canon_saccClear (canon_takeCtl h)

theorem canon_execSplit {n} (h : s.Canon) : (execSplit n s).Canon := by
  refine canon_itemNode h fun _ _ h => ?_
  refine canon_ite (canon_nodeSt h) ?_
  split
  · exact canon_nodeSt h
  · exact canon_nodeTrap h
  · exact canon_takeCtl h
  · split
    · exact canon_nodeSt h
    · exact canon_ite (canon_fire h) (canon_fire h)

theorem canon_mergeTake {a j b} (h : s.Canon) : (s.mergeTake a j b).Canon := canon_takeData h

theorem canon_mergeCtl {a x y} (h : s.Canon) : (s.mergeCtl a x y).Canon := canon_ite (canon_nodeTrap h) (canon_takeCtl h)

theorem canon_mergeTurns {a} (h : s.Canon) : (s.mergeTurns a).Canon := by
  unfold State.mergeTurns
  dsimp only
  split
  · exact canon_mergeCtl h
  · exact canon_takeData h
  · exact canon_nodeSt h

theorem canon_execMerge {n} (h : s.Canon) : (execMerge n s).Canon := by
  refine canon_itemNode h fun _ _ h => ?_
  refine canon_ite (canon_mergeTurns h) ?_
  dsimp only
  split
  · split
    · exact canon_ite (canon_mergeTake h) (canon_mergeTake h)
    · exact canon_nodeTrap h
  · exact canon_ite (canon_nodeTrap h) (canon_mergeTake h)
  · exact canon_ite (canon_nodeTrap h) (canon_mergeTake h)
  · exact canon_mergeCtl h
  · exact canon_ite (canon_nodeTrap h) (canon_ite (canon_mergeTake h) (canon_nodeSt h))
  · exact canon_ite (canon_nodeTrap h) (canon_ite (canon_mergeTake h) (canon_nodeSt h))
  · exact canon_nodeSt h

theorem canon_execRmerge {n} (h : s.Canon) : (execRmerge n s).Canon := by
  refine canon_itemNode h fun _ _ h => ?_
  dsimp only
  split
  · exact canon_takeItems h
  · exact canon_takeItems h
  · exact canon_nodeSt h
  · exact canon_nodeSt h
  · exact canon_ite (canon_work h) (canon_work h)
  · exact canon_work h
  · exact canon_work h
  · exact canon_ite (canon_nodeTrap h) (canon_takeCtl h)

theorem canon_takePort {a b scope} (h : s.Canon) : (s.takePort a b scope).Canon := by
  unfold State.takePort
  exact canon_takeData h

theorem canon_askNext {a acc l} (h : s.Canon) : (s.askNext a acc l).Canon := by
  refine canon_foldl h fun _ _ h => ?_
  split
  · exact canon_askFor h
  · exact h

theorem canon_elemAccess {α : Type} {a rq acc addr size next} {act : Space → State → Res α} {done : α → BitVec 32 → State → State}
    (h : s.Canon) (ha : ∀ sp s, s.Canon → (act sp s).Canon) (hd : ∀ r w s, s.Canon → (done r w s).Canon) :
    (s.elemAccess a rq acc addr size next act done).Canon := by
  have hr : Res.Canon (match a.x.space a.n.tile addr with
      | .none => s.meetFault a.x.asid rq ⟨addr, acc, 0, 0⟩
      | sp => act sp s) := by
    split
    · exact canon_meetFault h
    · exact ha _ _ h
  refine canon_ite (canon_nodeTrap h) ?_
  split
  · exact canon_nodeSt (canon_askNext (Res.canon_wait ‹_› hr))
  · exact canon_terminate (Res.canon_fault ‹_› hr)
  · exact hd _ _ _ (canon_nodeRetry (Res.canon_ok ‹_› hr))

theorem canon_execGath {n scope a icrd} (h : s.Canon) : (execGath n scope a icrd s).Canon := by
  unfold execGath
  refine canon_itemNode h fun _ _ h => canon_memTurn (fun _ _ sp _ h => ?_) h fun _ _ h => ?_
  · cases sp with
    | none => exact canon_meetFault h
    | badTile | scratch t o | global va => exact canon_elRead h
  · split
    · exact canon_nodeSt h
    · exact canon_nodeSt h
    · exact canon_takeData h
    · exact canon_ite h (canon_takeCtl h)

theorem canon_scatWrite {a t ix z v bad next done} (h : s.Canon) (hk : ∀ w s, s.Canon → (done w s).Canon) :
    (s.scatWrite a t ix z v bad next done).Canon :=
  canon_ite (hk _ _ h) (canon_elemAccess h (fun _ _ h => canon_nodeWrite h) fun _ _ _ h => hk _ _ h)

theorem canon_execScat {n scope a a2 a3 lvl} (h : s.Canon) : (execScat n scope a a2 a3 lvl s).Canon := by
  refine canon_itemNode h fun _ _ h => ?_
  refine canon_ite (canon_scatWrite h fun _ _ h => canon_work h) ?_
  split
  · exact canon_nodeSt h
  · exact canon_takePort h
  · exact canon_ite (canon_ite (canon_scatWrite h fun _ _ h => canon_work h) (canon_scatWrite h fun _ _ h => canon_work h))
      (canon_scatWrite h fun _ _ h => canon_work h)
  · exact canon_ite (canon_ite (canon_scatWrite h fun _ _ h => canon_takeCtl h) (canon_takeCtl h)) (canon_takeCtl h)

/-! ## Retrieval nodes (Machine/Retr.lean) -/

theorem canon_readSend {a p} (h : s.Canon) : (s.readSend a p).2.Canon := canon_sendKey (canon_readThr h)

theorem canon_rankRecord {a en ofs passed skipped} (h : s.Canon) : (s.rankRecord a en ofs passed skipped).Canon :=
  canon_ite h (canon_updMemOf (canon_writeScratch h))

theorem canon_nodeThresh {a q p done} (h : s.Canon) : (s.nodeThresh a q p done).Canon := by
  unfold State.nodeThresh
  dsimp only
  generalize hr : Res.bind _ _ = r
  have hr : r.Canon := hr ▸ Res.canon_bind (canon_xlateQcb h) fun _ _ h => Res.canon_ite h (Res.canon_bind (canon_present h)
    fun _ _ h => Res.canon_bind (canon_unsnooped h) fun _ _ h => Res.canon_bind (canon_charge h) fun _ _ h => h)
  cases r with
  | ok ph s =>
    dsimp only
    split
    · exact canon_nodeSt hr
    · exact canon_updMemOf (canon_nodeStatus (canon_nodeRetry (onSome_some ‹_› (canon_threshWrite hr) :)))
  | wait s => exact canon_nodeSt hr
  | fault _ s => exact canon_terminate hr

theorem canon_passCtl {a w fill b} (h : s.Canon) : (s.passCtl a w fill b).Canon := canon_takeCtl h

theorem canon_agBegin {a t block} (h : s.Canon) : (s.agBegin a t block).Canon := canon_work (canon_updNode h)

theorem canon_agAbort {a done} (h : s.Canon) : (s.agAbort a done).Canon := canon_work h

theorem canon_agNext {a e} (h : s.Canon) : (s.agNext a e).Canon := canon_work h

theorem canon_agRead {a addr size next done} (h : s.Canon) (hk : ∀ i w s, s.Canon → (done i w s).Canon) :
    (s.agRead a addr size next done).Canon :=
  canon_elemAccess h (fun _ _ h => canon_nodeRead h) fun _ _ _ h => hk _ _ _ (canon_updMemOf h)

theorem canon_agWalk {e a} (h : s.Canon) : (agWalk e a s).Canon :=
  canon_ite (canon_work h) (canon_agRead h fun _ _ _ h => canon_work h)

theorem canon_agHeader {a} (h : s.Canon) : (agHeader a s).Canon :=
  canon_ite (canon_work h) (canon_ite (canon_work (canon_readThr h)) (canon_work (canon_readThr h)))

theorem canon_agBlocks {first count e a} (h : s.Canon) : (agBlocks first count e a s).Canon :=
  canon_ite (canon_ite (canon_work h) (canon_agRead h fun _ _ _ h => canon_work h)) (canon_ite (canon_agNext h) (canon_ite
    (canon_work h) (canon_ite (canon_agHeader h) (canon_agRead h fun _ _ _ h => canon_work h))))

theorem canon_execAgen {n scope start} (h : s.Canon) : (execAgen n scope start s).Canon := by
  refine canon_itemNode h fun _ _ h => ?_
  refine canon_ite ?_ ?_
  · split
    · exact canon_nodeSt h
    · exact canon_work (onSome_some ‹_› (canon_activation h) :)
  · dsimp only
    split
    · exact canon_agAbort h
    · exact canon_work h
    · refine canon_ite (canon_agWalk h) ?_
      split
      · exact canon_agAbort h
      · exact canon_ite (canon_agAbort h) (canon_agBegin h)
    · refine canon_ite (canon_agBlocks h) ?_
      split
      · exact canon_agAbort h
      · exact canon_ite (canon_agAbort h) (canon_agBegin h)

theorem canon_execQport {n} (h : s.Canon) : (execQport n s).Canon := canon_runNode h fun _ _ h => canon_sendKey h

theorem canon_pqScore {a rm tab ws k k2 a2} (h : s.Canon) : OnSome (fun t => t.2.2.Canon) (pqScore a rm tab ws k k2 a2 s) := by
  induction k generalizing a rm tab ws k2 a2 s with
  | zero => exact h
  | succ n ih =>
    unfold pqScore
    split
    · exact trivial
    · exact ih (onSome_some ‹_› (canon_arrayRead h) :)

theorem canon_execPqadc {n tabofs mm1 iszw} (h : s.Canon) : (execPqadc n tabofs mm1 iszw s).Canon := by
  refine canon_itemNode h fun _ _ h => ?_
  refine canon_ite (canon_nodeTrap h) ?_
  refine canon_ite ?_ ?_
  · split
    · exact canon_nodeSt h
    · exact canon_work (onSome_some ‹_› (canon_pqScore h) :)
  · split
    · exact canon_nodeSt h
    · exact canon_nodeSt h
    · exact canon_takeData h
    · exact canon_takeData h
    · exact canon_ite (canon_takeData h) (canon_takeCtl h)

theorem canon_execBound {n recen recofs} (h : s.Canon) : (execBound n recen recofs s).Canon := by
  refine canon_itemNode h fun _ _ h => ?_
  dsimp only
  split
  · exact canon_nodeSt (canon_readSend h)
  · exact canon_nodeSt (canon_readSend h)
  · exact canon_takeData (canon_readSend h)
  · exact canon_takeData (canon_readSend h)
  · exact canon_ite (canon_takeData (canon_readSend h)) (canon_ite (canon_ite (canon_takeCtl (canon_readSend h)) (canon_takeCtl
      (canon_readSend h))) (canon_ite (canon_takeCtl (canon_readSend h)) (canon_ite (canon_rankRecord (canon_takeCtl
      (canon_readSend h))) (canon_takeCtl (canon_readSend h)))))

theorem canon_execTopk {n km1 seg lvl qen q recen recofs} (h : s.Canon) : (execTopk n km1 seg lvl qen q recen recofs s).Canon :=
    by
  refine canon_itemNode h fun _ _ h => ?_
  refine canon_ite (canon_nodeThresh h) ?_
  split
  · exact canon_nodeSt (canon_readSend h)
  · exact canon_takeItems h
  · refine canon_ite (canon_work (canon_readSend h)) ?_
    dsimp only
    split
    · exact canon_work (canon_readSend h)
    · exact canon_sendKey (canon_updNode (canon_work (canon_readSend h)))
  · exact canon_ite (canon_rankRecord (canon_takeCtl h)) (canon_takeCtl h)

theorem canon_execSeepm {n qen q} (h : s.Canon) : (execSeepm n qen q s).Canon :=
  canon_runNode h fun _ _ h => canon_ite (canon_nodeThresh (canon_readSend h)) (canon_nodeSt (canon_readSend h))

theorem canon_bitmapRead {a t idOf id done} (h : s.Canon) (hk : ∀ b w s, s.Canon → (done b w s).Canon) :
    (s.bitmapRead a t idOf id done).Canon :=
  canon_elemAccess h (fun _ _ h => canon_nodeRead h) fun _ _ _ h => hk _ _ _ h

theorem canon_execTomb {n scope a} (h : s.Canon) : (execTomb n scope a s).Canon := by
  refine canon_itemNode h fun _ _ h => ?_
  dsimp only
  split
  · exact canon_nodeSt h
  · exact canon_ite (canon_takeItems (canon_updMemOf (canon_nodeStatus h))) (canon_takeEntries (canon_updMemOf (canon_nodeStatus
      h)))
  · exact canon_ite (canon_work h) (canon_bitmapRead h fun _ _ _ h => canon_work h)
  · exact canon_passCtl h

theorem canon_testSet {a t idOf id done} (h : s.Canon) (hk : ∀ b w s, s.Canon → (done b w s).Canon) :
    (s.testSet a t idOf id done).Canon := by
  refine canon_elemAccess h (fun _ _ h => ?_) fun _ _ _ h => hk _ _ _ h
  split
  · exact Res.canon_bind (canon_xlateFor h) fun _ _ h => Res.canon_ite (canon_rmwAt h) (canon_meetFault h)
  · exact canon_nodeRmw h

theorem canon_execVset {n scope a a2 expdel ten} (h : s.Canon) : (execVset n scope a a2 expdel ten s).Canon := by
  refine canon_itemNode h fun _ _ h => ?_
  dsimp only
  split
  · exact canon_nodeSt h
  · exact canon_takeItems (canon_updMemOf (canon_nodeStatus h))
  · exact canon_ite (canon_work h) (canon_ite (canon_bitmapRead h fun _ _ _ h => canon_ite (canon_work h) (canon_testSet h fun _
      _ _ h => canon_work h)) (canon_testSet h fun _ _ _ h => canon_work h))
  · exact canon_passCtl h

theorem canon_execKipack {n base} (h : s.Canon) : (execKipack n base s).Canon := by
  refine canon_itemNode h fun _ _ h => ?_
  refine canon_ite ?_ ?_
  · split
    · exact canon_nodeSt h
    · exact canon_takeItems h
    · exact canon_work h
    · exact canon_takeCtl h
  · split
    · exact canon_takeItems h
    · exact canon_takeItems h
    · exact canon_nodeSt h
    · exact canon_nodeSt h
    · exact canon_work h
    · dsimp only
      split
      · exact canon_ite (canon_nodeTrap h) (canon_work h)
      · exact canon_nodeSt h
    · dsimp only
      split
      · exact canon_ite (canon_nodeTrap h) (canon_work h)
      · exact canon_nodeSt h
    · exact canon_ite (canon_nodeTrap h) (canon_takeCtl h)

theorem canon_execFcomp {n eps} (h : s.Canon) : (execFcomp n eps s).Canon := by
  refine canon_itemNode h fun _ _ h => ?_
  split
  · exact canon_nodeSt h
  · exact canon_ite (canon_takeItems h) (canon_takeEntries h)
  · exact canon_work h
  · exact canon_passCtl h

/-! ## Translation and EMT events (Machine/Walks.lean) -/

theorem canon_execWalkStart {die} (h : s.Canon) : (execWalkStart die s).Canon := by
  refine Out.canon_ite h ?_
  split <;> exact h

theorem canon_failAsks {asid l why} (h : s.Canon) : (s.failAsks asid l why).Canon := by
  unfold State.failAsks
  dsimp only
  split
  · exact h
  · exact canon_foldl (canon_faultRecord h) fun _ _ h => canon_withdraw (canon_pend h)

theorem canon_execWalkComplete {die k} (h : s.Canon) : (execWalkComplete die k s).Canon := by
  unfold execWalkComplete
  split
  · exact h
  · refine Out.canon_ite h ?_
    split
    · exact canon_failAsks h
    · have h := onOk_ok ‹_› (canon_walk (by exact h))
      exact canon_ite (canon_failAsks h) (canon_addTlb (canon_failAsks h))

theorem canon_makeRoom {n} (h : s.Canon) : (s.makeRoom n).Canon := canon_ite h (canon_ite (canon_evictLine h) (canon_updEmt h))

theorem canon_execLineFill {line} (h : s.Canon) : (execLineFill line s).Canon :=
  Out.canon_ite (canon_updEmt (canon_ite h (canon_makeRoom h))) (Out.canon_ite (canon_updEmt (canon_makeRoom h)) h)

theorem canon_execRetryTimer {k} (h : s.Canon) : (execRetryTimer k s).Canon := by
  unfold execRetryTimer
  split
  · exact h
  · exact Out.canon_ite (canon_updEmt h) h

/-! ## Moves that are no instruction (Machine/Next.lean) -/

theorem canon_outsideWrite {o a bs} (h : s.Canon) : (s.outsideWrite o a bs).Canon :=
  canon_ite h (canon_updMem h fun _ h => Memory.wf_putN h _ _)

theorem canon_evictCached {f va} (h : s.Canon) : (s.evictCached f va).Canon := canon_updCore h

theorem canon_evictTlb {k} (h : s.Canon) : (s.evictTlb k).Canon := h

theorem canon_softError {key fatal} (h : s.Canon) : (s.softError key fatal).Canon := by
  refine canon_updMem h fun m h => ?_
  dsimp only
  split
  · exact Memory.wf_poison (Memory.wf_where h _ _ _) _ _ _
  · exact Memory.wf_fixed (Memory.wf_where h _ _ _) _ _ _

theorem canon_accError {f k} (h : s.Canon) : (s.accError f k).Canon := canon_updNode h

theorem canon_move {a} (h : s.Canon) : (s.move a).Canon := by
  cases a with
  | outside o ad bs => exact canon_outsideWrite h
  | evictEmt l => exact canon_evictLine h
  | stage2Root p r => exact canon_ite (canon_updDev h) h
  | hostRead f o => exact canon_ite (canon_hostReads h) h
  | softError key fatal => exact canon_softError h
  | netError u => exact canon_updMem h fun _ h => Memory.wf_transitAdd h u
  | remoteRefused k n => exact canon_remoteRefused h
  | router at' out => exact canon_routerTurn h
  | barCycle on => exact canon_barCycleTurn h
  | hostLine l on => exact canon_hostTakes h
  | remoteDone k n t => exact canon_remoteEnd h
  | core f | node f k | port f p k | event i => exact h
  | pass n => exact canon_tick h
  | evictLine f va => exact canon_evictCached h
  | evictTlb k => exact canon_evictTlb h
  | hdmDecoder on | coolant t => exact canon_updDev h
  | writeLate f => exact canon_updCore h
  | accError f k => exact canon_accError h

/-! ## Instructions (Machine/Dispatch.lean) -/

theorem canon_exec {i} (h : s.Canon) : Out.Canon (exec i s) := by
  cases i with dsimp only [exec]
  | fetchBlock => exact canon_execFetchBlock h
  | commit => exact canon_execCommit h
  | grant => exact canon_execGrant h
  | takeNodeTrap => exact canon_execTakeNodeTrap h
  | wfeTimeout => exact canon_execWfeTimeout h
  | claimRetry => exact canon_execClaimRetry h
  | queueWake => exact canon_execQueueWake h
  | cmdComplete => exact canon_execCmdComplete h
  | add | sub | and | or | xor | andn | sll | srl | sra | ror | slt | sltn | seq | min | max | minn | maxn | clz
  | ctz | popc | mul | mulh | mulhn | div | divn | rem | remn | feq | flt | fle | addi | andi | ori | xori | slli
  | srli | srai | slti | sltni | lui | lba =>
    exact canon_regOp h
  | mksa => exact canon_execMksa h
  | taddr => exact canon_execTaddr h
  | tbase | tdim | tstr =>
    exact canon_tensOp h
  | tinfo | br | call | jr | halt | tret | sev =>
    exact canon_onCore h fun _ _ => canon_updCore h
  | fadd | fsub | fmul | fdiv | fsqrt | fmin | fmax | fma | cvt =>
    exact canon_regOpSt h
  | csrr => exact canon_execCsrr h
  | csrw => exact canon_execCsrw h
  | csrx => exact canon_execCsrx h
  | ld => exact canon_execLd h
  | st => exact canon_execSt h
  | trap => exact canon_execTrap h
  | wfe => exact canon_execWfe h
  | fence => exact canon_execFence h
  | lda => exact canon_execLda h
  | stl => exact canon_execStl h
  | cas | amoAdd | amoAnd | amoOr | amoXor | amoMin | amoMax | amoMinn | amoMaxn | amoSwap =>
    exact canon_amoExec h
  | binit => exact canon_execBinit h
  | barv => exact canon_execBarv h
  | bexp => exact canon_execBexp h
  | bwait => exact canon_execBwait h
  | qinit => exact canon_execQinit h
  | qenq => exact canon_execQenq h
  | qdeq => exact canon_execQdeq h
  | qtenq => exact canon_execQtenq h
  | qtdeq => exact canon_execQtdeq h
  | qstat => exact canon_execQstat h
  | qdrain => exact canon_execQdrain h
  | rwfill | rwfree | rpop | rpush =>
    exact canon_ringInstr h fun _ _ _ _ _ => canon_ite (canon_updCore h) h
  | rset => exact canon_execRset h
  | rget => exact canon_execRget h
  | issue => exact canon_execIssue h
  | cfgld => exact canon_execCfgld h
  | dcinv => exact canon_execDcinv h
  | dcdrain => exact canon_execDcdrain h
  | icinv => exact canon_execIcinv h
  | copy => exact canon_execCopy h
  | copyr => exact canon_execCopyr h
  | copyx => exact canon_execCopyx h
  | copyred => exact canon_execCopyred h
  | gather => exact canon_execGather h
  | scatter => exact canon_execScatter h
  | fill => exact canon_execFill h
  | agload => exact canon_execAgload h
  | sbar | carrive | cexpect | cnop =>
    exact canon_runCmd h fun _ _ h => h
  | qput => exact canon_execQput h
  | qget => exact canon_execQget h
  | depdec => exact canon_execDepdec h
  | mred => exact canon_execMred h
  | mredCombine => exact canon_execMredCombine h
  | mredTimeout => exact canon_execMredTimeout h
  | matom => exact canon_execMatom h
  | maxpy => exact canon_execMaxpy h
  | thresh => exact canon_execThresh h
  | launch => exact canon_execLaunch h
  | launchAccept => exact canon_execLaunchAccept h
  | mswitch => exact canon_execMswitch h
  | pref => exact canon_execPref h
  | inval => exact canon_execInval h
  | flush => exact canon_execFlush h
  | vadd | vsub | vmul | vfma | vdiv | vsqrt | vmin | vmax | vabs | vneg | vand | vor | vxor | vshl | vshr | vclamp
  | vrec | vrsq | vexp | vlog | vtanh | vsigm =>
    exact canon_elementNode h
  | vcmp | cvtNode | vperm | vred | vscan | vbcast | rdring =>
    exact canon_runNode h fun _ _ h => canon_dataTurn h
  | sel => exact canon_execSel h
  | mma => exact canon_execMma h
  | mpoly => exact canon_execMpoly h
  | miter => exact canon_execMiter h
  | msort => exact canon_execMsort h
  | mtrn => exact canon_execMtrn h
  | cseq | cpipe | cstrm =>
    exact canon_runNode h fun _ _ h => canon_loopTurn h
  | steer => exact canon_execSteer h
  | prime => exact canon_execPrime h
  | source => exact canon_execSource h
  | count => exact canon_execCount h
  | sink => exact canon_execSink h
  | selectToken => exact canon_execSelectToken h
  | mantleSwitch => exact canon_execMantleSwitch h
  | load => exact canon_execLoad h
  | store => exact canon_execStore h
  | ldfe => exact canon_execLdfe h
  | stfe => exact canon_execStfe h
  | ojoin => exact canon_execOjoin h
  | atom => exact canon_execAtom h
  | wrring => exact canon_execWrring h
  | fscan => exact canon_execFscan h
  | isect => exact canon_execIsect h
  | union => exact canon_execUnion h
  | repeatNode => exact canon_execRepeatNode h
  | sred => exact canon_execSred h
  | sjoin => exact canon_execSjoin h
  | sacc => exact canon_execSacc h
  | split => exact canon_execSplit h
  | merge => exact canon_execMerge h
  | rmerge => exact canon_execRmerge h
  | gath => exact canon_execGath h
  | scat => exact canon_execScat h
  | agen => exact canon_execAgen h
  | qport => exact canon_execQport h
  | pqadc => exact canon_execPqadc h
  | bound => exact canon_execBound h
  | topk => exact canon_execTopk h
  | seepm => exact canon_execSeepm h
  | tomb => exact canon_execTomb h
  | vset => exact canon_execVset h
  | kipack => exact canon_execKipack h
  | fcomp => exact canon_execFcomp h
  | walkStart => exact canon_execWalkStart h
  | walkComplete => exact canon_execWalkComplete h
  | lineFill => exact canon_execLineFill h
  | retryTimer => exact canon_execRetryTimer h
  | qportSubmit => exact canon_execQportSubmit h
  | distribute => exact canon_execDistribute h
  | placementAttempt => exact canon_execPlacementAttempt h
  | fenStart => exact canon_execFenStart h
  | aging => exact canon_execAging h
  | taskComplete => exact canon_execTaskComplete h
  | balancerWindow => exact canon_execBalancerWindow h
  | cloneNode => exact canon_execCloneNode h
  | rateRefill => exact canon_execRateRefill h
  | sliceEnd => exact canon_execSliceEnd h
  | freezeComplete => exact canon_execFreezeComplete h
  | contextSwitch => exact canon_execContextSwitch h
  | restoreComplete => exact canon_execRestoreComplete h
  | externalResponse => exact canon_execExternalResponse h
  | migPreCopy => exact canon_execMigPreCopy h
  | migStop => exact canon_execMigStop h
  | migRun => exact canon_execMigRun h
  | migResume => exact canon_execMigResume h
  | sleeveGo => exact canon_execSleeveGo h
  | faultVerdict => exact canon_execFaultVerdict h
  | twWrite | twRead | twRemove =>
    exact canon_onBar h (canon_tensorDo h)
  | invVa | invAsid | invIpa | invPart | invAll =>
    exact canon_onBar h (canon_invStart h)
  | invComplete => exact canon_execInvComplete h
  | registerWrite => exact canon_execRegisterWrite h
  | hostMemAccess => exact canon_execHostMemAccess h
  | peerAccess => exact canon_execPeerAccess h
  | portDown => exact canon_execPortDown h
  | portDownTimeout => exact canon_execPortDownTimeout h
  | spdmRequest => exact canon_execSpdmRequest h
  | bringUp => exact canon_execBringUp h
  | powerWindow => exact canon_execPowerWindow h
  | thermalThrottle => exact canon_execThermalThrottle h
  | thermalTrip => exact canon_execThermalTrip h
  | groupLaunchInstance => exact canon_execGroupLaunchInstance h
  | abandonedInstanceEnd => exact canon_execAbandonedInstanceEnd h
  | cxlLinkTrained => exact canon_execCxlLinkTrained h

/-! ## A step (Machine/Step.lean) -/

theorem canon_act {a} (h : s.Canon) : (s.act a).Canon := by
  unfold State.act
  split
  · exact canon_exec h
  · exact canon_move h

theorem canon_step (h : s.Canon) : (step s).Canon := by
  unfold step
  refine Out.canon_ite h ?_
  split
  · exact canon_act h
  · exact Out.canon_ite (canon_exec h) (canon_act h)

/-- Settles O59: a step runs one instruction or one move of the schedule, and each of them keeps memory in canonical form. -/
theorem memoryStaysCanonical : Obligations.MemoryStaysCanonical := by
  intro s t h e
  have hs : (step s).Canon := canon_step h
  rw [e] at hs
  exact hs

end Sys2Proof.Machine
end

section
/-! PROOF. Control registers (R15 to R18, R185): the values that csrr reads, the effect of csrw and csrx on the block, and the
cycles that a read of csr.cycle takes. -/
namespace Sys2Proof.Machine

/-! ## Numbers and values -/

/-- A write of csr.trapvec keeps all but bits [5:0]. -/
theorem and_not_low6 (v : Word) : v &&& ~~~0x3F#64 = BitVec.ofNat 64 (v.toNat / 64 * 64) := by
  have h : v &&& ~~~0x3F#64 = (v >>> 6) <<< 6 := by
    have hm : (~~~0x3F#64 : Word) = BitVec.allOnes 64 <<< 6 := by decide
    rw [hm]
    ext i hi
    simp only [BitVec.getElem_and, BitVec.getElem_shiftLeft, BitVec.getElem_allOnes, BitVec.getElem_ushiftRight]
    by_cases h6 : i < 6
    · simp [h6]
    · simp [h6, Nat.add_sub_cancel' (Nat.le_of_not_lt h6), BitVec.getLsbD_eq_getElem hi]
  rw [h]
  apply BitVec.eq_of_toNat_eq
  simp [BitVec.toNat_shiftLeft, Nat.shiftLeft_eq, Nat.shiftRight_eq_div_pow]

/-- A control register's number as the obligation writes it and as the model does. -/
theorem eq_ofNat12_iff {n : BitVec 12} {k : Nat} (hk : k < 2 ^ 12) : n = BitVec.ofNat 12 k ↔ n.toNat = k := by
  rw [← BitVec.toNat_inj, BitVec.toNat_ofNat, Nat.mod_eq_of_lt hk]

theorem csrAssigned_iff {n : BitVec 12} :
    csrAssigned n.toNat = true ↔ (n.toNat ≤ 0x11 ∨ (0x18 ≤ n.toNat ∧ n.toNat ≤ 0x1C)) ∨ n = 0x020#12 := by
  simp [csrAssigned, eq_ofNat12_iff]

theorem fenstat_eq (x : Fen) (frozen : Bool) :
    x.fenstat frozen = BitVec.ofNat 64 ((x.status &&& ~~~x.core.clr).toNat + min x.dropped 0xFFFF * 2 ^ 32 +
      (if frozen then 5 else x.state) * 2 ^ 56) := by
  unfold Fen.fenstat
  congr 1
  omega

theorem fenid_eq (x : Fen) :
    x.fenid = BitVec.ofNat 64 (x.width + x.height * 2 ^ 16 + x.col0 * 2 ^ 24 + x.row0 * 2 ^ 32 + x.die * 2 ^ 40) := by
  unfold Fen.fenid
  congr 1
  omega

/-! ## A read of csr.cycle -/

/-- The cycles that pass leave the core and the status of a fen that is not frozen. -/
theorem tick_fen {s : State} {f : Nat} {x : Fen} (h : s.fens[f]? = some x) (hz : s.fenFrozen x = false) (n : Nat) :
    ∃ y, (s.tick n).fens[f]? = some y ∧ y.core = x.core ∧ y.status = x.status := by
  simp only [State.tick, List.getElem?_map, h, Option.map_some, Option.some.injEq, exists_eq_left', hz, Bool.false_eq_true,
    if_false]
  split
  · exact ⟨rfl, rfl⟩
  · split
    · exact ⟨rfl, rfl⟩
    · exact ⟨rfl, rfl⟩

/-- Every other control register is read at once. -/
theorem csrValue_of_ne {s : State} {x : Fen} {n : BitVec 12} (h : n ≠ 0x020#12) :
    s.csrValue x n.toNat = (s.csrRead x n.toNat, s) := by
  unfold State.csrValue
  rw [if_neg (fun e => h ((eq_ofNat12_iff (by decide)).2 e))]

/-- A read of csr.cycle by a fen that is not frozen: cycles pass, and the value is their count less the fen's lag. -/
theorem csrValue_cycle {s : State} {f : Nat} {x : Fen} (h : s.fens[f]? = some x) (hz : s.fenFrozen x = false) :
    ∃ t y, s.csrValue x 0x020 = (BitVec.ofNat 64 (t.cycle - x.lag), t) ∧ t.fens[f]? = some y ∧ y.core = x.core ∧
      y.status = x.status ∧ s.cycle ≤ t.cycle ∧ t.mem = s.mem := by
  obtain ⟨y, hy, hcore, hstat⟩ := tick_fen h hz (Config.freeDelay s.free).toNat
  exact ⟨_, y, rfl, hy, hcore, hstat, Nat.le_add_right _ _, rfl⟩

/-! ## The instructions -/

section
variable {s : State} {f : Nat} {x : Fen} (hc : s.coreHere = some (f, x))
include hc

theorem exec_csrr_of_here (rd : Reg) (n : BitVec 12) :
    exec (.csrr rd n) s = .next ((s.csrValue x n.toNat).2.updCore f (fun c => (c.put rd (s.csrValue x n.toNat).1).adv)) := by
  rw [exec_csrr, execCsrr, onCore_next hc]

theorem exec_csrw_of_here {n : BitVec 12} (hn : csrAssigned n.toNat = true) (ra : Reg) :
    exec (.csrw n ra) s = .next (s.updCore f (fun c => (c.csrWrite n.toNat (c.get ra)).adv)) := by
  rw [exec_csrw, execCsrw, onCore_next hc, hn]
  rfl

theorem exec_csrx_of_here {n : BitVec 12} (hn : csrAssigned n.toNat = true) (rd ra : Reg) :
    exec (.csrx rd ra n) s = .next ((s.csrValue x n.toNat).2.updCore f
      (fun c => ((c.csrWrite n.toNat (c.get ra)).put rd (s.csrValue x n.toNat).1).adv)) := by
  rw [exec_csrx, execCsrx, onCore_next hc, hn]
  rfl

theorem exec_csrw_of_unassigned {n : BitVec 12} (hn : csrAssigned n.toNat = false) (ra : Reg) :
    exec (.csrw n ra) s = .next (s.abortTrap f 2 x.core.word) := by
  rw [exec_csrw, execCsrw, onCore_next hc, hn]
  rfl

theorem exec_csrx_of_unassigned {n : BitVec 12} (hn : csrAssigned n.toNat = false) (rd ra : Reg) :
    exec (.csrx rd ra n) s = .next (s.abortTrap f 2 x.core.word) := by
  rw [exec_csrx, execCsrx, onCore_next hc, hn]
  rfl

end

theorem adv_eq_after (c : Core) : c.adv = c.after 0 := by simp [Core.adv, Core.after]

/-- csr.fenstat, csr.rm and csr.trapvec are all that a write changes. -/
theorem csrWrite_eq (c : Core) (n : BitVec 12) (v : Word) :
    c.csrWrite n.toNat v = { c with
      clr := if n = 0x000#12 then c.clr ||| BitVec.ofNat 16 v.toNat else c.clr,
      locRm := if n = 0x010#12 then BitVec.ofNat 2 v.toNat else c.locRm,
      locVec := if n = 0x018#12 then BitVec.ofNat 64 (v.toNat / 64 * 64) else c.locVec } := by
  unfold Core.csrWrite
  rw [and_not_low6]
  simp only [eq_ofNat12_iff (show 0x000 < 2 ^ 12 by decide), eq_ofNat12_iff (show 0x010 < 2 ^ 12 by decide),
    eq_ofNat12_iff (show 0x018 < 2 ^ 12 by decide)]
  split
  · next h => simp [h]
  · split
    · next h => simp [h]
    · split
      · simp
      · rfl

/-- Settles O5: csrr reads `State.csrRead`, whose values are those of R15 to R18, csrw and csrx write by `Core.csrWrite`, and a
read of csr.cycle lets cycles pass that leave the core of a fen that is not frozen as it is. -/
theorem csrResults : Obligations.CsrResults := by
  refine ⟨fun s f x rd ra n hc => ?_, fun s f x rd ra hc hz => ?_⟩
  · intro c v assigned read written
    have hread : s.csrRead x n.toNat = read := by
      simp only [State.csrRead, fenstat_eq, fenid_eq, read, c, eq_ofNat12_iff, Nat.reducePow, Nat.reduceLT, BitVec.ofNat_toNat]
    have hwrite : c.csrWrite n.toNat v = written := csrWrite_eq c n v
    have hval : n ≠ 0x020#12 → s.csrValue x n.toNat = (read, s) := fun hn => hread ▸ csrValue_of_ne hn
    refine ⟨fun hn => ?_, fun ha => ?_, fun ha => ?_, fun hv ha hn => ⟨?_, ?_⟩⟩
    · refine regStepAt_of0 hc (fun c => (c.put rd read).adv) ((exec_csrr_of_here hc rd n).trans ?_) rfl
      rw [hval hn]
    · exact coreStep_of hc _ (exec_csrw_of_here hc (csrAssigned_iff.2 ha) ra) (hwrite ▸ adv_eq_after _)
    · have hn : n ≠ 0x020#12 := by
        rintro rfl
        exact absurd ha (by decide)
      refine coreStep_of hc (fun c => ((c.csrWrite n.toNat (c.get ra)).put rd read).adv)
        ((exec_csrx_of_here hc (csrAssigned_iff.2 (.inl ha)) rd ra).trans ?_) (hwrite ▸ adv_eq_after _)
      rw [hval hn]
    · exact traps_of hc hv (exec_csrw_of_unassigned hc (Bool.eq_false_iff.2 fun h => (csrAssigned_iff.1 h).elim ha hn) ra)
    · exact traps_of hc hv (exec_csrx_of_unassigned hc (Bool.eq_false_iff.2 fun h => (csrAssigned_iff.1 h).elim ha hn) rd ra)
  · obtain ⟨t, y, ht, hy, hcore, hstat, hcyc, hmem⟩ := csrValue_cycle (coreHere_fens hc) hz
    have hr := exec_csrr_of_here hc rd 0x020#12
    have hx := exec_csrx_of_here hc (n := 0x020#12) rfl rd ra
    simp only [show (0x020#12).toNat = 0x020 from rfl, ht] at hr hx
    refine ⟨_, _, hr, hx, (updCore_only hy _).fen, hcyc, ?_, hmem, hstat⟩
    simp only [hcore]
    exact adv_eq_after _

end Sys2Proof.Machine
end
